-- ==== Sys2Proof/Word.lean ====
section
/-!
DEFINITION. The bit-vector types of the machine: bytes, 32-bit lane values, 64-bit scalars, addresses.
-/
namespace Sys2Proof

/-- A byte of memory or scratch. -/
abbrev Byte := BitVec 8

/-- A lane's value (R52). -/
abbrev W32 := BitVec 32

/-- A scalar register, a code word, a 64-bit lane pair (R52, R83). -/
abbrev W64 := BitVec 64

/-- sr.team (R108): the name of a team in traces, dumps and debug registers. -/
abbrev TeamId := BitVec 32

/-- The 1,024 lane bits of a team: mask word w is bits 32w + 31 down to 32w (R3). -/
abbrev LaneMask := BitVec 1024

end Sys2Proof
end

