-- ==== Sys2Proof/Machine/SysRegs.lean ====
section
/-!
DEFINITION. The system registers by number (R222 and the chapters that extend it): who may read and write them, where
they live, their reset values, and the values a write must not have. Checks that need the state stand with the writes.
-/
namespace Sys2Proof.Machine

/-- Where a system register lives. -/
inductive SysKind where
  /-- In the team: FPCTL, FPLANE, WCNT, TGCNT. -/
  | team
  /-- One for the module. -/
  | module
  /-- One a partition, reached by the partition's own teams. -/
  | own
  /-- Register `r` of partition `p`, at 0x2000 + 0x100 p + r. -/
  | of (p r : Nat)
  /-- The discard count of a slice. -/
  | slice (i : Nat)
  /-- Register `r` of the trace unit of die `d`. -/
  | trace (d r : Nat)
  /-- Register `r` of the replay unit of die `d`. -/
  | replay (d r : Nat)
  deriving DecidableEq, Repr

/-- A system register: lowest level that may read, lowest that may write (`none`: no such access), whether it is per
lane. -/
structure SysInfo where
  rd : Option Nat
  wr : Option Nat
  kind : SysKind
  perLane : Bool
  deriving DecidableEq, Repr

/-- `lo ≤ n ≤ hi`. -/
def within (n lo hi : Nat) : Bool := decide (lo ≤ n) && decide (n ≤ hi)

def SysInfo.mk' (r w : Option Nat) (k : SysKind) : SysInfo := ⟨r, w, k, false⟩

/-- Registers below 0x0100. -/
def sysInfoLow (n : Nat) : Option SysInfo :=
  if n = 0x0010 then some (.mk' (some 0) (some 0) .team)
  else if n = 0x0011 then some ⟨some 0, some 0, .team, true⟩
  else if within n 0x0020 0x0021 then some (.mk' (some 0) none .team)
  else if within n 0x0030 0x0031 then some (.mk' (some 0) none .module)
  else if within n 0x0032 0x0033 then some (.mk' (some 0) (some 2) .module)
  else none

/-- Registers 0x0100 to 0x017F: the partition's own. -/
def sysInfoOwn (n : Nat) : Option SysInfo :=
  if within n 0x0100 0x0103 then some (.mk' (some 1) (some 1) .own)
  else if within n 0x0110 0x0113 then some (.mk' (some 1) (some 1) .own)
  else if n = 0x0114 then some (.mk' none (some 1) .own)
  else if within n 0x0120 0x013F then
    some (.mk' (some 1) (if n % 4 = 3 then none else some 1) .own)
  else if n = 0x0140 then some (.mk' (some 1) (some 1) .own)
  else if n = 0x0150 then some (.mk' (some 1) (some 1) .own)
  else if within n 0x0151 0x015B then some (.mk' (some 1) none .own)
  else if n = 0x015C then some (.mk' (some 1) (some 1) .own)
  else if n = 0x0160 then some (.mk' (some 1) (some 1) .own)
  else if within n 0x0170 0x0171 then some (.mk' (some 1) (some 1) .own)
  else if n = 0x0174 then some (.mk' (some 1) (some 1) .own)
  else if n = 0x0175 then some (.mk' none (some 1) .own)
  else if within n 0x0179 0x017A then some (.mk' (some 1) (some 1) .own)
  else none

/-- Registers 0x0180 to 0x01FF: module, ring, replay and trace registers. -/
def sysInfoUnit (n : Nat) : Option SysInfo :=
  if within n 0x0180 0x0183 then some (.mk' (some 2) (some 2) .module)
  else if n = 0x0190 then some (.mk' (some 2) (some 2) .module)
  else if within n 0x0198 0x019B then some (.mk' (some 2) (some 2) .module)
  else if within n 0x01A0 0x01AF then some (.mk' (some 1) (some 1) .own)
  else if within n 0x01B0 0x01BF then
    some (.mk' (some 2) (if n % 4 = 3 then none else some 2) (.replay ((n - 0x01B0) / 4) (n % 4)))
  else if within n 0x01C0 0x01FF then
    let d := (n - 0x01C0) / 16
    let r := n % 16
    if r < 4 || within r 8 11 then some (.mk' (some 1) (some 1) (.trace d r))
    else if r = 4 then some (.mk' (some 1) none (.trace d r))
    else none
  else none

/-- Registers 0x0400 to 0x09FF: counters, bins, catalogue. -/
def sysInfoCount (n : Nat) : Option SysInfo :=
  if within n 0x0400 0x045F then some (.mk' (some 1) none (.slice (n - 0x0400)))
  else if within n 0x0500 0x050F then some (.mk' (some 0) (some 1) .own)
  else if within n 0x0600 0x064F then some (.mk' (some 0) (some 1) .own)
  else if within n 0x0660 0x067D then some (.mk' (some 1) (some 1) .own)
  else if within n 0x0800 0x09FF then some (.mk' (some 0) none .module)
  else none

/-- Registers 0x2000 + 0x100 p + r, p at most 16 (R222, R347, R383, R414, R427). -/
def sysInfoPart (n : Nat) : Option SysInfo :=
  let p := (n - 0x2000) / 0x100
  let r := n % 0x100
  if 0x2000 ≤ n ∧ p ≤ 16 ∧ r ≤ 30 then
    some (.mk' (some 2) (if r = 24 then none else some 2) (.of p r))
  else none

/-- The register numbered `n`; `none` where the number is unlisted. -/
def sysInfo (n : Nat) : Option SysInfo :=
  if n < 0x0100 then sysInfoLow n
  else if n < 0x0180 then sysInfoOwn n
  else if n < 0x0400 then sysInfoUnit n
  else if n < 0x2000 then sysInfoCount n
  else sysInfoPart n

/-- Reset values. The key is the register number; for per-partition registers it is 0x2000 + r. A register the tables
give no reset value for (VRCMD, DBGDATA, DBGRUN, CREDLIM) holds nothing here. -/
def sysReset (n : Nat) : W64 :=
  if n = 0x0030 then 0x0000_2008_1018_0140#64        -- MCAP: KW 32, KN 8, KF 16, LAT 24, WAKE 320 (R317)
  else if n = 0x0031 then 1#64                       -- EVCATVER (R411)
  else if n = 0x0032 then 0x0001_0000#64             -- DOMCFG: DSIZE 1, DEVN 0 (R385)
  else if n = 0x0140 then 1000#64                    -- GAPTO (R222)
  else if n = 0x0190 then 10#64                      -- MGATE (R317)
  else if within n 0x0198 0x019B then 0x000A_0100#64 -- GOVCTL: WIN 10, LIM 256 (R319)
  else if within n 0x1_0198 0x1_019B then 0x000A_0100#64 -- its WIN and LIM in force (R320)
  else if n = 0x2000 then 0x5F5E_1000#64             -- WDLIM (R347)
  else if n = 0x2005 then 200#64                     -- CKINT
  else if n = 0x2007 then 1#64                       -- WEIGHT
  else if n = 0x2008 then 50#64                      -- AGEINT
  else if n = 0x2009 then 0x4001#64                  -- BOFF
  else if n = 0x200A then 100000#64                  -- REPLTO
  else if n = 0x2014 then 0x0014_03E8#64             -- TURN
  else 0#64

/-- The catalogue of events (R411): PRES in bit 63, SHR in bit 62. -/
def evCat (e : Nat) : W64 :=
  if within e 0x001 0x00C then 0x8000_0000_0000_0000#64
  else if within e 0x100 0x104 then 0xC000_0000_0000_0000#64
  else 0#64

/-- `v` has no bit outside `m`. -/
def bitsIn (v m : W64) : Bool := v &&& ~~~m == 0#64

/-- `v` is a multiple of `m` (a power of two or not). -/
def multOf (v : W64) (m : Nat) : Bool := v.toNat % m == 0

/-- `lo ≤ v ≤ hi`. -/
def inRange (v : W64) (lo hi : Nat) : Bool := within v.toNat lo hi

/-- Zero fields, ranges and alignments of per-partition register `r` (R347, R268, R272, R273, R383, R414, R427). -/
def partValueOk (r : Nat) (v : W64) : Bool :=
  if r = 0 then inRange v (2 ^ 20) (2 ^ 47 - 1)
  else if r = 1 then multOf v 0x2_0000 && inRange v 0 0x38_0000
  else if r = 2 then multOf v 4096
  else if r = 3 then bitsIn v 0xFF_FFFF#64
  else if r = 4 then inRange v 0 (2 ^ 32)
  else if r = 5 then inRange v 20 5000
  else if r = 6 then bitsIn v 0xF3#64 && decide (v.toNat % 4 < 2)
  else if r = 7 then inRange v 0 255
  else if r = 8 then inRange v 1 10000
  else if r = 9 then
    let mn := v.toNat % 256
    let cap := v.toNat / 256 % 256
    bitsIn v 0xFFFF#64 && decide (1 ≤ mn) && decide (1 ≤ cap) && decide (mn ≤ cap)
  else if r = 10 then inRange v 1000 10000000
  else if r = 11 then bitsIn v 0x000F_FFFF_FFFC_0001#64
  else if r = 12 || r = 18 || r = 19 then multOf v 4096
  else if r = 13 || r = 15 || r = 16 || r = 17 || r = 27 then multOf v 0x1_0000
  else if r = 14 then inRange v 0 8192
  else if r = 20 then
    bitsIn v 0xFFFF_FFFF#64 && within (v.toNat % 0x1_0000) 50 60000 && within (v.toNat / 0x1_0000) 0 1000
  else if r = 23 then bitsIn v 3#64
  else if r = 25 then bitsIn v 0xFFFF#64
  else if r = 26 then bitsIn v 0xFFF#64 && decide (v.toNat % 4 < 3)
  else if r = 28 then inRange v 0 10000000
  else if r = 29 then bitsIn v 0xF03#64
  else if r = 30 then bitsIn v 0x8000_0001_FFFF_FFFF#64
  else true

/-- Zero fields, ranges and alignments of the registers below 0x2000. -/
def ownValueOk (n : Nat) (v : W64) : Bool :=
  if n = 0x0010 then bitsIn v 3#64
  else if n = 0x0032 then
    bitsIn v 0x07FF_03FF#64 && within (v.toNat / 0x1_0000) 1 1024 && decide (v.toNat % 1024 < v.toNat / 0x1_0000)
  else if n = 0x0101 || n = 0x0181 then multOf v 8
  else if n = 0x0110 then bitsIn v 3#64
  else if n = 0x0111 then bitsIn v 0x8000_0000_FFFF_FFFF#64
  else if n = 0x0112 then bitsIn v 0x8000_0000_FFFF_FFFF#64 && multOf v 8
  else if n = 0x0114 then inRange v 0 4
  else if within n 0x0120 0x013F then
    if n % 4 = 0 then bitsIn v 0x0000_00FF_FFFF_000F#64
    else if n % 4 = 1 then bitsIn v 0x00FF_FFFF_FFFF_FFFF#64
    else bitsIn v 0x0000_0001_FFFF_FFFF#64
  else if n = 0x0140 then inRange v 1 1000000
  else if n = 0x0150 then bitsIn v 0xFFFF_FFFF_FFFF#64
  else if n = 0x015C then bitsIn v 3#64
  else if n = 0x0160 then multOf v 0x2_0000
  else if n = 0x0170 then bitsIn v 0x000F_FFFF_FFFC_0001#64
  else if n = 0x0171 then bitsIn v 0x8000_0000_00FF_FFFF#64
  else if n = 0x0174 || n = 0x0179 then multOf v 4096 && bitsIn v 0x00FF_FFFF_FFFF_FFFF#64
  else if n = 0x017A then bitsIn v 0x0000_FFFF_FFFF_000F#64 && within (v.toNat % 16) 4 12
  else if n = 0x0190 then inRange v 0 1000
  else if within n 0x0198 0x019B then
    bitsIn v 0x8000_0000_03FF_01FF#64 && within (v.toNat / 0x1_0000 % 1024) 1 1000 && within (v.toNat % 512) 1 256
  else if within n 0x01A0 0x01AF then bitsIn v 0x00FF_FFFF_FFFF_FFC1#64
  else if within n 0x01B0 0x01BF then
    if n % 4 = 0 then
      let kind := v.toNat / 2 ^ 58 % 4
      let target := v.toNat / 2 ^ 48 % 256
      bitsIn v 0xCCFF_0000_0000_0000#64 && decide (kind < 2) && decide (target < if kind = 0 then 96 else 4)
    else if n % 4 = 1 then multOf v 0x1_0000 && inRange v 0 (0xC0_0000_0000 - 1)
    else multOf v 0x1_0000 && decide (0x2_0000 ≤ v.toNat)
  else if within n 0x01C0 0x01FF then
    let r := n % 16
    if r = 0 then
      bitsIn v 0xC0FF_FFFF_FF1F_0003#64 && within (v.toNat / 2 ^ 48 % 256) 1 255 && within (v.toNat / 2 ^ 40 % 256) 1 64
        && within (v.toNat / 2 ^ 32 % 256) 1 64 && within (v.toNat / 2 ^ 24 % 256) 8 24 && decide (v.toNat % 4 < 3)
    else if r = 1 then bitsIn v 0x00FF_FFFF_FFFF_F000#64
    else if r = 2 then bitsIn v 0x0000_FFFF_FFFF_F000#64 && inRange v 4096 (2 ^ 36)
    else if r = 3 then bitsIn v 0x8000_FFFF_FFFF_FFFF#64
    else bitsIn v 0x3F_FFFF#64 && within (v.toNat / 0x1_0000) 0 47
  else if within n 0x0500 0x0507 then bitsIn v 0xC000_0000_0000_FFFF#64
  else if within n 0x0508 0x050F || within n 0x0600 0x064F then bitsIn v 0xFFFF_FFFF_FFFF#64
  else if within n 0x0660 0x067D then bitsIn v 0x00FF_FFFF_FFFF_FFFF#64
  else true

/-- The checks of a written value that no state takes part in (R222). -/
def sysValueOk (n : Nat) (v : W64) : Bool :=
  if n < 0x2000 then ownValueOk n v else partValueOk (n % 0x100) v

end Sys2Proof.Machine
end

