-- ==== Sys2Proof/Syntax.lean ====
section
/-!
DEFINITION. The syntax of Omaique instructions and of the device's events: one constructor of `Instr` for each row of
spec/opcode_table.json. A machine instruction carries its decoded fields (R19-R28, R41, R42); what a device event
concerns stands in the state (`Event`).
-/
namespace Sys2Proof

/-! ## Operands, destinations, guards (R19-R21, R29) -/

/-- A source operand byte (R21): a vector register with its last-read bit (R35), a scalar register, a constant-table
entry, a literal word of the clause. An operand field that an instruction does not use is `v 0 false`, the zero byte. -/
inductive Opnd where
  | v (i : Fin 64) (last : Bool)
  | s (i : Fin 64)
  | k (i : Fin 64)
  | lit (i : Fin 64)
  deriving DecidableEq, Repr

/-- A destination (R19): D[6] selects the file. An unused D is `v 0`. -/
inductive Dest where
  | v (i : Fin 64)
  | s (i : Fin 64)
  deriving DecidableEq, Repr

/-- A guard (R19 GCL, R29). The bit position is the raw GBIT: for a vector guard it must be below 32 (R19). -/
inductive Guard where
  | none
  | vec (r : Fin 32) (bit : Fin 64) (neg : Bool)
  | scal (r : Fin 32) (bit : Fin 64) (neg : Bool)
  deriving DecidableEq, Repr

/-! ## MOD sets (R41) -/

/-- Set IW: signed and unsigned integer types. -/
inductive IW where
  | i64 | n64 | i32 | n32 | i16 | n16 | i8 | n8
  deriving DecidableEq, Repr

/-- Set IS: signed integer types. -/
inductive IS where
  | i64 | i32 | i16 | i8
  deriving DecidableEq, Repr

/-- Set BW: untyped widths. -/
inductive BW where
  | b64 | b32 | b16 | b8
  deriving DecidableEq, Repr

/-- Set SX. -/
inductive SX where
  | n | i
  deriving DecidableEq, Repr

/-- Set CV: the conversion pairs of `scvt`, destination first. -/
inductive CV where
  | f32i64 | f32n64 | i64f32 | n64f32 | f16f32 | f32f16 | bf16f32 | f32bf16
  deriving DecidableEq, Repr

/-- Set RM: the rounding modifier. -/
inductive RM where
  | fctl | rne | rz | rup | rdn
  deriving DecidableEq, Repr

/-- Set CMP. -/
inductive Cmp where
  | eq | ne | lt | le | gt | ge | uno | ord
  deriving DecidableEq, Repr

/-- Set SZL: load sizes and extensions. -/
inductive SZL where
  | n8 | i8 | n16 | i16 | b32 | b64 | b128
  deriving DecidableEq, Repr

/-- Set SZS: store sizes. -/
inductive SZS where
  | b8 | b16 | b32 | b64 | b128
  deriving DecidableEq, Repr

/-- Set SZV: version load sizes. -/
inductive SZV where
  | b32 | b64 | b128
  deriving DecidableEq, Repr

/-- Set AT (and its first six, set RD): atomic operations. -/
inductive AT where
  | add | min | max | and | or | xor | xchg | incwrap
  deriving DecidableEq, Repr

/-- Set PL. -/
inductive PL where
  | near | die | far
  deriving DecidableEq, Repr

/-- Set CC. -/
inductive CC where
  | clean | inv | cinv
  deriving DecidableEq, Repr

/-- Set FN. -/
inductive FN where
  | acqrel | acq | rel
  deriving DecidableEq, Repr

/-- The kind of a fence, and its lookahead, which has no effect: a fence has no result (R31, R32). -/
structure FenceOp where
  kind : FN
  la : Fin 16
  deriving DecidableEq, Repr

/-- Set SH. -/
inductive SH where
  | idx | xor | up | down
  deriving DecidableEq, Repr

/-- Set VT. -/
inductive VT where
  | all | any | uni
  deriving DecidableEq, Repr

/-- Set TO: team reductions and scans. -/
inductive TO where
  | addI32 | addF32 | minI32 | maxI32 | minF32 | maxF32 | andB32 | orB32
  deriving DecidableEq, Repr

/-- Set MS: the store formats of a bank. -/
inductive MS where
  | f32 | bf16 | f16
  deriving DecidableEq, Repr

/-! ## Control bytes (R42) -/

/-- The scope codes 0-5 (R25, R7). -/
inductive Scope where
  | team | core | die | dev | dom | sys
  deriving DecidableEq, Repr

/-- The order codes of atomics (R42). -/
inductive Order where
  | relaxed | acq | rel | acqrel
  deriving DecidableEq, Repr

/-- The type codes of `scmp` (R42). -/
inductive ScmpTy where
  | i64 | n64 | i32 | n32
  deriving DecidableEq, Repr

/-- The type codes of `fcmp` (R42). -/
inductive FcmpTy where
  | f32 | f16 | bf16
  deriving DecidableEq, Repr

/-- The type codes of `atom` and `atoms` (R42). -/
inductive AtomTy where
  | i32 | n32 | i64 | n64 | f32
  deriving DecidableEq, Repr

/-- The sixteen number formats and their codes in order (R42, R52). -/
inductive Fmt where
  | i8 | n8 | i16 | n16 | i32 | n32 | i64 | n64 | f32 | f16 | bf16 | e4m3 | e5m2 | l6 | l4 | i4
  deriving DecidableEq, Repr

/-- The special registers of `srd` (R43, R108). -/
inductive SReg where
  | lane | team | node | graph | depth | nrec | part | core | die | dev | gtime | grun | clock | fflags | fctl | mask
  deriving DecidableEq, Repr

/-! ## Field groups of the forms (R19-R28) -/

/-- The R form after its control bytes are taken out: guard, destination, three operands, lookahead. -/
structure RArgs where
  g : Guard
  d : Dest
  a : Opnd
  b : Opnd
  c : Opnd
  la : Fin 16
  deriving DecidableEq, Repr

/-- The I form (R24). LA and REU are always zero here. -/
structure IArgs where
  g : Guard
  d : Dest
  a : Opnd
  imm : BitVec 16
  deriving DecidableEq, Repr

/-- The M form (R25): `off` counts accesses of the instruction's size. -/
structure MArgs where
  g : Guard
  d : Dest
  a : Opnd
  b : Opnd
  off : BitVec 8
  la : Fin 16
  deriving DecidableEq, Repr

/-- The X form (R26). -/
structure XArgs where
  g : Guard
  d : Dest
  a : Opnd
  bnd : Fin 256
  acc : Fin 4
  xo : Fin 64
  reu : Bool
  la : Fin 16
  deriving DecidableEq, Repr

/-- Who writes a system register: the team that issues `syswr` with its guard and source operand (R222), or the host as
a level-2 team of partition `p` through SYSSEL (R425). -/
inductive SysBy where
  | team (g : Guard) (a : Opnd)
  | host (p : Fin 32) (v : W64)
  deriving DecidableEq, Repr

/-- A write of system register `n`. -/
structure SysWr where
  n : BitVec 16
  by_ : SysBy
  deriving DecidableEq, Repr

/-- Which copy a load's bytes come from (R298): the home, a near-cache copy of its core, a far-cache copy of its die. A
copy that is not there leaves the home. -/
inductive CopySrc where
  | home | near | far
  deriving DecidableEq, Repr

/-- The operations of a remote or inbound access (R376, R384), of a remote contribution (R303) and of a remote version
access (R338). -/
inductive RemoteOp where
  | read (len : Nat)
  | write (data : List Byte)
  | atomic (op : AT) (cas : Bool) (t : AtomTy) (b e : W64)
  | rdo (x idx : W32)
  | ldv (v : W32) (len : Nat)
  | latest (bound : W32) (len : Nat)
  | vqry
  | stv (v : W32) (data : List Byte)
  | vflr (f : W32)
  /-- An addition to an arrival word (R365): the team it names, the word's scratch offset, the bytes. -/
  | arrival (t : TeamId) (off n : Nat)
  deriving DecidableEq, Repr

/-- What a device event concerns, and what the outside world or an open order decides about it. Each event reads the
fields its constructor names; the model's own (log 1). -/
structure Event where
  team : TeamId := 0
  seq : Nat := 0
  part : Nat := 0
  gslot : Nat := 0
  node : Nat := 0
  die : Nat := 0
  core : Nat := 0
  slot : Nat := 0
  slice : Nat := 0
  eng : Nat := 0
  dev : Nat := 0
  port : Nat := 0
  domid : Nat := 0
  idx : Nat := 0
  addr : Nat := 0
  val : W64 := 0
  flag : Bool := false
  src : CopySrc := .home
  op : RemoteOp := .read 0
  bytes : List Byte := []
  words : List W32 := []
  deriving DecidableEq, Repr

/-! ## Instructions and events -/

/-- One constructor for each row of spec/opcode_table.json. -/
inductive Instr where
  -- scalar and control
  | nop (g : Guard)
  | smov (t : BW) (x : RArgs)
  | sadd (t : IW) (x : RArgs)
  | ssub (t : IW) (x : RArgs)
  | smul (t : IW) (x : RArgs)
  | smulh (t : IW) (x : RArgs)
  | smad (t : IW) (x : RArgs)
  | sand (t : BW) (x : RArgs)
  | sor (t : BW) (x : RArgs)
  | sxor (t : BW) (x : RArgs)
  | snot (t : BW) (x : RArgs)
  | sshl (t : BW) (x : RArgs)
  | sshr (t : BW) (x : RArgs)
  | ssar (t : BW) (x : RArgs)
  | srot (t : BW) (x : RArgs)
  | smin (t : IW) (x : RArgs)
  | smax (t : IW) (x : RArgs)
  | scmp (cond : Cmp) (t : ScmpTy) (bit : Fin 64) (x : RArgs)
  | ssel (x : RArgs)
  | spopc (t : BW) (x : RArgs)
  | sclz (t : BW) (x : RArgs)
  | sbfe (t : SX) (x : RArgs)
  | sbfi (x : RArgs)
  | scvt (t : CV) (x : RArgs)
  | slit (h : Fin 4) (keep : Bool) (x : IArgs)
  | saddImm (t : IW) (x : IArgs)
  | smulImm (t : IW) (x : IArgs)
  | sandImm (t : BW) (x : IArgs)
  | sorImm (t : BW) (x : IArgs)
  | sxorImm (t : BW) (x : IArgs)
  | sshlImm (t : BW) (x : IArgs)
  | sshrImm (t : BW) (x : IArgs)
  | ssarImm (t : BW) (x : IArgs)
  | srotImm (t : BW) (x : IArgs)
  | sminImm (t : IW) (x : IArgs)
  | smaxImm (t : IW) (x : IArgs)
  | sbfeImm (t : SX) (x : IArgs)
  | sbfiImm (x : IArgs)
  | br (g : Guard) (disp : BitVec 32)
  | brd (g : Guard) (target join : BitVec 16)
  | brx (x : RArgs)
  | call (g : Guard) (d : Dest) (disp : BitVec 32)
  | ret (x : RArgs)
  | exit (g : Guard)
  | yield (g : Guard)
  | srd (r : SReg) (g : Guard) (d : Dest)
  | callx (x : RArgs)
  -- vector and team-wide
  | vadd (t : IW) (x : RArgs)
  | vsub (t : IW) (x : RArgs)
  | vmul (t : IW) (x : RArgs)
  | vmulh (t : IW) (x : RArgs)
  | vmad (t : IW) (x : RArgs)
  | vand (t : BW) (x : RArgs)
  | vor (t : BW) (x : RArgs)
  | vxor (t : BW) (x : RArgs)
  | vnot (t : BW) (x : RArgs)
  | vshl (t : BW) (x : RArgs)
  | vshr (t : BW) (x : RArgs)
  | vsar (t : BW) (x : RArgs)
  | vmin (t : IW) (x : RArgs)
  | vmax (t : IW) (x : RArgs)
  | vabs (t : IS) (x : RArgs)
  | vneg (t : IS) (x : RArgs)
  | vpopc (t : BW) (x : RArgs)
  | vclz (t : BW) (x : RArgs)
  | vbfe (t : SX) (x : RArgs)
  | vbfi (x : RArgs)
  | vsel (x : RArgs)
  | vcmp (cond : Cmp) (t : IW) (bit : Fin 32) (x : RArgs)
  | vaddImm (t : IW) (x : IArgs)
  | vmulImm (t : IW) (x : IArgs)
  | vandImm (t : BW) (x : IArgs)
  | vorImm (t : BW) (x : IArgs)
  | vxorImm (t : BW) (x : IArgs)
  | vshlImm (t : BW) (x : IArgs)
  | vshrImm (t : BW) (x : IArgs)
  | vsarImm (t : BW) (x : IArgs)
  | vminImm (t : IW) (x : IArgs)
  | vmaxImm (t : IW) (x : IArgs)
  | fadd (rm : RM) (x : RArgs)
  | fmul (rm : RM) (x : RArgs)
  | ffma (rm : RM) (x : RArgs)
  | fmin (nan : Bool) (x : RArgs)
  | fmax (nan : Bool) (x : RArgs)
  | fcmp (cond : Cmp) (t : FcmpTy) (bit : Fin 32) (x : RArgs)
  | frcp (x : RArgs)
  | frsq (x : RArgs)
  | fsqrt (rm : RM) (x : RArgs)
  | fex2 (x : RArgs)
  | flg2 (x : RArgs)
  | fsin (x : RArgs)
  | fcos (x : RArgs)
  | fclass (f : Fmt) (x : RArgs)
  | cvt (rm : RM) (dst src : Fmt) (x : RArgs)
  | cvtNosat (rm : RM) (dst src : Fmt) (x : RArgs)
  | hadd2F16 (rm : RM) (x : RArgs)
  | hmul2F16 (rm : RM) (x : RArgs)
  | hfma2F16 (rm : RM) (x : RArgs)
  | hadd2Bf16 (rm : RM) (x : RArgs)
  | hmul2Bf16 (rm : RM) (x : RArgs)
  | hfma2Bf16 (rm : RM) (x : RArgs)
  | shfl (op : SH) (x : RArgs)
  | bcast (x : RArgs)
  | ballot (bit : Fin 32) (x : RArgs)
  | vote (op : VT) (dbit : Fin 64) (bit : Fin 32) (x : RArgs)
  | tred (op : TO) (x : RArgs)
  | tscan (op : TO) (x : RArgs)
  -- memory
  | ld (t : SZL) (x : MArgs)
  | ldAcq (t : SZL) (sc : Scope) (x : MArgs)
  | st (t : SZS) (x : MArgs)
  | stRel (t : SZS) (sc : Scope) (x : MArgs)
  | lds (t : SZL) (x : MArgs)
  | sts (t : SZS) (x : MArgs)
  | atom (op : AT) (sc : Scope) (o : Order) (t : AtomTy) (x : RArgs)
  | atomCas (sc : Scope) (o : Order) (t : AtomTy) (x : RArgs)
  | red (op : AT) (sc : Scope) (o : Order) (t : AtomTy) (x : RArgs)
  | rdo (x : RArgs)
  | rdoset (x : RArgs)
  | ldv (t : SZV) (sc : Scope) (acq : Bool) (x : RArgs)
  | ldvLatest (t : SZV) (sc : Scope) (acq : Bool) (x : RArgs)
  | stv (t : SZS) (x : RArgs)
  | stvRel (t : SZS) (sc : Scope) (x : RArgs)
  | vflr (x : RArgs)
  | vqry (x : RArgs)
  | acp (tag : Fin 8) (x : RArgs)
  | acpw (tag : Fin 8) (g : Guard)
  | lease (x : RArgs)
  | unlease (x : RArgs)
  | pref (l : PL) (x : MArgs)
  | cctl (op : CC) (x : RArgs)
  | fence (op : FenceOp) (sc : Scope) (g : Guard)
  | atoms (op : AT) (sc : Scope) (o : Order) (t : AtomTy) (x : RArgs)
  | atomsCas (sc : Scope) (o : Order) (t : AtomTy) (x : RArgs)
  -- matrix and stream
  | mfmt (x : XArgs)
  | mma (set : Bool) (x : XArgs)
  | mloop (set : Bool) (x : XArgs)
  | mzero (x : XArgs)
  | mld (x : XArgs)
  | mst (f : MS) (x : XArgs)
  | mwait (g : Guard)
  | sgo (x : XArgs)
  | sstop (x : XArgs)
  | sqry (x : XArgs)
  | qfence (x : RArgs)
  | bcp (x : RArgs)
  -- rings, arrival words, records
  | qpop (q : Fin 32) (x : RArgs)
  | qpush (q : Fin 32) (x : RArgs)
  | qrel (q : Fin 32) (x : RArgs)
  | qstat (q : Fin 32) (x : RArgs)
  | qtry (q : Fin 32) (x : RArgs)
  | aset (x : RArgs)
  | aadd (x : RArgs)
  | await (x : RArgs)
  | aqry (x : RArgs)
  | emit (edge : Fin 8) (x : RArgs)
  | emitTeam (edge : Fin 8) (x : RArgs)
  | emitx (len : Fin 16) (edge : Fin 8) (x : RArgs)
  | emitxTeam (len : Fin 16) (edge : Fin 8) (x : RArgs)
  | rrd (x : RArgs)
  | rlen (x : RArgs)
  -- system
  | trap (n : BitVec 8) (g : Guard)
  | tretFix (g : Guard)
  | tretSkip (g : Guard)
  | tretRetry (g : Guard)
  | tretKill (g : Guard)
  | sysrd (n : BitVec 16) (g : Guard) (d : Dest)
  | syswr (w : SysWr)
  | ckpt (x : RArgs)
  | bkpt (n : BitVec 8) (g : Guard)
  | tmark (x : RArgs)
  | ringrst (x : RArgs)
  | presize (x : RArgs)
  | plend (x : RArgs)
  | prevoke (x : RArgs)
  | pgret (x : RArgs)
  -- system-register writes and reads with a row of their own: a `syswr` or `sysrd` of the register, or the same access by
  -- the host
  | gptrootWrite (w : SysWr)
  | hptrootWrite (w : SysWr)
  | scrsplitWrite (w : SysWr)
  | vrcmdCreate (w : SysWr)
  | vrcmdDestroy (w : SysWr)
  | ringcbEnable (w : SysWr)
  | ringcbDisable (w : SysWr)
  | domcfgWrite (w : SysWr)
  | dtimeWrite (w : SysWr)
  | gtoffWrite (w : SysWr)
  | modeWrite (w : SysWr)
  | pctlFreeze (w : SysWr)
  | pctlThaw (w : SysWr)
  | pctlReset (w : SysWr)
  | saferstWrite (w : SysWr)
  | profctlWrite (w : SysWr)
  | pmselWrite (w : SysWr)
  | trcctlWrite (w : SysWr)
  | dbgdataRead (g : Guard) (d : Dest)
  | dbgdataWrite (w : SysWr)
  | dbgrunResume (w : SysWr)
  | dbgrunStep (w : SysWr)
  | dbgrunSkip (w : SysWr)
  | dbgrunKill (w : SysWr)
  | dbgrunHalt (w : SysWr)
  | rplctlLog (w : SysWr)
  | rplctlGo (w : SysWr)
  -- device events: what each concerns stands in the `Event` of the state (the fields are named here)
  /-- The team in issue, at a clause header: R38, R13, R15. -/
  | clauseIssue
  /-- `team`. -/
  | faultDeliver
  /-- `team`, `seq`, `src`. -/
  | loadDataReturn
  /-- `team`, `seq`. -/
  | storePerformed
  /-- `team`, `seq`. -/
  | atomicPerformed
  /-- `team`, `seq`. -/
  | rdoContributionArrive
  /-- `team`, `seq`. -/
  | versionStoreRecord
  /-- `team`, `seq`. -/
  | ldvWake
  /-- `team`, `seq`. -/
  | parkedRetry
  /-- `part`, `idx` (region), `slice`, `val` (floor). -/
  | floorApply
  /-- `team`, `seq`. -/
  | vflrPerformed
  /-- `team`, `seq`. -/
  | acpPerformed
  /-- `die`, `eng`. -/
  | bcpComplete
  /-- `die`, `eng`, `flag` (another device does not answer). -/
  | bcpTranslationFail
  /-- `part`. -/
  | arrivalRedirect
  /-- `team`. -/
  | matrixEntryPerformed
  /-- `team`, `eng`. -/
  | streamTileComplete
  /-- `team`, `eng`. -/
  | streamEngineFault
  /-- `team`, `seq`. -/
  | emitPerformed
  /-- `team`. -/
  | teamRetire
  /-- `team`. -/
  | teamKill
  /-- `team`; `flag` for one that the host issued. -/
  | pgretDone
  /-- `part`, `idx` (in flight). -/
  | recordEnqueue
  /-- `die`, `part`. -/
  | admissionDecision
  /-- `part`, `gslot`, `node`. -/
  | coalesceTimeout
  /-- `die`, `part`. -/
  | agingTick
  /-- `part`, `gslot`. -/
  | instanceEnd
  /-- `part`, `idx` (held arrival). -/
  | arrivalRetry
  /-- `slice`, `addr` (line). -/
  | gapTimeout
  /-- `team`. -/
  | watchdogExpire
  /-- `part`, `addr` (base). -/
  | leaseExpire
  /-- `core`, `addr` (line). -/
  | nearCopyExpire
  /-- `die`, `addr` (line). -/
  | farCopyExpire
  /-- `dev`, `die` (the sender), `domid`, `val` (SEQ), `words`. -/
  | recReceive
  /-- `die`, `dev`, `val` (SEQ). -/
  | ackReceive
  /-- `die`, `dev`, `val` (SEQ), `flag` (permanent). -/
  | nakReceive
  /-- `die`, `dev`. -/
  | backoffExpire
  /-- `dev`, `die` (the sender), `val` (SEQ). -/
  | skipReceive
  /-- `flag`: a record of a window (`die`, `dev`, `val`) or an arrival held (`part`, `idx`). -/
  | repltoExpire
  /-- `domid`, `idx` (region), `addr` (granule), `val` (version), `bytes` (the granule's, as the waiters' accesses bring them). -/
  | vwakeReceive
  /-- `dev` (the sender), `domid`, `idx` (region), `val` (floor), `flag` (confirm). -/
  | vflrMsgReceive
  /-- `domid`, `val` (T0). -/
  | staggerReceive
  /-- `part`. -/
  | staggerHoldEnd
  /-- `dev` (the sender), `addr` (physical), `op`; for a version access `part`, `idx` (region), `flag` (a release), and the
  waiter `team`, `seq`, `words` (its lanes). -/
  | remoteAccessArrive
  /-- `team`, `seq`. -/
  | remoteTimeout
  /-- `part`, `idx` (ring). -/
  | ingressPoll
  /-- `part`. -/
  | ctrlLoad
  /-- `part`. -/
  | ctrlUnload
  /-- `part`. -/
  | ctrlWatch
  /-- `part`. -/
  | reportWrite
  /-- `port`, `part`, `addr` (guest-physical; with `flag` the offset in BAR0), `bytes`. -/
  | hostWriteInbound
  /-- `port`, `part`, `addr`, `idx` (length), `flag` (BAR0). -/
  | hostReadInbound
  /-- `port`, `part`, `addr`, `op`. -/
  | hostAtomicInbound
  /-- `port`. -/
  | cpsemAcquire
  /-- `port`. -/
  | cpsemRelease
  /-- `port`. -/
  | controlLinkLoss
  /-- `port`, `part`, `val`. -/
  | cqconsWrite
  /-- `port`. -/
  | ualinkDegrade
  /-- `part`. -/
  | freezeComplete
  /-- `die`. -/
  | traceSampleTick
  /-- `team`. -/
  | teamStop
  /-- `die`. -/
  | replayDone
  /-- `idx` (operation). -/
  | plendDone
  /-- `idx` (operation). -/
  | prevokeDone
  /-- `idx` (operation). -/
  | presizeDone
  /-- `team`. -/
  | teamMigrate
  /-- `team`. -/
  | teamRestore
  /-- `idx` (window), `addr` (line). -/
  | dualHashSweep
  /-- `idx` (window). -/
  | windowClose
  /-- `idx` (operation), `addr` (leaf). -/
  | pageMigrate
  /-- `part`. -/
  | checkpointCut
  /-- `part`. -/
  | checkpointCommit
  /-- `part`. -/
  | turnEnd
  /-- `part`. -/
  | turnStart
  /-- `part`. -/
  | rollback
  /-- `part`. -/
  | safeCheckpointHold
  /-- `addr` (granule). -/
  | uncorrectableError
  /-- `addr` (frame). -/
  | pageRetireDone
  /-- `core`, or `slice` when `flag`. -/
  | unitFail
  /-- `idx` (READY bit), `bytes` (image). -/
  | firmwareVerify
  | attctlSign
  | attestDone
  /-- `part`, `idx` (register). -/
  | sysselRead
  /-- `part`, `idx` (register), `val`. -/
  | sysselWrite
  | sysselPresize
  | sysselPlend
  | sysselPrevoke
  /-- `val` (SYSDATA, the control b), the staged words. -/
  | sysselPgret
  /-- `port`, `val`; `flag` for the management controller. -/
  | pwrctlWrite
  | powerTick
  | fwgovEngage
  | fwgovRelease
  /-- `die`. -/
  | governorWindow
  /-- `core`, `slot`. -/
  | arrayGate
  /-- `core`, `slot`. -/
  | arrayWake
  /-- `die`. -/
  | traceDrain
  | moduleReset
  /-- `part`. -/
  | safeRestoreDone
  /-- `part`. -/
  | partitionClearDone
  /-- `team`; `flag` for a write of the host. -/
  | rootDropDone
  deriving DecidableEq, Repr

end Sys2Proof
end

