-- ==== Sys2Proof/Decode.lean ====
section
/-!
DEFINITION. Decoding and encoding of instruction words (R19-R44), total on every 64-bit word. `Instr.enc` says once, per
constructor, which fields of its form it uses and what each may hold; the encoder, the validation tests of R38 and the
fault each failure raises are read off it. The decoder builds the instruction from the fields (`build`) and refuses it
unless those tests pass and its own encoding gives the word back.
-/
namespace Sys2Proof
open Machine (sysInfo SysInfo within)

/-! ## Fields of a word (R19) -/

/-- The fields of the R form, which every other form renames. -/
structure Fields where
  opc : BitVec 8
  md : BitVec 3
  gcl : BitVec 2
  greg : BitVec 5
  gbit : BitVec 6
  gneg : BitVec 1
  d : BitVec 7
  a : BitVec 8
  b : BitVec 8
  c : BitVec 8
  lr : BitVec 3
  reu : BitVec 1
  la : BitVec 4
  deriving DecidableEq, Repr

def Fields.pack (f : Fields) : W64 :=
  f.opc ++ (f.md ++ (f.gcl ++ (f.greg ++ (f.gbit ++ (f.gneg ++ (f.d ++ (f.a ++ (f.b ++ (f.c ++ (f.lr ++ (f.reu ++
    f.la)))))))))))

def Fields.unpack (w : W64) : Fields where
  opc := w.extractLsb' 56 8
  md := w.extractLsb' 53 3
  gcl := w.extractLsb' 51 2
  greg := w.extractLsb' 46 5
  gbit := w.extractLsb' 40 6
  gneg := w.extractLsb' 39 1
  d := w.extractLsb' 32 7
  a := w.extractLsb' 24 8
  b := w.extractLsb' 16 8
  c := w.extractLsb' 8 8
  lr := w.extractLsb' 5 3
  reu := w.extractLsb' 4 1
  la := w.extractLsb' 0 4

/-! ## Operands, destinations, guards -/

/-- R21. -/
def Opnd.bits : Opnd → BitVec 8
  | .v i _ => 0#2 ++ BitVec.ofFin (w := 6) i
  | .s i => 1#2 ++ BitVec.ofFin (w := 6) i
  | .k i => 2#2 ++ BitVec.ofFin (w := 6) i
  | .lit i => 3#2 ++ BitVec.ofFin (w := 6) i

/-- The last-read bit of the operand (R35): only a vector register has one. -/
def Opnd.last : Opnd → Bool
  | .v _ l => l
  | _ => false

def Opnd.ofBits (x : BitVec 8) (l : Bool) : Opnd :=
  let i := (x.extractLsb' 0 6).toFin
  match (x.extractLsb' 6 2).toNat with
  | 0 => .v i l
  | 1 => .s i
  | 2 => .k i
  | _ => .lit i

/-- The index bits 5:0 of an operand byte. -/
def Opnd.index : Opnd → Nat
  | .v i _ => i.val
  | .s i => i.val
  | .k i => i.val
  | .lit i => i.val

/-- An operand field that is not used. -/
def Opnd.none : Opnd := .v 0 false

def Dest.bits : Dest → BitVec 7
  | .v i => 0#1 ++ BitVec.ofFin (w := 6) i
  | .s i => 1#1 ++ BitVec.ofFin (w := 6) i

def Dest.ofBits (x : BitVec 7) : Dest :=
  if x.extractLsb' 6 1 = 0#1 then .v (x.extractLsb' 0 6).toFin else .s (x.extractLsb' 0 6).toFin

/-- Guard class, register, bit, inversion. -/
def Guard.bits : Guard → BitVec 2 × BitVec 5 × BitVec 6 × BitVec 1
  | .none => (0, 0, 0, 0)
  | .vec r b n => (1, BitVec.ofFin (w := 5) r, BitVec.ofFin (w := 6) b, BitVec.ofBool n)
  | .scal r b n => (2, BitVec.ofFin (w := 5) r, BitVec.ofFin (w := 6) b, BitVec.ofBool n)

/-- `none` for guard class 3. -/
def Guard.ofBits (gcl : BitVec 2) (r : BitVec 5) (b : BitVec 6) (n : BitVec 1) : Option Guard :=
  match gcl.toNat with
  | 0 => some .none
  | 1 => some (.vec r.toFin b.toFin (n == 1#1))
  | 2 => some (.scal r.toFin b.toFin (n == 1#1))
  | _ => none

def Guard.isVec : Guard → Bool
  | .vec .. => true
  | _ => false

/-! ## Codes of the MOD sets and control bytes (R41, R42) -/

def IW.code : IW → Nat
  | .i64 => 0 | .n64 => 1 | .i32 => 2 | .n32 => 3 | .i16 => 4 | .n16 => 5 | .i8 => 6 | .n8 => 7
def IW.of : Nat → Option IW
  | 0 => some .i64 | 1 => some .n64 | 2 => some .i32 | 3 => some .n32 | 4 => some .i16 | 5 => some .n16
  | 6 => some .i8 | 7 => some .n8 | _ => none

def IS.code : IS → Nat
  | .i64 => 0 | .i32 => 2 | .i16 => 4 | .i8 => 6
def IS.of : Nat → Option IS
  | 0 => some .i64 | 2 => some .i32 | 4 => some .i16 | 6 => some .i8 | _ => none

def BW.code : BW → Nat
  | .b64 => 0 | .b32 => 2 | .b16 => 4 | .b8 => 6
def BW.of : Nat → Option BW
  | 0 => some .b64 | 2 => some .b32 | 4 => some .b16 | 6 => some .b8 | _ => none

def SX.code : SX → Nat
  | .n => 0 | .i => 1
def SX.of : Nat → Option SX
  | 0 => some .n | 1 => some .i | _ => none

def CV.code : CV → Nat
  | .f32i64 => 0 | .f32n64 => 1 | .i64f32 => 2 | .n64f32 => 3 | .f16f32 => 4 | .f32f16 => 5 | .bf16f32 => 6
  | .f32bf16 => 7
def CV.of : Nat → Option CV
  | 0 => some .f32i64 | 1 => some .f32n64 | 2 => some .i64f32 | 3 => some .n64f32 | 4 => some .f16f32
  | 5 => some .f32f16 | 6 => some .bf16f32 | 7 => some .f32bf16 | _ => none

def RM.code : RM → Nat
  | .fctl => 0 | .rne => 1 | .rz => 2 | .rup => 3 | .rdn => 4
def RM.of : Nat → Option RM
  | 0 => some .fctl | 1 => some .rne | 2 => some .rz | 3 => some .rup | 4 => some .rdn | _ => none

def Cmp.code : Cmp → Nat
  | .eq => 0 | .ne => 1 | .lt => 2 | .le => 3 | .gt => 4 | .ge => 5 | .uno => 6 | .ord => 7
def Cmp.of : Nat → Option Cmp
  | 0 => some .eq | 1 => some .ne | 2 => some .lt | 3 => some .le | 4 => some .gt | 5 => some .ge | 6 => some .uno
  | 7 => some .ord | _ => none

def SZL.code : SZL → Nat
  | .n8 => 0 | .i8 => 1 | .n16 => 2 | .i16 => 3 | .b32 => 4 | .b64 => 5 | .b128 => 6
def SZL.of : Nat → Option SZL
  | 0 => some .n8 | 1 => some .i8 | 2 => some .n16 | 3 => some .i16 | 4 => some .b32 | 5 => some .b64
  | 6 => some .b128 | _ => none

def SZS.code : SZS → Nat
  | .b8 => 0 | .b16 => 2 | .b32 => 4 | .b64 => 5 | .b128 => 6
def SZS.of : Nat → Option SZS
  | 0 => some .b8 | 2 => some .b16 | 4 => some .b32 | 5 => some .b64 | 6 => some .b128 | _ => none

def SZV.code : SZV → Nat
  | .b32 => 4 | .b64 => 5 | .b128 => 6
def SZV.of : Nat → Option SZV
  | 4 => some .b32 | 5 => some .b64 | 6 => some .b128 | _ => none

def AT.code : AT → Nat
  | .add => 0 | .min => 1 | .max => 2 | .and => 3 | .or => 4 | .xor => 5 | .xchg => 6 | .incwrap => 7
def AT.of : Nat → Option AT
  | 0 => some .add | 1 => some .min | 2 => some .max | 3 => some .and | 4 => some .or | 5 => some .xor
  | 6 => some .xchg | 7 => some .incwrap | _ => none

def PL.code : PL → Nat
  | .near => 0 | .die => 1 | .far => 2
def PL.of : Nat → Option PL
  | 0 => some .near | 1 => some .die | 2 => some .far | _ => none

def CC.code : CC → Nat
  | .clean => 0 | .inv => 1 | .cinv => 2
def CC.of : Nat → Option CC
  | 0 => some .clean | 1 => some .inv | 2 => some .cinv | _ => none

def FN.code : FN → Nat
  | .acqrel => 0 | .acq => 1 | .rel => 2
def FN.of : Nat → Option FN
  | 0 => some .acqrel | 1 => some .acq | 2 => some .rel | _ => none

def SH.code : SH → Nat
  | .idx => 0 | .xor => 1 | .up => 2 | .down => 3
def SH.of : Nat → Option SH
  | 0 => some .idx | 1 => some .xor | 2 => some .up | 3 => some .down | _ => none

def VT.code : VT → Nat
  | .all => 0 | .any => 1 | .uni => 2
def VT.of : Nat → Option VT
  | 0 => some .all | 1 => some .any | 2 => some .uni | _ => none

def TO.code : TO → Nat
  | .addI32 => 0 | .addF32 => 1 | .minI32 => 2 | .maxI32 => 3 | .minF32 => 4 | .maxF32 => 5 | .andB32 => 6
  | .orB32 => 7
def TO.of : Nat → Option TO
  | 0 => some .addI32 | 1 => some .addF32 | 2 => some .minI32 | 3 => some .maxI32 | 4 => some .minF32
  | 5 => some .maxF32 | 6 => some .andB32 | 7 => some .orB32 | _ => none

def MS.code : MS → Nat
  | .f32 => 0 | .bf16 => 1 | .f16 => 2
def MS.of : Nat → Option MS
  | 0 => some .f32 | 1 => some .bf16 | 2 => some .f16 | _ => none

def Scope.code : Scope → Nat
  | .team => 0 | .core => 1 | .die => 2 | .dev => 3 | .dom => 4 | .sys => 5
def Scope.of : Nat → Option Scope
  | 0 => some .team | 1 => some .core | 2 => some .die | 3 => some .dev | 4 => some .dom | 5 => some .sys | _ => none

def Order.code : Order → Nat
  | .relaxed => 0 | .acq => 1 | .rel => 2 | .acqrel => 3
def Order.of : Nat → Option Order
  | 0 => some .relaxed | 1 => some .acq | 2 => some .rel | 3 => some .acqrel | _ => none

def ScmpTy.code : ScmpTy → Nat
  | .i64 => 0 | .n64 => 1 | .i32 => 2 | .n32 => 3
def ScmpTy.of : Nat → Option ScmpTy
  | 0 => some .i64 | 1 => some .n64 | 2 => some .i32 | 3 => some .n32 | _ => none

def FcmpTy.code : FcmpTy → Nat
  | .f32 => 0 | .f16 => 1 | .bf16 => 2
def FcmpTy.of : Nat → Option FcmpTy
  | 0 => some .f32 | 1 => some .f16 | 2 => some .bf16 | _ => none

def AtomTy.code : AtomTy → Nat
  | .i32 => 0 | .n32 => 1 | .i64 => 2 | .n64 => 3 | .f32 => 4
def AtomTy.of : Nat → Option AtomTy
  | 0 => some .i32 | 1 => some .n32 | 2 => some .i64 | 3 => some .n64 | 4 => some .f32 | _ => none

def Fmt.code : Fmt → Nat
  | .i8 => 0 | .n8 => 1 | .i16 => 2 | .n16 => 3 | .i32 => 4 | .n32 => 5 | .i64 => 6 | .n64 => 7 | .f32 => 8
  | .f16 => 9 | .bf16 => 10 | .e4m3 => 11 | .e5m2 => 12 | .l6 => 13 | .l4 => 14 | .i4 => 15
def Fmt.of : Nat → Option Fmt
  | 0 => some .i8 | 1 => some .n8 | 2 => some .i16 | 3 => some .n16 | 4 => some .i32 | 5 => some .n32 | 6 => some .i64
  | 7 => some .n64 | 8 => some .f32 | 9 => some .f16 | 10 => some .bf16 | 11 => some .e4m3 | 12 => some .e5m2
  | 13 => some .l6 | 14 => some .l4 | 15 => some .i4 | _ => none

def SReg.code : SReg → Nat
  | .lane => 0 | .team => 1 | .node => 2 | .graph => 3 | .depth => 4 | .nrec => 5 | .part => 6 | .core => 7 | .die => 8
  | .dev => 9 | .gtime => 10 | .grun => 11 | .clock => 12 | .fflags => 13 | .fctl => 14 | .mask => 15
def SReg.of : Nat → Option SReg
  | 0 => some .lane | 1 => some .team | 2 => some .node | 3 => some .graph | 4 => some .depth | 5 => some .nrec
  | 6 => some .part | 7 => some .core | 8 => some .die | 9 => some .dev | 10 => some .gtime | 11 => some .grun
  | 12 => some .clock | 13 => some .fflags | 14 => some .fctl | 15 => some .mask | _ => none

/-! ## Widths -/

/-- Registers that a value of the type takes in a vector operand (R28). -/
def IW.regs : IW → Nat
  | .i64 | .n64 => 2
  | _ => 1
def IS.regs : IS → Nat
  | .i64 => 2
  | _ => 1
def BW.regs : BW → Nat
  | .b64 => 2
  | _ => 1
def Fmt.regs : Fmt → Nat
  | .i64 | .n64 => 2
  | _ => 1
def AtomTy.regs : AtomTy → Nat
  | .i64 | .n64 => 2
  | _ => 1
def SZL.bytes : SZL → Nat
  | .n8 | .i8 => 1
  | .n16 | .i16 => 2
  | .b32 => 4
  | .b64 => 8
  | .b128 => 16
def SZS.bytes : SZS → Nat
  | .b8 => 1
  | .b16 => 2
  | .b32 => 4
  | .b64 => 8
  | .b128 => 16
def SZV.bytes : SZV → Nat
  | .b32 => 4
  | .b64 => 8
  | .b128 => 16
/-- Vector registers that hold `n` bytes of each lane. -/
def regsOf (n : Nat) : Nat := (n + 3) / 4
/-- Scalar registers that hold `n` bytes. -/
def sregsOf (n : Nat) : Nat := (n + 7) / 8

/-! ## What a form's fields may hold -/

/-- What a source operand may be (R21, R28, R136): a vector register at a multiple of `v`, a scalar register at a multiple
of `s`, a constant or a literal; `lanes` where a per-lane value may stand. -/
structure Use where
  v : Option Nat
  s : Option Nat
  imm : Bool
  lanes : Bool
  deriving DecidableEq, Repr

namespace Use
/-- A team-uniform operand. -/
def uni : Use := ⟨none, some 1, true, false⟩
/-- A per-lane value of `r` vector registers. -/
def val (r : Nat) : Use := ⟨some r, some 1, true, true⟩
/-- A 128-bit value. -/
def val4 : Use := ⟨some 4, some 2, true, true⟩
/-- A team-uniform 128-bit value. -/
def uni4 : Use := ⟨none, some 2, true, false⟩
/-- A memory address. -/
def addr : Use := ⟨some 2, some 1, false, true⟩
/-- A scratch address. -/
def scr : Use := ⟨some 1, some 1, false, true⟩
/-- A scalar register. -/
def sreg : Use := ⟨none, some 1, false, false⟩
/-- A vector register. -/
def vreg : Use := ⟨some 1, none, false, true⟩
end Use

/-- The per-lane entries of the constant table (R22). -/
def kPerLane (i : Nat) : Bool := within i 48 50 || within i 61 63

def Use.ok (u : Use) : Opnd → Bool
  | .v i _ => match u.v with
    | some m => i.val % m == 0
    | none => false
  | .s i => match u.s with
    | some m => i.val % m == 0
    | none => false
  | .k i => u.imm && (u.lanes || !kPerLane i.val)
  | .lit _ => u.imm

/-- What a destination may be. -/
structure DUse where
  v : Option Nat
  s : Option Nat
  deriving DecidableEq, Repr

namespace DUse
def vec (r : Nat) : DUse := ⟨some r, none⟩
def sca : DUse := ⟨none, some 1⟩
def scaN (m : Nat) : DUse := ⟨none, some m⟩
def either (r m : Nat) : DUse := ⟨some r, some m⟩
end DUse

def DUse.ok (u : DUse) : Dest → Bool
  | .v i => match u.v with
    | some m => i.val % m == 0
    | none => false
  | .s i => match u.s with
    | some m => i.val % m == 0
    | none => false

/-- One of the fields A, B, C of a form: an operand; not used; a raw byte in place of an operand. -/
inductive Fld where
  | op (x : Opnd) (u : Use)
  | none (x : Opnd)
  | raw (n : Nat) (x : Opnd)
  deriving DecidableEq, Repr

/-- The field D: a destination; not used; raw bits. -/
inductive DFld where
  | op (x : Dest) (u : DUse)
  | none (x : Dest)
  | raw (n : Nat) (x : Dest)
  deriving DecidableEq, Repr

/-- An instruction as its form encodes it. `gv`: a vector guard is legal. `laOk`: lookahead is legal. `low`: the raw low
byte of the J form. `ok1`, `ok3`: further tests of the entry, failing with 0x01 and 0x03. -/
structure Enc where
  opc : Nat
  md : Nat
  g : Guard
  gv : Bool
  d : DFld
  a : Fld
  b : Fld
  c : Fld
  la : Fin 16
  laOk : Bool
  reu : Bool := false
  low : Option (BitVec 8) := Option.none
  ok1 : Bool := true
  ok3 : Bool := true
  deriving DecidableEq, Repr

def Fld.bits : Fld → BitVec 8
  | .op x _ => x.bits
  | .none x => x.bits
  | .raw n _ => BitVec.ofNat 8 n

def Fld.last : Fld → Bool
  | .op x _ => x.last
  | .none x => x.last
  | .raw _ x => x.last

def DFld.bits : DFld → BitVec 7
  | .op x _ => x.bits
  | .none x => x.bits
  | .raw n _ => BitVec.ofNat 7 n

/-- Unused fields are zero (R20), the LR bit of an operand that is never a vector register among them (log 104). -/
def Fld.ok1 : Fld → Bool
  | .op x u => !x.last || u.v.isSome
  | .none x => x == Opnd.none
  | .raw n x => decide (n < 256) && x == Opnd.none

def DFld.ok1 : DFld → Bool
  | .op .. => true
  | .none x => x == Dest.v 0
  | .raw n x => decide (n < 128) && x == Dest.v 0

/-- Operand class and register index (R21, R28). -/
def Fld.ok3 : Fld → Bool
  | .op x u => u.ok x
  | _ => true

def DFld.ok3 : DFld → Bool
  | .op x u => u.ok x
  | _ => true

/-- R19: a vector guard's bit lies in 0-31. -/
def Guard.ok3 : Guard → Bool
  | .vec _ b _ => decide (b.val < 32)
  | _ => true

def bit1 (b : Bool) : BitVec 1 := BitVec.ofBool b

def Enc.fields (e : Enc) : Fields :=
  let g := e.g.bits
  let low : BitVec 8 := match e.low with
    | some x => x
    | Option.none =>
      bit1 e.a.last ++ (bit1 e.b.last ++ (bit1 e.c.last ++ (bit1 e.reu ++ BitVec.ofFin (w := 4) e.la)))
  { opc := BitVec.ofNat 8 e.opc, md := BitVec.ofNat 3 e.md, gcl := g.1, greg := g.2.1, gbit := g.2.2.1,
    gneg := g.2.2.2, d := e.d.bits, a := e.a.bits, b := e.b.bits, c := e.c.bits, lr := low.extractLsb' 5 3,
    reu := low.extractLsb' 4 1, la := low.extractLsb' 0 4 }

/-- The tests of stage 5 of R38: fault 0x01. -/
def Enc.ok1' (e : Enc) : Bool :=
  (e.gv || !e.g.isVec) && (e.laOk || e.la.val == 0) && e.d.ok1 && e.a.ok1 && e.b.ok1 && e.c.ok1 && e.ok1

/-- The tests of stage 6 of R38: fault 0x03. -/
def Enc.ok3' (e : Enc) : Bool :=
  e.g.ok3 && e.d.ok3 && e.a.ok3 && e.b.ok3 && e.c.ok3 && e.ok3

/-! ## Builders of the encodings -/

def Dest.isS : Dest → Bool
  | .s _ => true
  | .v _ => false

/-- The R form with three operand fields. -/
def encR (opc md : Nat) (x : RArgs) (gv laOk : Bool) (d : DFld) (a b c : Fld) : Enc :=
  { opc, md, g := x.g, gv, d, a, b, c, la := x.la, laOk }

/-- A scalar ALU instruction (R86): D is an s register, the operands are team-uniform, the rest is unused. -/
def encS (opc md : Nat) (x : RArgs) (nsrc : Nat) : Enc :=
  encR opc md x false false (.op x.d .sca) (.op x.a .uni) (if 2 ≤ nsrc then .op x.b .uni else .none x.b)
    (if 3 ≤ nsrc then .op x.c .uni else .none x.c)

/-- A per-lane vector instruction with `r` registers a value. A vector guard is judged by the encoded D: where D[6] = 1 it is
fault 0x01, a test that R38 makes before the 0x03 of R20 (log 24). -/
def encV (opc md r : Nat) (x : RArgs) (nsrc : Nat) (la : Bool := false) : Enc :=
  encR opc md x (!x.d.isS) la (.op x.d (.vec r)) (.op x.a (.val r)) (if 2 ≤ nsrc then .op x.b (.val r) else .none x.b)
    (if 3 ≤ nsrc then .op x.c (.val r) else .none x.c)

/-- The high and low bytes of IMM16. -/
def immB (i : BitVec 16) : Fld := .raw (i.extractLsb' 8 8).toNat Opnd.none
def immC (i : BitVec 16) : Fld := .raw (i.extractLsb' 0 8).toNat Opnd.none

/-- The I form (R24). -/
def encI (opc md : Nat) (x : IArgs) (vec : Bool) (d : DUse) (a : Use) (ok1 : Bool := true) : Enc :=
  { opc, md, g := x.g, gv := vec && !x.d.isS, d := .op x.d d, a := .op x.a a, b := immB x.imm, c := immC x.imm, la := 0, laOk := false,
    ok1 }

/-- A shift count of 0-63 in IMM16 (R90, R117). -/
def shiftImm (i : BitVec 16) : Bool := decide (i.toNat < 64)

/-- Position and length in IMM16 (R93). -/
def fieldImm (i : BitVec 16) : Bool := decide (i.toNat % 256 < 64) && decide (i.toNat / 256 ≤ 64)

/-- The J form (R27). -/
def encJ (opc : Nat) (g : Guard) (gv : Bool) (d : DFld) (disp : BitVec 32) (ok1 : Bool := true) : Enc :=
  { opc, md := 0, g, gv, d, a := .raw (disp.extractLsb' 24 8).toNat Opnd.none,
    b := .raw (disp.extractLsb' 16 8).toNat Opnd.none, c := .raw (disp.extractLsb' 8 8).toNat Opnd.none, la := 0,
    laOk := false, low := some (disp.extractLsb' 0 8), ok1 }

/-- A form whose only fields are the guard and raw bytes. -/
def encG (opc md : Nat) (g : Guard) (b c : Nat) : Enc :=
  { opc, md, g, gv := false, d := .none (.v 0), a := .none Opnd.none, b := .raw b Opnd.none, c := .raw c Opnd.none,
    la := 0, laOk := false }

/-- The X form (R26). Entries that name no lookahead have none (R179). -/
def encX (opc md : Nat) (x : XArgs) (d : DFld) (a : Fld) (bnd acc : Bool) (xoMax : Nat) (reuOk : Bool)
    (laOk : Bool := false) : Enc :=
  { opc, md, g := x.g, gv := false, d, a, b := .raw x.bnd.val Opnd.none,
    c := .raw (64 * x.acc.val + x.xo.val) Opnd.none, la := x.la, laOk, reu := x.reu,
    ok1 := (bnd || x.bnd.val == 0) && (acc || x.acc.val == 0) && decide (x.xo.val ≤ xoMax) && (reuOk || !x.reu) }

/-- A memory result of `n` bytes with address or scratch operand `x.a` (R137): an s destination makes the instruction
team-uniform. -/
def encLd (opc md n : Nat) (x : MArgs) (addr : Use) (c : Nat) (ok1 : Bool := true) : Enc :=
  { opc, md, g := x.g, gv := !x.d.isS, d := .op x.d (.either (regsOf n) (sregsOf n)),
    a := .op x.a (if x.d.isS then .sreg else addr), b := .none x.b, c := .raw c Opnd.none, la := x.la, laOk := true, ok1 }

/-- A data operand of `n` bytes. -/
def dataUse (n : Nat) : Use := if n = 16 then .val4 else .val (regsOf n)

def encSt (opc md n : Nat) (x : MArgs) (addr : Use) (c : Nat) (ok1 : Bool := true) : Enc :=
  { opc, md, g := x.g, gv := true, d := .none x.d, a := .op x.a addr, b := .op x.b (dataUse n), c := .raw c Opnd.none,
    la := x.la, laOk := true, ok1 }

/-- A team-uniform operand where the destination is scalar, a per-lane value of `r` registers elsewhere (R137). -/
def useFor (d : Dest) (r : Nat) : Use := if d.isS then .uni else .val r

/-- The control byte of atomics (R42). -/
def atomByte (sc : Scope) (o : Order) (t : AtomTy) : Nat := 32 * sc.code + 8 * o.code + t.code

/-- An atomic with a result. -/
def encAtom (opc md : Nat) (sc : Scope) (o : Order) (t : AtomTy) (x : RArgs) (addr : Use) (ok1 : Bool) : Enc :=
  { encR opc md x (!x.d.isS) true (.op x.d (.either t.regs 1)) (.op x.a (if x.d.isS then .sreg else addr))
      (.op x.b (useFor x.d t.regs)) (.raw (atomByte sc o t) x.c) with ok1 }

/-- The operations an atomic type offers (R150, R42). -/
def atomLegal (op : AT) (t : AtomTy) : Bool :=
  match t, op with
  | .f32, .add | .f32, .min | .f32, .max => true
  | .f32, _ => false
  | .n32, .incwrap | .n64, .incwrap => true
  | _, .incwrap => false
  | _, _ => true

/-- The scopes `atoms` takes (R42). -/
def atomsScope : Scope → Bool
  | .team | .core => true
  | _ => false

/-- The groups of the conversion table (R69). -/
inductive CvtGroup where
  | I | W | N | G
  deriving DecidableEq, Repr

def Fmt.group : Fmt → CvtGroup
  | .f32 | .f16 | .bf16 => .W
  | .e4m3 | .e5m2 => .N
  | .l6 | .l4 => .G
  | _ => .I

/-- R69, and R76's modes of a logarithmic destination. -/
def cvtLegal (rm : RM) (dst src : Fmt) : Bool :=
  dst != src && (match dst.group, src.group with
    | .I, .I | .I, .W | .W, _ | .N, .W | .N, .N | .G, .W | .G, .G => true
    | _, _ => false) && (dst.group != .G || rm == .fctl || rm == .rne)

/-- The codes `fclass` takes (R125). -/
def classLegal (f : Fmt) : Bool := within f.code 8 14

/-- A ring or arrival instruction with a raw ring number in A (R43). -/
def encQ (opc : Nat) (q : Fin 32) (x : RArgs) (d : DFld) : Enc :=
  { encR opc 0 x false true d (.raw q.val x.a) (.none x.b) (.none x.c) with }

/-- The two bytes of a system-register number. -/
def sysB (n : BitVec 16) : Nat := (n.extractLsb' 8 8).toNat
def sysC (n : BitVec 16) : Nat := (n.extractLsb' 0 8).toNat

def encSysrd (n : BitVec 16) (g : Guard) (d : Dest) (special : Bool) : Enc :=
  let info := sysInfo n.toNat
  let lane := match info with
    | some i => i.perLane
    | none => false
  { opc := 0xE2, md := 0, g, gv := !d.isS, d := .op d (if lane then .vec 1 else .sca), a := .none Opnd.none,
    b := .raw (sysB n) Opnd.none, c := .raw (sysC n) Opnd.none, la := 0, laOk := false,
    ok1 := (match info with
      | some i => i.rd.isSome
      | none => false) && special }

/-- The register numbers whose writes have a row of their own in the opcode table. -/
inductive SysRow where
  | plain | gptroot | hptroot | scrsplit | domcfg | dtime | gtoff | mode | saferst | profctl | pmsel | trcctl | dbgdata
  deriving DecidableEq, Repr

def sysRow (n : Nat) : SysRow :=
  if n = 0x0170 then .gptroot
  else if n = 0x0160 then .scrsplit
  else if n = 0x0032 then .domcfg
  else if n = 0x0033 then .dtime
  else if n = 0x015C then .profctl
  else if n = 0x0113 then .dbgdata
  else if within n 0x0500 0x0507 then .pmsel
  else if within n 0x01C0 0x01F0 && n % 16 == 0 then .trcctl
  else if within n 0x2000 0x30FF then
    if n % 0x100 = 11 then .hptroot
    else if n % 0x100 = 21 then .gtoff
    else if n % 0x100 = 6 then .mode
    else if n % 0x100 = 30 then .saferst
    else .plain
  else .plain

/-- `syswr` of a team; a write by the host has no word. -/
def encSyswr (w : SysWr) (row : SysRow) : Option Enc :=
  match w.by_ with
  | .host _ _ => none
  | .team g a =>
    let info := sysInfo w.n.toNat
    let lane := match info with
      | some i => i.perLane
      | none => false
    some {
      opc := 0xE3, md := 0, g, gv := lane, d := .none (.v 0), a := .op a (if lane then .vreg else .uni),
      b := .raw (sysB w.n) Opnd.none, c := .raw (sysC w.n) Opnd.none, la := 0, laOk := false,
      ok1 := (match info with
        | some i => i.wr.isSome
        | none => false) && sysRow w.n.toNat == row }

def SReg.dest : SReg → DUse
  | .lane | .fflags => .vec 1
  | .mask => .scaN 16
  | _ => .sca

/-! ## The encoding of every instruction (R43 and the instruction chapters) -/

def yieldLike (opc : Nat) (g : Guard) : Enc := encG opc 0 g 0 0

/-- Opcodes 0x00-0x38: scalar and control. -/
def Instr.encScalar : Instr → Option Enc
  | .nop g => some (yieldLike 0x00 g)
  | .smov t x => some (encS 0x01 t.code x 1)
  | .sadd t x => some (encS 0x02 t.code x 2)
  | .ssub t x => some (encS 0x03 t.code x 2)
  | .smul t x => some (encS 0x04 t.code x 2)
  | .smulh t x => some (encS 0x05 t.code x 2)
  | .smad t x => some (encS 0x06 t.code x 3)
  | .sand t x => some (encS 0x07 t.code x 2)
  | .sor t x => some (encS 0x08 t.code x 2)
  | .sxor t x => some (encS 0x09 t.code x 2)
  | .snot t x => some (encS 0x0A t.code x 1)
  | .sshl t x => some (encS 0x0B t.code x 2)
  | .sshr t x => some (encS 0x0C t.code x 2)
  | .ssar t x => some (encS 0x0D t.code x 2)
  | .srot t x => some (encS 0x0E t.code x 2)
  | .smin t x => some (encS 0x0F t.code x 2)
  | .smax t x => some (encS 0x10 t.code x 2)
  | .scmp cond t bit x => some { encS 0x11 cond.code x 2 with
      c := .raw (64 * t.code + bit.val) x.c, ok1 := decide (cond.code < 6) }
  | .ssel x => some (encS 0x12 0 x 3)
  | .spopc t x => some (encS 0x13 t.code x 1)
  | .sclz t x => some (encS 0x14 t.code x 1)
  | .sbfe t x => some (encS 0x15 t.code x 3)
  | .sbfi x => some (encS 0x16 0 x 3)
  | .scvt t x => some (encS 0x17 t.code x 1)
  | .slit h keep x => some { encI 0x18 (h.val + if keep then 4 else 0) x false .sca .uni with a := .none x.a }
  | .saddImm t x => some (encI 0x20 t.code x false .sca .uni)
  | .smulImm t x => some (encI 0x21 t.code x false .sca .uni)
  | .sandImm t x => some (encI 0x22 t.code x false .sca .uni)
  | .sorImm t x => some (encI 0x23 t.code x false .sca .uni)
  | .sxorImm t x => some (encI 0x24 t.code x false .sca .uni)
  | .sshlImm t x => some (encI 0x25 t.code x false .sca .uni (shiftImm x.imm))
  | .sshrImm t x => some (encI 0x26 t.code x false .sca .uni (shiftImm x.imm))
  | .ssarImm t x => some (encI 0x27 t.code x false .sca .uni (shiftImm x.imm))
  | .srotImm t x => some (encI 0x28 t.code x false .sca .uni (shiftImm x.imm))
  | .sminImm t x => some (encI 0x29 t.code x false .sca .uni)
  | .smaxImm t x => some (encI 0x2A t.code x false .sca .uni)
  | .sbfeImm t x => some (encI 0x2B t.code x false .sca .uni (fieldImm x.imm))
  | .sbfiImm x => some (encI 0x2C 0 x false .sca .uni (fieldImm x.imm))
  | .br g disp => some (encJ 0x30 g false (.none (.v 0)) disp)
  | .brd g target join => some (encJ 0x31 g true (.none (.v 0)) (target ++ join) g.isVec)
  | .brx x => some (encR 0x32 0 x false false (.none x.d) (.op x.a .uni) (.none x.b) (.none x.c))
  | .call g d disp => some (encJ 0x33 g false (.op d .sca) disp)
  | .ret x => some (encR 0x34 0 x false false (.none x.d) (.op x.a .uni) (.none x.b) (.none x.c))
  | .exit g => some (yieldLike 0x35 g)
  | .yield g => some (yieldLike 0x36 g)
  | .srd r g d => some {
      opc := 0x37, md := 0, g, gv := !d.isS, d := .op d r.dest, a := .raw r.code Opnd.none,
      b := .none Opnd.none, c := .none Opnd.none, la := 0, laOk := false }
  | .callx x => some (encR 0x38 0 x false false (.op x.d .sca) (.op x.a .uni) (.none x.b) (.none x.c))
  | _ => none

/-- Opcodes 0x40-0x7B: vector and team-wide. -/
def Instr.encVector : Instr → Option Enc
  | .vadd t x => some (encV 0x40 t.code t.regs x 2)
  | .vsub t x => some (encV 0x41 t.code t.regs x 2)
  | .vmul t x => some (encV 0x42 t.code t.regs x 2)
  | .vmulh t x => some (encV 0x43 t.code t.regs x 2)
  | .vmad t x => some (encV 0x44 t.code t.regs x 3)
  | .vand t x => some (encV 0x45 t.code t.regs x 2)
  | .vor t x => some (encV 0x46 t.code t.regs x 2)
  | .vxor t x => some (encV 0x47 t.code t.regs x 2)
  | .vnot t x => some (encV 0x48 t.code t.regs x 1)
  | .vshl t x => some (encV 0x49 t.code t.regs x 2)
  | .vshr t x => some (encV 0x4A t.code t.regs x 2)
  | .vsar t x => some (encV 0x4B t.code t.regs x 2)
  | .vmin t x => some (encV 0x4C t.code t.regs x 2)
  | .vmax t x => some (encV 0x4D t.code t.regs x 2)
  | .vabs t x => some (encV 0x4E t.code t.regs x 1)
  | .vneg t x => some (encV 0x4F t.code t.regs x 1)
  | .vpopc t x => some { encV 0x50 t.code t.regs x 1 with d := .op x.d (.vec 1) }
  | .vclz t x => some { encV 0x51 t.code t.regs x 1 with d := .op x.d (.vec 1) }
  | .vbfe t x => some (encV 0x52 t.code 1 x 3)
  | .vbfi x => some (encV 0x53 0 1 x 3)
  | .vsel x => some (encV 0x54 0 1 x 3)
  | .vcmp cond t bit x => some { encV 0x55 cond.code t.regs x 2 with
      d := .op x.d (.vec 1), c := .raw (32 * t.code + bit.val) x.c, ok1 := decide (cond.code < 6) }
  | .vaddImm t x => some (encI 0x56 t.code x true (.vec t.regs) (.val t.regs))
  | .vmulImm t x => some (encI 0x57 t.code x true (.vec t.regs) (.val t.regs))
  | .vandImm t x => some (encI 0x58 t.code x true (.vec t.regs) (.val t.regs))
  | .vorImm t x => some (encI 0x59 t.code x true (.vec t.regs) (.val t.regs))
  | .vxorImm t x => some (encI 0x5A t.code x true (.vec t.regs) (.val t.regs))
  | .vshlImm t x => some (encI 0x5B t.code x true (.vec t.regs) (.val t.regs) (shiftImm x.imm))
  | .vshrImm t x => some (encI 0x5C t.code x true (.vec t.regs) (.val t.regs) (shiftImm x.imm))
  | .vsarImm t x => some (encI 0x5D t.code x true (.vec t.regs) (.val t.regs) (shiftImm x.imm))
  | .vminImm t x => some (encI 0x5E t.code x true (.vec t.regs) (.val t.regs))
  | .vmaxImm t x => some (encI 0x5F t.code x true (.vec t.regs) (.val t.regs))
  | .fadd rm x => some (encV 0x60 rm.code 1 x 2)
  | .fmul rm x => some (encV 0x61 rm.code 1 x 2)
  | .ffma rm x => some (encV 0x62 rm.code 1 x 3)
  | .fmin nan x => some (encV 0x63 (if nan then 1 else 0) 1 x 2)
  | .fmax nan x => some (encV 0x64 (if nan then 1 else 0) 1 x 2)
  | .fcmp cond t bit x => some { encV 0x65 cond.code 1 x 2 with c := .raw (32 * t.code + bit.val) x.c }
  | .frcp x => some (encV 0x66 0 1 x 1 true)
  | .frsq x => some (encV 0x67 0 1 x 1 true)
  | .fsqrt rm x => some (encV 0x68 rm.code 1 x 1 true)
  | .fex2 x => some (encV 0x69 0 1 x 1 true)
  | .flg2 x => some (encV 0x6A 0 1 x 1 true)
  | .fsin x => some (encV 0x6B 0 1 x 1 true)
  | .fcos x => some (encV 0x6C 0 1 x 1 true)
  | .fclass f x => some { encV 0x6D 0 1 x 1 with c := .raw f.code x.c, ok1 := classLegal f }
  | .cvt rm dst src x => some { encV 0x6E rm.code 1 x 1 with
      d := .op x.d (.vec dst.regs), a := .op x.a (.val src.regs), c := .raw (16 * dst.code + src.code) x.c,
      ok1 := cvtLegal rm dst src }
  | .cvtNosat rm dst src x => some { encV 0x6F rm.code 1 x 1 with
      d := .op x.d (.vec dst.regs), a := .op x.a (.val src.regs), c := .raw (16 * dst.code + src.code) x.c,
      ok1 := cvtLegal rm dst src }
  | .hadd2F16 rm x => some (encV 0x70 rm.code 1 x 2)
  | .hmul2F16 rm x => some (encV 0x71 rm.code 1 x 2)
  | .hfma2F16 rm x => some (encV 0x72 rm.code 1 x 3)
  | .hadd2Bf16 rm x => some (encV 0x73 rm.code 1 x 2)
  | .hmul2Bf16 rm x => some (encV 0x74 rm.code 1 x 2)
  | .hfma2Bf16 rm x => some (encV 0x75 rm.code 1 x 3)
  | .shfl op x => some (encV 0x76 op.code 1 x 2)
  | .bcast x => some (encR 0x77 0 x (!x.d.isS) false (.op x.d (.either 1 1)) (.op x.a .vreg) (.op x.b .uni) (.none x.c))
  | .ballot bit x => some (encR 0x78 0 x false false (.op x.d (.scaN 16)) (.op x.a .vreg) (.none x.b)
      (.raw bit.val x.c))
  | .vote op dbit bit x => some (encR 0x79 op.code x false false (.op x.d .sca) (.op x.a .vreg) (.raw dbit.val x.b)
      (.raw bit.val x.c))
  | .tred op x => some (encR 0x7A op.code x (!x.d.isS) false (.op x.d (.either 1 1)) (.op x.a (.val 1)) (.none x.b)
      (.none x.c))
  | .tscan op x => some (encR 0x7B op.code x (!x.d.isS) false (.op x.d (.vec 1)) (.op x.a (.val 1)) (.none x.b) (.none x.c))
  | _ => none

/-- Opcodes 0x80-0x99 (R135-R137, R42). -/
def Instr.encMemory : Instr → Option Enc
  | .ld t x => some (encLd 0x80 t.code t.bytes x .addr x.off.toNat)
  | .ldAcq t sc x => some (encLd 0x81 t.code t.bytes x .addr (32 * sc.code + x.off.toNat) (decide (x.off.toNat < 32)))
  | .st t x => some (encSt 0x82 t.code t.bytes x .addr x.off.toNat)
  | .stRel t sc x => some (encSt 0x83 t.code t.bytes x .addr (32 * sc.code + x.off.toNat) (decide (x.off.toNat < 32)))
  | .lds t x => some (encLd 0x84 t.code t.bytes x .scr x.off.toNat)
  | .sts t x => some (encSt 0x85 t.code t.bytes x .scr x.off.toNat)
  | .atom op sc o t x => some (encAtom 0x86 op.code sc o t x .addr (atomLegal op t))
  | .atomCas sc o t x => some (encAtom 0x87 0 sc o t x .addr true)
  | .red op sc o t x => some { encR 0x88 op.code x true true (.none x.d) (.op x.a .addr) (.op x.b (.val t.regs))
      (.raw (atomByte sc o t) x.c) with
      ok1 := atomLegal op t && (o == .relaxed || o == .rel) && op != .xchg && op != .incwrap }
  | .rdo x => some (encR 0x89 0 x true true (.none x.d) (.op x.a .addr) (.op x.b (.val 1)) (.op x.c (.val 1)))
  | .rdoset x => some (encR 0x8A 0 x true true (.none x.d) (.op x.a .addr) (.op x.b (.val 1)) (.none x.c))
  | .ldv t sc acq x => some (encR 0x8B t.code x (!x.d.isS) true (.op x.d (.either (regsOf t.bytes) (sregsOf t.bytes)))
      (.op x.a (if x.d.isS then .sreg else .addr)) (.op x.b (useFor x.d 1))
      (.raw (32 * sc.code + if acq then 16 else 0) x.c))
  | .ldvLatest t sc acq x => some { encR 0x8C t.code x (!x.d.isS) true
      (.op x.d (.either (2 * regsOf t.bytes) (sregsOf t.bytes * (if t = .b64 then 2 else 1))))
      (.op x.a (if x.d.isS then .sreg else .addr)) (.op x.b (useFor x.d 1))
      (.raw (32 * sc.code + if acq then 16 else 0) x.c) with ok1 := t != .b128 }
  | .stv t x => some (encR 0x8D t.code x true true (.none x.d) (.op x.a .addr) (.op x.b (dataUse t.bytes))
      (.op x.c (.val 1)))
  | .vflr x => some (encR 0x8E 0 x false true (.none x.d) (.op x.a .sreg) (.op x.b .uni) (.none x.c))
  | .vqry x => some (encR 0x8F 0 x (!x.d.isS) true (.op x.d (.either 2 1)) (.op x.a (if x.d.isS then .sreg else .addr))
      (.none x.b) (.none x.c))
  | .acp tag x => some (encR 0x90 tag.val x true true (.none x.d) (.op x.a .addr) (.op x.b .scr) (.op x.c (.val 1)))
  | .acpw tag g => some (encG 0x91 tag.val g 0 0)
  | .lease x => some (encR 0x92 0 x false true (.none x.d) (.op x.a .sreg) (.op x.b .uni) (.op x.c .uni))
  | .unlease x => some (encR 0x93 0 x false true (.none x.d) (.op x.a .sreg) (.none x.b) (.none x.c))
  | .pref l x => some {
      opc := 0x94, md := l.code, g := x.g, gv := true, d := .none x.d, a := .op x.a .addr,
      b := .none x.b, c := .raw x.off.toNat Opnd.none, la := x.la, laOk := true }
  | .cctl op x => some (encR 0x95 op.code x false true (.none x.d) (.op x.a .sreg) (.op x.b .uni) (.none x.c))
  | .fence op sc g => some { encG 0x96 op.kind.code g 0 (32 * sc.code) with
    la := op.la
    laOk := true }
  | .atoms op sc o t x => some (encAtom 0x97 op.code sc o t x .scr (atomLegal op t && atomsScope sc))
  | .atomsCas sc o t x => some (encAtom 0x98 0 sc o t x .scr (atomsScope sc))
  | .stvRel t sc x => some (encR 0x99 t.code x true true (.raw sc.code x.d) (.op x.a .addr) (.op x.b (dataUse t.bytes))
      (.op x.c (.val 1)))
  | _ => none

/-- Opcodes 0xA0-0xB4: matrix, stream and bulk copy. -/
def Instr.encMatrix : Instr → Option Enc
  | .mfmt x =>
    if x.a = Opnd.none then some (encX 0xA0 0 x (.none x.d) (.none x.a) true false 0 false)
    else some (encX 0xA0 0 x (.none x.d) (.op x.a .sreg) false false 0 false)
  | .mma set x => some (encX 0xA1 (if set then 1 else 0) x (.op x.d .sca) (.op x.a .vreg) false true 0 true true)
  | .mloop set x => some (encX 0xA2 (if set then 1 else 0) x (.op x.d .sca) (.op x.a .vreg) false true 7 true true)
  | .mzero x => some (encX 0xA3 0 x (.none x.d) (.none x.a) false true 0 false)
  | .mld x => some (encX 0xA4 0 x (.none x.d) (.op x.a .sreg) false true 0 false)
  | .mst f x => some (encX 0xA5 f.code x (.none x.d) (.op x.a .sreg) false true 0 false)
  | .mwait g => some (encG 0xA6 0 g 0 0)
  | .sgo x => some (encX 0xB0 0 x (.none x.d) (.op x.a .uni) true false 3 false)
  | .sstop x => some (encX 0xB1 0 x (.none x.d) (.none x.a) false false 3 false)
  | .sqry x => some (encX 0xB2 0 x (.op x.d .sca) (.none x.a) false false 3 false true)
  | .qfence x => some (encR 0xB3 0 x false false (.none x.d) (.op x.a .uni) (.none x.b) (.none x.c))
  | .bcp x => some (encR 0xB4 0 x false true (.none x.d) (.op x.a .sreg) (.op x.b .uni) (.none x.c))
  | _ => none

/-- Opcodes 0xC0-0xD5: rings, arrival words, records. -/
def Instr.encRecord : Instr → Option Enc
  | .qpop q x => some (encQ 0xC0 q x (.op x.d .sca))
  | .qpush q x => some (encQ 0xC1 q x (.op x.d .sca))
  | .qrel q x => some (encQ 0xC2 q x (.none x.d))
  | .qstat q x => some (encQ 0xC3 q x (.op x.d .sca))
  | .qtry q x => some (encQ 0xC4 q x (.op x.d .sca))
  | .aset x => some (encR 0xC5 0 x false true (.none x.d) (.op x.a .sreg) (.op x.b .uni) (.none x.c))
  | .aadd x => some (encR 0xC6 0 x true true (.none x.d) (.op x.a .scr) (.op x.b (.val 2)) (.none x.c))
  | .await x => some (encR 0xC7 0 x false true (.none x.d) (.op x.a .sreg) (.op x.b .uni) (.none x.c))
  | .aqry x => some (encR 0xC8 0 x false true (.op x.d (.scaN 2)) (.op x.a .sreg) (.none x.b) (.none x.c))
  | .emit e x => some (encR 0xD0 e.val x true true (.none x.d) (.op x.a .vreg) (.op x.b .uni) (.op x.c (.val 1)))
  | .emitTeam e x => some (encR 0xD1 e.val x false true (.none x.d) (.op x.a .sreg) (.op x.b .uni) (.op x.c .uni))
  | .emitx len e x => some { encR 0xD2 0 x true true (.none x.d) (.op x.a .vreg) (.raw (16 * e.val + len.val) x.b)
      (.op x.c .addr) with ok3 := decide (len.val = 0) || decide (x.a.index + len.val ≤ 64) }
  | .emitxTeam len e x => some { encR 0xD3 0 x false true (.none x.d) (.op x.a .sreg)
      (.raw (16 * e.val + len.val) x.b) (.op x.c .sreg) with
      ok3 := decide (len.val = 0) || decide (x.a.index + len.val ≤ 64) }
  | .rrd x => some (encR 0xD4 0 x (!x.d.isS) true (.op x.d (.either 1 1)) (.op x.a (useFor x.d 1)) (.none x.b)
      (.none x.c))
  | .rlen x => some (encR 0xD5 0 x (!x.d.isS) true (.op x.d (.either 1 1)) (.none x.a) (.none x.b) (.none x.c))
  | _ => none

/-- Opcodes 0xE0-0xEB, and the system-register writes that have rows of their own. -/
def Instr.encSystem : Instr → Option Enc
  | .trap n g => some (encG 0xE0 0 g 0 n.toNat)
  | .tretFix g => some (encG 0xE1 0 g 0 0)
  | .tretSkip g => some (encG 0xE1 1 g 0 0)
  | .tretRetry g => some (encG 0xE1 2 g 0 0)
  | .tretKill g => some (encG 0xE1 3 g 0 0)
  | .sysrd n g d => some (encSysrd n g d (n != 0x0113#16))
  | .syswr w => encSyswr w .plain
  | .ckpt x => some (encR 0xE4 0 x false false (.op x.d .sca) (.none x.a) (.none x.b) (.none x.c))
  | .bkpt n g => some (encG 0xE5 0 g 0 n.toNat)
  | .tmark x => some (encR 0xE6 0 x false false (.none x.d) (.op x.a .uni) (.none x.b) (.none x.c))
  | .ringrst x => some (encR 0xE7 0 x false false (.none x.d) (.op x.a .sreg) (.op x.b .uni) (.none x.c))
  | .presize x => some (encR 0xE8 0 x false false (.none x.d) (.op x.a .sreg) (.none x.b) (.none x.c))
  | .plend x => some (encR 0xE9 0 x false false (.none x.d) (.op x.a .sreg) (.none x.b) (.none x.c))
  | .prevoke x => some (encR 0xEA 0 x false false (.none x.d) (.op x.a .sreg) (.none x.b) (.none x.c))
  | .pgret x => some (encR 0xEB 0 x false false (.none x.d) (.op x.a .sreg) (.op x.b .uni) (.none x.c))
  | .gptrootWrite w => encSyswr w .gptroot
  | .hptrootWrite w => encSyswr w .hptroot
  | .scrsplitWrite w => encSyswr w .scrsplit
  | .domcfgWrite w => encSyswr w .domcfg
  | .dtimeWrite w => encSyswr w .dtime
  | .gtoffWrite w => encSyswr w .gtoff
  | .modeWrite w => encSyswr w .mode
  | .saferstWrite w => encSyswr w .saferst
  | .profctlWrite w => encSyswr w .profctl
  | .pmselWrite w => encSyswr w .pmsel
  | .trcctlWrite w => encSyswr w .trcctl
  | .dbgdataWrite w => encSyswr w .dbgdata
  | .dbgdataRead g d => some (encSysrd 0x0113#16 g d true)
  | _ => none

/-- The encoding of a machine instruction; `none` for a device event, which has no word. -/
def Instr.enc (i : Instr) : Option Enc :=
  i.encScalar <|> i.encVector <|> i.encMemory <|> i.encMatrix <|> i.encRecord <|> i.encSystem

/-! ## The opcode map as the decoder needs it (R41, R43) -/

/-- Of an assigned opcode: the MOD values its set defines (bit m for value m), and which of A, B, C are operand fields
(bits 2, 1, 0). -/
structure OpRow where
  lo : Nat
  hi : Nat
  mods : Nat
  opnds : Nat
  deriving DecidableEq, Repr

def opRowsScalar : List OpRow :=
  [⟨0x00, 0x00, 0x01, 0⟩, ⟨0x01, 0x01, 0x55, 4⟩, ⟨0x02, 0x05, 0xFF, 6⟩, ⟨0x06, 0x06, 0xFF, 7⟩, ⟨0x07, 0x09, 0x55, 6⟩,
   ⟨0x0A, 0x0A, 0x55, 4⟩, ⟨0x0B, 0x0E, 0x55, 6⟩, ⟨0x0F, 0x10, 0xFF, 6⟩, ⟨0x11, 0x11, 0x3F, 6⟩, ⟨0x12, 0x12, 0x01, 7⟩,
   ⟨0x13, 0x14, 0x55, 4⟩, ⟨0x15, 0x15, 0x03, 7⟩, ⟨0x16, 0x16, 0x01, 7⟩, ⟨0x17, 0x17, 0xFF, 4⟩, ⟨0x18, 0x18, 0xFF, 0⟩,
   ⟨0x20, 0x21, 0xFF, 4⟩, ⟨0x22, 0x28, 0x55, 4⟩, ⟨0x29, 0x2A, 0xFF, 4⟩, ⟨0x2B, 0x2B, 0x03, 4⟩, ⟨0x2C, 0x2C, 0x01, 4⟩,
   ⟨0x30, 0x31, 0x01, 0⟩, ⟨0x32, 0x32, 0x01, 4⟩, ⟨0x33, 0x33, 0x01, 0⟩, ⟨0x34, 0x34, 0x01, 4⟩, ⟨0x35, 0x37, 0x01, 0⟩,
   ⟨0x38, 0x38, 0x01, 4⟩]

def opRowsVector : List OpRow :=
  [⟨0x40, 0x43, 0xFF, 6⟩, ⟨0x44, 0x44, 0xFF, 7⟩, ⟨0x45, 0x47, 0x55, 6⟩, ⟨0x48, 0x48, 0x55, 4⟩, ⟨0x49, 0x4B, 0x55, 6⟩,
   ⟨0x4C, 0x4D, 0xFF, 6⟩, ⟨0x4E, 0x4F, 0x55, 4⟩, ⟨0x50, 0x51, 0x55, 4⟩, ⟨0x52, 0x52, 0x03, 7⟩, ⟨0x53, 0x54, 0x01, 7⟩,
   ⟨0x55, 0x55, 0x3F, 6⟩, ⟨0x56, 0x57, 0xFF, 4⟩, ⟨0x58, 0x5D, 0x55, 4⟩, ⟨0x5E, 0x5F, 0xFF, 4⟩, ⟨0x60, 0x61, 0x1F, 6⟩,
   ⟨0x62, 0x62, 0x1F, 7⟩, ⟨0x63, 0x64, 0x03, 6⟩, ⟨0x65, 0x65, 0xFF, 6⟩, ⟨0x66, 0x67, 0x01, 4⟩, ⟨0x68, 0x68, 0x1F, 4⟩,
   ⟨0x69, 0x6D, 0x01, 4⟩, ⟨0x6E, 0x6F, 0x1F, 4⟩, ⟨0x70, 0x71, 0x1F, 6⟩, ⟨0x72, 0x72, 0x1F, 7⟩, ⟨0x73, 0x74, 0x1F, 6⟩,
   ⟨0x75, 0x75, 0x1F, 7⟩, ⟨0x76, 0x76, 0x0F, 6⟩, ⟨0x77, 0x77, 0x01, 6⟩, ⟨0x78, 0x78, 0x01, 4⟩, ⟨0x79, 0x79, 0x07, 4⟩,
   ⟨0x7A, 0x7B, 0xFF, 4⟩]

def opRowsMemory : List OpRow :=
  [⟨0x80, 0x81, 0x7F, 4⟩, ⟨0x82, 0x83, 0x75, 6⟩, ⟨0x84, 0x84, 0x7F, 4⟩, ⟨0x85, 0x85, 0x75, 6⟩, ⟨0x86, 0x86, 0xFF, 6⟩,
   ⟨0x87, 0x87, 0x01, 6⟩, ⟨0x88, 0x88, 0x3F, 6⟩, ⟨0x89, 0x89, 0x01, 7⟩, ⟨0x8A, 0x8A, 0x01, 6⟩, ⟨0x8B, 0x8B, 0x70, 6⟩,
   ⟨0x8C, 0x8C, 0x30, 6⟩, ⟨0x8D, 0x8D, 0x75, 7⟩, ⟨0x8E, 0x8E, 0x01, 6⟩, ⟨0x8F, 0x8F, 0x01, 4⟩, ⟨0x90, 0x90, 0xFF, 7⟩,
   ⟨0x91, 0x91, 0xFF, 0⟩, ⟨0x92, 0x92, 0x01, 7⟩, ⟨0x93, 0x93, 0x01, 4⟩, ⟨0x94, 0x94, 0x07, 4⟩, ⟨0x95, 0x95, 0x07, 6⟩,
   ⟨0x96, 0x96, 0x07, 0⟩, ⟨0x97, 0x97, 0xFF, 6⟩, ⟨0x98, 0x98, 0x01, 6⟩, ⟨0x99, 0x99, 0x75, 7⟩]

def opRowsRest : List OpRow :=
  [⟨0xA0, 0xA0, 0x01, 4⟩, ⟨0xA1, 0xA2, 0x03, 4⟩, ⟨0xA3, 0xA3, 0x01, 0⟩, ⟨0xA4, 0xA4, 0x01, 4⟩, ⟨0xA5, 0xA5, 0x07, 4⟩,
   ⟨0xA6, 0xA6, 0x01, 0⟩, ⟨0xB0, 0xB0, 0x01, 4⟩, ⟨0xB1, 0xB2, 0x01, 0⟩, ⟨0xB3, 0xB3, 0x01, 4⟩, ⟨0xB4, 0xB4, 0x01, 6⟩,
   ⟨0xC0, 0xC4, 0x01, 0⟩, ⟨0xC5, 0xC7, 0x01, 6⟩, ⟨0xC8, 0xC8, 0x01, 4⟩, ⟨0xD0, 0xD1, 0xFF, 7⟩, ⟨0xD2, 0xD3, 0x01, 5⟩,
   ⟨0xD4, 0xD4, 0x01, 4⟩, ⟨0xD5, 0xD5, 0x01, 0⟩, ⟨0xE0, 0xE0, 0x01, 0⟩, ⟨0xE1, 0xE1, 0x0F, 0⟩, ⟨0xE2, 0xE2, 0x01, 0⟩,
   ⟨0xE3, 0xE3, 0x01, 4⟩, ⟨0xE4, 0xE5, 0x01, 0⟩, ⟨0xE6, 0xE6, 0x01, 4⟩, ⟨0xE7, 0xE7, 0x01, 6⟩, ⟨0xE8, 0xEA, 0x01, 4⟩,
   ⟨0xEB, 0xEB, 0x01, 6⟩]

def opRowIn (rs : List OpRow) (opc : Nat) : Option OpRow := rs.find? (fun r => within opc r.lo r.hi)

/-- The row of an opcode; `none` where it is unassigned or reserved. -/
def opRow (opc : Nat) : Option OpRow :=
  if opc < 0x40 then opRowIn opRowsScalar opc
  else if opc < 0x80 then opRowIn opRowsVector opc
  else if opc < 0xA0 then opRowIn opRowsMemory opc
  else opRowIn opRowsRest opc

/-! ## Building the instruction -/

/-- The R-form arguments; a field the row does not name as an operand stays unused. -/
def Fields.rargs (f : Fields) (g : Guard) (r : OpRow) (dRaw : Bool) : RArgs where
  g := g
  d := if dRaw then .v 0 else Dest.ofBits f.d
  a := if r.opnds.testBit 2 then Opnd.ofBits f.a (f.lr.getLsbD 2) else Opnd.none
  b := if r.opnds.testBit 1 then Opnd.ofBits f.b (f.lr.getLsbD 1) else Opnd.none
  c := if r.opnds.testBit 0 then Opnd.ofBits f.c (f.lr.getLsbD 0) else Opnd.none
  la := f.la.toFin

def RArgs.toI (x : RArgs) (imm : BitVec 16) : IArgs := ⟨x.g, x.d, x.a, imm⟩
def RArgs.toM (x : RArgs) (off : BitVec 8) : MArgs := ⟨x.g, x.d, x.a, x.b, off, x.la⟩
def RArgs.toX (x : RArgs) (f : Fields) : XArgs :=
  ⟨x.g, x.d, x.a, f.b.toFin, (f.c.extractLsb' 6 2).toFin, (f.c.extractLsb' 0 6).toFin, f.reu == 1#1, x.la⟩

/-- The low `n` bits of a control byte. -/
def lowBits (n : Nat) (c : BitVec 8) : Fin (2 ^ n) := (c.extractLsb' 0 n).toFin

def buildScalar (opc md : Nat) (x : RArgs) (f : Fields) : Option Instr :=
  match opc with
  | 0x00 => some (.nop x.g)
  | 0x01 => (BW.of md).map (.smov · x)
  | 0x02 => (IW.of md).map (.sadd · x)
  | 0x03 => (IW.of md).map (.ssub · x)
  | 0x04 => (IW.of md).map (.smul · x)
  | 0x05 => (IW.of md).map (.smulh · x)
  | 0x06 => (IW.of md).map (.smad · x)
  | 0x07 => (BW.of md).map (.sand · x)
  | 0x08 => (BW.of md).map (.sor · x)
  | 0x09 => (BW.of md).map (.sxor · x)
  | 0x0A => (BW.of md).map (.snot · x)
  | 0x0B => (BW.of md).map (.sshl · x)
  | 0x0C => (BW.of md).map (.sshr · x)
  | 0x0D => (BW.of md).map (.ssar · x)
  | 0x0E => (BW.of md).map (.srot · x)
  | 0x0F => (IW.of md).map (.smin · x)
  | 0x10 => (IW.of md).map (.smax · x)
  | 0x11 => (Cmp.of md).bind fun k => (ScmpTy.of (f.c.toNat / 64)).map (.scmp k · (lowBits 6 f.c) x)
  | 0x12 => some (.ssel x)
  | 0x13 => (BW.of md).map (.spopc · x)
  | 0x14 => (BW.of md).map (.sclz · x)
  | 0x15 => (SX.of md).map (.sbfe · x)
  | 0x16 => some (.sbfi x)
  | 0x17 => (CV.of md).map (.scvt · x)
  | 0x18 => some (.slit (f.md.extractLsb' 0 2).toFin (f.md.getLsbD 2) (x.toI (f.b ++ f.c)))
  | 0x20 => (IW.of md).map (.saddImm · (x.toI (f.b ++ f.c)))
  | 0x21 => (IW.of md).map (.smulImm · (x.toI (f.b ++ f.c)))
  | 0x22 => (BW.of md).map (.sandImm · (x.toI (f.b ++ f.c)))
  | 0x23 => (BW.of md).map (.sorImm · (x.toI (f.b ++ f.c)))
  | 0x24 => (BW.of md).map (.sxorImm · (x.toI (f.b ++ f.c)))
  | 0x25 => (BW.of md).map (.sshlImm · (x.toI (f.b ++ f.c)))
  | 0x26 => (BW.of md).map (.sshrImm · (x.toI (f.b ++ f.c)))
  | 0x27 => (BW.of md).map (.ssarImm · (x.toI (f.b ++ f.c)))
  | 0x28 => (BW.of md).map (.srotImm · (x.toI (f.b ++ f.c)))
  | 0x29 => (IW.of md).map (.sminImm · (x.toI (f.b ++ f.c)))
  | 0x2A => (IW.of md).map (.smaxImm · (x.toI (f.b ++ f.c)))
  | 0x2B => (SX.of md).map (.sbfeImm · (x.toI (f.b ++ f.c)))
  | 0x2C => some (.sbfiImm (x.toI (f.b ++ f.c)))
  | 0x30 => some (.br x.g (f.a ++ (f.b ++ (f.c ++ (f.lr ++ (f.reu ++ f.la))))))
  | 0x31 => some (.brd x.g (f.a ++ f.b) (f.c ++ (f.lr ++ (f.reu ++ f.la))))
  | 0x32 => some (.brx x)
  | 0x33 => some (.call x.g x.d (f.a ++ (f.b ++ (f.c ++ (f.lr ++ (f.reu ++ f.la))))))
  | 0x34 => some (.ret x)
  | 0x35 => some (.exit x.g)
  | 0x36 => some (.yield x.g)
  | 0x37 => (SReg.of f.a.toNat).map (.srd · x.g x.d)
  | 0x38 => some (.callx x)
  | _ => none

def buildVector (opc md : Nat) (x : RArgs) (f : Fields) : Option Instr :=
  match opc with
  | 0x40 => (IW.of md).map (.vadd · x)
  | 0x41 => (IW.of md).map (.vsub · x)
  | 0x42 => (IW.of md).map (.vmul · x)
  | 0x43 => (IW.of md).map (.vmulh · x)
  | 0x44 => (IW.of md).map (.vmad · x)
  | 0x45 => (BW.of md).map (.vand · x)
  | 0x46 => (BW.of md).map (.vor · x)
  | 0x47 => (BW.of md).map (.vxor · x)
  | 0x48 => (BW.of md).map (.vnot · x)
  | 0x49 => (BW.of md).map (.vshl · x)
  | 0x4A => (BW.of md).map (.vshr · x)
  | 0x4B => (BW.of md).map (.vsar · x)
  | 0x4C => (IW.of md).map (.vmin · x)
  | 0x4D => (IW.of md).map (.vmax · x)
  | 0x4E => (IS.of md).map (.vabs · x)
  | 0x4F => (IS.of md).map (.vneg · x)
  | 0x50 => (BW.of md).map (.vpopc · x)
  | 0x51 => (BW.of md).map (.vclz · x)
  | 0x52 => (SX.of md).map (.vbfe · x)
  | 0x53 => some (.vbfi x)
  | 0x54 => some (.vsel x)
  | 0x55 => (Cmp.of md).bind fun k => (IW.of (f.c.toNat / 32)).map (.vcmp k · (lowBits 5 f.c) x)
  | 0x56 => (IW.of md).map (.vaddImm · (x.toI (f.b ++ f.c)))
  | 0x57 => (IW.of md).map (.vmulImm · (x.toI (f.b ++ f.c)))
  | 0x58 => (BW.of md).map (.vandImm · (x.toI (f.b ++ f.c)))
  | 0x59 => (BW.of md).map (.vorImm · (x.toI (f.b ++ f.c)))
  | 0x5A => (BW.of md).map (.vxorImm · (x.toI (f.b ++ f.c)))
  | 0x5B => (BW.of md).map (.vshlImm · (x.toI (f.b ++ f.c)))
  | 0x5C => (BW.of md).map (.vshrImm · (x.toI (f.b ++ f.c)))
  | 0x5D => (BW.of md).map (.vsarImm · (x.toI (f.b ++ f.c)))
  | 0x5E => (IW.of md).map (.vminImm · (x.toI (f.b ++ f.c)))
  | 0x5F => (IW.of md).map (.vmaxImm · (x.toI (f.b ++ f.c)))
  | 0x60 => (RM.of md).map (.fadd · x)
  | 0x61 => (RM.of md).map (.fmul · x)
  | 0x62 => (RM.of md).map (.ffma · x)
  | 0x63 => some (.fmin (f.md.getLsbD 0) x)
  | 0x64 => some (.fmax (f.md.getLsbD 0) x)
  | 0x65 => (Cmp.of md).bind fun k => (FcmpTy.of (f.c.toNat / 32)).map (.fcmp k · (lowBits 5 f.c) x)
  | 0x66 => some (.frcp x)
  | 0x67 => some (.frsq x)
  | 0x68 => (RM.of md).map (.fsqrt · x)
  | 0x69 => some (.fex2 x)
  | 0x6A => some (.flg2 x)
  | 0x6B => some (.fsin x)
  | 0x6C => some (.fcos x)
  | 0x6D => (Fmt.of f.c.toNat).map (.fclass · x)
  | 0x6E => (RM.of md).bind fun rm => (Fmt.of (f.c.toNat / 16)).bind fun dst =>
      (Fmt.of (f.c.toNat % 16)).map (.cvt rm dst · x)
  | 0x6F => (RM.of md).bind fun rm => (Fmt.of (f.c.toNat / 16)).bind fun dst =>
      (Fmt.of (f.c.toNat % 16)).map (.cvtNosat rm dst · x)
  | 0x70 => (RM.of md).map (.hadd2F16 · x)
  | 0x71 => (RM.of md).map (.hmul2F16 · x)
  | 0x72 => (RM.of md).map (.hfma2F16 · x)
  | 0x73 => (RM.of md).map (.hadd2Bf16 · x)
  | 0x74 => (RM.of md).map (.hmul2Bf16 · x)
  | 0x75 => (RM.of md).map (.hfma2Bf16 · x)
  | 0x76 => (SH.of md).map (.shfl · x)
  | 0x77 => some (.bcast x)
  | 0x78 => some (.ballot (lowBits 5 f.c) x)
  | 0x79 => (VT.of md).map (.vote · (lowBits 6 f.b) (lowBits 5 f.c) x)
  | 0x7A => (TO.of md).map (.tred · x)
  | 0x7B => (TO.of md).map (.tscan · x)
  | _ => none

/-- Scope, order and type of an atomic's control byte. -/
def atomCodes (c : BitVec 8) : Option (Scope × Order × AtomTy) :=
  (Scope.of (c.toNat / 32)).bind fun sc => (Order.of (c.toNat / 8 % 4)).bind fun o =>
    (AtomTy.of (c.toNat % 8)).map fun t => (sc, o, t)

def buildMemory (opc md : Nat) (x : RArgs) (f : Fields) : Option Instr :=
  match opc with
  | 0x80 => (SZL.of md).map (.ld · (x.toM f.c))
  | 0x81 => (SZL.of md).bind fun t => (Scope.of (f.c.toNat / 32)).map
      (.ldAcq t · (x.toM (f.c &&& 0x1F#8)))
  | 0x82 => (SZS.of md).map (.st · (x.toM f.c))
  | 0x83 => (SZS.of md).bind fun t => (Scope.of (f.c.toNat / 32)).map
      (.stRel t · (x.toM (f.c &&& 0x1F#8)))
  | 0x84 => (SZL.of md).map (.lds · (x.toM f.c))
  | 0x85 => (SZS.of md).map (.sts · (x.toM f.c))
  | 0x86 => (AT.of md).bind fun op => (atomCodes f.c).map fun (sc, o, t) => .atom op sc o t x
  | 0x87 => (atomCodes f.c).map fun (sc, o, t) => .atomCas sc o t x
  | 0x88 => (AT.of md).bind fun op => (atomCodes f.c).map fun (sc, o, t) => .red op sc o t x
  | 0x89 => some (.rdo x)
  | 0x8A => some (.rdoset x)
  | 0x8B => (SZV.of md).bind fun t => (Scope.of (f.c.toNat / 32)).map (.ldv t · (f.c.getLsbD 4) x)
  | 0x8C => (SZV.of md).bind fun t => (Scope.of (f.c.toNat / 32)).map (.ldvLatest t · (f.c.getLsbD 4) x)
  | 0x8D => (SZS.of md).map (.stv · x)
  | 0x8E => some (.vflr x)
  | 0x8F => some (.vqry x)
  | 0x90 => some (.acp f.md.toFin x)
  | 0x91 => some (.acpw f.md.toFin x.g)
  | 0x92 => some (.lease x)
  | 0x93 => some (.unlease x)
  | 0x94 => (PL.of md).map (.pref · (x.toM f.c))
  | 0x95 => (CC.of md).map (.cctl · x)
  | 0x96 => (FN.of md).bind fun op => (Scope.of (f.c.toNat / 32)).map (.fence ⟨op, x.la⟩ · x.g)
  | 0x97 => (AT.of md).bind fun op => (atomCodes f.c).map fun (sc, o, t) => .atoms op sc o t x
  | 0x98 => (atomCodes f.c).map fun (sc, o, t) => .atomsCas sc o t x
  | 0x99 => (SZS.of md).bind fun t => (Scope.of f.d.toNat).map (.stvRel t · x)
  | _ => none

def buildMatrix (opc md : Nat) (x : RArgs) (f : Fields) : Option Instr :=
  match opc with
  | 0xA0 => some (.mfmt (x.toX f))
  | 0xA1 => some (.mma (f.md.getLsbD 0) (x.toX f))
  | 0xA2 => some (.mloop (f.md.getLsbD 0) (x.toX f))
  | 0xA3 => some (.mzero (x.toX f))
  | 0xA4 => some (.mld (x.toX f))
  | 0xA5 => (MS.of md).map (.mst · (x.toX f))
  | 0xA6 => some (.mwait x.g)
  | 0xB0 => some (.sgo (x.toX f))
  | 0xB1 => some (.sstop (x.toX f))
  | 0xB2 => some (.sqry (x.toX f))
  | 0xB3 => some (.qfence x)
  | 0xB4 => some (.bcp x)
  | _ => none

def buildRecord (opc : Nat) (x : RArgs) (f : Fields) : Option Instr :=
  match opc with
  | 0xC0 => some (.qpop (lowBits 5 f.a) x)
  | 0xC1 => some (.qpush (lowBits 5 f.a) x)
  | 0xC2 => some (.qrel (lowBits 5 f.a) x)
  | 0xC3 => some (.qstat (lowBits 5 f.a) x)
  | 0xC4 => some (.qtry (lowBits 5 f.a) x)
  | 0xC5 => some (.aset x)
  | 0xC6 => some (.aadd x)
  | 0xC7 => some (.await x)
  | 0xC8 => some (.aqry x)
  | 0xD0 => some (.emit f.md.toFin x)
  | 0xD1 => some (.emitTeam f.md.toFin x)
  | 0xD2 => some (.emitx (lowBits 4 f.b) (f.b.extractLsb' 4 3).toFin x)
  | 0xD3 => some (.emitxTeam (lowBits 4 f.b) (f.b.extractLsb' 4 3).toFin x)
  | 0xD4 => some (.rrd x)
  | 0xD5 => some (.rlen x)
  | _ => none

/-- `syswr` of register `n`: the constructor of its row. -/
def buildSyswr (n : BitVec 16) (w : SysWr) : Instr :=
  match sysRow n.toNat with
  | .plain => .syswr w
  | .gptroot => .gptrootWrite w
  | .hptroot => .hptrootWrite w
  | .scrsplit => .scrsplitWrite w
  | .domcfg => .domcfgWrite w
  | .dtime => .dtimeWrite w
  | .gtoff => .gtoffWrite w
  | .mode => .modeWrite w
  | .saferst => .saferstWrite w
  | .profctl => .profctlWrite w
  | .pmsel => .pmselWrite w
  | .trcctl => .trcctlWrite w
  | .dbgdata => .dbgdataWrite w

def buildSystem (opc md : Nat) (x : RArgs) (f : Fields) : Option Instr :=
  match opc with
  | 0xE0 => some (.trap f.c x.g)
  | 0xE1 =>
    match md with
    | 0 => some (.tretFix x.g)
    | 1 => some (.tretSkip x.g)
    | 2 => some (.tretRetry x.g)
    | 3 => some (.tretKill x.g)
    | _ => none
  | 0xE2 => if f.b ++ f.c = 0x0113#16 then some (.dbgdataRead x.g x.d) else some (.sysrd (f.b ++ f.c) x.g x.d)
  | 0xE3 => some (buildSyswr (f.b ++ f.c) ⟨f.b ++ f.c, .team x.g x.a⟩)
  | 0xE4 => some (.ckpt x)
  | 0xE5 => some (.bkpt f.c x.g)
  | 0xE6 => some (.tmark x)
  | 0xE7 => some (.ringrst x)
  | 0xE8 => some (.presize x)
  | 0xE9 => some (.plend x)
  | 0xEA => some (.prevoke x)
  | 0xEB => some (.pgret x)
  | _ => none

/-- The instruction that the fields spell, whatever their unused bits hold; `none` where a code is undefined. -/
def build (f : Fields) : Option Instr :=
  let opc := f.opc.toNat
  match opRow opc, Guard.ofBits f.gcl f.greg f.gbit f.gneg with
  | some r, some g =>
    let x := f.rargs g r (opc == 0x99)
    let md := f.md.toNat
    if opc < 0x40 then buildScalar opc md x f
    else if opc < 0x80 then buildVector opc md x f
    else if opc < 0xA0 then buildMemory opc md x f
    else if opc < 0xC0 then buildMatrix opc md x f
    else if opc < 0xE0 then buildRecord opc x f
    else buildSystem opc md x f
  | _, _ => none

/-! ## Decoding and encoding a word -/

/-- Why a word is refused, by the fault it raises (R38). -/
inductive DecErr where
  /-- Fault 0x01. -/
  | encoding
  /-- Fault 0x02. -/
  | clause
  /-- Fault 0x03. -/
  | operand
  deriving DecidableEq, Repr

def DecErr.code : DecErr → Nat
  | .encoding => 0x01
  | .clause => 0x02
  | .operand => 0x03

/-- Stage 2 of R38: an assigned opcode with a defined MOD value. -/
def Fields.stage2 (f : Fields) : Bool :=
  match opRow f.opc.toNat with
  | some r => r.mods.testBit f.md.toNat
  | none => false

/-- Stages 5 and 6 of R38. -/
def Fields.stage56 (f : Fields) : Except DecErr Instr :=
  match build f with
  | none => .error .encoding
  | some i =>
    match i.enc with
    | none => .error .encoding
    | some e =>
      if e.fields = f ∧ e.ok1' = true then
        if e.ok3' then .ok i else .error .operand
      else .error .encoding

/-- The instruction of a word, apart from the tests that look at its clause. -/
def decodeWord (w : W64) : Except DecErr Instr :=
  let f := Fields.unpack w
  if f.stage2 then f.stage56 else .error .encoding

/-- The word of an instruction; a device event has none. -/
def encode (i : Instr) : Option W64 := i.enc.map fun e => e.fields.pack

/-! ## Clauses (R11-R17, R38, R44) -/

/-- A clause header (R12). -/
structure Header where
  ecl : Nat
  nin : Nat
  nlit : Nat
  wmask : BitVec 6
  wthr : Nat
  yld : Bool
  rcv : Bool
  trc : Bool
  deriving DecidableEq, Repr

def Header.ofWord (w : W64) : Header where
  ecl := (w.extractLsb' 60 4).toNat
  nin := (w.extractLsb' 56 4).toNat
  nlit := (w.extractLsb' 53 3).toNat
  wmask := w.extractLsb' 47 6
  wthr := (w.extractLsb' 43 4).toNat
  yld := w.getLsbD 42
  rcv := w.getLsbD 41
  trc := w.getLsbD 40

/-- Stage 1 of R38. -/
def headerOk (w : W64) : Bool :=
  let h := Header.ofWord w
  decide (h.ecl < 8) && decide (h.nlit < 5) && w.extractLsb' 0 40 == 0#40

/-- The clause class of an opcode (R44). -/
def opcClass (opc : Nat) : Nat :=
  if opc < 0x40 then 0
  else if opc < 0x80 then 1
  else if opc < 0xA0 then 2
  else if opc < 0xB0 then 3
  else if opc < 0xC0 then 4
  else if opc < 0xD0 then 5
  else if opc < 0xE0 then 6
  else 7

/-- Scalar ALU opcodes stand in a clause of any class (R44). -/
def scalarAlu (opc : Nat) : Bool := within opc 0x00 0x18 || within opc 0x20 0x2C

/-- The waiting instructions (R15): `acpw`, `mwait`, `await`, `qpop`, `qpush`, `fence`, `qfence`. -/
def waiting (opc : Nat) : Bool :=
  opc == 0x91 || opc == 0xA6 || opc == 0xC7 || opc == 0xC0 || opc == 0xC1 || opc == 0x96 || opc == 0xB3

/-- The control transfers (R16): `br`, `brd`, `brx`, `call`, `ret`, `exit`, `callx`, `trap`, `tret`. -/
def transfer (opc : Nat) : Bool := within opc 0x30 0x35 || opc == 0x38 || opc == 0xE0 || opc == 0xE1

/-- A literal byte whose index is beyond the clause's literals (R21). -/
def badLit (nlit : Nat) (used : Bool) (x : BitVec 8) : Bool :=
  used && x.extractLsb' 6 2 == 3#2 && decide (nlit ≤ (x.extractLsb' 0 6).toNat)

/-- Stages 2-6 of R38 on one instruction word of a clause of class `cls` with `nlit` literals. -/
def decodeIn (cls nlit : Nat) (first last : Bool) (w : W64) : Except DecErr Instr :=
  let f := Fields.unpack w
  let opc := f.opc.toNat
  match opRow opc with
  | none => .error .encoding
  | some r =>
    if !r.mods.testBit f.md.toNat then .error .encoding
    else if !(opcClass opc == cls || scalarAlu opc) then .error .clause
    else if (waiting opc && !first) || (transfer opc && !last) || badLit nlit (r.opnds.testBit 2) f.a
        || badLit nlit (r.opnds.testBit 1) f.b || badLit nlit (r.opnds.testBit 0) f.c then .error .clause
    else f.stage56

/-- The first instruction word that fails, with its index. -/
def checkWords (cls nlit : Nat) : Nat → List W64 → Option (Nat × DecErr)
  | _, [] => none
  | k, w :: ws =>
    match decodeIn cls nlit (k == 0) ws.isEmpty w with
    | .error e => some (k, e)
    | .ok _ => checkWords cls nlit (k + 1) ws

/-- R38: the word of the clause that fails (0 the header, k the k-th instruction) and why. -/
def validate (hdr : W64) (words : List W64) : Option (Nat × DecErr) :=
  if headerOk hdr then
    let h := Header.ofWord hdr
    (checkWords h.ecl h.nlit 0 words).map fun (k, e) => (k + 1, e)
  else some (0, .clause)

/-! ## Bytes -/

/-- The bits of `n` little-endian bytes (R4). -/
def leNat : List Byte → Nat
  | [] => 0
  | b :: bs => b.toNat + 256 * leNat bs

/-- `n` little-endian bytes of `x`. -/
def leBytes : Nat → Nat → List Byte
  | 0, _ => []
  | n + 1, x => BitVec.ofNat 8 x :: leBytes n (x / 256)

/-- An instruction from bytes in memory order, with the rest of the bytes. -/
def decodeBytes (bs : List Byte) : Option (Instr × List Byte) :=
  if bs.length < 8 then none
  else match decodeWord (BitVec.ofNat 64 (leNat (bs.take 8))) with
    | .ok i => some (i, bs.drop 8)
    | .error _ => none

/-- The host's question: the instruction whose bits are `w`. An instruction is one 64-bit word, little-endian. -/
def decodeTableWord (_nbits w : Nat) : Option Instr := (decodeBytes (leBytes 8 w)).map (·.1)

end Sys2Proof
end

