-- ==== Sys2Proof/Config.lean ====
section
/-!
DEFINITION. What the manual leaves to the device: values that no rule states. A free value is opaque: nothing constrains
it. What an unlisted byte of memory reads as is a choice (log 4).
-/
namespace Sys2Proof.Config

/-- What a byte of memory that nothing has written reads as (log 4). -/
def unlisted : Byte := 0

/-- A free 64-bit value, applied to the counter `State.free` (log 6). -/
opaque freeWord : Nat → W64

/-- Whether the undo log of a partition is full (R361): from its entries and UNDOLEN, for no rule gives an entry's size (log 152). -/
opaque undoFull : Nat → Nat → Bool

/-- The index of the translation a full TLB drops, from the counter (log 12). -/
opaque tlbVictim : Nat → Nat

/-- The index of the cached line a full cache drops, from the counter (log 107). -/
opaque cacheVictim : Nat → Nat

/-- D of R422, the power the module's present work would draw, in W, at a time in ns (log 18). -/
opaque powerDemand : Nat → Nat

/-- PWR of R421, the module's measured power in W, at a time in ns; `none` while the measurement is lost (log 18). -/
opaque powerMeasured : Nat → Option Nat

/-- Whether, at a time in ns, the module must shed power that only a partition's own cores can give (R414, log 18). -/
opaque mustShed : Nat → Nat → Bool

/-- Whether a firmware image carries a valid signature of Pamund (R429, log 16). -/
opaque imageVerifies : List Byte → Bool

/-- The device's signature over a byte string: 29,792 bytes (R431, log 17). -/
opaque signature : List Byte → BitVec 238336

/-- A byte of the device certificate (R430, log 17). -/
opaque certificate : Nat → Byte

end Sys2Proof.Config
end

