-- ==== Sys2Proof/Machine/Flags.lean ====
section
/-!
DEFINITION. Number formats to the bit (R54-R77) and the sticky flags (R66-R68): decoding a code to its exact value,
rounding an exact value once, and every floating operation with the flags it raises. Exact values are integers times
powers of two; an irrational result is a long truncation with a sticky bit.
-/
namespace Sys2Proof.Machine

/-! ## Flags and rounding modes -/

def fNV : W32 := 1#32
def fDZ : W32 := 2#32
def fOF : W32 := 4#32
def fUF : W32 := 8#32
def fNX : W32 := 16#32

/-- R64. -/
inductive Rmode where
  | rne | rz | rup | rdn
  deriving DecidableEq, Repr

def Rmode.of : Nat → Rmode
  | 0 => .rne
  | 1 => .rz
  | 2 => .rup
  | _ => .rdn

/-- R67: the mode of a lane, from the instruction, the lane's sr.fflags and sr.fctl. -/
def laneMode (rm : RM) (fflags : W32) (fctl : W64) : Rmode :=
  match rm with
  | .rne => .rne
  | .rz => .rz
  | .rup => .rup
  | .rdn => .rdn
  | .fctl => if fflags.getLsbD 8 then .of (fflags.extractLsb' 9 2).toNat else .of (fctl.extractLsb' 0 2).toNat

/-! ## Binary formats (R54) -/

structure FFmt where
  ebits : Nat
  fbits : Nat
  bias : Nat
  hasInf : Bool
  deriving DecidableEq, Repr

def ff32 : FFmt := ⟨8, 23, 127, true⟩
def ff16 : FFmt := ⟨5, 10, 15, true⟩
def fbf16 : FFmt := ⟨8, 7, 127, true⟩
def fe4m3 : FFmt := ⟨4, 3, 7, false⟩
def fe5m2 : FFmt := ⟨5, 2, 15, true⟩

def FFmt.width (F : FFmt) : Nat := 1 + F.ebits + F.fbits
/-- The code of +∞ in a format that has one. -/
def FFmt.infCode (F : FFmt) : Nat := (2 ^ F.ebits - 1) * 2 ^ F.fbits
/-- The code of the largest finite value. -/
def FFmt.maxCode (F : FFmt) : Nat := if F.hasInf then F.infCode - 1 else 2 ^ (F.ebits + F.fbits) - 2
/-- The canonical NaN (R54, R56). -/
def FFmt.nanCode (F : FFmt) : Nat := if F.hasInf then F.infCode + 2 ^ (F.fbits - 1) else 2 ^ (F.ebits + F.fbits) - 1
def FFmt.signBit (F : FFmt) : Nat := 2 ^ (F.ebits + F.fbits)
/-- The exponent of the least significant bit of a subnormal. -/
def FFmt.qmin (F : FFmt) : Int := 1 - (F.bias : Int) - F.fbits
/-- The exponent of the smallest normal. -/
def FFmt.emin (F : FFmt) : Int := 1 - (F.bias : Int)

/-- An exact value: (-1)^neg × m × 2^e, an infinity, or a NaN. -/
inductive FVal where
  | nan (signalling : Bool)
  | inf (neg : Bool)
  | fin (neg : Bool) (m : Nat) (e : Int)
  deriving DecidableEq, Repr

/-- The value of a code (R54, R55). -/
def FFmt.value (F : FFmt) (x : Nat) : FVal :=
  let neg := decide (x / F.signBit % 2 = 1)
  let ex := x / 2 ^ F.fbits % 2 ^ F.ebits
  let fr := x % 2 ^ F.fbits
  let top := 2 ^ F.ebits - 1
  if F.hasInf ∧ ex = top then
    if fr = 0 then .inf neg else .nan (decide (fr / 2 ^ (F.fbits - 1) = 0))
  else if ¬F.hasInf ∧ ex = top ∧ fr = 2 ^ F.fbits - 1 then .nan false
  else if ex = 0 then .fin neg fr F.qmin
  else .fin neg (fr + 2 ^ F.fbits) (F.qmin + (ex - 1))

def FFmt.zero (F : FFmt) (neg : Bool) : Nat := if neg then F.signBit else 0
def FFmt.inf (F : FFmt) (neg : Bool) : Nat := F.zero neg + F.infCode
def FFmt.largest (F : FFmt) (neg : Bool) : Nat := F.zero neg + F.maxCode

/-! ## Rounding once (R64) -/

/-- `m × 2^e`, a little above it when `sticky`, cut at bit `q`: the integer part, and where the rest lies: 0 none,
1 below half, 2 half, 3 above half. -/
def cutAt (m : Nat) (e : Int) (sticky : Bool) (q : Int) : Nat × Nat :=
  if q ≤ e then (m * 2 ^ (e - q).toNat, if sticky then 1 else 0)
  else
    let k := (q - e).toNat
    let r := m % 2 ^ k
    let half := 2 ^ (k - 1)
    (m / 2 ^ k,
      if r = 0 then (if sticky then 1 else 0)
      else if r < half then 1
      else if r = half then (if sticky then 3 else 2)
      else 3)

/-- Whether the mode takes the next larger magnitude. -/
def roundUp (mode : Rmode) (neg : Bool) (n part : Nat) : Bool :=
  match mode with
  | .rne => part == 3 || (part == 2 && n % 2 == 1)
  | .rz => false
  | .rup => part != 0 && !neg
  | .rdn => part != 0 && neg

/-- The integer `m × 2^e` cut at `q` rounds to. -/
def roundAt (mode : Rmode) (neg : Bool) (m : Nat) (e : Int) (sticky : Bool) (q : Int) : Nat × Bool :=
  let c := cutAt m e sticky q
  (c.1 + (if roundUp mode neg c.1 c.2 then 1 else 0), c.2 != 0)

/-- The magnitude code of `n × 2^q`. -/
def FFmt.magCode (F : FFmt) (n : Nat) (q : Int) : Nat :=
  if n < 2 ^ F.fbits then n
  else if n < 2 ^ (F.fbits + 1) then (q - F.qmin + 1).toNat * 2 ^ F.fbits + (n - 2 ^ F.fbits)
  else (q - F.qmin + 2).toNat * 2 ^ F.fbits

/-- A rounded non-zero magnitude: its code with the exponent unbounded above, and what R68 asks of it. -/
structure Rounded where
  code : Nat
  inexact : Bool
  tiny : Bool
  deriving DecidableEq, Repr

def FFmt.round (F : FFmt) (mode : Rmode) (neg : Bool) (m : Nat) (e : Int) (sticky : Bool) : Rounded :=
  let qu : Int := e + (Nat.log2 m : Int) - F.fbits
  let q := max qu F.qmin
  let r := roundAt mode neg m e sticky q
  let u := roundAt mode neg m e sticky qu
  let eu := qu + F.fbits + (if u.1 = 2 ^ (F.fbits + 1) then 1 else 0)
  { code := F.magCode r.1 q, inexact := r.2, tiny := decide (eu < F.emin) }

/-- Whether an overflow in this direction goes to infinity (R71). -/
def overAway (mode : Rmode) (neg : Bool) : Bool :=
  match mode with
  | .rne => true
  | .rz => false
  | .rup => !neg
  | .rdn => neg

def Rounded.flags (r : Rounded) : W32 :=
  (if r.inexact then fNX else 0) ||| (if r.tiny && r.inexact then fUF else 0)

/-- A non-zero exact value delivered in a format with infinities (R64, R68, R71): its code and flags. -/
def FFmt.deliver (F : FFmt) (mode : Rmode) (neg : Bool) (m : Nat) (e : Int) (sticky : Bool) : Nat × W32 :=
  let r := F.round mode neg m e sticky
  if F.maxCode < r.code then (if overAway mode neg then F.inf neg else F.largest neg, fOF ||| fNX)
  else (F.zero neg + r.code, r.flags)

/-- A signed sum delivered; an exact zero takes the sign `z`. -/
def FFmt.deliverInt (F : FFmt) (mode : Rmode) (s : Int) (e : Int) (z : Bool) : Nat × W32 :=
  if s = 0 then (F.zero z, 0) else F.deliver mode (decide (s < 0)) s.natAbs e false

def signed (neg : Bool) (m : Nat) : Int := if neg then -(m : Int) else m

/-- The exact sum of two finite values, over the smaller exponent. -/
def addExact (na : Bool) (ma : Nat) (ea : Int) (nb : Bool) (mb : Nat) (eb : Int) : Int × Int :=
  let e := min ea eb
  (signed na ma * 2 ^ (ea - e).toNat + signed nb mb * 2 ^ (eb - e).toNat, e)

def isSig : FVal → Bool
  | .nan s => s
  | _ => false

def isNan : FVal → Bool
  | .nan _ => true
  | _ => false

/-- The canonical NaN, with NV when it is due. -/
def FFmt.nanRes (F : FFmt) (nv : Bool) : Nat × W32 := (F.nanCode, if nv then fNV else 0)

/-- a + b (R121, R80). -/
def FFmt.addV (F : FFmt) (mode : Rmode) (a b : FVal) : Nat × W32 :=
  match a, b with
  | .nan s, y => F.nanRes (s || isSig y)
  | x, .nan s => F.nanRes (s || isSig x)
  | .inf x, .inf y => if x = y then (F.inf x, 0) else F.nanRes true
  | .inf x, _ => (F.inf x, 0)
  | _, .inf y => (F.inf y, 0)
  | .fin na ma ea, .fin nb mb eb =>
    let s := addExact na ma ea nb mb eb
    F.deliverInt mode s.1 s.2 (if na = nb ∧ ma = 0 ∧ mb = 0 then na else mode == .rdn)

/-- a × b. -/
def FFmt.mulV (F : FFmt) (mode : Rmode) (a b : FVal) : Nat × W32 :=
  match a, b with
  | .nan s, y => F.nanRes (s || isSig y)
  | x, .nan s => F.nanRes (s || isSig x)
  | .inf x, .inf y => (F.inf (x != y), 0)
  | .inf x, .fin y m _ | .fin y m _, .inf x => if m = 0 then F.nanRes true else (F.inf (x != y), 0)
  | .fin na ma ea, .fin nb mb eb =>
    if ma * mb = 0 then (F.zero (na != nb), 0) else F.deliver mode (na != nb) (ma * mb) (ea + eb) false

/-- a × b + c rounded once (R121): 0 × ∞ raises NV whatever c is. -/
def FFmt.fmaV (F : FFmt) (mode : Rmode) (a b c : FVal) : Nat × W32 :=
  let sig := isSig a || isSig b || isSig c
  let prodBad := match a, b with
    | .inf _, .fin _ m _ | .fin _ m _, .inf _ => decide (m = 0)
    | _, _ => false
  if prodBad then F.nanRes true
  else if isNan a || isNan b || isNan c then F.nanRes sig
  else match a, b, c with
    | .fin na ma ea, .fin nb mb eb, .fin nc mc ec =>
      let np := na != nb
      let s := addExact np (ma * mb) (ea + eb) nc mc ec
      F.deliverInt mode s.1 s.2 (if np = nc ∧ ma * mb = 0 ∧ mc = 0 then np else mode == .rdn)
    | .fin _ _ _, .fin _ _ _, .inf z => (F.inf z, 0)
    | .inf x, .inf y, .inf z => if (x != y) = z then (F.inf z, 0) else F.nanRes true
    | .inf x, .fin y _ _, .inf z | .fin y _ _, .inf x, .inf z =>
      if (x != y) = z then (F.inf z, 0) else F.nanRes true
    | .inf x, .inf y, _ => (F.inf (x != y), 0)
    | .inf x, .fin y _ _, _ | .fin y _ _, .inf x, _ => (F.inf (x != y), 0)
    | _, _, _ => F.nanRes sig

def FFmt.add (F : FFmt) (mode : Rmode) (a b : Nat) : Nat × W32 := F.addV mode (F.value a) (F.value b)
def FFmt.mul (F : FFmt) (mode : Rmode) (a b : Nat) : Nat × W32 := F.mulV mode (F.value a) (F.value b)
def FFmt.fma (F : FFmt) (mode : Rmode) (a b c : Nat) : Nat × W32 := F.fmaV mode (F.value a) (F.value b) (F.value c)

/-! ## Order, minimum, comparison, class -/

/-- a < b on numbers, -0 = +0. -/
def FVal.lt : FVal → FVal → Bool
  | .inf x, .inf y => x && !y
  | .inf x, .fin .. => x
  | .fin .., .inf y => !y
  | .fin na ma ea, .fin nb mb eb =>
    let e := min ea eb
    decide (signed na ma * 2 ^ (ea - e).toNat < signed nb mb * 2 ^ (eb - e).toNat)
  | _, _ => false

def FVal.eq (a b : FVal) : Bool := !isNan a && !isNan b && !a.lt b && !b.lt a

def FVal.neg : FVal → Bool
  | .inf n => n
  | .fin n _ _ => n
  | .nan _ => false

/-- a below b with -0 below +0 (R122). -/
def FVal.below (a b : FVal) : Bool := a.lt b || (a.eq b && a.neg && !b.neg)

/-- `fmin` and `fmax` (R122); `nan` is MOD 1. -/
def FFmt.minmax (F : FFmt) (isMax nan : Bool) (a b : Nat) : Nat × W32 :=
  let x := F.value a
  let y := F.value b
  let fl := if isSig x || isSig y then fNV else 0
  if isNan x && isNan y then (F.nanCode, fl)
  else if isNan x then (if nan then F.nanCode else b, fl)
  else if isNan y then (if nan then F.nanCode else a, fl)
  else (if (if isMax then y.below x else x.below y) then a else b, fl)

/-- R123. -/
def FFmt.compare (F : FFmt) (c : Cmp) (a b : Nat) : Bool × W32 :=
  let x := F.value a
  let y := F.value b
  let nan := isNan x || isNan y
  let sig := isSig x || isSig y
  let fl (quiet : Bool) : W32 := if sig || (nan && quiet) then fNV else 0
  match c with
  | .eq => (x.eq y, fl false)
  | .ne => (!x.eq y, fl false)
  | .lt => (x.lt y, fl true)
  | .le => (x.lt y || x.eq y, fl true)
  | .gt => (y.lt x, fl true)
  | .ge => (y.lt x || x.eq y, fl true)
  | .uno => (nan, fl false)
  | .ord => (!nan, fl false)

/-- The class bit of a value (R125). -/
def FFmt.classBit (F : FFmt) (x : Nat) : Nat :=
  match F.value x with
  | .inf n => if n then 0 else 7
  | .nan s => if s then 8 else 9
  | .fin n m _ =>
    if m = 0 then (if n then 3 else 4)
    else if m < 2 ^ F.fbits then (if n then 2 else 5)
    else (if n then 1 else 6)

/-! ## Logarithmic formats (R58, R59) -/

/-- Steps per power of two and magnitude bits: 4 and 5 for .l6, 2 and 3 for .l4. -/
structure LFmt where
  q : Nat
  mbits : Nat
  deriving DecidableEq, Repr

def fl6 : LFmt := ⟨4, 5⟩
def fl4 : LFmt := ⟨2, 3⟩

def LFmt.mmax (L : LFmt) : Int := 2 ^ (L.mbits - 1) - 1
def LFmt.zeroCode (L : LFmt) : Nat := 2 ^ (L.mbits - 1)
def LFmt.nanCode (L : LFmt) : Nat := 2 ^ L.mbits + 2 ^ (L.mbits - 1)
def LFmt.width (L : LFmt) : Nat := 1 + L.mbits

/-- A logarithmic code. -/
inductive LVal where
  | nan
  | zero
  | num (neg : Bool) (m : Int)
  deriving DecidableEq, Repr

def LFmt.value (L : LFmt) (x : Nat) : LVal :=
  let neg := decide (x / 2 ^ L.mbits % 2 = 1)
  let f := x % 2 ^ L.mbits
  if f = L.zeroCode then (if neg then .nan else .zero)
  else .num neg (if f < L.zeroCode then f else (f : Int) - 2 ^ L.mbits)

def LFmt.code (L : LFmt) (neg : Bool) (m : Int) : Nat :=
  (if neg then 2 ^ L.mbits else 0) + (m % (2 ^ L.mbits : Int)).toNat

/-- The table T (R59). -/
def logT (f : Nat) : Nat :=
  if f = 0 then 0x80_0000 else if f = 1 then 0x98_37F0 else if f = 2 then 0xB5_04F3 else 0xD7_44FD

/-- The magnitude of an exponent sum of `s` quarters: T[f] × 2^(i - 23) (R59, R60). -/
def logMag (s : Int) : Nat × Int := (logT (s % 4).toNat, s / 4 - 23)

/-- The value of a logarithmic number with field m. -/
def LFmt.valueOf (L : LFmt) (neg : Bool) (m : Int) : FVal :=
  let g := logMag (if L.q = 4 then m else 2 * m)
  .fin neg g.1 g.2

/-- R76: m is q × log2|x| rounded to nearest, for x = k × 2^e: floor((floor(log2 x^(2q)) + 1) / 2). -/
def LFmt.roundLog (L : LFmt) (k : Nat) (e : Int) : Int :=
  ((Nat.log2 (k ^ (2 * L.q)) : Int) + 2 * L.q * e + 1) / 2

/-- A field m delivered, with the overflow and zero rules of R76. `exact`: the value is the code's own. -/
def LFmt.deliver (L : LFmt) (nosat neg : Bool) (m : Int) (exact : Bool) : Nat × W32 :=
  if L.mmax < m then (if nosat then L.nanCode else L.code neg L.mmax, fOF ||| fNX)
  else if m < -L.mmax then (L.zeroCode, fUF ||| fNX)
  else (L.code neg m, if exact then 0 else fNX)

/-- R76. -/
def LFmt.ofFloat (L : LFmt) (nosat : Bool) : FVal → Nat × W32
  | .nan s => (L.nanCode, if s then fNV else 0)
  | .inf n => (if nosat then L.nanCode else L.code n L.mmax, fNV)
  | .fin n k e =>
    if k = 0 then (L.zeroCode, 0)
    else
      let m := L.roundLog k e
      L.deliver nosat n m ((FVal.fin n k e).eq (L.valueOf n m))

/-- R77 between the logarithmic formats: .l6 from .l4 doubles m, .l4 from .l6 halves it. -/
def LFmt.ofLog (L : LFmt) (nosat : Bool) : LVal → Nat × W32
  | .nan => (L.nanCode, 0)
  | .zero => (L.zeroCode, 0)
  | .num n m =>
    if L.q = 4 then (L.code n (2 * m), 0)
    else
      let h := m / 2
      let r := if m % 2 = 0 then h else if h % 2 = 0 then h else h + 1
      L.deliver nosat n r (decide (m % 2 = 0))

/-! ## Integers -/

/-- Width and signedness of an integer format (R62). -/
structure IFmt where
  w : Nat
  sgn : Bool
  deriving DecidableEq, Repr

def IFmt.lo (I : IFmt) : Int := if I.sgn then -(2 ^ (I.w - 1)) else 0
def IFmt.hi (I : IFmt) : Int := if I.sgn then 2 ^ (I.w - 1) - 1 else 2 ^ I.w - 1

/-- The value of the low bits of `x`. -/
def IFmt.value (I : IFmt) (x : Nat) : Int :=
  let y := x % 2 ^ I.w
  if I.sgn ∧ 2 ^ (I.w - 1) ≤ y then (y : Int) - 2 ^ I.w else y

/-- `v` modulo 2^64 after sign or zero extension of its low w bits. -/
def IFmt.extend (I : IFmt) (v : Int) : W64 :=
  BitVec.ofInt 64 (I.value (v % (2 ^ I.w : Int)).toNat)

def IFmt.clamp (I : IFmt) (v : Int) : Int := if v < I.lo then I.lo else if I.hi < v then I.hi else v

/-- R73: a rounded float into an integer format; the value and the flags. -/
def IFmt.ofFloat (I : IFmt) (mode : Rmode) : FVal → Int × W32
  | .nan _ => (0, fNV)
  | .inf n => (if n then I.lo else I.hi, fNV)
  | .fin n m e =>
    let r := roundAt mode n m e false 0
    let v := signed n r.1
    if v < I.lo then (I.lo, fNV) else if I.hi < v then (I.hi, fNV) else (v, if r.2 then fNX else 0)

/-! ## Conversions (R69-R77) -/

/-- What a format is. -/
inductive FmtKind where
  | int (i : IFmt)
  | flt (f : FFmt)
  | log (l : LFmt)
  deriving DecidableEq, Repr

def Fmt.kind : Fmt → FmtKind
  | .i8 => .int ⟨8, true⟩
  | .n8 => .int ⟨8, false⟩
  | .i16 => .int ⟨16, true⟩
  | .n16 => .int ⟨16, false⟩
  | .i32 => .int ⟨32, true⟩
  | .n32 => .int ⟨32, false⟩
  | .i64 => .int ⟨64, true⟩
  | .n64 => .int ⟨64, false⟩
  | .i4 => .int ⟨4, true⟩
  | .f32 => .flt ff32
  | .f16 => .flt ff16
  | .bf16 => .flt fbf16
  | .e4m3 => .flt fe4m3
  | .e5m2 => .flt fe5m2
  | .l6 => .log fl6
  | .l4 => .log fl4

/-- The widest bits a format's code takes. -/
def FmtKind.width : FmtKind → Nat
  | .int i => i.w
  | .flt f => f.width
  | .log l => l.width

/-- A non-zero exact value into a floating destination (R71): the 8-bit formats saturate or deliver their overflow
value. -/
def FFmt.convert (F : FFmt) (nosat : Bool) (mode : Rmode) (neg : Bool) (m : Nat) (e : Int) : Nat × W32 :=
  let r := F.round mode neg m e false
  if F.maxCode < r.code then
    if F.width = 8 then
      if nosat && overAway mode neg then (if F.hasInf then F.inf neg else F.nanCode, fOF ||| fNX)
      else (F.largest neg, fOF ||| fNX)
    else (if overAway mode neg then F.inf neg else F.largest neg, fOF ||| fNX)
  else (F.zero neg + r.code, r.flags)

/-- R71, R72: a floating value into a floating destination. -/
def FFmt.ofFloat (F : FFmt) (nosat : Bool) (mode : Rmode) : FVal → Nat × W32
  | .nan s => (F.nanCode, if s then fNV else 0)
  | .inf n => if F.hasInf then (F.inf n, 0) else (if nosat then F.nanCode else F.largest n, fNV)
  | .fin n m e => if m = 0 then (F.zero n, 0) else F.convert nosat mode n m e

/-- R74. -/
def FFmt.ofInt (F : FFmt) (nosat : Bool) (mode : Rmode) (v : Int) : Nat × W32 :=
  if v = 0 then (0, 0) else F.convert nosat mode (decide (v < 0)) v.natAbs 0

/-- `cvt` and `cvt.nosat` of the code `x`: the result's code, extended as R52 says, and the flags. A pair that R69 does
not allow never issues; it gives 0 here. -/
def convert (nosat : Bool) (mode : Rmode) (dst src : Fmt) (x : Nat) : W64 × W32 :=
  let bits (p : Nat × W32) : W64 × W32 := (BitVec.ofNat 64 p.1, p.2)
  match Fmt.kind dst, Fmt.kind src with
  | .int d, .int s =>
    let v := s.value x
    (if nosat then d.extend v else d.extend (d.clamp v), 0)
  | .int d, .flt s =>
    let r := d.ofFloat mode (s.value x)
    (d.extend r.1, r.2)
  | .int _, .log _ => (0, 0)
  | .flt d, .int s => bits (d.ofInt nosat mode (s.value x))
  | .flt d, .flt s => bits (d.ofFloat nosat mode (s.value x))
  | .flt d, .log s =>
    match s.value x with
    | .nan => bits (d.nanCode, 0)
    | .zero => bits (0, 0)
    | .num n m => bits (d.ofFloat nosat mode (s.valueOf n m))
  | .log _, .int _ => (0, 0)
  | .log d, .flt s => bits (d.ofFloat nosat (s.value x))
  | .log d, .log s => bits (d.ofLog nosat (s.value x))

/-- The class mask of a code (R125). -/
def classMask (f : Fmt) (x : Nat) : W32 :=
  match Fmt.kind f with
  | .flt F => 1#32 <<< F.classBit x
  | .log L =>
    match L.value x with
    | .nan => 1#32 <<< 9
    | .zero => 1#32 <<< 4
    | .num n _ => 1#32 <<< (if n then 1 else 6)
  | .int _ => 0

/-! ## Roots and transcendentals (R124)

Each delivers its exact result rounded once. An irrational result is computed to some 300 bits after the point and
rounded from there (log 9). -/

/-- Bit-by-bit integer square root. -/
def isqrtFrom : Nat → Nat → Nat → Nat
  | 0, _, r => r
  | k + 1, n, r =>
    let t := r + 2 ^ k
    isqrtFrom k n (if t * t ≤ n then t else r)

def isqrt (n : Nat) : Nat := isqrtFrom (Nat.log2 n / 2 + 1) n 0

/-- π/2 and ln 2, truncated at 2^-448 and 2^-320. -/
def halfPi448 : Nat :=
  0x1921fb54442d18469898cc51701b839a252049c1114cf98e804177d4c76273644a29410f31c6809bbdf2a33679a748636605614dbe4be286e
def ln2_320 : Nat := 0xb17217f7d1cf79abc9e3b39803f2f6af40f343267298b62d8a0d175b8baafa2be7b876206debac98

/-- The terms t, t × x / (k + 1), … of an exponential series with F fractional bits, summed. -/
def expSeries (F x : Nat) : Nat → Nat → Nat → Nat → Nat
  | 0, _, _, acc => acc
  | fuel + 1, k, t, acc =>
    let t' := t * x / 2 ^ F / (k + 1)
    expSeries F x fuel (k + 1) t' (acc + t')

/-- The alternating series of sine (from k = 1) or cosine (from k = 0): terms x^k / k!, every second one. -/
def trigSeries (F x2 : Nat) : Nat → Nat → Int → Nat → Int → Int
  | 0, _, _, _, acc => acc
  | fuel + 1, k, sgn, t, acc =>
    let t' := t * x2 / 2 ^ F / ((k + 1) * (k + 2))
    trigSeries F x2 fuel (k + 2) (-sgn) t' (acc + sgn * t')

/-- 2 atanh(z) with F fractional bits: 2 (z + z³/3 + …). -/
def atanhSeries (F z2 : Nat) : Nat → Nat → Nat → Nat → Nat
  | 0, _, _, acc => acc
  | fuel + 1, k, p, acc =>
    let p' := p * z2 / 2 ^ F
    atanhSeries F z2 fuel (k + 2) p' (acc + p' / (k + 2))

/-- 2^f for a fraction f of 320 bits: the value times 2^320. -/
def exp2Frac (f : Nat) : Nat :=
  let x := f * ln2_320 / 2 ^ 320
  expSeries 320 x 100 0 (2 ^ 320) (2 ^ 320)

/-- ln y for 1 ≤ y < 2, y of 320 fractional bits: the value times 2^320. -/
def lnFrac (y : Nat) : Nat :=
  let z := (y - 2 ^ 320) * 2 ^ 320 / (y + 2 ^ 320)
  let z2 := z * z / 2 ^ 320
  2 * atanhSeries 320 z2 110 1 z z

/-- sin or cos of r, 0 ≤ r < π/2, r of 448 fractional bits: the value times 2^448. -/
def sinFrac (r : Nat) : Nat :=
  let x2 := r * r / 2 ^ 448
  (trigSeries 448 x2 60 1 (-1) r r).toNat
def cosFrac (r : Nat) : Nat :=
  let x2 := r * r / 2 ^ 448
  (trigSeries 448 x2 60 0 (-1) (2 ^ 448) (2 ^ 448)).toNat

/-- 1/a. -/
def frcpOp (a : Nat) : Nat × W32 :=
  match ff32.value a with
  | .nan s => ff32.nanRes s
  | .inf n => (ff32.zero n, 0)
  | .fin n m e =>
    if m = 0 then (ff32.inf n, fDZ)
    else ff32.deliver .rne n (2 ^ 100 / m) (-e - 100) (decide (2 ^ 100 % m ≠ 0))

/-- √a in the lane's mode. -/
def fsqrtOp (mode : Rmode) (a : Nat) : Nat × W32 :=
  match ff32.value a with
  | .nan s => ff32.nanRes s
  | .inf n => if n then ff32.nanRes true else (ff32.inf false, 0)
  | .fin n m e =>
    if m = 0 then (ff32.zero n, 0)
    else if n then ff32.nanRes true
    else
      let odd := e % 2
      let x := m * 2 ^ (odd.toNat + 100)
      let r := isqrt x
      ff32.deliver mode false r ((e - odd) / 2 - 50) (decide (r * r ≠ x))

/-- 1/√a. -/
def frsqOp (a : Nat) : Nat × W32 :=
  match ff32.value a with
  | .nan s => ff32.nanRes s
  | .inf n => if n then ff32.nanRes true else (ff32.zero false, 0)
  | .fin n m e =>
    if m = 0 then (ff32.inf n, fDZ)
    else if n then ff32.nanRes true
    else
      let odd := e % 2
      let x := m * 2 ^ odd.toNat
      let q := 2 ^ 200 / x
      let r := isqrt q
      ff32.deliver .rne false r (-((e - odd) / 2) - 100) (decide (r * r * x ≠ 2 ^ 200))

/-- 2^a. -/
def fex2Op (a : Nat) : Nat × W32 :=
  match ff32.value a with
  | .nan s => ff32.nanRes s
  | .inf n => if n then (0, 0) else (ff32.inf false, 0)
  | .fin n m e =>
    if m = 0 then (0x3F80_0000, 0)
    else if 8 ≤ (Nat.log2 m : Int) + e then
      if n then (0, fUF ||| fNX) else (ff32.inf false, fOF ||| fNX)
    else
      let x : Int := signed n m * 2 ^ (e + 320).toNat
      let i := x / 2 ^ 320
      let f := (x % 2 ^ 320).toNat
      ff32.deliver .rne false (exp2Frac f) (i - 320) (decide (f ≠ 0))

/-- log2 a. -/
def flg2Op (a : Nat) : Nat × W32 :=
  match ff32.value a with
  | .nan s => ff32.nanRes s
  | .inf n => if n then ff32.nanRes true else (ff32.inf false, 0)
  | .fin n m e =>
    if m = 0 then (ff32.inf true, fDZ)
    else if n then ff32.nanRes true
    else
      let k := Nat.log2 m
      let y := m * 2 ^ (320 - k)
      let l : Nat := lnFrac y * 2 ^ 320 / ln2_320
      let v : Int := ((k : Int) + e) * 2 ^ 320 + l
      if v = 0 then (0, 0)
      else ff32.deliver .rne (decide (v < 0)) v.natAbs (-320) (decide (m ≠ 2 ^ k))

/-- The quadrant and the rest of |x| modulo π/2, with 448 fractional bits. -/
def trigReduce (m : Nat) (e : Int) : Nat × Nat :=
  let x := m * 2 ^ (e + 448).toNat
  (x / halfPi448, x % halfPi448)

/-- A non-zero trigonometric result. -/
def trigDeliver (neg : Bool) (v : Nat) : Nat × W32 :=
  if v = 0 then (ff32.zero neg, fNX) else ff32.deliver .rne neg v (-448) true

/-- sin a, radians. -/
def fsinOp (a : Nat) : Nat × W32 :=
  match ff32.value a with
  | .nan s => ff32.nanRes s
  | .inf _ => ff32.nanRes true
  | .fin n m e =>
    if m = 0 then (ff32.zero n, 0)
    else
      let q := trigReduce m e
      let v := if q.1 % 2 = 0 then sinFrac q.2 else cosFrac q.2
      trigDeliver (n != decide (2 ≤ q.1 % 4)) v

/-- cos a. -/
def fcosOp (a : Nat) : Nat × W32 :=
  match ff32.value a with
  | .nan s => ff32.nanRes s
  | .inf _ => ff32.nanRes true
  | .fin _ m e =>
    if m = 0 then (0x3F80_0000, 0)
    else
      let q := trigReduce m e
      let v := if q.1 % 2 = 0 then cosFrac q.2 else sinFrac q.2
      trigDeliver (q.1 % 4 == 1 || q.1 % 4 == 2) v

end Sys2Proof.Machine
end

