-- ==== Sys2Proof/Machine/Table.lean ====
section
/-!
DEFINITION. Finite maps from natural numbers as sorted association lists: the one shape in which the state holds sparse
data (memory bytes, registers, lanes, teams, partitions). A map with a default lists no entry equal to it, so equal
maps are equal lists.
-/
namespace Sys2Proof.Machine

/-- Keys rising, one entry a key. -/
abbrev Table (α : Type) := List (Nat × α)

/-- The entry of key `k`. -/
def Table.get? {α : Type} : Table α → Nat → Option α
  | [], _ => none
  | (a, x) :: r, k => if a = k then some x else Table.get? r k

/-- The entry of key `k`, or the default. -/
def Table.get {α : Type} (t : Table α) (d : α) (k : Nat) : α := (t.get? k).getD d

/-- `t` without key `k`. -/
def Table.del {α : Type} : Table α → Nat → Table α
  | [], _ => []
  | (a, x) :: r, k => if a = k then Table.del r k else (a, x) :: Table.del r k

/-- Put a new key in its place, before the first larger key. -/
def Table.ins {α : Type} : Table α → Nat → α → Table α
  | [], k, v => [(k, v)]
  | (a, x) :: r, k, v => if k < a then (k, v) :: (a, x) :: r else (a, x) :: Table.ins r k v

/-- `t` with `k` bound to `v`. -/
def Table.put {α : Type} (t : Table α) (k : Nat) (v : α) : Table α := (t.del k).ins k v

/-- `t` with `k` reading `v`, in canonical form for the default `d`. -/
def Table.set {α : Type} [DecidableEq α] (t : Table α) (d : α) (k : Nat) (v : α) : Table α :=
  if v = d then t.del k else t.put k v

/-- `t` with every entry of `u` set in turn. -/
def Table.setAll {α : Type} [DecidableEq α] (t : Table α) (d : α) : Table α → Table α
  | [] => t
  | (k, v) :: r => Table.setAll (t.set d k v) d r

/-- Keys strictly rising from `lo` and no entry equal to `d`. -/
def Table.wfFrom {α : Type} [DecidableEq α] (d : α) : Nat → Table α → Bool
  | _, [] => true
  | lo, (a, x) :: r => decide (lo ≤ a) && decide (x ≠ d) && Table.wfFrom d (a + 1) r

/-- The canonical form of a map with default `d`. -/
def Table.wf {α : Type} [DecidableEq α] (d : α) (t : Table α) : Bool := Table.wfFrom d 0 t

end Sys2Proof.Machine
end

