-- ==== Sys2Proof/Machine/State.lean ====
section
/-!
DEFINITION. The state of one XYR-M4 module as plain data: the module, its dies, cores, slices, partitions and teams,
memory, and the model's own schedule. Dies, cores, slices and partitions are held sparsely: an unlisted one is at its
reset value. System registers are held by number; an unlisted one reads its reset value (`sysReset`).
-/
namespace Sys2Proof.Machine

/-! ## Stops of the model -/

/-- Where the model stops with a fault of its own. The machine's faults (R228) are no stops: they are delivered. -/
inductive Fault where
  /-- A machine instruction is executed while no team is selected to issue. Raised by every machine instruction's
  meaning through `issue`. Safe: no hardware step corresponds to it. -/
  | noTeam
  deriving DecidableEq, Repr

/-- Where the model refuses to go on. -/
inductive Refusal where
  /-- An instruction without a meaning, by its mnemonic. Raised only by an arm of `exec`. Safe. -/
  | notModelled (mnemonic : String)
  /-- The schedule names a machine instruction as if it were a device event. Raised by `step`. Safe: no hardware step
  corresponds to it. -/
  | notAnEvent
  deriving DecidableEq, Repr

/-! ## Teams -/

/-- One register entry of a team for one mask word (R237): no value, a granule's 32 lanes, or the value stands in the
register save area. -/
inductive VEnt where
  | none
  | mapped (g : BitVec 1024)
  | absent
  deriving DecidableEq, Repr

/-- An entry of the reconvergence stack (R101). -/
structure REntry where
  rmask : LaneMask
  pmask : LaneMask
  ppc : W64
  rc : W64
  deriving DecidableEq, Repr

/-- The clause in issue: its header address and word, instruction words and literal words as validated (R38), and its
serial number in the team, which bounds lookahead windows (R32). -/
structure Clause where
  h : W64
  hdr : W64
  words : List W64
  lits : List W64
  serial : Nat
  deriving DecidableEq, Repr

/-- What a fault undoes (R34): the registers, the mask and stack, the place in the code. `s` holds s0-s63 under 0-63 and,
while the handler runs, the banked s60-s63 under 64-67 (R83). `stack` is what stands in the slot, newest first; `blocks`
blocks of eight older entries stand in the spill area (R104); `due` is the number of blocks at which a fill met poison,
while that fill is still to be repeated, else 0. -/
structure Regs where
  s : Table W64
  v : Table VEnt
  fflags : Table W32
  fctl : W64
  mask : LaneMask
  stack : List REntry
  blocks : Nat
  due : Nat
  pc : W64
  cl : Option Clause
  deriving DecidableEq, Repr

/-- A register name. -/
inductive RegRef where
  | v (i : Nat)
  | s (i : Nat)
  deriving DecidableEq, Repr

/-- One write of a pending result: a lane of a vector register, or a scalar register. -/
inductive RegWrite where
  | v (i lane : Nat) (x : W32)
  | s (i : Nat) (x : W64)
  deriving DecidableEq, Repr

/-- A delivered or pending fault (R218): code, s61, s62, the place of the faulting instruction; `fresh` when that is the
first instruction of a clause that the team has not begun, so that it stands at the header; `cmp` the comparator whose match it
is (R399). -/
structure FaultRec where
  code : Nat
  info : W64
  s62 : W64
  pc : W64
  cl : Option Clause
  fresh : Bool
  cmp : Option Nat
  deriving DecidableEq, Repr

/-- One lane's access: its virtual address, and the physical and guest-physical address of each byte, in order. -/
structure Acc where
  lane : Nat
  va : W64
  pas : List Nat
  gpas : List Nat
  deriving DecidableEq, Repr

/-- A version access: the region it names (R327) and the version. -/
structure VAcc where
  acc : Acc
  region : Nat
  version : W32
  deriving DecidableEq, Repr

/-- Where a result goes: first register, bytes, sign extension. -/
structure Dst where
  d : Dest
  bytes : Nat
  signed : Bool
  deriving DecidableEq, Repr

/-- What an issued and unperformed instruction still has to do. -/
inductive PKind where
  /-- `ld`, `ld.acq`: read memory; the bytes read so far, by physical address. -/
  | load (dst : Dst) (accs : List Acc) (acq : Option Scope) (got : Table Byte)
  /-- `lds`: read scratch. -/
  | lds (dst : Dst) (accs : List Acc)
  /-- `rrd`, `rlen`, `sqry` and the long vector operations: the result is known and lands after its window. -/
  | result
  /-- `st`, `st.rel`: bytes to perform at their homes; `inBuf` once they stand in the core's write buffer. -/
  | store (accs : List (Acc × List Byte)) (rel : Option Scope) (inBuf : Bool)
  /-- `sts`: the bytes not yet in scratch, the later of two to one place standing. -/
  | sts (left : List (Nat × Byte))
  /-- `atom`, `red`, `atom.cas`; `cas` holds when the expected value of each access is compared. -/
  | atomic (op : AT) (cas : Bool) (t : AtomTy) (sc : Scope) (o : Order) (dst : Option Dst)
      (accs : List (Acc × W64 × W64))
  /-- `atoms`, `atoms.cas`. -/
  | atoms (op : AT) (cas : Bool) (t : AtomTy) (dst : Dst) (accs : List (Acc × W64 × W64))
  /-- `rdo`: contributions (lane access, value, index) not yet accepted; `checked` once the home has checked them. -/
  | rdo (cs : List (Acc × W32 × W32)) (checked : Bool)
  /-- `ldv`: `waiting` once it holds wait-table places; parked when refused, with its number in the order of parking. -/
  | ldv (dst : Dst) (accs : List VAcc) (acq : Option Scope) (waiting : Bool) (parked : Option Nat)
  /-- `ldv.latest`. -/
  | latest (dst : Dst) (accs : List VAcc) (acq : Option Scope)
  /-- `vqry`. -/
  | vqry (dst : Dst) (accs : List VAcc)
  /-- `stv`, `stv.rel`. -/
  | stv (accs : List (VAcc × List Byte)) (rel : Option Scope)
  /-- `vflr`: the address it names, its region and floor. -/
  | vflr (acc : Acc) (region : Nat) (floor : W32)
  /-- `cctl`: its lines; whether it waits for the core's stores to them; whether it drops their copies. -/
  | cctl (lines : List Nat) (clean drop : Bool)
  /-- `acp`: its accesses; the scratch bytes not yet written, each with the memory byte it takes, or zero; the scratch
  granules that have taken poison so far (R164); the buffered stores that the team had observed at its issue (R301). -/
  | acp (tag : Nat) (accs : List Acc) (left : List (Nat × Option Nat)) (bad : List Nat) (waits : List (TeamId × Nat))
  /-- `emit` family: how many of its records do not yet stand in a queue or window. -/
  | emit (left : Nat)
  deriving DecidableEq, Repr

/-- An issued and unperformed instruction. `open_` while its fault checks are open (R34); `la` its lookahead;
`land` its result once performed; `dropped` the destinations that a later instruction wrote or released, with that
instruction's number (R32, R241); `banked` when s60-s63 among its destinations are those of the team, banked since its
issue (R83). -/
structure Pending where
  seq : Nat
  num : Nat
  serial : Nat
  ctr : Option Nat
  la : Nat
  kind : PKind
  open_ : Bool
  performed : Bool
  dsts : List RegRef
  dropped : List (RegRef × Nat)
  land : List RegWrite
  snap : Regs
  banked : Bool
  deriving DecidableEq, Repr

/-- Whether a team runs (R243, R242, R400, R220). -/
inductive TStat where
  | running
  | stopped (cause : Nat)
  | saved
  | retiring
  | killing (code : Nat)
  deriving DecidableEq, Repr

/-- What a team is held for at its instruction (R227, R290): the accesses, by team and number, that used what was
dropped. -/
inductive Hold where
  | pgret (waits : List (TeamId × Nat))
  | rootDrop (waits : List (TeamId × Nat))
  deriving DecidableEq, Repr

/-- A run of a layout record (R307, R309): the sixteen captured words with RLEN and RSTR resolved, the `sgo` offset, the
memory base, the next tile; the team's level at its `sgo` (R170), and the buffered stores that the team had observed then,
by team and number (R301). -/
structure Run where
  words : List W64
  base : W64
  off : W64
  next : Nat
  level : Nat
  waits : List (TeamId × Nat)
  deriving DecidableEq, Repr

/-- Engine states (R198 STATE). -/
inductive EState where
  | idle | running | stopping | faulted
  deriving DecidableEq, Repr

/-- One side of a transfer: scratch from an offset, or memory ranges translated when the transfer started. -/
inductive Side where
  | scr (off : Nat)
  | mem (accs : List Acc)
  deriving DecidableEq, Repr

/-- A row of a bulk copy or a tile of a stream run on its way (R169, R310): the bytes read so far, with their poison, and
those written; `stale` once a shoot-down waits for it (R294). -/
structure Flight where
  src : Side
  dst : Side
  len : Nat
  got : Table (Byte × Bool)
  put : List Nat
  stale : Bool
  deriving DecidableEq, Repr

/-- A stream engine held by a team (R194-R198). Runs beyond the first four wait for a place; `stops` counts `sstop`
instructions not yet performed; `fly` holds the tiles in flight, oldest first (R310). -/
structure Engine where
  phys : Nat
  st : EState
  runs : List Run
  fcode : Nat
  fva : W64
  fring : Option Nat
  tiles : Nat
  stops : Nat
  fly : List Flight
  deriving DecidableEq, Repr

/-- A scratch ring (R211). -/
structure Ring where
  n : Nat
  phys : Nat
  drain : Bool
  logn : Nat
  ssz : Nat
  base : Nat
  err : Bool
  head : BitVec 16
  tail : BitVec 16
  hold : BitVec 16
  deriving DecidableEq, Repr

/-- The collector latch and its tag (R188). -/
structure Latch where
  afield : Nat
  fa : Nat
  count : Nat
  rows : Table Byte
  deriving DecidableEq, Repr

/-- An entry of the array queue (R178). -/
inductive MOp where
  | fmt (words : List W64)
  | mul (set : Bool) (bank n boff : Nat) (rows : Table Byte) (fmt : List W64)
  | zero (bank : Nat)
  | ld (bank off rs : Nat)
  | st (f : MS) (bank off rs : Nat)
  deriving DecidableEq, Repr

/-- A queue entry with the instruction word for the replay log (R417), the K-steps that have started (R320), and the scratch
bytes with their poison that K-steps have read so far, keyed 2^32 x K-step + offset (R189, R301). -/
structure MEntry where
  op : MOp
  word : W64
  reuse : Bool
  started : Nat
  got : Table (Byte × Bool)
  deriving DecidableEq, Repr

/-- The array state a matrix team holds (R177, R193). `acc` is keyed 4096 x bank + 64 i + j. -/
structure Matrix where
  acc : Table W32
  flags : Table W32
  poison : BitVec 4
  latch : Option Latch
  fmt : List W64
  queue : List MEntry
  deriving DecidableEq, Repr

/-- A team (R3, R231, R369). -/
structure Team where
  id : TeamId
  part : Nat
  gslot : Nat
  node : Nat
  inst : W32
  core : Nat
  slot : Nat
  w : Nat
  present : LaneMask
  lane : Bool
  level : Nat
  slvl : Nat
  hnd : Bool
  fault : Option FaultRec
  trap : Option FaultRec
  r : Regs
  /-- The clause in issue holds its port (R14). -/
  port : Bool
  /-- The clause that ended last had YLD, and the slot has not switched since (R12). -/
  yld : Bool
  /-- The scalar undo buffer (R87): for each entry, the number of the instruction that wrote. -/
  sbuf : List Nat
  /-- Old granules held (R239): the number of the instruction that displaced each, and its entry's key. -/
  olds : List (Nat × Nat)
  wc : Table Nat
  tg : Table Nat
  pend : List Pending
  nseq : Nat
  icount : Nat
  nclause : Nat
  spills : W32
  fills : W32
  gfills : Nat
  scrS : Nat
  scr : Table Byte
  scrWritten : Table Bool
  scrPoison : Table W32
  rings : List Ring
  engines : List Engine
  mtx : Option Matrix
  recs : List (List W32)
  used : Table Nat
  credit : Nat
  wd : Nat
  stat : TStat
  stopReq : Option Nat
  /-- A remote read at issue of the instruction of this number got no answer (R386). -/
  lost : Option Nat
  /-- What the fault of a match or `bkpt` that stops the team would have said (R400). -/
  stopRec : Option FaultRec
  /-- The PC was written while the team was stopped (R401). -/
  pcSet : Bool
  holdOn : Option Hold
  cmpIgnore : List Nat
  /-- The fault whose handler has not yet begun its first clause: the code and place its TRAP packet names (R408). -/
  trapPkt : Option (Nat × W64)
  /-- A `fence.rel` at .die or wider stands before the team's later stores (R299). -/
  relFence : Bool
  /-- The widest scope of a release that the team has issued (R208). -/
  relAt : Option Scope
  step : Bool
  ctx : Nat
  /-- What the team was when it was saved, and whether a resize, a lend or a revocation moves it (R351). -/
  was : TStat
  migr : Bool
  /-- Scratch lines that the present epoch has written, and those of epochs before it not yet committed (R361). -/
  touched : Table Bool
  touched0 : List (Nat × Nat)
  deriving DecidableEq, Repr

/-! ## Graphs, records, the Mill -/

/-- Queue states (R263). -/
inductive QState where
  | empty | gather | ready | frozen
  deriving DecidableEq, Repr

/-- The widest release before a record's emission, and the core it was made on (R208). -/
structure Rel where
  scope : Scope
  core : Nat
  deriving DecidableEq, Repr

/-- A queued record: its sixteen words, entry time in ns, credit, its place among the partition's entries, for a spilled one
its segment and its line of the record pool (R229, R261), and the release before it. -/
structure QRec where
  w : List W32
  at_ : Nat
  credit : Nat
  ord : Nat
  spill : Option (Nat × Nat)
  rel : Option Rel
  deriving DecidableEq, Repr

/-- A node as the Mill keeps it (R247, R230, R263). -/
structure Node where
  desc : List W64
  rtab : List W64
  btab : List W64
  q : List QRec
  st : QState
  level : Nat
  full : Bool
  enq : Nat
  launch : Nat
  spillrec : Nat
  fillrec : Nat
  spillseg : Nat
  hbmseg : Nat
  peakres : Nat
  peakspill : Nat
  /-- Spill segments allocated so far, and the records appended to the newest. -/
  nseg : Nat
  segfill : Nat
  /-- Segments that have passed to HBM. -/
  hbm : List Nat
  /-- The die whose Mill holds the node's queue (R257). -/
  home : Nat
  deriving DecidableEq, Repr

/-- A code region of a graph (R249): base, length, map. -/
structure Region3 where
  base : W64
  len : W64
  map : W64
  deriving DecidableEq, Repr

/-- A loaded graph (R249, R252). -/
structure Graph where
  obj : List W64
  nodes : Table Node
  regions : List Region3
  inst : W32
  active : Bool
  watch : List W64
  deriving DecidableEq, Repr

/-- Where a record comes from that does not yet stand in a queue (R206, R257, R260). -/
inductive FlyKind where
  /-- An emission of team `t`, instruction `seq`. -/
  | emit (t : TeamId) (seq : Nat)
  /-- Already charged on entry. -/
  | charged
  deriving DecidableEq, Repr

/-- A record on its way to a queue of the partition. -/
structure Flying where
  gslot : Nat
  node : Nat
  w : List W32
  credit : Nat
  kind : FlyKind
  rel : Option Rel
  deriving DecidableEq, Repr

/-- An arrival held for credit or for a window place (R260, R272). -/
inductive ArrKind where
  | device
  | bcp (die eng dev : Nat)
  | emitx (t : TeamId) (seq : Nat) (node : Nat)
  | error
  | remoteOut (dev : Nat) (t : TeamId) (seq : Nat) (node : Nat)
  /-- A record for another device that a commit has released (R363), the die that sends it, and the team that emitted
  it. -/
  | released (dev die : Nat) (team : Option TeamId)
  deriving DecidableEq, Repr

/-- Who hears of a record that is refused for good: nobody but the count, the error edge of the sending node (R207), the
supervisor, for a copy's completion record: its block's address and RDEV (R171). -/
inductive Sender where
  | device
  | node (gslot node : Nat)
  | copy (block : W64) (dev : Nat)
  deriving DecidableEq, Repr

structure Arrival where
  kind : ArrKind
  gslot : Nat
  node : Nat
  w : List W32
  deadline : Nat
  sender : Sender
  rel : Option Rel
  deriving DecidableEq, Repr

/-- A control record waiting for the Mill (R381). -/
structure Ctrl where
  op : Nat
  gslot : Nat
  va : W64
  tag : W64
  deriving DecidableEq, Repr

/-- A report entry (R382), with LOSTREC when it was made. -/
structure Report where
  kind : Nat
  status : Nat
  gslot : Nat
  inst : W32
  tag : W64
  lost : W64
  deriving DecidableEq, Repr

/-- An ingress ring of a partition (R379, R380); `area` its block and slots: first lines and numbers of lines. -/
structure IRing where
  cb : W64
  sbase : W64
  word1 : W64
  rdidx : W32
  err : Bool
  area : List (Nat × Nat)
  deriving DecidableEq, Repr

/-- A lease (R172). -/
structure Lease where
  base : W64
  len : Nat
  until_ : Nat
  deriving DecidableEq, Repr

/-! ## Versions -/

/-- A directory record (R328): granule, version, which bytes exist, the bytes, and for each release lane that stored to it the
bytes of that release (R335). -/
structure VRec where
  g : Nat
  v : W32
  mask : BitVec 64
  data : BitVec 512
  rels : List (BitVec 64)
  deriving DecidableEq, Repr

/-- A live versioned region (R324): `id` counts the regions made; `base` maps a granule to its base version; `sfloor` a
slice to the floor it holds; `holders` are the slices and the devices that have filled a copy from them since their last
floor change, `told` a device and a floor for each message that a slice has sent and that is not yet confirmed (R331). -/
structure VRegion where
  id : Nat
  dbase : Nat
  dlen : Nat
  pbase : Nat
  plen : Nat
  floor : W32
  sfloor : Table W32
  base : Table W32
  recs : List VRec
  peak : Nat
  parks : Nat
  holders : List (Nat × Nat)
  told : List (Nat × W32)
  deriving DecidableEq, Repr

/-- A wait-table place (R332). `dev` names the device of a waiter elsewhere. -/
structure WaitPlace where
  dev : Option Nat
  team : TeamId
  seq : Nat
  p : Nat
  region : Nat
  granule : Nat
  version : W32
  lanes : LaneMask
  mask : BitVec 64
  deriving DecidableEq, Repr

/-- A held contribution (R156), and the die of this device that sent it. -/
structure Contrib where
  pa : Nat
  x : W32
  idx : W32
  die : Option Nat
  deriving DecidableEq, Repr

/-- A reduction line's state (R155-R157). -/
structure RLine where
  n : W32
  owner : TeamId
  p : Nat
  va : W64
  held : List Contrib
  gapPending : Bool
  /-- When the present gap began, in ns. -/
  since : Nat
  deriving DecidableEq, Repr

/-! ## Checkpoints -/

/-- What leaves a turned partition at a commit (R363). -/
inductive Egress where
  | store (pa : Nat) (b : Byte)
  /-- A version store to a region homed on another device: region, version, bytes. -/
  | version (region : Nat) (v : W32) (cells : List (Nat × Byte))
  /-- A record for another device: its device, the issuing die, destination, sender, words, the team that emitted it. -/
  | record (dev die gslot node : Nat) (sender : Sender) (w : List W32) (team : Option TeamId)
  | report (r : Report)
  deriving DecidableEq, Repr

/-- What the safe tier has taken of a partition's memory and poison for a checkpoint: that of the 256 KiB frames named (R389). -/
structure SafeCopy where
  mem : List Host.Cell
  poison : Table W32
  frames : List Nat
  deriving DecidableEq, Repr

/-- The state of a partition at a cut (R360, R361): the checkpoint's number, its time, whether it is a grid checkpoint, and, where
the safe tier takes it (R389), its copy of the memory. -/
structure Snap where
  num : Nat
  at_ : Nat
  grid : Bool
  teams : Table Team
  graphs : Table Graph
  flying : List Flying
  held : List Arrival
  ctrl : List Ctrl
  regions : Table VRegion
  lines : Table (Table RLine)
  disc : Table Nat
  leases : List Lease
  mem : Option SafeCopy
  deriving DecidableEq, Repr

/-- An input of a turned partition (R364, R342): a record accepted, an arrival addition (the team it names, the word's scratch
offset, the amount) or an ordered contribution from outside the device. -/
inductive Input where
  | record (w : List W32)
  | arrival (t : TeamId) (off n : Nat)
  | rdo (pa : Nat) (x idx : W32)
  deriving DecidableEq, Repr

/-- One undo entry: a memory byte's line before the epoch's first write to it (R361). -/
structure Undo where
  epoch : Nat
  line : Nat
  bytes : List Byte
  deriving DecidableEq, Repr

/-- A team that has ended in an epoch not yet committed (R360): the epoch, its context block, its number, the scratch lines
it had written, with their epochs. -/
structure Ended where
  epoch : Nat
  ctx : Nat
  team : TeamId
  lines : List (Nat × Nat)
  deriving DecidableEq, Repr

/-! ## Partitions -/

/-- A partition (R345-R372). -/
structure Partition where
  regs : Table W64
  gran : Nat
  link : Nat
  graphs : Table Graph
  claims : List (Nat × Nat × Nat)
  leases : List Lease
  regions : Table VRegion
  nregions : Nat
  /-- Records that have entered a queue. -/
  nrec : Nat
  rings : Table IRing
  held : List Arrival
  flying : List Flying
  ctrl : List Ctrl
  reports : List Report
  cqNext : Nat
  cqSet : Bool
  frozen : Bool
  freezing : Bool
  resetReq : Bool
  capdone : Bool
  trunc : Bool
  cleared : Bool
  onTurn : Bool
  turnStart : Nat
  turnEnd : Nat
  /-- The grid points passed in this turn; whether the last turn of the group was this member's; whether it has rolled
  back at its end. -/
  gridPos : Nat
  lastTurn : Bool
  rolled : Bool
  epoch : Nat
  committed : Option Snap
  /-- The checkpoints that have begun and not yet committed, oldest first (R360). -/
  cuts : List Snap
  undo : List Undo
  egress : List (Nat × Egress)
  /-- Inputs entered, with their epoch (R364). -/
  inputs : List (Nat × Input)
  /-- Teams that ended in an epoch not yet committed (R360). -/
  ended : List Ended
  ckReq : Bool
  redirect : List (TeamId × Nat × Nat)
  /-- The safe area: what each half holds, the half of the last checkpoint, the one on its way (R389). -/
  halves : Table Snap
  safeHalf : Bool
  safeRun : Option Snap
  restoring : Bool
  stagger : Option Nat
  grun : Nat
  /-- sr.gtime and LOSTREC at the freeze (R369). -/
  gtFrz : W64
  lostFrz : W64
  /-- The counters whose UNAVAIL the supervisor knows of (R413). -/
  known : Nat
  /-- The registers as the present clock found them, where a bin has changed in it (R410). -/
  bins : Option (Table W64)
  deriving DecidableEq, Repr

/-! ## Dies, cores, slices -/

/-- A translation (R291): the page it covers and the frame, with its rights. -/
structure Tlb where
  p : Nat
  vbase : Nat
  size : Nat
  pbase : Nat
  w : Bool
  x : Bool
  u : Bool
  nr : Bool
  ver : Bool
  /-- The guest-physical range this translation came through, for `pgret` at stage 1. -/
  gbase : Nat
  deriving DecidableEq, Repr

/-- A table entry in a die's walk cache (R292): its partition, its physical address, the entry. -/
structure WalkEnt where
  p : Nat
  pa : Nat
  e : W64
  deriving DecidableEq, Repr

/-- A cached copy of a 64-byte line with its fill time (R285, R286); `p` is the partition whose ways it fills. A copy of a
complete version names its region and version (R334). -/
structure LineCopy where
  p : Nat
  line : Nat
  ver : Option (Nat × W32)
  bytes : List Byte
  at_ : Nat
  deriving DecidableEq, Repr

/-- A bulk copy in an engine queue (R166-R169): rows copied, bytes copied, whether poison was carried, the row bytes read
(for the replay log), the status once it has ended; `told` once its completion record is on its way; the row on its way;
bytes that have landed and are not yet added to the arrival word; the team's level at issue (R170), and the buffered stores
that the team had observed then, by team and number (R301). -/
structure Copy where
  team : TeamId
  seq : Nat
  p : Nat
  core : Nat
  block : W64
  words : List W64
  row : Nat
  bytes : Nat
  poisoned : Bool
  word : W64
  read : List (List Byte)
  ended : Option Nat
  told : Bool
  fly : Option Flight
  owed : Nat
  level : Nat
  waits : List (TeamId × Nat)
  deriving DecidableEq, Repr

/-- A record in a replay window (R271). -/
structure WinRec where
  seq : W32
  domid : Nat
  p : Nat
  gslot : Nat
  node : Nat
  sender : Sender
  deadline : Nat
  w : List W32
  deriving DecidableEq, Repr

/-- The replay window toward one device (R271, R272): `backoff` in µs, begun at `since`, while `resend` names the refused
number. -/
structure Window where
  next : W32
  recs : List WinRec
  backoff : Nat
  resend : Option W32
  since : Nat
  deriving DecidableEq, Repr

/-- What this device expects of one pair (issuing die, this device): the next number, and later numbers that are dropped
(R271, R273). -/
structure Inbound where
  next : W32
  skip : List W32
  deriving DecidableEq, Repr

/-- What the trace unit has to write of one event of the present clock (R391, R392): the core and slot it is ordered by; the
team with its PC, summary word and mask words, or none for an EVT; the kind, SUB and fields; whether the mode writes it. -/
structure TEvent where
  core : Nat
  slot : Nat
  team : Option TeamId
  pc : W64
  mask : List Byte
  kind : Nat
  sub : Nat
  fields : List Byte
  writes : Bool
  deriving DecidableEq, Repr

/-- The trace unit of a die (R391-R393, R403-R405). `batch` holds the events of the present clock, which enter the FIFO in
the order of R392 when it ends; `owed` when the drain of the last clock's end is still to be made; `dead` once a failure of
the buffer has ended the drain (R404). -/
structure Trace where
  ctl : W64
  buf : W64
  len : W64
  wp : W64
  lost : Nat
  evt : Table W64
  capBuf : W64
  capLen : W64
  fifo : List Byte
  pendLoss : Nat
  tags : List (TeamId × Option Nat)
  marks : List TeamId
  lastTime : Nat
  since : Nat
  full : Bool
  batch : List TEvent
  owed : Bool
  dead : Bool
  deriving DecidableEq, Repr

/-- The replay unit of a die (R416-R418). The log itself stands in memory; `used` are its bytes, `entries` its entries.
`start` is what the target array held when logging began, with its team. `halted` while the die's cores are. -/
structure Replay where
  ctl : W64
  base : W64
  len : W64
  stat : W64
  used : Nat
  entries : Nat
  start : Option (TeamId × Matrix)
  halted : Bool
  deriving DecidableEq, Repr

structure Die where
  launchSeq : Nat
  copyQ : Table (List Copy)
  tlb : List Tlb
  walks : List WalkEnt
  far : List LineCopy
  win : Table Window
  /-- For each partition, the queue that last had a turn at level 7 (R268). -/
  last7 : Table (Nat × Nat)
  /-- For each partition, when its aging clock last ticked, in ns (R268). -/
  ticks : Table Nat
  roundPart : Nat
  roundLeft : Nat
  trace : Trace
  replay : Replay
  deriving DecidableEq, Repr

/-- A store in a core's write buffer (R285): its team and number; `counted` for a `st`, whose counter falls when the bytes
stand at their homes, and not for the update of an atomic that was performed at the core (R153); the checkpoint epoch in
which it entered; whether it is a release (R299): 0 none, 1 at .team or .core, 2 at .die or wider; the teams that have read
it (R148); the address of an atomic's update; the bytes. -/
structure WEntry where
  team : TeamId
  seq : Nat
  counted : Bool
  epoch : Nat
  rel : Nat
  seen : List TeamId
  va : W64
  bytes : List (Nat × Byte)
  deriving DecidableEq, Repr

/-- Array state of one slot (R318, R320): gated, waking, K-step clocks used in the governor window, the clock since which
a K-step waits for the next window, and the time in ns since which the array is idle. -/
structure Arr where
  gated : Bool
  waking : Bool
  used : Nat
  blocked : Option Nat
  idleSince : Nat
  deriving DecidableEq, Repr

/-- A pass of a slot's vector port, or a clock of it without one (R409): its partition and PC, the positions of class 0 to
3 in each of its clocks, and its clocks not yet counted. -/
structure Pass where
  p : Nat
  pc : W64
  counts : List Nat
  clk : Nat
  deriving DecidableEq, Repr

/-- `busy` holds each slot's passes that the clocks to come carry, oldest first. -/
structure Core where
  wbuf : List WEntry
  near : List LineCopy
  tlb : List Tlb
  arr : Table Arr
  busy : Table (List Pass)
  deriving DecidableEq, Repr

/-- `cached` are the lines that stand in the slice; their bytes are those of memory (R280). -/
structure Slice where
  cached : List Nat
  lines : Table RLine
  disc : Nat
  waits : List WaitPlace
  filter : BitVec 256
  deriving DecidableEq, Repr

/-! ## Module-wide operations -/

/-- The kinds of unit operation (R226), and the removal of a unit that has failed (R428). -/
inductive OpKind where
  | lend | revoke | resize | fail
  deriving DecidableEq, Repr

/-- A unit operation running (R348-R353): the captured words 0-6, the block's place, when it was issued, the group pairs
still to migrate. -/
structure UnitOp where
  kind : OpKind
  p : Nat
  src : Nat
  words : List W64
  /-- The partition and virtual address of the block, or none for the staged block (R425). -/
  at_ : Option (Nat × W64)
  start : Nat
  /-- Outgoing and incoming sets of a resize. -/
  outCores : Nat
  outSlices : Nat
  groups : List (Nat × Nat)
  deriving DecidableEq, Repr

/-- A dual-hash window (R354): the partition, the die, the hash set of before, and after it those that changed in turn while
the window was open (log 116); the set of now is `State.slicesOn`. `grans` are the granules whose directory records have not
moved yet, each with the slice that keeps them (R337). -/
structure DWin where
  p : Nat
  die : Nat
  olds : List (List Nat)
  grans : List (Nat × Nat)
  deriving DecidableEq, Repr

/-- The header of a vendor message (R387): source device and die, destination device, DOMID. -/
structure Hdr where
  src : Nat
  die : Nat
  dev : Nat
  domid : Nat
  deriving DecidableEq, Repr

/-- Messages to peers (R387), and the answers to their accesses (R386). -/
inductive Msg where
  | rec_ (h : Hdr) (seq : W32) (w : List W32)
  | ack (h : Hdr) (seq : W32)
  | nak (h : Hdr) (seq : W32) (permanent : Bool)
  | skip (h : Hdr) (seq : W32)
  | vflr (h : Hdr) (region : Nat) (floor : W32) (confirm : Bool)
  | vwake (h : Hdr) (granule : Nat) (version : W32)
  | answer (dev : Nat) (bytes : List Byte)
  /-- An access that fails, with its fault code; 0 where a version load finds no wait place. -/
  | denied (dev code : Nat)
  deriving DecidableEq, Repr

/-- An item of the schedule: what happens next where the manual leaves the order open, and what the world outside does.
Plain data: the model's own, not the spec's. -/
inductive Agenda where
  /-- Team `t` issues next. -/
  | issue (t : TeamId)
  /-- A device event, one row of the table, and what it concerns. -/
  | event (i : Instr) (e : Event)
  /-- Time passes: core clocks and nanoseconds. -/
  | elapse (clocks ns : Nat)
  /-- Host memory and the memory of other devices change: bytes that the host's processors or another device's agents store
  (R281). -/
  | outside (cells : List Host.Cell)
  deriving DecidableEq, Repr

/-- The registers of the management window that are no system registers (R420). -/
structure Mgmt where
  held : Bool
  holder : Nat
  ready : W64
  replReq : Bool
  failedCores : W64
  failedSlices : BitVec 96
  pwrctl : W64
  fwgov : Bool
  hold : Nat
  env : Nat
  pwr : Nat
  fillcnt : Nat
  /-- Filler runs, and when it last ran, in ns (R423). -/
  filler : Bool
  fillEnd : Nat
  /-- The µs for which A and PWR were computed (R421, R422). -/
  ticks : Nat
  govSaved : Option (List W64)
  syssel : W64
  sysdata : W64
  /-- What an access through SYSSEL still waits for, as a team would be held (R425). -/
  syswait : Option Hold
  stage : Table W64
  attnonce : List Byte
  attctl : W64
  attrep : List Byte
  signing : Option (List Byte)
  measure : List (BitVec 512)
  measCount : Nat
  degraded : BitVec 16
  msixPending : List (Nat × Nat)
  msixSent : List (Nat × Nat)
  hostReads : List (List Byte)
  deriving DecidableEq, Repr

/-- The machine. `mem` is keyed by 52-bit physical address; an unlisted byte reads 0 (log 4). -/
structure State where
  mem : List Host.Cell
  poison : Table W32
  /-- The frames that have been retired and not loaded since, and those that are being copied to a spare, each with the granules
  found in error there (R370). -/
  lostFirst : Table (List Nat)
  retiring : Table (List Nat)
  spares : Table Nat
  clock : Nat
  now : Nat
  mregs : Table W64
  mgmt : Mgmt
  coreOwner : Table Nat
  coreHolder : Table Nat
  sliceOwner : Table Nat
  sliceHolder : Table Nat
  groupOwner : Table Nat
  ops : Table UnitOp
  nops : Nat
  wins : Table DWin
  nwins : Nat
  teams : Table Team
  parts : Table Partition
  dies : Table Die
  cores : Table Core
  slices : Table Slice
  /-- What this device expects of each sender, keyed 4 × device + die. -/
  inbound : Table Inbound
  /-- What the UALink ports have sent, and what waits until one is ready (R426). -/
  outbox : List Msg
  unsent : List Msg
  free : Nat
  /-- How many version loads have parked. -/
  nparks : Nat
  /-- The bytes that each release at .die or wider wrote (R300). -/
  rels : List (List Nat)
  /-- The work being done lies before its team's save points at this many of the latest cuts (R360): the model's own. -/
  back : Nat
  focus : Option TeamId
  stalled : Bool
  ev : Event
  agenda : List Agenda
  deriving DecidableEq, Repr

/-! ## Reset -/

def Trace.reset : Trace where
  ctl := 0x0040_1040_0C00_0000#64
  buf := 0
  len := 0
  wp := 0
  lost := 0
  evt := []
  capBuf := 0
  capLen := 0
  fifo := []
  pendLoss := 0
  tags := []
  marks := []
  lastTime := 0
  since := 0
  full := false
  batch := []
  owed := false
  dead := false

def Replay.reset : Replay where
  ctl := 0
  base := 0
  len := 0
  stat := 0
  used := 0
  entries := 0
  start := none
  halted := false

def Die.reset : Die where
  launchSeq := 0
  copyQ := []
  tlb := []
  walks := []
  far := []
  win := []
  last7 := []
  ticks := []
  roundPart := 16
  roundLeft := 0
  trace := Trace.reset
  replay := Replay.reset

def Core.reset : Core where
  wbuf := []
  near := []
  tlb := []
  arr := []
  busy := []

def Slice.reset : Slice where
  cached := []
  lines := []
  disc := 0
  waits := []
  filter := 0

def Partition.reset : Partition where
  regs := []
  gran := 0
  link := 0
  graphs := []
  claims := []
  leases := []
  regions := []
  nregions := 0
  nrec := 0
  rings := []
  held := []
  flying := []
  ctrl := []
  reports := []
  cqNext := 0
  cqSet := false
  frozen := false
  freezing := false
  resetReq := false
  capdone := false
  trunc := false
  cleared := false
  onTurn := false
  turnStart := 0
  turnEnd := 0
  gridPos := 0
  lastTurn := false
  rolled := false
  epoch := 0
  committed := none
  cuts := []
  undo := []
  egress := []
  inputs := []
  ended := []
  ckReq := false
  redirect := []
  halves := []
  safeHalf := false
  safeRun := none
  restoring := false
  stagger := none
  grun := 0
  gtFrz := 0
  lostFrz := 0
  known := 0
  bins := none

def Mgmt.reset : Mgmt where
  held := false
  holder := 0
  ready := 0
  replReq := false
  failedCores := 0
  failedSlices := 0
  pwrctl := 0x0000_00C8_0000_0BB8#64
  fwgov := false
  hold := 0
  env := 0
  pwr := 0
  fillcnt := 0
  filler := false
  fillEnd := 0
  ticks := 0
  govSaved := none
  syssel := 0
  sysdata := 0
  syswait := none
  stage := []
  attnonce := List.replicate 32 0
  attctl := 0
  attrep := []
  signing := none
  measure := []
  measCount := 0
  degraded := 0
  msixPending := []
  msixSent := []
  hostReads := []

/-- The module right after reset (R426): every register at its reset value, every unit partition 0's, no graph, no
record, no team, bring-up beginning and no port holding the control plane. -/
def State.reset : State where
  mem := []
  poison := []
  lostFirst := []
  retiring := []
  spares := []
  clock := 0
  now := 0
  mregs := []
  mgmt := Mgmt.reset
  coreOwner := []
  coreHolder := []
  sliceOwner := []
  sliceHolder := []
  groupOwner := []
  ops := []
  nops := 0
  wins := []
  nwins := 0
  teams := []
  parts := []
  dies := []
  cores := []
  slices := []
  inbound := []
  outbox := []
  unsent := []
  free := 0
  nparks := 0
  rels := []
  back := 0
  focus := none
  stalled := false
  ev := {}
  agenda := []

end Sys2Proof.Machine
end

