-- ==== Sys2Proof/Machine/Ops.lean ====
section
/-!
DEFINITION. The named operations over the state: reaching its parts, system registers, memory at its homes, scratch,
vector and scalar registers, the mask. Instructions and events change the state only through these.
-/
namespace Sys2Proof.Machine

/-! ## Parts of the state -/

def State.team? (s : State) (t : TeamId) : Option Team := s.teams.get? t.toNat
def State.setTeam (s : State) (t : Team) : State := { s with teams := s.teams.put t.id.toNat t }
def State.dropTeam (s : State) (t : TeamId) : State := { s with teams := s.teams.del t.toNat }
def State.modTeam (s : State) (t : TeamId) (f : Team → Team) : State :=
  match s.team? t with
  | some x => s.setTeam (f x)
  | none => s

def State.part (s : State) (p : Nat) : Partition := s.parts.get Partition.reset p
def State.setPart (s : State) (p : Nat) (x : Partition) : State := { s with parts := s.parts.set Partition.reset p x }
def State.modPart (s : State) (p : Nat) (f : Partition → Partition) : State := s.setPart p (f (s.part p))

def State.core (s : State) (c : Nat) : Core := s.cores.get Core.reset c
def State.setCore (s : State) (c : Nat) (x : Core) : State := { s with cores := s.cores.set Core.reset c x }
def State.modCore (s : State) (c : Nat) (f : Core → Core) : State := s.setCore c (f (s.core c))

def State.slice (s : State) (l : Nat) : Slice := s.slices.get Slice.reset l
def State.setSlice (s : State) (l : Nat) (x : Slice) : State := { s with slices := s.slices.set Slice.reset l x }
def State.modSlice (s : State) (l : Nat) (f : Slice → Slice) : State := s.setSlice l (f (s.slice l))

def State.die (s : State) (d : Nat) : Die := s.dies.get Die.reset d
def State.setDie (s : State) (d : Nat) (x : Die) : State := { s with dies := s.dies.set Die.reset d x }
def State.modDie (s : State) (d : Nat) (f : Die → Die) : State := s.setDie d (f (s.die d))

/-- The latest `n` of the open cuts change. -/
def Partition.modCuts (x : Partition) (n : Nat) (f : Snap → Snap) : Partition :=
  { x with cuts := x.cuts.take (x.cuts.length - n) ++ (x.cuts.drop (x.cuts.length - n)).map f }
/-- How many of the open cuts `f` names: what lies before a save point lies before the later ones too. -/
def Partition.older (x : Partition) (f : Snap → Bool) : Nat := (x.cuts.filter f).length
/-- Of how many open cuts `f` names the snapshot of team `t`. -/
def State.olderTeam (s : State) (p : Nat) (t : TeamId) (f : Team → Bool) : Nat :=
  (s.part p).older fun c => (c.teams.get? t.toNat).any f
def State.modCutTeam (s : State) (n p : Nat) (t : TeamId) (f : Team → Team) : State :=
  s.modPart p fun x => x.modCuts n fun c => { c with
    teams := match c.teams.get? t.toNat with
      | some u => c.teams.put t.toNat (f u)
      | none => c.teams }

/-- A change of epoch `e`, before the present one, counts its scratch lines there. -/
def oldTouch (e : Nat) (f : Team → Team) (u : Team) : Team :=
  let v := f { u with touched := [] }
  { v with
    touched := u.touched
    touched0 := (u.touched0 ++ v.touched.map fun (x : Nat × Bool) => (e, x.1)).eraseDups }

/-- Work of a team's instruction is done: where it lies before the latest cuts, in their snapshots too (R360). -/
def State.modWork (s : State) (p : Nat) (t : TeamId) (f : Team → Team) : State :=
  if s.back = 0 then s.modTeam t f
  else (s.modTeam t (oldTouch ((s.part p).epoch - s.back) f)).modCutTeam s.back p t f

/-- `f` is the work of an instruction that lies before the latest `n` cuts. -/
def State.asOld (s : State) (n : Nat) (f : State → State) : State := { f { s with back := n } with back := 0 }

/-- How many of the latest cuts pending instruction `seq` of a team lies before. -/
def State.oldPend (s : State) (p : Nat) (t : TeamId) (seq : Nat) : Nat :=
  s.olderTeam p t fun u => u.pend.any fun q => q.seq == seq && !q.performed

/-- The team selected to issue. -/
def State.cur (s : State) : Option Team :=
  match s.focus with
  | some t => s.team? t
  | none => none

/-- The machine waits: nothing happens but that an event may come. -/
def State.wait (s : State) : State := { s with stalled := true }

/-! ## Units (R345) -/

/-- The die of a core. -/
def dieOfCore (c : Nat) : Nat := c / 12
/-- The die of a slice. -/
def dieOfSlice (l : Nat) : Nat := l / 24
/-- Who owns a unit, and who holds it (R346): partition 0 where nothing is listed. -/
def State.coreOwnerOf (s : State) (c : Nat) : Nat := s.coreOwner.get 0 c
def State.coreHolderOf (s : State) (c : Nat) : Nat := s.coreHolder.get 0 c
def State.sliceOwnerOf (s : State) (l : Nat) : Nat := s.sliceOwner.get 0 l
def State.sliceHolderOf (s : State) (l : Nat) : Nat := s.sliceHolder.get 0 l
def State.groupOwnerOf (s : State) (g : Nat) : Nat := s.groupOwner.get 0 g

/-- Slice `l` is in `p`'s hash set: held, not failed, and not on its way out (R353, R354, R428). -/
def State.hashes (s : State) (p l : Nat) : Bool :=
  s.sliceHolderOf l == p && !s.mgmt.failedSlices.getLsbD l && !s.ops.any fun (_, o) => o.outSlices.testBit l

/-- The slices of partition `p`'s hash set on die `d`, rising. -/
def State.slicesOn (s : State) (p d : Nat) : List Nat := (List.range 24).map (· + 24 * d) |>.filter (s.hashes p)

/-! ## Fields of words -/

def wd (l : List W64) (i : Nat) : W64 := l.getD i 0
/-- Bits hi:lo of a word. -/
def bitsOf (x : W64) (hi lo : Nat) : Nat := x.toNat / 2 ^ lo % 2 ^ (hi - lo + 1)
/-- Bits hi:lo of word i. -/
def fld (l : List W64) (i hi lo : Nat) : Nat := bitsOf (wd l i) hi lo

/-! ## System registers as stored -/

/-- Register `key` of partition `p`: the register number, or 0x2000 + r. -/
def State.pr (s : State) (p key : Nat) : W64 := (s.part p).regs.get (sysReset key) key
def State.setPr (s : State) (p key : Nat) (v : W64) : State :=
  s.modPart p fun x => { x with regs := x.regs.set (sysReset key) key v }
/-- Module register `n`. -/
def State.mr (s : State) (n : Nat) : W64 := s.mregs.get (sysReset n) n
def State.setMr (s : State) (n : Nat) (v : W64) : State := { s with mregs := s.mregs.set (sysReset n) n v }
/-- Register r of partition p as a number. -/
def State.preg (s : State) (p r : Nat) : Nat := (s.pr p (0x2000 + r)).toNat

/-- Counters of 48 bits wrap. -/
def wrap48 (n : Nat) : W64 := BitVec.ofNat 64 (n % 2 ^ 48)
def State.bump (s : State) (p key n : Nat) : State := s.setPr p key (wrap48 ((s.pr p key).toNat + n))

/-- The device's number and the size of its domain (R385). -/
def State.devn (s : State) : Nat := (s.mr 0x32).toNat % 1024
def State.dsize (s : State) : Nat := (s.mr 0x32).toNat / 0x1_0000

/-- R372. -/
def State.gtime (s : State) (p : Nat) : W64 := s.mr 0x33 + s.pr p 0x2015
/-- A partition is turned (R347). -/
def State.turned (s : State) (p : Nat) : Bool := s.preg p 6 % 4 == 1
/-- Two partitions are members of one turn group (R359). -/
def State.sameGroup (s : State) (p q : Nat) : Bool :=
  s.turned p && s.turned q && bitsOf (s.pr p 0x2006) 7 4 == bitsOf (s.pr q 0x2006) 7 4
/-- Partition `p` holds core `c`; the members of a turn group hold one set. -/
def State.holdsCore (s : State) (p c : Nat) : Bool := s.coreHolderOf c == p || s.sameGroup p (s.coreHolderOf c)
/-- Core `c` is in `p`'s guaranteed set. -/
def State.ownsCore (s : State) (p c : Nat) : Bool := s.coreOwnerOf c == p || s.sameGroup p (s.coreOwnerOf c)
/-- The partition that runs on core `c`: of a turn group, the member on its turn. -/
def State.coreUser (s : State) (c : Nat) : Option Nat :=
  let h := s.coreHolderOf c
  if s.turned h then (List.range 17).find? fun q => s.sameGroup h q && (s.part q).onTurn else some h

/-! ## Physical memory (R281, R282) -/

def localTop : Nat := 0xC0_0000_0000
def groupBytes : Nat := 6 * 2 ^ 30

inductive Space where
  | here | peer (dev : Nat) | host | regs | nowhere
  deriving DecidableEq, Repr

def State.space (s : State) (pa : Nat) : Space :=
  let low := pa % 2 ^ 40
  let dev := pa / 2 ^ 40 % 1024
  match pa / 2 ^ 50 with
  | 0 => if dev = 0 ∧ low < localTop then .here else .nowhere
  | 1 =>
    if s.dsize ≤ dev ∨ localTop ≤ low then .nowhere
    else if dev = s.devn then .here
    else .peer dev
  | 2 => .host
  | 3 => .regs
  | _ => .nowhere

/-- A window address that names this device is a local address. -/
def State.norm (s : State) (pa : Nat) : Nat :=
  if pa / 2 ^ 50 = 1 ∧ pa / 2 ^ 40 % 1024 = s.devn then pa % 2 ^ 40 else pa

def groupOf (pa : Nat) : Nat := pa % 2 ^ 40 / groupBytes
/-- The home die of a local address. -/
def dieOfPa (pa : Nat) : Nat := groupOf pa / 32
def lineOf (pa : Nat) : Nat := pa / 64
/-- A page, and a frame, of 256 KiB. -/
def pageBytes : Nat := 0x4_0000
def frameOf (pa : Nat) : Nat := pa / pageBytes
def granuleOf (pa : Nat) : Nat := pa / 32

/-- R283: the hash of a line. -/
def homeHash (pa : Nat) : Nat :=
  let x := pa / 2 ^ 6 % 2 ^ 16
  let y := pa / 2 ^ 22 % 2 ^ 16
  let z := pa / 2 ^ 38 % 2 ^ 14
  x ^^^ y ^^^ z

/-- R283 over a set of slices; `none` where the home is the memory controller. -/
def homeIn (slices : List Nat) (pa : Nat) : Option Nat :=
  if slices.length = 0 then none else slices[homeHash pa % slices.length]?

/-- The partition of a local line: it owns the line's channel group (R282, R283). -/
def State.lineOwner (s : State) (pa : Nat) : Nat := s.groupOwnerOf (groupOf (s.norm pa))

/-- The home slice of a local address, over the slices of the line's partition. -/
def State.homeSlice (s : State) (pa : Nat) : Option Nat :=
  let a := s.norm pa
  homeIn (s.slicesOn (s.lineOwner pa) (dieOfPa a)) a

/-- A byte at its home (log 4). -/
def State.memByte (s : State) (pa : Nat) : Byte := Table.get s.mem Config.unlisted (s.norm pa)

def State.putByte (s : State) (pa : Nat) (b : Byte) : State :=
  { s with mem := Table.set s.mem Config.unlisted (s.norm pa) b }

/-- The canonical form of memory. -/
abbrev Memory.wf (m : List Host.Cell) : Bool := Table.wf Config.unlisted m

/-- Bytes of the granule of `pa` that make it poisoned: those not stored since (R145). -/
def State.poisonAt (s : State) (pa : Nat) : W32 := s.poison.get 0 (granuleOf (s.norm pa))
def State.poisoned (s : State) (pa : Nat) : Bool := s.poisonAt pa != 0
def State.setPoison (s : State) (pa : Nat) (m : W32) : State :=
  { s with poison := s.poison.set 0 (granuleOf (s.norm pa)) m }
/-- A store of one byte takes its bit out of the granule's mask. -/
def State.unpoison (s : State) (pa : Nat) : State :=
  s.setPoison pa (s.poisonAt pa &&& ~~~(1#32 <<< (s.norm pa % 32)))

/-- The bytes of a line. -/
def State.lineBytes (s : State) (line : Nat) : List Byte := (List.range 64).map fun i => s.memByte (64 * line + i)

/-- The undo entry of an epoch for a line. -/
def undoOf (l : List Undo) (ep line : Nat) : Option Undo := l.find? fun u => u.epoch == ep && u.line == line

/-- The undo log of a turned partition takes a line at its first write in the epoch. A write of the epoch `back` cuts ago
takes the line as the entries of later epochs have it, the earliest first, and updates those entries (R361). -/
def noteLine (x : Partition) (back line k : Nat) (b : Byte) (now : List Byte) : List Undo :=
  let e := x.epoch - back
  let l := x.undo.map fun u => if decide (e < u.epoch) && u.line == line then { u with bytes := u.bytes.set k b } else u
  if (undoOf x.undo e line).isSome then l
  else l ++ [⟨e, line, ((List.range back).findSome? fun i => (undoOf x.undo (e + 1 + i) line).map (·.bytes)).getD now⟩]

/-- A line of an enabled ring takes no entry: rings are not rolled back (R380). -/
def Partition.ringLine (x : Partition) (line : Nat) : Bool :=
  x.rings.any fun (_, g) => g.area.any fun (l, n) => decide (l ≤ line) && decide (line < l + n)

def State.noteUndo (s : State) (p pa : Nat) (b : Byte) : State :=
  let x := s.part p
  let line := lineOf (s.norm pa)
  if s.turned p && x.committed.isSome && !x.ringLine line then
    s.setPart p { x with undo := noteLine x s.back line (s.norm pa % 64) b (s.lineBytes line) }
  else s

/-- The safe tier takes frame `f` as it stands in `mem` and `poison`, unless it has taken it (R389). -/
def SafeCopy.take (mem : List Host.Cell) (poison : Table W32) (f : Nat) (c : SafeCopy) : SafeCopy :=
  if c.frames.contains f then c
  else {
    mem := Table.setAll c.mem Config.unlisted (mem.filter fun (x : Host.Cell) => frameOf x.1 == f)
    poison := Table.setAll c.poison 0 (poison.filter fun (x : Nat × W32) => frameOf (32 * x.1) == f)
    frames := f :: c.frames }
/-- A byte of a frame that is already taken. -/
def SafeCopy.put (pa : Nat) (b : Byte) (c : SafeCopy) : SafeCopy :=
  if c.frames.contains (frameOf pa) then { c with mem := Table.set c.mem Config.unlisted pa b } else c
def Snap.onCopy (f : SafeCopy → SafeCopy) (c : Snap) : Snap := { c with mem := c.mem.map f }

/-- The checkpoints of a partition whose memory the safe tier is taking (R389). -/
def Partition.safeCopies (x : Partition) : List SafeCopy := (x.cuts ++ x.safeRun.toList).filterMap (·.mem)
/-- The safe tier takes a frame of the partition for each checkpoint but the latest `n` cuts. -/
def Partition.takeFrame (x : Partition) (n : Nat) (f : SafeCopy → SafeCopy) : Partition :=
  { x with
    cuts := (x.cuts.take (x.cuts.length - n)).map (Snap.onCopy f) ++ x.cuts.drop (x.cuts.length - n)
    safeRun := x.safeRun.map (Snap.onCopy f) }

/-- Before a byte is written, the safe tier has its frame as of each earlier cut; work of before the latest cuts goes into what it
has taken for those (R389). -/
def State.noteSafe (s : State) (p pa : Nat) (b : Byte) : State :=
  let x := s.part p
  if x.safeCopies.isEmpty then s
  else s.setPart p ((x.takeFrame s.back (SafeCopy.take s.mem s.poison (frameOf (s.norm pa)))).modCuts s.back
    (Snap.onCopy (SafeCopy.put (s.norm pa) b)))

/-- A write of partition `p` waits: its undo log is full (R361), or the safe tier has yet to take the frame (R389). Work of before
an open cut does not. -/
def State.writeHeld (s : State) (p : Nat) (pas : List Nat) : Bool :=
  let x := s.part p
  s.back == 0 &&
    ((s.turned p && !x.undo.isEmpty && Config.undoFull x.undo.length (s.preg p 17)) ||
      x.safeCopies.any fun c => pas.any fun a => s.space a == .here && !c.frames.contains (frameOf (s.norm a)))

/-- A line written at its home loses its far-cache copies (R286); copies of versions stay (R334). -/
def State.dropFar (s : State) (line : Nat) : State :=
  { s with dies := s.dies.map fun (d, x) => (d, { x with far := x.far.filter fun c => c.ver.isSome || c.line != line }) }

/-- A home of this device drops every far copy of the line; a home on another device sends no word (R286). -/
def State.dropHere (s : State) (pa : Nat) : State :=
  match s.space pa with
  | .peer _ => s
  | _ => s.dropFar (lineOf (s.norm pa))

/-- One byte performed at its home on behalf of partition `p`. -/
def State.storeByte (s : State) (p pa : Nat) (b : Byte) : State :=
  ((((s.noteUndo p pa b).noteSafe p pa b).putByte pa b).unpoison pa).dropHere pa

def State.storeBytes (s : State) (p : Nat) : List (Nat × Byte) → State
  | [] => s
  | (pa, b) :: r => (s.storeByte p pa b).storeBytes p r

/-- A copy or engine write: the destination granules named in `bad` become poisoned (R145, R170). -/
def State.poisonGranules (s : State) : List Nat → State
  | [] => s
  | g :: r => State.poisonGranules { s with poison := s.poison.set 0 g 0xFFFF_FFFF#32 } r

/-- What a partition's own agents read at a home: egress it holds stands over memory (R363). -/
def heldByte (pa : Nat) : List (Nat × Egress) → Option Byte
  | [] => none
  | (_, .store a b) :: r => match heldByte pa r with
    | some x => some x
    | none => if a = pa then some b else none
  | _ :: r => heldByte pa r

def State.homeByte (s : State) (p pa : Nat) : Byte :=
  match heldByte (s.norm pa) (s.part p).egress with
  | some b => b
  | none => s.memByte pa

/-- `n` bytes at consecutive physical addresses, as a number. -/
def State.readPhys (s : State) (pa n : Nat) : Nat := leNat ((List.range n).map fun i => s.memByte (pa + i))

/-- Writes by the device into its own areas of memory: no undo entry (R361). -/
def State.writePhys (s : State) (pa : Nat) : List Byte → State
  | [] => s
  | b :: r => ((((s.noteSafe (s.lineOwner pa) pa b).putByte pa b).unpoison pa).dropHere pa).writePhys (pa + 1) r

def cells (pa : Nat) (bs : List Byte) : List (Nat × Byte) := (List.range bs.length).zip bs |>.map fun (i, b) => (pa + i, b)

/-! ## Registers and mask of a team (R83, R237) -/

def Regs.sget (r : Regs) (i : Nat) : W64 := r.s.get 0 i
def Regs.sset (r : Regs) (i : Nat) (x : W64) : Regs := { r with s := r.s.set 0 i x }

/-- The key of register N in mask word w: its place in the register save area (R235). -/
def vkey (n w : Nat) : Nat := 32 * n + w

def Regs.entry (r : Regs) (n w : Nat) : VEnt := r.v.get .none (vkey n w)

/-- A granule of a register: what reads of it give, zero without a value (R36). -/
def Regs.granule (r : Regs) (n w : Nat) : BitVec 1024 :=
  match r.entry n w with
  | .mapped g => g
  | _ => 0

def Regs.lane (r : Regs) (n l : Nat) : W32 := (r.granule n (l / 32)).extractLsb' (32 * (l % 32)) 32

/-- Replace 32-bit lane `k` of a granule. -/
def setLane (g : BitVec 1024) (k : Nat) (x : W32) : BitVec 1024 :=
  (g &&& ~~~((0xFFFF_FFFF#1024) <<< (32 * k))) ||| (x.zeroExtend 1024 <<< (32 * k))

/-- A write of one lane: the other lanes of a word without a granule take zero (R112). -/
def Regs.setLane (r : Regs) (n l : Nat) (x : W32) : Regs :=
  { r with v := r.v.set .none (vkey n (l / 32)) (.mapped (Machine.setLane (r.granule n (l / 32)) (l % 32) x)) }

/-- The entries of vector register `n` in every mask word become none (R35, R241). -/
def Regs.release (r : Regs) (n : Nat) : Regs :=
  { r with v := r.v.filter fun (k, _) => k / 32 != n }

def Regs.releaseAll (r : Regs) : List Nat → Regs
  | [] => r
  | n :: ns => (r.release n).releaseAll ns

def Regs.write (r : Regs) : RegWrite → Regs
  | .v i l x => r.setLane i l x
  | .s i x => r.sset i x

def Regs.writes (r : Regs) : List RegWrite → Regs
  | [] => r
  | w :: ws => (r.write w).writes ws

def RegWrite.ref : RegWrite → RegRef
  | .v i _ _ => .v i
  | .s i _ => .s i

def Regs.live (r : Regs) (l : Nat) : Bool := r.mask.getLsbD l
/-- Mask word w (R3). -/
def maskWord (m : LaneMask) (w : Nat) : W32 := m.extractLsb' (32 * w) 32
/-- The summary word (R3, R236). -/
def summary (m : LaneMask) : W32 :=
  (List.range 32).foldl (fun acc w => if maskWord m w = 0 then acc else acc ||| (1#32 <<< w)) 0#32

def Team.lanes (t : Team) : List Nat := List.range t.w
def Team.liveLanes (t : Team) : List Nat := t.lanes.filter t.r.live
/-- The mask words a pass sweeps (R109). -/
def Team.passWords (t : Team) : List Nat := (List.range (t.w / 32)).filter fun w => maskWord t.r.mask w != 0
def Team.words (t : Team) : List Nat := List.range (t.w / 32)

def Regs.fflag (r : Regs) (l : Nat) : W32 := r.fflags.get 0 l
def Regs.setFflag (r : Regs) (l : Nat) (x : W32) : Regs := { r with fflags := r.fflags.set 0 l x }
/-- OR flags into a lane's sr.fflags (R66). -/
def Regs.raise (r : Regs) (l : Nat) (x : W32) : Regs := if x = 0 then r else r.setFflag l (r.fflag l ||| x)

/-- The mask as a set of lanes. -/
def maskOf (ls : List Nat) : LaneMask := ls.foldl (fun m l => m ||| (1#1024 <<< l)) 0#1024

/-! ## Counters (R13, R165) -/

def Team.cnt (t : Team) (n : Nat) : Nat := t.wc.get 0 n
def Team.addCnt (t : Team) (n : Nat) : Team := { t with wc := t.wc.set 0 n (t.cnt n + 1) }
def Team.subCnt (t : Team) (n : Nat) : Team := { t with wc := t.wc.set 0 n (t.cnt n - 1) }
def Team.tag (t : Team) (n : Nat) : Nat := t.tg.get 0 n
def Team.addTag (t : Team) (n : Nat) : Team := { t with tg := t.tg.set 0 n (t.tag n + 1) }
def Team.subTag (t : Team) (n : Nat) : Team := { t with tg := t.tg.set 0 n (t.tag n - 1) }
def Team.counters (t : Team) : List Nat := (List.range 6).map t.cnt
def Team.quiet (t : Team) : Bool := t.wc.isEmpty

/-! ## Scratch (R146, R234, R145) -/

def Team.scrByte (t : Team) (off : Nat) : Byte := t.scr.get 0 off
def Team.scrBad (t : Team) (off : Nat) : Bool := t.scrPoison.get 0 (off / 32) != 0
def Team.scrPut (t : Team) (off : Nat) (b : Byte) : Team :=
  { t with
    scr := t.scr.set 0 off b
    scrWritten := t.scrWritten.set false (off / 128) true
    touched := t.touched.set false (off / 128) true
    scrPoison := t.scrPoison.set 0 (off / 32) (t.scrPoison.get 0 (off / 32) &&& ~~~(1#32 <<< (off % 32))) }
def Team.scrPuts (t : Team) (off : Nat) : List Byte → Team
  | [] => t
  | b :: r => (t.scrPut off b).scrPuts (off + 1) r
def Team.scrRead (t : Team) (off n : Nat) : List Byte := (List.range n).map fun i => t.scrByte (off + i)
def Team.scrNat (t : Team) (off n : Nat) : Nat := leNat (t.scrRead off n)
/-- The byte's bit of its granule's poison stands. -/
def Team.scrPoisonBit (t : Team) (off : Nat) : Team :=
  { t with scrPoison := t.scrPoison.set 0 (off / 32) (t.scrPoison.get 0 (off / 32) ||| (1#32 <<< (off % 32))) }
def Team.scrPoisonGr (t : Team) (g : Nat) : Team := { t with scrPoison := t.scrPoison.set 0 g 0xFFFF_FFFF#32 }

/-! ## The node and graph of a team -/

def State.graph? (s : State) (p g : Nat) : Option Graph := (s.part p).graphs.get? g
def State.node? (s : State) (p g n : Nat) : Option Node :=
  match s.graph? p g with
  | some x => x.nodes.get? n
  | none => none
def Team.node? (t : Team) (s : State) : Option Node := s.node? t.part t.gslot t.node


/-- A matrix node (R177). -/
def Node.mtx (n : Node) : Bool := fld n.desc 1 28 28 == 1
def Node.perTeam (n : Node) : Bool := fld n.desc 1 11 11 == 1
def Node.depthLimit (n : Node) : Nat := fld n.desc 1 22 19
def Node.edge (n : Node) (e : Nat) : W64 := wd n.desc (6 + e)

/-- The context block of a team (R235, R347). -/
def State.ctxBase (s : State) (t : Team) : Nat := s.preg t.part 13 + t.ctx * 0x5_0000

/-! ## Records (R203, R244) -/

/-- A record of type 0 from the device itself (R260): header, then the payload padded with zeros. -/
def State.devRecord (s : State) (gslot node : Nat) (flags : Nat) (payload : List W32) : List W32 :=
  [BitVec.ofNat 32 (node + 0x1_0000 * gslot), BitVec.ofNat 32 (s.devn + flags), 0#32,
    BitVec.ofNat 32 (256 * payload.length)] ++ payload ++ List.replicate (12 - payload.length) 0#32

/-- What the device did before it makes a record is seen by whom the record starts (log 132). -/
def Rel.device : Rel := ⟨.sys, 0⟩

/-- A device record to a node of partition `p`: it enters as an arrival (R260). -/
def State.sendDev (s : State) (p gslot node : Nat) (payload : List W32) : State :=
  s.modPart p fun x => { x with
    held := x.held ++ [⟨.device, gslot, node, s.devRecord gslot node 0 payload, 0, .device, some Rel.device⟩] }

/-- The same to SUPNODE, when it is enabled (R347). -/
def State.sendSup (s : State) (p : Nat) (payload : List W32) : State :=
  let v := s.pr p 0x171
  if v.getLsbD 63 then s.sendDev p (bitsOf v 23 16) (bitsOf v 15 0) payload else s

/-! ## Reduction lines (R157) -/

/-- The lowest held index. -/
def lowestHeld (x : RLine) : W32 := x.held.foldl (fun m c => if c.idx < m then c.idx else m) 0xFFFF_FFFF#32

/-- The line holds contributions and none has index N. -/
def RLine.gap (x : RLine) : Bool := !x.held.isEmpty && !x.held.any (·.idx == x.n)

def lo32 (x : W64) : W32 := x.extractLsb' 0 32
def hi32 (x : W64) : W32 := x.extractLsb' 32 32
def join64 (lo hi : W32) : W64 := hi ++ lo

end Sys2Proof.Machine
end

