-- ==== Sys2Proof/Machine/Trace.lean ====
section
/-!
DEFINITION. Speedwell's packets (R391-R393, R403-R408), the event counters (R412) and the lane-cycle record (R409, R410).
-/
namespace Sys2Proof.Machine

/-! ## Trace control (R403) -/

def Trace.en (x : Trace) : Bool := x.ctl.getLsbD 63
def Trace.wrap (x : Trace) : Bool := x.ctl.getLsbD 62
def Trace.syncp (x : Trace) : Nat := bitsOf x.ctl 55 48
def Trace.drain (x : Trace) : Nat := bitsOf x.ctl 47 40
def Trace.cap (x : Trace) : Nat := 16 * bitsOf x.ctl 39 32
def Trace.part (x : Trace) : Nat := bitsOf x.ctl 20 16
def Trace.mode (x : Trace) : Nat := bitsOf x.ctl 1 0
def Trace.bytesWritten (x : Trace) : Nat := bitsOf x.wp 47 0

/-- R407. -/
def modeWrites (mode kind sub : Nat) : Bool :=
  match mode with
  | 0 => kind != 0x7 && kind != 0x8
  | 1 => kind == 0x1 || (kind == 0x3 && (sub == 2 || sub == 3)) || kind == 0x5 || kind == 0x6 || kind == 0x7
  | _ => kind == 0x8

/-- DSZ and the bytes of a delta (R391). -/
def deltaField (d : Nat) : Nat × List Byte :=
  if d = 0 then (0, [])
  else if d < 2 ^ 8 then (1, leBytes 1 d)
  else if d < 2 ^ 16 then (2, leBytes 2 d)
  else (3, leBytes 4 d)

/-- What a SYNC tells of a team's mask (R391): the summary word, then the mask words it names. -/
def maskFields (t : Team) : List Byte :=
  leBytes 4 (summary t.r.mask).toNat ++ t.passWords.flatMap fun w => leBytes 4 (maskWord t.r.mask w).toNat

/-- A SYNC packet of a team (R391). -/
def syncPacket (sub tag : Nat) (id : TeamId) (e : TEvent) (time : Nat) : List Byte :=
  leBytes 1 (0x10 + sub) ++ leBytes 1 tag ++ leBytes 4 id.toNat ++ leBytes 7 e.pc.toNat ++ leBytes 8 time ++ e.mask

/-- The SYNC of event mode (R405). -/
def eventSync (time : Nat) : List Byte :=
  [0x10#8, 0xFF#8] ++ List.replicate 11 0#8 ++ leBytes 8 time ++ List.replicate 4 0#8

/-- A packet as its event gives it: the fields after the delta. -/
structure Pkt where
  kind : Nat
  sub : Nat
  fields : List Byte
  deriving DecidableEq, Repr

/-- The lowest value 0-254 no team of the die holds (R392). -/
def Trace.freeTag (x : Trace) : Option Nat :=
  (List.range 255).find? fun n => !x.tags.any fun (_, o) => o == some n

def Trace.tagOf (x : Trace) (t : TeamId) : Option Nat := (x.tags.lookup t).join

/-- Packets appended in order while they fit below TRCLEN; with WRAP = 0 the first that does not, and every later one,
are counted as lost (R404). -/
def Trace.append (x : Trace) : List (List Byte) → Trace
  | [] => x
  | p :: r =>
    if x.full || (!x.wrap && decide (x.capLen.toNat < x.bytesWritten + x.fifo.length + p.length)) then
      Trace.append { x with
        full := true
        lost := (x.lost + 1) % 2 ^ 48 } r
    else Trace.append { x with fifo := x.fifo ++ p } r

/-- A group enters the FIFO whole or not at all (R393). -/
def Trace.group (x : Trace) (now : Nat) (team : Option TeamId) (resync sync : Bool) (ps : List (List Byte)) : Trace :=
  if x.cap < x.fifo.length + ps.flatten.length then
    { x with
      pendLoss := x.pendLoss + 1
      lost := (x.lost + 1) % 2 ^ 48
      marks := match team with
        | some t => if x.marks.contains t then x.marks else t :: x.marks
        | none => x.marks }
  else
    { x.append ps with
      pendLoss := 0
      lastTime := now
      since := if sync then 1 else x.since + 1
      marks := match team with
        | some t => if resync then x.marks.filter (· != t) else x.marks
        | none => x.marks }

def Trace.lossPacket (x : Trace) : List (List Byte) :=
  if x.pendLoss = 0 then [] else [0xF0#8 :: leBytes 2 (min x.pendLoss 0xFFFF)]

/-- A team without a TTAG takes the lowest free one (R392); a team that is not launching or being restored is then
resynchronised (R405). -/
def Trace.giveTag (x : Trace) (t : TeamId) (fresh : Bool) : Trace :=
  match x.tagOf t with
  | some _ => x
  | none =>
    match x.freeTag with
    | none => x
    | some n => { x with
      tags := (t, some n) :: x.tags.filter (·.1 != t)
      marks := if fresh || x.marks.contains t then x.marks else t :: x.marks }

/-- The sync period is over, or a delta to `now` would be 2^32 or more (R392, R405). -/
def Trace.syncDue (x : Trace) (now : Nat) : Bool := decide (x.syncp ≤ x.since) || decide (x.lastTime + 2 ^ 32 ≤ now)

/-- One packet of team `t` at clock `now` (R391-R393, R405). -/
def Trace.packet (x : Trace) (now : Nat) (t : TeamId) (e : TEvent) : Trace :=
  let isSync := e.kind == 1
  let x := x.giveTag t isSync
  match x.tagOf t with
  | none => { x with
    pendLoss := x.pendLoss + 1
    lost := (x.lost + 1) % 2 ^ 48
    marks := if x.marks.contains t then x.marks else t :: x.marks }
  | some tag =>
    let resync := x.marks.contains t
    let periodic := !isSync && !resync && x.syncDue now
    let pre := if resync then [syncPacket 2 tag t e now] else if periodic then [syncPacket 0 tag t e now] else []
    let d := deltaField (if resync || periodic then 0 else now - x.lastTime)
    let body := if isSync then syncPacket e.sub tag t e now
      else leBytes 1 (16 * e.kind + 4 * d.1 + e.sub) ++ leBytes 1 tag ++ d.2 ++ e.fields
    x.group now (some t) (resync || isSync) (resync || periodic || isSync) (x.lossPacket ++ pre ++ [body])

/-- An EVT packet (R406), behind the SYNC of event mode where one is due (R392, R405). -/
def Trace.evtPacket (x : Trace) (now : Nat) (e : TEvent) : Trace :=
  let due := x.syncDue now
  let d := deltaField (if due then 0 else now - x.lastTime)
  x.group now none false due (x.lossPacket ++ (if due then [eventSync now] else []) ++
    [leBytes 1 (0x80 + 4 * d.1) ++ d.2 ++ e.fields])

/-- A TTAG is freed at the retirement packet and at UNI of SUB 3; a team that left its slot stays marked (R392, R393). -/
def Trace.freeTagOf (x : Trace) (t : TeamId) (gone : Bool) : Trace :=
  { x with
    tags := x.tags.filter (·.1 != t)
    marks := if gone then x.marks.filter (· != t) else x.marks }

/-- The packet of one event goes to the FIFO. -/
def Trace.enter (x : Trace) (now : Nat) (e : TEvent) : Trace :=
  match e.team with
  | none => x.evtPacket now e
  | some t =>
    let y := if e.writes then x.packet now t e else x
    if e.kind == 3 && (e.sub == 2 || e.sub == 3) then y.freeTagOf t (e.sub == 2) else y

/-- Among the events of one clock, ascending core and then ascending slot; events of one slot stay in order (R392). -/
def insertEvent (e : TEvent) : List TEvent → List TEvent
  | [] => [e]
  | x :: r => if 8 * e.core + e.slot < 8 * x.core + x.slot then e :: x :: r else x :: insertEvent e r

/-- The events of the clock that ends enter the FIFO. -/
def Trace.flush (x : Trace) (now : Nat) : Trace :=
  { x.batch.foldl (fun y e => y.enter now e) x with batch := [] }

/-- The trace of team `t` at its die takes event `p`, if it is on, for the team's partition. -/
def State.tracePacket (s : State) (t : Team) (pc : W64) (p : Pkt) : State :=
  let d := dieOfCore t.core
  let x := (s.die d).trace
  let e : TEvent := ⟨t.core, t.slot, some t.id, pc, maskFields t, p.kind, p.sub, p.fields, modeWrites x.mode p.kind p.sub⟩
  if x.en && x.part == t.part then
    s.modDie d fun z => { z with trace := { x with batch := insertEvent e x.batch } }
  else s

/-- A TRAP packet (R406). -/
def State.traceTrap (s : State) (t : Team) (sub code : Nat) (pc : W64) : State :=
  s.tracePacket t pc ⟨6, sub, leBytes 1 code ++ leBytes 7 pc.toNat⟩
/-- A UNI packet. -/
def State.traceUni (s : State) (t : Team) (sub : Nat) : State := s.tracePacket t t.r.pc ⟨3, sub, []⟩
/-- An IND packet. -/
def State.traceInd (s : State) (t : Team) (target : W64) : State :=
  s.tracePacket t t.r.pc ⟨4, 0, leBytes 7 target.toNat⟩

/-! ## Event counters (R411, R412) -/

def Trace.evtCount (x : Trace) (k : Nat) : Nat := (x.evt.get 0 (0x100 + k)).toNat

/-- The selectors that watch event `e`, whose count rises by `n`: an EVT for each multiple of 2^THR that it passes, with
the count it has there (R407) (log 129). -/
def Trace.countEvent (x : Trace) (e n : Nat) : List Nat → Trace
  | [] => x
  | k :: r =>
    let sel := x.evt.get 0 (8 + k)
    let y :=
      if bitsOf sel 15 0 = e then
        let a := x.evtCount k
        let step := 2 ^ bitsOf sel 21 16
        let passed := if x.mode = 2 then (List.range ((a + n) / step - a / step)).map fun i => (a / step + 1 + i) * step else []
        { x with
          evt := x.evt.set 0 (0x100 + k) (BitVec.ofNat 64 (a + n))
          batch := x.batch ++ passed.map fun c => ⟨0, 0, none, 0, [], 8, 0, leBytes 1 k ++ leBytes 6 c, true⟩ }
      else x
    y.countEvent e n r

/-- Partition `p` counts `n` events `e` at die `d`: its PMCNT counters and the die's event trace. -/
def State.countEvent (s : State) (p d e n : Nat) : State :=
  if n = 0 then s
  else
    let s := (List.range 8).foldl (fun s k =>
      let sel := s.pr p (0x500 + k)
      if bitsOf sel 15 0 = e ∧ !sel.getLsbD 63 then s.bump p (0x508 + k) n else s) s
    let x := (s.die d).trace
    if x.en && x.part == p then s.modDie d fun z => { z with trace := x.countEvent e n (List.range 4) } else s

/-! ## The lane-cycle record (R409, R410) -/

/-- A bin register of partition `p` as the present clock found it: a change applies from the next (R410). -/
def State.binReg (s : State) (p n : Nat) : W64 := ((s.part p).bins.getD (s.part p).regs).get (sysReset n) n

/-- The bin of a PC. -/
def State.lccBin (s : State) (p : Nat) (pc : W64) : Nat :=
  ((List.range 15).find? fun b =>
    decide ((s.binReg p (0x660 + 2 * b)).toNat ≤ pc.toNat) && decide (pc.toNat < (s.binReg p (0x661 + 2 * b)).toNat)).getD 15

/-- Class `c` of bin `b` counts `n` positions. -/
def State.lccAdd (s : State) (p c b n : Nat) : State := if n = 0 then s else s.bump p (0x600 + 16 * c + b) n

/-- The clocks to come of team `t`'s slot carry passes. -/
def State.addPasses (s : State) (t : Team) (l : List Pass) : State :=
  s.modCore t.core fun x => { x with busy := x.busy.set [] t.slot (x.busy.get [] t.slot ++ l) }

/-- The classes of the positions of a pass over mask word `w` in which the lanes of `active` take part (R409). -/
def passCounts (t : Team) (active : List Nat) (w : Nat) : List Nat :=
  let inWord (l : Nat) : Bool := l / 32 == w
  let a := (active.filter inWord).length
  let live := (t.liveLanes.filter inWord).length
  let there := (t.lanes.filter fun l => inWord l && t.present.getLsbD l).length
  [a, there - live, live - a, 32 - there]

/-- Passes over the words `ws`, `clk` clocks each, in which the lanes of `active` take part. -/
def State.lccPasses (s : State) (t : Team) (ws : List Nat) (active : List Nat) (clk : Nat) : State :=
  s.addPasses t (ws.map fun w => ⟨t.part, t.r.pc, passCounts t active w, clk⟩)

/-- Clocks of the vector port without a pass. -/
def State.lccActive (s : State) (t : Team) (clk : Nat) : State := s.addPasses t [⟨t.part, t.r.pc, [32, 0, 0, 0], clk⟩]

/-- `n` clocks of a pass count, in the bins as they stand. -/
def State.lccPass (s : State) (x : Pass) (n : Nat) : State :=
  let b := s.lccBin x.p x.pc
  (List.range 4).foldl (fun s k => s.lccAdd x.p k b (x.counts.getD k 0 * n)) s

/-- `c` clocks of a slot go to partition `p`'s passes, oldest first: the passes left and the clocks that carry none. -/
def State.spend (p : Nat) : List Pass → Nat → State → State × List Pass × Nat
  | [], c, s => (s, [], c)
  | x :: r, c, s =>
    if x.p = p then
      let n := min c x.clk
      let y := State.spend p r (c - n) (s.lccPass x n)
      (y.1, if n = x.clk then y.2.1 else { x with clk := x.clk - n } :: y.2.1, y.2.2)
    else
      let y := State.spend p r c s
      (y.1, x :: y.2.1, y.2.2)

/-- `c` clocks of a slot that count for partition `p`: its passes, and idle positions in bin 15 (R409, R410) (log 97). -/
def State.slotClocks (s : State) (p core c slot : Nat) : State :=
  let y := State.spend p ((s.core core).busy.get [] slot) c s
  (y.1.lccAdd p 4 15 (32 * y.2.2)).modCore core fun x => { x with busy := x.busy.set [] slot y.2.1 }

/-! ## Notices of profiling (R415) -/

/-- Record kind `k` about partition `p` to the supervisors of the others; `dev` when the device made the change. -/
def State.profNotice (s : State) (p : Nat) (dev : Bool) : State :=
  let c := s.pr p 0x15C
  let dies := (List.range 4).filter fun d => (s.die d).trace.en && (s.die d).trace.part == p
  let bits := (c.toNat % 4) + (dies.map fun d => 2 ^ (8 + d)).sum
  let pay : List W32 :=
    [if bits = 0 then 3#32 else 2#32, BitVec.ofNat 32 p, BitVec.ofNat 32 bits, if dev then 1#32 else 0#32]
  (List.range 17).foldl (fun s q => if q = p ∧ !dev then s else s.sendSup q pay) s

end Sys2Proof.Machine
end

