-- ==== Sys2Proof/Machine/Translate.lean ====
section
/-!
DEFINITION. Translation (R289-R295): the two-stage walk over page tables in memory, the TLBs that hold its results, and
the checks of translation, permission and page class that every access makes (R139).
-/
namespace Sys2Proof.Machine

def va56 (x : Nat) : Nat := x % 2 ^ 56

/-- The right an access needs (R289): `engRead` is the source of `acp`, `bcp` or a stream run. -/
inductive AccKind where
  | load | store | fetch | engRead | engWrite
  deriving DecidableEq, Repr

def AccKind.writes : AccKind → Bool
  | .store | .engWrite => true
  | _ => false

/-- The page class an access is made to (R158). -/
inductive PClass where
  | plain | versioned
  deriving DecidableEq, Repr

/-! ## Page-table entries (R289, R290) -/

def pteV (e : W64) : Bool := e.getLsbD 0
def pteLeaf (e : W64) : Bool := e.getLsbD 1
def pteAddr (e : W64) : Nat := bitsOf e 51 18 * pageBytes

/-- Zero fields of an entry at `level` of the guest or host stage. -/
def pteZeroOk (guest : Bool) (level : Nat) (e : W64) : Bool :=
  bitsOf e 55 52 == 0 && bitsOf e 17 8 == 0 && (level == 3 && pteLeaf e || bitsOf e 7 7 == 0)
    && (guest || (bitsOf e 6 6 == 0 && bitsOf e 4 4 == 0))
    && (pteLeaf e || (bitsOf e 5 5 == 0 && bitsOf e 4 2 == 0))
    && (!(pteLeaf e && level == 2) || bitsOf e 32 18 == 0)

/-- A table page stands in local HBM or the domain window. -/
def State.tableOk (s : State) (pa : Nat) : Bool :=
  match s.space pa with
  | .here | .peer _ => true
  | _ => false

/-- What one stage gives: the address, the page size, W, X, U, NR, VER. -/
structure Stage where
  addr : Nat
  size : Nat
  w : Bool
  x : Bool
  u : Bool
  nr : Bool
  ver : Bool
  deriving DecidableEq, Repr

/-- A leaf that maps `a` through a page of `size` bytes. -/
def leafStage (e : W64) (size a : Nat) : Stage :=
  ⟨pteAddr e + a % size, size, e.getLsbD 2, e.getLsbD 3, e.getLsbD 4, e.getLsbD 5, e.getLsbD 6⟩

/-- A level-3 leaf. A CONT leaf is one 64 MiB translation of its group: entry k's frame less k pages is the group's start
(R293). Where the group's entries differ this is the translation of entry k, and a TLB that holds it serves the whole
group with it (log 108). -/
def leaf3 (e : W64) (a : Nat) : Stage :=
  let k := a / 2 ^ 18 % 256
  if e.getLsbD 7 && decide (k * pageBytes ≤ pteAddr e) then { leafStage e (2 ^ 18) a with size := 2 ^ 26 }
  else leafStage e (2 ^ 18) a

/-- A stage that is off maps an address to itself (R290). -/
def offStage (a : Nat) : Option Stage :=
  if a < 2 ^ 52 then some ⟨a, 2 ^ 52, true, true, true, false, false⟩ else none

/-- A walk: the table entries it met, by address, which the walk cache takes (R292), and what it gives. -/
structure Walk (α : Type) where
  met : List (Nat × W64)
  res : Option α

def Walk.fails {α : Type} : Walk α := ⟨[], none⟩
def Walk.gives {α : Type} (a : α) : Walk α := ⟨[], some a⟩
def Walk.andThen {α β : Type} (x : Walk α) (f : α → Walk β) : Walk β :=
  match x.res with
  | some a => ⟨x.met ++ (f a).met, (f a).res⟩
  | none => ⟨x.met, none⟩

/-- The entry at `pa`, as memory has it at its home (R287, R293). -/
def State.pte (s : State) (pa : Nat) : W64 := BitVec.ofNat 64 (s.readPhys pa 8)

/-- A valid and well-formed entry that `rd` reads at `pa`; a walk cache takes one that names a table, `next` where the walk goes on
there (R292). -/
def State.entryWalk (s : State) (rd : Nat → W64) (guest : Bool) (level : Nat) (next : W64 → Option Nat) (pa : Nat) : Walk W64 :=
  let e := rd pa
  if s.tableOk pa && pteV e && pteZeroOk guest level e then
    ⟨if pteLeaf e || !(next e).any s.tableOk then [] else [(pa, e)], some e⟩
  else .fails

/-- A walk of one stage: `tr` translates a table's address, `i1` is the level-1 index. -/
def State.walk (s : State) (rd : Nat → W64) (guest : Bool) (tr : Nat → Walk Nat) (root : W64) (i1 a : Nat) : Walk Stage :=
  let i2 := a / 2 ^ 33 % 32768
  let i3 := a / 2 ^ 18 % 32768
  let read (level base idx : Nat) (next : W64 → Option Nat) : Walk W64 :=
    (tr (base + 8 * idx)).andThen (s.entryWalk rd guest level next)
  (read 1 (pteAddr root) i1 fun e => (tr (pteAddr e + 8 * i2)).res).andThen fun e1 =>
    if pteLeaf e1 then .fails
    else (read 2 (pteAddr e1) i2 fun e => (tr (pteAddr e + 8 * i3)).res).andThen fun e2 =>
      if pteLeaf e2 then .gives (leafStage e2 (2 ^ 33) a)
      else (read 3 (pteAddr e2) i3 fun _ => none).andThen fun e3 =>
        if pteLeaf e3 then .gives (leaf3 e3 a) else .fails

/-- The host stage of partition `p`. -/
def State.hostWalk (s : State) (rd : Nat → W64) (p gpa : Nat) : Walk Stage :=
  let root := s.pr p 0x200B
  if root.getLsbD 0 then
    if gpa < 2 ^ 52 then s.walk rd false .gives root (gpa / 2 ^ 48) gpa else .fails
  else ⟨[], offStage gpa⟩

/-- The guest stage: its tables stand at guest-physical addresses. -/
def State.guestWalk (s : State) (rd : Nat → W64) (p va : Nat) : Walk Stage :=
  let root := s.pr p 0x170
  if root.getLsbD 0 then
    s.walk rd true (fun g => (s.hostWalk rd p g).andThen fun h => .gives h.addr) root (va / 2 ^ 48 % 256) va
  else ⟨[], offStage va⟩

/-- Both stages are off for partition `p`. -/
def State.stagesOff (s : State) (p : Nat) : Bool := !(s.pr p 0x170).getLsbD 0 && !(s.pr p 0x200B).getLsbD 0

/-- The page size of a combined translation: the smaller of the two (R291), or less where the two pages do not lie on one
another. -/
def combinedSize (va : Nat) (g h : Stage) : Nat :=
  let fits (size : Nat) : Bool :=
    decide (size ≤ g.size) && decide (size ≤ h.size) && decide (va % size ≤ g.addr % h.size) &&
      decide (g.addr % h.size - va % size + size ≤ h.size)
  if fits (2 ^ 33) then 2 ^ 33 else if fits (2 ^ 26) then 2 ^ 26 else 2 ^ 18

/-- The combined translation (R291), its table entries read by `rd`. A leaf's frame in host memory or register space is
malformed (R290), so those are reached only with both stages off (log 109). -/
def State.combinedBy (s : State) (rd : Nat → W64) (p va : Nat) : Walk Tlb :=
  (s.guestWalk rd p va).andThen fun g => (s.hostWalk rd p g.addr).andThen fun h =>
    let size := combinedSize va g h
    let e : Tlb := ⟨p, va / size * size, size, h.addr - va % size, g.w && h.w, g.x && h.x, g.u, g.nr || h.nr, g.ver,
      g.addr - va % size⟩
    match s.space h.addr with
    | .here | .peer _ => .gives e
    | .host => if s.stagesOff p then .gives e else .fails
    | .regs => if p == 0 && s.stagesOff p then .gives e else .fails
    | .nowhere => .fails

/-- The translation that the tables in memory give. -/
def State.combined (s : State) (p va : Nat) : Option Tlb := (s.combinedBy s.pte p va).res

/-- The guest stage as the tables in memory give it. -/
def State.guestStage (s : State) (p va : Nat) : Option Stage := (s.guestWalk s.pte p va).res

/-! ## TLBs (R292) -/

def Tlb.hit (p va : Nat) (e : Tlb) : Bool := e.p == p && decide (e.vbase ≤ va) && decide (va < e.vbase + e.size)

/-- An entry enters; a full TLB drops a victim the manual does not name (log 12). -/
def tlbIns (cap free : Nat) (l : List Tlb) (e : Tlb) : List Tlb :=
  if l.length < cap then e :: l else e :: l.eraseIdx (Config.tlbVictim free % cap)

/-- The entry at `pa` for a walk of partition `p` on die `d`: from the die's walk cache, or its home. -/
def State.cachedPte (s : State) (d p pa : Nat) : W64 :=
  match (s.die d).walks.find? fun w => w.p == p && w.pa == pa with
  | some w => w.e
  | none => s.pte pa

/-- Table entries that a walk met enter a walk cache of 256. -/
def walkIns (p free : Nat) : List (Nat × W64) → List WalkEnt → List WalkEnt
  | [], l => l
  | (pa, e) :: r, l =>
    if l.any fun w => w.p == p && w.pa == pa then walkIns p free r l
    else walkIns p (free + 1) r (⟨p, pa, e⟩ :: if l.length < 256 then l else l.eraseIdx (Config.tlbVictim free % 256))

/-- A die-TLB miss starts a walk; what it gives enters the die's TLB, the table entries its walk cache. -/
def State.walkDie (s : State) (d p va : Nat) : State × Option Tlb :=
  let s := s.countEvent p d 0x009 1
  let w := s.combinedBy (s.cachedPte d p) p va
  let s := { s.modDie d fun x => { x with walks := walkIns p s.free w.met x.walks } with free := s.free + w.met.length }
  match w.res with
  | none => (s, none)
  | some e =>
    let s := s.modDie d fun x => { x with tlb := tlbIns 16384 s.free x.tlb e }
    ({ s with free := s.free + 1 }, some e)

/-- Translate for an engine of die `d`. -/
def State.lookupDie (s : State) (d p va : Nat) : State × Option Tlb :=
  match (s.die d).tlb.find? (·.hit p va) with
  | some e => (s, some e)
  | none => s.walkDie d p va

/-- Translate for a team of core `c`, through the core's and the die's TLB. -/
def State.lookup (s : State) (c p va : Nat) : State × Option Tlb :=
  match (s.core c).tlb.find? (·.hit p va) with
  | some e => (s, some e)
  | none =>
    let d := dieOfCore c
    match (s.countEvent p d 0x008 1).lookupDie d p va with
    | (s, none) => (s, none)
    | (s, some e) =>
      let s := s.modCore c fun x => { x with tlb := tlbIns 512 s.free x.tlb e }
      ({ s with free := s.free + 1 }, some e)

/-- Drop the entries of partition `p` that `f` names from every core and die TLB of the module, and the partition's entries
of every walk cache (R227, R290, log 110). -/
def State.dropTlb (s : State) (p : Nat) (f : Tlb → Bool) : State :=
  let keep (e : Tlb) : Bool := !(e.p == p && f e)
  { s with
    cores := s.cores.map fun (c, x) => (c, { x with tlb := x.tlb.filter keep })
    dies := s.dies.map fun (d, x) => (d, { x with
      tlb := x.tlb.filter keep
      walks := x.walks.filter (·.p != p) }) }

/-! ## Access checks (R139) -/

/-- R289: the page permits the access. -/
def Tlb.permits (e : Tlb) (level : Nat) (k : AccKind) : Bool :=
  (!k.writes || e.w) && (k != .fetch || e.x) && (k != .engRead || !e.nr) && (level != 0 || e.u)

/-- The live region whose data range holds a virtual address (R327). -/
def Partition.regionAt (x : Partition) (va : Nat) : Option (Nat × VRegion) :=
  x.regions.find? fun (_, r) => decide (r.dbase ≤ va) && decide (va < r.dbase + r.dlen)

/-- R158, R327: the class of the page against the class of the access. -/
def State.classOk (s : State) (p va : Nat) (e : Tlb) (c : PClass) : Bool :=
  match c with
  | .plain => !e.ver
  | .versioned => e.ver && ((s.part p).regionAt va).isSome

/-- A range of bytes cut at page boundaries. -/
def pieces : Nat → Nat → Nat → List (Nat × Nat)
  | 0, _, _ => []
  | fuel + 1, va, n =>
    if n = 0 then []
    else
      let a := va56 va
      let k := min n (pageBytes - a % pageBytes)
      (a, k) :: pieces fuel (a + k) (n - k)

def rangePieces (va n : Nat) : List (Nat × Nat) := pieces (n / pageBytes + 2) va n

/-- A check that failed: the fault code and the address of the lowest failing byte. -/
structure Bad where
  code : Nat
  addr : Nat
  deriving DecidableEq, Repr

/-- The translations of a range, piece by piece; the first byte without one fails with 0x10. -/
def State.xlate (s : State) (c p : Nat) : List (Nat × Nat) → State × Except Bad (List (Nat × Nat × Tlb))
  | [] => (s, .ok [])
  | (va, n) :: r =>
    match s.lookup c p va with
    | (s, none) => (s, .error ⟨0x10, va⟩)
    | (s, some e) =>
      match s.xlate c p r with
      | (s, .error b) => (s, .error b)
      | (s, .ok l) => (s, .ok ((va, n, e) :: l))

/-- Translation, permission and page class of a range, in the order of R139. -/
def State.checkRange (s : State) (c p level : Nat) (k : AccKind) (cl : PClass) (va n : Nat) :
    State × Except Bad (List (Nat × Nat × Tlb)) :=
  match s.xlate c p (rangePieces va n) with
  | (s, .error b) => (s, .error b)
  | (s, .ok l) =>
    match l.find? fun (_, _, e) => !e.permits level k with
    | some (a, _, _) => (s, .error ⟨0x11, a⟩)
    | none =>
      match l.find? fun (a, _, e) => !s.classOk p a e cl with
      | some (a, _, _) => (s, .error ⟨0x33, a⟩)
      | none => (s, .ok l)

/-- The physical address of each byte of a translated range. -/
def physOf (l : List (Nat × Nat × Tlb)) : List Nat :=
  l.flatMap fun (va, n, e) => (List.range n).map fun i => e.pbase + (va - e.vbase) + i

/-- The guest-physical address of each. -/
def guestOf (l : List (Nat × Nat × Tlb)) : List Nat :=
  l.flatMap fun (va, n, e) => (List.range n).map fun i => e.gbase + (va - e.vbase) + i

end Sys2Proof.Machine
end

