-- ==== Sys2Proof/Machine/Homes.lean ====
section
/-!
DEFINITION. The home slices (R280, R283): what a slice keeps of a line, its bytes, its reduction state, the wait places and the
directory records of its granule; which slice performs a line's accesses while a dual-hash window is open, and the move of a
line with all its state in one step (R337, R341, R354, R355).
-/
namespace Sys2Proof.Machine

/-! ## The UALink ports (R426) -/

/-- A UALink port is ready (R426). -/
def State.linkReady (s : State) : Bool := s.mgmt.ready.extractLsb' 24 16 != 0

/-- Messages for other devices go to the UALink ports, and wait there while none is ready (R426). -/
def State.sends (s : State) (ms : List Msg) : State :=
  if s.linkReady then { s with outbox := s.outbox ++ ms } else { s with unsent := s.unsent ++ ms }
def State.say (s : State) (m : Msg) : State := s.sends [m]
/-- A die whose bit of READY is set (R426). -/
def State.dieReady (s : State) (d : Nat) : Bool := s.mgmt.ready.getLsbD (4 + d)

/-! ## Regions and their entries (R324) -/

def VRegion.empty : VRegion where
  id := 0
  dbase := 0
  dlen := 0
  pbase := 0
  plen := 0
  floor := 0
  sfloor := []
  base := []
  recs := []
  peak := 0
  parks := 0
  holders := []
  told := []

def Partition.region (x : Partition) (r : Nat) : VRegion := x.regions.get VRegion.empty r
def State.region (s : State) (p r : Nat) : VRegion := (s.part p).region r
/-- Region `r` of partition `p` is live (R326). -/
def State.liveRegion (s : State) (p r : Nat) : Bool := ((s.part p).regions.get? r).isSome
/-- A live region changes; what is still on its way to one that has been destroyed finds none (log 139). -/
def State.setRegion (s : State) (p r : Nat) (x : VRegion) : State :=
  if s.liveRegion p r then s.modPart p fun y => { y with regions := y.regions.put r x } else s

/-- Pool slots in use (R329). -/
def VRegion.slots (x : VRegion) : Nat := x.recs.length + (x.recs.map (·.g)).eraseDups.length

/-- The address of a region's entry (R325). -/
def State.vrEntry (s : State) (p r : Nat) : Nat := (s.pr p 0x174).toNat + 64 * r

/-- Writes of the device to a virtual address of partition `p`. -/
def State.writeVirt (s : State) (p va : Nat) (bs : List Byte) : State :=
  match s.combined p (va56 va) with
  | some e => s.writePhys (e.pbase + (va56 va - e.vbase)) bs
  | none => s

/-- Words 4-7 of a live region's entry (R324). -/
def State.noteRegion (s : State) (p r : Nat) (live : Bool) : State :=
  let x := s.region p r
  if !s.liveRegion p r then s
  else s.writeVirt p (s.vrEntry p r + 32)
    (leBytes 8 x.floor.toNat ++ leBytes 8 (x.slots + 2 ^ 32 * x.peak) ++ leBytes 8 (x.parks % 2 ^ 48) ++
      leBytes 8 (if live then 1 else 0))

def VRegion.baseOf (x : VRegion) (g : Nat) : W32 := x.base.get 0 g
def VRegion.rec? (x : VRegion) (g : Nat) (v : W32) : Option VRec := x.recs.find? fun r => r.g == g && r.v == v
def VRegion.floorAt (x : VRegion) (sl : Nat) : W32 := x.sfloor.get 0 sl
def VRec.complete (r : VRec) : Bool := r.mask == BitVec.allOnes 64

/-- R330 for one granule of region `r` of partition `p`: `f` is the new floor. -/
def State.reclaim (s : State) (p r : Nat) (f : W32) (g : Nat) : State :=
  let x := s.region p r
  let b := x.baseOf g
  let best := (x.recs.filter fun q => q.g == g && q.complete && decide (b < q.v) && decide (q.v < f)).foldl
    (fun (m : Option VRec) q => match m with
      | some n => if n.v < q.v then some q else m
      | none => some q) none
  let s := match best with
    | some q => s.storeBytes p (cells (64 * g) (leBytes 64 q.data.toNat))
    | none => s
  s.setRegion p r { x with
    base := match best with
      | some q => x.base.put g q.v
      | none => x.base
    recs := x.recs.filter fun q => !(q.g == g && decide (q.v < f)) }

/-! ## Lines in the home slices (R280) -/

/-- The physical lines of a lease of partition `p`. -/
def State.leaseLines (s : State) (p : Nat) (l : Lease) : List Nat :=
  (rangePieces l.base.toNat l.len).flatMap fun (va, n) =>
    match s.combined p va with
    | some e => (List.range (n / 64)).map fun k => lineOf (s.norm (e.pbase + (va - e.vbase) + 64 * k))
    | none => []

/-- The lines that the leases of all partitions pin in their home slices (R288). -/
def State.pinnedLines (s : State) : List Nat :=
  (List.range 17).flatMap fun p => (s.part p).leases.flatMap (s.leaseLines p)

/-- The slice keeps something of the line: its bytes, its reduction state, a wait place. -/
def Slice.holds (x : Slice) (line : Nat) : Bool :=
  x.cached.contains line || (x.lines.get? line).isSome || x.waits.any (·.granule == line)

/-- The old home of a local line under a dual-hash window of its partition: the slice that still keeps its directory records,
or something else of it, and that is no longer the slice the hash gives (R354). -/
def State.oldHome (s : State) (line : Nat) : Option Nat :=
  let pa := 64 * line
  let new_ := s.homeSlice pa
  (s.wins.flatMap fun (_, w) =>
    if w.p == s.lineOwner pa && w.die == dieOfPa pa then
      ((w.grans.lookup line).toList ++ (w.olds.filterMap fun l => homeIn l pa).filter fun o => (s.slice o).holds line).filter
        (some · != new_)
    else []).head?

/-- The slice that performs the accesses of the line of `pa`: its old home until the line has moved, else its home slice
(R354, R355). Of another device the one place that stands for all its slices, so that the limits on lines and contributions
count per device there (R303, log 114). -/
def State.lineSlice (s : State) (pa : Nat) : Option Nat :=
  match s.space pa with
  | .peer d => some (1000 + d)
  | .here => (s.oldHome (lineOf (s.norm pa))).or (s.homeSlice pa)
  | _ => none

/-! ## Residence -/

/-- A node whose spill segment holds line `k` of the record pool passes that segment to HBM (R229, R230). -/
def Node.evict (n : Node) (k : Nat) : Node :=
  match n.q.findSome? fun r => r.spill.bind fun (g, l) => if l = k then some g else none with
  | some g => if n.hbm.contains g then n else { n with
      hbmseg := n.hbmseg + 1
      hbm := g :: n.hbm }
  | none => n

/-- The eight counters of R230 as the status area holds them (R250). -/
def Node.status (n : Node) : List Byte :=
  [n.enq, n.launch, n.spillrec, n.fillrec, n.spillseg, n.hbmseg, n.peakres, n.peakspill].flatMap fun c => leBytes 8 (c % 2 ^ 48)
def State.noteNode (s : State) (p g n : Nat) : State :=
  match s.graph? p g with
  | some x =>
    match x.nodes.get? n with
    | some y => s.writeVirt p (fld x.obj 3 55 0 + 64 * n) y.status
    | none => s
  | none => s

/-- The nodes of partition `p` whose spill segment holds line `k` of the record pool and has not passed to HBM, by graph. -/
def State.evictees (s : State) (p k : Nat) : List (Nat × Nat) :=
  (s.part p).graphs.flatMap fun (g, y) => y.nodes.filterMap fun (n, z) => if z.evict k = z then none else some (g, n)

/-- The line leaves its slice for HBM: of the record pools' lines the Mills take note, in the status area too (R250). -/
def State.evictLine (s : State) (line : Nat) : State :=
  (List.range 17).foldl (fun s p =>
    let base := s.preg p 12 / 64
    if base ≤ line ∧ line < base + s.preg p 4 then
      (s.evictees p (line - base)).foldl (fun s (g, n) =>
        (s.modPart p fun x => { x with graphs := x.graphs.map fun (h, y) => if h = g then
          (h, { y with nodes := y.nodes.map fun (m, z) => (m, if m = n then z.evict (line - base) else z) }) else (h, y) }).noteNode
            p g n) s
    else s) s

/-- A line enters slice `sl`; of a full slice (65,536 lines) an unpinned line goes (log 107). -/
def State.putCached (s : State) (sl line : Nat) : State :=
  let old := (s.slice sl).cached
  let free := if old.length < 65536 then [] else old.filter fun l => !s.pinnedLines.contains l
  match free[Config.cacheVictim s.free % free.length]? with
  | some v => { (s.evictLine v).modSlice sl fun x => { x with cached := line :: old.erase v } with free := s.free + 1 }
  | none => { s.modSlice sl fun x => { x with cached := line :: old } with free := s.free + 1 }
def State.dropCached (s : State) (sl line : Nat) : State := s.modSlice sl fun x => { x with cached := x.cached.filter (· != line) }
/-- The line's bytes move from slice `o` to slice `n`. -/
def State.moveCached (s : State) (o n line : Nat) : State := (s.dropCached o line).putCached n line

/-! ## Reduction state and wait places -/

def State.rline? (s : State) (sl line : Nat) : Option RLine := (s.slice sl).lines.get? line
def State.setRline (s : State) (sl line : Nat) (x : RLine) : State :=
  s.modSlice sl fun y => { y with lines := y.lines.put line x }
def State.dropRline (s : State) (sl line : Nat) : State := s.modSlice sl fun y => { y with lines := y.lines.del line }

/-- Contributions held in a slice. -/
def Slice.heldCount (x : Slice) : Nat := (x.lines.map fun (_, l) => l.held.length).sum
/-- The physical bytes and granule of an access. -/
def VAcc.bytes (s : State) (a : VAcc) : List Nat := a.acc.pas.map s.norm
def VAcc.gran (s : State) (a : VAcc) : Nat := lineOf ((a.bytes s).headD 0)
def State.vHome (s : State) (a : VAcc) : Nat := (s.lineSlice (64 * a.gran s)).getD 0
/-- Free the wait-table places of a team's instructions that `f` names (R332). -/
def State.freePlaces (s : State) (t : TeamId) (f : Nat → Bool) : State :=
  { s with slices := s.slices.map fun (l, x) => (l, { x with waits := x.waits.filter fun w => !(w.dev.isNone && w.team == t && f w.seq) }) }

def Team.pendOf (t : Team) (seq : Nat) : Option Pending := t.pend.find? (·.seq == seq)
def Team.modPend (t : Team) (seq : Nat) (f : Pending → Pending) : Team :=
  { t with pend := t.pend.map fun p => if p.seq == seq then f p else p }

/-- The load is parked: it holds no place, PARKS rises, and the filter of each slice that it names takes its granules. -/
def State.park (s : State) (t : Team) (seq : Nat) (dst : Dst) (accs : List VAcc) (acq : Option Scope) : State :=
  let s := s.freePlaces t.id (· == seq)
  let s := { s.modTeam t.id fun u => u.modPend seq fun q => { q with kind := .ldv dst accs acq false (some s.nparks) } with
    nparks := s.nparks + 1 }
  let s := accs.foldl (fun s a => s.modSlice (s.vHome a) fun x => { x with filter := x.filter ||| (1#256 <<< (a.gran s % 256)) }) s
  match accs with
  | a :: _ =>
    let x := s.region t.part a.region
    (s.setRegion t.part a.region { x with parks := x.parks + 1 }).noteRegion t.part a.region true
  | [] => s

/-- A blocked version load loses its places and is parked (R333, R337). -/
def State.parkBlocked (s : State) (id : TeamId) (seq : Nat) : State :=
  match s.team? id with
  | none => s
  | some t =>
    match (t.pendOf seq).map (fun (q : Pending) => q.kind) with
    | some (PKind.ldv dst accs acq true _) => s.park t seq dst accs acq
    | _ => s

/-- A blocked version load that gives back its places meets its homes anew. -/
def State.unblock (s : State) (id : TeamId) (seq : Nat) : State :=
  (s.freePlaces id (· == seq)).modTeam id fun u => u.modPend seq fun q =>
    match q.kind with
    | .ldv dst accs acq true k => { q with kind := .ldv dst accs acq false k }
    | _ => q

/-- A load of another device loses its places, and is told why: 0 for want of room. -/
def State.denyForeign (s : State) (d code : Nat) (id : TeamId) (seq : Nat) : State :=
  State.say { s with slices := s.slices.map fun (l, x) => (l, { x with waits := x.waits.filter fun w =>
      !(w.dev == some d && w.team == id && w.seq == seq) }) } (.denied d code)

def WaitPlace.sameLoad (v w : WaitPlace) : Bool := v.dev == w.dev && v.team == w.team && v.seq == w.seq

/-- Wait places enter the slices that stand with them. A load of which one finds no room gives back all its places (R337), and one that waits below
the floor there is released: it meets its fault when it goes on (R330, R332). `lost` are places of such loads. -/
def State.movePlaces (s : State) (lost : List WaitPlace) : List (Nat × WaitPlace) → State
  | [] => s
  | (n, w) :: r =>
    let low := decide (w.version < (s.region w.p w.region).floorAt n)
    if lost.any w.sameLoad then s.movePlaces lost r
    else if !low && decide ((s.slice n).waits.length < 256) && decide (((s.slice n).waits.filter w.sameLoad).length < 64) then
      (s.modSlice n fun y => { y with waits := y.waits ++ [w] }).movePlaces lost r
    else
      (match w.dev with
        | some d => s.denyForeign d (if low then 0x30 else 0) w.team w.seq
        | none => if low then s.unblock w.team w.seq else s.parkBlocked w.team w.seq).movePlaces (w :: lost) r

/-- The places that `f` names leave their slices. -/
def State.takeOut (s : State) (f : WaitPlace → Bool) : State × List WaitPlace :=
  ({ s with slices := s.slices.map fun (l, x) => (l, { x with waits := x.waits.filter fun w => !f w }) },
    s.slices.flatMap fun (_, x) => x.waits.filter f)

/-! ## The move step -/

/-- The regions, by partition and number, that have a directory record of granule `g`. -/
def State.regionsAt (s : State) (g : Nat) : List (Nat × Nat) :=
  s.parts.flatMap fun (p, x) => x.regions.filterMap fun (r, y) => if y.recs.any (·.g == g) then some (p, r) else none

/-- The directory records of granule `g` come from slice `o` to slice `n`: where that slice holds a higher floor, R330 is applied
to them. -/
def State.landGranule (s : State) (o n g : Nat) : State :=
  (s.regionsAt g).foldl (fun s (p, r) =>
    let x := s.region p r
    if x.floorAt o < x.floorAt n then (s.reclaim p r (x.floorAt n) g).noteRegion p r true else s) s

/-- The contributions that the line holds at slice `o` have room among the 1,024 places of slice `n` (R341). -/
def State.roomAt (s : State) (o n line : Nat) : Bool :=
  decide ((s.slice n).heldCount + ((s.rline? o line).elim 0 (·.held.length)) ≤ 1024)

/-- A line passes from its old home to its home slice in one step: its bytes, its reduction state, its directory records and its
wait places (R337, R341, R354). A step that finds no room for contributions waits, and accesses stay at the old home; the 1,024
lines of R155 do not bind it (log 153). -/
def State.moveLine (s : State) (line : Nat) : State :=
  match s.oldHome line, s.homeSlice (64 * line) with
  | some o, some n =>
    if !s.roomAt o n line then s
    else
      let s : State := { s with wins := s.wins.map fun (i, w) => (i, { w with grans := w.grans.filter (·.1 != line) }) }
      let s := if (s.slice o).cached.contains line then s.moveCached o n line else s
      let s := match s.rline? o line with
        | some x => (s.dropRline o line).setRline n line x
        | none => s
      let (s, ws) := s.takeOut fun w => w.granule == line
      (s.landGranule o n line).movePlaces [] (ws.map fun w => (n, w))
  | _, _ => s

def State.moveLines (s : State) : List Nat → State
  | [] => s
  | l :: ls => (s.moveLine l).moveLines ls

/-- An access of partition `p` reaches a line at the slice that performs it: the line moves there first (R354), and where the
slice lacks its bytes they are filled from HBM. Where the partition has no slice on the die of a spill segment the segment stands
in no slice, and HBMSEG does not count it (R283, log 150). -/
def State.reach (s : State) (p line : Nat) : State :=
  match s.space (64 * line) with
  | .here =>
    let s := s.moveLine line
    match s.lineSlice (64 * line) with
    | some sl =>
      if (s.slice sl).cached.contains line then s else (s.putCached sl line).countEvent p (dieOfSlice sl) 0x007 1
    | none => s
  | _ => s

def State.reachLines (s : State) (p : Nat) : List Nat → State
  | [] => s
  | l :: ls => (s.reach p l).reachLines p ls

end Sys2Proof.Machine
end

