-- ==== Sys2Proof/Machine/Operands.lean ====
section
/-!
DEFINITION. Operand forms (R21-R23, R28, R84, R110): what a source operand supplies under each operand type, guards and
participating lanes, and writing results to lanes.
-/
namespace Sys2Proof.Machine

/-! ## Identity of a team (R108) -/

def Team.nrec (t : Team) : Nat := t.recs.length
/-- The depth of a record. -/
def recDepth (r : List W32) : Nat := (r.getD 0 0).toNat / 2 ^ 24 % 16
/-- The length of a record. -/
def recLen (r : List W32) : Nat := (r.getD 3 0).toNat / 2 ^ 8 % 16
def recAff (r : List W32) : Nat := (r.getD 3 0).toNat % 256
def Team.depth (t : Team) : Nat := t.recs.foldl (fun m r => max m (recDepth r)) 0

/-! ## Constants and literals -/

/-- Entries 0-47 of the constant table: integer views (R22). -/
def kConst : List Nat :=
  [0, 1, 0xFFFF_FFFF_FFFF_FFFF, 2, 3, 4, 5, 6, 7, 8, 16, 32, 64, 128, 256, 0xFFFF_FFFF_FFFF_FFFE] ++
  [0x3F00_0000, 0x3E80_0000, 0xBF00_0000, 0x3FC0_0000, 0x8000_0000, 0x7F80_0000, 0xFF80_0000, 0x7FC0_0000, 0x7F7F_FFFF,
   0x0080_0000, 0x4049_0FDB, 0x3FC9_0FDB, 0x40C9_0FDB, 0x3F31_7218, 0x3FB8_AA3B, 0x3F35_04F3] ++
  [0xFF, 0xFFFF, 0xFFFF_FFFF, 0x8000_0000, 0x7FFF_FFFF, 0x8000_0000_0000_0000, 0x7FFF_FFFF_FFFF_FFFF, 0x0F0F_0F0F,
   0x3333_3333, 0x5555_5555, 0x0101_0101, 0x8080_8080, 0x8000, 24, 31, 63]

/-- Entries 48-63: runtime values at lane `l`. -/
def kRuntime (s : State) (t : Team) (i l : Nat) : Nat :=
  match i with
  | 48 => l
  | 49 => l % 32
  | 50 => l / 32
  | 51 => t.w
  | 52 => t.w / 32
  | 53 => t.node
  | 54 => t.depth
  | 55 => t.nrec
  | 56 => t.part
  | 57 => t.core
  | 58 => dieOfCore t.core
  | 59 => s.devn
  | 60 => t.slot
  | 61 => 4 * l
  | 62 => 8 * l
  | _ => 32 * l

/-- The integer view of entry `i` at lane `l`. -/
def kInt (s : State) (t : Team) (i l : Nat) : W64 :=
  BitVec.ofNat 64 (if i < 48 then kConst.getD i 0 else kRuntime s t i l)

/-- The largest finite value and the smallest normal value of a 16-bit float, entries 24 and 25. -/
def k16 (f : Fmt) (i : Nat) : Option Nat :=
  match f, i with
  | .f16, 24 => some 0x7BFF
  | .f16, 25 => some 0x0400
  | .bf16, 24 => some 0x7F7F
  | .bf16, 25 => some 0x0080
  | _, _ => none

/-- The value of a 64-bit integer in format `f`: directly to a wide float, through .f32 to the others. -/
def intView (f : Fmt) (x : W64) : W64 :=
  match f.group with
  | .W => (convert false .rne f .i64 x.toNat).1
  | _ => (convert false .rne f .f32 (convert false .rne .f32 .i64 x.toNat).1.toNat).1

/-- The floating view of entry `i` in format `f` (R22). -/
def kFloat (s : State) (t : Team) (f : Fmt) (i l : Nat) : W64 :=
  let x := kInt s t i l
  if 16 ≤ i ∧ i < 32 then
    if f = .f32 then x
    else match k16 f i with
      | some v => BitVec.ofNat 64 v
      | none => (convert false .rne f .f32 x.toNat).1
  else if 32 ≤ i ∧ i < 48 then x
  else intView f x

/-- The type an operand is read under. -/
inductive OpTy where
  /-- Integer or untyped; `wide` for 64 bits. -/
  | int (wide : Bool)
  /-- One floating value of format `f`. -/
  | flt (f : Fmt)
  /-- Two packed 16-bit floats. -/
  | packed (f : Fmt)
  deriving DecidableEq, Repr

def OpTy.wide : OpTy → Bool
  | .int w => w
  | _ => false

/-- Both halves. -/
def twice16 (x : W64) : W64 := BitVec.ofNat 64 (x.toNat % 2 ^ 16 * 0x1_0001)

/-- Literal word `i` of the clause. -/
def Team.literal (t : Team) (i : Nat) : W64 :=
  match t.r.cl with
  | some c => c.lits.getD i 0
  | none => 0

/-- A source operand at lane `l`, in the low bits (R110). -/
def opnd (s : State) (t : Team) (ty : OpTy) (x : Opnd) (l : Nat) : W64 :=
  match x with
  | .v i _ => if ty.wide then join64 (t.r.lane i.val l) (t.r.lane (i.val + 1) l) else (t.r.lane i.val l).zeroExtend 64
  | .s i => t.r.sget i.val
  | .k i =>
    match ty with
    | .int _ => kInt s t i.val l
    | .flt f => kFloat s t f i.val l
    | .packed f => twice16 (kFloat s t f i.val l)
  | .lit i => t.literal i.val

/-- A team-uniform operand: 64 bits of the integer view (R84). -/
def uni (s : State) (t : Team) (x : Opnd) : W64 := opnd s t (.int true) x 0

/-- A 32-bit integer operand at a lane. -/
def lane32 (s : State) (t : Team) (x : Opnd) (l : Nat) : W32 := lo32 (opnd s t (.int false) x l)

/-! ## Guards (R29, R30) -/

def guardOn (g : Guard) (r : Regs) (l : Nat) : Bool :=
  match g with
  | .none => true
  | .vec i b n => (r.lane i.val l).getLsbD b.val != n
  | .scal i b n => (r.sget i.val).getLsbD b.val != n

/-- The scalar guard holds, or there is none. -/
def guardUni (g : Guard) (r : Regs) : Bool :=
  match g with
  | .scal .. => guardOn g r 0
  | _ => true

/-- Participating lanes, ascending (R109). -/
def Team.active (t : Team) (g : Guard) : List Nat := t.liveLanes.filter (guardOn g t.r)

/-! ## Results -/

def destIndex : Dest → Nat
  | .v i => i.val
  | .s i => i.val

/-- A 32-bit or, when `wide`, 64-bit result of a lane. -/
def laneWrites (wide : Bool) (d l : Nat) (x : W64) : List RegWrite :=
  if wide then [.v d l (lo32 x), .v (d + 1) l (hi32 x)] else [.v d l (lo32 x)]

/-- The writes of a result of `n` bytes to lane `l`, or to scalar registers (R138): `x` is already extended. -/
def destWrites (d : Dest) (n l : Nat) (x : Nat) : List RegWrite :=
  match d with
  | .v i => (List.range (regsOf n)).map fun k => .v (i.val + k) l (BitVec.ofNat 32 (x / 2 ^ (32 * k)))
  | .s i => (List.range (sregsOf n)).map fun k => .s (i.val + k) (BitVec.ofNat 64 (x / 2 ^ (64 * k)))

/-- Apply writes to the team's registers. -/
def Team.apply (t : Team) (ws : List RegWrite) : Team := { t with r := t.r.writes ws }
def Team.raises (t : Team) : List (Nat × W32) → Team
  | [] => t
  | (l, f) :: r => Team.raises { t with r := t.r.raise l f } r

end Sys2Proof.Machine
end

