-- ==== Sys2Proof/Machine/Clause.lean ====
section
/-!
DEFINITION. Code addresses: fetching code, the clause-start map (R17), the reconvergence stack and the arrival test
(R101-R105), and taking a fault (R218), which every fault of the machine goes through.
-/
namespace Sys2Proof.Machine

/-! ## Fetch (R291, R17) -/

/-- One code word at its home. -/
def State.fetchWord (s : State) (t : Team) (va : W64) : State × Except Bad W64 :=
  match s.checkRange t.core t.part t.level .fetch .plain va.toNat 8 with
  | (s, .error b) => (s, .error b)
  | (s, .ok l) =>
    let pas := physOf l
    match pas.find? s.poisoned with
    | some _ => (s, .error ⟨0x40, va.toNat⟩)
    | none => (s, .ok (BitVec.ofNat 64 (leNat (pas.map (s.homeByte t.part)))))

def State.fetchWords (s : State) (t : Team) (va : W64) : Nat → State × Except Bad (List W64)
  | 0 => (s, .ok [])
  | n + 1 =>
    match s.fetchWord t va with
    | (s, .error b) => (s, .error b)
    | (s, .ok w) =>
      match s.fetchWords t (va + 8#64) n with
      | (s, .error b) => (s, .error b)
      | (s, .ok ws) => (s, .ok (w :: ws))

/-- The code regions of a team: its graph's, and in the handler the handler's region (R218). -/
def State.codeRegions (s : State) (t : Team) : List Region3 :=
  let own := match s.graph? t.part t.gslot with
    | some g => g.regions
    | none => []
  if t.hnd then
    (if t.slvl = 2 then ⟨s.mr 0x181, s.mr 0x182, s.mr 0x183⟩
      else ⟨s.pr t.part 0x101, s.pr t.part 0x102, s.pr t.part 0x103⟩) :: own
  else own

def Region3.holds (g : Region3) (a : W64) : Bool :=
  decide (g.base.toNat ≤ a.toNat) && decide (a.toNat < g.base.toNat + g.len.toNat)

/-- The clause-start bit of `a` in region `g`; `none` where the map cannot be read: it has no translation, or its granule
is poisoned. The manual does not say whether the rights of the map's page bind this read; here they do not (log 100). -/
def State.mapBit (s : State) (t : Team) (g : Region3) (a : W64) : State × Option Bool :=
  let k := (a.toNat - g.base.toNat) / 8
  match s.lookup t.core t.part (va56 (g.map.toNat + k / 8)) with
  | (s, none) => (s, none)
  | (s, some e) =>
    let pa := e.pbase + (va56 (g.map.toNat + k / 8) - e.vbase)
    if s.poisoned pa then (s, none) else (s, some ((s.homeByte t.part pa).getLsbD (k % 8)))

/-- The bytes of the clause whose header is `hdr` (R11). -/
def clauseBytes (hdr : W64) : Nat :=
  let k := Header.ofWord hdr
  8 * (2 + k.nin + k.nlit)

/-- The code that the fetch of the clause at `a` raises: its header, then, where the header is good, all of it (R291). A
poisoned word faults at the clause itself. -/
def State.checkFetch (s : State) (t : Team) (a : W64) : State × Option Nat :=
  match s.fetchWord t a with
  | (s, .error b) => (s, if b.code = 0x40 then none else some b.code)
  | (s, .ok hdr) =>
    if headerOk hdr then
      match s.checkRange t.core t.part t.level .fetch .plain a.toNat (clauseBytes hdr) with
      | (s, .error b) => (s, some b.code)
      | (s, .ok _) => (s, none)
    else (s, none)

/-- R17, R96, R291: the code a transfer to `a` raises, 0x05, 0x10, 0x11 or 0x33. -/
def State.checkTarget (s : State) (t : Team) (a : W64) : State × Option Nat :=
  if a.extractLsb' 0 3 != 0#3 || a.extractLsb' 56 8 != 0#8 then (s, some 0x05)
  else
    match (s.codeRegions t).find? (Region3.holds · a) with
    | none => (s, some 0x05)
    | some g =>
      match s.mapBit t g a with
      | (s, some true) => s.checkFetch t a
      | (s, _) => (s, some 0x05)

/-- RCV of the clause at `h`. -/
def State.rcvAt (s : State) (t : Team) (h : W64) : State × Bool :=
  match s.fetchWord t h with
  | (s, .ok w) => (s, w.getLsbD 41)
  | (s, .error _) => (s, false)

/-- The address of the clause after `c`. -/
def Clause.next (c : Clause) : W64 := c.h + 8#64 * BitVec.ofNat 64 (1 + c.words.length + c.lits.length)

/-- The index of the instruction word at `pc`. -/
def Clause.at (c : Clause) (pc : W64) : Nat := ((pc - c.h).toNat / 8) - 1

/-- s62 where the fault is no lane's. -/
def noLane : W64 := 0xFFFF_FFFF_FFFF_FFFF#64

/-- The clause as the slot fetches it, or where and why the fetch fails; the header is there unless its own fetch
failed. -/
def State.fetchClause (s : State) (t : Team) (h : W64) : State × Option W64 × Except Bad Clause :=
  match s.fetchWord t h with
  | (s, .error b) => (s, none, .error b)
  | (s, .ok hdr) =>
    if !headerOk hdr then (s, some hdr, .ok ⟨h, hdr, [], [], t.nclause⟩)
    else
      let k := Header.ofWord hdr
      match s.fetchWords t (h + 8#64) (k.nin + 1) with
      | (s, .error b) => (s, some hdr, .error b)
      | (s, .ok ws) =>
        match s.fetchWords t (h + 8#64 * BitVec.ofNat 64 (k.nin + 2)) k.nlit with
        | (s, .error b) => (s, some hdr, .error b)
        | (s, .ok ls) => (s, some hdr, .ok ⟨h, hdr, ws, ls, t.nclause⟩)

/-- A clause at `h` that could not be started, as `tret` finds it (R39): its header, no words. -/
def failedClause (t : Team) (h hdr : W64) : Clause := ⟨h, hdr, [], [], t.nclause⟩

/-- The fault of a clause at `h` that does not start: its fetch fails, or a word of it fails validation (R38, R291). -/
def startFault (t : Team) (h : W64) : Option W64 × Except Bad Clause → Option FaultRec
  | (hdr, .error b) => some ⟨b.code, BitVec.ofNat 64 b.addr, noLane, h, hdr.map (failedClause t h), false, none⟩
  | (_, .ok c) => (validate c.hdr c.words).map fun (k, e) =>
      ⟨e.code, 0, noLane, h + 8#64 * BitVec.ofNat 64 k, some (failedClause t h c.hdr), false, none⟩

/-- The slot has switched to a team: no other team of the slot still has a switch to come (R12). -/
def State.clearYld (s : State) (t : Team) : State :=
  { s with teams := s.teams.map fun (k, u) =>
      (k, if u.id != t.id && u.core == t.core && u.slot == t.slot then { u with yld := false } else u) }

/-- The packet of the fault whose handler's first clause issues (R408). -/
def State.traceDelivery (s : State) (t : Team) : State :=
  match t.trapPkt with
  | some (code, pc) => s.traceTrap t 0 code pc
  | none => s

/-- The clause begins on its port (R14): the team stands at its instruction `k`. -/
def State.startClause (s : State) (t : Team) (c : Clause) (k : Nat) : State :=
  let s := ((s.traceDelivery t).setTeam { t with
    nclause := t.nclause + 1
    port := k == 0
    yld := false
    trapPkt := none
    r := { t.r with
      cl := some c
      pc := c.h + 8#64 * BitVec.ofNat 64 (k + 1) } }).clearYld t
  if c.hdr.getLsbD 40 then s.tracePacket t c.h ⟨5, 0, leBytes 7 c.h.toNat⟩ else s

/-! ## The reconvergence stack (R101-R105) -/

/-- The entries of the stack: those in the slot and those in the spill area. -/
def Regs.depth (r : Regs) : Nat := r.stack.length + 8 * r.blocks

/-- The 272-byte image of an entry. -/
def REntry.bytes (e : REntry) : List Byte :=
  leBytes 128 e.rmask.toNat ++ leBytes 128 e.pmask.toNat ++ leBytes 8 e.ppc.toNat ++ leBytes 8 e.rc.toNat

/-- The entry whose image stands at `pa`. -/
def State.readEntry (s : State) (pa : Nat) : REntry :=
  ⟨BitVec.ofNat 1024 (s.readPhys pa 128), BitVec.ofNat 1024 (s.readPhys (pa + 128) 128),
    BitVec.ofNat 64 (s.readPhys (pa + 256) 8), BitVec.ofNat 64 (s.readPhys (pa + 264) 8)⟩

/-- Where block `b` of the team's spill area stands. -/
def State.spillBase (s : State) (t : Team) (b : Nat) : Nat := s.ctxBase t + 0x1000 + 2176 * b

/-- A push that finds 32 entries in the slot spills the eight oldest (R104). -/
def Regs.spills (r : Regs) : Bool := decide (32 ≤ r.stack.length)

/-- A push (R104); the caller has made the check of R105. -/
def State.push (s : State) (t : Team) (e : REntry) : State × Team :=
  if t.r.spills then
    (s.writePhys (s.spillBase t t.r.blocks) ((t.r.stack.drop 24).reverse.flatMap REntry.bytes),
      { t with
        r := { t.r with
          stack := e :: t.r.stack.take 24
          blocks := t.r.blocks + 1
          due := 0 }
        spills := t.spills + 1 })
  else (s, { t with r := { t.r with
    stack := e :: t.r.stack
    due := 0 } })

/-- The slot holds no entry and the spill area a block (R104). -/
def Team.slotDry (t : Team) : Bool := t.r.stack.isEmpty && decide (0 < t.r.blocks)

/-- A fill that the handler's own arrivals do not repeat: it met poison before the handler began, and no pop of the handler
has emptied the slot since (log 105). -/
def Team.fillLeft (t : Team) : Bool := t.hnd && t.r.due == t.r.blocks

/-- The fill of R104; the flag says that it met poison. -/
def State.fill (s : State) (t : Team) : Team × Bool :=
  if t.slotDry then
    let base := s.spillBase t (t.r.blocks - 1)
    if (List.range 68).any fun k => s.poisoned (base + 32 * k) then
      ({ t with r := { t.r with due := t.r.blocks } }, true)
    else
      ({ t with
        r := { t.r with
          stack := ((List.range 8).map fun j => s.readEntry (base + 272 * j)).reverse
          blocks := t.r.blocks - 1
          due := 0 }
        fills := t.fills + 1 }, false)
  else (t, false)

/-- The fill before an arrival test, where it is due. -/
def State.refill (s : State) (t : Team) : Team × Bool := if t.fillLeft then (t, false) else s.fill t

/-- The steps that an arrival may take: two for each entry, and one for each block. -/
def Team.steps (t : Team) : Nat := 3 * t.r.depth + 1

/-- The team stands at clause header `h`. -/
def Team.at (t : Team) (h : W64) : Team :=
  { t with r := { t.r with
    pc := h
    cl := none } }

/-- R103 for a team standing at `h`, at most `fuel` steps. The flag says that a fill met poison (R104). -/
def State.arriveFrom (s : State) (t : Team) (h : W64) : Nat → State × Team × Bool
  | 0 => (s, t.at h, false)
  | fuel + 1 =>
    match s.refill t with
    | (t, true) => (s, t.at h, true)
    | (t, false) =>
      match t.r.stack with
      | [] => (s, t.at h, false)
      | e :: rest =>
        if e.rc = h then
          match s.rcvAt t h with
          | (s, false) => (s, t.at h, false)
          | (s, true) =>
            if e.pmask = 0 then
              s.arriveFrom { t with r := { t.r with
                mask := e.rmask
                stack := rest } } h fuel
            else
              s.arriveFrom { t with r := { t.r with
                mask := e.pmask
                stack := { e with pmask := 0 } :: rest } } e.ppc fuel
        else (s, t.at h, false)

/-! ## Pending instructions -/

/-- The lookahead window of `p` is over at instruction number `k` of clause `serial` (R32, R33). -/
def Pending.over (p : Pending) (k serial : Nat) : Bool :=
  p.serial != serial || (decide (p.la < 15) && decide (p.num + p.la < k))

/-- The writes of `p` that an instruction numbered below `k` has not overtaken (R32, R241). -/
def Pending.landing (p : Pending) (k : Option Nat) : List RegWrite :=
  p.land.filter fun w => !p.dropped.any fun (r, n) => r == w.ref && (match k with
    | none => true
    | some k => decide (n < k))

/-- The lanes of the accesses that an unperformed instruction answers for. -/
def PKind.lanes : PKind → List Nat
  | .load _ a _ _ | .lds _ a => a.map (·.lane)
  | .atomic _ _ _ _ _ _ a => a.map (·.1.lane)
  | .atoms _ _ _ _ a => a.map (·.1.lane)
  | .ldv _ a _ _ _ | .latest _ a _ | .vqry _ a => a.map (·.acc.lane)
  | _ => []

/-- The keys of the register entries that `p` has a new granule for (R239), until its result lands: of each vector
destination not released or overtaken, the mask words with a lane that it writes. -/
def Pending.keys (p : Pending) : List Nat :=
  let ws := ((if p.performed then p.land.filterMap fun w => match w with
      | .v _ l _ => some l
      | .s _ _ => none
    else p.kind.lanes.filter (decide <| · < 1024)).map (· / 32)).eraseDups
  (p.dsts.filter fun d => !p.dropped.any (·.1 == d)).flatMap fun d => match d with
    | .v i => ws.map (vkey i)
    | .s _ => []

/-- An instruction numbered `n` or below has open checks (R239). -/
def Team.openUpTo (t : Team) (n : Nat) : Bool := t.pend.any fun p => p.open_ && decide (p.num ≤ n)

/-- The keys among `ks` that a granule is mapped to. -/
def Team.mappedOf (t : Team) (ks : List Nat) : List Nat :=
  ks.filter fun k => match t.r.v.get? k with
    | some (.mapped _) => true
    | _ => false

/-- Instruction `n` displaces the granules of the entries `ks`; they stay held while checks up to it are open (R239). -/
def Team.displace (t : Team) (n : Nat) (ks : List Nat) : Team :=
  if t.openUpTo n then { t with olds := t.olds ++ (t.mappedOf ks).map (n, ·) } else t

/-- The result of `p` lands: in the registers, and in what later instructions would return to (R34). -/
def Team.landOne (t : Team) (p : Pending) : Team :=
  let t := t.displace p.num p.keys
  { t with
    r := t.r.writes (p.landing none)
    pend := t.pend.map fun q =>
      if p.num < q.num then { q with snap := q.snap.writes (p.landing (some q.num)) } else q }

def Team.landAll (t : Team) : List Pending → Team
  | [] => t
  | p :: r => (t.landOne p).landAll r

/-- Land the performed results that `f` names, and forget them. -/
def Team.landWhere (t : Team) (f : Pending → Bool) : Team :=
  let t := t.landAll (t.pend.filter fun p => p.performed && f p)
  { t with pend := t.pend.filter fun p => !(p.performed && f p) }

/-- Results due at instruction `k` of clause `serial`. -/
def Team.settle (t : Team) (k serial : Nat) : Team := t.landWhere (·.over k serial)

/-- Instruction `k` must wait for a result: one whose window is over, or one of LA = 15 that it reads (R32, R33). -/
def Team.mustWait (t : Team) (k serial : Nat) (reads : List RegRef) : Bool :=
  t.pend.any fun p => !p.performed && !p.dsts.isEmpty && p.over k serial &&
    (decide (p.la < 15) || p.dsts.any reads.contains)

/-- No earlier instruction has open checks (R34). -/
def Team.closed (t : Team) : Bool := t.pend.all fun p => !p.open_

/-- The array queue is empty (R193). -/
def Team.arrayQuiet (t : Team) : Bool := t.mtx.all fun m => m.queue.isEmpty

/-- A fault may be delivered: checks of earlier instructions closed, their results written, the array queue drained (R18,
R193, R218). -/
def Team.deliverable (t : Team) : Bool :=
  t.arrayQuiet && t.pend.all fun p => !p.open_ && (decide (p.la = 15) || p.dsts.isEmpty || p.performed)

/-! ## The handler's bank (R83, R218) -/

/-- The team's own s60-s63 while the handler runs. -/
def Team.bank (t : Team) : List W64 := (List.range 4).map fun k => t.r.sget (64 + k)

/-- A reference to s60-s63 becomes one to their banked place, and back. -/
def RegRef.bankOut : RegRef → RegRef
  | .s i => if within i 60 63 then .s (i + 4) else .s i
  | x => x
def RegRef.bankIn : RegRef → RegRef
  | .s i => if within i 64 67 then .s (i - 4) else .s i
  | x => x
def RegWrite.mapRef (f : RegRef → RegRef) : RegWrite → RegWrite
  | .s i x => match f (.s i) with
    | .s k => .s k x
    | .v k => .s k x
  | w => w
def Pending.mapRef (f : RegRef → RegRef) (b : Bool) (p : Pending) : Pending :=
  { p with
    dsts := p.dsts.map f
    dropped := p.dropped.map fun (d, n) => (f d, n)
    land := p.land.map (RegWrite.mapRef f)
    banked := b }

/-- s60-s63 are banked; results on their way to them go to the bank (R83). -/
def Team.enterBank (t : Team) : Team :=
  { t with
    r := (List.range 4).foldl (fun r k => r.sset (64 + k) (r.sget (60 + k))) t.r
    pend := t.pend.map (Pending.mapRef .bankOut true) }

/-- A result of a handler's instruction for s60-s63 has no place outside the handler. -/
def Pending.leaveBank (p : Pending) : Pending :=
  if p.banked then p.mapRef .bankIn false
  else { p with dropped := p.dropped ++ (p.dsts.filter fun d => d.bankOut != d).map (·, 0) }

/-- s60-s63 return from the bank (R219). -/
def Team.leaveBank (t : Team) : Team :=
  { t with
    r := (List.range 4).foldl (fun r k => (r.sset (60 + k) (r.sget (64 + k))).sset (64 + k) 0) t.r
    pend := t.pend.map Pending.leaveBank }

/-! ## Taking a fault (R218, R220) -/

/-- The handler entry for a team of level `lvl`, and its region. -/
def State.vector (s : State) (t : Team) : W64 × Region3 :=
  if t.level = 2 then (s.mr 0x180, ⟨s.mr 0x181, s.mr 0x182, s.mr 0x183⟩)
  else (s.pr t.part 0x100, ⟨s.pr t.part 0x101, s.pr t.part 0x102, s.pr t.part 0x103⟩)

/-- Fault 0x0B: the team is killed; SUPNODE learns of the inner code (R220). -/
def State.doubleFault (s : State) (t : Team) (f : FaultRec) : State :=
  let s := s.setTeam { t with
    trap := none
    holdOn := none
    trapPkt := none
    stat := .killing 0x0B }
  let s := s.traceTrap t 0 0x0B f.pc
  s.sendSup t.part [t.id, 0x0B#32, BitVec.ofNat 32 f.code, lo32 f.pc, hi32 f.pc]

/-- The fault record of the instruction at which the team stands: at a header, the clause's first instruction. -/
def Team.faultAt (t : Team) (code : Nat) (info s62 : W64) : FaultRec :=
  match t.r.cl with
  | some c => ⟨code, info, s62, t.r.pc, some c, false, none⟩
  | none => ⟨code, info, s62, t.r.pc + 8#64, none, true, none⟩

/-- The team in the handler for fault `f`, before its arrival there. -/
def Team.inHandler (t : Team) (f : FaultRec) : Team :=
  let u := t.enterBank
  { u with
    r := (((u.r.sset 60 (BitVec.ofNat 64 f.code)).sset 61 f.info).sset 62 f.s62).sset 63 f.pc
    slvl := t.level
    hnd := true
    level := max t.level 1
    fault := some f
    trap := none
    holdOn := none
    wd := 0
    cmpIgnore := []
    trapPkt := some (f.code, f.pc)
    stopReq := if t.step then some 0x81 else t.stopReq
    step := false }

/-- The team goes to the handler's entry `vec`; a fill there that meets poison is a fault in the handler. -/
def State.enterHandler (s : State) (t : Team) (f : FaultRec) (vec : W64) : State :=
  match s.arriveFrom (t.inHandler f) vec (t.inHandler f).steps with
  | (s, u, bad) => if bad then (s.setTeam u).doubleFault u (u.faultAt 0x40 0 noLane) else s.setTeam u

/-- The fault `f` of team `t`, whose results have landed, goes to the handler, or is a fault in it (R218, R220). -/
def State.deliver (s : State) (t : Team) (f : FaultRec) : State :=
  if t.hnd then s.doubleFault t f
  else
    let (vec, region) := s.vector t
    if vec.extractLsb' 0 3 == 0#3 && vec.extractLsb' 56 8 == 0#8 && Region3.holds region vec then
      match s.mapBit t region vec with
      | (s, some true) => s.enterHandler t f vec
      | (s, _) => s.doubleFault t f
    else s.doubleFault t f

/-- R218: the fault `f` of team `t` is delivered. -/
def State.takeFault (s : State) (t : Team) (f : FaultRec) : State :=
  s.deliver { t.landWhere fun p => decide (p.la < 15) with lost := none } f

/-- A fault raised at the instruction where team `t` stands: delivered now, or held until the earlier instructions have
passed their checks (R218). -/
def State.raise (s : State) (t : Team) (f : FaultRec) : State :=
  if t.deliverable then s.takeFault t f else s.setTeam { t with trap := some f }

/-- The team arrives at header `h` (R103); a fill that meets poison faults there, with s61 = 0 and s62 all ones: the spill area
has no virtual address, and the manual gives neither (log 128). -/
def State.arrive (s : State) (t : Team) (h : W64) : State :=
  match s.arriveFrom t h t.steps with
  | (s, t, false) => s.setTeam t
  | (s, t, true) => s.raise t (t.faultAt 0x40 0 noLane)

end Sys2Proof.Machine
end

