-- ==== Sys2Proof/Machine/Issue.lean ====
section
/-!
DEFINITION. Issuing an instruction: what every machine instruction goes through before and after its own effect (R13,
R29-R36, R40, R240, R398), and the one operation `issue` that all meanings are given to.
-/
namespace Sys2Proof.Machine

/-! ## Registers an instruction touches -/

structure Access where
  rv : List Nat
  rs : List Nat
  wv : List Nat
  ws : List Nat
  lr : List Nat
  deriving DecidableEq, Repr

def span (i n : Nat) : List Nat := (List.range n).map (i + ·)

/-- The registers of a source field; `n` in place of its width where the instruction reads a run. -/
def fldAccess (f : Fld) (n : Option Nat) : Access :=
  match f with
  | .op (.v i l) u =>
    let regs := span i.val (n.getD (u.v.getD 1))
    ⟨regs, [], [], [], if l then regs else []⟩
  | .op (.s i) u => ⟨[], span i.val (n.getD (u.s.getD 1)), [], [], []⟩
  | _ => ⟨[], [], [], [], []⟩

def dstAccess : DFld → Access
  | .op (.v i) u => ⟨[], [], span i.val (u.v.getD 1), [], []⟩
  | .op (.s i) u => ⟨[], [], [], span i.val (u.s.getD 1), []⟩
  | _ => ⟨[], [], [], [], []⟩

def guardAccess : Guard → Access
  | .vec i _ _ => ⟨[i.val], [], [], [], []⟩
  | .scal i _ _ => ⟨[], [i.val], [], [], []⟩
  | .none => ⟨[], [], [], [], []⟩

def Access.join (a b : Access) : Access := ⟨a.rv ++ b.rv, a.rs ++ b.rs, a.wv ++ b.wv, a.ws ++ b.ws, a.lr ++ b.lr⟩

/-- The instruction keeps part of its destination or reads it: it reads D too. -/
def readsDest (opc md : Nat) : Bool :=
  opc == 0x11 || opc == 0x16 || opc == 0x2C || (opc == 0x18 && decide (4 ≤ md)) || opc == 0x53 || opc == 0x55 ||
    opc == 0x65 || opc == 0x79 || opc == 0x87 || opc == 0x98

/-- Registers read and written; `n` is the run of registers that operand A names, where its width does not say it. With
REU the run is released but not read (R188). `mma` and `mloop` read s[D] and write no register (R185). -/
def encAccess (e : Enc) (n : Option Nat) : Access :=
  let a := fldAccess e.a n
  let a := if e.reu then { a with rv := [] } else a
  let d := dstAccess e.d
  let d := if e.opc = 0xA1 ∨ e.opc = 0xA2 then { d with
      rs := d.ws
      ws := [] }
    else if readsDest e.opc e.md then { d with
      rv := d.wv
      rs := d.ws }
    else d
  (guardAccess e.g).join (a.join ((fldAccess e.b none).join ((fldAccess e.c none).join d)))

def Access.reads (a : Access) : List RegRef := a.rv.map .v ++ a.rs.map .s
def Access.kills (a : Access) : List RegRef := a.wv.map .v ++ a.ws.map .s ++ a.lr.map .v

/-! ## The opcode map: counters and levels (R43) -/

def counterOf (opc : Nat) : Option Nat :=
  if opc = 0x80 ∨ opc = 0x81 ∨ opc = 0x84 ∨ opc = 0x8B ∨ opc = 0x8C ∨ opc = 0x8F ∨ opc = 0xD4 ∨ opc = 0xD5 then some 0
  else if opc = 0x90 then some 2
  else if opc = 0x91 ∨ opc = 0x94 ∨ opc = 0x96 then none
  else if within opc 0x82 0x99 then some 1
  else if within opc 0xA0 0xA5 then some 3
  else if opc = 0xB3 ∨ opc = 0xC7 then none
  else if within opc 0xB0 0xC8 then some 4
  else if within opc 0xD0 0xD3 then some 5
  else none

/-- The level an instruction needs (R40). -/
def levelOf : Instr → Nat
  | .tretFix _ | .tretSkip _ | .tretRetry _ | .tretKill _ | .ckpt _ | .ringrst _ => 1
  | .presize _ | .plend _ | .prevoke _ | .pgret _ => 2
  | .srd .clock _ _ => 1
  | .sysrd n _ _ => ((sysInfo n.toNat).bind (·.rd)).getD 0
  | .dbgdataRead _ _ => 1
  | .syswr w | .gptrootWrite w | .hptrootWrite w | .scrsplitWrite w | .domcfgWrite w | .dtimeWrite w | .gtoffWrite w
  | .modeWrite w | .saferstWrite w | .profctlWrite w | .pmselWrite w | .trcctlWrite w | .dbgdataWrite w =>
    ((sysInfo w.n.toNat).bind (·.wr)).getD 0
  | _ => 0

/-- The instruction acts outside the team's registers when it issues, so it issues only behind closed checks (R34). -/
def needsClosed (opc : Nat) : Bool :=
  opc == 0x82 || opc == 0x83 || opc == 0x8A || opc == 0x92 || opc == 0x93 || opc == 0x95 || opc == 0x96 || within opc 0xA0 0xC8 ||
    within opc 0xD0 0xD3 || (within opc 0xE1 0xEB && opc != 0xE5)

def teamWide (opc : Nat) : Bool := within opc 0x76 0x7B

/-! ## Fills of absent entries (R240) -/

/-- The mask words in which the instruction reads its guard register: a guard of `bcast` is read by each pass (R128). -/
def guardWords (t : Team) (e : Enc) : List Nat :=
  if teamWide e.opc && e.opc != 0x77 then t.words else t.passWords

/-- The absent entries of the guard register, which the instruction fills first: the other fills depend on its lanes. -/
def guardKeys (t : Team) (e : Enc) : List (Nat × Nat) :=
  ((guardWords t e).flatMap fun w => (guardAccess e.g).rv.map fun n => (n, w)).filter fun (n, w) => t.r.entry n w == .absent

/-- The mask words in which the instruction reads its vector operands. -/
def readWords (s : State) (t : Team) (e : Enc) : List Nat :=
  if e.opc = 0x77 then
    match e.b with
    | .op b _ => t.words.filter (· == (uni s t b).toNat / 32)
    | _ => []
  else if teamWide e.opc then t.words
  else if within e.opc 0xA0 0xAF then t.words.filter (decide <| · < 2)
  else t.passWords

/-- The entries an instruction fills after its guard register's, by mask word; `a` is what it reads but for its guard. -/
def fillKeys (s : State) (t : Team) (e : Enc) (a : Access) : List (Nat × Nat) :=
  let act := t.active e.g
  let part (w : Nat) : Bool :=
    let k := (act.filter (· / 32 == w)).length
    decide (0 < k) && decide (k < 32)
  let rd := (readWords s t e).flatMap fun w => a.rv.map fun n => (n, w)
  let wr := (t.passWords.filter part).flatMap fun w => a.wv.map fun n => (n, w)
  (rd ++ wr).filter fun (n, w) => t.r.entry n w == .absent

/-- Fill the entries in order; a poisoned one faults with the lowest lane of its word. -/
def State.fillAll (s : State) (t : Team) : List (Nat × Nat) → State × Team × Option Nat
  | [] => (s, t, none)
  | (n, w) :: r =>
    if t.r.entry n w = .absent then
      let base := s.ctxBase t + 0x1_0000 + 128 * vkey n w
      if (List.range 4).any fun k => s.poisoned (base + 32 * k) then (s, t, some (32 * w))
      else
        let g := BitVec.ofNat 1024 (s.readPhys base 128)
        let t := { t with
          r := { t.r with v := t.r.v.set .none (vkey n w) (.mapped g) }
          gfills := t.gfills + 1 }
        ((s.bump t.part 0x156 1).countEvent t.part (dieOfCore t.core) 0x00C 1).fillAll t r
    else s.fillAll t r

/-! ## Granules of a slot (R237, R238) -/

/-- What admission reserved for a team. -/
def Team.reserved (s : State) (t : Team) : Nat :=
  match t.node? s with
  | some n => (fld n.desc 1 40 34 + 4) * (t.w / 32)
  | none => 0
def Team.mappedCount (t : Team) : Nat :=
  (t.r.v.filter fun (_, e) => match e with
    | .mapped _ => true
    | _ => false).length
/-- The granules that results on their way have taken (R239), one for each entry they write. -/
def Team.onWay (t : Team) : List Nat := t.pend.flatMap Pending.keys
/-- Old granules that must still be held for an undo (R239). -/
def Team.liveOlds (t : Team) : List (Nat × Nat) := t.olds.filter fun (n, _) => t.openUpTo n
/-- The granules that a team holds: mapped, taken by results on their way, and old. -/
def Team.granules (t : Team) : Nat := t.mappedCount + t.onWay.length + t.liveOlds.length

/-- Teams that hold a place on core `c`. -/
def State.residents (s : State) (c : Nat) : List Team := (s.teams.map (·.2)).filter fun t => t.core == c && t.stat != .saved

/-- The granules of slot `k` of core `c` that teams hold or have reserved, but for team `t`. -/
def State.granulesTaken (s : State) (c k : Nat) (t : Option TeamId) : Nat :=
  (((s.residents c).filter fun u => u.slot == k && some u.id != t).map fun u => max (u.reserved s) u.granules).sum

/-- The keys of the entries that an instruction writes: its vector destinations in each word with a participating lane. -/
def writeKeys (t : Team) (e : Enc) (a : Access) : List Nat :=
  let act := t.active e.g
  (t.passWords.filter fun w => act.any (· / 32 == w)).flatMap fun w => a.wv.map (vkey · w)

/-- The serial number of the clause in issue. -/
def Team.serial (t : Team) : Nat := (t.r.cl.map (·.serial)).getD 0

/-- Writes of the instruction go in place (R239): its checks complete at issue, it has no window, and no earlier
instruction has open checks or an open window. -/
def Team.inPlace (t : Team) (e : Enc) : Bool :=
  (counterOf e.opc).isNone && e.la.val == 0 &&
    t.pend.all fun p => !p.open_ && (p.dsts.isEmpty || p.over t.icount t.serial)

/-- The granules that writes to the entries `ks` take: one for each, but for those that are mapped, or filled first
(`fs`), and written in place. -/
def Team.newGranules (t : Team) (e : Enc) (fs ks : List Nat) : Nat :=
  if t.inPlace e then (ks.filter fun k => (t.mappedOf [k]).isEmpty && !fs.contains k).length else ks.length

/-- A pass beyond the team's reservation waits until the slot has `k` free granules (R238). -/
def State.granulesShort (s : State) (t : Team) (k : Nat) : Bool :=
  decide (t.reserved s < t.granules + k) && decide (0 < k) &&
    decide (4096 < s.granulesTaken t.core t.slot (some t.id) + t.granules + k)

/-- The old granules that the team holds, those that results on their way will displace among them. -/
def Team.oldCount (t : Team) : Nat := t.liveOlds.length + (t.mappedOf t.onWay).length

/-- A write that would hold more than 4 x W/32 old granules waits for the checks of the earlier instructions (R239)
(log 103). -/
def Team.oldsFull (t : Team) (e : Enc) (ks : List Nat) : Bool :=
  !t.inPlace e && !t.closed && decide (t.w / 8 < t.oldCount + (t.mappedOf ks).length)

/-! ## The scalar undo buffer (R87) -/

/-- The entries still needed: an earlier instruction has open checks. -/
def Team.undoHeld (t : Team) : List Nat := t.sbuf.filter fun n => t.pend.any fun p => p.open_ && decide (p.num < n)

/-- `k` scalar registers written at issue find no place in the undo buffer (log 103). -/
def Team.undoFull (t : Team) (k : Nat) : Bool := !t.closed && decide (0 < k) && decide (4 < t.undoHeld.length + k)

/-- Scalar registers that the instruction writes when it issues. -/
def scalarWrites (e : Enc) (a : Access) : Nat := if (counterOf e.opc).isNone then a.ws.length else 0

/-- Instruction `k` issues: its scalar writes take undo entries, the granules it displaces stay held. -/
def Team.noteUndo (t : Team) (e : Enc) (a : Access) : Team :=
  let u := if (counterOf e.opc).isNone && e.la.val == 0 then t.displace t.icount (writeKeys t e a) else t
  { u with sbuf := if t.closed then [] else t.undoHeld ++ List.replicate (scalarWrites e a) t.icount }

/-- R36: the lowest register read that holds no value in any word. -/
def Regs.unwritten (r : Regs) (n : Nat) : Bool := !r.v.any fun (k, _) => k / 32 == n
def Team.releasedRead (t : Team) (a : Access) : Option Nat :=
  (List.range 64).find? fun n => a.rv.contains n && t.r.unwritten n

/-! ## Comparators (R397-R399) -/

/-- Comparator `c` is on for team `t` and is not ignored at this issue. -/
def State.cmpOn (s : State) (t : Team) (c : Nat) : Bool :=
  let ctl := s.pr t.part (0x120 + 4 * c)
  ctl.getLsbD 0 && (!ctl.getLsbD 3 || (bitsOf ctl 39 32 == t.gslot && bitsOf ctl 31 16 == t.node))
    && !t.cmpIgnore.contains c && !(t.hnd && !(s.pr t.part 0x110).getLsbD 1)

def State.cmpKind (s : State) (t : Team) (c : Nat) : Nat := bitsOf (s.pr t.part (0x120 + 4 * c)) 2 1

/-- The comparator whose PC match names the team's PC. -/
def State.pcMatch (s : State) (t : Team) : Option Nat :=
  (List.range 8).find? fun c => s.cmpOn t c && s.cmpKind t c == 0 && s.pr t.part (0x121 + 4 * c) == t.r.pc

/-- A lane's range of bytes: lane (or all ones), address, length. -/
structure Watched where
  lane : Option Nat
  va : Nat
  len : Nat
  deriving DecidableEq, Repr

/-- The lowest address in both ranges. -/
def overlapAt (a n b m : Nat) : Option Nat :=
  let lo := max a b
  if lo < a + n ∧ lo < b + m then some lo else none

structure Hit where
  c : Nat
  addr : Nat
  lane : Option Nat
  deriving DecidableEq, Repr

def lowerHit (a b : Hit) : Hit := if b.addr < a.addr then b else a

/-- The watch that matches the ranges (R398): the lowest matching lane, its lowest matching byte. -/
def State.watchHit (s : State) (t : Team) (reads writes : Bool) : List Watched → Option Hit
  | [] => none
  | w :: r =>
    let hits := (List.range 8).filterMap fun c =>
      let k := s.cmpKind t c
      if s.cmpOn t c ∧ ((writes ∧ (k = 1 ∨ k = 3)) ∨ (reads ∧ (k = 2 ∨ k = 3))) then
        (overlapAt (s.pr t.part (0x121 + 4 * c)).toNat (s.pr t.part (0x122 + 4 * c)).toNat w.va w.len).map (⟨c, ·, w.lane⟩)
      else none
    match hits with
    | h :: hs => some (hs.foldl lowerHit h)
    | [] => s.watchHit t reads writes r

/-! ## What an effect answers -/

/-- The answer of an instruction's own effect. -/
inductive Eff where
  /-- Done; the PC goes to the next instruction or falls through. -/
  | ok (s : State)
  /-- Done; the team goes to the clause at `target`, which is checked first against the state before the effect. -/
  | goto (s : State) (target : W64)
  /-- Done, the PC included. -/
  | leave (s : State)
  /-- The same, with the account of the issue already made. -/
  | done (s : State)
  /-- The instruction has issued and holds the team (R227, R290, R380): the place after it is checked, and taken when the
  hold ends. -/
  | hold (s : State)
  /-- A fault at this instruction: code, s61, s62. -/
  | fault (code : Nat) (info s62 : W64)
  /-- The same, after a change at a home that the fault's rule makes. -/
  | faultIn (s : State) (code : Nat) (info s62 : W64)
  /-- A match of comparator `c`, or `bkpt` (`none`): it traps, or stops the team for the debugger (R399, R224). -/
  | debug (code : Nat) (info s62 : W64) (c : Option Nat)
  /-- Nothing happens yet. -/
  | wait

/-- The stop of a team for the debugger: it waits for its save point (R400); what the record will hold stands in
`stopRec`. -/
def State.debugStop (s : State) (t : Team) (code : Nat) (info s62 : W64) : State :=
  s.setTeam { t with
    stopReq := some code
    stopRec := some (t.faultAt code info s62) }

/-- A match of comparator `c`, or a `bkpt`, at the team's instruction. -/
def State.debugEvent (s : State) (t : Team) (code : Nat) (info s62 : W64) (c : Option Nat) : State :=
  if (s.pr t.part 0x110).getLsbD 1 then s.debugStop t code info s62
  else s.raise t { t.faultAt code info s62 with cmp := c }

/-! ## The gate -/

/-- A version load of the team is parked: the team leaves issue (R333). -/
def Team.parked (t : Team) : Bool := t.pend.any fun p => match p.kind with
  | .ldv _ _ _ _ (some _) => !p.performed
  | _ => false

/-- The team may issue: it runs, is held for nothing, is not on its way to another core, and its partition and die let it. -/
def State.runnable (s : State) (t : Team) : Bool :=
  let p := s.part t.part
  t.stat == .running && !t.migr && !t.parked && t.holdOn.isNone && t.trap.isNone && t.stopReq.isNone && !p.frozen && !p.freezing &&
    !p.resetReq && (!s.turned t.part || p.onTurn) && !(s.die (dieOfCore t.core)).replay.halted

/-- The port a clause issues on (R14). -/
def vectorPort (hdr : W64) : Bool := (Header.ofWord hdr).ecl == 1

/-- Another team of the slot holds the port with a clause in issue (R14). -/
def State.portBusy (s : State) (t : Team) (vec : Bool) : Bool :=
  s.teams.any fun (_, u) => u.id != t.id && u.core == t.core && u.slot == t.slot && u.stat == .running && u.port &&
    u.r.cl.any fun c => vectorPort c.hdr == vec

/-- The result of the gate: wait, the guard is false, a fault or stop, or issue with the team after its fills. -/
inductive Gate where
  | wait
  | off (s : State) (t : Team)
  | fault (s : State) (t : Team) (code : Nat) (info s62 : W64)
  | debug (t : Team) (c : Nat)
  | go (s : State) (t : Team)

/-- The team as its instruction finds it: results due are in the registers, the port is held. -/
def Team.arrived (t : Team) (cl : Clause) : Team := { t.settle t.icount cl.serial with port := true }

/-- Room for the instruction, which fills the entries `fs` (R87, R238, R239). -/
def State.writeRoom (s : State) (t : Team) (e : Enc) (a : Access) (fs : List Nat) : Bool :=
  let ks := writeKeys t e a
  !s.granulesShort t (fs.length + t.newGranules e fs ks) && !t.oldsFull e ks && !t.undoFull (scalarWrites e a)

/-- The waits of the instruction for a counter and for earlier checks. -/
def Team.counterFree (t : Team) (e : Enc) : Bool :=
  (match counterOf e.opc with
    | some c => decide (t.cnt c < 63)
    | none => true) && (!needsClosed e.opc || t.closed)

/-- The fills of an instruction, first of its guard register, then of its operands and destination; `none` to wait. -/
def State.fills (s : State) (t : Team) (e : Enc) (a : Access) : Option (State × Team × Option Nat) :=
  let gk := guardKeys t e
  if s.granulesShort t gk.length then none
  else match s.fillAll t gk with
    | (s, t, some l) => some (s, t, some l)
    | (s, t, none) =>
      let keys := (fillKeys s t e a).eraseDups
      if s.writeRoom t e a (keys.map fun (n, w) => vkey n w) then some (s.fillAll t keys) else none

/-- The run of registers that operand A names, where its width does not say it: a function of the team as the instruction
finds it. -/
abbrev RunOf := State → Team → Option Nat
/-- No run: the widths of the fields say all. -/
def noRun : RunOf := fun _ _ => none

/-- Everything before the effect of instruction `i` (encoding `e`) at the PC of team `t`: the guard's register, then, where
the guard holds, the others, are waited for (R29-R33). -/
def State.gate (s : State) (t : Team) (i : Instr) (e : Enc) (n : RunOf) : Gate :=
  match t.r.cl with
  | none => .wait
  | some cl =>
    if !s.runnable t || (!t.port && s.portBusy t (vectorPort cl.hdr)) ||
        t.mustWait t.icount cl.serial (guardAccess e.g).reads then .wait
    else
      let t := t.arrived cl
      let a := encAccess e (n s t)
      if !guardUni e.g t.r then .off s t
      else if t.mustWait t.icount cl.serial a.reads then .wait
      else match s.pcMatch t with
        | some c => .debug t c
        | none =>
          if t.level < levelOf i then .fault s t 0x06 0 noLane
          else if !t.counterFree e then .wait
          else match s.fills t e a with
            | none => .wait
            | some (s, t, some l) => .fault s t 0x40 0 (BitVec.ofNat 64 l)
            | some (s, t, none) =>
              match (if (s.pr t.part 0x110).getLsbD 0 then t.releasedRead a else none) with
              | some r => .fault s t 0x04 (BitVec.ofNat 64 r) noLane
              | none => .go s t

/-! ## Accounting (R409) -/

/-- Clocks a pass takes (R114). -/
def passClocks (opc md : Nat) : Nat :=
  if within opc 0x66 0x6C then 4
  else if (within opc 0x42 0x44 || opc == 0x57) && decide (md < 2) then 2
  else 1

def log2up (w : Nat) : Nat := (List.range 11).find? (fun k => decide (w ≤ 2 ^ k)) |>.getD 10

/-- The lane-cycle record of one instruction on the vector port; `on` when its scalar guard holds. -/
def State.account (s : State) (t : Team) (e : Enc) (on : Bool) : State :=
  match t.r.cl with
  | none => s
  | some c =>
    if (Header.ofWord c.hdr).ecl != 1 then s
    else if within e.opc 0x40 0x75 then
      let s := s.countEvent t.part (dieOfCore t.core) 0x002 t.passWords.length
      s.lccPasses t t.passWords (if on then t.active e.g else []) (passClocks e.opc e.md)
    else if teamWide e.opc && on then
      let s := s.lccPasses t t.words (t.active e.g) 1
      if e.opc = 0x7A ∨ e.opc = 0x7B then s.lccActive t (log2up t.w) else s
    else s.lccActive t 1

/-! ## Leaving work behind -/

/-- The scope at which an instruction releases (R148). -/
def PKind.release : PKind → Option Scope
  | .store _ rel _ | .stv _ rel => rel
  | .atomic _ _ _ sc o _ _ => if o = .rel ∨ o = .acqrel then some sc else none
  | _ => none
/-- The team issues a release (R208). -/
def Team.released (t : Team) : Option Scope → Team
  | none => t
  | some sc => { t with relAt := some (match t.relAt with
    | some o => if o.code < sc.code then sc else o
    | none => sc) }

/-- The instruction at which `t` stands leaves `k` behind (R13, R32): `ctr` rises until it is performed. -/
def State.pendAdd (s : State) (t : Team) (la : Fin 16) (ctr : Option Nat) (k : PKind) (open_ performed : Bool)
    (dsts : List RegRef) (land : List RegWrite) : State :=
  let serial := match t.r.cl with
    | some c => c.serial
    | none => 0
  s.modTeam t.id fun u =>
    let u := { u.released k.release with
      nseq := u.nseq + 1
      pend := u.pend ++ [⟨u.nseq, t.icount, serial, ctr, la.val, k, open_, performed, dsts, [], land, t.r, false⟩] }
    match ctr with
    | some c => u.addCnt c
    | none => u

/-- A result known at issue: written at once without lookahead, otherwise when its window is over. -/
def State.resultWrites (s : State) (t : Team) (la : Fin 16) (dsts : List RegRef) (ws : List RegWrite) : State :=
  if la.val = 0 then s.modTeam t.id fun u => u.apply ws
  else s.pendAdd t la none .result false true dsts ws

/-! ## After the effect -/

/-- Instruction number `k` overtakes pending results in the registers it writes or releases. -/
def Team.overtake (t : Team) (k : Nat) (kills : List RegRef) : Team :=
  { t with pend := t.pend.map fun p =>
      if p.num < k then { p with dropped := p.dropped ++ ((p.dsts.filter kills.contains).map (·, k)) } else p }

/-- The instruction has issued: its number is used, the watchdog restarts, a step ends. -/
def Team.retired (t : Team) : Team :=
  { t with
    icount := t.icount + 1
    wd := 0
    cmpIgnore := []
    stopReq := if t.step then some 0x81 else t.stopReq
    step := false }

/-- The place after the instruction: the next word of the clause, or the next clause's header. -/
def Team.isLast (t : Team) : Bool :=
  match t.r.cl with
  | some c => decide (c.words.length ≤ c.at t.r.pc + 1)
  | none => true

def Team.nextClause (t : Team) : W64 :=
  match t.r.cl with
  | some c => c.next
  | none => t.r.pc

/-- YLD (R12, R16): after a clause with YLD, `t`'s slot switches to another ready team when it issues next. -/
def State.yieldAfter (s : State) (t : Team) : State :=
  match t.r.cl with
  | some c => if c.hdr.getLsbD 42 then s.modTeam t.id fun u => { u with yld := true } else s
  | none => s

/-- The team leaves the instruction at which `t` stood. -/
def State.moveOn (s : State) (t : Team) : State :=
  if t.isLast then
    match s.team? t.id with
    | some u => (s.arrive u t.nextClause).yieldAfter u
    | none => s
  else s.modTeam t.id fun u => { u with r := { u.r with pc := t.r.pc + 8#64 } }

/-- Go on after the instruction at which `t` stood: `s` is the state after its effect. -/
def State.advance (s : State) (t : Team) : State := (s.modTeam t.id Team.retired).moveOn t

/-- The registers that the instruction overtakes: none where no lane takes part. -/
def killsOf (t : Team) (e : Enc) (a : Access) : List RegRef :=
  a.lr.map .v ++ (if a.wv.isEmpty || !(t.active e.g).isEmpty then a.wv.map .v ++ a.ws.map .s else [])

/-- The state an effect starts from: last-read operands released (R35), earlier pending results overtaken. A destination
that is also a last-read operand is released before it is written, so that its lanes that the instruction does not write
read zero (log 101). -/
def State.prepare (s : State) (t : Team) (e : Enc) (a : Access) : State :=
  (s.setTeam { (t.noteUndo e a).overtake t.icount (killsOf t e a) with r := t.r.releaseAll a.lr }).account t e true

/-- The fall-through check of a last instruction (R17), made before its effect (log 8). -/
def State.fallsInto (s : State) (t : Team) : State × Option Nat :=
  if t.isLast then s.checkTarget t t.nextClause else (s, none)

/-- What becomes of an effect's answer: `s` the state before it, `t` the team there. -/
def State.conclude (s : State) (t : Team) (r : Eff) : State :=
  match r with
  | .wait => s.wait
  | .fault code info s62 => s.raise t (t.faultAt code info s62)
  | .faultIn s' code info s62 => s'.raise t (t.faultAt code info s62)
  | .debug code info s62 c => s.debugEvent t code info s62 c
  | .leave s' => (s'.modTeam t.id Team.retired).yieldAfter t
  | .done s' => s'
  | .hold s' =>
    match s.fallsInto t with
    | (s, some code) => s.raise t (t.faultAt code t.nextClause noLane)
    | (_, none) => s'.modTeam t.id Team.retired
  | .ok s' =>
    match s.fallsInto t with
    | (s, some code) => s.raise t (t.faultAt code t.nextClause noLane)
    | (_, none) => s'.advance t
  | .goto s' target =>
    match s.checkTarget t target with
    | (s, some code) => s.raise t (t.faultAt code target noLane)
    | (_, none) =>
      let s' := s'.modTeam t.id Team.retired
      match s'.team? t.id with
      | some u => (s'.arrive u target).yieldAfter u
      | none => s'

/-- The trace of a transfer whose scalar guard is false (R391). -/
def State.traceNotTaken (s : State) (t : Team) (opc : Nat) : State :=
  if opc = 0x30 ∨ within opc 0x32 0x35 ∨ opc = 0x38 then s.traceUni t 1 else s

/-- Issue instruction `i` of the team selected to issue. `eff` is the instruction's own effect: it reads the team it is
given and changes the state it is given. -/
def issueRun (n : RunOf) (i : Instr) (eff : State → Team → Eff) (s : State) : Host.Outcome State Fault Refusal :=
  match s.cur, i.enc with
  | some t, some e =>
    match s.gate t i e n with
    | .wait => .next s.wait
    | .off s t =>
      .next ((s.setTeam t).conclude t (.ok (((s.setTeam t).account t e false).traceNotTaken t e.opc)))
    | .fault s t code info s62 => .next (s.raise t (t.faultAt code info s62))
    | .debug t c => .next (s.debugEvent t 0x71 t.r.pc noLane (some c))
    | .go s t => .next ((s.setTeam t).conclude t (eff (s.prepare t e (encAccess e (n s t))) t))
  | _, _ => .fault .noTeam

def issue (i : Instr) (eff : State → Team → Eff) (s : State) : Host.Outcome State Fault Refusal :=
  issueRun noRun i eff s

end Sys2Proof.Machine
end

