-- ==== Sys2Proof/Machine/Ints.lean ====
section
/-!
DEFINITION. Integer arithmetic of the scalar and vector units (R85, R88-R95, R111, R115-R120): a value is read from the
low bits of 64, computed exactly, narrowed, and extended again to 64 bits.
-/
namespace Sys2Proof.Machine

def iwBits : IW → Nat
  | .i64 | .n64 => 64
  | .i32 | .n32 => 32
  | .i16 | .n16 => 16
  | .i8 | .n8 => 8
def iwSigned : IW → Bool
  | .i64 | .i32 | .i16 | .i8 => true
  | _ => false
def isToIW : IS → IW
  | .i64 => .i64
  | .i32 => .i32
  | .i16 => .i16
  | .i8 => .i8
def bwBits : BW → Nat
  | .b64 => 64
  | .b32 => 32
  | .b16 => 16
  | .b8 => 8

/-- The low `w` bits, unsigned. -/
def lowU (w : Nat) (x : W64) : Nat := x.toNat % 2 ^ w
/-- The low `w` bits, two's complement. -/
def lowS (w : Nat) (x : W64) : Int := if lowU w x < 2 ^ (w - 1) then (lowU w x : Int) else (lowU w x : Int) - 2 ^ w
/-- The low `w` bits of `v`, zero-extended. -/
def keepU (w : Nat) (v : Nat) : W64 := BitVec.ofNat 64 (v % 2 ^ w)
/-- The low `w` bits of `v`, sign-extended. -/
def keepS (w : Nat) (v : Nat) : W64 := BitVec.ofInt 64 (lowS w (BitVec.ofNat 64 v))

/-- A value under an integer type. -/
def iVal (t : IW) (x : W64) : Int := if iwSigned t then lowS (iwBits t) x else (lowU (iwBits t) x : Int)
/-- An exact result narrowed to the type and extended (R85). -/
def iRes (t : IW) (v : Int) : W64 :=
  let n := (v % 2 ^ iwBits t).toNat
  if iwSigned t then keepS (iwBits t) n else keepU (iwBits t) n

def iAdd (t : IW) (x y : W64) : W64 := iRes t (iVal t x + iVal t y)
def iSub (t : IW) (x y : W64) : W64 := iRes t (iVal t x - iVal t y)
def iMul (t : IW) (x y : W64) : W64 := iRes t (iVal t x * iVal t y)
def iMulh (t : IW) (x y : W64) : W64 := iRes t (iVal t x * iVal t y / 2 ^ iwBits t)
def iMad (t : IW) (x y z : W64) : W64 := iRes t (iVal t x * iVal t y + iVal t z)
def iMin (t : IW) (x y : W64) : W64 := iRes t (min (iVal t x) (iVal t y))
def iMax (t : IW) (x y : W64) : W64 := iRes t (max (iVal t x) (iVal t y))
def iAbs (t : IS) (x : W64) : W64 := iRes (isToIW t) (iVal (isToIW t) x).natAbs
def iNeg (t : IS) (x : W64) : W64 := iRes (isToIW t) (-iVal (isToIW t) x)

def bAnd (t : BW) (x y : W64) : W64 := keepU (bwBits t) (x &&& y).toNat
def bOr (t : BW) (x y : W64) : W64 := keepU (bwBits t) (x ||| y).toNat
def bXor (t : BW) (x y : W64) : W64 := keepU (bwBits t) (x ^^^ y).toNat
def bNot (t : BW) (x : W64) : W64 := keepU (bwBits t) (~~~x).toNat
def bMov (t : BW) (x : W64) : W64 := keepU (bwBits t) x.toNat

/-- The shifts and the rotate, with the count read unsigned (R89, R116). -/
def bShl (t : BW) (x : W64) (n : Nat) : W64 := if n < bwBits t then keepU (bwBits t) (lowU (bwBits t) x * 2 ^ n) else 0
def bShr (t : BW) (x : W64) (n : Nat) : W64 := if n < bwBits t then keepU (bwBits t) (lowU (bwBits t) x / 2 ^ n) else 0
def bSar (t : BW) (x : W64) (n : Nat) : W64 :=
  keepU (bwBits t) (BitVec.ofInt 64 (lowS (bwBits t) x / 2 ^ min n (bwBits t))).toNat
def bRot (t : BW) (x : W64) (n : Nat) : W64 :=
  let w := bwBits t
  let k := n % w
  keepU w (lowU w x * 2 ^ k + lowU w x / 2 ^ (w - k))

def onesIn (x : Nat) : Nat → Nat
  | 0 => 0
  | k + 1 => (if x.testBit k then 1 else 0) + onesIn x k
def bPopc (t : BW) (x : W64) : W64 := BitVec.ofNat 64 (onesIn (lowU (bwBits t) x) (bwBits t))
def bClz (t : BW) (x : W64) : W64 :=
  let v := lowU (bwBits t) x
  BitVec.ofNat 64 (if v = 0 then bwBits t else bwBits t - 1 - Nat.log2 v)

/-- The clipped length of a bit field in `w` bits (R93, R118). -/
def fieldLen (w p n : Nat) : Nat := if w ≤ p ∨ n = 0 then 0 else min n (w - p)
def bfe (w : Nat) (t : SX) (x : W64) (p n : Nat) : W64 :=
  let k := fieldLen w p n
  if k = 0 then 0
  else
    let f := lowU w x / 2 ^ p % 2 ^ k
    match t with
    | .n => keepU k f
    | .i => keepU w (keepS k f).toNat
def bfi (w : Nat) (d x : W64) (p n : Nat) : W64 :=
  let k := fieldLen w p n
  if k = 0 then d
  else
    let m := (2 ^ k - 1) * 2 ^ p
    (d &&& ~~~BitVec.ofNat 64 m) ||| BitVec.ofNat 64 (lowU k x * 2 ^ p)

/-- A condition of set CMP on integers. -/
def cmpHolds (c : Cmp) (x y : Int) : Bool :=
  match c with
  | .eq => decide (x = y)
  | .ne => decide (x ≠ y)
  | .lt => decide (x < y)
  | .le => decide (x ≤ y)
  | .gt => decide (y < x)
  | .ge => decide (y ≤ x)
  | .uno => false
  | .ord => true
def scmpIW : ScmpTy → IW
  | .i64 => .i64
  | .n64 => .n64
  | .i32 => .i32
  | .n32 => .n32

/-- Bit `b` of `x` becomes `v`. -/
def putBit (x : W64) (b : Nat) (v : Bool) : W64 :=
  (x &&& ~~~(1#64 <<< b)) ||| (if v then 1#64 <<< b else 0#64)

/-- IMM16 sign-extended (R24). -/
def immS (i : BitVec 16) : W64 := i.signExtend 64

end Sys2Proof.Machine
end

