-- ==== Sys2Proof/Machine/Scalar.lean ====
section
/-!
DEFINITION. Scalar ALU instructions (R83-R95), `nop`, `yield` and `srd` (R100, R107, R108).
-/
namespace Sys2Proof.Machine

abbrev Out := Host.Outcome State Fault Refusal

/-- A scalar result. -/
def scalarRes (s : State) (t : Team) (d : Dest) (v : W64) : Eff :=
  .ok (s.modTeam t.id fun u => { u with r := u.r.sset (destIndex d) v })

def scal1 (x : RArgs) (f : W64 → W64) (s : State) (t : Team) : Eff := scalarRes s t x.d (f (uni s t x.a))
def scal2 (x : RArgs) (f : W64 → W64 → W64) (s : State) (t : Team) : Eff :=
  scalarRes s t x.d (f (uni s t x.a) (uni s t x.b))
def scal3 (x : RArgs) (f : W64 → W64 → W64 → W64) (s : State) (t : Team) : Eff :=
  scalarRes s t x.d (f (uni s t x.a) (uni s t x.b) (uni s t x.c))
def scalI (x : IArgs) (f : W64 → W64) (s : State) (t : Team) : Eff := scalarRes s t x.d (f (uni s t x.a))

def execNop (g : Guard) (s : State) : Out := issue (.nop g) (fun s _ => .ok s) s
def execSmov (t : BW) (x : RArgs) (s : State) : Out := issue (.smov t x) (scal1 x (bMov t)) s
def execSadd (t : IW) (x : RArgs) (s : State) : Out := issue (.sadd t x) (scal2 x (iAdd t)) s
def execSsub (t : IW) (x : RArgs) (s : State) : Out := issue (.ssub t x) (scal2 x (iSub t)) s
def execSmul (t : IW) (x : RArgs) (s : State) : Out := issue (.smul t x) (scal2 x (iMul t)) s
def execSmulh (t : IW) (x : RArgs) (s : State) : Out := issue (.smulh t x) (scal2 x (iMulh t)) s
def execSmad (t : IW) (x : RArgs) (s : State) : Out := issue (.smad t x) (scal3 x (iMad t)) s
def execSand (t : BW) (x : RArgs) (s : State) : Out := issue (.sand t x) (scal2 x (bAnd t)) s
def execSor (t : BW) (x : RArgs) (s : State) : Out := issue (.sor t x) (scal2 x (bOr t)) s
def execSxor (t : BW) (x : RArgs) (s : State) : Out := issue (.sxor t x) (scal2 x (bXor t)) s
def execSnot (t : BW) (x : RArgs) (s : State) : Out := issue (.snot t x) (scal1 x (bNot t)) s
def execSshl (t : BW) (x : RArgs) (s : State) : Out := issue (.sshl t x) (scal2 x fun a n => bShl t a n.toNat) s
def execSshr (t : BW) (x : RArgs) (s : State) : Out := issue (.sshr t x) (scal2 x fun a n => bShr t a n.toNat) s
def execSsar (t : BW) (x : RArgs) (s : State) : Out := issue (.ssar t x) (scal2 x fun a n => bSar t a n.toNat) s
def execSrot (t : BW) (x : RArgs) (s : State) : Out := issue (.srot t x) (scal2 x fun a n => bRot t a n.toNat) s
def execSmin (t : IW) (x : RArgs) (s : State) : Out := issue (.smin t x) (scal2 x (iMin t)) s
def execSmax (t : IW) (x : RArgs) (s : State) : Out := issue (.smax t x) (scal2 x (iMax t)) s

/-- R91: one bit of the destination. -/
def scmpEff (cond : Cmp) (ty : ScmpTy) (bit : Fin 64) (x : RArgs) (s : State) (t : Team) : Eff :=
  let v := cmpHolds cond (iVal (scmpIW ty) (uni s t x.a)) (iVal (scmpIW ty) (uni s t x.b))
  scalarRes s t x.d (putBit (t.r.sget (destIndex x.d)) bit.val v)
def execScmp (cond : Cmp) (ty : ScmpTy) (bit : Fin 64) (x : RArgs) (s : State) : Out :=
  issue (.scmp cond ty bit x) (scmpEff cond ty bit x) s

def execSsel (x : RArgs) (s : State) : Out := issue (.ssel x) (scal3 x fun a b c => if c = 0 then b else a) s
def execSpopc (t : BW) (x : RArgs) (s : State) : Out := issue (.spopc t x) (scal1 x (bPopc t)) s
def execSclz (t : BW) (x : RArgs) (s : State) : Out := issue (.sclz t x) (scal1 x (bClz t)) s
def execSbfe (t : SX) (x : RArgs) (s : State) : Out :=
  issue (.sbfe t x) (scal3 x fun a p n => bfe 64 t a (lowU 8 p) (lowU 8 n)) s

/-- R93: `sbfi` keeps the other bits of its destination. -/
def sbfiEff (x : RArgs) (s : State) (t : Team) : Eff :=
  scalarRes s t x.d
    (bfi 64 (t.r.sget (destIndex x.d)) (uni s t x.a) (lowU 8 (uni s t x.b)) (lowU 8 (uni s t x.c)))
def execSbfi (x : RArgs) (s : State) : Out := issue (.sbfi x) (sbfiEff x) s

/-- The destination and source formats of set CV. -/
def cvFmts : CV → Fmt × Fmt
  | .f32i64 => (.f32, .i64)
  | .f32n64 => (.f32, .n64)
  | .i64f32 => (.i64, .f32)
  | .n64f32 => (.n64, .f32)
  | .f16f32 => (.f16, .f32)
  | .f32f16 => (.f32, .f16)
  | .bf16f32 => (.bf16, .f32)
  | .f32bf16 => (.f32, .bf16)

/-- R94: rounds in DRM, raises no flag. -/
def scvtEff (c : CV) (x : RArgs) (s : State) (t : Team) : Eff :=
  scalarRes s t x.d
    (convert false (laneMode .fctl 0 t.r.fctl) (cvFmts c).1 (cvFmts c).2 (uni s t x.a).toNat).1
def execScvt (t : CV) (x : RArgs) (s : State) : Out := issue (.scvt t x) (scvtEff t x) s

/-- R95. -/
def slitEff (h : Fin 4) (keep : Bool) (x : IArgs) (s : State) (t : Team) : Eff :=
  let old := if keep then t.r.sget (destIndex x.d) else 0
  scalarRes s t x.d (bfi 64 old (x.imm.zeroExtend 64) (16 * h.val) 16)
def execSlit (h : Fin 4) (keep : Bool) (x : IArgs) (s : State) : Out := issue (.slit h keep x) (slitEff h keep x) s

def execSaddImm (t : IW) (x : IArgs) (s : State) : Out := issue (.saddImm t x) (scalI x fun a => iAdd t a (immS x.imm)) s
def execSmulImm (t : IW) (x : IArgs) (s : State) : Out := issue (.smulImm t x) (scalI x fun a => iMul t a (immS x.imm)) s
def execSandImm (t : BW) (x : IArgs) (s : State) : Out := issue (.sandImm t x) (scalI x fun a => bAnd t a (immS x.imm)) s
def execSorImm (t : BW) (x : IArgs) (s : State) : Out := issue (.sorImm t x) (scalI x fun a => bOr t a (immS x.imm)) s
def execSxorImm (t : BW) (x : IArgs) (s : State) : Out := issue (.sxorImm t x) (scalI x fun a => bXor t a (immS x.imm)) s
def execSshlImm (t : BW) (x : IArgs) (s : State) : Out := issue (.sshlImm t x) (scalI x fun a => bShl t a x.imm.toNat) s
def execSshrImm (t : BW) (x : IArgs) (s : State) : Out := issue (.sshrImm t x) (scalI x fun a => bShr t a x.imm.toNat) s
def execSsarImm (t : BW) (x : IArgs) (s : State) : Out := issue (.ssarImm t x) (scalI x fun a => bSar t a x.imm.toNat) s
def execSrotImm (t : BW) (x : IArgs) (s : State) : Out := issue (.srotImm t x) (scalI x fun a => bRot t a x.imm.toNat) s
def execSminImm (t : IW) (x : IArgs) (s : State) : Out := issue (.sminImm t x) (scalI x fun a => iMin t a (immS x.imm)) s
def execSmaxImm (t : IW) (x : IArgs) (s : State) : Out := issue (.smaxImm t x) (scalI x fun a => iMax t a (immS x.imm)) s

/-- IMM16 as position and length (R93). -/
def immPos (i : BitVec 16) : Nat := i.toNat % 256
def immLen (i : BitVec 16) : Nat := i.toNat / 256
def execSbfeImm (t : SX) (x : IArgs) (s : State) : Out :=
  issue (.sbfeImm t x) (scalI x fun a => bfe 64 t a (immPos x.imm) (immLen x.imm)) s
def sbfiImmEff (x : IArgs) (s : State) (t : Team) : Eff :=
  scalarRes s t x.d (bfi 64 (t.r.sget (destIndex x.d)) (uni s t x.a) (immPos x.imm) (immLen x.imm))
def execSbfiImm (x : IArgs) (s : State) : Out := issue (.sbfiImm x) (sbfiImmEff x) s

/-- `yield` (R100, R16) has the effect of YLD in its clause's header. -/
def yieldEff (s : State) (t : Team) : Eff :=
  .ok (s.modTeam t.id fun u => { u with r := { u.r with
    cl := u.r.cl.map fun c => { c with hdr := c.hdr ||| 1#64 <<< 42 } } })
def execYield (g : Guard) (s : State) : Out := issue (.yield g) yieldEff s

/-! ## Special registers (R107, R108) -/

/-- The instance number of the team's graph in its three places. -/
def srGraph (t : Team) : W64 :=
  BitVec.ofNat 64 (t.gslot + t.inst.toNat % 2 ^ 24 * 2 ^ 8 + t.inst.toNat * 2 ^ 32)

/-- The value of a special register that is one value. -/
def srValue (s : State) (t : Team) : SReg → W64
  | .team => t.id.zeroExtend 64
  | .node => BitVec.ofNat 64 t.node
  | .graph => srGraph t
  | .depth => BitVec.ofNat 64 t.depth
  | .nrec => BitVec.ofNat 64 t.nrec
  | .part => BitVec.ofNat 64 t.part
  | .core => BitVec.ofNat 64 t.core
  | .die => BitVec.ofNat 64 (dieOfCore t.core)
  | .dev => BitVec.ofNat 64 s.devn
  | .gtime => s.gtime t.part
  | .grun => BitVec.ofNat 64 (s.part t.part).grun
  | .clock => BitVec.ofNat 64 s.clock
  | .fctl => t.r.fctl
  | .lane | .fflags | .mask => 0

/-- sr.mask in sixteen scalar registers from `d`. -/
def maskWrites (m : LaneMask) (d : Nat) : List RegWrite :=
  (List.range 16).map fun j => .s (d + j) (m.extractLsb' (64 * j) 64)

/-- A read of sr.gtime by partition `p` raises GTLAST (register 0x016) to the value returned (R372). -/
def State.readTime (s : State) (p : Nat) : State := s.setPr p 0x2016 (if s.pr p 0x2016 < s.gtime p then s.gtime p else s.pr p 0x2016)

def srdEff (r : SReg) (g : Guard) (d : Dest) (s : State) (t : Team) : Eff :=
  match r with
  | .gtime => scalarRes (s.readTime t.part) t d (srValue s t .gtime)
  | .lane => .ok (s.modTeam t.id fun u => u.apply ((t.active g).map fun l => .v (destIndex d) l (BitVec.ofNat 32 l)))
  | .fflags => .ok (s.modTeam t.id fun u => u.apply ((t.active g).map fun l => .v (destIndex d) l (t.r.fflag l)))
  | .mask => .ok (s.modTeam t.id fun u => u.apply (maskWrites t.r.mask (destIndex d)))
  | _ => scalarRes s t d (srValue s t r)
def execSrd (r : SReg) (g : Guard) (d : Dest) (s : State) : Out := issue (.srd r g d) (srdEff r g d) s

end Sys2Proof.Machine
end

