-- ==== Sys2Proof/Machine/Vector.lean ====
section
/-!
DEFINITION. Per-lane vector instructions: integer, floating point, conversion, packed (R109-R127).
-/
namespace Sys2Proof.Machine

/-! ## Shapes -/

/-- A result of each participating lane. -/
def vecRes (s : State) (t : Team) (g : Guard) (wide : Bool) (d : Dest) (f : Nat → W64) : Eff :=
  .ok (s.modTeam t.id fun u => u.apply ((t.active g).flatMap fun l => laneWrites wide (destIndex d) l (f l)))

/-- The same with floating flags (R66). -/
def vecFlt (s : State) (t : Team) (g : Guard) (d : Dest) (f : Nat → Nat × W32) : Eff :=
  .ok (s.modTeam t.id fun u =>
    (u.apply ((t.active g).map fun l => .v (destIndex d) l (BitVec.ofNat 32 (f l).1))).raises
      ((t.active g).map fun l => (l, (f l).2)))

def vec1 (wide : Bool) (x : RArgs) (f : W64 → W64) (s : State) (t : Team) : Eff :=
  vecRes s t x.g wide x.d fun l => f (opnd s t (.int wide) x.a l)
def vec2 (wide : Bool) (x : RArgs) (f : W64 → W64 → W64) (s : State) (t : Team) : Eff :=
  vecRes s t x.g wide x.d fun l => f (opnd s t (.int wide) x.a l) (opnd s t (.int wide) x.b l)
def vec3 (wide : Bool) (x : RArgs) (f : W64 → W64 → W64 → W64) (s : State) (t : Team) : Eff :=
  vecRes s t x.g wide x.d fun l =>
    f (opnd s t (.int wide) x.a l) (opnd s t (.int wide) x.b l) (opnd s t (.int wide) x.c l)
def vecI (wide : Bool) (x : IArgs) (f : W64 → W64) (s : State) (t : Team) : Eff :=
  vecRes s t x.g wide x.d fun l => f (opnd s t (.int wide) x.a l)
/-- A 32-bit count of a value of either width. -/
def vecCount (wide : Bool) (x : RArgs) (f : W64 → W64) (s : State) (t : Team) : Eff :=
  vecRes s t x.g false x.d fun l => f (opnd s t (.int wide) x.a l)

def iwWide (t : IW) : Bool := t.regs == 2
def isWide (t : IS) : Bool := t.regs == 2
def bwWide (t : BW) : Bool := t.regs == 2

/-! ## Integer instructions (R115-R120) -/

def execVadd (t : IW) (x : RArgs) (s : State) : Out := issue (.vadd t x) (vec2 (iwWide t) x (iAdd t)) s
def execVsub (t : IW) (x : RArgs) (s : State) : Out := issue (.vsub t x) (vec2 (iwWide t) x (iSub t)) s
def execVmul (t : IW) (x : RArgs) (s : State) : Out := issue (.vmul t x) (vec2 (iwWide t) x (iMul t)) s
def execVmulh (t : IW) (x : RArgs) (s : State) : Out := issue (.vmulh t x) (vec2 (iwWide t) x (iMulh t)) s
def execVmad (t : IW) (x : RArgs) (s : State) : Out := issue (.vmad t x) (vec3 (iwWide t) x (iMad t)) s
def execVand (t : BW) (x : RArgs) (s : State) : Out := issue (.vand t x) (vec2 (bwWide t) x (bAnd t)) s
def execVor (t : BW) (x : RArgs) (s : State) : Out := issue (.vor t x) (vec2 (bwWide t) x (bOr t)) s
def execVxor (t : BW) (x : RArgs) (s : State) : Out := issue (.vxor t x) (vec2 (bwWide t) x (bXor t)) s
def execVnot (t : BW) (x : RArgs) (s : State) : Out := issue (.vnot t x) (vec1 (bwWide t) x (bNot t)) s
def execVshl (t : BW) (x : RArgs) (s : State) : Out :=
  issue (.vshl t x) (vec2 (bwWide t) x fun a n => bShl t a (lowU 32 n)) s
def execVshr (t : BW) (x : RArgs) (s : State) : Out :=
  issue (.vshr t x) (vec2 (bwWide t) x fun a n => bShr t a (lowU 32 n)) s
def execVsar (t : BW) (x : RArgs) (s : State) : Out :=
  issue (.vsar t x) (vec2 (bwWide t) x fun a n => bSar t a (lowU 32 n)) s
def execVmin (t : IW) (x : RArgs) (s : State) : Out := issue (.vmin t x) (vec2 (iwWide t) x (iMin t)) s
def execVmax (t : IW) (x : RArgs) (s : State) : Out := issue (.vmax t x) (vec2 (iwWide t) x (iMax t)) s
def execVabs (t : IS) (x : RArgs) (s : State) : Out := issue (.vabs t x) (vec1 (isWide t) x (iAbs t)) s
def execVneg (t : IS) (x : RArgs) (s : State) : Out := issue (.vneg t x) (vec1 (isWide t) x (iNeg t)) s
def execVpopc (t : BW) (x : RArgs) (s : State) : Out := issue (.vpopc t x) (vecCount (bwWide t) x (bPopc t)) s
def execVclz (t : BW) (x : RArgs) (s : State) : Out := issue (.vclz t x) (vecCount (bwWide t) x (bClz t)) s
def execVbfe (t : SX) (x : RArgs) (s : State) : Out :=
  issue (.vbfe t x) (vec3 false x fun a p n => bfe 32 t a (lowU 8 p) (lowU 8 n)) s

/-- R118: `vbfi` keeps the other bits of each lane's destination. -/
def vbfiEff (x : RArgs) (s : State) (t : Team) : Eff :=
  vecRes s t x.g false x.d fun l =>
    bfi 32 ((t.r.lane (destIndex x.d) l).zeroExtend 64) (opnd s t (.int false) x.a l)
      (lowU 8 (opnd s t (.int false) x.b l)) (lowU 8 (opnd s t (.int false) x.c l))
def execVbfi (x : RArgs) (s : State) : Out := issue (.vbfi x) (vbfiEff x) s

def execVsel (x : RArgs) (s : State) : Out :=
  issue (.vsel x) (vec3 false x fun a b c => if lowU 32 c = 0 then b else a) s

/-- Bit `b` of each participating lane's destination becomes `f l`; flags `h l`. -/
def bitEff (g : Guard) (d : Dest) (b : Nat) (f : Nat → Bool) (h : Nat → W32) (s : State) (t : Team) : Eff :=
  .ok (s.modTeam t.id fun u =>
    (u.apply ((t.active g).map fun l =>
      .v (destIndex d) l (lo32 (putBit ((t.r.lane (destIndex d) l).zeroExtend 64) b (f l))))).raises
      ((t.active g).map fun l => (l, h l)))

/-- R120. -/
def vcmpEff (cond : Cmp) (ty : IW) (bit : Fin 32) (x : RArgs) (s : State) (t : Team) : Eff :=
  bitEff x.g x.d bit.val
    (fun l => cmpHolds cond (iVal ty (opnd s t (.int (iwWide ty)) x.a l)) (iVal ty (opnd s t (.int (iwWide ty)) x.b l)))
    (fun _ => 0) s t
def execVcmp (cond : Cmp) (ty : IW) (bit : Fin 32) (x : RArgs) (s : State) : Out :=
  issue (.vcmp cond ty bit x) (vcmpEff cond ty bit x) s

def execVaddImm (t : IW) (x : IArgs) (s : State) : Out :=
  issue (.vaddImm t x) (vecI (iwWide t) x fun a => iAdd t a (immS x.imm)) s
def execVmulImm (t : IW) (x : IArgs) (s : State) : Out :=
  issue (.vmulImm t x) (vecI (iwWide t) x fun a => iMul t a (immS x.imm)) s
def execVandImm (t : BW) (x : IArgs) (s : State) : Out :=
  issue (.vandImm t x) (vecI (bwWide t) x fun a => bAnd t a (immS x.imm)) s
def execVorImm (t : BW) (x : IArgs) (s : State) : Out :=
  issue (.vorImm t x) (vecI (bwWide t) x fun a => bOr t a (immS x.imm)) s
def execVxorImm (t : BW) (x : IArgs) (s : State) : Out :=
  issue (.vxorImm t x) (vecI (bwWide t) x fun a => bXor t a (immS x.imm)) s
def execVshlImm (t : BW) (x : IArgs) (s : State) : Out :=
  issue (.vshlImm t x) (vecI (bwWide t) x fun a => bShl t a x.imm.toNat) s
def execVshrImm (t : BW) (x : IArgs) (s : State) : Out :=
  issue (.vshrImm t x) (vecI (bwWide t) x fun a => bShr t a x.imm.toNat) s
def execVsarImm (t : BW) (x : IArgs) (s : State) : Out :=
  issue (.vsarImm t x) (vecI (bwWide t) x fun a => bSar t a x.imm.toNat) s
def execVminImm (t : IW) (x : IArgs) (s : State) : Out :=
  issue (.vminImm t x) (vecI (iwWide t) x fun a => iMin t a (immS x.imm)) s
def execVmaxImm (t : IW) (x : IArgs) (s : State) : Out :=
  issue (.vmaxImm t x) (vecI (iwWide t) x fun a => iMax t a (immS x.imm)) s

/-! ## Floating point (R121-R125) -/

/-- The rounding mode of a lane (R67). -/
def modeAt (t : Team) (rm : RM) (l : Nat) : Rmode := laneMode rm (t.r.fflag l) t.r.fctl

/-- An operand of format `f` as a number of its width. -/
def fopnd (s : State) (t : Team) (f : Fmt) (x : Opnd) (l : Nat) : Nat :=
  (opnd s t (.flt f) x l).toNat % 2 ^ (Fmt.kind f).width

def flt2 (rm : RM) (x : RArgs) (f : Rmode → Nat → Nat → Nat × W32) (s : State) (t : Team) : Eff :=
  vecFlt s t x.g x.d fun l => f (modeAt t rm l) (fopnd s t .f32 x.a l) (fopnd s t .f32 x.b l)
def flt3 (rm : RM) (x : RArgs) (f : Rmode → Nat → Nat → Nat → Nat × W32) (s : State) (t : Team) : Eff :=
  vecFlt s t x.g x.d fun l =>
    f (modeAt t rm l) (fopnd s t .f32 x.a l) (fopnd s t .f32 x.b l) (fopnd s t .f32 x.c l)

def execFadd (rm : RM) (x : RArgs) (s : State) : Out := issue (.fadd rm x) (flt2 rm x ff32.add) s
def execFmul (rm : RM) (x : RArgs) (s : State) : Out := issue (.fmul rm x) (flt2 rm x ff32.mul) s
def execFfma (rm : RM) (x : RArgs) (s : State) : Out := issue (.ffma rm x) (flt3 rm x ff32.fma) s
def execFmin (nan : Bool) (x : RArgs) (s : State) : Out :=
  issue (.fmin nan x) (flt2 .fctl x fun _ a b => ff32.minmax false nan a b) s
def execFmax (nan : Bool) (x : RArgs) (s : State) : Out :=
  issue (.fmax nan x) (flt2 .fctl x fun _ a b => ff32.minmax true nan a b) s

def fcmpFmt : FcmpTy → Fmt
  | .f32 => .f32
  | .f16 => .f16
  | .bf16 => .bf16
def fcmpFF : FcmpTy → FFmt
  | .f32 => ff32
  | .f16 => ff16
  | .bf16 => fbf16
/-- R123. -/
def fcmpEff (cond : Cmp) (ty : FcmpTy) (bit : Fin 32) (x : RArgs) (s : State) (t : Team) : Eff :=
  let f (l : Nat) : Bool × W32 :=
    (fcmpFF ty).compare cond (fopnd s t (fcmpFmt ty) x.a l) (fopnd s t (fcmpFmt ty) x.b l)
  bitEff x.g x.d bit.val (fun l => (f l).1) (fun l => (f l).2) s t
def execFcmp (cond : Cmp) (ty : FcmpTy) (bit : Fin 32) (x : RArgs) (s : State) : Out :=
  issue (.fcmp cond ty bit x) (fcmpEff cond ty bit x) s

/-- R124: results that may carry lookahead (R31). -/
def longEff (x : RArgs) (f : Nat → Nat × W32) (s : State) (t : Team) : Eff :=
  let act := t.active x.g
  let s := s.modTeam t.id fun u => u.raises (act.map fun l => (l, (f l).2))
  .ok (s.resultWrites t x.la [.v (destIndex x.d)] (act.map fun l => .v (destIndex x.d) l (BitVec.ofNat 32 (f l).1)))
def long1 (x : RArgs) (f : Nat → Nat × W32) (s : State) (t : Team) : Eff :=
  longEff x (fun l => f (fopnd s t .f32 x.a l)) s t

def execFrcp (x : RArgs) (s : State) : Out := issue (.frcp x) (long1 x frcpOp) s
def execFrsq (x : RArgs) (s : State) : Out := issue (.frsq x) (long1 x frsqOp) s
def execFsqrt (rm : RM) (x : RArgs) (s : State) : Out :=
  issue (.fsqrt rm x) (fun s t => longEff x (fun l => fsqrtOp (modeAt t rm l) (fopnd s t .f32 x.a l)) s t) s
def execFex2 (x : RArgs) (s : State) : Out := issue (.fex2 x) (long1 x fex2Op) s
def execFlg2 (x : RArgs) (s : State) : Out := issue (.flg2 x) (long1 x flg2Op) s
def execFsin (x : RArgs) (s : State) : Out := issue (.fsin x) (long1 x fsinOp) s
def execFcos (x : RArgs) (s : State) : Out := issue (.fcos x) (long1 x fcosOp) s

def fclassEff (f : Fmt) (x : RArgs) (s : State) (t : Team) : Eff :=
  vecRes s t x.g false x.d fun l => (classMask f (fopnd s t f x.a l)).zeroExtend 64
def execFclass (f : Fmt) (x : RArgs) (s : State) : Out := issue (.fclass f x) (fclassEff f x) s

/-! ## Conversion (R126) -/

/-- The type a conversion's source is read under. -/
def srcTy (f : Fmt) : OpTy :=
  match f.group with
  | .I => .int (f.regs == 2)
  | _ => .flt f

def cvtEff (nosat : Bool) (rm : RM) (dst src : Fmt) (x : RArgs) (s : State) (t : Team) : Eff :=
  let act := t.active x.g
  let f (l : Nat) : W64 × W32 := convert nosat (modeAt t rm l) dst src (opnd s t (srcTy src) x.a l).toNat
  .ok (s.modTeam t.id fun u =>
    (u.apply (act.flatMap fun l => laneWrites (dst.regs == 2) (destIndex x.d) l (f l).1)).raises
      (act.map fun l => (l, (f l).2)))
def execCvt (rm : RM) (dst src : Fmt) (x : RArgs) (s : State) : Out :=
  issue (.cvt rm dst src x) (cvtEff false rm dst src x) s
def execCvtNosat (rm : RM) (dst src : Fmt) (x : RArgs) (s : State) : Out :=
  issue (.cvtNosat rm dst src x) (cvtEff true rm dst src x) s

/-! ## Packed 16-bit (R127) -/

def half (x : Nat) (e : Nat) : Nat := x / 2 ^ (16 * e) % 2 ^ 16
/-- Two elements computed apart; the flags of both. -/
def packed (f : Nat → Nat × W32) : Nat × W32 := ((f 0).1 % 2 ^ 16 + (f 1).1 % 2 ^ 16 * 2 ^ 16, (f 0).2 ||| (f 1).2)
def popnd (s : State) (t : Team) (f : Fmt) (x : Opnd) (l : Nat) : Nat := (opnd s t (.packed f) x l).toNat % 2 ^ 32

def pack2 (fm : Fmt) (rm : RM) (x : RArgs) (f : Rmode → Nat → Nat → Nat × W32) (s : State) (t : Team) : Eff :=
  vecFlt s t x.g x.d fun l => packed fun e =>
    f (modeAt t rm l) (half (popnd s t fm x.a l) e) (half (popnd s t fm x.b l) e)
def pack3 (fm : Fmt) (rm : RM) (x : RArgs) (f : Rmode → Nat → Nat → Nat → Nat × W32) (s : State) (t : Team) : Eff :=
  vecFlt s t x.g x.d fun l => packed fun e =>
    f (modeAt t rm l) (half (popnd s t fm x.a l) e) (half (popnd s t fm x.b l) e) (half (popnd s t fm x.c l) e)

def execHadd2F16 (rm : RM) (x : RArgs) (s : State) : Out := issue (.hadd2F16 rm x) (pack2 .f16 rm x ff16.add) s
def execHmul2F16 (rm : RM) (x : RArgs) (s : State) : Out := issue (.hmul2F16 rm x) (pack2 .f16 rm x ff16.mul) s
def execHfma2F16 (rm : RM) (x : RArgs) (s : State) : Out := issue (.hfma2F16 rm x) (pack3 .f16 rm x ff16.fma) s
def execHadd2Bf16 (rm : RM) (x : RArgs) (s : State) : Out := issue (.hadd2Bf16 rm x) (pack2 .bf16 rm x fbf16.add) s
def execHmul2Bf16 (rm : RM) (x : RArgs) (s : State) : Out := issue (.hmul2Bf16 rm x) (pack2 .bf16 rm x fbf16.mul) s
def execHfma2Bf16 (rm : RM) (x : RArgs) (s : State) : Out := issue (.hfma2Bf16 rm x) (pack3 .bf16 rm x fbf16.fma) s

end Sys2Proof.Machine
end

