-- ==== Sys2Proof/Machine/TeamWide.lean ====
section
/-!
DEFINITION. Team-wide instructions (R128-R134).
-/
namespace Sys2Proof.Machine

/-- R129: the lane `shfl` takes from; `none` outside the team. -/
def shflSrc (op : SH) (w l b : Nat) : Option Nat :=
  match op with
  | .idx => if b < w then some b else none
  | .xor => if l ^^^ b < w then some (l ^^^ b) else none
  | .up => if b ≤ l then some (l - b) else none
  | .down => if l + b < w then some (l + b) else none
def shflEff (op : SH) (x : RArgs) (s : State) (t : Team) : Eff :=
  vecRes s t x.g false x.d fun l =>
    opnd s t (.int false) x.a ((shflSrc op t.w l (lane32 s t x.b l).toNat).getD l)
def execShfl (op : SH) (x : RArgs) (s : State) : Out := issue (.shfl op x) (shflEff op x) s

/-- R130. -/
def bcastEff (x : RArgs) (s : State) (t : Team) : Eff :=
  let i := (uni s t x.b).toNat
  let v : W64 := if i < t.w then opnd s t (.int false) x.a i else 0
  if x.d.isS then scalarRes s t x.d v else vecRes s t x.g false x.d fun _ => v
def execBcast (x : RArgs) (s : State) : Out := issue (.bcast x) (bcastEff x) s

/-- The live lanes whose bit `c` of vector operand `a` is set. -/
def bitLanes (s : State) (t : Team) (a : Opnd) (c : Nat) : List Nat :=
  t.liveLanes.filter fun l => (lane32 s t a l).getLsbD c

/-- R131. -/
def ballotEff (bit : Fin 32) (x : RArgs) (s : State) (t : Team) : Eff :=
  .ok (s.modTeam t.id fun u => u.apply (maskWrites (maskOf (bitLanes s t x.a bit.val)) (destIndex x.d)))
def execBallot (bit : Fin 32) (x : RArgs) (s : State) : Out := issue (.ballot bit x) (ballotEff bit x) s

/-- R132. -/
def voteOf (op : VT) (set live : Nat) : Bool :=
  match op with
  | .all => set == live
  | .any => set != 0
  | .uni => set == 0 || set == live
def voteEff (op : VT) (dbit : Fin 64) (bit : Fin 32) (x : RArgs) (s : State) (t : Team) : Eff :=
  let v := voteOf op (bitLanes s t x.a bit.val).length t.liveLanes.length
  scalarRes s t x.d (putBit (t.r.sget (destIndex x.d)) dbit.val v)
def execVote (op : VT) (dbit : Fin 64) (bit : Fin 32) (x : RArgs) (s : State) : Out :=
  issue (.vote op dbit bit x) (voteEff op dbit bit x) s

/-! ## Reductions and scans (R133, R134) -/

def toIdentity : TO → Nat
  | .addI32 => 0
  | .addF32 => 0x8000_0000
  | .minI32 => 0x7FFF_FFFF
  | .maxI32 => 0x8000_0000
  | .minF32 => 0x7F80_0000
  | .maxF32 => 0xFF80_0000
  | .andB32 => 0xFFFF_FFFF
  | .orB32 => 0
def toApply (op : TO) (a b : Nat) : Nat × W32 :=
  let i (f : W64 → W64 → W64) : Nat × W32 := ((f (BitVec.ofNat 64 a) (BitVec.ofNat 64 b)).toNat % 2 ^ 32, 0)
  match op with
  | .addI32 => i (iAdd .i32)
  | .addF32 => ff32.add .rne a b
  | .minI32 => i (iMin .i32)
  | .maxI32 => i (iMax .i32)
  | .minF32 => ff32.minmax false false a b
  | .maxF32 => ff32.minmax true false a b
  | .andB32 => i (bAnd .b32)
  | .orB32 => i (bOr .b32)
/-- The type of the operand. -/
def toTy : TO → OpTy
  | .addF32 | .minF32 | .maxF32 => .flt .f32
  | _ => .int false

/-- One level of the tree. -/
def pairUp (op : TO) : List Nat → List Nat × W32
  | a :: b :: r =>
    let x := toApply op a b
    let y := pairUp op r
    (x.1 :: y.1, x.2 ||| y.2)
  | l => (l, 0)
/-- The tree over a power of two of values. -/
def tree (op : TO) : Nat → List Nat → Nat × W32
  | 0, l => (l.getD 0 0, 0)
  | k + 1, l =>
    let x := pairUp op l
    let y := tree op k x.1
    (y.1, x.2 ||| y.2)

/-- The values of lanes 0 to P - 1: A where a lane contributes, the identity elsewhere. -/
def contributions (op : TO) (x : RArgs) (s : State) (t : Team) (who : List Nat) : List Nat :=
  (List.range (2 ^ log2up t.w)).map fun l =>
    if l < t.w ∧ who.contains l then (opnd s t (toTy op) x.a l).toNat % 2 ^ 32 else toIdentity op

def tredEff (op : TO) (x : RArgs) (s : State) (t : Team) : Eff :=
  let who := if x.d.isS then t.liveLanes else t.active x.g
  let v := tree op (log2up t.w) (contributions op x s t who)
  let s := s.modTeam t.id fun u => u.raises (who.map (·, v.2))
  if x.d.isS then scalarRes s t x.d (BitVec.ofNat 64 v.1) else vecRes s t x.g false x.d fun _ => BitVec.ofNat 64 v.1
def execTred (op : TO) (x : RArgs) (s : State) : Out := issue (.tred op x) (tredEff op x) s

/-- One step of the scan: every value takes in the one `h` places before it. -/
def scanStep (op : TO) (h : Nat) (l : List Nat) : List Nat × W32 :=
  let ys := List.zipWith (toApply op) l (l.drop h)
  (l.take h ++ ys.map (·.1), ys.foldl (fun f y => f ||| y.2) 0)
def scan (op : TO) : Nat → Nat → List Nat → List Nat × W32
  | 0, _, l => (l, 0)
  | k + 1, h, l =>
    let x := scanStep op h l
    let y := scan op k (2 * h) x.1
    (y.1, x.2 ||| y.2)

def tscanEff (op : TO) (x : RArgs) (s : State) (t : Team) : Eff :=
  let who := t.active x.g
  let v := scan op (log2up t.w) 1 (contributions op x s t who)
  let s := s.modTeam t.id fun u => u.raises (who.map (·, v.2))
  vecRes s t x.g false x.d fun l => BitVec.ofNat 64 (v.1.getD l 0)
def execTscan (op : TO) (x : RArgs) (s : State) : Out := issue (.tscan op x) (tscanEff op x) s

end Sys2Proof.Machine
end

