-- ==== Sys2Proof/Machine/Access.lean ====
section
/-!
DEFINITION. Memory and scratch accesses of a team: addresses (R25, R136), issue checks (R139), what a load reads and where
a store goes (R285, R286, R298), and rolling back a team whose instruction fails a perform check (R34).
-/
namespace Sys2Proof.Machine

/-! ## Lanes and addresses -/

/-- The lane number of an access that is no lane's. -/
def noLaneN : Nat := 1024
def laneWord (l : Nat) : W64 := if l < 1024 then BitVec.ofNat 64 l else noLane

/-- The lanes of a memory instruction: one access for a scalar destination (R137). -/
def accessLanes (t : Team) (g : Guard) (d : Option Dest) : List Nat :=
  match d with
  | some (.s _) => [noLaneN]
  | _ => t.active g

/-- A 64-bit address operand at a lane. -/
def addrOf (s : State) (t : Team) (x : Opnd) (l : Nat) : Nat := (opnd s t (.int true) x l).toNat
/-- A scratch address: the low 32 bits. -/
def scratchOf (s : State) (t : Team) (x : Opnd) (l : Nat) : Nat := (lane32 s t x l).toNat

/-! ## Issue checks (R139) -/

/-- One lane's range, with the failure of a check that comes before translation: code and address. -/
structure Req where
  lane : Nat
  va : Nat
  len : Nat
  pre : Option (Nat × Nat)
  deriving DecidableEq, Repr

/-- A lane that fails: code, address, lane. -/
structure Fail where
  code : Nat
  addr : Nat
  lane : Nat
  deriving DecidableEq, Repr

def Fail.eff (f : Fail) : Eff := .fault f.code (BitVec.ofNat 64 f.addr) (laneWord f.lane)

/-- The first byte's translation finds a target at which the operation is not offered. -/
def State.targetBad (s : State) (t : Team) (bad : Nat → Bool) (va : Nat) : Bool :=
  match (s.lookup t.core t.part (va56 va)).2 with
  | some e => bad (e.pbase + (va56 va - e.vbase))
  | none => false

/-- The issue checks of every lane, lowest lane first. `bad pa` says that the operation is not offered at `pa` (0x14). -/
def State.checkReqs (s : State) (t : Team) (k : AccKind) (cl : PClass) (bad : Nat → Bool) :
    List Req → State × Except Fail (List Acc)
  | [] => (s, .ok [])
  | r :: rs =>
    if s.targetBad t bad r.va then (s, .error ⟨0x14, va56 r.va, r.lane⟩)
    else match r.pre with
      | some (c, a) => (s, .error ⟨c, a, r.lane⟩)
      | none =>
        match s.checkRange t.core t.part t.level k cl r.va r.len with
        | (s, .error b) => (s, .error ⟨b.code, b.addr, r.lane⟩)
        | (s, .ok l) =>
          match s.checkReqs t k cl bad rs with
          | (s, .error f) => (s, .error f)
          | (s, .ok accs) => (s, .ok (⟨r.lane, BitVec.ofNat 64 (va56 r.va), physOf l, guestOf l⟩ :: accs))

/-- Scratch accesses: alignment, then the window (R139). -/
def scratchReqs (t : Team) (align : Nat) : List (Nat × Nat × Nat) → Except Fail (List Acc)
  | [] => .ok []
  | (l, off, n) :: r =>
    if off % align ≠ 0 then .error ⟨0x13, off, l⟩
    else if t.scrS < off + n then .error ⟨0x12, max off t.scrS, l⟩
    else match scratchReqs t align r with
      | .error f => .error f
      | .ok accs => .ok (⟨l, BitVec.ofNat 64 off, span off n, []⟩ :: accs)

/-- What the watches look at. -/
def watched (rs : List Req) : List Watched :=
  rs.map fun r => ⟨if r.lane < 1024 then some r.lane else none, va56 r.va, r.len⟩

/-- A watch that matches stops the instruction, otherwise `k` goes on. -/
def State.watching (s : State) (t : Team) (reads writes : Bool) (rs : List Req) (k : Eff) : Eff :=
  match s.watchHit t reads writes (watched rs) with
  | some h => .debug 0x72 (BitVec.ofNat 64 h.addr) (match h.lane with
      | some l => BitVec.ofNat 64 l
      | none => noLane) (some h.c)
  | none => k

/-- The line of `pa` has no home slice: it is host memory, or its home is the memory controller. -/
def State.noSlice (s : State) (pa : Nat) : Bool :=
  match s.space pa with
  | .here => (s.homeSlice pa).isNone
  | .peer _ => false
  | _ => true

/-- Host memory, or the domain window. -/
def State.outside (s : State) (pa : Nat) : Bool :=
  match s.space pa with
  | .host | .peer _ => true
  | _ => false

def State.isHost (s : State) (pa : Nat) : Bool := s.space pa == .host
def State.isPeer (s : State) (pa : Nat) : Bool :=
  match s.space pa with
  | .peer _ => true
  | _ => false

/-- Every byte can be reached: host memory through the port that holds the control plane (R377), other devices through a
UALink port that is ready (log 120). -/
def State.hostOpen (s : State) (pas : List Nat) : Bool :=
  (s.mgmt.held || !pas.any s.isHost) && (s.linkReady || !pas.any s.isPeer)

/-! ## What a load reads (R285, R298) -/

/-- Accesses that a release waits for (R148): everything but the engines' and records' work. -/
def PKind.isAccess : PKind → Bool
  | .result | .cctl .. | .acp .. | .emit .. => false
  | _ => true

/-- A pending instruction is performed at .core: a store is when it enters the write buffer (R297). -/
def Pending.atCore (q : Pending) : Bool :=
  q.performed || match q.kind with
    | .store _ _ inBuf => inBuf
    | k => !k.isAccess

/-- A release at .team or .core in the write buffer is performed there: its team's earlier accesses are (R148). -/
def State.coreReleased (s : State) (e : WEntry) : Bool :=
  (s.team? e.team).all fun u => (u.pend.find? (·.seq == e.seq)).all fun p =>
    u.pend.all fun q => decide (p.num ≤ q.num) || q.atCore

/-- Team `t` sees an entry of its core's write buffer: its own, or one that is no release still on its way (R299). -/
def State.sees (s : State) (t : TeamId) (e : WEntry) : Bool :=
  e.team == t || e.rel == 0 || (e.rel == 1 && s.coreReleased e)

/-- The entries of its core's write buffer that team `t` sees. -/
def State.seenBuf (s : State) (t : Team) : List WEntry := (s.core t.core).wbuf.filter (s.sees t.id)

/-- The buffered store at `pa`: the latest. -/
def bufByte (pa : Nat) : List WEntry → Option Byte
  | [] => none
  | e :: r =>
    match bufByte pa r with
    | some b => some b
    | none => e.bytes.lookup pa

/-- A usable copy of a line: filled less than 20 µs ago. -/
def copyAt (now line : Nat) (cs : List LineCopy) : Option LineCopy :=
  cs.find? fun c => c.ver.isNone && c.line == line && decide (now < c.at_ + 20000)

/-- A byte from a copy. -/
def copyByte (c : LineCopy) (pa : Nat) : Byte := c.bytes.getD (pa % 64) 0

/-- The byte that a load of team `t` takes from `src`, before the buffer. -/
def State.srcByte (s : State) (t : Team) (src : CopySrc) (pa : Nat) : Byte :=
  let a := s.norm pa
  let copies := match src with
    | .home => []
    | .near => (s.core t.core).near
    | .far => (s.die (dieOfCore t.core)).far
  match copyAt s.now (lineOf a) copies with
  | some c => copyByte c a
  | none => s.homeByte t.part a

/-- A byte as a load of team `t` returns it. -/
def State.loadByte (s : State) (t : Team) (src : CopySrc) (pa : Nat) : Byte :=
  match bufByte (s.norm pa) (s.seenBuf t) with
  | some b => b
  | none => s.srcByte t src pa

/-- The granule of `pa` is poisoned for team `t`: not every poisoned byte is covered by a buffered store (R145). -/
def State.loadPoison (s : State) (t : Team) (pa : Nat) : Bool :=
  let a := s.norm pa
  let m := s.poisonAt a
  m != 0 && (List.range 32).any fun k =>
    m.getLsbD k && (bufByte (32 * (a / 32) + k) (s.seenBuf t)).isNone

/-- The entries that a load of `pas` reads, its own among them, are marked as seen by team `t` (R148, R301). -/
def State.seeEntries (s : State) (t : TeamId) (pas : List Nat) (w : List WEntry) : List WEntry :=
  w.map fun e =>
    if s.sees t e && !e.seen.contains t && e.bytes.any fun (a, _) => pas.contains a then
      { e with seen := t :: e.seen } else e

/-- The buffered stores that team `t` has observed: what an engine reads for a command that it issues now is at least as new
(R301). -/
def State.observed (s : State) (t : Team) : List (TeamId × Nat) :=
  ((s.core t.core).wbuf.filter fun e => e.seen.contains t.id).map fun e => (e.team, e.seq)
/-- A store that a command has to observe still stands in a write buffer, with one of the bytes. -/
def State.unobserved (s : State) (ws : List (TeamId × Nat)) (pas : List Nat) : Bool :=
  !ws.isEmpty && s.cores.any fun (_, c) => c.wbuf.any fun e =>
    ws.contains (e.team, e.seq) && e.bytes.any fun (a, _) => pas.any fun b => s.norm b == a

/-- A line may stand in the near cache: memory of this device, another device or the host; not registers. -/
def State.cacheable (s : State) (line : Nat) : Bool :=
  match s.space (64 * line) with
  | .regs | .nowhere => false
  | _ => true

/-- A line may stand in the far cache of die `d` (R286). -/
def State.farable (s : State) (d line : Nat) : Bool :=
  match s.space (64 * line) with
  | .here => dieOfPa (64 * line) != d
  | .peer _ => true
  | _ => false

/-- A copy enters a cache in which `cap` lines may be such as `mine` names. A full one drops a victim that the manual does
not name, chosen by `victim` (log 107). -/
def putCopy (cap victim : Nat) (mine : LineCopy → Bool) (c : LineCopy) (cs : List LineCopy) : List LineCopy :=
  let cs := cs.filter fun k => !(k.line == c.line && k.ver == c.ver && (k.ver.isNone || k.p == c.p))
  let own := cs.filter mine
  if own.length < cap then c :: cs
  else match own[victim % own.length]? with
    | some v => c :: cs.erase v
    | none => cs

/-- The lines of a core's near cache: what SCRSPLIT leaves of the 4 MiB core store (R284). -/
def State.nearCap (s : State) (p : Nat) : Nat := (2 ^ 22 - (s.pr p 0x160).toNat) / 64

/-- The far-cache lines of partition `p`, or of its turn group, on die `d`: two of 24 ways of 32 MiB for each core that it holds
there (R286, log 107). -/
def State.farCap (s : State) (p d : Nat) : Nat := 2 ^ 19 * ((span (12 * d) 12).filter (s.holdsCore p)).length / 12

/-- A copy enters the near cache of the team's core. -/
def State.putNear (s : State) (t : Team) (c : LineCopy) : State :=
  { s.modCore t.core fun x => { x with
      near := putCopy (s.nearCap t.part) (Config.cacheVictim s.free) (fun _ => true) c x.near } with free := s.free + 1 }

/-- A copy stands in the ways of partition `p`: of a turn group's shared cores all members fill the same ones. -/
def State.sharesWays (s : State) (p : Nat) (c : LineCopy) : Bool := c.p == p || s.sameGroup p c.p

/-- A copy enters the far cache of die `d`, in the ways of its partition. -/
def State.putFar (s : State) (d : Nat) (c : LineCopy) : State :=
  { s.modDie d fun x => { x with
      far := putCopy (s.farCap c.p d) (Config.cacheVictim s.free) (s.sharesWays c.p) c x.far } with free := s.free + 1 }

/-- The far copies in the ways of partition `p` on each die fit them again (R345). -/
def State.trimFar (s : State) (p : Nat) : State :=
  { s with dies := s.dies.map fun (d, x) => (d, { x with
      far := (x.far.filter fun c => !s.sharesWays p c) ++ (x.far.filter (s.sharesWays p)).take (s.farCap p d) }) }

/-! ## Copies -/

/-- The lines of a list of physical bytes. -/
def State.linesAt (s : State) (pas : List Nat) : List Nat := (pas.map fun a => lineOf (s.norm a)).eraseDups

/-- The line's bytes as partition `p` reads them at the home. -/
def State.homeLine (s : State) (p line : Nat) : List Byte := (List.range 64).map fun i => s.homeByte p (64 * line + i)

/-- A load of team `t` that read `line` from `src` leaves copies behind. -/
def State.fillLine (s : State) (t : Team) (src : CopySrc) (line : Nat) : State :=
  if !s.cacheable line then s
  else
    let d := dieOfCore t.core
    match src, copyAt s.now line (s.core t.core).near, copyAt s.now line (s.die d).far with
    | .near, some _, _ => s
    | .far, _, some c => s.putNear t c
    | _, _, _ =>
      let c : LineCopy := ⟨t.part, line, none, s.homeLine t.part line, s.now⟩
      let s := ((s.reach t.part line).putNear t c).countEvent t.part d 0x005 1
      if s.farable d line then (s.putFar d c).countEvent t.part d 0x006 1 else s

def State.fillLines (s : State) (t : Team) (src : CopySrc) : List Nat → State
  | [] => s
  | l :: ls => (s.fillLine t src l).fillLines t src ls

/-- A load of the bytes `pas` was performed. -/
def State.noteLoad (s : State) (t : Team) (src : CopySrc) (pas : List Nat) : State :=
  let a := pas.map s.norm
  let s := s.modCore t.core fun x => { x with wbuf := s.seeEntries t.id a x.wbuf }
  s.fillLines t src ((a.map lineOf).eraseDups)

/-- Drop near-cache copies of a core (R285), and the far-cache copies of other devices' lines (R148). -/
def State.dropNear (s : State) (c : Nat) : State := s.modCore c fun x => { x with near := x.near.filter (·.ver.isSome) }
def State.dropNearLines (s : State) (c line n : Nat) : State :=
  s.modCore c fun x => { x with near := x.near.filter fun k => decide (k.line < line) || decide (line + n ≤ k.line) }
def State.dropFarPeers (s : State) (d : Nat) : State :=
  s.modDie d fun x => { x with far := x.far.filter fun c => c.ver.isSome || !s.isPeer (64 * c.line) }
/-- What an acquire at scope `sc` drops. -/
def State.acquire (s : State) (t : Team) (sc : Scope) : State :=
  let s := if 2 ≤ sc.code then s.dropNear t.core else s
  if 4 ≤ sc.code then s.dropFarPeers (dieOfCore t.core) else s

/-- The bytes `pas` are part of what some release wrote, and all of no release: an acquire that reads them acts as a plain
load (R300). -/
def State.partOfRelease (s : State) (pas : List Nat) : Bool :=
  s.rels.any (fun r => r.any pas.contains) && s.rels.all fun r => !r.all pas.contains

/-- An acquire of the bytes `pas` that acts as a plain load: one that reads only a part of a release may, or may act as an
acquire (R300). -/
def State.plainly (s : State) (pas : List Nat) : Bool := s.ev.flag && s.partOfRelease (pas.map s.norm)

/-- An acquire that reads the bytes `pas`. -/
def State.acquireOf (s : State) (t : Team) (sc : Scope) (pas : List Nat) : State :=
  if s.plainly pas then s else s.acquire t sc

/-- A release at .die or wider wrote the bytes `pas` (log 124). -/
def State.noteRelease (s : State) (pas : List Nat) : State :=
  let r := pas.map s.norm
  if r.isEmpty || s.rels.contains r then s else { s with rels := s.rels ++ [r] }

/-! ## Stores at their homes (R363 included) -/

/-- One byte performed at its home for partition `p`; a turned partition's store to the outside is held (R363). -/
def State.homeStore (s : State) (p pa : Nat) (b : Byte) : State :=
  let a := s.norm pa
  if s.turned p && s.outside a then
    s.modPart p fun x => { x with egress := x.egress ++ [(x.epoch - s.back, .store a b)] }
  else s.storeByte p a b

def State.homeStores (s : State) (p : Nat) : List (Nat × Byte) → State
  | [] => s
  | (a, b) :: r => (s.homeStore p a b).homeStores p r

/-- A write from die `d` to lines of other devices drops its own far copies of them (R286). -/
def State.dropPeerLines (s : State) (d : Nat) (pas : List Nat) : State :=
  let ls := (pas.filter s.isPeer).map lineOf
  if ls.isEmpty then s else s.modDie d fun x => { x with far := x.far.filter fun c => c.ver.isSome || !ls.contains c.line }

/-- The bytes of a store update the copy of a line that a core holds (R285). -/
def patchCopy (bytes : List (Nat × Byte)) (c : LineCopy) : LineCopy :=
  if c.ver.isSome then c
  else { c with bytes := (List.range 64).map fun i => (bytes.lookup (64 * c.line + i)).getD (c.bytes.getD i 0) }
def State.patchNear (s : State) (core : Nat) (bytes : List (Nat × Byte)) : State :=
  s.modCore core fun x => { x with near := x.near.map (patchCopy bytes) }

/-- The bytes of a store, the later of two to one byte standing. -/
def lastOf : List (Nat × Byte) → List (Nat × Byte)
  | [] => []
  | (a, b) :: r => if r.any (·.1 == a) then lastOf r else (a, b) :: lastOf r

/-- How far a release at `sc` hides its entry; after a release fence at .die or wider every store is a release (R299). -/
def relClass (t : Team) (sc : Option Scope) : Nat :=
  if t.relFence then 2
  else match sc with
    | none => 0
    | some sc => if 2 ≤ sc.code then 2 else 1

/-- A store enters its core's write buffer (R285); a release does not change the core's copy before it is performed. -/
def State.bufStore (s : State) (t : Team) (seq : Nat) (counted : Bool) (rel : Nat) (va : W64) (bytes : List (Nat × Byte)) :
    State :=
  let bs := lastOf (bytes.map fun (a, b) => (s.norm a, b))
  let e : WEntry := ⟨t.id, seq, counted, (s.part t.part).epoch, rel, [], va, bs⟩
  let s := s.modCore t.core fun x => { x with wbuf := x.wbuf ++ [e] }
  if rel = 0 then s.patchNear t.core bs else if rel = 2 then s.noteRelease (bytes.map (·.1)) else s

/-- No update that an atomic of the team left in its core's write buffer is on its way. -/
def State.wclean (s : State) (t : Team) : Bool := (s.core t.core).wbuf.all fun e => e.team != t.id || e.counted

/-! ## Performing and failing -/

/-- Every earlier instruction of the team has passed its checks (R34). -/
def Team.closedBefore (t : Team) (num : Nat) : Bool := t.pend.all fun p => decide (num ≤ p.num) || !p.open_

/-- An acquire (R148). -/
def PKind.acquires : PKind → Bool
  | .load _ _ a _ | .ldv _ _ a _ _ | .latest _ _ a => a.isSome
  | .atomic _ _ _ _ o _ _ => o == .acq || o == .acqrel
  | _ => false

/-- Every earlier acquire of the team has been performed (R148). -/
def Team.acquiredBefore (t : Team) (num : Nat) : Bool :=
  t.pend.all fun p => decide (num ≤ p.num) || p.performed || !p.kind.acquires

/-- Release `p` at scope `sc` may be performed: the team's earlier accesses have been performed at that scope, and at .die
or wider what atomics before it left in the buffer and the stores that the team has observed stand at their homes (R148,
R297). -/
def State.releaseReady (s : State) (t : Team) (p : Pending) (sc : Scope) : Bool :=
  (t.pend.all fun q => decide (p.num ≤ q.num) || (if sc.code < 2 then q.atCore else q.performed || !q.kind.isAccess)) &&
    (decide (sc.code < 2) || !(s.core t.core).wbuf.any fun e =>
      (e.team != t.id && e.seen.contains t.id) || (e.team == t.id && !e.counted && decide (e.seq < p.seq)))

/-- Instruction `seq` is performed: its counter falls; its result waits to land, or it is forgotten. -/
def Team.perform (t : Team) (seq : Nat) (land : List RegWrite) : Team :=
  match t.pendOf seq with
  | none => t
  | some p =>
    let t := match p.ctr with
      | some c => { t.subCnt c with wd := 0 }
      | none => t
    let land := if p.banked then land.map (RegWrite.mapRef .bankOut) else land
    { t with pend := t.pend.filterMap fun q =>
        if q.seq == seq then
          (if q.dsts.isEmpty then none
            else some { q with
              performed := true
              open_ := false
              land := land })
        else some q }

/-- The counters fall that cancelled instructions had raised. -/
def Team.uncount (t : Team) : List Pending → Team
  | [] => t
  | p :: r =>
    let t := match p.performed, p.ctr with
      | false, some c => t.subCnt c
      | _, _ => t
    let t := match p.performed, p.kind with
      | false, .acp g .. => t.subTag g
      | _, _ => t
    t.uncount r

/-- The instructions numbered `num` and later are as if they had never issued (R34): the registers return to `r`. -/
def State.cancelFrom (s : State) (t : Team) (num : Nat) (r : Regs) : State × Team :=
  let gone := t.pend.filter fun p => decide (num ≤ p.num)
  let s := s.freePlaces t.id fun q => gone.any (·.seq == q)
  let t := t.uncount gone
  (s, { t with
    r := r
    port := false
    sbuf := t.sbuf.filter fun n => decide (n < num)
    olds := t.olds.filter fun (n, _) => decide (n < num)
    trap := none
    stat := if t.stat == .retiring then .running else t.stat
    stopReq := if t.stopRec.isSome then none else t.stopReq
    stopRec := none
    pend := (t.pend.filter fun p => !decide (num ≤ p.num)).map fun p =>
      { p with dropped := p.dropped.filter fun (_, k) => decide (k < num) } })

/-- Instruction `p` of team `t` fails a perform check. -/
def State.performFault (s : State) (t : Team) (p : Pending) (f : Fail) : State :=
  let (s, t) := s.cancelFrom t p.num p.snap
  s.raise t (t.faultAt f.code (BitVec.ofNat 64 f.addr) (laneWord f.lane))

/-- The owner's first load of a page whose frame has been retired since (R370): fault 0x40 tells the lowest lost granule, of those
still poisoned where there are any, and how many were lost (log 140). -/
def State.lostLoad (s : State) (t : Team) (p : Pending) (a : Acc) : Option State :=
  let told (f : Nat) : Bool := (s.lostFirst.get? f).isSome && s.groupOwnerOf (groupOf (f * pageBytes)) == t.part
  match a.pas.findIdx? fun pa => told (frameOf (s.norm pa)) with
  | none => none
  | some off =>
    let pa := s.norm (a.pas.getD off 0)
    let lost := s.lostFirst.get [] (frameOf pa)
    let left := lost.filter fun g => s.poison.get 0 g != 0
    let g := ((if left.isEmpty then lost else left).min?).getD 0
    let c := ({ s with lostFirst := s.lostFirst.del (frameOf pa) } : State).cancelFrom t p.num p.snap
    some (c.1.raise c.2 (c.2.faultAt 0x40 (BitVec.ofNat 64 (a.va.toNat + off + 32 * g - pa))
      (BitVec.ofNat 64 ((laneWord a.lane).toNat % 2 ^ 32 + lost.length * 2 ^ 32))))

/-! ## Values -/

/-- The bytes of an access as a number, extended to 64 bits where it is signed. -/
def extendTo64 (bytes : Nat) (sgn : Bool) (x : Nat) : Nat :=
  if sgn then (keepS (8 * bytes) x).toNat else x

/-- The writes that deliver the bytes of one lane's access. -/
def Dst.deliver (d : Dst) (lane : Nat) (bs : List Byte) : List RegWrite :=
  destWrites d.d d.bytes lane (extendTo64 d.bytes d.signed (leNat bs))

def Dst.refs (d : Dst) : List RegRef :=
  match d.d with
  | .v i => (span i.val (regsOf d.bytes)).map .v
  | .s i => (span i.val (sregsOf d.bytes)).map .s

end Sys2Proof.Machine
end

