-- ==== Sys2Proof/Machine/Memory.lean ====
section
/-!
DEFINITION. Memory, atomic, async-copy, lease and cache instructions: what they do when they issue (R135-R154, R164, R165,
R172-R176). What is still to do is performed by the events of Perform.lean.
-/
namespace Sys2Proof.Machine

/-- The requests of a memory instruction: one a lane, `n` bytes at the address plus `off`, aligned to `al`. -/
def memReqs (s : State) (t : Team) (lanes : List Nat) (a : Opnd) (off n al : Nat) : List Req :=
  lanes.map fun l =>
    let va := addrOf s t a l + off
    ⟨l, va, n, if va % al = 0 then none else some (0x13, va56 va)⟩

def nowhereBad : Nat → Bool := fun _ => false

/-- The checks of `reqs`, then the watches, then `k`. -/
def withAccess (s : State) (t : Team) (kind : AccKind) (cl : PClass) (bad : Nat → Bool) (reads writes : Bool)
    (reqs : List Req) (k : State → List Acc → Eff) : Eff :=
  match s.checkReqs t kind cl bad reqs with
  | (_, .error f) => f.eff
  | (s, .ok accs) => s.watching t reads writes reqs (k s accs)

/-! ## Loads and stores (R143) -/

def szlSigned : SZL → Bool
  | .i8 | .i16 => true
  | _ => false

def ldEff (ty : SZL) (acq : Option Scope) (x : MArgs) (s : State) (t : Team) : Eff :=
  let n := ty.bytes
  let dst : Dst := ⟨x.d, n, szlSigned ty⟩
  withAccess s t .load .plain nowhereBad true false
    (memReqs s t (accessLanes t x.g (some x.d)) x.a (x.off.toNat * n) n 1)
    fun s accs => .ok (s.pendAdd t x.la (some 0) (.load dst accs acq []) true false dst.refs [])
def execLd (t : SZL) (x : MArgs) (s : State) : Out := issue (.ld t x) (ldEff t none x) s
def execLdAcq (t : SZL) (sc : Scope) (x : MArgs) (s : State) : Out := issue (.ldAcq t sc x) (ldEff t (some sc) x) s

/-- The `n` bytes of a data operand (R136). -/
def dataBytes (s : State) (t : Team) (x : Opnd) (n l : Nat) : List Byte :=
  if n = 16 then
    match x with
    | .v i _ => (List.range 4).flatMap fun k => leBytes 4 (t.r.lane (i.val + k) l).toNat
    | .s i => leBytes 8 (t.r.sget i.val).toNat ++ leBytes 8 (t.r.sget (i.val + 1)).toNat
    | _ => leBytes 16 (opnd s t (.int true) x l).toNat
  else leBytes n (opnd s t (.int (n == 8)) x l).toNat

/-- Each lane's bytes at their places, ascending lanes, so that the higher lane stands (R138). -/
def storeCells (s : State) (t : Team) (b : Opnd) (n : Nat) (accs : List Acc) : List (Nat × Byte) :=
  accs.flatMap fun a => a.pas.zip (dataBytes s t b n a.lane)

def stEff (ty : SZS) (rel : Option Scope) (x : MArgs) (s : State) (t : Team) : Eff :=
  let n := ty.bytes
  withAccess s t .store .plain nowhereBad false true
    (memReqs s t (t.active x.g) x.a (x.off.toNat * n) n 1)
    fun s accs =>
      let cells := storeCells s t x.b n accs
      let s := if cells.isEmpty then s else s.bufStore t t.nseq true (relClass t rel) 0 cells
      .ok (s.pendAdd t x.la (some 1) (.store (accs.map fun a => (a, dataBytes s t x.b n a.lane)) rel (!cells.isEmpty))
        false false [] [])
def execSt (t : SZS) (x : MArgs) (s : State) : Out := issue (.st t x) (stEff t none x) s
def execStRel (t : SZS) (sc : Scope) (x : MArgs) (s : State) : Out := issue (.stRel t sc x) (stEff t (some sc) x) s

/-- Scratch accesses of `n` bytes at the operand plus `off` (R146). -/
def withScratch (s : State) (t : Team) (lanes : List Nat) (a : Opnd) (off n al : Nat) (k : List Acc → Eff) : Eff :=
  match scratchReqs t al (lanes.map fun l => (l, scratchOf s t a l + off, n)) with
  | .error f => f.eff
  | .ok accs => k accs

def ldsEff (ty : SZL) (x : MArgs) (s : State) (t : Team) : Eff :=
  let n := ty.bytes
  let dst : Dst := ⟨x.d, n, szlSigned ty⟩
  withScratch s t (accessLanes t x.g (some x.d)) x.a (x.off.toNat * n) n 1
    fun accs => .ok (s.pendAdd t x.la (some 0) (.lds dst accs) true false dst.refs [])
def execLds (t : SZL) (x : MArgs) (s : State) : Out := issue (.lds t x) (ldsEff t x) s

def stsEff (ty : SZS) (x : MArgs) (s : State) (t : Team) : Eff :=
  let n := ty.bytes
  withScratch s t (t.active x.g) x.a (x.off.toNat * n) n 1
    fun accs => .ok (s.pendAdd t x.la (some 1) (.sts (storeCells s t x.b n accs)) false false [] [])
def execSts (t : SZS) (x : MArgs) (s : State) : Out := issue (.sts t x) (stsEff t x) s

/-! ## Atomics (R150-R154) -/

def atBytes (t : AtomTy) : Nat := 4 * t.regs
def atTy : AtomTy → OpTy
  | .f32 => .flt .f32
  | .i64 | .n64 => .int true
  | .i32 | .n32 => .int false

/-- Host memory offers `.add` on integers, `.xchg` and `.cas` (R153). -/
def hostOffers (op : AT) (cas : Bool) (t : AtomTy) : Bool := cas || op == .xchg || (op == .add && t != .f32)

/-- The target does not offer the atomic (0x14): R153, R283, R363; device registers offer none. -/
def State.atomicBad (s : State) (t : Team) (offers : Bool) (pa : Nat) : Bool :=
  (match s.space pa with
    | .here => (s.homeSlice pa).isNone
    | .peer _ => false
    | .host => !offers
    | _ => true) || (s.turned t.part && s.outside pa)

/-- What a lane expects of a compare-and-swap: its destination register (R151). -/
def expectedOf (t : Team) (d : Option Dest) (wide : Bool) (l : Nat) : W64 :=
  match d with
  | some (.v i) => if wide then join64 (t.r.lane i.val l) (t.r.lane (i.val + 1) l) else (t.r.lane i.val l).zeroExtend 64
  | some (.s i) => t.r.sget i.val
  | none => 0

/-- Accesses with operand and expected value. -/
def atomLanes (s : State) (t : Team) (ty : AtomTy) (d : Option Dest) (b : Opnd) (accs : List Acc) :
    List (Acc × W64 × W64) :=
  accs.map fun a => (a, opnd s t (atTy ty) b a.lane, expectedOf t d (ty.regs == 2) a.lane)

def atDst (d : Dest) (ty : AtomTy) : Dst := ⟨d, atBytes ty, ty == .i32⟩

def atomEff (op : AT) (cas : Bool) (sc : Scope) (o : Order) (ty : AtomTy) (res : Bool) (x : RArgs) (s : State)
    (t : Team) : Eff :=
  let d := if res then some x.d else none
  let n := atBytes ty
  withAccess s t .store .plain (s.atomicBad t (hostOffers op cas ty)) res true
    (memReqs s t (accessLanes t x.g d) x.a 0 n n)
    fun s accs =>
      let dst := d.map fun d => atDst d ty
      .ok (s.pendAdd t x.la (some 1) (.atomic op cas ty sc o dst (atomLanes s t ty d x.b accs)) true false
        (match dst with
          | some k => k.refs
          | none => []) [])
def execAtom (op : AT) (sc : Scope) (o : Order) (t : AtomTy) (x : RArgs) (s : State) : Out :=
  issue (.atom op sc o t x) (atomEff op false sc o t true x) s
def execAtomCas (sc : Scope) (o : Order) (t : AtomTy) (x : RArgs) (s : State) : Out :=
  issue (.atomCas sc o t x) (atomEff .xchg true sc o t true x) s
def execRed (op : AT) (sc : Scope) (o : Order) (t : AtomTy) (x : RArgs) (s : State) : Out :=
  issue (.red op sc o t x) (atomEff op false sc o t false x) s

def atomsEff (op : AT) (cas : Bool) (ty : AtomTy) (x : RArgs) (s : State) (t : Team) : Eff :=
  let n := atBytes ty
  let dst := atDst x.d ty
  withScratch s t (accessLanes t x.g (some x.d)) x.a 0 n n fun accs =>
    .ok (s.pendAdd t x.la (some 1) (.atoms op cas ty dst (atomLanes s t ty (some x.d) x.b accs)) true false dst.refs [])
def execAtoms (op : AT) (sc : Scope) (o : Order) (t : AtomTy) (x : RArgs) (s : State) : Out :=
  issue (.atoms op sc o t x) (atomsEff op false t x) s
def execAtomsCas (sc : Scope) (o : Order) (t : AtomTy) (x : RArgs) (s : State) : Out :=
  issue (.atomsCas sc o t x) (atomsEff .xchg true t x) s

/-! ## Per-lane async copies (R164, R165) -/

def acpReqs (s : State) (t : Team) (x : RArgs) (lanes : List Nat) : List Req :=
  lanes.map fun l =>
    let n := (lane32 s t x.c l).toNat
    let b := scratchOf s t x.b l
    let va := addrOf s t x.a l
    ⟨l, va, n,
      if 32 < n then some (0x14, va56 va)
      else if b % 32 ≠ 0 then some (0x13, b)
      else if t.scrS < b + 32 then some (0x12, max b t.scrS)
      else none⟩

/-- The 32 scratch bytes of each lane's copy: the bytes read, then zeros. -/
def acpCells (s : State) (t : Team) (b : Opnd) (accs : List Acc) : List (Nat × Option Nat) :=
  accs.flatMap fun a => (List.range 32).map fun i => (scratchOf s t b a.lane + i, a.pas[i]?)

def acpEff (tag : Fin 8) (x : RArgs) (s : State) (t : Team) : Eff :=
  withAccess s t .engRead .plain nowhereBad true false (acpReqs s t x (t.active x.g)) fun s accs =>
    let s := s.pendAdd t x.la (some 2) (.acp tag.val accs (acpCells s t x.b accs) [] (s.observed t)) false false [] []
    .ok (s.modTeam t.id fun u => u.addTag tag.val)
def execAcp (tag : Fin 8) (x : RArgs) (s : State) : Out := issue (.acp tag x) (acpEff tag x) s

/-- R165. -/
def acpwReady (tag : Nat) (t : Team) : Bool := t.tag tag == 0
def acpwEff (tag : Fin 8) (s : State) (t : Team) : Eff := if acpwReady tag.val t then .ok s else .wait
def execAcpw (tag : Fin 8) (g : Guard) (s : State) : Out := issue (.acpw tag g) (acpwEff tag) s

/-! ## Leases (R172-R174, R288) -/

/-- The lines of a virtual range, at their physical addresses. -/
def linesOf (l : List (Nat × Nat × Tlb)) : List Nat :=
  l.flatMap fun (va, n, e) => (List.range (n / 64)).map fun k => lineOf (e.pbase + (va - e.vbase) + 64 * k)

/-- No slice would hold more than 3 MiB of pinned lines. -/
def State.pinFits (s : State) (ps : List (Nat × Nat × Tlb)) : Bool :=
  let home (sl k : Nat) : Bool := s.homeSlice (64 * k) == some sl
  (List.range 96).all fun sl =>
    let new_ := ((linesOf ps).filter (home sl)).length
    new_ == 0 || decide (64 * (new_ + (s.pinnedLines.filter (home sl)).length) ≤ 3 * 2 ^ 20)

/-- `lease` is performed at issue, so W1 has fallen again when the next instruction issues (log 111). -/
def leaseEff (x : RArgs) (s : State) (t : Team) : Eff :=
  let va := va56 (addrOf s t x.a 0)
  let len := (uni s t x.b).toNat
  let dur := (uni s t x.c).toNat
  let bad (c : Nat) : Eff := .fault c (BitVec.ofNat 64 va) noLane
  if va % 4096 ≠ 0 ∨ len % 4096 ≠ 0 ∨ len = 0 ∨ !within dur 1 1000000 then bad 0x14
  else
    match s.checkRange t.core t.part t.level .load .plain va len with
    | (_, .error b) => .fault b.code (BitVec.ofNat 64 b.addr) noLane
    | (s, .ok ps) =>
      let lines := linesOf ps
      let ls := (s.part t.part).leases
      if s.turned t.part && lines.any fun k => s.outside (64 * k) then bad 0x14
      else if lines.any fun k => s.isHost (64 * k) then bad 0x16
      else if lines.any fun k => s.noSlice (64 * k) then bad 0x14
      else if s.preg t.part 2 < len + (ls.map (·.len)).sum ∨ 64 ≤ ls.length
          ∨ ls.any (fun l => (overlapAt l.base.toNat l.len va len).isSome) ∨ !s.pinFits ps then bad 0x16
      else .ok ((s.reachLines t.part (lines.map fun k => lineOf (s.norm (64 * k)))).modPart t.part fun p => { p with
        leases := p.leases ++ [⟨BitVec.ofNat 64 va, len, s.now + 1000 * dur⟩] })
def execLease (x : RArgs) (s : State) : Out := issue (.lease x) (leaseEff x) s

/-- `unlease` is performed at issue (log 111). -/
def unleaseEff (x : RArgs) (s : State) (t : Team) : Eff :=
  let va := BitVec.ofNat 64 (va56 (addrOf s t x.a 0))
  if (s.part t.part).leases.any (·.base == va) then
    .ok (s.modPart t.part fun p => { p with leases := p.leases.filter (·.base != va) })
  else .fault 0x14 va noLane
def execUnlease (x : RArgs) (s : State) : Out := issue (.unlease x) (unleaseEff x) s

/-! ## Prefetch and cache control (R175, R176) -/

/-- The line a lane prefetches, where it may be fetched at all. -/
def State.prefLine (s : State) (t : Team) (va : Nat) : State × Option Nat :=
  let a := va56 va / 64 * 64
  match s.checkRange t.core t.part t.level .load .plain a 64 with
  | (s, .error _) => (s, none)
  | (s, .ok l) =>
    match physOf l with
    | pa :: _ => (s, if s.poisoned pa || s.poisoned (pa + 32) then none else some (lineOf (s.norm pa)))
    | [] => (s, none)

/-- A hinted line is always fetched, at issue, and takes the place of a copy already held (log 112). -/
def State.prefAt (s : State) (t : Team) (lv : PL) (line : Nat) : State :=
  match lv with
  | .near => s.fillLine t .home line
  | .die => s.reach t.part line
  | .far =>
    let d := dieOfCore t.core
    let s := s.reach t.part line
    if s.farable d line then s.putFar d ⟨t.part, line, none, s.homeLine t.part line, s.now⟩ else s

def State.prefAll (s : State) (t : Team) (lv : PL) : List Nat → State
  | [] => s
  | va :: r =>
    match s.prefLine t va with
    | (s, some line) => (s.prefAt t lv line).prefAll t lv r
    | (s, none) => s.prefAll t lv r

def prefEff (lv : PL) (x : MArgs) (s : State) (t : Team) : Eff :=
  .ok (s.prefAll t lv ((t.active x.g).map fun l => addrOf s t x.a l + 64 * x.off.toNat))
def execPref (l : PL) (x : MArgs) (s : State) : Out := issue (.pref l x) (prefEff l x) s

/-- The physical lines a range touches. -/
def touchedLines (ps : List (Nat × Nat × Tlb)) : List Nat :=
  (ps.flatMap fun (va, n, e) =>
    let a := e.pbase + (va - e.vbase)
    (List.range ((a + n - 1) / 64 - a / 64 + 1)).map (a / 64 + ·)).eraseDups

/-- The checks are made at issue, and what `cctl` does later (R141). A versioned page raises no fault, and a pending version
store is no store that `.clean` waits for (log 113). -/
def cctlEff (op : CC) (x : RArgs) (s : State) (t : Team) : Eff :=
  let va := va56 (addrOf s t x.a 0)
  let len := (uni s t x.b).toNat
  if !within len 1 (2 ^ 32) then .fault 0x14 (BitVec.ofNat 64 va) noLane
  else
    match s.xlate t.core t.part (rangePieces va len) with
    | (_, .error b) => .fault b.code (BitVec.ofNat 64 b.addr) noLane
    | (s, .ok ps) =>
      match ps.find? fun (_, _, e) => !e.permits t.level .load with
      | some (a, _, _) => .fault 0x11 (BitVec.ofNat 64 a) noLane
      | none =>
        let lines := (touchedLines ps).map fun l => lineOf (s.norm (64 * l))
        .ok (s.pendAdd t x.la (some 1) (.cctl lines (op != .inv) (op != .clean)) false false [] [])
def execCctl (op : CC) (x : RArgs) (s : State) : Out := issue (.cctl op x) (cctlEff op x) s

/-! ## Fences (R149, R297, R299) -/

/-- What a fence waits for of one pending instruction. -/
def fenceWaits (op : FN) (sc : Scope) (p : Pending) : Bool :=
  !p.performed && match p.kind with
    | .load .. | .lds .. | .ldv .. | .latest .. | .vqry .. => true
    | .store .. => op != .acq && decide (2 ≤ sc.code)
    | .sts .. => op != .acq
    | .atomic _ _ _ _ _ d _ => op != .acq || d.isSome
    | .atoms .. => true
    | .rdo .. | .stv .. | .vflr .. => op != .acq
    | .result | .cctl .. | .acp .. | .emit .. => false

/-- R149: the clause of the fence may start. A release at .die or wider also waits for the stores of other teams that
the team has observed (R148). -/
def fenceReady (op : FN) (sc : Scope) (s : State) (t : Team) : Bool :=
  !t.pend.any (fenceWaits op sc) &&
    (op == .acq || sc.code < 2 || !(s.core t.core).wbuf.any fun e => e.team == t.id || e.seen.contains t.id)

def fenceEff (op : FN) (sc : Scope) (s : State) (t : Team) : Eff :=
  if !fenceReady op sc s t then .wait
  else
    let s := if op == .rel then s else s.acquire t sc
    let s := if op == .acq then s else s.modTeam t.id fun u => u.released (some sc)
    .ok (if op != .acq && decide (2 ≤ sc.code) then s.modTeam t.id fun u => { u with relFence := true } else s)
def execFence (op : FenceOp) (sc : Scope) (g : Guard) (s : State) : Out :=
  issue (.fence op sc g) (fenceEff op.kind sc) s

end Sys2Proof.Machine
end

