-- ==== Sys2Proof/Machine/Matrix.lean ====
section
/-!
DEFINITION. The matrix array (R177-R193, R78-R82): format blocks, the exact block sums and their one rounding, the queue,
and the matrix instructions at issue.
-/
namespace Sys2Proof.Machine

/-! ## Format blocks (R180, R181) -/

def fmtA (w : List W64) : Nat := fld w 0 3 0
def fmtB (w : List W64) : Nat := fld w 0 7 4
def lenA (w : List W64) : Nat := 16 * 2 ^ fld w 0 9 8
def lenB (w : List W64) : Nat := 16 * 2 ^ fld w 0 11 10
def scaledA (w : List W64) : Bool := fld w 0 12 12 == 1
def scaledB (w : List W64) : Bool := fld w 0 13 13 == 1

/-- Bits of an element. -/
def elemBits (code : Nat) : Nat :=
  match Fmt.of code with
  | some f => (Fmt.kind f).width
  | none => 8
/-- The packed column size. -/
def colBytes (code : Nat) : Nat := 8 * elemBits code
/-- Registers per K-step of A. -/
def kRegs (w : List W64) : Nat := colBytes (fmtA w) / 4
/-- The row of R181's table; 0 for none. -/
def fmtRow (code : Nat) : Nat :=
  match Fmt.of code with
  | some .e4m3 | some .e5m2 => 1
  | some .i8 | some .i4 => 2
  | some .l6 | some .l4 => 3
  | some .f16 => 4
  | some .bf16 => 5
  | _ => 0

def colStride (w : List W64) : Nat := let s := fld w 3 15 0; if s = 0 then colBytes (fmtB w) else s
def bStep (w : List W64) : Nat := let s := fld w 3 63 32; if s = 0 then 64 * colStride w else s
def aScaleStep (w : List W64) : Nat := let s := fld w 1 47 32; if s = 0 then 64 * (64 / lenA w) else s
def bScaleStep (w : List W64) : Nat := let s := fld w 2 47 32; if s = 0 then 64 * (64 / lenB w) else s

def fmtOk (w : List W64) : Bool :=
  let bcs := fld w 3 15 0
  fld w 0 63 14 == 0 && fld w 1 63 48 == 0 && fld w 2 63 48 == 0 && fld w 3 31 16 == 0
    && wd w 4 == 0 && wd w 5 == 0 && wd w 6 == 0 && wd w 7 == 0
    && fmtRow (fmtA w) != 0 && fmtRow (fmtA w) == fmtRow (fmtB w)
    && fld w 0 9 8 != 3 && fld w 0 11 10 != 3
    && (decide (fmtRow (fmtA w) < 4) || (!scaledA w && !scaledB w))
    && (bcs == 0 || (decide (colBytes (fmtB w) ≤ bcs) && bcs % 16 == 0))

/-! ## Products and block sums (R78-R80, R60) -/

/-- An element of a packed run. -/
def elemAt (bits run k : Nat) : Nat := run / 2 ^ (bits * k) % 2 ^ bits

/-- A product: its exact value, and whether it raises NV. -/
structure Prod where
  v : FVal
  nv : Bool
  deriving DecidableEq, Repr

def prodFloat (a b : FVal) : Prod :=
  match a, b with
  | .nan _, _ | _, .nan _ => ⟨.nan false, false⟩
  | .inf x, .inf y => ⟨.inf (x != y), false⟩
  | .inf x, .fin y m _ | .fin y m _, .inf x => if m = 0 then ⟨.nan false, true⟩ else ⟨.inf (x != y), false⟩
  | .fin x m e, .fin y n f => ⟨.fin (x != y) (m * n) (e + f), false⟩

/-- The exponent field in quarters. -/
def LFmt.quarters (L : LFmt) (m : Int) : Int := if L.q = 4 then m else 2 * m

def prodLog (ka : LFmt) (a : LVal) (kb : LFmt) (b : LVal) : Prod :=
  match a, b with
  | .nan, _ | _, .nan => ⟨.nan false, false⟩
  | .zero, _ | _, .zero => ⟨.fin false 0 0, false⟩
  | .num x m, .num y n =>
    let g := logMag (ka.quarters m + kb.quarters n)
    ⟨.fin (x != y) g.1 g.2, false⟩

def prodInt (a b : Int) : Prod := ⟨.fin (decide (a * b < 0)) (a * b).natAbs 0, false⟩

/-- The product of element codes of formats `fa` and `fb`. -/
def prodOf (fa fb : FmtKind) (a b : Nat) : Prod :=
  match fa, fb with
  | .flt x, .flt y => prodFloat (x.value a) (y.value b)
  | .log x, .log y => prodLog x (x.value a) y (y.value b)
  | .int x, .int y => prodInt (x.value a) (y.value b)
  | _, _ => ⟨.nan false, false⟩

/-- A sum of exact products. -/
structure BSum where
  nan : Bool
  nv : Bool
  pinf : Bool
  ninf : Bool
  s : Int
  e : Int
  allNegZero : Bool
  deriving DecidableEq, Repr

def BSum.zero : BSum := ⟨false, false, false, false, 0, 0, true⟩

def BSum.add (x : BSum) (p : Prod) : BSum :=
  let x := { x with nv := x.nv || p.nv }
  match p.v with
  | .nan _ => { x with nan := true }
  | .inf false => { x with
    pinf := true
    allNegZero := false }
  | .inf true => { x with
    ninf := true
    allNegZero := false }
  | .fin n m e =>
    let lo := min x.e e
    { x with
      s := x.s * 2 ^ (x.e - lo).toNat + signed n m * 2 ^ (e - lo).toNat
      e := lo
      allNegZero := x.allNegZero && n && m == 0 }

/-- S, and whether NV is raised. -/
def BSum.value (x : BSum) : FVal × Bool :=
  if x.nan || (x.pinf && x.ninf) then (.nan false, x.nv || (x.pinf && x.ninf))
  else if x.pinf then (.inf false, x.nv)
  else if x.ninf then (.inf true, x.nv)
  else if x.s = 0 then (.fin x.allNegZero 0 0, x.nv)
  else (.fin (decide (x.s < 0)) x.s.natAbs x.e, x.nv)

/-- An X8 scale (R63): `none` is the NaN scale. -/
def scaleOf (b : Nat) : Option Int :=
  if b = 0x80 then none else if b < 0x80 then some b else some ((b : Int) - 256)

/-- S scaled by both scales. -/
def scaled (s : FVal) (ka kb : Option Int) : FVal :=
  match ka, kb with
  | some a, some b =>
    match s with
    | .fin n m e => .fin n m (e + a + b)
    | x => x
  | _, _ => .nan false

/-- The operands of one K-step, as the bytes read: 64 rows, 64 columns as numbers, and their scales, `none` where the
operand has none. -/
structure KStep where
  rows : List Nat
  cols : List Nat
  sa : Option (List (List Nat))
  sb : Option (List (List Nat))
  deriving DecidableEq, Repr

def scaleAt (s : Option (List (List Nat))) (i b : Nat) : Option Int :=
  match s with
  | none => some 0
  | some l => scaleOf ((l.getD i []).getD b 0)

/-- The summation blocks of output (i, j) added to `acc` in order (R80). -/
def kOutput (w : List W64) (fa fb : FmtKind) (k : KStep) (i j : Nat) : List Nat → Nat × W32 → Nat × W32
  | [], acc => acc
  | kb :: r, acc =>
    let len := min (lenA w) (lenB w)
    let row := k.rows.getD i 0
    let col := k.cols.getD j 0
    let s := (List.range len).foldl
      (fun x q => x.add (prodOf fa fb (elemAt fa.width row (kb + q)) (elemAt fb.width col (kb + q)))) BSum.zero
    let v := scaled s.value.1 (scaleAt k.sa i (kb / lenA w)) (scaleAt k.sb j (kb / lenB w))
    let y := ff32.addV .rne (ff32.value acc.1) v
    kOutput w fa fb k i j r (y.1, acc.2 ||| y.2 ||| (if s.value.2 then fNV else 0))

/-- One K-step into a bank of 4,096 values; the flags it raises. -/
def kApply (w : List W64) (k : KStep) (bank : List Nat) : List Nat × W32 :=
  match Fmt.of (fmtA w), Fmt.of (fmtB w) with
  | some fa, some fb =>
    let len := min (lenA w) (lenB w)
    let starts := (List.range (64 / len)).map (· * len)
    let outs := (List.range 4096).zip bank |>.map fun (n, a) => kOutput w (Fmt.kind fa) (Fmt.kind fb) k (n / 64) (n % 64) starts (a, 0)
    (outs.map (·.1), outs.foldl (fun f o => f ||| o.2) 0)
  | _, _ => (bank, 0)

def kApplyAll (w : List W64) : List KStep → List Nat → List Nat × W32
  | [], bank => (bank, 0)
  | k :: r, bank =>
    let x := kApply w k bank
    let y := kApplyAll w r x.1
    (y.1, x.2 ||| y.2)

/-! ## Banks -/

def Matrix.empty : Matrix := ⟨[], [], 0, none, List.replicate 8 0, []⟩
def Matrix.elem (m : Matrix) (bank n : Nat) : Nat := (m.acc.get 0 (4096 * bank + n)).toNat
def Matrix.bank (m : Matrix) (c : Nat) : List Nat := (List.range 4096).map (m.elem c)
/-- Replace bank `c`. -/
def Matrix.setBank (m : Matrix) (c : Nat) (vs : List Nat) : Matrix :=
  let mine := (List.range 4096).zip vs |>.filterMap fun (n, v) =>
    if v = 0 then none else some (4096 * c + n, BitVec.ofNat 32 v)
  { m with acc := m.acc.filter (decide <| ·.1 < 4096 * c) ++ mine ++ m.acc.filter (decide <| 4096 * (c + 1) ≤ ·.1) }
def Matrix.raise (m : Matrix) (c : Nat) (f : W32) : Matrix := { m with flags := m.flags.set 0 c (m.flags.get 0 c ||| f) }
def Matrix.setPoison (m : Matrix) (c : Nat) (b : Bool) : Matrix :=
  { m with poison := if b then m.poison ||| (1#4 <<< c) else m.poison &&& ~~~(1#4 <<< c) }

/-! ## Operands in scratch and registers (R184, R185) -/

/-- The 64 packed columns, and the scales, of K-step `s`: addresses in reading order. -/
def colAddrs (w : List W64) (boff s : Nat) : List (List Nat) :=
  (List.range 64).map fun j => span (boff + s * bStep w + j * colStride w) (colBytes (fmtB w))
def scaleAAddrs (w : List W64) (s : Nat) : List (List Nat) :=
  if scaledA w then (List.range 64).map fun i => span (fld w 1 31 0 + s * aScaleStep w + i * (64 / lenA w)) (64 / lenA w)
  else []
def scaleBAddrs (w : List W64) (s : Nat) : List (List Nat) :=
  if scaledB w then (List.range 64).map fun j => span (fld w 2 31 0 + s * bScaleStep w + j * (64 / lenB w)) (64 / lenB w)
  else []
/-- Every scratch byte that K-step `s` reads. -/
def kAddrs (w : List W64) (boff s : Nat) : List Nat :=
  (colAddrs w boff s).flatten ++ (scaleAAddrs w s).flatten ++ (scaleBAddrs w s).flatten

/-- Cut a list into runs of `n`. -/
def runsOf (n : Nat) : Nat → List Nat → List (List Nat)
  | 0, _ => []
  | k + 1, l => l.take n :: runsOf n k (l.drop n)

/-- Row `i` of K-step `s` in collected rows, which are keyed 256 i + byte. -/
def rowNat (rows : Table Byte) (n i s : Nat) : Nat := leNat ((List.range n).map fun b => rows.get 0 (256 * i + s * n + b))

/-- A K-step from its rows and the B and scale bytes in reading order. -/
def kStepOf (w : List W64) (rows : Table Byte) (s : Nat) (bytes : List Nat) : KStep :=
  let cb := colBytes (fmtB w)
  let nat (l : List Nat) : Nat := l.foldr (fun b acc => b + 256 * acc) 0
  let na := 64 / lenA w
  let nb := 64 / lenB w
  let rest := bytes.drop (64 * cb)
  { rows := (List.range 64).map fun i => rowNat rows (colBytes (fmtA w)) i s
    cols := (runsOf cb 64 bytes).map nat
    sa := if scaledA w then some (runsOf na 64 rest) else none
    sb := if scaledB w then some (runsOf nb 64 (if scaledA w then rest.drop (64 * na) else rest)) else none }

/-- Scratch byte `a` for K-step `s` of an entry, with its poison: as the K-step has read it, or as it stands (R189). -/
def Team.kByte (t : Team) (got : Table (Byte × Bool)) (s a : Nat) : Byte × Bool :=
  (got.get? (2 ^ 32 * s + a)).getD (t.scrByte a, t.scrBad a)
def Team.kBytes (t : Team) (got : Table (Byte × Bool)) (w : List W64) (boff s : Nat) : List Byte :=
  (kAddrs w boff s).map fun a => (t.kByte got s a).1

/-- `n × r` registers from `v[a]`, all rows (R184, R188). -/
def collect (t : Team) (a regs : Nat) : Table Byte :=
  (List.range (min 64 t.w)).flatMap fun i => (List.range regs).flatMap fun q =>
    (List.range 4).filterMap fun b =>
      let x : Byte := (t.r.lane (a + q) i).extractLsb' (8 * b) 8
      if x = 0 then none else some (256 * i + 4 * q + b, x)

/-! ## Performing a queue entry -/

def mstWidth (f : MS) : Nat := if f = .f32 then 4 else 2
/-- RS' of R191. -/
def rowStride (rs e : Nat) : Nat := if rs = 0 then 64 * e else rs
def bankAddrs (off rs e : Nat) : List Nat :=
  (List.range 4096).map fun n => off + n / 64 * rowStride rs e + n % 64 * e

/-- An element as `mst` writes it (R82), and its flags. -/
def mstElem (f : MS) (v : Nat) : Nat × W32 :=
  match f with
  | .f32 => (v, 0)
  | .bf16 => let x := convert false .rne .bf16 .f32 v; (x.1.toNat % 2 ^ 16, x.2 &&& (fOF ||| fUF ||| fNX))
  | .f16 => let x := convert false .rne .f16 .f32 v; (x.1.toNat % 2 ^ 16, x.2 &&& (fOF ||| fUF ||| fNX))

/-- The multiply of a queue entry from its K-step bytes. -/
def Matrix.multiply (m : Matrix) (set : Bool) (c : Nat) (w : List W64) (ks : List KStep) (bad : Bool) : Matrix :=
  let bank := if set then List.replicate 4096 0 else m.bank c
  let x := kApplyAll w ks bank
  let m := (m.setBank c x.1).raise c x.2
  if bad then m.setPoison c true else if set then m.setPoison c false else m

def Team.putAll (t : Team) : List (Nat × Nat × Nat) → Team
  | [] => t
  | (a, e, v) :: r => (t.scrPuts a (leBytes e v)).putAll r

def Team.poisonAll (t : Team) : List Nat → Team
  | [] => t
  | g :: r => (t.scrPoisonGr g).poisonAll r

/-- The granules of byte offsets. -/
def granulesOf (l : List Nat) : List Nat := (l.map (· / 32)).eraseDups

/-- The effect of queue entry `op` on the team that holds the array, whose K-steps have read `got`. The manual leaves open
when between issue and performance a K-step reads its B and scale bytes (R189): here each is read on its own, while the
entry is the oldest of the queue, and what is left when the entry is performed (log 135). -/
def Team.runEntry (t : Team) (m : Matrix) (op : MOp) (got : Table (Byte × Bool)) : Team :=
  match op with
  | .fmt w => { t with mtx := some { m with fmt := w } }
  | .zero c => { t with mtx := some ((m.setBank c []).setPoison c false) }
  | .mul set c n boff rows w =>
    let ks := (List.range n).map fun s => kStepOf w rows s ((t.kBytes got w boff s).map (·.toNat))
    let bad := (List.range n).any fun s => (kAddrs w boff s).any fun a => (t.kByte got s a).2
    { t with mtx := some (m.multiply set c w ks bad) }
  | .ld c off rs =>
    let as_ := bankAddrs off rs 4
    { t with mtx := some ((m.setBank c (as_.map fun a => t.scrNat a 4)).setPoison c
        (as_.any fun a => t.scrBad a || t.scrBad (a + 3))) }
  | .st f c off rs =>
    let e := mstWidth f
    let as_ := bankAddrs off rs e
    let vs := (m.bank c).map (mstElem f)
    let t := t.putAll ((as_.zip vs).map fun (a, v) => (a, e, v.1))
    let t := if m.poison.getLsbD c then t.poisonAll (granulesOf as_) else t
    { t with mtx := some (m.raise c (vs.foldl (fun g v => g ||| v.2) 0)) }

/-! ## Reading a block at issue -/

/-- The words at `pas`, read at their homes. -/
def State.wordsAt (s : State) (p n : Nat) (pas : List Nat) : List W64 :=
  (List.range n).map fun i => BitVec.ofNat 64 (leNat (((pas.drop (8 * i)).take 8).map (s.homeByte p)))

/-- The block at `pas` can be read now: its bytes can be reached (R377), and no store to it that the team has observed is
still on its way (R301). -/
def State.blockOpen (s : State) (t : Team) (pas : List Nat) : Bool := s.hostOpen pas && !s.unobserved (s.observed t) pas

/-- A block of `n` 8-byte words read whole at issue, at its homes (R139): alignment, translation, permission, class, an answer
from another device (R386), poison. It waits while its bytes cannot be read. `first` are the faults of 0x10-0x14 and 0x33 that
the words lead to: they take precedence over a watch (R398). -/
def withBlockAnd (first : State → List W64 → Option Eff) (s : State) (t : Team) (va n align : Nat)
    (k : State → List W64 → Eff) : Eff :=
  let a := va56 va
  let bad (c x : Nat) : Eff := .fault c (BitVec.ofNat 64 x) noLane
  if a % align ≠ 0 then bad 0x13 a
  else
    match s.checkRange t.core t.part t.level .load .plain a (8 * n) with
    | (_, .error b) => bad b.code b.addr
    | (s, .ok l) =>
      let pas := physOf l
      let w := s.wordsAt t.part n pas
      let lost := if t.lost = some t.icount then pas.findIdx? s.isPeer else none
      match (if lost.isNone && s.blockOpen t pas && !pas.any s.poisoned then first s w else none) with
      | some e => e
      | none =>
        s.watching t true false [⟨noLaneN, a, 8 * n, none⟩] <|
          match lost with
          | some i => bad 0x18 (a + i)
          | none =>
            if !s.blockOpen t pas then .wait
            else
              match pas.findIdx? s.poisoned with
              | some i => bad 0x40 (a + i)
              | none => k s w

/-- The fault of 0x10-0x14 or 0x33 that the read of a block meets. -/
def State.blockFault (s : State) (t : Team) (va n align : Nat) : Option Eff :=
  let a := va56 va
  if a % align ≠ 0 then some (.fault 0x13 (BitVec.ofNat 64 a) noLane)
  else match (s.checkRange t.core t.part t.level .load .plain a (8 * n)).2 with
    | .error b => some (.fault b.code (BitVec.ofNat 64 b.addr) noLane)
    | .ok _ => none

/-- A block whose words lead to no such fault. -/
def withBlock (s : State) (t : Team) (va n align : Nat) (k : State → List W64 → Eff) : Eff :=
  withBlockAnd (fun _ _ => none) s t va n align k

/-- A binding entry of the node of kind `kind`; an index beyond the table or another kind is fault 0x03. -/
def Team.binding (s : State) (t : Team) (i kind : Nat) : Option Nat :=
  match t.node? s with
  | none => none
  | some n =>
    match n.btab[i]? with
    | none => none
    | some e => if bitsOf e 63 63 = kind then some (bitsOf e 55 0) else none

/-! ## The instructions at issue -/

/-- The format register as it will stand when the queue's present entries are performed. -/
def Matrix.pendingFmt (m : Matrix) : List W64 :=
  m.queue.foldl (fun w e => match e.op with
    | .fmt v => v
    | _ => w) m.fmt

/-- The word being issued. -/
def Team.word (t : Team) : W64 :=
  match t.r.cl with
  | some c => c.words.getD (c.at t.r.pc) 0
  | none => 0

/-- Issue to a gated array starts its wake (R318). -/
def State.wakeArr (s : State) (t : Team) : State :=
  s.modCore t.core fun c =>
    match c.arr.get? t.slot with
    | some a => if a.gated then { c with arr := c.arr.put t.slot { a with waking := true } } else c
    | none => c

/-- Append an entry to the array queue: W3 rises. -/
def State.enqueue (s : State) (t : Team) (op : MOp) (reuse : Bool) (f : Matrix → Matrix) : State :=
  (s.modTeam t.id fun u =>
    match u.mtx with
    | some m => { u.addCnt 3 with mtx := some { f m with queue := m.queue ++ [⟨op, t.word, reuse, 0, []⟩] } }
    | none => u).wakeArr t

/-- The team's array, or fault 0x0A. -/
def withArray (t : Team) (k : Matrix → Eff) : Eff :=
  match t.mtx with
  | none => .fault 0x0A 0 noLane
  | some m => k m

def mfmtEff (x : XArgs) (s : State) (t : Team) : Eff :=
  withArray t fun _ =>
    let load (va : Nat) : Eff :=
      withBlock s t va 8 64 fun s w =>
        if fmtOk w then .ok (s.enqueue t (.fmt w) false id) else .fault 0x08 (BitVec.ofNat 64 (va56 va)) noLane
    if x.a = Opnd.none then
      match t.binding s x.bnd.val 0 with
      | some va => load va
      | none => .fault 0x03 0 noLane
    else load (uni s t x.a).toNat
def execMfmt (x : XArgs) (s : State) : Out := issue (.mfmt x) (mfmtEff x) s

/-- The checks of R187, in their order. R228 gives s61 of fault 0x13 as an address: where only BCS' or BSTEP' is misaligned, no
byte's address is, and s61 holds BOFF (log 136). -/
def mulFault (t : Team) (m : Matrix) (x : XArgs) (n : Nat) : Option (Nat × Nat) :=
  let w := m.pendingFmt
  let regs := n * kRegs w
  let boff := (t.r.sget (destIndex x.d)).toNat % 2 ^ 32
  let last := (List.range n).flatMap fun k => (kAddrs w boff k).filter fun a => decide (t.scrS ≤ a)
  if 64 < x.a.index + regs then some (0x03, 0)
  else if x.reu && (match m.latch with
      | none => true
      | some l => l.afield != x.a.index || l.fa != fmtA w || decide (l.count < regs)) then some (0x03, 0)
  else if boff % 16 ≠ 0 then some (0x13, boff)
  else if colStride w % 16 ≠ 0 ∨ bStep w % 16 ≠ 0 then some (0x13, boff)
  else match last with
    | [] => none
    | a :: r => some (0x12, r.foldl min a)

def mulEff (set : Bool) (n : Nat) (x : XArgs) (s : State) (t : Team) : Eff :=
  withArray t fun m =>
    match mulFault t m x n with
    | some (c, a) => .fault c (BitVec.ofNat 64 a) noLane
    | none =>
      let w := m.pendingFmt
      let regs := n * kRegs w
      let boff := (t.r.sget (destIndex x.d)).toNat % 2 ^ 32
      let rows := if x.reu then (m.latch.map (·.rows)).getD [] else collect t x.a.index regs
      let op := MOp.mul set x.acc.val n boff rows w
      .ok (s.enqueue t op x.reu fun q =>
        if x.reu then q else { q with latch := some ⟨x.a.index, fmtA w, regs, rows⟩ })

/-- The run of A registers of a multiply. -/
def mulRun (n : Nat) (x : XArgs) (_ : State) (t : Team) : Option Nat :=
  t.mtx.map fun m => min (n * kRegs m.pendingFmt) (64 - x.a.index)
def execMma (set : Bool) (x : XArgs) (s : State) : Out := issueRun (mulRun 1 x) (.mma set x) (mulEff set 1 x) s
def execMloop (set : Bool) (x : XArgs) (s : State) : Out :=
  issueRun (mulRun (x.xo.val + 1) x) (.mloop set x) (mulEff set (x.xo.val + 1) x) s

def mzeroEff (x : XArgs) (s : State) (t : Team) : Eff :=
  withArray t fun _ => .ok (s.enqueue t (.zero x.acc.val) false id)
def execMzero (x : XArgs) (s : State) : Out := issue (.mzero x) (mzeroEff x) s

/-- The checks of `mld` and `mst` (R191), then `k` with offset and stride. Where A bits 63:48 (0x14) or RS' (0x13) is at fault,
no byte's address is, and s61 holds OFF (log 136). -/
def withBank (s : State) (t : Team) (x : XArgs) (e : Nat) (k : Nat → Nat → Eff) : Eff :=
  withArray t fun _ =>
    let v := uni s t x.a
    let off := bitsOf v 31 0
    let rs := bitsOf v 47 32
    let top := off + 63 * rowStride rs e + 64 * e
    if bitsOf v 63 48 ≠ 0 then .fault 0x14 (BitVec.ofNat 64 off) noLane
    else if off % 16 ≠ 0 ∨ rowStride rs e % 16 ≠ 0 ∨ rowStride rs e < 64 * e then
      .fault 0x13 (BitVec.ofNat 64 off) noLane
    else if t.scrS < top then
      let bad := (bankAddrs off rs e).flatMap (span · e) |>.filter fun a => decide (t.scrS ≤ a)
      .fault 0x12 (BitVec.ofNat 64 (bad.foldl min top)) noLane
    else k off rs

def mldEff (x : XArgs) (s : State) (t : Team) : Eff :=
  withBank s t x 4 fun off rs => .ok (s.enqueue t (.ld x.acc.val off rs) false id)
def execMld (x : XArgs) (s : State) : Out := issue (.mld x) (mldEff x) s
def mstEff (f : MS) (x : XArgs) (s : State) (t : Team) : Eff :=
  withBank s t x (mstWidth f) fun off rs => .ok (s.enqueue t (.st f x.acc.val off rs) false id)
def execMst (f : MS) (x : XArgs) (s : State) : Out := issue (.mst f x) (mstEff f x) s

/-- R192. -/
def mwaitReady (t : Team) : Bool :=
  match t.mtx with
  | some m => m.queue.isEmpty
  | none => true
def mwaitEff (s : State) (t : Team) : Eff :=
  withArray t fun m =>
    if !m.queue.isEmpty then .wait
    else
      let f := (List.range 4).foldl (fun g c => g ||| m.flags.get 0 c) 0
      .ok ((s.modTeam t.id fun u => { u.raises (t.liveLanes.map (·, f)) with mtx := some { m with flags := [] } }).wakeArr t)
def execMwait (g : Guard) (s : State) : Out := issue (.mwait g) mwaitEff s

end Sys2Proof.Machine
end

