-- ==== Sys2Proof/Machine/Rings.lean ====
section
/-!
DEFINITION. Scratch rings (R211-R215) and arrival words (R216, R217): the shared operations, which the engines use too,
and the instructions.
-/
namespace Sys2Proof.Machine

/-! ## Rings -/

def Team.ring? (t : Team) (q : Nat) : Option Ring := t.rings.find? (·.n == q)
def Ring.cap (r : Ring) : Nat := 2 ^ r.logn
/-- The scratch offset of slot `x`. -/
def Ring.slotOff (r : Ring) (x : BitVec 16) : Nat := r.base + x.toNat % r.cap * r.ssz * 128
def Ring.word1 (r : Ring) : W64 := 0#16 ++ (r.hold ++ (r.tail ++ r.head))
def Ring.word0 (r : Ring) : Nat :=
  r.base + 2 ^ 32 * r.ssz + 2 ^ 48 * r.logn + (if r.drain then 2 ^ 56 else 0) + (if r.err then 2 ^ 57 else 0)

/-- The core writes the descriptor's image back (R211). -/
def Team.ringImage (t : Team) (r : Ring) : Team :=
  t.scrPuts (32 * r.n) (leBytes 8 r.word0 ++ leBytes 8 r.word1.toNat ++ List.replicate 16 0#8)

/-- Ring `r` changes, and its image with it. -/
def Team.setRing (t : Team) (r : Ring) : Team :=
  Team.ringImage { t with rings := t.rings.map fun x => if x.n == r.n then r else x } r

/-- Slots the team may take (R212). -/
def Ring.avail (r : Ring) : Nat :=
  if r.drain then r.cap - (r.tail - r.head).toNat - r.hold.toNat else (r.tail - r.head - r.hold).toNat

/-- The next slot the team takes. -/
def Ring.nextSlot (r : Ring) : BitVec 16 := if r.drain then r.tail + r.hold else r.head + r.hold

/-- A team's faulted engine whose failed run served ring `q` (R196), with its local number. -/
def Team.failedOn (t : Team) (q : Nat) : Option (Nat × Engine) :=
  (List.range t.engines.length).findSome? fun k =>
    match t.engines[k]? with
    | some e => if e.st == .faulted && e.fring == some q then some (k, e) else none
    | none => none

/-- The fault that faulted engine `k` reports (R196). -/
def engineFault (k : Nat) (e : Engine) : Eff := .fault 0x51 e.fva (BitVec.ofNat 64 (e.fcode + 256 * k))

/-- The ring of a ring instruction, when it is usable (R212, R215). -/
def withRing (t : Team) (q : Nat) (k : Ring → Eff) : Eff :=
  match t.ring? q with
  | none => .fault 0x50 (BitVec.ofNat 64 (32 * q)) noLane
  | some r => if r.err then .fault 0x50 (BitVec.ofNat 64 (32 * q)) noLane else k r

/-- A slot goes to the team: HOLD rises, s[D] takes its offset. -/
def takeSlot (s : State) (t : Team) (x : RArgs) (r : Ring) : Eff :=
  let s := s.modTeam t.id fun u => u.setRing { r with hold := r.hold + 1 }
  .ok (s.resultWrites t x.la [.s (destIndex x.d)] [.s (destIndex x.d) (BitVec.ofNat 64 (r.slotOff r.nextSlot))])

/-- `qpop` and `qpush`. -/
def slotEff (drain : Bool) (q : Fin 32) (x : RArgs) (s : State) (t : Team) : Eff :=
  withRing t q.val fun r =>
    if r.drain != drain then .fault 0x52 (BitVec.ofNat 64 q.val) noLane
    else if 1 ≤ r.avail then takeSlot s t x r
    else
      match t.failedOn q.val with
      | some (k, e) => engineFault k e
      | none => .wait
/-- The clause of a `qpop` or `qpush` may start (R15, R196). -/
def slotReady (drain : Bool) (q : Nat) (t : Team) : Bool :=
  match t.ring? q with
  | none => true
  | some r => r.err || r.drain != drain || decide (1 ≤ r.avail) || (t.failedOn q).isSome

def execQpop (q : Fin 32) (x : RArgs) (s : State) : Out := issue (.qpop q x) (slotEff false q x) s
def execQpush (q : Fin 32) (x : RArgs) (s : State) : Out := issue (.qpush q x) (slotEff true q x) s

def qtryEff (q : Fin 32) (x : RArgs) (s : State) (t : Team) : Eff :=
  withRing t q.val fun r =>
    if 1 ≤ r.avail then takeSlot s t x r
    else .ok (s.resultWrites t x.la [.s (destIndex x.d)] [.s (destIndex x.d) 0x8000_0000_0000_0000#64])
def execQtry (q : Fin 32) (x : RArgs) (s : State) : Out := issue (.qtry q x) (qtryEff q x) s

def qstatEff (q : Fin 32) (x : RArgs) (s : State) (t : Team) : Eff :=
  withRing t q.val fun r => .ok (s.resultWrites t x.la [.s (destIndex x.d)] [.s (destIndex x.d) r.word1])
def execQstat (q : Fin 32) (x : RArgs) (s : State) : Out := issue (.qstat q x) (qstatEff q x) s

/-- No scratch access of the team is unperformed (R213). -/
def Team.scratchQuiet (t : Team) : Bool :=
  t.pend.all fun p => p.performed || match p.kind with
    | .lds .. | .sts .. | .atoms .. => false
    | _ => true

def qrelEff (q : Fin 32) (s : State) (t : Team) : Eff :=
  withRing t q.val fun r =>
    if r.hold = 0 then .fault 0x52 (BitVec.ofNat 64 q.val) noLane
    else if !t.scratchQuiet then .wait
    else
      let r' := { r with hold := r.hold - 1 }
      .ok (s.modTeam t.id fun u => u.setRing
        (if r.drain then { r' with tail := r.tail + 1 } else { r' with head := r.head + 1 }))
def execQrel (q : Fin 32) (x : RArgs) (s : State) : Out := issue (.qrel q x) (qrelEff q) s

/-! ## Arrival words (R216, R217) -/

structure Arrive where
  count : Nat
  target : Nat
  gen : Nat
  top : Nat
  deriving DecidableEq, Repr

def Arrive.ofNat (n : Nat) : Arrive := ⟨n % 2 ^ 48, n / 2 ^ 48 % 2 ^ 48, n / 2 ^ 96 % 2 ^ 16, n / 2 ^ 112⟩
def Arrive.toNat (a : Arrive) : Nat := a.count + 2 ^ 48 * a.target + 2 ^ 96 * a.gen + 2 ^ 112 * a.top

/-- The carry rule of R216: the loop takes `target` off the count as often as it fits. -/
def Arrive.carry (a : Arrive) : Arrive :=
  if a.target = 0 then a
  else { a with
    count := a.count % a.target
    gen := (a.gen + a.count / a.target) % 2 ^ 16 }

/-- One addition of the team; `none` when the count would not fit. -/
def Arrive.add (a : Arrive) (b : Nat) : Option Arrive :=
  let c := { a with count := a.count + b }.carry
  if c.count < 2 ^ 48 then some c else none

/-- One addition of an engine: it wraps. -/
def Arrive.engineAdd (a : Arrive) (b : Nat) : Arrive :=
  let c := { a with count := a.count + b }.carry
  { c with count := c.count % 2 ^ 48 }

def Team.arrive? (t : Team) (off : Nat) : Arrive := Arrive.ofNat (t.scrNat off 16)
def Team.putArrive (t : Team) (off : Nat) (a : Arrive) : Team := t.scrPuts off (leBytes 16 a.toNat)

/-- An addition of an engine to the team's word. -/
def Team.engineArrive (t : Team) (off b : Nat) : Team := t.putArrive off ((t.arrive? off).engineAdd b)

/-- A window of 16 bytes whose first poisoned byte is named. -/
def Team.arriveBad (t : Team) (off : Nat) : Option Nat := (span off 16).find? t.scrBad

/-- The checks of an arrival word: amount, alignment, window, poison (R139, R145). -/
def arriveCheck (t : Team) (lane off : Nat) (amount : Nat) : Option Fail :=
  if 2 ^ 48 ≤ amount then some ⟨0x14, off, lane⟩
  else if off % 16 ≠ 0 then some ⟨0x13, off, lane⟩
  else if t.scrS < off + 16 then some ⟨0x12, max off t.scrS, lane⟩
  else (t.arriveBad off).map fun a => ⟨0x40, a, lane⟩

/-- The scratch bytes of an access to scratch. -/
def PKind.scratchPlaces : PKind → List Nat
  | .lds _ accs => accs.flatMap (·.pas)
  | .sts left => left.map (·.1)
  | .atoms _ _ _ _ accs => accs.flatMap (·.1.pas)
  | _ => []
/-- No unperformed access of the team touches the word at `off`. -/
def Team.wordQuiet (t : Team) (off : Nat) : Bool :=
  t.pend.all fun p => p.performed || p.kind.scratchPlaces.all fun a => decide (a < off) || decide (off + 16 ≤ a)

def asetEff (x : RArgs) (s : State) (t : Team) : Eff :=
  let off := scratchOf s t x.a 0
  let b := (uni s t x.b).toNat
  match arriveCheck t noLaneN off b with
  | some f => f.eff
  | none =>
    if !t.wordQuiet off then .wait
    else .ok (s.modTeam t.id fun u => u.putArrive off { u.arrive? off with target := b }.carry)
def execAset (x : RArgs) (s : State) : Out := issue (.aset x) (asetEff x) s

/-- Additions lane by lane; a lane whose count would not fit stops it. -/
def addLanes (t : Team) : List (Nat × Nat × Nat) → Except Fail Team
  | [] => .ok t
  | (l, off, b) :: r =>
    match (t.arrive? off).add b with
    | none => .error ⟨0x14, off, l⟩
    | some a => addLanes (t.putArrive off a) r

/-- Everything a release at .core waits for (R217, R148): the team's earlier accesses, but for stores, which the core's
agents see from its write buffer. -/
def Team.coreReleased (t : Team) : Bool :=
  t.pend.all fun p => p.performed || !p.kind.isAccess || match p.kind with
    | .store .. => true
    | _ => false

/-- R216: the checks of all lanes come before the additions, and so before a count that overflows in any (log 148). -/
def aaddEff (x : RArgs) (s : State) (t : Team) : Eff :=
  let ls := (t.active x.g).map fun l => (l, scratchOf s t x.a l, (opnd s t (.int true) x.b l).toNat)
  match ls.findSome? fun (l, off, b) => arriveCheck t l off b with
  | some f => f.eff
  | none =>
    if !t.coreReleased then .wait
    else
      match addLanes t ls with
      | .error f => f.eff
      | .ok u => .ok (s.modTeam t.id fun v => { v with
          scr := u.scr
          scrWritten := u.scrWritten
          scrPoison := u.scrPoison })
def execAadd (x : RArgs) (s : State) : Out := issue (.aadd x) (aaddEff x) s

/-- The word of `await` or `aqry`. -/
def withWord (s : State) (t : Team) (a : Opnd) (k : Nat → Arrive → Eff) : Eff :=
  let off := scratchOf s t a 0
  match arriveCheck t noLaneN off 0 with
  | some f => f.eff
  | none =>
    if !t.wordQuiet off then .wait
    else if (t.arrive? off).top ≠ 0 then .fault 0x14 (BitVec.ofNat 64 off) noLane
    else k off (t.arrive? off)

/-- R216: generation `gen` has passed `g`. -/
def genPassed (gen g : Nat) : Bool := decide ((gen + 2 ^ 16 - g % 2 ^ 16) % 2 ^ 16 < 2 ^ 15)

def awaitEff (x : RArgs) (s : State) (t : Team) : Eff :=
  withWord s t x.a fun _ w =>
    if genPassed w.gen (uni s t x.b).toNat then .ok (s.acquire t .dev) else .wait
/-- The clause of an `await` may start. -/
def awaitReady (x : RArgs) (s : State) (t : Team) : Bool :=
  match awaitEff x s t with
  | .wait => false
  | _ => true
def execAwait (x : RArgs) (s : State) : Out := issue (.await x) (awaitEff x) s

def aqryEff (x : RArgs) (s : State) (t : Team) : Eff :=
  withWord s t x.a fun off _ =>
    let d := destIndex x.d
    .ok (s.resultWrites t x.la [.s d, .s (d + 1)]
      [.s d (BitVec.ofNat 64 (t.scrNat off 8)), .s (d + 1) (BitVec.ofNat 64 (t.scrNat (off + 8) 8))])
def execAqry (x : RArgs) (s : State) : Out := issue (.aqry x) (aqryEff x) s

end Sys2Proof.Machine
end

