-- ==== Sys2Proof/Machine/Copy.lean ====
section
/-!
DEFINITION. What copy and stream engines share (R170, R287, R292, R365), and bulk copies (R166-R171).
-/
namespace Sys2Proof.Machine

/-! ## Engine accesses -/

def State.xlateDie (s : State) (d p : Nat) : List (Nat × Nat) → State × Except Bad (List (Nat × Nat × Tlb))
  | [] => (s, .ok [])
  | (va, n) :: r =>
    match s.lookupDie d p va with
    | (s, none) => (s, .error ⟨0x10, va⟩)
    | (s, some e) =>
      match s.xlateDie d p r with
      | (s, .error b) => (s, .error b)
      | (s, .ok l) => (s, .ok ((va, n, e) :: l))

/-- The checks of the pieces an engine accesses at once for team `t`, at the level `lvl` that its command was issued at: a row
of a copy, the rows of a tile (R292, R170). -/
def State.engineCheck (s : State) (t : Team) (lvl : Nat) (k : AccKind) (ps : List (Nat × Nat)) :
    State × Except Bad (List (Nat × Nat × Tlb)) :=
  match s.xlateDie (dieOfCore t.core) t.part ps with
  | (s, .error b) => (s, .error b)
  | (s, .ok l) =>
    match l.find? fun (_, _, e) => !e.permits lvl k with
    | some (a, _, _) => (s, .error ⟨0x11, a⟩)
    | none =>
      match l.find? fun (a, _, e) => !s.classOk t.part a e .plain with
      | some (a, _, _) => (s, .error ⟨0x33, a⟩)
      | none => (s, .ok l)

/-- The ranges of memory that an engine transfers at once. -/
def State.engineSide (s : State) (t : Team) (lvl : Nat) (k : AccKind) (rs : List (Nat × Nat)) : State × Except Bad Side :=
  match s.engineCheck t lvl k (rs.flatMap fun (va, n) => rangePieces va n) with
  | (s, .error b) => (s, .error b)
  | (s, .ok l) => (s, .ok (.mem (l.map fun (va, n, e) =>
      ⟨noLaneN, BitVec.ofNat 64 va, physOf [(va, n, e)], guestOf [(va, n, e)]⟩)))

/-- Bytes that an engine writes to memory for team `t`, and the bytes that are poisoned: the issuing core's near copies go
first (R287), and a granule that takes a poisoned byte is written as poisoned (R170). -/
def State.engineWrite (s : State) (t : Team) (l : List (Nat × Byte)) (bad : List Nat) : State :=
  let l := l.map fun (a, b) => (s.norm a, b)
  let lines := l.map fun (a, _) => lineOf a
  let s := s.modCore t.core fun c => { c with near := c.near.filter fun k => !lines.contains k.line }
  let s := (s.homeStores t.part l).dropPeerLines (dieOfCore t.core) (l.map (·.1))
  s.poisonGranules (granulesOf ((bad.map s.norm).filter fun a => !(s.turned t.part && s.outside a)))

/-- Bytes that an engine writes to the team's scratch, and the bytes that are poisoned. -/
def Team.engineScratch (t : Team) (l : List (Nat × Byte)) (bad : List Nat) : Team :=
  (l.foldl (fun (u : Team) (x : Nat × Byte) => u.scrPut x.1 x.2) t).poisonAll (granulesOf bad)

/-! ## Transfers on their way (R301, R310) -/

def Side.accs : Side → List Acc
  | .scr _ => []
  | .mem l => l

/-- The places of a side, in transfer order: scratch offsets or physical addresses. -/
def Side.places (d : Side) (n : Nat) : List Nat :=
  match d with
  | .scr off => span off n
  | .mem l => l.flatMap (·.pas)

def Flight.start (src dst : Side) (len : Nat) : Flight := ⟨src, dst, len, [], [], false⟩
/-- The memory accesses of a transfer. -/
def Flight.accs (f : Flight) : List Acc := f.src.accs ++ f.dst.accs

/-- Byte `a` of the source, with its poison: memory is read at its home (R287). -/
def State.sideByte (s : State) (t : Team) (d : Side) (a : Nat) : Byte × Bool :=
  match d with
  | .scr _ => (t.scrByte a, t.scrBad a)
  | .mem _ => (s.homeByte t.part a, s.poisoned a)

/-- Bytes `is` of a transfer are read, those not yet read. -/
def State.fetchFlight (s : State) (t : Team) (f : Flight) (is : List Nat) : Flight :=
  let ps := f.src.places f.len
  { f with got := is.foldl (fun (g : Table (Byte × Bool)) i =>
      if (g.get? i).isSome || decide (f.len ≤ i) then g else g.put i (s.sideByte t f.src (ps.getD i 0))) f.got }

/-- Bytes `is` of a transfer, which have been read, are written; a granule that has taken a poisoned byte of the transfer
stays poisoned. -/
def State.landFlight (s : State) (t : Team) (f : Flight) (is : List Nat) : State × Flight :=
  let ps := f.dst.places f.len
  let is := is.filter fun i => !f.put.contains i
  let f := { f with put := f.put ++ is }
  let l := is.map fun i => (ps.getD i 0, (f.got.get (0, false) i).1)
  let bad := (f.put.filter fun i => (f.got.get (0, false) i).2).map fun i => ps.getD i 0
  (match f.dst with
    | .scr _ => s.modWork t.part t.id fun u => u.engineScratch l bad
    | .mem _ => s.engineWrite t l bad, f)

/-- The first byte of a transfer's memory such as `f` names: its virtual address. -/
def Flight.firstOn (x : Flight) (f : Nat → Bool) : Option Nat :=
  x.accs.findSome? fun a => (a.pas.findIdx? f).map fun i => a.va.toNat + i
/-- The memory of a transfer can be reached, and no store of `ws`, which it has to observe, is on its way to its source
(R301). -/
def State.flightOpen (s : State) (f : Flight) (ws : List (TeamId × Nat)) : Bool :=
  s.hostOpen (f.accs.flatMap (·.pas)) && !s.unobserved ws (f.src.accs.flatMap (·.pas))

/-- A transfer's write for partition `p` waits (R361, R389). -/
def State.flightHeld (s : State) (p : Nat) (f : Flight) : Bool := s.writeHeld p (f.dst.accs.flatMap (·.pas))

/-- All of a transfer is read, and written. -/
def State.endFlight (s : State) (t : Team) (f : Flight) : State × Flight :=
  s.landFlight t (s.fetchFlight t f (List.range f.len)) (List.range f.len)

/-- The transfers on their way for partition `p` that `f` names hold up a shoot-down until they end (R294). -/
def markFlight (f : Acc → Bool) (x : Flight) : Flight := { x with stale := x.stale || x.accs.any f }
def Engine.mark (f : Acc → Bool) (e : Engine) : Engine := { e with fly := e.fly.map (markFlight f) }
def State.markStale (s : State) (p : Nat) (f : Acc → Bool) : State :=
  { s with
    teams := s.teams.map fun (k, t) => (k, if t.part = p then { t with engines := t.engines.map (Engine.mark f) } else t)
    dies := s.dies.map fun (k, d) => (k, { d with copyQ := d.copyQ.map fun (e, l) => (e, l.map fun c =>
      if c.p = p then { c with fly := c.fly.map (markFlight f) } else c) }) }
/-- The transfers on their way on the module. -/
def State.flights (s : State) : List Flight :=
  (s.teams.flatMap fun (_, t) => t.engines.flatMap (·.fly)) ++
    s.dies.flatMap fun (_, d) => d.copyQ.flatMap fun (_, l) => l.filterMap (·.fly)

/-- An addition to an arrival word: in the team's scratch, or by the redirect while it is off its slot (R365). -/
def State.arriveAdd (s : State) (t : TeamId) (off n : Nat) : State :=
  match s.team? t with
  | none => s
  | some u =>
    if u.stat = .saved then
      let s := s.modPart u.part fun x => { x with redirect := x.redirect ++ [(t, off, n)] }
      s.modCutTeam s.back u.part t fun v => v.engineArrive off n
    else s.modWork u.part t fun v => v.engineArrive off n

/-- How many of the latest cuts a copy's instruction lies before. -/
def State.oldCopy (s : State) (c : Copy) : Nat := s.olderTeam c.p c.team fun u => decide (c.seq < u.nseq)

/-! ## Parameter blocks (R167, R168) -/

namespace BlockWords
def ssc (w : List W64) : Bool := fld w 0 56 56 == 1
def dsc (w : List W64) : Bool := fld w 1 56 56 == 1
def dls (w : List W64) : Bool := fld w 1 57 57 == 1
def rows (w : List W64) : Nat := fld w 2 47 32 + 1
def rowLen (w : List W64) : Nat := fld w 2 31 0
def src (w : List W64) (r : Nat) : Nat :=
  if ssc w then fld w 0 31 0 + r * fld w 3 47 0 else va56 (fld w 0 55 0 + r * fld w 3 47 0)
def dst (w : List W64) (r : Nat) : Nat :=
  if dsc w then fld w 1 31 0 + r * fld w 4 47 0 else va56 (fld w 1 55 0 + r * fld w 4 47 0)
def aen (w : List W64) : Bool := fld w 5 63 63 == 1
def aoff (w : List W64) : Nat := fld w 5 31 0
def ren (w : List W64) : Bool := fld w 6 63 63 == 1
def rdev (w : List W64) : Nat := fld w 6 33 24
def rgraph (w : List W64) : Nat := fld w 6 23 16
def rnode (w : List W64) : Nat := fld w 6 15 0
end BlockWords

open BlockWords in
/-- The 4 KiB pages of a range all lie in leases of the partition. -/
def State.leasedRange (s : State) (p va n : Nat) : Bool :=
  (List.range ((va + n - 1) / 4096 - va / 4096 + 1)).all fun k =>
    (s.part p).leases.any fun l => (overlapAt l.base.toNat l.len ((va / 4096 + k) * 4096) 4096).isSome

open BlockWords in
/-- R168 but for the pages (log 49). -/
def blockOk (s : State) (t : Team) (w : List W64) : Bool :=
  fld w 0 63 57 == 0 && fld w 1 63 58 == 0 && fld w 2 63 48 == 0 && fld w 3 63 48 == 0 && fld w 4 63 48 == 0
    && fld w 5 62 32 == 0 && fld w 6 62 34 == 0
    && within (rowLen w) 1 16777216 && decide (rowLen w * rows w ≤ 2 ^ 30)
    && !(ssc w && dsc w) && !(dls w && dsc w)
    && (!dls w || (List.range (rows w)).all fun r => s.leasedRange t.part (dst w r) (rowLen w))
    && (!ssc w || decide (src w (rows w - 1) + rowLen w ≤ t.scrS))
    && (!dsc w || decide (dst w (rows w - 1) + rowLen w ≤ t.scrS))
    && aoff w % 16 == 0 && (!aen w || decide (aoff w + 16 ≤ t.scrS))

/-- The first failure among `n` rows whose addresses are `at_`. -/
def State.rowsBad (s : State) (t : Team) (k : AccKind) (len : Nat) (at_ : Nat → Nat) : List Nat → State × Option Bad
  | [] => (s, none)
  | r :: rs =>
    match s.checkRange t.core t.part t.level k .plain (at_ r) len with
    | (s, .error b) => (s, some b)
    | (s, .ok _) => s.rowsBad t k len at_ rs

open BlockWords in
/-- R166: every page of source and destination. -/
def State.copyBad (s : State) (t : Team) (w : List W64) : State × Option Bad :=
  let rs := List.range (rows w)
  let a := if ssc w then (s, none) else s.rowsBad t .engRead (rowLen w) (src w) rs
  match a with
  | (s, some b) => (s, some b)
  | (s, none) => if dsc w then (s, none) else s.rowsBad t .engWrite (rowLen w) (dst w) rs

def Die.copies (d : Die) (e : Nat) : List Copy := d.copyQ.get [] e
def State.setCopies (s : State) (d e : Nat) (l : List Copy) : State :=
  s.modDie d fun x => { x with copyQ := x.copyQ.set [] e l }

open BlockWords in
/-- The failure of R166 that a valid block leads to: it precedes a watch of the block itself (R398). -/
def copyFault (t : Team) (s : State) (w : List W64) : Option Eff :=
  if blockOk s t w then (s.copyBad t w).2.map fun b => .fault b.code (BitVec.ofNat 64 b.addr) noLane else none

/-- `bcp` at issue (R166). -/
def bcpEff (x : RArgs) (s : State) (t : Team) : Eff :=
  let va := uni s t x.a
  let e := (uni s t x.b).toNat
  if 3 < e then .fault 0x14 (BitVec.ofNat 64 (va56 va.toNat)) noLane
  else
    withBlockAnd (copyFault t) s t va.toNat 8 64 fun s w =>
      if !blockOk s t w then .fault 0x17 (BitVec.ofNat 64 (va56 va.toNat)) noLane
      else
        let s := (s.copyBad t w).1
        let d := dieOfCore t.core
        let c : Copy := ⟨t.id, t.nseq, t.part, t.core, BitVec.ofNat 64 (va56 va.toNat), w, 0, 0, false, t.word, [], none, false,
          none, 0, t.level, s.observed t⟩
        let s := s.setCopies d e ((s.die d).copies e ++ [c])
        .ok (s.modTeam t.id fun u => { u.addCnt 4 with nseq := u.nseq + 1 })
def execBcp (x : RArgs) (s : State) : Out := issue (.bcp x) (bcpEff x) s

/-! ## Running a copy (R169, R170) -/

open BlockWords in
/-- Row `r` is translated (R292). -/
def State.rowStart (s : State) (t : Team) (lvl : Nat) (w : List W64) (r : Nat) : State × Except Bad Flight :=
  match if ssc w then (s, .ok (.scr (src w r))) else s.engineSide t lvl .engRead [(src w r, rowLen w)] with
  | (s, .error b) => (s, .error b)
  | (s, .ok a) =>
    match if dsc w then (s, .ok (.scr (dst w r))) else s.engineSide t lvl .engWrite [(dst w r, rowLen w)] with
    | (s, .error b) => (s, .error b)
    | (s, .ok d) => (s, .ok (Flight.start a d (rowLen w)))

/-- The row on its way, or the copy's next one. -/
def State.rowOf (s : State) (t : Team) (c : Copy) : State × Except Bad Flight :=
  match c.fly with
  | some f => (s, .ok f)
  | none => s.rowStart t c.level c.words c.row

open BlockWords in
/-- What has landed is added to the arrival word (R169). -/
def State.addOwed (s : State) (c : Copy) : State × Copy :=
  if aen c.words && decide (0 < c.owed) then (s.arriveAdd c.team (aoff c.words) c.owed, { c with owed := 0 })
  else (s, { c with owed := 0 })

open BlockWords in
/-- Rows of the head copy `c`, at most `n`, while their memory can be reached; the bad row's failure, if one is met. -/
def State.runRows (s : State) (c : Copy) : Nat → State × Copy × Option Bad
  | 0 => (s, c, none)
  | n + 1 =>
    if rows c.words ≤ c.row then (s, c, none)
    else
      match s.team? c.team with
      | none => (s, c, none)
      | some t =>
        match s.rowOf t c with
        | (s, .error b) => (s, c, some b)
        | (s, .ok f) =>
          if !s.flightOpen f c.waits || s.flightHeld c.p f then (s, { c with fly := some f }, none)
          else
            let left := f.len - f.put.length
            let (s, f) := s.endFlight t f
            let (s, c) := s.addOwed { c with owed := c.owed + left }
            let bs := (List.range f.len).map fun i => f.got.get (0, false) i
            s.runRows { c with
              fly := none
              row := c.row + 1
              bytes := c.bytes + rowLen c.words
              poisoned := c.poisoned || bs.any (·.2)
              read := if rowLen c.words * rows c.words ≤ 2 ^ 20 then c.read ++ [bs.map (·.1)] else [] } n

open BlockWords in
/-- Source and destination of a copy overlap: between their first and last bytes, or where a row stands in memory
(log 119). -/
def copyOverlaps (w : List W64) (f : Flight) : Bool :=
  !ssc w && !dsc w && ((overlapAt (src w 0) (src w (rows w - 1) + rowLen w - src w 0) (dst w 0)
      (dst w (rows w - 1) + rowLen w - dst w 0)).isSome ||
    (f.src.places f.len).any (f.dst.places f.len).contains)

/-- A step of the row on its way (R169): `0` reads its next byte, `1` writes the next, `2` adds what has landed to the arrival
word. -/
def State.rowStep (s : State) (c : Copy) (what : Nat) : State × Copy :=
  match s.team? c.team with
  | none => (s, c)
  | some t =>
    if what = 2 then s.addOwed c
    else
      match s.rowOf t c with
      | (_, .error _) => (s, c)
      | (s, .ok f) =>
        if !s.flightOpen f c.waits then (s, { c with fly := some f })
        else if what = 0 then (s, { c with fly := some (s.fetchFlight t f [f.got.length]) })
        else if f.got.length ≤ f.put.length ∨ (copyOverlaps c.words f ∧ f.got.length < f.len) ∨ s.flightHeld c.p f then
          (s, { c with fly := some f })
        else
          let (s, f) := s.landFlight t f [f.put.length]
          (s, { c with
            fly := some f
            owed := c.owed + 1 })

/-- The copy's instruction is performed. -/
def State.copyDone (s : State) (d e : Nat) (c : Copy) : State :=
  (s.setCopies d e ((s.die d).copies e).tail).asOld (s.oldCopy c) fun s =>
    s.modWork c.p c.team fun u => { u.subCnt 4 with wd := 0 }

open BlockWords in
/-- The completion record of an ended copy (R169): its header names the node and its flag bit 11 marks it. -/
def doneRecord (c : Copy) (status : Nat) : List W32 :=
  let corr := wd c.words 7
  [BitVec.ofNat 32 (rnode c.words + 0x1_0000 * rgraph c.words), BitVec.ofNat 32 (rdev c.words + 0x800), 0#32, 0x400#32,
    lo32 corr, hi32 corr, BitVec.ofNat 32 c.bytes, BitVec.ofNat 32 status] ++ List.replicate 8 0#32

open BlockWords in
/-- The head copy has ended with `status`: it is performed, or its record goes on its way first. -/
def State.copyEnd (s : State) (d e : Nat) (c : Copy) (status : Nat) : State :=
  let c := { c with ended := some status }
  if ren c.words then
    let a : Arrival := ⟨.bcp d e (rdev c.words), rgraph c.words, rnode c.words, doneRecord c status,
      s.now + 1000 * s.preg c.p 10, .copy c.block (rdev c.words), some ⟨.dev, 0⟩⟩
    (s.setCopies d e ({ c with told := true } :: ((s.die d).copies e).tail)).modPart c.p fun x => { x with
      held := x.held ++ [a] }
  else s.copyDone d e c

end Sys2Proof.Machine
end

