-- ==== Sys2Proof/Machine/Stream.lean ====
section
/-!
DEFINITION. Stream engines (R194-R200, R307-R313): layout records, tiles, `sgo`, `sstop`, `sqry`, `qfence`, and the events
that complete a tile or fault an engine.
-/
namespace Sys2Proof.Machine

/-! ## Layout records (R307, R308) -/

namespace Lay
def drain (w : List W64) : Bool := fld w 0 63 63 == 1
def tb (w : List W64) : Nat := 128 * fld w 1 47 32
def doff (w : List W64) : Nat := fld w 1 31 0
def aen (w : List W64) : Bool := fld w 2 63 63 == 1
def rng (w : List W64) : Bool := fld w 2 62 62 == 1
def ring (w : List W64) : Nat := fld w 2 36 32
def aoff (w : List W64) : Nat := fld w 2 31 0
def cnt (w : List W64) (d : Nat) : Nat := fld w (3 + 2 * d) 15 0 + 1
/-- STRd, two's complement in 48 bits. -/
def str (w : List W64) (d : Nat) : Int :=
  let x := fld w (4 + 2 * d) 47 0
  if x < 2 ^ 47 then x else (x : Int) - 2 ^ 48
def start (w : List W64) : Nat := fld w 13 63 32
def rlen (w : List W64) : Nat := fld w 13 31 0
def rstr (w : List W64) : Nat := fld w 14 47 0
def hnd (w : List W64) : W64 := wd w 15
def tiles (w : List W64) : Nat := cnt w 0 * cnt w 1 * cnt w 2 * cnt w 3 * cnt w 4
/-- Fields that must be zero, those that another field makes unused among them. -/
def zeroOk (w : List W64) : Bool :=
  fld w 0 62 56 == 0 && fld w 1 63 48 == 0 && fld w 2 61 37 == 0 && fld w 14 63 48 == 0
    && ((List.range 5).all fun d => fld w (3 + 2 * d) 63 16 == 0 && fld w (4 + 2 * d) 63 48 == 0)
    && (!rng w || doff w == 0) && (rng w || ring w == 0) && (aen w || aoff w == 0)
end Lay

open Lay in
/-- R308 for a record whose RLEN and RSTR are resolved; `shapes` says whether the graph has a shape table (log 49). -/
def layoutOk (t : Team) (eng : Nat) (w : List W64) (shapes : Bool) : Bool :=
  let len := rlen w
  zeroOk w && within (fld w 1 47 32) 1 4096 && decide (tiles w ≤ 2 ^ 32) && decide (start w < tiles w)
    && (len == 0 || (decide (len ≤ tb w) && tb w % len == 0))
    && (rng w || (doff w % 128 == 0 && decide (doff w + tiles w * tb w ≤ t.scrS)))
    && (!rng w || (match t.ring? (ring w) with
      | none => false
      | some r => r.drain == drain w && decide (fld w 1 47 32 ≤ r.ssz) &&
        (List.range t.engines.length).all fun k => k == eng || (match t.engines[k]? with
          | some e => e.runs.all fun q => !(rng q.words && ring q.words == ring w)
          | none => true)))
    && (!aen w || (decide (aoff w + 16 ≤ t.scrS) && aoff w % 16 == 0))
    && (hnd w == 0 || (fld w 0 55 0 == 0 && bitsOf (hnd w) 5 2 == 0 && bitsOf (hnd w) 0 0 == 0 && shapes))

/-- The row length and stride of a shape entry (R246, R309). -/
def shapeRow (e : List W64) : Nat × Nat :=
  (((fld e 0 39 24 + 1) * elemBits (fld e 0 3 0) + 7) / 8, fld e 1 47 0)

/-- The record with RLEN and RSTR in place. -/
def withRow (w : List W64) (r : Nat × Nat) : List W64 :=
  (w.set 13 (BitVec.ofNat 64 (Lay.start w * 2 ^ 32 + r.1 % 2 ^ 32))).set 14 (BitVec.ofNat 64 r.2)

/-! ## `sgo` (R195) -/

def Team.engine (t : Team) (k : Nat) : Option Engine := t.engines[k]?
def Team.setEngine (t : Team) (k : Nat) (e : Engine) : Team := { t with engines := t.engines.set k e }

/-- A run joins the engine's queue; beyond four it waits for a place and W4 stays raised. -/
def Team.addRun (t : Team) (k : Nat) (e : Engine) (r : Run) : Team :=
  let t' := t.setEngine k { e with
    runs := e.runs ++ [r]
    tiles := if e.runs.isEmpty then 0 else e.tiles
    st := if e.st == .idle then .running else e.st }
  if 4 ≤ e.runs.length then t'.addCnt 4 else t'

/-- The shape table of the team's graph. -/
def State.shapesOf (s : State) (t : Team) : Nat :=
  match s.graph? t.part t.gslot with
  | some g => fld g.obj 5 55 0
  | none => 0

/-- `sgo` (R195); the engine's state is tested last (log 50). -/
def sgoEff (x : XArgs) (s : State) (t : Team) : Eff :=
  let k := x.xo.val
  match t.binding s x.bnd.val 1, t.engine k with
  | none, _ => .fault 0x03 0 noLane
  | _, none => .fault 0x14 0 noLane
  | some va, some e =>
    let badRec : Eff := .fault 0x09 (BitVec.ofNat 64 va) noLane
    let shapes := s.shapesOf t
    let go (s : State) (w : List W64) : Eff :=
      if !layoutOk t k w (shapes != 0) then badRec
      else if e.st == .faulted then engineFault k e
      else
        let base := if Lay.hnd w = 0 then fld w 0 55 0 else bitsOf (Lay.hnd w) 55 6 * 64
        .ok (s.modTeam t.id fun u => u.addRun k e ⟨w, BitVec.ofNat 64 base, uni s t x.a, Lay.start w, t.level, s.observed t⟩)
    let shapeAt (w : List W64) : Nat := shapes + 64 * bitsOf (Lay.hnd w) 63 56
    let shaped (w : List W64) : Bool := Lay.hnd w != 0 && Lay.rlen w == 0
    withBlockAnd (fun s w => if shaped w && shapes != 0 && Lay.zeroOk w then s.blockFault t (shapeAt w) 8 64 else none)
        s t va 16 64 fun s w =>
      if shaped w then
        if shapes = 0 ∨ !Lay.zeroOk w then badRec
        else
          withBlock s t (shapeAt w) 8 64 fun s sh => go s (withRow w (shapeRow sh))
      else go s w
def execSgo (x : XArgs) (s : State) : Out := issue (.sgo x) (sgoEff x) s

/-! ## `sstop`, `sqry`, `qfence` -/

/-- W4 falls `n` times: counted instructions are performed, and the watchdog count returns to 0 (R275). -/
def Team.subCnts (t : Team) : Nat → Team
  | 0 => t
  | n + 1 => { t.subCnt 4 with wd := 0 }.subCnts n

/-- Runs after the first are discarded; those that still waited for a place are performed (R197). -/
def Team.discardRuns (t : Team) (k : Nat) (e : Engine) (keep : Nat) : Team :=
  (t.setEngine k { e with runs := e.runs.take keep }).subCnts (e.runs.length - 4)

/-- `sstop` of engine `k`. The tile in progress is the oldest of those in flight (R310): an engine without one is idle at
once (log 58). -/
def Team.stopEngine (t : Team) (k : Nat) (e : Engine) : Team :=
  if e.st = .idle ∨ e.st = .faulted ∨ e.fly.isEmpty then
    (t.discardRuns k e 0).setEngine k { e with
      st := .idle
      runs := []
      fly := []
      fcode := 0
      fva := 0
      fring := none }
  else
    let t := t.discardRuns k e 1
    (t.setEngine k { e with
      runs := e.runs.take 1
      fly := e.fly.take 1
      st := .stopping
      stops := e.stops + 1 }).addCnt 4

/-- `sstop` (R197). An engine that the team does not hold is fault 0x14 (R194): no address is at fault, and s61 holds 0, under
`sgo` and `sqry` too (log 136). -/
def sstopEff (x : XArgs) (s : State) (t : Team) : Eff :=
  let k := x.xo.val
  match t.engine k with
  | none => .fault 0x14 0 noLane
  | some e => .ok (s.modTeam t.id fun u => u.stopEngine k e)
def execSstop (x : XArgs) (s : State) : Out := issue (.sstop x) (sstopEff x) s

def EState.code : EState → Nat
  | .idle => 0
  | .running => 1
  | .stopping => 2
  | .faulted => 3

/-- R198. -/
def Engine.query (e : Engine) : W64 :=
  BitVec.ofNat 64 (e.st.code * 2 ^ 62 + min 4 e.runs.length * 2 ^ 59 +
    (if e.st == .faulted then e.fcode else 0) % 256 * 2 ^ 48 + e.tiles % 2 ^ 48)

def sqryEff (x : XArgs) (s : State) (t : Team) : Eff :=
  match t.engine x.xo.val with
  | none => .fault 0x14 0 noLane
  | some e => .ok (s.resultWrites t x.la [.s (destIndex x.d)] [.s (destIndex x.d) e.query])
def execSqry (x : XArgs) (s : State) : Out := issue (.sqry x) (sqryEff x) s

/-- The team's copies on copy engine `e`. -/
def State.copiesOf (s : State) (t : TeamId) (e : Nat) : Bool := s.dies.any fun (_, d) => (d.copies e).any (·.team == t)

/-- Every queue that `m` names has drained (R200). -/
def State.drained (s : State) (t : Team) (m : W32) : Bool :=
  (!m.getLsbD 0 || mwaitReady t) &&
    ((List.range 4).all fun k => !m.getLsbD (1 + k) || (match t.engine k with
      | some e => e.runs.isEmpty
      | none => true)) &&
    ((List.range 4).all fun k => !m.getLsbD (5 + k) || !s.copiesOf t.id k) &&
    ((List.range 8).all fun k => !m.getLsbD (9 + k) || t.tag k == 0)

/-- `qfence` (R200). For a bad mask or an engine not held s61 holds 0 (log 136); of several engines that are faulted the lowest
numbered is reported (log 137). -/
def qfenceEff (x : RArgs) (s : State) (t : Team) : Eff :=
  let m := lo32 (uni s t x.a)
  if m.toNat / 2 ^ 17 ≠ 0 ∨ (List.range 4).any (fun k => m.getLsbD (1 + k) && (t.engine k).isNone) then .fault 0x14 0 noLane
  else
    match (List.range 4).find? fun k => m.getLsbD (1 + k) && (t.engine k).any (·.st == .faulted) with
    | some k =>
      match t.engine k with
      | some e => engineFault k e
      | none => .wait
    | none => if s.drained t m then .ok s else .wait
def qfenceReady (x : RArgs) (s : State) (t : Team) : Bool :=
  match qfenceEff x s t with
  | .wait => false
  | _ => true
def execQfence (x : RArgs) (s : State) : Out := issue (.qfence x) (qfenceEff x) s

/-! ## Tiles (R309-R312) -/

open Lay in
/-- The address of tile `n`. -/
def Run.tva (r : Run) (n : Nat) : Nat :=
  let w := r.words
  let c (d : Nat) : Nat := cnt w d
  let ids := [n % c 0, n / c 0 % c 1, n / (c 0 * c 1) % c 2, n / (c 0 * c 1 * c 2) % c 3,
    n / (c 0 * c 1 * c 2 * c 3) % c 4]
  let off : Int := ((List.range 5).zip ids).foldl (fun a (d, i) => a + i * str w d) 0
  (((r.base.toNat + r.off.toNat : Nat) + off) % (2 ^ 56 : Int)).toNat

open Lay in
/-- The memory ranges of a tile, in tile order. -/
def Run.rows (r : Run) (n : Nat) : List (Nat × Nat) :=
  let w := r.words
  if rlen w = 0 then [(r.tva n, tb w)]
  else (List.range (tb w / rlen w)).map fun k => (va56 (r.tva n + k * rstr w), rlen w)

/-- What the next tile of a run comes to. -/
inductive Tile where
  /-- The ring has no slot for it yet. -/
  | waits
  /-- It fails: code and s61. -/
  | fails (code : Nat) (info : Nat)
  /-- It starts. -/
  | goes (f : Flight)

/-- The tile at place `j` of the engine, from the oldest not complete: its run, at that tile. Tiles of the run after the
head one may start while the head's last are in flight (R310). -/
def Engine.tileRun (e : Engine) (j : Nat) : Option Run :=
  match e.runs with
  | [] => none
  | r :: rest =>
    let left := Lay.tiles r.words - r.next
    if j < left then some { r with next := r.next + j }
    else match rest with
      | q :: _ => if q.next + (j - left) < Lay.tiles q.words then some { q with next := q.next + (j - left) } else none
      | [] => none

/-- Tiles in flight before place `j` that pass through ring `q`. -/
def Engine.ahead (e : Engine) (j q : Nat) : Nat :=
  ((List.range j).filter fun i => (e.tileRun i).any fun r => Lay.rng r.words && Lay.ring r.words == q).length

open Lay in
/-- The tile that `r` is at starts, `ahead` tiles of its ring being in flight before it: it is translated once (R292), whole. -/
def State.tileOf (s : State) (t : Team) (r : Run) (ahead : Nat) : State × Tile :=
  let w := r.words
  let k : AccKind := if drain w then .engWrite else .engRead
  let move (off : Nat) : State × Tile :=
    match s.engineSide t r.level k (r.rows r.next) with
    | (s, .error b) => (s, .fails b.code b.addr)
    | (s, .ok m) => (s, .goes (if drain w then Flight.start (.scr off) m (tb w) else Flight.start m (.scr off) (tb w)))
  if rng w then
    match t.ring? (ring w) with
    | none => (s, .fails 0x50 (32 * ring w))
    | some q =>
      if q.err then (s, .fails 0x50 (32 * ring w))
      else
        let full := (q.tail - q.head).toNat
        let x := BitVec.ofNat 16 ahead
        if drain w then (if full ≤ ahead then (s, .waits) else move (q.slotOff (q.head + x)))
        else if q.cap ≤ full + ahead then (s, .waits)
        else move (q.slotOff (q.tail + x))
  else move (doff w + r.next * tb w)

/-- The tile at place `j` of engine `e`: in flight, or one that could start. -/
def State.tileNext (s : State) (t : Team) (e : Engine) (j : Nat) : State × Tile :=
  match e.fly[j]? with
  | some f => (s, .goes f)
  | none =>
    match e.tileRun j with
    | some r => s.tileOf t r (if Lay.rng r.words then e.ahead j (Lay.ring r.words) else 0)
    | none => (s, .waits)

/-- The same; it waits while its memory cannot be reached. -/
def State.tileAt (s : State) (t : Team) (e : Engine) (j : Nat) : State × Tile :=
  match s.tileNext t e j with
  | (s, .goes f) => (s, if s.flightOpen f (((e.tileRun j).map (·.waits)).getD []) then .goes f else .waits)
  | x => x

/-- Tile `j` of engine `k` is in flight as `f`. -/
def Team.setFlight (t : Team) (k j : Nat) (f : Flight) : Team :=
  match t.engine k with
  | some e => t.setEngine k { e with fly := if j < e.fly.length then e.fly.set j f else e.fly ++ [f] }
  | none => t

open Lay in
/-- The rest of a tile's bytes moves, then the ring index rises, then the arrival word (R310). -/
def State.moveTile (s : State) (t : Team) (r : Run) (f : Flight) : State :=
  let w := r.words
  let s := (s.endFlight t f).1
  let s := if rng w then s.modWork t.part t.id fun u => match u.ring? (ring w) with
      | some q => u.setRing (if drain w then { q with head := q.head + 1 } else { q with tail := q.tail + 1 })
      | none => u
    else s
  if aen w then s.arriveAdd t.id (aoff w) (tb w) else s

/-- The engine after its head run is gone: the next one starts, a waiting `sgo` gets its place, `sstop` is performed. -/
def Team.endRun (t : Team) (k : Nat) (e : Engine) : Team :=
  let rest := e.runs.tail
  let t := t.setEngine k { e with
    runs := rest
    fly := if e.st = .stopping then [] else e.fly
    tiles := if rest.isEmpty then e.tiles else 0
    st := if rest.isEmpty then .idle else .running
    stops := 0 }
  t.subCnts ((if 4 < e.runs.length then 1 else 0) + e.stops)

/-- The oldest tile of engine `k` completed. -/
def Team.tileDone (t : Team) (k : Nat) : Team :=
  match t.engine k with
  | none => t
  | some e =>
    match e.runs with
    | [] => t
    | r :: rest =>
      let e := { e with
        tiles := e.tiles + 1
        fly := e.fly.tail
        runs := { r with next := r.next + 1 } :: rest }
      if e.st = .stopping ∨ Lay.tiles r.words ≤ r.next + 1 then t.endRun k e else t.setEngine k e

/-- The oldest tile of engine `k` fails (R196). A stopping engine has the state it takes cleared at once, by its `sstop`
(R197) (log 58). -/
def Team.tileFails (t : Team) (k code info : Nat) : Team :=
  match t.engine k with
  | none => t
  | some e =>
    if e.st = .stopping then t.endRun k e
    else (t.discardRuns k e 0).setEngine k { e with
      runs := []
      fly := []
      st := .faulted
      fcode := code
      fva := BitVec.ofNat 64 info
      fring := match e.runs with
        | r :: _ => if Lay.rng r.words then some (Lay.ring r.words) else none
        | [] => none }

/-- The engine has work: its state lets its head run go on. -/
def Engine.head (e : Engine) : Option Run :=
  match e.runs, e.st with
  | r :: _, .running | r :: _, .stopping => some r
  | _, _ => none

/-- The engine is at work: its team is on its slot and its partition not frozen (R313, R368). -/
def State.working (s : State) (t : TeamId) (k : Nat) : Option (Team × Engine × Run) :=
  match s.team? t with
  | none => none
  | some u =>
    if u.stat = .saved ∨ (s.part u.part).frozen ∨ (s.part u.part).freezing then none
    else match u.engine k with
      | none => none
      | some e => e.head.map fun r => (u, e, r)

/-- How many of the latest cuts the tile at place `j` belongs to an instruction before: the snapshot's engine has it too, in
flight or free to start. -/
def State.oldTile (s : State) (t : Team) (k j : Nat) (e : Engine) : Nat :=
  s.olderTeam t.part t.id fun u => (u.engine k).any fun d =>
    d.head.isSome && d.runs.head? == e.runs.head? && d.tileRun j == e.tileRun j && decide (j ≤ d.fly.length) &&
    match (s.tileAt u d j).2 with
    | .waits => false
    | _ => true

/-- The oldest tile of engine `k` completes as flight `f`. -/
def State.finishTile (s : State) (u : Team) (k : Nat) (r : Run) (f : Flight) : State :=
  (s.moveTile u r f).modWork u.part u.id fun v => v.tileDone k

/-- STREAM_TILE_COMPLETE: the oldest tile. -/
def State.tileComplete (s : State) (t : TeamId) (k : Nat) : State :=
  match s.working t k with
  | none => s
  | some (u, e, r) =>
    match s.tileAt u e 0 with
    | (s, .goes f) => s.asOld (s.oldTile u k 0 e) fun s => if s.flightHeld u.part f then s else s.finishTile u k r f
    | (_, .waits) | (_, .fails _ _) => s

/-- STREAM_TILE_COMPLETE of a part: byte `i` of the tile at place `j` is read or, of the oldest tile, written; the tile starts
if it has not. At most eight tiles are in flight; only a tile in flight goes on while its engine stops (log 119). -/
def State.tileStep (s : State) (t : TeamId) (k j i : Nat) : State :=
  match s.working t k with
  | none => s
  | some (u, e, _) =>
    if 8 ≤ j ∨ e.fly.length < j ∨ (e.st = .stopping ∧ j = e.fly.length) then s
    else
      match s.tileAt u e j with
      | (s, .goes f) => s.asOld (s.oldTile u k j e) fun s =>
          let (s, f) := if j ≠ 0 ∨ (f.got.get? i).isNone then (s, s.fetchFlight u f [i])
            else if s.flightHeld u.part f then (s, f) else s.landFlight u f [i]
          s.modWork u.part t fun v => v.setFlight k j f
      | (_, .waits) | (_, .fails _ _) => s
def execStreamTileComplete (s : State) : Out :=
  .next (if s.ev.flag then s.tileStep s.ev.team s.ev.eng s.ev.idx s.ev.addr else s.tileComplete s.ev.team s.ev.eng)

/-- STREAM_ENGINE_FAULT (R196): the oldest tile fails, or another device has not answered its access (R386): no byte of it
has then been written (log 119). -/
def State.engineFails (s : State) (t : TeamId) (k : Nat) (noAnswer : Bool) : State :=
  match s.working t k with
  | none => s
  | some (u, e, _) =>
    match s.tileNext u e 0 with
    | (s, .fails code info) => s.asOld (s.oldTile u k 0 e) fun s => s.modWork u.part t fun v => v.tileFails k code info
    | (s, .goes f) =>
      match noAnswer && f.put.isEmpty, f.firstOn s.isPeer with
      | true, some va => s.asOld (s.oldTile u k 0 e) fun s => s.modWork u.part t fun v => v.tileFails k 0x18 va
      | _, _ => s
    | (_, .waits) => s
def execStreamEngineFault (s : State) : Out := .next (s.engineFails s.ev.team s.ev.eng s.ev.flag)

/-! ## A team leaves its slot, or is parked on it (R313, R368) -/

/-- Engine `k` completes its tile in progress; what it has read of later tiles is dropped. -/
def State.drainEngine (s : State) (t : TeamId) (k : Nat) : State :=
  match s.team? t with
  | none => s
  | some u =>
    match u.engine k with
    | none => s
    | some e =>
      match e.head, e.fly with
      | some r, f :: _ =>
        (s.asOld (s.oldTile u k 0 e) fun s => s.finishTile u k r f).modTeam t fun v => match v.engine k with
          | some e => v.setEngine k { e with fly := [] }
          | none => v
      | _, _ => s
/-- The tiles in progress of team `t` complete. -/
def State.drainTiles (s : State) (t : Team) : State × Team :=
  let s := (List.range t.engines.length).foldl (fun s k => s.drainEngine t.id k) (s.setTeam t)
  (s, (s.team? t.id).getD t)

end Sys2Proof.Machine
end

