-- ==== Sys2Proof/Machine/Records.lean ====
section
/-!
DEFINITION. Records: the bounds and credits they carry (R258, R259), emission and the reading of input records (R201-R210).
-/
namespace Sys2Proof.Machine

/-! ## Edges and bounds (R247, R258) -/

def edgeValid (e : W64) : Bool := bitsOf e 31 31 == 1
def edgeMax (e : W64) : Nat := bitsOf e 26 16
def edgeSucc (e : W64) : Nat := bitsOf e 15 0
def Node.erre (n : Node) : Bool := fld n.desc 1 26 26 == 1
def Node.errNode (n : Node) : Nat := fld n.desc 1 63 48
def Node.gall (n : Node) : Bool := fld n.desc 1 27 27 == 1
def Node.prio (n : Node) : Nat := fld n.desc 1 25 23
def Node.width (n : Node) : Nat := fld n.desc 1 10 0
def Node.regs (n : Node) : Nat := fld n.desc 1 40 34
def Node.engines (n : Node) : Nat := fld n.desc 1 43 41
def Node.coal (n : Node) : Nat := fld n.desc 2 47 32
def Node.scrBytes (n : Node) : Nat := fld n.desc 2 31 0
def Node.ringBits (n : Node) : Nat := fld n.desc 3 31 0
def Node.entry (n : Node) : W64 := BitVec.ofNat 64 (fld n.desc 0 55 0)
/-- Edges 0 to 7. -/
def Node.edges (n : Node) : List W64 := (n.desc.drop 6).take 8

/-- The maximum of the self-edges of node `k`. -/
def Node.selfMax (n : Node) (k : Nat) : Nat :=
  ((n.edges.filter fun e => edgeValid e && edgeSucc e == k).map edgeMax).sum

/-- G with `k` levels of self-edge left: `b` is the bound without the self-edge, `m` its maximum. -/
def selfBound (b m : Nat) : Nat → Nat
  | 0 => b + m
  | k + 1 => b + m * selfBound b m k

/-- G(N, d) (R258); the fuel is the number of nodes, which no path of a loaded graph exceeds. -/
def Graph.boundFuel (g : Graph) : Nat → Nat → Nat → Nat
  | 0, _, _ => 1
  | fuel + 1, n, d =>
    match g.nodes.get? n with
    | none => 1
    | some x =>
      let kids := (x.edges.filter fun e => edgeValid e && edgeSucc e != n).map fun e => edgeMax e * g.boundFuel fuel (edgeSucc e) 0
      let err := if x.erre then g.boundFuel fuel x.errNode 0 else 0
      selfBound (1 + kids.sum + err) (x.selfMax n) (x.depthLimit - d)
def Graph.bound (g : Graph) (n d : Nat) : Nat := g.boundFuel (g.nodes.length + 1) n d

/-- No record bound of the graph exceeds 2⁴⁰ (R258). -/
def Graph.boundsOk (g : Graph) : Bool := g.nodes.all fun (n, _) => decide (g.bound n 0 ≤ 2 ^ 40)

/-- The bound of one record on edge `e` of node `n`, emitted from depth `d` (R259, R260). -/
def Graph.edgeBound (g : Graph) (n : Nat) (e : W64) (d : Nat) : Nat :=
  if edgeSucc e = n then
    match g.nodes.get? n with
    | some x => if x.depthLimit ≤ d then 1 else g.bound n (d + 1)
    | none => 1
  else g.bound (edgeSucc e) 0

def State.boundOf (s : State) (p g n d : Nat) : Nat :=
  match s.graph? p g with
  | some x => x.bound n d
  | none => 1

/-- GRAN and LINK of a partition (R226): partition 0 has the shares that no tenant has (R345, log 61). -/
def State.tenantShares (s : State) (f : Partition → Nat) : Nat := ((List.range 16).map fun q => f (s.part (q + 1))).sum
def State.granOf (s : State) (p : Nat) : Nat := if p = 0 then 1024 - s.tenantShares (·.gran) else (s.part p).gran
def State.linkOf (s : State) (p : Nat) : Nat := if p = 0 then 256 - s.tenantShares (·.link) else (s.part p).link

/-- The limit L of a partition's account (R259), and Rcap. -/
def State.rcap (s : State) (p : Nat) : Nat :=
  let sh := (s.preg p 3) % 2 ^ 24
  if sh ≠ 0 then sh else s.granOf p * 1024
/-- How many records may be resident: Rcap, within the Granary share, so that the record store holds them all (R229, R2)
(log 133). -/
def State.resCap (s : State) (p : Nat) : Nat := min (s.rcap p) (s.granOf p * 1024)
def State.credLim (s : State) (p : Nat) : Nat := s.rcap p + s.preg p 4

/-- Control records whose report is not yet written or dropped (R381): waiting, watching, or answered. -/
def Partition.ctrlUse (x : Partition) : Nat :=
  x.ctrl.length + x.reports.length + (x.graphs.map fun (_, g) => g.watch.length).sum +
    (x.egress.filter fun (_, e) => match e with
      | .report _ => true
      | _ => false).length

/-- CREDUSE (R259): queued records, teams, records on their way, and control records until their report (R381). -/
def State.credUse (s : State) (p : Nat) : Nat :=
  let x := s.part p
  let queued := (x.graphs.map fun (_, g) => (g.nodes.map fun (_, n) => (n.q.map (·.credit)).sum).sum).sum
  let teams := (s.teams.map fun (_, t) => if t.part == p then t.credit else 0).sum
  queued + teams + (x.flying.map (·.credit)).sum + x.ctrlUse

/-! ## Input records -/

/-- The record of lane `l`: its own in a per-lane node, the team's in a per-team node. -/
def Team.recOf (s : State) (t : Team) (l : Nat) : List W32 :=
  match t.node? s with
  | some n => if n.perTeam then t.recs.getD 0 [] else t.recs.getD l []
  | none => t.recs.getD 0 []
def Team.perTeamNode (s : State) (t : Team) : Bool :=
  match t.node? s with
  | some n => n.perTeam
  | none => true
def recWord (r : List W32) (i : Nat) : W32 := r.getD i 0

/-- One lane's word, the index already checked. -/
def rrdEff (x : RArgs) (s : State) (t : Team) : Eff :=
  let bad (l i : Nat) : Eff := .fault 0x24 (BitVec.ofNat 64 i) (laneWord l)
  if x.d.isS then
    if !t.perTeamNode s then .fault 0x03 0 noLane
    else
      let i := (lane32 s t x.a 0).toNat
      if 15 < i then bad noLaneN i
      else .ok (s.resultWrites t x.la [.s (destIndex x.d)] [.s (destIndex x.d) ((recWord (t.recOf s 0) i).zeroExtend 64)])
  else
    let ls := t.active x.g
    match ls.find? fun l => decide (15 < (lane32 s t x.a l).toNat) with
    | some l => bad l (lane32 s t x.a l).toNat
    | none => .ok (s.resultWrites t x.la [.v (destIndex x.d)]
        (ls.map fun l => .v (destIndex x.d) l (recWord (t.recOf s l) (lane32 s t x.a l).toNat)))
def execRrd (x : RArgs) (s : State) : Out := issue (.rrd x) (rrdEff x) s

def rlenEff (x : RArgs) (s : State) (t : Team) : Eff :=
  if x.d.isS then
    if !t.perTeamNode s then .fault 0x03 0 noLane
    else .ok (s.resultWrites t x.la [.s (destIndex x.d)] [.s (destIndex x.d) (BitVec.ofNat 64 (recLen (t.recOf s 0)))])
  else .ok (s.resultWrites t x.la [.v (destIndex x.d)]
    ((t.active x.g).map fun l => .v (destIndex x.d) l (BitVec.ofNat 32 (recLen (t.recOf s l)))))
def execRlen (x : RArgs) (s : State) : Out := issue (.rlen x) (rlenEff x) s

/-! ## Emission (R201-R207) -/

/-- The key of an allowance: a lane's own, or the team's. -/
def allowKey (perLane : Bool) (e l : Nat) : Nat := if perLane then 1025 * e + l else 1025 * e + 1024

/-- One record to emit: the lane (or none), its depth, its destination, its words. -/
structure Emission where
  lane : Nat
  dev : Nat
  gslot : Nat
  node : Nat
  w : List W32
  bound : Nat
  deriving DecidableEq, Repr

/-- What an emission instruction gives: edge, length, the handle of each lane under `emitx`, affinity, payload word. -/
structure EmitReq where
  edge : Nat
  len : Nat
  handle : Option (Nat → W64)
  aff : Nat → Nat
  word : Nat → Nat → W32

def emitHeader (dev gslot node depth flags : Nat) (corr : W32) (len aff : Nat) : List W32 :=
  [BitVec.ofNat 32 (node + 2 ^ 16 * gslot + 2 ^ 24 * depth), BitVec.ofNat 32 (dev + flags), corr,
    BitVec.ofNat 32 (aff % 256 + 256 * len)]

def payload (q : EmitReq) (l : Nat) : List W32 :=
  (List.range 12).map fun i => if i < q.len then q.word l i else 0#32

/-- The checks of R205 for one lane, then its record; `u` counts charges made so far. -/
def emitOne (s : State) (t : Team) (n : Node) (g : Graph) (q : EmitReq) (perLane : Bool) (u : Table Nat) (l : Nat) :
    Except (Nat × W64) (Emission × Table Nat) :=
  let e := n.edge q.edge
  let r := t.recOf s l
  let d := if perLane then recDepth r else t.depth
  let k := allowKey perLane q.edge l
  if 12 < q.len then .error (0x24, BitVec.ofNat 64 q.len)
  else if !edgeValid e then .error (0x22, BitVec.ofNat 64 q.edge)
  else
    let self := edgeSucc e == t.node
    let fin (dev gs node depth flags : Nat) : Except (Nat × W64) (Emission × Table Nat) :=
      if edgeMax e ≤ u.get 0 k then .error (0x21, 0)
      else .ok (⟨l, dev, gs, node, emitHeader dev gs node depth flags (recWord r 2) q.len (q.aff l) ++ payload q l,
        g.edgeBound t.node e d⟩, u.set 0 k (u.get 0 k + 1))
    match q.handle with
    | some h =>
      let x := h l
      if bitsOf x 63 34 ≠ 0 ∨ s.dsize ≤ bitsOf x 33 24 then .error (0x23, BitVec.ofNat 64 (bitsOf x 33 0))
      else fin (bitsOf x 33 24) (bitsOf x 23 16) (bitsOf x 15 0) 0 0x400
    | none =>
      if self && decide (n.depthLimit < d + 1) then .error (0x20, 0)
      else fin s.devn t.gslot (edgeSucc e) (if self then d + 1 else 0) 0

def emitAll (s : State) (t : Team) (n : Node) (g : Graph) (q : EmitReq) (perLane : Bool) :
    List Nat → Table Nat → Except (Nat × W64 × Nat) (List Emission × Table Nat)
  | [], u => .ok ([], u)
  | l :: ls, u =>
    match emitOne s t n g q perLane u l with
    | .error (c, i) => .error (c, i, l)
    | .ok (x, u) =>
      match emitAll s t n g q perLane ls u with
      | .error f => .error f
      | .ok (xs, u) => .ok (x :: xs, u)

/-- The widest release that the team has issued (R208). -/
def Team.rel (t : Team) : Option Rel := t.relAt.map fun sc => ⟨sc, t.core⟩

/-- Where an `emit` record goes: toward its queue, already paid. An `emitx` record becomes an arrival (R260). -/
def State.sendEmission (s : State) (t : Team) (seq : Nat) (x : Emission) (routed : Bool) : State :=
  s.modPart t.part fun p =>
    if routed then
      let k : ArrKind := if x.dev = s.devn then .emitx t.id seq x.node else .remoteOut x.dev t.id seq x.node
      { p with held := p.held ++ [⟨k, x.gslot, x.node, x.w, s.now + 1000 * s.preg t.part 10, .node t.gslot t.node, t.rel⟩] }
    else { p with flying := p.flying ++ [⟨x.gslot, x.node, x.w, x.bound, .emit t.id seq, t.rel⟩] }

/-- The emission of `q` by the lanes `ls` (R206); `team` for the team forms, whose node is tested before the length (log 117). -/
def emitEff (q : EmitReq) (team : Bool) (ls : List Nat) (la : Fin 16) (s : State) (t : Team) : Eff :=
  match t.node? s, s.graph? t.part t.gslot with
  | some n, some g =>
    let perLane := !n.perTeam && !team
    if team && !n.perTeam then .fault 0x22 (BitVec.ofNat 64 q.edge) noLane
    else
      match emitAll s t n g q perLane ls t.used with
      | .error (c, i, l) => .fault c i (laneWord l)
      | .ok (xs, u) =>
        if xs.isEmpty then .ok s
        else
          let routed := q.handle.isSome
          let s := xs.foldl (fun s x => s.sendEmission t t.nseq x routed) s
          let s := s.pendAdd t la (some 5) (.emit xs.length) false false [] []
          .ok (s.modTeam t.id fun v => { v with
            used := u
            credit := v.credit - (xs.map (·.bound)).sum })
  | _, _ => .fault 0x22 (BitVec.ofNat 64 q.edge) noLane

/-- A run of registers past the last is fault 0x03 (R201), whether or not a lane participates; a length above 12 goes on, to
fault 0x24 (log 118). -/
def runOk (a : Opnd) (len : Nat) : Bool := len == 0 || decide (12 < len) || decide (a.index + len ≤ 64)

def uniLen (s : State) (t : Team) (b : Opnd) : Nat := (lo32 (uni s t b)).toNat

def emitVEff (edge : Fin 8) (x : RArgs) (s : State) (t : Team) : Eff :=
  let len := uniLen s t x.b
  if !runOk x.a len then .fault 0x03 0 noLane
  else emitEff ⟨edge.val, len, none, fun l => (lane32 s t x.c l).toNat, fun l i => t.r.lane (x.a.index + i) l⟩ false
    (t.active x.g) x.la s t
/-- The payload registers an `emit` reads (R35). -/
def payloadRun (x : RArgs) (s : State) (t : Team) : Option Nat := some (min (uniLen s t x.b) (64 - x.a.index))
def execEmit (edge : Fin 8) (x : RArgs) (s : State) : Out :=
  issueRun (payloadRun x) (.emit edge x) (emitVEff edge x) s

def emitTeamEff (edge : Fin 8) (x : RArgs) (s : State) (t : Team) : Eff :=
  let len := uniLen s t x.b
  if !runOk x.a len then .fault 0x03 0 noLane
  else emitEff ⟨edge.val, len, none, fun _ => (lo32 (uni s t x.c)).toNat, fun _ i => lo32 (t.r.sget (x.a.index + i))⟩ true
    [noLaneN] x.la s t
def execEmitTeam (edge : Fin 8) (x : RArgs) (s : State) : Out :=
  issueRun (payloadRun x) (.emitTeam edge x) (emitTeamEff edge x) s

def emitxEff (len : Fin 16) (edge : Fin 8) (x : RArgs) (s : State) (t : Team) : Eff :=
  emitEff ⟨edge.val, len.val, some fun l => opnd s t (.int true) x.c l, fun _ => 0, fun l i => t.r.lane (x.a.index + i) l⟩
    false (t.active x.g) x.la s t
def execEmitx (len : Fin 16) (edge : Fin 8) (x : RArgs) (s : State) : Out :=
  issueRun (fun _ _ => some len.val) (.emitx len edge x) (emitxEff len edge x) s

def emitxTeamEff (len : Fin 16) (edge : Fin 8) (x : RArgs) (s : State) (t : Team) : Eff :=
  emitEff ⟨edge.val, len.val, some fun _ => uni s t x.c, fun _ => 0, fun _ i => lo32 (t.r.sget (x.a.index + i))⟩ true
    [noLaneN] x.la s t
def execEmitxTeam (len : Fin 16) (edge : Fin 8) (x : RArgs) (s : State) : Out :=
  issueRun (fun _ _ => some len.val) (.emitxTeam len edge x) (emitxTeamEff len edge x) s

end Sys2Proof.Machine
end

