-- ==== Sys2Proof/Machine/Lines.lean ====
section
/-!
DEFINITION. Ordered reductions (R155-R157, R303): the state of reduction lines at their home slices, `rdoset`, `rdo`.
-/
namespace Sys2Proof.Machine

def State.discard (s : State) (sl n : Nat) : State := s.modSlice sl fun y => { y with disc := (y.disc + n) % 2 ^ 48 }

/-- The bytes of the word at `pa`. -/
def State.homeWord (s : State) (p pa n : Nat) : Nat := leNat ((List.range n).map fun i => s.homeByte p (pa + i))

/-- M := round_rne_f32(M + x) at `pa` for a contribution that die `die` sent (R156, R286); the undo log is that of the line's
partition (R361), or of `p`, whose team set the line, on another device. -/
def State.addF32 (s : State) (p : Nat) (die : Option Nat) (pa : Nat) (x : W32) : State :=
  let p := if s.isPeer pa then p else s.lineOwner pa
  let v := (ff32.add .rne (s.homeWord p pa 4) x.toNat).1
  let s := (s.reach p (lineOf (s.norm pa))).storeBytes p (cells pa (leBytes 4 v))
  die.elim s fun d => s.dropPeerLines d [pa]

/-- Apply the held contributions that are next in order. -/
def applyNext (s : State) (x : RLine) : Nat → State × RLine
  | 0 => (s, x)
  | fuel + 1 =>
    if x.n = 0xFFFF_FFFF#32 then (s, x)
    else match x.held.find? (·.idx == x.n) with
      | none => (s, x)
      | some c =>
        applyNext (s.addF32 x.p c.die c.pa c.x) { x with
          n := x.n + 1
          held := x.held.filter (·.idx != c.idx)
          since := s.now } fuel

/-- Put the line back after a change, next contributions applied. -/
def State.settleLine (s : State) (sl line : Nat) (x : RLine) : State :=
  let (s, x) := applyNext s x (x.held.length + 1)
  s.setRline sl line x

/-- A pending gap at the line of `pa` faults the instruction that meets it (R157): the state with it dropped, and the
fault's s61 and s62. -/
def State.pendingGap (s : State) (pa : Nat) : Option (State × W64 × W64) :=
  match s.lineSlice pa with
  | none => none
  | some sl =>
    match s.rline? sl (lineOf pa) with
    | some x =>
      if x.gapPending && x.gap then
        some (s.setRline sl (lineOf pa) { x with
          gapPending := false
          since := s.now }, x.va, (lowestHeld x).zeroExtend 64)
      else none
    | none => none

/-- A gap that closed leaves no pending gap. -/
def RLine.closeGap (x : RLine) : RLine := { x with gapPending := x.gapPending && x.gap }

/-! ## `rdoset` (R155) -/

/-- One lane of `rdoset`; `none` when the slice has no state left for a new line. -/
def State.setLine (s : State) (t : Team) (a : Acc) (n : W32) : Option State :=
  match a.pas with
  | [] => some s
  | pa :: _ =>
    let pa := s.norm pa
    match s.lineSlice pa with
    | none => none
    | some sl =>
      let line := lineOf pa
      let old := s.rline? sl line
      if n = 0xFFFF_FFFF#32 then some (s.dropRline sl line)
      else
        match old with
        | none =>
          if 1024 ≤ (s.slice sl).lines.length then none
          else some (s.setRline sl line
            ⟨n, t.id, t.part, BitVec.ofNat 64 (a.va.toNat / 64 * 64), [], false, s.now⟩)
        | some x =>
          let keep := x.held.filter fun c => !decide (c.idx < n)
          some ((s.discard sl (x.held.length - keep.length)).settleLine sl line { x with
            n := n
            owner := t.id
            held := keep
            gapPending := false
            since := s.now })

def State.setLines (s : State) (t : Team) : List (Acc × W32) → State × Option Acc
  | [] => (s, none)
  | (a, n) :: r =>
    match s.setLine t a n with
    | none => (s, some a)
    | some s => s.setLines t r

/-- The address offers no ordered reduction: host or register space, a line without a home slice, and for a turned
partition anything outside the device (R155, R283, R363). -/
def State.rdoBad (s : State) (t : Team) (pa : Nat) : Bool :=
  s.noSlice pa || (s.turned t.part && s.outside pa)

/-- The first pending gap that the accesses meet, lowest lane first. -/
def State.firstGap (s : State) : List Acc → Option (State × W64 × W64)
  | [] => none
  | a :: r =>
    match a.pas with
    | pa :: _ =>
      match s.pendingGap (s.norm pa) with
      | some g => some g
      | none => s.firstGap r
    | [] => s.firstGap r

/-- The accesses of the lanes below the one that fails: the lowest failing lane's fault is taken (R139). -/
def accsBefore (bad : Option Acc) (accs : List Acc) : List Acc :=
  match bad with
  | some a => accs.takeWhile (· != a)
  | none => accs

def rdosetReqs (s : State) (t : Team) (x : RArgs) : List Req :=
  (t.active x.g).map fun l => Req.mk l (addrOf s t x.a l) 1 none

/-- `rdoset` is performed at issue (log 111). -/
def rdosetEff (x : RArgs) (s : State) (t : Team) : Eff :=
  let reqs := rdosetReqs s t x
  match s.checkReqs t .store .plain (s.rdoBad t) reqs with
  | (_, .error f) => f.eff
  | (s, .ok accs) =>
    s.watching t false true reqs <|
      let s := s.moveLines (s.linesAt (accs.flatMap (·.pas)))
      let set := s.setLines t (accs.map fun a => (a, lane32 s t x.b a.lane))
      match s.firstGap (accsBefore set.2 accs), set.2 with
      | some (s, line, idx), _ => .faultIn s 0x15 line idx
      | none, some a => .fault 0x14 a.va (laneWord a.lane)
      | none, none => .ok set.1
def execRdoset (x : RArgs) (s : State) : Out := issue (.rdoset x) (rdosetEff x) s

/-! ## `rdo` (R156) -/

def rdoReqs (s : State) (t : Team) (x : RArgs) : List Req :=
  (t.active x.g).map fun l =>
    let va := addrOf s t x.a l
    Req.mk l va 4
      (if lane32 s t x.c l = 0xFFFF_FFFF#32 then some (0x14, va56 va)
      else if va % 4 ≠ 0 then some (0x13, va56 va)
      else none)

def rdoEff (x : RArgs) (s : State) (t : Team) : Eff :=
  let reqs := rdoReqs s t x
  match s.checkReqs t .store .plain (s.rdoBad t) reqs with
  | (_, .error f) => f.eff
  | (s, .ok accs) =>
    s.watching t false true reqs <|
      .ok (s.pendAdd t x.la (some 1)
        (.rdo (accs.map fun a => (a, lo32 (opnd s t (.flt .f32) x.b a.lane), lane32 s t x.c a.lane)) false)
        true false [] [])
def execRdo (x : RArgs) (s : State) : Out := issue (.rdo x) (rdoEff x) s

/-- A contribution that die `die` of this device sent, or another device, reaches its line's home slice; `none` when it stays at
the sender (R156, R303). One that was accepted before a rollback enters whatever the slice holds (R342): `again`. -/
def State.contribute (s : State) (die : Option Nat) (again : Bool) (a : Acc) (x idx : W32) : Option State :=
  match a.pas with
  | [] => some s
  | pa :: _ =>
    let pa := s.norm pa
    match s.lineSlice pa with
    | none => some s
    | some sl =>
      let line := lineOf pa
      match s.rline? sl line with
      | none => some (s.discard sl 1)
      | some l =>
        if idx < l.n ∨ l.n = 0xFFFF_FFFF#32 ∨ l.held.any (·.idx == idx) then some (s.discard sl 1)
        else if again ∨ idx = l.n ∨ (s.slice sl).heldCount < 256 then
          let fresh := l.held.isEmpty
          some (s.settleLine sl line { l with
            held := l.held ++ [Contrib.mk pa x idx die]
            since := if fresh then s.now else l.since }.closeGap)
        else none

end Sys2Proof.Machine
end

