-- ==== Sys2Proof/Machine/Versions.lean ====
section
/-!
DEFINITION. Versioned memory (R158-R163, R324-R338): regions, granules at their homes, floors, wait tables and parking, and
the version instructions with the events that perform them. A granule is named by its physical line.
-/
namespace Sys2Proof.Machine

/-! ## Regions -/

/-- The partitions whose channel groups a range of virtual addresses reaches, page by page. -/
def State.rangeOwners (s : State) (p base len : Nat) : List Nat :=
  ((List.range (len / pageBytes)).filterMap fun k =>
    let va := base + k * pageBytes
    (s.combined p va).map fun e => s.lineOwner (e.pbase + (va - e.vbase))).eraseDups

/-- The slices that may home a line of region `x` (R331), those before an open window's change among them (R354): of this device,
or of the one device that homes it (R338). -/
def State.regionHomes (s : State) (p : Nat) (x : VRegion) : List Nat :=
  match (s.combined p x.dbase).map fun e => s.space (e.pbase + (x.dbase - e.vbase)) with
  | some (.peer d) => [1000 + d]
  | _ =>
    let os := s.rangeOwners p x.dbase x.dlen
    (List.range 96).filter fun l => os.any fun q => s.hashes q l || s.wins.any fun (_, w) => w.p == q && w.olds.any (·.contains l)

/-! ## Granules at their homes (R328) -/

/-- The bytes of a granule that lie at `pas`. -/
def granMask (pas : List Nat) : BitVec 64 := pas.foldl (fun m a => m ||| (1#64 <<< (a % 64))) 0

/-- Which bytes of version `v` of granule `g` exist. -/
def VRegion.exist (x : VRegion) (g : Nat) (v : W32) : BitVec 64 :=
  if v = x.baseOf g then BitVec.allOnes 64
  else match x.rec? g v with
    | some r => r.mask
    | none => 0

/-- The bytes `pas` of version `v`. -/
def State.verBytes (s : State) (p : Nat) (x : VRegion) (g : Nat) (v : W32) (pas : List Nat) : List Byte :=
  if v = x.baseOf g then pas.map (s.homeByte p)
  else match x.rec? g v with
    | some r => pas.map fun a => r.data.extractLsb' (8 * (a % 64)) 8
    | none => pas.map fun _ => 0

/-- The highest version of the granule all of whose bytes in `m` exist and that is at most `b`. -/
def VRegion.highest (x : VRegion) (g : Nat) (b : W32) (m : BitVec 64) : Option W32 :=
  let vs := (x.recs.filter fun r => r.g == g && decide (r.v ≤ b) && (r.mask &&& m) == m).map (·.v)
  let vs := if x.baseOf g ≤ b then x.baseOf g :: vs else vs
  match vs with
  | [] => none
  | v :: r => some (r.foldl (fun a c => if a < c then c else a) v)

/-- The floor that an access meets. -/
def State.vFloor (s : State) (p : Nat) (a : VAcc) : W32 := (s.region p a.region).floorAt (s.vHome a)

/-- Put bytes into a record. -/
def VRec.record (r : VRec) (cells : List (Nat × Byte)) : VRec :=
  cells.foldl (fun r (a, b) =>
    { r with
      mask := r.mask ||| (1#64 <<< (a % 64))
      data := (r.data &&& ~~~((0xFF#512) <<< (8 * (a % 64)))) ||| (b.zeroExtend 512 <<< (8 * (a % 64))) }) r

/-- The region after the bytes `cells` of version `v` are recorded, with its record made; by a release when `rel` (R335). -/
def VRegion.record (x : VRegion) (rel : Bool) (g : Nat) (v : W32) (cells : List (Nat × Byte)) : VRegion :=
  let r := ((x.rec? g v).getD ⟨g, v, 0, 0, []⟩).record cells
  let r := if rel then { r with rels := r.rels ++ [granMask (cells.map (·.1))] } else r
  let y := { x with recs := (x.recs.filter fun (q : VRec) => !(q.g == g && q.v == v)) ++ [r] }
  { y with peak := max y.peak y.slots }

/-! ## Issue checks -/

/-- Version instructions are not offered without a home slice, nor (but for stores and `vqry`) outside a turned
partition (R283, R363). -/
def State.verBad (s : State) (t : Team) (held : Bool) (pa : Nat) : Bool :=
  s.noSlice pa || (!held && s.turned t.part && s.outside pa)

/-- An access with the region it names. -/
def State.vacc (s : State) (t : Team) (v : W32) (a : Acc) : VAcc :=
  ⟨a, ((s.part t.part).regionAt a.va.toNat).elim 0 (·.1), v⟩

def State.vaccs (s : State) (t : Team) (b : Opnd) (accs : List Acc) : List VAcc :=
  accs.map fun a => s.vacc t (lane32 s t b a.lane) a

/-! ## `ldv`, `ldv.latest`, `stv`, `vqry`, `vflr` at issue -/

def ldvEff (ty : SZV) (sc : Scope) (acq : Bool) (x : RArgs) (s : State) (t : Team) : Eff :=
  let n := ty.bytes
  let dst : Dst := ⟨x.d, n, false⟩
  withAccess s t .load .versioned (s.verBad t false) true false (memReqs s t (accessLanes t x.g (some x.d)) x.a 0 n n)
    fun s accs => .ok (s.pendAdd t x.la (some 0)
      (.ldv dst (s.vaccs t x.b accs) (if acq then some sc else none) false none) true false dst.refs [])
def execLdv (t : SZV) (sc : Scope) (acq : Bool) (x : RArgs) (s : State) : Out :=
  issue (.ldv t sc acq x) (ldvEff t sc acq x) s

/-- The registers of `ldv.latest` (R161). -/
def latestDst (d : Dest) (n : Nat) : Dst :=
  match d with
  | .v _ => ⟨d, 2 * n, false⟩
  | .s _ => ⟨d, if n = 4 then 8 else 16, false⟩

/-- Data and version as one number in the destination's registers. -/
def latestValue (n data ver : Nat) : Nat := data + 2 ^ (8 * n) * ver

def ldvLatestEff (ty : SZV) (sc : Scope) (acq : Bool) (x : RArgs) (s : State) (t : Team) : Eff :=
  let n := ty.bytes
  let dst := latestDst x.d n
  withAccess s t .load .versioned (s.verBad t false) true false (memReqs s t (accessLanes t x.g (some x.d)) x.a 0 n n)
    fun s accs => .ok (s.pendAdd t x.la (some 0)
      (.latest dst (s.vaccs t x.b accs) (if acq then some sc else none)) true false dst.refs [])
def execLdvLatest (t : SZV) (sc : Scope) (acq : Bool) (x : RArgs) (s : State) : Out :=
  issue (.ldvLatest t sc acq x) (ldvLatestEff t sc acq x) s

def stvEff (ty : SZS) (rel : Option Scope) (x : RArgs) (s : State) (t : Team) : Eff :=
  let n := ty.bytes
  withAccess s t .store .versioned (s.verBad t true) false true (memReqs s t (t.active x.g) x.a 0 n n)
    fun s accs => .ok (s.pendAdd t x.la (some 1)
      (.stv (accs.map fun a => (s.vacc t (lane32 s t x.c a.lane) a, dataBytes s t x.b n a.lane)) rel) true false [] [])
def execStv (t : SZS) (x : RArgs) (s : State) : Out := issue (.stv t x) (stvEff t none x) s
def execStvRel (t : SZS) (sc : Scope) (x : RArgs) (s : State) : Out :=
  issue (.stvRel t sc x) (stvEff t (some sc) x) s

def vqryEff (x : RArgs) (s : State) (t : Team) : Eff :=
  let dst : Dst := ⟨x.d, 8, false⟩
  withAccess s t .load .versioned (s.verBad t true) true false (memReqs s t (accessLanes t x.g (some x.d)) x.a 0 1 1)
    fun s accs => .ok (s.pendAdd t x.la (some 0) (.vqry dst (accs.map (s.vacc t 0))) true false dst.refs [])
def execVqry (x : RArgs) (s : State) : Out := issue (.vqry x) (vqryEff x) s

def vflrEff (x : RArgs) (s : State) (t : Team) : Eff :=
  withAccess s t .store .versioned (s.verBad t false) false false (memReqs s t [noLaneN] x.a 0 1 1)
    fun s accs =>
      let a := accs.headD ⟨noLaneN, 0, [], []⟩
      .ok (s.pendAdd t x.la (some 1) (.vflr a (s.vacc t 0 a).region (lo32 (uni s t x.b))) true false [] [])
def execVflr (x : RArgs) (s : State) : Out := issue (.vflr x) (vflrEff x) s

/-! ## Copies of complete versions (R334) -/

/-- A copy of the version that an access names. -/
def State.verCopy (s : State) (t : Team) (src : CopySrc) (a : VAcc) : Option LineCopy :=
  let cs := match src with
    | .home => []
    | .near => (s.core t.core).near
    | .far => (s.die (dieOfCore t.core)).far
  cs.find? fun c => c.p == t.part && c.line == a.gran s && c.ver == some (a.region, a.version)

/-- A version load from the home leaves copies of the complete versions that it read, of none with poison. -/
def State.fillVersions (s : State) (t : Team) : List VAcc → State
  | [] => s
  | a :: r =>
    let x := s.region t.part a.region
    let g := a.gran s
    let bad := x.baseOf g = a.version && ((List.range 64).map (64 * g + ·)).any s.poisoned
    if x.exist g a.version == BitVec.allOnes 64 && !bad && (s.verCopy t .near a).isNone then
      let c : LineCopy := ⟨t.part, g, some (a.region, a.version),
        s.verBytes t.part x g a.version ((List.range 64).map (64 * g + ·)), s.now⟩
      let d := dieOfCore t.core
      let s := s.putNear t c
      (if s.farable d g then s.putFar d c else s).fillVersions t r
    else s.fillVersions t r

/-- The copies of versions of region `r` of partition `p` that `f` names are dropped on the whole module. -/
def State.dropVersions (s : State) (p r : Nat) (f : Nat → W32 → Bool) : State :=
  let keep (c : LineCopy) : Bool := match c.ver with
    | some (q, v) => !(c.p == p && q == r && f c.line v)
    | none => true
  { s with
    cores := s.cores.map fun (k, x) => (k, { x with near := x.near.filter keep })
    dies := s.dies.map fun (k, x) => (k, { x with far := x.far.filter keep }) }

/-! ## Version loads at the home (R160, R322, R332, R333) -/

/-- The load's bytes exist. -/
def State.vThere (s : State) (p : Nat) (a : VAcc) : Bool :=
  let m := granMask (a.bytes s)
  (s.region p a.region).exist (a.gran s) a.version &&& m == m

/-- Lanes that name a version below the floor (0x30), or lost bytes (0x40), lowest first. -/
def State.vFail (s : State) (p : Nat) (a : VAcc) : Option Fail :=
  if a.version < s.vFloor p a then some ⟨0x30, a.acc.va.toNat, a.acc.lane⟩
  else if (s.region p a.region).baseOf (a.gran s) = a.version then
    match (a.bytes s).findIdx? s.poisoned with
    | some i => some ⟨0x40, a.acc.va.toNat + i, a.acc.lane⟩
    | none => none
  else none

/-- Version load `p` meets a retired frame first, where it reads version `v` from the data range (R370). -/
def State.vLost (s : State) (t : Team) (p : Pending) (a : VAcc) (v : W32) : Option State :=
  if (s.region t.part a.region).baseOf (a.gran s) = v then s.lostLoad t p a.acc else none
/-- The fault that version load `p` meets at one of its lanes. -/
def State.vStop (s : State) (t : Team) (p : Pending) (a : VAcc) : Option State :=
  (s.vLost t p a a.version).or ((s.vFail t.part a).map (s.performFault t p))

/-- The wait places a load needs: slice and place, ascending granules. -/
def State.placesFor (s : State) (t : TeamId) (seq p : Nat) (accs : List VAcc) : List (Nat × WaitPlace) :=
  let missing := accs.filter fun a => !s.vThere p a
  let keys := (missing.map fun a => (a.gran s, a.region, a.version)).eraseDups
  let keys := keys.mergeSort fun x y => decide (x.1 ≤ y.1)
  keys.map fun (g, r, v) =>
    let mine := missing.filter fun a => a.gran s == g && a.region == r && a.version == v
    ((s.lineSlice (64 * g)).getD 0,
      ⟨none, t, seq, p, r, g, v, maskOf ((mine.map (·.acc.lane)).filter (decide <| · < 1024)), granMask (mine.flatMap (·.bytes s))⟩)

/-- Every slice has room, and no slice would hold more than 64 places of this load. -/
def State.roomFor (s : State) (ps : List (Nat × WaitPlace)) : Bool :=
  ps.all fun (sl, _) =>
    let k := (ps.filter (·.1 == sl)).length
    decide (k ≤ 64) && decide ((s.slice sl).waits.length + k ≤ 256)

def State.takePlaces (s : State) : List (Nat × WaitPlace) → State
  | [] => s
  | (sl, w) :: r => (s.modSlice sl fun x => { x with waits := x.waits ++ [w] }).takePlaces r

/-- The granules that parked loads name in slice `sl`. -/
def State.parkedIn (s : State) (sl : Nat) : Bool :=
  s.teams.any fun (_, t) => t.pend.any fun p =>
    match p.kind with
    | .ldv _ accs _ _ (some _) => !p.performed && accs.any fun a => s.vHome a == sl
    | _ => false

/-- A slice's filter clears when its last parked team has left. -/
def State.clearFilters (s : State) : State :=
  { s with slices := s.slices.map fun (l, x) => (l, if s.parkedIn l then x else { x with filter := 0 }) }

/-- An acquire that reads these bytes of version `v` may gain no ordering: it reads no release of the version in full (R300,
R335). Of a base version that once was a record the releases are no longer known (log 138). -/
def State.vUnsynced (s : State) (p : Nat) (a : VAcc) (v : W32) : Bool :=
  let x := s.region p a.region
  let m := granMask (a.bytes s)
  if v = x.baseOf (a.gran s) then v == 0 && s.partOfRelease (a.bytes s)
  else (x.rec? (a.gran s) v).all fun r => r.rels.all fun q => q &&& m != q

/-- An acquire that reads version `f a` of each access: one that synchronises with no release may act as a plain load. -/
def State.vAcquire (s : State) (t : Team) (acq : Option Scope) (accs : List VAcc) (f : VAcc → W32) : State :=
  match acq with
  | some sc => if s.ev.flag && accs.all (fun a => s.vUnsynced t.part a (f a)) then s else s.acquire t sc
  | none => s

/-- The result of a version load is delivered. -/
def State.vDeliver (s : State) (t : Team) (p : Pending) (dst : Dst) (accs : List VAcc) (acq : Option Scope)
    (bytes : VAcc → List Byte) : State :=
  let ws := accs.flatMap fun a => dst.deliver a.acc.lane (bytes a)
  let s := s.vAcquire t acq accs (·.version)
  (s.modTeam t.id fun u => u.perform p.seq ws).clearFilters

/-- One attempt of version load `p` of team `t` at its homes: performed, faulted, blocked in the wait tables, or parked. A
parked load that is refused again keeps its place in the order. -/
def State.tryVersion (s : State) (t : Team) (p : Pending) (dst : Dst) (accs : List VAcc) (acq : Option Scope)
    (parked : Bool) : State :=
  let s := (s.freePlaces t.id (· == p.seq)).reachLines t.part (accs.map (·.gran s)).eraseDups
  match accs.findSome? (s.vStop t p) with
  | some s => s.clearFilters
  | none =>
    if accs.all (s.vThere t.part) then
      let bytes (a : VAcc) : List Byte := s.verBytes t.part (s.region t.part a.region) (a.gran s) a.version (a.bytes s)
      (s.fillVersions t accs).vDeliver t p dst accs acq bytes
    else
      let ps := s.placesFor t.id p.seq t.part accs
      if s.roomFor ps then
        ((s.takePlaces ps).modTeam t.id fun u => u.modPend p.seq fun q =>
          { q with kind := .ldv dst accs acq true none }).clearFilters
      else if parked then s
      else s.park t p.seq dst accs acq

/-- The bytes that a version access and an earlier unperformed version store of the team share hold the access back
(R142). -/
def Team.ownStores (s : State) (t : Team) (num : Nat) (pas : List Nat) : Bool :=
  t.pend.any fun p => decide (p.num < num) && !p.performed && match p.kind with
    | .stv accs _ => accs.any fun (a, _) => (a.bytes s).any pas.contains
    | _ => false

/-- A version load may be performed now. -/
def State.vReady (s : State) (t : Team) (p : Pending) (accs : List VAcc) : Bool :=
  !p.performed && t.acquiredBefore p.num && !t.ownStores s p.num (accs.flatMap (·.bytes s)) &&
    s.hostOpen (accs.flatMap (·.bytes s))

/-- The pending instruction that an event names. -/
def State.evPend (s : State) : Option (Team × Pending) :=
  match s.team? s.ev.team with
  | some t => (t.pendOf s.ev.seq).map fun p => (t, p)
  | none => none

/-- Version load `seq` of team `id` tries again: a parked one, or a blocked one whose bytes exist or whose version fell below
the floor. -/
def State.retry (s : State) (id : TeamId) (seq : Nat) : State :=
  match s.team? id with
  | none => s
  | some t =>
    match t.pendOf seq with
    | none => s
    | some p =>
      match p.kind with
      | .ldv dst accs acq waiting parked =>
        let due := parked.isSome || (waiting && (accs.all (s.vThere t.part) || (accs.findSome? (s.vFail t.part)).isSome))
        if s.vReady t p accs && due then s.tryVersion t p dst accs acq parked.isSome else s
      | _ => s

/-- The parked loads that `f` names, in the order in which they parked. -/
def State.parkedLoads (s : State) (f : Team → List VAcc → Bool) : List (Nat × TeamId × Nat) :=
  (s.teams.flatMap fun (_, t) => t.pend.filterMap fun p =>
    match p.kind with
    | .ldv _ accs _ _ (some k) => if !p.performed && f t accs then some (k, t.id, p.seq) else none
    | _ => none).mergeSort fun x y => decide (x.1 ≤ y.1)

/-- The parked loads that `f` names retry (R333). -/
def State.retryParked (s : State) (f : Team → List VAcc → Bool) : State :=
  (s.parkedLoads f).foldl (fun s (_, id, seq) => s.retry id seq) s

/-- A load that has not yet reached its homes reaches them, after the loads parked on their slices have retried (R333). -/
def State.firstTry (s : State) (id : TeamId) (seq : Nat) : State :=
  match (s.team? id).bind fun t => t.pendOf seq with
  | none => s
  | some p =>
    match p.kind with
    | .ldv _ accs _ false none =>
      let homes := accs.map s.vHome
      let s := s.retryParked fun _ l => l.any fun a => homes.contains (s.vHome a)
      match s.team? id with
      | none => s
      | some t =>
        match t.pendOf seq with
        | none => s
        | some p =>
          match p.kind with
          | .ldv dst accs acq false none => if s.vReady t p accs then s.tryVersion t p dst accs acq false else s
          | _ => s
    | _ => s

/-- LDV_WAKE (R322): a blocked version load whose bytes exist is performed; one that has not yet reached its homes reaches
them, or is served from copies (R334), which hold no byte that is poisoned now. -/
def State.ldvWake (s : State) : State :=
  match s.evPend with
  | some (t, p) =>
    match p.kind with
    | .ldv dst accs acq false none =>
      if s.vReady t p accs && accs.all (fun a => (s.verCopy t s.ev.src a).isSome && (s.vStop t p a).isNone) then
        s.vDeliver t p dst accs acq fun a => (a.bytes s).map fun pa => ((s.verCopy t s.ev.src a).map (copyByte · pa)).getD 0
      else s.firstTry t.id p.seq
    | .ldv _ _ _ true _ => s.retry t.id p.seq
    | _ => s
  | none => s
def execLdvWake (s : State) : Out := .next s.ldvWake

/-- The loads parked on the slices of `accs` retry, in the order in which they parked (R333). -/
def State.retryOn (s : State) (accs : List VAcc) : State :=
  let homes := accs.map s.vHome
  s.retryParked fun _ l => l.any fun a => homes.contains (s.vHome a)

/-- PARKED_RETRY (R333): no place passes to a load that parked later. -/
def State.parkedRetry (s : State) : State :=
  match s.evPend with
  | some (_, p) =>
    match p.kind with
    | .ldv _ accs _ _ (some _) => s.retryOn accs
    | _ => s
  | none => s
def execParkedRetry (s : State) : Out := .next s.parkedRetry

/-- `ldv.latest` at its homes (R161). -/
def State.latestPerform (s : State) (t : Team) (p : Pending) (dst : Dst) (accs : List VAcc) (acq : Option Scope) : State :=
  let s := s.reachLines t.part (accs.map (·.gran s)).eraseDups
  let pick (a : VAcc) : Option W32 :=
    (s.region t.part a.region).highest (a.gran s) a.version (granMask (a.bytes s))
  let fail (a : VAcc) : Option Fail :=
    match pick a with
    | none => some ⟨0x30, a.acc.va.toNat, a.acc.lane⟩
    | some v =>
      if (s.region t.part a.region).baseOf (a.gran s) = v then
        (((a.bytes s).findIdx? s.poisoned).map fun i => ⟨0x40, a.acc.va.toNat + i, a.acc.lane⟩)
      else none
  match accs.findSome? fun a => ((pick a).bind (s.vLost t p a)).or ((fail a).map (s.performFault t p)) with
  | some s => s
  | none =>
    let ws := accs.flatMap fun a =>
      let v := (pick a).getD 0
      let bs := s.verBytes t.part (s.region t.part a.region) (a.gran s) v (a.bytes s)
      destWrites dst.d dst.bytes a.acc.lane (latestValue bs.length (leNat bs) v.toNat)
    (s.vAcquire t acq accs fun a => (pick a).getD 0).modTeam t.id fun u => u.perform p.seq ws

/-- `vqry` at its homes (R163). -/
def State.vqryPerform (s : State) (t : Team) (p : Pending) (dst : Dst) (accs : List VAcc) : State :=
  let s := s.reachLines t.part (accs.map (·.gran s)).eraseDups
  let ws := accs.flatMap fun a =>
    let top := ((s.region t.part a.region).highest (a.gran s) 0xFFFF_FFFF#32 (BitVec.allOnes 64)).getD 0
    destWrites dst.d 8 a.acc.lane (top.toNat + 2 ^ 32 * (s.vFloor t.part a).toNat)
  s.modTeam t.id fun u => u.perform p.seq ws

/-! ## Version stores at the home (R159, R328, R329) -/

/-- Record one lane, or the fault it meets; `rel` for a release. A region that has been destroyed takes no store (log 139). -/
def State.vStore1 (s : State) (p : Nat) (rel : Bool) (a : VAcc) (bs : List Byte) : Except Fail State :=
  let x := s.region p a.region
  let g := a.gran s
  let bad (c i : Nat) : Except Fail State := .error ⟨c, a.acc.va.toNat + i, a.acc.lane⟩
  let f := s.vFloor p a
  if !s.liveRegion p a.region then bad 0x33 0
  else if a.version < f then bad 0x30 0
  else if f.toNat + 64 ≤ a.version.toNat then bad 0x34 0
  else
    match (a.bytes s).findIdx? fun b => (x.exist g a.version).getLsbD (b % 64) with
    | some i => bad 0x31 i
    | none =>
      let y := x.record rel g a.version ((a.bytes s).zip bs)
      if x.plen / 128 < y.slots then bad 0x32 0 else .ok (s.setRegion p a.region y)

def State.vStoreAll (s : State) (p : Nat) (rel : Bool) : List (VAcc × List Byte) → Except Fail State
  | [] => .ok s
  | (a, bs) :: r =>
    match s.vStore1 p rel a bs with
    | .error f => .error f
    | .ok s => s.vStoreAll p rel r

/-- What a reader on another device may see of version `v` of granule `g`: of a turned partition, versions complete at
its last committed checkpoint (R336). -/
def State.abroad (s : State) (p r g : Nat) (v : W32) (m : BitVec 64) : Bool :=
  if s.turned p then
    match (s.part p).committed with
    | some c => (c.regions.get VRegion.empty r).exist g v == BitVec.allOnes 64
    | none => false
  else (s.region p r).exist g v &&& m == m

/-- The bytes of a place exist for its waiter. -/
def State.placeReady (s : State) (w : WaitPlace) : Bool :=
  if w.dev.isSome then s.abroad w.p w.region w.granule w.version w.mask
  else (s.region w.p w.region).exist w.granule w.version &&& w.mask == w.mask

/-- A device fills a copy of a version of the region from slice `sl` (R331). -/
def State.addHolder (s : State) (p r sl dev : Nat) : State :=
  let x := s.region p r
  s.setRegion p r { x with holders := if x.holders.contains (sl, dev) then x.holders else x.holders ++ [(sl, dev)] }

/-- The header of a message about a region of partition `p`: the partition goes by its DOMID (R387). -/
def State.partHdr (s : State) (p d dev : Nat) : Hdr := ⟨s.devn, d, dev, s.preg p 25⟩

/-- Places whose bytes all exist are freed (R332): a waiter on another device is told (R387), and becomes a holder; a load
whose last place that was is performed, and the loads parked on the slice retry, in order (R333). -/
def State.freeReady (s : State) : State :=
  let gone : List (Nat × WaitPlace) := s.slices.flatMap fun (l, x) => (x.waits.filter s.placeReady).map fun w => (l, w)
  let s := State.sends { s with
    slices := s.slices.map fun (l, x) => (l, { x with waits := x.waits.filter fun w => !s.placeReady w }) }
    (gone.filterMap fun (_, w) => w.dev.map fun d => .vwake (s.partHdr w.p (dieOfPa (64 * w.granule)) d) w.granule w.version)
  let s := gone.foldl (fun (s : State) (l, w) => match w.dev with
    | some d => s.addHolder w.p w.region l d
    | none => s) s
  let s := ((gone.filter fun x => x.2.dev.isNone).map fun x => (x.2.team, x.2.seq)).eraseDups.foldl
    (fun s (id, seq) => s.retry id seq) s
  let homes := gone.map (·.1)
  s.retryParked fun _ l => l.any fun a => homes.contains (s.vHome a)

/-- A version store was recorded to these granules: the loads parked on a slice whose filter holds one retry (R333). -/
def State.wakeParked (s : State) (gs : List Nat) : State :=
  let homes := gs.filterMap fun g => match s.lineSlice (64 * g) with
    | some sl => if (s.slice sl).filter.getLsbD (g % 256) then some sl else none
    | none => none
  s.retryParked fun _ l => l.any fun a => homes.contains (s.vHome a)

/-- A version store to another device by a turned partition is held (R363). -/
def State.holdVersions (s : State) (p : Nat) (accs : List (VAcc × List Byte)) : State :=
  accs.foldl (fun s (a, bs) => s.modPart p fun x => { x with
    egress := x.egress ++ [(x.epoch, .version a.region a.version ((a.bytes s).zip bs))] }) s

def State.stvPerform (s : State) (t : Team) (p : Pending) (accs : List (VAcc × List Byte)) (rel : Bool) : State :=
  let s := s.reachLines t.part (accs.map fun x => x.1.gran s).eraseDups
  let away (x : VAcc × List Byte) : Bool := s.turned t.part && (x.1.bytes s).any s.outside
  match s.vStoreAll t.part rel (accs.filter fun x => !away x) with
  | .error f => s.performFault t p f
  | .ok s =>
    let s := s.holdVersions t.part (accs.filter away)
    let s := (accs.map (·.1.region)).eraseDups.foldl (fun s r => s.noteRegion t.part r true) s
    (s.freeReady.wakeParked ((accs.map fun x => x.1.gran s).eraseDups)).modTeam t.id fun u => u.perform p.seq []

/-- VERSION_STORE_RECORD. -/
def State.versionStoreRecord (s : State) : State :=
  match s.evPend with
  | some (t, p) =>
    match p.kind with
    | .stv accs rel =>
      if t.closedBefore p.num && s.hostOpen (accs.flatMap (·.1.bytes s)) && !s.writeHeld t.part [] && (match rel with
          | some sc => s.releaseReady t p sc
          | none => true) then s.stvPerform t p accs (rel.isSome || t.relFence)
      else s
    | _ => s
  | none => s
def execVersionStoreRecord (s : State) : Out := .next s.versionStoreRecord

/-! ## Floors (R330, R331) -/

/-- Blocked loads of which a lane names a version below the floor at the slice fault (R332), and those of other devices that
wait there. -/
def State.releaseBelow (s : State) (p r : Nat) (f : W32) (sl : Nat) : State :=
  let hit (w : WaitPlace) : Bool := w.dev.isSome && w.p == p && w.region == r && decide (w.version < f)
  let told := ((s.slice sl).waits.filter hit).filterMap fun w => w.dev.map fun d => Msg.denied d 0x30
  let s := (s.modSlice sl fun x => { x with waits := x.waits.filter fun w => !hit w }).sends told
  (s.teams.flatMap fun (_, t) => t.pend.filterMap fun q =>
    match q.kind with
    | .ldv _ accs _ true _ =>
      if t.part == p && accs.any (fun a => a.region == r && decide (a.version < f) && s.vHome a == sl) then some (t.id, q.seq) else none
    | _ => none).foldl (fun s (id, seq) => s.retry id seq) s

/-- A `vflr` to region `r` of partition `p` that may take effect raises its floor to `f`. -/
def State.floorAsked (s : State) (p r : Nat) (f : W32) : Bool :=
  s.teams.any fun (_, t) => t.part == p && t.pend.any fun q => t.closedBefore q.num &&
    match q.kind with
    | .vflr _ r' f' => r' == r && f' == f
    | _ => false

/-- The devices that hold copies filled from slice `sl` hear of floor `f`, and the slice's set of them begins anew (R331). -/
def State.tellHolders (s : State) (p r : Nat) (f : W32) (sl : Nat) : State :=
  let x := s.region p r
  let ds := (x.holders.filter (·.1 == sl)).map (·.2)
  (s.setRegion p r { x with
    holders := x.holders.filter (·.1 != sl)
    told := x.told ++ ds.map fun d => (d, f) }).sends (ds.map fun d => .vflr (s.partHdr p (dieOfSlice sl) d) r f false)

/-- The slice `sl` takes floor `f` of region `r` (R330); parked loads of the region retry (R333). -/
def State.takeFloor (s : State) (p r : Nat) (f : W32) (sl : Nat) : State :=
  let x := s.region p r
  if f ≤ x.floorAt sl then s
  else
    let s := s.setRegion p r { x with sfloor := x.sfloor.put sl f }
    let gs := ((x.recs.map (·.g)).eraseDups).filter fun g => s.lineSlice (64 * g) == some sl
    let s := gs.foldl (fun s g => s.reclaim p r f g) s
    (((s.noteRegion p r true).releaseBelow p r f sl).tellHolders p r f sl).retryParked fun t l =>
      t.part == p && l.any fun a => a.region == r

/-- FLOOR_APPLY. -/
def State.floorApply (s : State) : State :=
  let e := s.ev
  let f := lo32 e.val
  if s.floorAsked e.part e.idx f && !s.writeHeld e.part [] && (s.regionHomes e.part (s.region e.part e.idx)).contains e.slice then
    s.takeFloor e.part e.idx f e.slice
  else s
def execFloorApply (s : State) : Out := .next s.floorApply

/-- Every holder that heard of a floor up to `f` has confirmed it. -/
def VRegion.confirmed (x : VRegion) (f : W32) : Bool := x.told.all fun (_, g) => decide (f < g)

/-- Floor `f` is held everywhere: FLOOR shows it, and no copy of a version below it is left on the module (R331). -/
def State.floorHeld (s : State) (p r : Nat) (f : W32) : State :=
  let x := s.region p r
  ((s.setRegion p r { x with floor := if x.floor < f then f else x.floor }).dropVersions p r fun _ v => decide (v < f)).noteRegion
    p r true

/-- VFLR_PERFORMED. -/
def State.vflrPerformed (s : State) : State :=
  match s.evPend with
  | some (t, p) =>
    match p.kind with
    | .vflr a r f =>
      let x := s.region t.part r
      if t.closedBefore p.num && s.hostOpen a.pas && x.confirmed f && (s.regionHomes t.part x).all fun sl => decide (f ≤ x.floorAt sl) then
        (s.floorHeld t.part r f).modTeam t.id fun u => u.perform p.seq []
      else s
    | _ => s
  | none => s
def execVflrPerformed (s : State) : Out := .next s.vflrPerformed

/-! ## Creating and destroying regions (R325, R326) -/

/-- Every page of a range is versioned and writable at the guest stage. -/
def State.versionedRange (s : State) (p base len : Nat) : Bool :=
  (List.range (len / pageBytes)).all fun k =>
    match s.guestStage p (base + k * pageBytes) with
    | some g => g.ver && g.w
    | none => false

/-- The entry's words, read by the device. -/
def State.readVirt (s : State) (p va n : Nat) : Option Nat :=
  match s.combined p (va56 va) with
  | some e => some (s.readPhys (e.pbase + (va56 va - e.vbase)) n)
  | none => none
def State.readWords (s : State) (p va n : Nat) : Option (List W64) :=
  (List.range n).mapM fun i => (s.readVirt p (va + 8 * i) 8).map (BitVec.ofNat 64)

def rangeOk (base len : Nat) : Bool :=
  base < 2 ^ 56 && base % pageBytes == 0 && len % pageBytes == 0 && within len pageBytes (2 ^ 36)

/-- The entry breaks no limit of R324 and no rule of R325. -/
def State.createOk (s : State) (p r : Nat) (w : List W64) : Bool :=
  let db := (wd w 0).toNat
  let dl := (wd w 1).toNat
  let pb := (wd w 2).toNat
  let pl := (wd w 3).toNat
  let clear (a n : Nat) : Bool := (s.part p).regions.all fun (_, x) =>
    (overlapAt a n x.dbase x.dlen).isNone && (overlapAt a n x.pbase x.plen).isNone
  ((s.part p).regions.get? r).isNone && rangeOk db dl && rangeOk pb pl && wd w 4 == 0
    && clear db dl && clear pb pl && s.versionedRange p db dl && s.versionedRange p pb pl

/-- A wait place or parked load names the region. -/
def State.regionNamed (s : State) (p r : Nat) : Bool :=
  (s.slices.any fun (_, x) => x.waits.any fun w => w.p == p && w.region == r) ||
    s.teams.any fun (_, t) => t.part == p && t.pend.any fun q =>
      match q.kind with
      | .ldv _ accs _ _ (some _) => !q.performed && accs.any (·.region == r)
      | _ => false

/-- No region has this index: a `vflr` that is still on its way when its region is destroyed names it, and changes nothing
(log 139). -/
def noRegion : Nat := 64
def Pending.losesRegion (r : Nat) (q : Pending) : Pending :=
  match q.kind with
  | .vflr a r' f => if r' = r then { q with kind := .vflr a noRegion f } else q
  | _ => q

/-- A region is destroyed: its entry and its copies are no longer live, its base versions stay in the data range (R326). -/
def State.destroyRegion (s : State) (p r : Nat) : State :=
  let s := ((s.noteRegion p r false).dropVersions p r fun _ _ => true).modPart p fun x => { x with regions := x.regions.del r }
  { s with teams := s.teams.map fun (k, t) =>
      (k, if t.part == p then { t with pend := t.pend.map (Pending.losesRegion r) } else t) }

/-- VRCMD (R325): the state after the command, or the address that fault 0x14 names. -/
def State.vrcmd (s : State) (p : Nat) (v : W64) : Except W64 State :=
  let r := bitsOf v 5 0
  let op := bitsOf v 9 8
  let bad : Except W64 State := .error (BitVec.ofNat 64 (s.vrEntry p r))
  if !bitsIn v 0x33F#64 then bad
  else if op = 1 then
    match s.readWords p (s.vrEntry p r) 8 with
    | none => bad
    | some w =>
      if s.createOk p r w then
        let s := s.modPart p fun x => { x with nregions := x.nregions + 1 }
        let x := { VRegion.empty with
          id := (s.part p).nregions
          dbase := (wd w 0).toNat
          dlen := (wd w 1).toNat
          pbase := (wd w 2).toNat
          plen := (wd w 3).toNat }
        .ok ((s.modPart p fun y => { y with regions := y.regions.put r x }).noteRegion p r true)
      else bad
  else if op = 2 then
    if ((s.part p).regions.get? r).isNone || s.regionNamed p r then bad
    else .ok (s.destroyRegion p r)
  else bad

end Sys2Proof.Machine
end

