-- ==== Sys2Proof/Machine/Trap.lean ====
section
/-!
DEFINITION. Traps (R218-R221, R224): `trap`, the four forms of `tret`, `bkpt`, `tmark`, the delivery of a fault that waited.
-/
namespace Sys2Proof.Machine

def trapEff (n : BitVec 8) (_ : State) (_ : Team) : Eff := .fault 0x7F (n.zeroExtend 64) noLane
def execTrap (n : BitVec 8) (g : Guard) (s : State) : Out := issue (.trap n g) (trapEff n) s

/-- R224. -/
def bkptEff (n : BitVec 8) (s : State) (t : Team) : Eff :=
  if t.cmpIgnore.contains 100 then .ok s else .debug 0x70 (n.zeroExtend 64) noLane none
def execBkpt (n : BitVec 8) (g : Guard) (s : State) : Out := issue (.bkpt n g) (bkptEff n) s

def tmarkEff (x : RArgs) (s : State) (t : Team) : Eff :=
  .ok (s.tracePacket t t.r.pc ⟨5, 1, leBytes 4 (lo32 (uni s t x.a)).toNat⟩)
def execTmark (x : RArgs) (s : State) : Out := issue (.tmark x) (tmarkEff x) s

/-! ## Killing (R220) -/

/-- kill(T, code) begins; TEAM_KILL ends it. -/
def Team.kill (t : Team) (code : Nat) : Team :=
  { t with
    trap := none
    holdOn := none
    stopReq := none
    stat := .killing code }

/-! ## `tret` (R219, R39) -/

/-- The handler is left: s60-s63, level and HND return. -/
def Team.leaveHandler (t : Team) : Team :=
  Team.leaveBank { t with
    hnd := false
    level := t.slvl
    fault := none }

/-- The team stands at instruction `pc` of the clause `c` that it has begun; another may hold the port (R14). -/
def State.standAt (s : State) (t : Team) (c : Clause) (pc : W64) : State :=
  s.setTeam { t with
    port := false
    r := { t.r with
      pc := pc
      cl := some c } }

/-- The header at which the team of `f` stood, where no instruction of its clause had issued. -/
def FaultRec.header (f : FaultRec) : W64 :=
  match f.cl with
  | some c => c.h
  | none => if f.fresh then f.pc - 8#64 else f.pc

/-- The team stands again where `f` was raised: at the instruction, or, where no instruction of the clause had issued,
at its header. -/
def State.resumeAt (s : State) (t : Team) (f : FaultRec) : State :=
  match f.cl with
  | some c => if c.words.isEmpty then s.arrive t c.h else s.standAt t c f.pc
  | none => s.arrive t f.header

/-- The address of the clause after header `h` (R11). -/
def afterHeader (h hdr : W64) : W64 :=
  let k := Header.ofWord hdr
  h + 8#64 * BitVec.ofNat 64 (2 + k.nin + k.nlit)

/-- The team goes into the clause at `a` from the instruction of `f`, as by falling through (R17). -/
def State.enter (s : State) (t : Team) (f : FaultRec) (a : W64) : State :=
  match s.checkTarget t a with
  | (s, some code) =>
    let t := { t with
      port := false
      r := { t.r with
        pc := f.pc
        cl := f.cl } }
    s.raise t (t.faultAt code a noLane)
  | (s, none) => s.arrive t a

/-- The first instruction of a clause that the team has not begun is skipped: the clause is fetched and validated, and
begins at its second instruction. -/
def State.skipFirst (s : State) (t : Team) (f : FaultRec) : State :=
  let x := s.fetchClause t f.header
  match startFault t f.header x.2, x.2.2 with
  | some g, _ => x.1.raise (t.at f.header) g
  | none, .ok c => if c.words.length ≤ 1 then x.1.enter t { f with cl := some c } c.next else x.1.startClause t c 1
  | none, .error _ => x.1.setTeam (t.kill f.code)

/-- R219 `.skip`: instruction `f` names has no effect. A clause whose header failed cannot be skipped (R39). -/
def State.skipOver (s : State) (t : Team) (f : FaultRec) : State :=
  match f.cl with
  | none => if f.fresh then s.skipFirst t f else s.setTeam (t.kill f.code)
  | some c =>
    if c.words.isEmpty then
      (if headerOk c.hdr then s.enter t f (afterHeader c.h c.hdr) else s.setTeam (t.kill f.code))
    else if c.words.length ≤ c.at f.pc + 1 then s.enter t f c.next
    else s.standAt t c (f.pc + 8#64)

/-- `tret` in the handler: the account of its issue, the trace packet (R406), then `k` on the team outside the handler. -/
def tretEff (md : Nat) (k : State → Team → FaultRec → State) (s : State) (t : Team) : Eff :=
  match t.hnd, t.fault with
  | true, some f =>
    let s := s.modTeam t.id Team.retired
    let s := s.traceTrap t 1 md f.pc
    match s.team? t.id with
    | some u => .done (k s u.leaveHandler f)
    | none => .wait
  | _, _ => .fault 0x0C 0 noLane

/-- The reissue of `.fix` and `.retry`: the comparator that raised the fault is ignored for it (R399). -/
def State.reissue (s : State) (t : Team) (f : FaultRec) : State := s.resumeAt { t with cmpIgnore := f.cmp.toList } f
def tretRetryK (s : State) (t : Team) (f : FaultRec) : State := s.reissue t f

/-- `.fix` after a translation fault drops the partition's entries for the page (R219). -/
def tretFixK (s : State) (t : Team) (f : FaultRec) : State :=
  let s := if within f.code 0x10 0x1F then s.dropTlb t.part fun e => e.hit t.part (va56 f.info.toNat) else s
  s.reissue t f

def tretSkipK (s : State) (t : Team) (f : FaultRec) : State := s.skipOver t f
def tretKillK (s : State) (t : Team) (f : FaultRec) : State := s.setTeam (t.kill f.code)

def execTretFix (g : Guard) (s : State) : Out := issue (.tretFix g) (tretEff 0 tretFixK) s
def execTretSkip (g : Guard) (s : State) : Out := issue (.tretSkip g) (tretEff 1 tretSkipK) s
def execTretRetry (g : Guard) (s : State) : Out := issue (.tretRetry g) (tretEff 2 tretRetryK) s
def execTretKill (g : Guard) (s : State) : Out := issue (.tretKill g) (tretEff 3 tretKillK) s

/-! ## A fault that waited (R218) -/

/-- A gap's fault names the lowest held index as it stands when it is delivered (R157), while the gap is there
(log 123). -/
def State.gapNow (s : State) (t : Team) (f : FaultRec) : FaultRec :=
  if f.code = 0x15 then
    match (s.slices.flatMap fun (_, y) => y.lines).find? fun (_, x) => x.owner == t.id && x.va == f.info && x.gap with
    | some (_, x) => { f with s62 := (lowestHeld x).zeroExtend 64 }
    | none => f
  else f

/-- FAULT_DELIVER: the earlier instructions of the team have passed their checks. -/
def State.faultDeliver (s : State) : State :=
  match s.team? s.ev.team with
  | some t =>
    match t.trap with
    | some f => if t.deliverable && t.stat == .running then s.takeFault t (s.gapNow t f) else s
    | none => s
  | none => s
def execFaultDeliver (s : State) : Out := .next s.faultDeliver

/-- R276: fault 0x60 at the oldest instruction with open checks, or at the next one. -/
def State.watchdogFault (s : State) (t : Team) : State :=
  match t.pend.find? fun p => p.open_ && !p.performed with
  | some p =>
    let (s, t) := s.cancelFrom t p.num p.snap
    (s.raise t (t.faultAt 0x60 0 noLane)).clearFilters
  | none => s.raise t (t.faultAt 0x60 0 noLane)

/-- The team's count has reached WDLIM (R276): it runs, or has retired and an instruction of it is not yet performed. -/
def State.watchdogDue (s : State) (t : Team) : Bool :=
  decide (s.preg t.part 0 ≤ t.wd) &&
    ((t.stat == .running && t.trap.isNone) ||
      ((t.stat == .running || t.stat == .retiring) && t.pend.any fun p => p.open_ && !p.performed))

/-- WATCHDOG_EXPIRE. -/
def State.watchdogExpire (s : State) : State :=
  match s.team? s.ev.team with
  | some t => if s.watchdogDue t then s.watchdogFault t else s
  | none => s
def execWatchdogExpire (s : State) : Out := .next s.watchdogExpire

/-- The counts that have reached WDLIM as time passed. -/
def State.watchdogs (s : State) : State :=
  s.teams.foldl (fun s (_, t) => match s.team? t.id with
    | some t => if s.watchdogDue t then s.watchdogFault t else s
    | none => s) s

end Sys2Proof.Machine
end

