-- ==== Sys2Proof/Machine/Context.lean ====
section
/-!
DEFINITION. A team off its slot: its record and image (R235, R351, R369), the save point (R350), moving its granules (R242),
and stops for the debugger (R400, R401).
-/
namespace Sys2Proof.Machine

/-! ## The team record and the image slot -/

def le8 (x : W64) : List Byte := leBytes 8 x.toNat
/-- The first `n` bytes of `l`, zeros after its end. -/
def padTo (n : Nat) (l : List Byte) : List Byte := l.take n ++ List.replicate (n - l.length) 0#8

/-- WCNT and TGCNT (R222): 8 bits a counter. -/
def Team.wcnt (t : Team) : W64 := BitVec.ofNat 64 ((List.range 6).map fun n => t.cnt n * 256 ^ n).sum
def Team.tgcnt (t : Team) : W64 := BitVec.ofNat 64 ((List.range 8).map fun n => t.tag n * 256 ^ n).sum

/-- Offset 0x288. -/
def Team.place (t : Team) : W64 :=
  BitVec.ofNat 64 ((summary t.r.mask).toNat + t.w * 2 ^ 32 + t.level * 2 ^ 48 + t.slvl * 2 ^ 50 + t.hnd.toNat * 2 ^ 52 +
    t.r.stack.length * 2 ^ 53 + t.r.blocks * 2 ^ 59)

/-- Offset 0x340: bank flags in five bits a bank, poison marks, the latch and its tag. -/
def Matrix.flagWord (m : Matrix) : W64 :=
  let f := ((List.range 4).map fun c => (m.flags.get 0 c).toNat % 32 * 32 ^ c).sum
  let l := match m.latch with
    | some x => 2 ^ 24 + x.afield * 2 ^ 32 + x.fa * 2 ^ 40 + x.count * 2 ^ 44
    | none => 0
  BitVec.ofNat 64 (f + m.poison.toNat * 2 ^ 20 + l)

/-- A run as saved: its captured words, the next tile as START (R313). -/
def Run.image (r : Run) : List Byte :=
  (r.words.set 13 (BitVec.ofNat 64 (r.next * 2 ^ 32 + Lay.rlen r.words))).flatMap le8
def Engine.images (e : Engine) : List Byte := padTo 512 ((e.runs.take 4).flatMap Run.image)

/-- The team's own scalar registers. -/
def Team.ownScalar (t : Team) (i : Nat) : W64 :=
  if t.hnd && decide (60 ≤ i) then t.bank.getD (i - 60) 0 else t.r.sget i

/-- The 4 KiB team record (R369). -/
def Team.record (t : Team) : List Byte :=
  let head := (List.range 64).flatMap (fun i => le8 (t.ownScalar i)) ++ leBytes 128 t.r.mask.toNat ++
    le8 t.r.pc ++ le8 t.place ++ le8 t.wcnt ++ le8 t.tgcnt ++ le8 t.r.fctl ++
    (List.range 4).flatMap (fun k => le8 (if t.hnd then t.r.sget (60 + k) else 0)) ++
    leBytes 4 t.spills.toNat ++ leBytes 4 t.fills.toNat ++ leBytes 8 t.id.toNat ++
    leBytes 8 (t.node + 2 ^ 16 * t.gslot + 2 ^ 24 * t.inst.toNat) ++ leBytes 8 (t.gfills % 2 ^ 48) ++
    leBytes 8 (match t.hnd, t.fault with
      | true, some f => 2 ^ 63 + f.code
      | _, _ => 0)
  let m := t.mtx.getD Matrix.empty
  padTo 0x1000 (padTo 0x400 (padTo 0x300 head ++ m.fmt.flatMap le8 ++ le8 m.flagWord) ++
    (List.range 4).flatMap fun k => match t.engines[k]? with
      | some e => e.images
      | none => List.replicate 512 0#8)

/-- The image slot (R351), `n` bytes of scratch: bytes at and beyond SCR are not written. -/
def Team.image (t : Team) (n : Nat) : List Byte :=
  let m := t.mtx.getD Matrix.empty
  let rows : Table Byte := (m.latch.map (·.rows)).getD []
  padTo 0x2200 (t.r.stack.reverse.flatMap REntry.bytes) ++ (List.range 1024).flatMap (fun l => leBytes 2 (t.r.fflag l).toNat) ++
    padTo 0x1600 ((List.range 3584).map fun b =>
      BitVec.ofNat 8 ((List.range 8).map fun k => (t.scrWritten.get false (8 * b + k)).toNat * 2 ^ k).sum) ++
    (List.range 16384).flatMap (fun k => leBytes 4 (m.acc.get 0 k).toNat) ++
    (List.range 16384).map (fun k => Table.get rows 0 k) ++
    (List.range n).map fun k => if k < t.scrS then t.scrByte k else 0

/-- The bytes of an image slot: 96 KiB + SCRLIM. -/
def State.imageLen (s : State) (p : Nat) : Nat := 0x1_8000 + s.preg p 1
def State.imageBase (s : State) (t : Team) : Nat := s.preg t.part 15 + t.ctx * s.imageLen t.part

/-! ## The save point (R350) -/

/-- The team is brought to its save point: the oldest instruction with open checks and all after it are cancelled. -/
def State.toSavePoint (s : State) (t : Team) : State × Team :=
  let c := match t.pend.find? fun p => p.open_ && !p.performed with
    | some p => s.cancelFrom t p.num p.snap
    | none => (s, { t with trap := none })
  (c.1.clearFilters, c.2)

/-- What is before the save point has been performed, the array queue has drained, and the tiles in progress can complete. -/
def State.atRest (s : State) (t : Team) : Bool :=
  t.arrayQuiet && s.wclean t && t.pend.all (·.performed) &&
    t.engines.all fun e => e.fly.head?.all fun f => s.flightOpen f (((e.tileRun 0).map (·.waits)).getD [])

/-- No store that the team has observed stands in its core's write buffer: what `fence.acqrel.dev` waits for at a team that is at
rest (R147). -/
def State.fenced (s : State) (t : Team) : Bool := (s.core t.core).wbuf.all fun e => e.team == t.id || !e.seen.contains t.id

/-- R242: every mapped granule goes to the register save area. -/
def State.saveGranules (s : State) (t : Team) : State × Team :=
  let base := s.ctxBase t + 0x1_0000
  let s := t.r.v.foldl (fun s (k, e) => match e with
    | .mapped g => s.writePhys (base + 128 * k) (leBytes 128 g.toNat)
    | _ => s) s
  let entry : Nat × VEnt → Nat × VEnt
    | (k, .mapped _) => (k, .absent)
    | x => x
  (s, { t with
    port := false
    sbuf := []
    olds := []
    r := { t.r with v := t.r.v.map entry } })

/-- The record and image slot of a team off its slot. -/
def State.writeImage (s : State) (t : Team) : State :=
  (s.writePhys (s.ctxBase t) t.record).writePhys (s.imageBase t) (t.image t.scrS)

/-- The team's results land; its granules, record and image stand in memory. Results of LA = 15 land with the others, so that
a read later in the clause finds the new value; R18 speaks of the others only (log 131). -/
def State.saveTeam (s : State) (t : Team) : State × Team :=
  let (s, t) := s.saveGranules (t.landWhere fun _ => true)
  (s.writeImage t, t)

/-- What a saved team was is now `was`; its record and image follow. -/
def State.resave (s : State) (t : Team) (was : TStat) : State :=
  let (s, t) := s.saveTeam t
  s.setTeam { t with
    stat := .saved
    was := was }

/-! ## Stops (R400) -/

/-- The record of a stop to SUPNODE. -/
def State.stopRecord (s : State) (t : Team) (cause : Nat) : State :=
  let info := (t.stopRec.map (·.info)).getD 0
  let lane := (t.stopRec.map (·.s62)).getD noLane
  s.sendSup t.part [BitVec.ofNat 32 cause, t.id, lo32 t.r.pc, hi32 t.r.pc, lo32 info, hi32 info, lo32 lane]

/-- The cause for which the team is stopped, on its slot or saved (R400, R402). -/
def Team.stopCause (t : Team) : Option Nat :=
  match t.stat, t.was with
  | .stopped c, _ => some c
  | .saved, .stopped c => some c
  | _, _ => none

/-- A stop waits for the checks of earlier instructions, but for a halt, which cancels them (R400, R402). Results of every
lookahead land, as at a save (log 131). A saved team is at its save point. -/
def State.teamStop (s : State) : State :=
  match s.team? s.ev.team with
  | none => s
  | some t =>
    match t.stopReq, t.stat with
    | some cause, .saved =>
      if t.was = .running then
        ((s.traceTrap t 2 cause t.r.pc).stopRecord t cause).setTeam { t with
          was := .stopped cause
          stopReq := none
          stopRec := none }
      else s
    | some cause, .running =>
      let (s, t) := if cause = 0x80 then s.toSavePoint t else (s, t)
      if s.atRest t then
        let (s, t) := s.saveGranules (t.landWhere fun _ => true)
        let s := (s.traceTrap t 2 cause t.r.pc).traceUni t 3
        let s := s.stopRecord t cause
        s.setTeam { t with
          stat := .stopped cause
          stopReq := none
          stopRec := none
          trap := none
          step := false }
      else s.setTeam t
    | _, _ => s
def execTeamStop (s : State) : Out := .next s.teamStop

/-! ## DBGRUN (R401) -/

/-- The trace of a resumption: the team is back on its slot. -/
def State.traceResume (s : State) (t : Team) (act : Nat) (pc : W64) : State :=
  (s.tracePacket t pc ⟨1, 3, []⟩).traceTrap t 3 act pc

/-- The team goes on at its PC on its slot. A PC written while it was stopped is checked, and a failure is fault 0x05 (R401);
at a header the arrival test is made (R103). -/
def State.backOnSlot (s : State) (t : Team) : State :=
  if t.pcSet then
    let u := { t with
      pcSet := false
      r := { t.r with cl := none } }
    match s.checkTarget u u.r.pc with
    | (s, some _) => s.raise u ⟨0x05, u.r.pc, noLane, u.r.pc, none, false, none⟩
    | (s, none) => s.arrive u u.r.pc
  else if t.r.cl.isNone then s.arrive t t.r.pc
  else s.setTeam t

/-- What a resumption sets: the comparators are ignored for the issue to come. -/
def Team.resumed (t : Team) (step : Bool) : Team :=
  { t with
    wd := 0
    cmpIgnore := List.range 8 ++ [100]
    step := step }

/-- The instruction a stopped team stands before. -/
def Team.standing (t : Team) (code : Nat) : FaultRec := t.faultAt code 0 noLane

/-- The stopped team runs again. -/
def State.resumeTeam (s : State) (t : Team) (step : Bool) : State :=
  (s.traceResume t (if step then 1 else 0) t.r.pc).backOnSlot { t.resumed step with stat := .running }

/-- The stopped team goes on past its instruction. -/
def State.resumePast (s : State) (t : Team) : State :=
  let u := { t with
    stat := .running
    wd := 0
    pcSet := false
    cmpIgnore := [] }
  (s.traceResume u 2 u.r.pc).skipOver u (u.standing 0)

/-- DBGRUN 0-3 for a stopped team that is saved: it will be restored as the action leaves it (R402). -/
def State.resumeSaved (s : State) (t : Team) (cause act : Nat) : State :=
  let s := s.traceTrap t 3 act t.r.pc
  match act with
  | 2 =>
    let u := { t with
      stat := .running
      wd := 0
      pcSet := false
      cmpIgnore := [] }
    let s := s.skipOver u (u.standing 0)
    match s.team? t.id with
    | some v => s.resave v v.stat
    | none => s
  | 3 => s.setTeam { t.kill cause with
      stat := .saved
      was := .killing cause }
  | _ => s.setTeam { t.resumed (act == 1) with was := .running }

/-- A DBGRUN write of action `act` for the team of partition `p` that DBGTEAM selects; `none` where it faults (0x14). -/
def State.dbgrun (s : State) (p : Nat) (v : W64) : Option State :=
  if !bitsIn v 7#64 then none
  else
    match s.team? (lo32 (s.pr p 0x111)) with
    | none => none
    | some t =>
      if t.part ≠ p then none
      else
        match v.toNat, t.stopCause with
        | 4, some _ => some s
        | 4, none =>
          some (if t.stat = .running ∨ (t.stat = .saved ∧ t.was = .running) then s.setTeam { t with stopReq := some 0x80 } else s)
        | _, none => none
        | act, some cause =>
          if 4 < act then none
          else if t.stat = .saved then some (s.resumeSaved t cause act)
          else match act with
            | 0 => some (s.resumeTeam t false)
            | 1 => some (s.resumeTeam t true)
            | 2 => some (s.resumePast t)
            | _ => some ((s.traceResume t 3 t.r.pc).setTeam (t.kill cause))

/-! ## DBGDATA (R401) -/

/-- The 8 bytes at `off` of the selected block or slot. -/
def State.dbgRead (s : State) (t : Team) (img : Bool) (off : Nat) : W64 :=
  let cut (l : List Byte) (k : Nat) : W64 := BitVec.ofNat 64 (leNat ((l.drop k).take 8))
  if img then
    if off < 0x1_8000 then cut (t.image 0) off
    else BitVec.ofNat 64 (leNat ((span (off - 0x1_8000) 8).map fun k => if k < t.scrS then t.scrByte k else 0))
  else if off < 0x1000 then cut t.record off
  else if within off 0xFE00 0xFFFF then 0
  else if off < 0x1_0000 then BitVec.ofNat 64 (s.readPhys (s.ctxBase t + off) 8)
  else
    match t.r.v.get .none ((off - 0x1_0000) / 128) with
    | .none => 0
    | _ => BitVec.ofNat 64 (s.readPhys (s.ctxBase t + off) 8)

/-- Bits 10:0 of a lane's flags, without the bits R66 does not define. -/
def flagBits (x : Nat) : W32 := BitVec.ofNat 32 x &&& 0x71F#32

/-- A write of the 8 bytes at `off`; `none` outside the writable ranges. -/
def State.dbgWrite (s : State) (t : Team) (img : Bool) (off : Nat) (v : W64) : Option State :=
  if img then
    if within off 0x2200 0x29FF then
      let r := (List.range 4).foldl (fun r k => r.setFflag ((off - 0x2200) / 2 + k) (flagBits (bitsOf v (16 * k + 15) (16 * k)))) t.r
      some (s.setTeam { t with r := r })
    else if 0x1_8000 ≤ off then
      let k := off - 0x1_8000
      some (if k + 8 ≤ t.scrS then s.setTeam (t.scrPuts k (le8 v)) else s)
    else none
  else if off < 0x200 then
    let i := off / 8
    some (s.setTeam (if t.hnd && decide (60 ≤ i) then { t with r := t.r.sset (i + 4) v }
      else { t with r := t.r.sset i v }))
  else if off = 0x280 then some (s.setTeam { t with
      r := { t.r with pc := v }
      pcSet := true })
  else if off = 0x2A0 then some (s.setTeam { t with r := { t.r with fctl := v &&& 3#64 } })
  else if within off 0x1_0000 0x4_FFFF then
    let s := s.writePhys (s.ctxBase t + off) (le8 v)
    some (s.setTeam { t with r := { t.r with v := t.r.v.set .none ((off - 0x1_0000) / 128) .absent } })
  else none

/-- The selected stopped team, saved or not, DBGOFF's IMG and OFF, when the access lies inside the block or slot. -/
def State.dbgTarget (s : State) (p : Nat) : Option (Team × Bool × Nat) :=
  let o := s.pr p 0x112
  let img := o.getLsbD 63
  let off := bitsOf o 31 0
  match s.team? (lo32 (s.pr p 0x111)) with
  | none => none
  | some t =>
    let fits := decide (off + 8 ≤ if img then s.imageLen p else 0x5_0000)
    if t.part == p && t.stopCause.isSome && fits then some (t, img, off) else none

/-- Each access adds 8 to OFF. -/
def State.dbgStep (s : State) (p off : Nat) : State :=
  let o := s.pr p 0x112
  s.setPr p 0x112 (BitVec.ofNat 64 ((if o.getLsbD 63 then 2 ^ 63 else 0) + (off + 8) % 2 ^ 32))

def State.dbgdataRead (s : State) (p : Nat) : Option (State × W64) :=
  (s.dbgTarget p).map fun (t, img, off) => (s.dbgStep p off, s.dbgRead t img off)
def State.dbgdataWrite (s : State) (p : Nat) (v : W64) : Option State :=
  match s.dbgTarget p with
  | none => none
  | some (t, img, off) => (s.dbgWrite t img off v).map fun s =>
    State.dbgStep (match s.team? t.id with
      | some u => if u.stat = .saved then s.writeImage u else s
      | none => s) p off

end Sys2Proof.Machine
end

