-- ==== Sys2Proof/Machine/Mill.lean ====
section
/-!
DEFINITION. The Mills (R229-R233, R243, R252, R257-R269): queues and their states, admission and placement, launch,
retirement and kill, arrivals that wait for credit, aging.
-/
namespace Sys2Proof.Machine

/-! ## Reaching graphs and nodes -/

def State.modGraph (s : State) (p g : Nat) (f : Graph → Graph) : State :=
  match s.graph? p g with
  | some x => s.modPart p fun y => { y with graphs := y.graphs.put g (f x) }
  | none => s
def Graph.modNode (g : Graph) (n : Nat) (f : Node → Node) : Graph :=
  match g.nodes.get? n with
  | some y => { g with nodes := g.nodes.put n (f y) }
  | none => g
def State.modNode (s : State) (p g n : Nat) (f : Node → Node) : State := s.modGraph p g fun x => x.modNode n f

/-- LOSTREC rises by `n`. -/
def State.lostRecs (s : State) (p n : Nat) : State := s.bump p 0x150 n

/-- A core that a running operation takes from the partition. -/
def State.outgoing (s : State) (p c : Nat) : Bool :=
  s.ops.any fun (_, o) => (o.p == p || s.sameGroup p o.p) && o.outCores.testBit c

/-- Die `d` holds a core of the guaranteed set of `p`; a core on its way out by `presize` counts no longer (R257), nor does a failed
one. -/
def State.hasCores (s : State) (p d : Nat) : Bool :=
  (span (12 * d) 12).any fun c => s.ownsCore p c && !s.mgmt.failedCores.getLsbD c && !s.ops.any fun (_, o) =>
    o.kind == .resize && (o.p == p || s.sameGroup p o.p) && o.outCores.testBit c

/-- The home die that R257 gives node `n` of partition `p`. -/
def State.ruleDie (s : State) (p n : Nat) : Nat :=
  let ds := (List.range 4).filter (s.hasCores p)
  ds.getD (n % ds.length) 0

/-- The die whose Mill holds the queue of a node: fixed at load. -/
def State.homeDie (s : State) (p g n : Nat) : Nat :=
  match s.node? p g n with
  | some x => x.home
  | none => s.ruleDie p n

/-- Queues whose home die has no guaranteed core left move to the die that the rule gives (R257). -/
def State.rehome (s : State) (p : Nat) : State :=
  s.modPart p fun y => { y with graphs := y.graphs.map fun (g, x) =>
    (g, { x with nodes := x.nodes.map fun (n, z) => (n, if s.hasCores p z.home then z else { z with home := s.ruleDie p n }) }) }

/-! ## Upstream and launchability (R262) -/

def Node.succs (n : Node) : List Nat := (n.edges.filter edgeValid).map edgeSucc ++ (if n.erre then [n.errNode] else [])

/-- The nodes from which a path leads into `l`. -/
def Graph.upFrom (g : Graph) : Nat → List Nat → List Nat
  | 0, l => l
  | k + 1, l =>
    let more := g.nodes.filterMap fun (i, x) => if !l.contains i && x.succs.any l.contains then some i else none
    if more.isEmpty then l else g.upFrom k (l ++ more)
/-- Edges and error edges form a cycle, self-edges aside (R258). -/
def Graph.cyclic (g : Graph) : Bool :=
  g.nodes.any fun (n, x) =>
    let into := g.upFrom g.nodes.length [n]
    (((x.edges.filter edgeValid).map edgeSucc).filter (· != n) ++ if x.erre then [x.errNode] else []).any into.contains
def Graph.upstream (g : Graph) (n : Nat) : List Nat := (g.upFrom g.nodes.length [n]).filter (· != n)

/-- A local `emitx` record held for credit counts as queued, like one on its way (R257). -/
def Arrival.local (a : Arrival) : Bool :=
  match a.kind with
  | .emitx .. => true
  | _ => false

/-- Records on their way to a queue. -/
def Partition.onWay (x : Partition) (g n : Nat) : Bool :=
  (x.flying.any fun f => f.gslot == g && f.node == n) || x.held.any fun a => a.local && a.gslot == g && a.node == n

/-- The node has a queued record or a running team. -/
def State.nodeBusy (s : State) (p g n : Nat) : Bool :=
  (match s.node? p g n with
    | some x => !x.q.isEmpty
    | none => false) || (s.part p).onWay g n ||
    s.teams.any fun (_, t) => t.part == p && t.gslot == g && t.node == n

def State.drainedUp (s : State) (p g : Nat) (x : Graph) (n : Nat) : Bool := (x.upstream n).all fun k => !s.nodeBusy p g k

def State.launchable (s : State) (p g : Nat) (x : Graph) (n : Nat) (y : Node) : Bool :=
  match y.q with
  | [] => false
  | r :: _ =>
    if y.gall then s.drainedUp p g x n
    else y.perTeam || decide (y.width ≤ y.q.length) || decide (r.at_ + 100 * y.coal ≤ s.now) || s.drainedUp p g x n

/-! ## Queue states (R263) -/

def State.stateOf (s : State) (p g : Nat) (x : Graph) (n : Nat) (y : Node) : QState :=
  if (s.part p).frozen || (s.part p).freezing then .frozen
  else if y.q.isEmpty then .empty
  else if s.launchable p g x n y then .ready
  else .gather

/-- A queue takes the state of its rule: its level starts at PRIO, and an interval of standing READY begins. -/
def Node.toState (y : Node) (st : QState) : Node :=
  { y with
    st := st
    level := if (y.st == .empty || y.st == .frozen) && st != y.st then y.prio else y.level
    full := y.full && st == .ready && y.st == .ready }

/-- Every queue of partition `p` under the rules as they stand. -/
def State.refresh (s : State) (p : Nat) : State :=
  s.modPart p fun y => { y with graphs := y.graphs.map fun (g, x) =>
    (g, { x with nodes := x.nodes.map fun (n, z) => (n, z.toState (s.stateOf p g x n z)) }) }

/-! ## Instances (R252) -/

/-- The graph has a queued record, one on its way, or a running team. -/
def State.graphBusy (s : State) (p g : Nat) : Bool :=
  match s.graph? p g with
  | some x => x.nodes.any fun (n, _) => s.nodeBusy p g n
  | none => false

/-- A report is made, with LOSTREC as it stands (R382): at most 64 wait in the Mill. -/
def State.report (s : State) (p : Nat) (r : Report) : State :=
  let x := s.part p
  let r := { r with lost := s.pr p 0x150 }
  if s.turned p then s.setPart p { x with egress := x.egress ++ [(x.epoch, .report r)] }
  else if x.reports.length < 64 then s.setPart p { x with reports := x.reports ++ [r] }
  else s.bump p 0x15B 1

/-- The instance of a graph that has become idle ends: every status word is written before its completion is reported
(R250). -/
def State.endInstance (s : State) (p g : Nat) : State :=
  match s.graph? p g with
  | some x =>
    if x.active && !s.graphBusy p g then
      let s := x.nodes.foldl (fun (s : State) (n : Nat × Node) => s.noteNode p g n.1) s
      let s := x.watch.foldl (fun s tag => s.report p ⟨3, 0, g, x.inst, tag, 0⟩) s
      s.modGraph p g fun y => { y with
        inst := y.inst + 1
        active := false
        watch := [] }
    else s
  | none => s

/-! ## Records entering a queue (R229, R263) -/

def QRec.spilled (r : QRec) : Bool := r.spill.isSome
def Node.residents (n : Node) : Nat := (n.q.filter fun r => !r.spilled).length
def Node.spills (n : Node) : Nat := (n.q.filter (·.spilled)).length
def Partition.residents (x : Partition) : Nat := (x.graphs.map fun (_, g) => (g.nodes.map fun (_, n) => n.residents).sum).sum

/-- The node's newest spill segment, while a record stands in it: a segment is released when its last record has left. -/
def Node.segment (n : Node) : Option Nat :=
  if n.q.any fun r => r.spill.any fun (g, _) => g + 1 == n.nseg then some (n.nseg - 1) else none

/-- A record is appended to a spill segment of 64 records; the segment. -/
def Node.spillOne (n : Node) : Node × Nat :=
  match n.segment, decide (n.segfill < 64) with
  | some g, true => ({ n with
      spillrec := n.spillrec + 1
      segfill := n.segfill + 1 }, g)
  | _, _ => ({ n with
      spillrec := n.spillrec + 1
      spillseg := n.spillseg + 1
      nseg := n.nseg + 1
      segfill := 1 }, n.nseg)

/-- The lowest line of the record pool that no spilled record takes (R261) (log 67). -/
def Partition.freeLine (x : Partition) : Nat :=
  let used := x.graphs.flatMap fun (_, g) => g.nodes.flatMap fun (_, n) => n.q.filterMap fun r => r.spill.map (·.2)
  ((List.range (used.length + 1)).find? fun k => !used.contains k).getD 0

/-- The physical address of line `k` of the record pool, while the pool has it. -/
def State.poolLine (s : State) (p k : Nat) : Option Nat := if k < s.preg p 4 then some (s.preg p 12 + 64 * k) else none

/-- A spilled record stands in its line of the pool. -/
def State.writeSpill (s : State) (p k : Nat) (w : List W32) : State :=
  match s.poolLine p k with
  | some a => (s.reach p (lineOf a)).writePhys a (w.flatMap fun x => leBytes 4 x.toNat)
  | none => s

/-- The words of a queued record: of a spilled one, as its line of the pool has them. -/
def State.recWords (s : State) (p : Nat) (r : QRec) : List W32 :=
  match r.spill.bind fun (_, k) => s.poolLine p k with
  | some a => (List.range 16).map fun i => BitVec.ofNat 32 (s.readPhys (a + 4 * i) 4)
  | none => r.w
def Node.peaks (n : Node) : Node :=
  { n with
    peakres := max n.peakres n.residents
    peakspill := max n.peakspill n.spills }

/-- Record `i` of the queue spills, with line `k` of the pool. -/
def Node.spillAt (n : Node) (i k : Nat) : Node :=
  let x := n.spillOne
  { x.1 with q := x.1.q.modify i fun r => { r with spill := some (x.2, k) } }.peaks

/-- Record `i` of node `n` spills. -/
def State.spillRec (s : State) (p g n i : Nat) (w : List W32) : State :=
  let k := (s.part p).freeLine
  ((s.modNode p g n fun y => y.spillAt i k).writeSpill p k w).countEvent p (s.homeDie p g n) 0x00A 1

/-- A record with its credit enters its queue: resident, or above the cap spilled. -/
def State.enterQueue (s : State) (p g n : Nat) (w : List W32) (credit : Nat) (rel : Option Rel) : State :=
  let s := s.endInstance p g
  let spilled := decide (s.resCap p ≤ (s.part p).residents)
  let i := ((s.node? p g n).map (·.q.length)).getD 0
  let r : QRec := ⟨w, s.now, credit, (s.part p).nrec, none, rel⟩
  let s := s.modPart p fun x => { x with nrec := x.nrec + 1 }
  let s := s.modGraph p g fun x => Graph.modNode { x with active := true } n fun y => { y with
    q := y.q ++ [r]
    enq := y.enq + 1 }
  let s := if spilled then s.spillRec p g n i w else s.modNode p g n Node.peaks
  (s.noteNode p g n).refresh p

/-- The records of a partition's queues that `f` names: graph slot, node, place, order of entry. -/
def Partition.places (x : Partition) (f : QRec → Bool) : List (Nat × Nat × Nat × Nat) :=
  x.graphs.flatMap fun (g, y) => y.nodes.flatMap fun (n, z) =>
    ((List.range z.q.length).zip z.q).filterMap fun (i, r) => if f r then some (g, n, i, r.ord) else none

/-- The place that entered first, or last. -/
def oldestOf (l : List (Nat × Nat × Nat × Nat)) : Option (Nat × Nat × Nat × Nat) :=
  l.foldl (fun m x => match m with
    | some y => if x.2.2.2 < y.2.2.2 then some x else m
    | none => some x) none
def newestOf (l : List (Nat × Nat × Nat × Nat)) : Option (Nat × Nat × Nat × Nat) :=
  l.foldl (fun m x => match m with
    | some y => if y.2.2.2 < x.2.2.2 then some x else m
    | none => some x) none

/-- Record `i` of the queue is resident again, as its line of the pool has it. -/
def State.unspill (s : State) (p g n i : Nat) : State :=
  s.modNode p g n fun y => Node.peaks { y with
    q := y.q.modify i fun r => { r with
      w := s.recWords p r
      spill := none }
    fillrec := y.fillrec + 1 }

/-- Free places take the oldest spilled records (R229). -/
def State.fillPlaces (s : State) (p : Nat) : Nat → State
  | 0 => s
  | k + 1 =>
    if (s.part p).residents < s.resCap p then
      match oldestOf ((s.part p).places (·.spilled)) with
      | some (g, n, i, _) => ((s.unspill p g n i).noteNode p g n).fillPlaces p k
      | none => s
    else s

/-- Records above a lowered cap spill, the newest first (R353). -/
def State.spillDown (s : State) (p : Nat) : Nat → State
  | 0 => s
  | k + 1 =>
    if s.resCap p < (s.part p).residents then
      match newestOf ((s.part p).places fun r => !r.spilled) with
      | some (g, n, i, _) =>
        let w := ((s.node? p g n).bind fun y => y.q[i]?).elim [] (·.w)
        ((s.spillRec p g n i w).noteNode p g n).spillDown p k
      | none => s
    else s

/-! ## Placement (R264, R265) -/

/-- Granules of a slot, and of a core, that no team holds or has reserved. -/
def State.slotFree (s : State) (c k : Nat) : Nat :=
  4096 - s.granulesTaken c k none
def State.coreFree (s : State) (c : Nat) : Nat := ((List.range 8).map (s.slotFree c)).sum

/-- What a team needs of a core and slot. -/
structure Need where
  part : Nat
  granules : Nat
  mtx : Bool
  scr : Nat
  engines : Nat
  rings : Nat
  deriving DecidableEq, Repr

def ringCount (n : Node) : Nat := ((List.range 32).filter fun k => n.ringBits.testBit k).length
/-- The records that the next team of the node takes. -/
def Node.taken (n : Node) : List QRec := n.q.take (if n.perTeam then 1 else min n.width n.q.length)
/-- The granules that a launch with records `recs` maps: in each mask word as many registers as its longest record has words
(R232). -/
def Node.launchGranules (n : Node) (recs : List (List W32)) : Nat :=
  if n.perTeam then 0
  else ((List.range (n.width / 32)).map fun w => ((recs.drop (32 * w)).take 32).foldl (fun m r => max m (recLen r)) 0).sum
/-- What a team of the node needs: its reservation (R238), or the granules its launch maps where these are more (R237)
(log 134). -/
def Node.need (n : Node) (p : Nat) (recs : List (List W32)) : Need :=
  ⟨p, max ((n.regs + 4) * (n.width / 32)) (n.launchGranules recs), n.mtx, n.scrBytes, n.engines, ringCount n⟩
def Team.need (s : State) (t : Team) : Need := ⟨t.part, t.reserved s, t.mtx.isSome, t.scrS, t.engines.length, t.rings.length⟩

/-- The core's lines of R264. -/
def State.coreAdmits (s : State) (d : Need) (c : Nat) : Bool :=
  let r := s.residents c
  decide ((r.map (·.scrS)).sum + d.scr ≤ (s.pr d.part 0x160).toNat) && decide ((r.map (·.engines.length)).sum + d.engines ≤ 4) &&
    decide ((r.map (·.rings.length)).sum + d.rings ≤ 32)
/-- The slot's lines. -/
def State.slotAdmits (s : State) (d : Need) (c k : Nat) : Bool :=
  let r := (s.residents c).filter (·.slot == k)
  decide (d.granules ≤ s.slotFree c k) && decide (r.length < 16) && !(d.mtx && r.any (·.mtx.isSome))

/-- The admitting slot with the most unreserved granules; a tie goes to the lowest number. -/
def mostOf (f : Nat → Nat) (l : List Nat) : Option Nat :=
  l.foldl (fun m x => match m with
    | some y => if f y < f x then some x else m
    | none => some x) none
def State.pickSlot (s : State) (d : Need) (c : Nat) : Option Nat :=
  if s.coreAdmits d c then mostOf (s.slotFree c) ((List.range 8).filter (s.slotAdmits d c)) else none

/-- The candidates of a queue, or of a team that is restored (no queue), on dies that are ready (R426). -/
def State.candidates (s : State) (p : Nat) (q : Option (Nat × Nat)) : List Nat :=
  (List.range 48).filter fun c => s.holdsCore p c && !s.mgmt.failedCores.getLsbD c && s.dieReady (dieOfCore c) && !s.outgoing p c &&
    !(s.part p).claims.any fun (k, r) => k == c && some r != q

/-- Rule 2 of R265 among `cs`. -/
def State.ruleTwo (s : State) (d : Need) (cs : List Nat) : Option (Nat × Nat) :=
  match mostOf s.coreFree (cs.filter fun c => (s.pickSlot d c).isSome) with
  | some c => (s.pickSlot d c).map fun k => (c, k)
  | none => none

/-- R265 with the affinity byte of the first record. -/
def State.choosePlace (s : State) (d : Need) (cs : List Nat) (aff : Nat) : Option (Nat × Nat) :=
  if within aff 0x80 0xAF then
    match (if cs.contains (aff - 0x80) then s.pickSlot d (aff - 0x80) else none) with
    | some k => some (aff - 0x80, k)
    | none => s.ruleTwo d cs
  else if within aff 0x40 0x43 then s.ruleTwo d (cs.filter fun c => dieOfCore c == aff - 0x40)
  else s.ruleTwo d cs

/-- The lowest free context block (R235). -/
def State.freeCtx (s : State) (p : Nat) : Option Nat :=
  (List.range (s.preg p 14)).find? fun k =>
    !(s.teams.any fun (_, t) => t.part == p && t.ctx == k) && !(s.part p).ended.any fun e => e.ctx == k

/-- The lowest numbers below `n` that are not in `used`. -/
def freeOf (n : Nat) (used : List Nat) (k : Nat) : List Nat := ((List.range n).filter fun x => !used.contains x).take k

/-! ## Launch (R231-R233) -/

/-- A ring of the node's ring table (R211, R215) (log 83). -/
def Ring.ofEntry (n phys scr : Nat) (e : W64) : Ring :=
  let base := bitsOf e 31 0
  let ssz := bitsOf e 47 32
  let logn := bitsOf e 55 48
  let top := base + 2 ^ logn * ssz * 128
  { n, phys, drain := e.getLsbD 56, logn, ssz, base,
    err := !(decide (logn ≤ 8) && decide (1 ≤ ssz) && decide (top ≤ scr) && (decide (32 * n + 32 ≤ base) || decide (top ≤ 32 * n))),
    head := 0, tail := 0, hold := 0 }

def Node.ringNumbers (n : Node) : List Nat := (List.range 32).filter fun k => n.ringBits.testBit k

/-- The vector registers of a per-lane node (R232). -/
def laneRegs (recs : List (List W32)) : List RegWrite :=
  ((List.range recs.length).zip recs).flatMap fun (l, r) =>
    (List.range (recLen r)).map fun w => .v (16 + w) l (recWord r (4 + w))
/-- The scalar registers of a per-team node (R233). -/
def teamRegs (r : List W32) : List RegWrite := (List.range (recLen r)).map fun w => .s (16 + w) ((recWord r (4 + w)).zeroExtend 64)

def Regs.empty : Regs where
  s := []
  v := []
  fflags := []
  fctl := 0
  mask := 0
  stack := []
  blocks := 0
  due := 0
  pc := 0
  cl := none

/-- A team at launch, before its registers, rings and place. -/
def Team.fresh (id : TeamId) (p gslot node : Nat) (inst : W32) (core slot ctx : Nat) : Team where
  id := id
  part := p
  gslot := gslot
  node := node
  inst := inst
  core := core
  slot := slot
  w := 32
  present := 0
  lane := false
  level := 0
  slvl := 0
  hnd := false
  fault := none
  trap := none
  r := Regs.empty
  port := false
  yld := false
  sbuf := []
  olds := []
  wc := []
  tg := []
  pend := []
  nseq := 0
  icount := 0
  nclause := 0
  spills := 0
  fills := 0
  gfills := 0
  scrS := 0
  scr := []
  scrWritten := []
  scrPoison := []
  rings := []
  engines := []
  mtx := none
  recs := []
  used := []
  credit := 0
  wd := 0
  stat := .running
  stopReq := none
  lost := none
  stopRec := none
  pcSet := false
  holdOn := none
  cmpIgnore := []
  trapPkt := none
  relFence := false
  relAt := none
  step := false
  ctx := ctx
  was := .running
  migr := false
  touched := []
  touched0 := []

def Engine.idle (phys : Nat) : Engine := ⟨phys, .idle, [], 0, 0, none, 0, 0, []⟩

/-- The node's records, engines, rings and array, in the team (R231). -/
def Team.equip (t : Team) (n : Node) (lvl : Nat) (recs : List (List W32)) (engs rings : List Nat) : Team :=
  let rs := ((n.ringNumbers.zip rings).zip n.rtab).map fun ((k, phys), e) => Ring.ofEntry k phys n.scrBytes e
  let mask : LaneMask := maskOf (List.range (if n.perTeam then n.width else recs.length))
  let r : Regs := { Regs.empty with
    mask := mask
    pc := n.entry }
  let t := { t with
    w := n.width
    lane := !n.perTeam
    present := mask
    level := lvl
    r := r.writes (if n.perTeam then teamRegs (recs.getD 0 []) else laneRegs recs)
    scrS := n.scrBytes
    rings := rs
    engines := engs.map Engine.idle
    mtx := if n.mtx then some Matrix.empty else none
    recs := recs }
  rs.foldl Team.ringImage t

/-- The release reaches core `c`: a team there is in its scope (R147). Within one core nothing stale is read. -/
def Rel.near (x : Rel) (c : Nat) : Bool :=
  if x.scope = .die then dieOfCore x.core == dieOfCore c else decide (3 ≤ x.scope.code)
/-- A launch on core `c` acts as the acquire that matches the releases before its records, as far as their scopes reach
(R208, R148). -/
def State.launchAcquire (s : State) (c : Nat) (rels : List Rel) : State :=
  let s := if rels.any (·.near c) then s.dropNear c else s
  if rels.any fun x => decide (4 ≤ x.scope.code) then s.dropFarPeers (dieOfCore c) else s

/-- TEAM_LAUNCH: the team of node `n` that takes `k` records from its queue starts on core `c`, slot `sl`. Its block's bytes 0xFE00 to
0xFFFF are zero (R235), and the launch acts as an acquire. -/
def State.launch (s : State) (p g k : Nat) (x : Graph) (n : Node) (c sl ctx : Nat) : State :=
  let d := dieOfCore c
  let cnt := if n.perTeam then 1 else min n.width n.q.length
  let taken := n.taken
  let id := BitVec.ofNat 32 (d * 2 ^ 30 + (s.die d).launchSeq % 2 ^ 30)
  let r := s.residents c
  let engs := freeOf 4 (r.flatMap fun t => t.engines.map (·.phys)) n.engines
  let rings := freeOf 32 (r.flatMap fun t => t.rings.map (·.phys)) (ringCount n)
  let t := (Team.fresh id p g k x.inst c sl ctx).equip n (fld x.obj 0 21 20) (taken.map (s.recWords p)) engs rings
  let t := { t with credit := (taken.map (·.credit)).sum }
  let s := s.modDie d fun y => { y with launchSeq := (y.launchSeq + 1) % 2 ^ 30 }
  let s := s.modNode p g k fun y => { y with
      q := y.q.drop cnt
      launch := y.launch + cnt
      level := y.prio
      full := false
      fillrec := y.fillrec + (taken.filter fun (r : QRec) => r.spilled).length }
  let s := s.modPart p fun y => { y with claims := y.claims.filter fun (_, q) => q != (g, k) }
  let s := (s.noteNode p g k).fillPlaces p cnt
  let s := (s.setTeam t).countEvent p d 0x00B 1
  let s := (s.writePhys (s.ctxBase t + 0xFE00) (List.replicate 512 0#8)).dropNearLines c (lineOf (s.ctxBase t + 0xFE00)) 8
  let s := s.launchAcquire c (taken.filterMap (·.rel))
  let s := s.tracePacket t t.r.pc ⟨1, 1, []⟩
  s.refresh p

/-! ## Decisions (R266-R269) -/

/-- A stagger holds partition `p` (R390). -/
def State.staggered (s : State) (p : Nat) : Bool := (s.part p).stagger.any fun u => decide ((s.mr 0x33).toNat < u)

/-- Partition `p` may launch: not frozen, not held by a stagger, on its turn if it takes turns, and no team of it waits to
be restored (R349, R390). -/
def State.mayLaunch (s : State) (p : Nat) : Bool :=
  let x := s.part p
  !x.frozen && !x.freezing && !x.resetReq && !x.restoring && !s.staggered p && (!s.turned p || (x.onTurn && !x.rolled)) &&
    !s.teams.any fun (_, t) => t.part == p && t.stat == .saved

/-- The READY queues of `p` on the Mill of die `d`: graph slot, node. -/
def State.readyOn (s : State) (d p : Nat) : List (Nat × Nat × Node) :=
  if s.mayLaunch p then
    (s.part p).graphs.flatMap fun (g, x) => x.nodes.filterMap fun (n, y) =>
      if y.st == .ready && s.homeDie p g n == d then some (g, n, y) else none
  else []

/-- The partition whose decision it is, by the weighted rounds of R269. -/
def State.nextPart (s : State) (d : Nat) : Option (Nat × Nat) :=
  let cands := (List.range 17).filter fun p => !(s.readyOn d p).isEmpty
  let heavy := cands.filter fun p => s.preg p 7 != 0
  let x := s.die d
  let after (l : List Nat) : Option Nat :=
    match l.find? (decide <| x.roundPart < ·) with
    | some p => some p
    | none => l.head?
  if heavy.isEmpty then (after cands).map fun p => (p, 0)
  else if heavy.contains x.roundPart && decide (0 < x.roundLeft) then some (x.roundPart, x.roundLeft - 1)
  else (after heavy).map fun p => (p, s.preg p 7 - 1)

def qBefore (a b : Nat × Nat) : Bool := decide (a.1 < b.1) || (a.1 == b.1 && decide (a.2 < b.2))
def Node.oldest (n : Node) : Nat := (n.q.head?.map (·.at_)).getD 0

/-- The queue that has the turn (R268). -/
def State.nextQueue (s : State) (d p : Nat) : Option (Nat × Nat × Node) :=
  let qs := s.readyOn d p
  let top := qs.foldl (fun m q => max m q.2.2.level) 0
  let best := qs.filter fun q => q.2.2.level == top
  if top = 7 then
    match (s.die d).last7.get? p with
    | some l =>
      match best.find? fun q => qBefore l (q.1, q.2.1) with
      | some q => some q
      | none => best.head?
    | none => best.head?
  else best.foldl (fun m q => match m with
    | some b => if q.2.2.oldest < b.2.2.oldest then some q else m
    | none => some q) none

/-- The core that rule 2 of R265 gives queue (g, n) among the candidates that no other queue has claimed, granules counted
as if the cores had no teams: the lowest, of the die that the first record names (log 125). -/
def State.claimable (s : State) (p g n : Nat) : Option Nat :=
  let aff := ((s.node? p g n).bind fun y => y.q.head?).elim 0 fun r => recAff (s.recWords p r)
  (s.candidates p (some (g, n))).find? fun c =>
    !((s.part p).claims.any fun (k, _) => k == c) && (!within aff 0x40 0x43 || dieOfCore c == aff - 0x40)

/-- R266: the failing queue claims a core (log 125). -/
def State.claim (s : State) (p g n : Nat) : State :=
  let x := s.part p
  if x.claims.any fun (_, q) => q == (g, n) then s
  else
    match s.claimable p g n with
    | some c => s.setPart p { x with claims := x.claims ++ [(c, g, n)] }
    | none => s

/-- Claims to cores that have left the partition pass on (R266). -/
def State.passClaims (s : State) (p : Nat) : State :=
  let left (c : Nat) : Bool := !s.holdsCore p c || s.mgmt.failedCores.getLsbD c || s.outgoing p c
  let gone := (s.part p).claims.filter fun (c, _) => left c
  gone.foldl (fun s (_, g, n) => s.claim p g n) (s.modPart p fun x => { x with claims := x.claims.filter fun (c, _) => !left c })

/-- SERIAL and a team that exists (R414). -/
def State.serialBusy (s : State) (p : Nat) : Bool :=
  (s.pr p 0x15C).getLsbD 1 && s.teams.any fun (_, t) => t.part == p

/-- One decision for a queue: it launches a team or fails. -/
def State.decideFor (s : State) (p g n : Nat) (y : Node) : State :=
  let fail : State := if y.level = 7 then s.claim p g n else s
  match s.graph? p g, y.q, s.freeCtx p with
  | some x, r :: _, some ctx =>
    if s.serialBusy p then fail
    else
      match s.choosePlace (y.need p (y.taken.map (s.recWords p))) (s.candidates p (some (g, n))) (recAff (s.recWords p r)) with
      | some (c, k) => s.launch p g n x y c k ctx
      | none => fail
  | _, _, _ => fail

/-- ADMISSION_DECISION on the Mill of die `d`. -/
def State.admission (s : State) (d : Nat) : State :=
  match s.nextPart d with
  | none => s
  | some (p, left) =>
    let s := s.modDie d fun x => { x with
      roundPart := p
      roundLeft := left }
    match s.nextQueue d p with
    | none => s
    | some (g, n, y) =>
      let s := if y.level = 7 then s.modDie d fun x => { x with last7 := x.last7.put p (g, n) } else s
      s.decideFor p g n y
def execAdmissionDecision (s : State) : Out := .next (s.admission s.ev.die)

/-- COALESCE_TIMEOUT: the Mill tests the ages of a queue (R262). -/
def execCoalesceTimeout (s : State) : Out := .next (s.refresh s.ev.part)

/-- R268 for one queue at a tick of AGEINT. -/
def Node.age (y : Node) : Node :=
  if y.st = .ready then { y with
    level := if y.full then min 7 (y.level + 1) else y.level
    full := true }
  else y
/-- The aging interval of partition `p` in ns, and the next tick of its clock on the Mill of die `d` (R268). -/
def State.ageint (s : State) (p : Nat) : Nat := 1000 * s.preg p 8
def State.nextTick (s : State) (d p : Nat) : Nat := (s.die d).ticks.get 0 p + s.ageint p

/-- AGING_TICK of a partition's interval clock on the Mill of a die, when it is due; under a stagger hold nothing ages
(R390). -/
def State.agingTick (s : State) (d p : Nat) : State :=
  if s.now < s.nextTick d p then s
  else
    let s := s.modDie d fun x => { x with ticks := x.ticks.set 0 p (s.nextTick d p) }
    if s.staggered p then s
    else s.modPart p fun x => { x with graphs := x.graphs.map fun (g, y) =>
      (g, { y with nodes := y.nodes.map fun (n, z) => (n, if z.home == d then z.age else z) }) }

/-- A tick at its time: the queues stand in the states that their rules gave them then (R263, R268). -/
def State.tickAt (s : State) (d p : Nat) : State :=
  { ({ s with now := s.nextTick d p }.refresh p).agingTick d p with now := s.now }

/-- The ticks that have become due, as time passes, each at its time; nine raise every level that can rise. -/
def State.agingTicks (s : State) : State :=
  (List.range 4).foldl (fun s d => (List.range 17).foldl (fun s p =>
    let late := (s.now - (s.die d).ticks.get 0 p) / s.ageint p
    if late = 0 then s
    else
      let s := s.modDie d fun x => { x with ticks := x.ticks.set 0 p (x.ticks.get 0 p + (late - min late 9) * s.ageint p) }
      (List.range (min late 9)).foldl (fun s _ => s.tickAt d p) s) s) s
def execAgingTick (s : State) : Out := .next (s.agingTick s.ev.die s.ev.part)

/-- INSTANCE_END. -/
def execInstanceEnd (s : State) : Out := .next (s.endInstance s.ev.part s.ev.gslot)

/-! ## Retirement and kill (R199, R220, R243) -/

/-- The head run of an engine that stops completes its tile in progress first (R197). -/
def Engine.lastTile (e : Engine) (cut : Bool) : Bool :=
  !e.fly.isEmpty && e.head.any fun r => e.st == .stopping || cut || !Lay.drain r.words

/-- The runs that end with the team: fills are stopped, drains too when `cut`; what has a tile in progress stops after it. -/
def Engine.endRuns (e : Engine) (cut : Bool) : Engine :=
  let stays (r : Run) : Bool := !cut && Lay.drain r.words
  let last := e.lastTile cut
  let runs := if last || e.st == .stopping then (if last then e.runs.take 1 else []) ++ e.runs.tail.filter stays
    else e.runs.filter stays
  { e with
    runs := runs
    fly := if last then e.fly.take 1
      else if e.runs.head?.any stays then e.fly.take ((e.runs.head?.map fun r => Lay.tiles r.words - r.next).getD 0) else []
    stops := if last then e.stops else 0
    st := if e.st == .faulted then .faulted else if last then .stopping else if runs.isEmpty then .idle else .running }
def Team.endRuns (t : Team) (cut : Bool) (k : Nat) : Team :=
  match t.engine k with
  | none => t
  | some e =>
    let e' := e.endRuns cut
    ((t.setEngine k e').subCnts ((e.runs.length - 4) - (e'.runs.length - 4))).subCnts (e.stops - e'.stops)
def Team.endAllRuns (t : Team) (cut : Bool) : Team := (List.range t.engines.length).foldl (fun t k => t.endRuns cut k) t

/-- Nothing of the team is left to do. -/
def Team.finished (t : Team) : Bool := t.quiet && t.arrayQuiet && t.engines.all fun e => e.runs.isEmpty

/-- A turned partition keeps the context block of a team that ends until a commit covers its end (R360). -/
def State.keepBlock (s : State) (t : Team) : State :=
  if s.turned t.part then
    s.modPart t.part fun x => { x with
      ended := x.ended ++ [⟨x.epoch, t.ctx, t.id, t.touched0 ++ t.touched.map fun (k : Nat × Bool) => (x.epoch, k.1)⟩] }
  else s

/-- The team is gone: what it held is free again, and its graph may be idle. -/
def State.endTeam (s : State) (t : Team) : State :=
  let s := ((s.traceUni t 2).keepBlock t).dropTeam t.id
  ((s.freePlaces t.id fun _ => true).refresh t.part).endInstance t.part t.gslot

/-- TEAM_RETIRE. -/
def State.teamRetire (s : State) : State :=
  match s.team? s.ev.team with
  | some t =>
    if t.stat = .retiring then
      let t := t.endAllRuns false
      let s := s.setTeam t
      if t.finished && s.wclean t then s.endTeam t else s
    else s
  | none => s
def execTeamRetire (s : State) : Out := .next s.teamRetire

/-- A record as the error edge takes it: flag bit 12 and the fault code (R220). -/
def errRecord (code : Nat) (w : List W32) : List W32 :=
  w.set 1 ((w.getD 1 0 &&& ~~~(0x001F_E000#32)) ||| BitVec.ofNat 32 (0x1000 + code % 256 * 0x2000))

/-- Steps 3 and 4 of R220. -/
def State.errorRecords (s : State) (t : Team) (code : Nat) : State :=
  match t.node? s with
  | some n =>
    if n.erre then
      let b := s.boundOf t.part t.gslot n.errNode 0
      s.modPart t.part fun x => { x with
        flying := x.flying ++ t.recs.map fun w => ⟨t.gslot, n.errNode, errRecord code w, b, .charged, t.rel⟩ }
    else s.lostRecs t.part t.recs.length
  | none => s.lostRecs t.part t.recs.length

/-- R276: version loads still blocked are cancelled at a kill. -/
def State.dropBlocked (s : State) (t : Team) : State × Team :=
  let blocked (p : Pending) : Bool := !p.performed && match p.kind with
    | .ldv .. => true
    | _ => false
  let gone := t.pend.filter blocked
  let s := (s.freePlaces t.id fun q => gone.any (·.seq == q))
  (s, { t.uncount gone with pend := t.pend.filter fun p => !blocked p })

/-- TEAM_KILL (R220). -/
def State.teamKill (s : State) : State :=
  match s.team? s.ev.team with
  | some t =>
    match t.stat with
    | .killing code =>
      let (s, t) := s.dropBlocked (t.endAllRuns true)
      let s := (s.setTeam t).clearFilters
      if t.finished && s.wclean t then (s.errorRecords t code).endTeam t else s
    | _ => s
  | none => s
def execTeamKill (s : State) : Out := .next s.teamKill

/-! ## Records on their way (R206) -/

/-- One record of emission `seq` of the team stands where it goes. -/
def Team.emitLess (t : Team) (seq : Nat) : Team :=
  t.modPend seq fun p => match p.kind with
    | .emit n => { p with kind := .emit (n - 1) }
    | _ => p
def State.emitLess (s : State) (t : TeamId) (seq : Nat) : State := s.modTeam t fun u => u.emitLess seq

/-- The team of a record on its way. -/
def FlyKind.team? : FlyKind → Option TeamId
  | .emit t _ => some t
  | .charged => none

/-- An earlier record of the same team to the same node is still on its way: order is program order (R206). -/
def behind (l : List Flying) (f : Flying) : Bool :=
  f.kind.team?.isSome && l.any fun e => e.kind.team? == f.kind.team? && e.gslot == f.gslot && e.node == f.node

/-- An earlier record of team `t` to the same node of this device waits among the arrivals (R207). -/
def heldBefore (l : List Arrival) (t : TeamId) (seq g n : Nat) : Bool :=
  l.any fun a => a.gslot == g && a.node == n && match a.kind with
    | .emitx u q _ => u == t && decide (q < seq)
    | _ => false
/-- An earlier emission of team `t` to the same node is on its way. -/
def flyingBefore (l : List Flying) (t : TeamId) (seq g n : Nat) : Bool :=
  l.any fun f => f.gslot == g && f.node == n && match f.kind with
    | .emit u q => u == t && decide (q < seq)
    | .charged => false

/-- The record waits behind an earlier one of its team to the same node, however that one was sent (R207); a release of the team
that is still on its way does not hold it back (log 147). -/
def Partition.flyWaits (x : Partition) (i : Nat) (f : Flying) : Bool :=
  behind (x.flying.take i) f || match f.kind with
    | .emit t seq => heldBefore x.held t seq f.gslot f.node
    | .charged => false

/-- RECORD_ENQUEUE: the `i`-th record on its way enters its queue. It counts as queued throughout (R252, R257). -/
def State.recordEnqueue (s : State) (p i : Nat) : State :=
  let x := s.part p
  match x.flying[i]? with
  | none => s
  | some f =>
    if x.frozen || x.flyWaits i f then s
    else
      let s := (s.enterQueue p f.gslot f.node f.w f.credit f.rel).modPart p fun x => { x with flying := x.flying.eraseIdx i }
      match f.kind with
      | .emit t seq => s.emitLess t seq
      | .charged => s
def execRecordEnqueue (s : State) : Out := .next (s.recordEnqueue s.ev.part s.ev.idx)

/-- EMIT_PERFORMED: every record of the instruction stands in its queue or in a window. -/
def State.emitPerformed (s : State) : State :=
  match s.evPend with
  | some (t, p) =>
    match p.kind with
    | .emit 0 => s.modTeam t.id fun u => u.perform p.seq []
    | _ => s
  | none => s
def execEmitPerformed (s : State) : Out := .next s.emitPerformed

/-! ## Arrivals (R260, R207, R271) -/

/-- What becomes of an arrival at its queue. -/
inductive Fate where
  | enters (credit : Nat)
  | waits
  | never
  deriving DecidableEq, Repr

/-- An arrival to (g, n) of partition `p` against the account. -/
def State.fate (s : State) (p g n : Nat) (w : List W32) : Fate :=
  match s.node? p g n with
  | none => .never
  | some _ =>
    let c := s.boundOf p g n (recDepth w)
    if s.credLim p < c then .never
    else if (s.part p).frozen || s.credLim p < s.credUse p + c then .waits
    else .enters c

/-- A record of partition `p` is refused for good: the sending node's error edge, or LOSTREC (R207); a copy's completion
record is counted and told to SUPNODE (R171). -/
def State.refuse (s : State) (p : Nat) (sender : Sender) (w : List W32) : State :=
  match sender with
  | .device => s.lostRecs p 1
  | .copy block dev => (s.lostRecs p 1).sendSup p [0x23#32, lo32 block, hi32 block, BitVec.ofNat 32 dev]
  | .node g n =>
    match s.node? p g n with
    | some x =>
      if x.erre then s.modPart p fun y => { y with
        held := y.held ++ [⟨.error, g, x.errNode, errRecord 0x23 w, 0, .device, some Rel.device⟩] }
      else s.lostRecs p 1
    | none => s.lostRecs p 1

/-- The copy of engine `eng`, die `d` whose completion record has gone is performed. -/
def State.tellCopy (s : State) (d eng : Nat) : State :=
  match (s.die d).copies eng with
  | c :: _ => if c.told then s.copyDone d eng c else s
  | [] => s

/-- The sender of an arrival hears that it stands where it goes, or is gone for good. -/
def State.arrivalDone (s : State) (a : Arrival) : State :=
  match a.kind with
  | .emitx t seq _ | .remoteOut _ t seq _ => s.emitLess t seq
  | .bcp d eng _ => s.tellCopy d eng
  | .device | .error | .released .. => s

/-- A record that will never enter. -/
def State.arrivalLost (s : State) (p : Nat) (a : Arrival) : State :=
  (match a.kind with
    | .emitx .. | .remoteOut .. | .released .. => s.refuse p a.sender a.w
    | .bcp _ _ dev => if dev = s.devn then s.lostRecs p 1 else s.refuse p a.sender a.w
    | .device | .error => s.lostRecs p 1).arrivalDone a

/-- The window of die `d` toward device `dev`. -/
def Die.window (x : Die) (dev : Nat) : Window := x.win.get ⟨0, [], 0, none, 0⟩ dev
def State.setWindow (s : State) (d dev : Nat) (w : Window) : State := s.modDie d fun x => { x with win := x.win.put dev w }

/-- The header of a message of this device's die `d` to device `dev` (R387). -/
def State.hdr (s : State) (d dev domid : Nat) : Hdr := ⟨s.devn, d, dev, domid⟩
/-- The message of a window record (R387). -/
def State.recMsg (s : State) (d dev : Nat) (r : WinRec) : Msg := .rec_ (s.hdr d dev r.domid) r.seq r.w

/-- A record takes a place in the window and is sent; `none` when the window is full (R271). -/
def State.toWindow (s : State) (p d dev g n : Nat) (sender : Sender) (deadline : Nat) (w : List W32) : Option State :=
  let x := (s.die d).window dev
  if 256 ≤ x.recs.length then none
  else
    let r : WinRec := ⟨x.next, s.preg p 25, p, g, n, sender, deadline, w⟩
    let s := s.setWindow d dev { x with
      next := x.next + 1
      recs := x.recs ++ [r] }
    some (if x.resend.isNone then s.say (s.recMsg d dev r) else s)

/-- The die whose Mill sends an arrival to another device, and the device. -/
def State.outward (s : State) (a : Arrival) : Option (Nat × Nat) :=
  match a.kind with
  | .remoteOut dev t _ _ => (s.team? t).map fun u => (dieOfCore u.core, dev)
  | .bcp d _ dev => if dev = s.devn then none else some (d, dev)
  | .released dev d _ => some (d, dev)
  | _ => none

/-- The team of an `emitx` arrival and its node's destination, for the order of R207. -/
def ArrKind.team? : ArrKind → Option TeamId
  | .emitx t _ _ | .remoteOut _ t _ _ => some t
  | .released _ _ t => t
  | _ => none
def ArrKind.dev? : ArrKind → Option Nat
  | .remoteOut d _ _ _ | .released d _ _ => some d
  | _ => none
def arrivalBehind (l : List Arrival) (a : Arrival) : Bool :=
  a.kind.team?.isSome && l.any fun b => b.kind.team? == a.kind.team? && b.kind.dev? == a.kind.dev? && b.gslot == a.gslot && b.node == a.node

def ArrKind.isReleased : ArrKind → Bool
  | .released .. => true
  | _ => false

/-- How many of the latest cuts the copy of a completion record lies before. -/
def State.oldRecord (s : State) (a : Arrival) : Nat :=
  match a.kind with
  | .bcp d eng _ =>
    match (s.die d).copies eng with
    | c :: _ => s.oldCopy c
    | [] => 0
  | _ => 0

/-- The record leaves for another device: the snapshots of the cuts at which it stood send it no more. -/
def State.cutSends (s : State) (p : Nat) (a : Arrival) : State :=
  let n := (s.part p).older fun c => c.held.contains a
  let s := s.modPart p fun x => x.modCuts n fun c => { c with held := c.held.erase a }
  match a.kind with
  | .remoteOut _ t seq _ => s.modCutTeam n p t fun u => u.emitLess seq
  | _ => s

/-- A turned partition's record to another device is held (R363, R171). One that stood at the latest cuts, or that a copy
of before them sends, belongs to the epoch before. -/
def State.holdRecord (s : State) (p dev d : Nat) (a : Arrival) : State :=
  let n := max ((s.part p).older fun c => c.held.contains a) (s.oldRecord a)
  let s := s.modPart p fun x => { x with
    egress := x.egress ++ [(x.epoch - n, .record dev d a.gslot a.node a.sender a.w a.kind.team?)] }
  (s.cutSends p a).arrivalDone a

/-- The completion record of a copy of before the latest cuts is part of their snapshots. -/
def State.noteOldCopy (s : State) (p : Nat) (a : Arrival) (credit : Nat) : State :=
  let n := s.oldRecord a
  s.modPart p fun x => x.modCuts n fun y => { y with
    flying := y.flying ++ [⟨a.gslot, a.node, a.w, credit, .charged, a.rel⟩] }

/-- The arrival waits behind an earlier record of its team to the same node. -/
def Partition.arrivalWaits (x : Partition) (i : Nat) (a : Arrival) : Bool :=
  arrivalBehind (x.held.take i) a || match a.kind with
    | .emitx t seq _ => flyingBefore x.flying t seq a.gslot a.node
    | _ => false

/-- A time limit stands for the arrival: it is an `emitx` record, or goes to another device (R260, R171). -/
def Arrival.timed (s : State) (a : Arrival) : Bool :=
  match a.kind with
  | .emitx .. | .remoteOut .. | .released .. => true
  | .bcp _ _ dev => decide (dev ≠ s.devn)
  | .device | .error => false
/-- REPLTO is over for the arrival (R273). -/
def Arrival.late (s : State) (a : Arrival) : Bool := a.timed s && decide (a.deadline ≤ s.now)

/-- R273 for an arrival that is held. -/
def State.dropArrival (s : State) (p i : Nat) : State :=
  let x := s.part p
  match x.held[i]? with
  | none => s
  | some a => if a.late s then (s.setPart p { x with held := x.held.eraseIdx i }).arrivalLost p a else s

/-- ARRIVAL_RETRY: the `i`-th arrival held by partition `p` is tried; one whose time is over is dropped. -/
def State.arrivalRetry (s : State) (p i : Nat) : State :=
  let x := s.part p
  match x.held[i]? with
  | none => s
  | some a =>
    if a.late s then s.dropArrival p i
    else if x.arrivalWaits i a then s
    else
      let s' := s.setPart p { x with held := x.held.eraseIdx i }
      match s.outward a with
      | some (d, dev) =>
        if s.dsize ≤ dev then s'.arrivalLost p a
        else if s.turned p && !a.kind.isReleased then s'.holdRecord p dev d a
        else match s'.toWindow p d dev a.gslot a.node a.sender a.deadline a.w with
          | some s' => (s'.cutSends p a).arrivalDone a
          | none => s
      | none =>
        match s.fate p a.gslot a.node a.w with
        | .enters c =>
          let s := (s.enterQueue p a.gslot a.node a.w c a.rel).modPart p fun x => { x with held := x.held.eraseIdx i }
          (s.noteOldCopy p a c).arrivalDone a
        | .waits => s
        | .never => s'.arrivalLost p a
def execArrivalRetry (s : State) : Out := .next (s.arrivalRetry s.ev.part s.ev.idx)

end Sys2Proof.Machine
end

