-- ==== Sys2Proof/Machine/Turns.lean ====
section
/-!
DEFINITION. Checkpoints and turns (R359-R367, with R223, R336, R342 and the capture of R389): cut, commit, release of egress,
rollback to a snapshot, the end and the start of a turn.
-/
namespace Sys2Proof.Machine

/-! ## The cut (R360) -/

/-- A local address in a channel group of partition `p`. -/
def State.ownsPa (s : State) (p pa : Nat) : Bool := decide (pa < localTop) && s.groupOwnerOf (groupOf pa) == p

/-- The frames of partition `p` in which a byte or poison is listed. -/
def State.ownFrames (s : State) (p : Nat) : List Nat :=
  ((s.mem.map fun (c : Host.Cell) => frameOf c.1) ++ s.poison.map fun (c : Nat × W32) => frameOf (32 * c.1)).eraseDups.filter fun f =>
    s.ownsPa p (f * pageBytes)

/-- The entries of the team's spill area, newest first. -/
def State.spilled (s : State) (t : Team) : List REntry :=
  ((List.range (8 * t.r.blocks)).map fun j => s.readEntry (s.spillBase t 0 + 272 * j)).reverse

/-- The team as a snapshot holds it: its absent entries filled from the register save area, but for poisoned ones, and the
entries of its spill area after those of its slot. -/
def State.fillIn (s : State) (t : Team) : Team :=
  let entry : Nat × VEnt → Nat × VEnt
    | (k, .absent) =>
      let base := s.ctxBase t + 0x1_0000 + 128 * k
      if (List.range 4).any fun i => s.poisoned (base + 32 * i) then (k, .absent)
      else (k, .mapped (BitVec.ofNat 1024 (s.readPhys base 128)))
    | x => x
  { t with r := { t.r with
    v := t.r.v.map entry
    stack := t.r.stack ++ s.spilled t } }

/-- Arrivals that belong to a snapshot: neither a copy's record nor one that has left its epoch. -/
def Arrival.snaps (a : Arrival) : Bool :=
  match a.kind with
  | .bcp .. | .released .. => false
  | _ => true

/-- The additions that wait in the redirect for team `t` of a snapshot: they belong to it (R365, R367). -/
def Partition.redirected (x : Partition) (t : Team) : Team :=
  (x.redirect.filter (·.1 == t.id)).foldl (fun t (r : TeamId × Nat × Nat) => t.engineArrive r.2.1 r.2.2) t

/-- The state of partition `p` at a cut: of reduction lines those that it homes (R342). -/
def State.snapOf (s : State) (p num at_ : Nat) (grid safe : Bool) : Snap :=
  let x := s.part p
  { num := num
    at_ := at_
    grid := grid
    teams := s.teams.filterMap fun (k, t) => if t.part = p then some (k, x.redirected (s.fillIn (s.toSavePoint t).2)) else none
    graphs := x.graphs
    flying := x.flying
    held := x.held.filter Arrival.snaps
    ctrl := x.ctrl
    regions := x.regions
    lines := s.slices.filterMap fun (l, y) =>
      match y.lines.filter fun (k, _) => decide (l < 1000) && s.lineOwner (64 * k) == p with
      | [] => none
      | zs => some (l, zs)
    disc := ((List.range 96).filter fun l => s.sliceHolderOf l == p).map fun l => (l, (s.slice l).disc)
    leases := x.leases
    mem := if safe then some ⟨[], [], []⟩ else none }

/-- SAFECTL.TGT. -/
def State.safeTarget (s : State) (p : Nat) : Nat := s.preg p 26 % 4
def State.ckint (s : State) (p : Nat) : Nat := 1000 * s.preg p 5

/-- The safe tier is to take the next checkpoint, and is free for one (R389). -/
def State.safeAsked (s : State) (p : Nat) : Bool := s.safeTarget p != 0 && (s.part p).ckReq
def Partition.safeFree (x : Partition) : Bool := x.safeRun.isNone && x.safeCopies.isEmpty

/-- A cut that is due: its time and its place on the grid, when it has one. Every point of the grid has its cut, whether or not
earlier ones have committed (R360). An early one is due after a `ckpt`, where it is for the safe tier once that is free, or for
a turned partition as its undo log fills. -/
def State.cutDue (s : State) (p : Nat) (pressure : Bool) : Option (Nat × Option Nat) :=
  let x := s.part p
  let asked := x.ckReq && (!s.safeAsked p || x.safeFree)
  if s.turned p then
    if !x.onTurn then none
    else
      let n := x.gridPos + 1
      if x.turnStart + n * s.ckint p ≤ s.now then some (x.turnStart + n * s.ckint p, some n)
      else if asked || (pressure && !x.undo.isEmpty) then some (s.now, none)
      else none
  else if asked then some (s.now, none)
  else none

/-- A new epoch begins for the scratch lines of a team: those it has written in epoch `e` are kept with it. -/
def Team.nextEpoch (t : Team) (e : Nat) : Team :=
  { t with
    touched := []
    touched0 := (t.touched0 ++ t.touched.map fun (x : Nat × Bool) => (e, x.1)).eraseDups }

/-- The teams of partition `p` change. -/
def State.modTeamsOf (s : State) (p : Nat) (f : Team → Team) : State :=
  { s with teams := s.teams.map fun (k, t) => (k, if t.part == p then f t else t) }

/-- CHECKPOINT_CUT. A cut of the grid that the safe tier is not free to take leaves the request standing. -/
def State.checkpointCut (s : State) (p : Nat) (pressure : Bool) : State :=
  let x := s.part p
  match s.cutDue p pressure with
  | none => s
  | some (at_, g) =>
    let safe := s.safeAsked p && x.safeFree
    let s' := s.setPart p { x with
      epoch := x.epoch + 1
      cuts := x.cuts ++ [s.snapOf p (x.epoch + 1) at_ g.isSome safe]
      gridPos := g.getD x.gridPos
      ckReq := x.ckReq && s.safeAsked p && !safe }
    s'.modTeamsOf p fun t => t.nextEpoch x.epoch
def execCheckpointCut (s : State) : Out := .next (s.checkpointCut s.ev.part s.ev.flag)

/-- `ckpt` (R223): the checkpoint that will cover the instruction takes the next number. -/
def ckptEff (x : RArgs) (s : State) (t : Team) : Eff :=
  let n := (s.part t.part).epoch + 1
  let s := s.modPart t.part fun y => { y with ckReq := true }
  .ok (s.resultWrites t x.la [.s (destIndex x.d)] [.s (destIndex x.d) (BitVec.ofNat 64 n)])
def execCkpt (x : RArgs) (s : State) : Out := issue (.ckpt x) (ckptEff x) s

/-! ## The commit (R360, R363) -/

/-- Engine `k` of a snapshot's team still has a tile to move that the live engine stands at. -/
def State.tileLeft (s : State) (t : Team) (k : Nat) : Bool :=
  match t.engine k, ((s.team? t.id).bind fun u => u.engine k).bind Engine.head with
  | some e, some q => e.head == some q && t.stat != .saved && (match (s.tileAt t e 0).2 with
    | .waits => false
    | _ => true)
  | _, _ => false

def PKind.isEmit : PKind → Bool
  | .emit _ => true
  | _ => false

/-- The snapshot's team has nothing left to perform. -/
def State.teamSettled (s : State) (t : Team) : Bool :=
  t.arrayQuiet && (t.pend.all fun p => p.performed || p.kind.isEmit) &&
    (List.range t.engines.length).all fun k => !s.tileLeft t k

/-- Instruction `seq` of team `t` lies before the snapshot, and is still to be performed there. -/
def Snap.owes (c : Snap) (t : TeamId) (seq : Nat) : Bool :=
  (c.teams.get? t.toNat).any fun u => u.pend.any fun q => q.seq == seq && !q.performed

/-- The records of the snapshot's teams stand where they go. -/
def State.emissionsSettled (s : State) (p : Nat) (c : Snap) : Bool :=
  !((s.part p).flying.any fun f => match f.kind with
    | .emit t seq => c.owes t seq
    | .charged => false) &&
  !((s.part p).held.any fun a => match a.kind with
    | .emitx t seq _ => c.owes t seq
    | _ => false) &&
  c.held.all fun a => match a.kind with
    | .remoteOut .. => false
    | _ => true

/-- What atomics of the epochs before `num` left in the cores' write buffers stands at its homes (R153). -/
def State.buffersSettled (s : State) (p num : Nat) : Bool :=
  s.cores.all fun (_, c) => c.wbuf.all fun e =>
    e.counted || decide (num ≤ e.epoch) || !(s.team? e.team).any (·.part == p)

/-- Every bulk copy of before the oldest open cut has ended. -/
def State.copiesSettled (s : State) (p : Nat) : Bool :=
  s.dies.all fun (_, d) => d.copyQ.all fun (_, l) => l.all fun c => c.p != p || decide (s.oldCopy c < (s.part p).cuts.length)

/-- The port can carry what the commit sends to the host (R377). -/
def State.hostReady (s : State) (p num : Nat) : Bool :=
  s.mgmt.held || (s.part p).egress.all fun (e, g) => decide (num ≤ e) || match g with
    | .store pa _ => !s.isHost pa
    | _ => true

/-- One item of egress leaves (R363). A remote store of a version that the home refuses is a fabric error (R141). -/
def State.releaseOne (s : State) (p : Nat) (g : Egress) : State :=
  match g with
  | .store pa b => ((s.putByte pa b).unpoison pa).dropHere pa
  | .version r v cells =>
    let x := s.region p r
    match cells with
    | [] => s
    | (a, _) :: _ =>
      let g := lineOf a
      let y := x.record true g v cells
      let f := x.floorAt ((s.lineSlice (64 * g)).getD 0)
      if v < f ∨ f.toNat + 64 ≤ v.toNat ∨ (cells.any fun (b, _) => (x.exist g v).getLsbD (b % 64)) ∨
          x.plen / 128 < y.slots then s.bump p 0x159 1
      else (s.setRegion p r y).noteRegion p r true
  | .record dev die gs n sender w team => s.modPart p fun x => { x with
      held := x.held ++ [⟨.released dev die team, gs, n, w, s.now + 1000 * s.preg p 10, sender, none⟩] }
  | .report r =>
    if (s.part p).reports.length < 64 then s.modPart p fun x => { x with reports := x.reports ++ [r] } else s.bump p 0x15B 1

/-- The egress of the epochs before `num` leaves in program order. -/
def State.releaseEgress (s : State) (p num : Nat) : State :=
  let out := (s.part p).egress.filter fun (e, _) => decide (e < num)
  let s := s.modPart p fun x => { x with egress := x.egress.filter fun (e, _) => decide (num ≤ e) }
  out.foldl (fun s (_, g) => s.releaseOne p g) s

/-- The checkpoint `c` of partition `p`, its oldest open one, commits: what the log holds of the epochs before it goes. -/
def State.commit (s : State) (p : Nat) (c : Snap) : State :=
  let x := s.part p
  let s := s.setPart p { x with
    cuts := x.cuts.drop 1
    committed := if s.turned p then some { c with mem := none } else none
    undo := x.undo.filter fun u => decide (c.num ≤ u.epoch)
    inputs := x.inputs.filter fun (e, _) => decide (c.num ≤ e)
    ended := (x.ended.filter fun e => decide (c.num ≤ e.epoch)).map fun e => { e with
      lines := e.lines.filter fun (n, _) => decide (c.num ≤ n) }
    safeRun := if c.mem.isSome then some c else x.safeRun }
  let s := s.modTeamsOf p fun t => { t with touched0 := t.touched0.filter fun (n, _) => decide (c.num ≤ n) }
  ((s.releaseEgress p c.num).setPr p 0x151 (BitVec.ofNat 64 c.num)).freeReady

/-! ## The safe tier (R389) -/

/-- The safe tier takes frame `f` for the checkpoint that it copies. -/
def State.safeTake (s : State) (p f : Nat) : State :=
  s.modPart p fun x => x.takeFrame 0 (SafeCopy.take s.mem s.poison f)

/-- The channel groups that the safe area has room for, in their order there. -/
def State.safeGroups (s : State) (p : Nat) : List Nat := (List.range 128).filter fun g => s.groupOwnerOf g == p
/-- The bytes of a half of the safe area: each group's 6 GiB, in ascending group order (log 59). -/
def State.halfLen (s : State) (p : Nat) : Nat := (s.safeGroups p).length * groupBytes
/-- Where a byte of the partition's memory stands in a half of the safe area. -/
def State.safePlace (s : State) (p : Nat) (half : Bool) (pa : Nat) : Nat :=
  s.preg p 27 + half.toNat * s.halfLen p + (s.safeGroups p).idxOf (groupOf pa) * groupBytes + pa % groupBytes

/-- The bytes of a checkpoint stand in a half of the safe area, in the memory of the buddy or the host. -/
def State.putSafe (s : State) (p : Nat) (half : Bool) (c : SafeCopy) : State :=
  let base := s.preg p 27 + half.toNat * s.halfLen p
  let rest := s.mem.filter fun (x : Host.Cell) => decide (x.1 < base) || decide (base + s.halfLen p ≤ x.1)
  { s with mem := Table.setAll rest Config.unlisted (c.mem.map fun (x : Host.Cell) => (s.safePlace p half x.1, x.2)) }

/-- Every frame of the partition is taken, and every byte is performed at the target, which a port reaches. -/
def State.safeHold (s : State) (p : Nat) : State :=
  let s := (s.ownFrames p).foldl (fun s f => s.safeTake p f) s
  let x := s.part p
  match x.safeRun with
  | none => s
  | some c =>
    if (s.safeTarget p = 2 ∧ !s.mgmt.held) ∨ (s.safeTarget p = 1 ∧ !s.linkReady) then s
    else
      let half := !x.halves.isEmpty && !x.safeHalf
      let s := (s.setPart p { x with
        halves := x.halves.put half.toNat c
        safeHalf := half
        safeRun := none }).setPr p 0x15A (BitVec.ofNat 64 c.num)
      c.mem.elim s fun m => s.putSafe p half m

/-- SAFE_CHECKPOINT_HOLD: the checkpoint holds; or, with the event's flag, one more frame is taken. -/
def execSafeCheckpointHold (s : State) : Out :=
  .next (if s.ev.flag then s.safeTake s.ev.part s.ev.addr else s.safeHold s.ev.part)

/-! ## Back to a snapshot (R361, R366) -/

/-- The lines of the log, each as its oldest entry has it. -/
def undoLines (l : List Undo) : Table (List Byte) :=
  l.foldl (fun m u => match m.get? u.line with
    | some _ => m
    | none => m.put u.line u.bytes) []

/-- The entries of the log, oldest epoch first. -/
def Partition.undoOrder (x : Partition) : List Undo := x.undo.mergeSort fun a b => decide (a.epoch ≤ b.epoch)

/-- A line at its home takes `bs`; no cached copy of it stays. -/
def State.putLine (s : State) (line : Nat) (bs : List Byte) : State :=
  let s := (cells (64 * line) bs).foldl (fun s (a, b) => (s.noteSafe (s.lineOwner a) a b).putByte a b) s
  State.dropFar { s with cores := s.cores.map fun (k, x) => (k, { x with near := x.near.filter (·.line != line) }) } line

/-- The spilled blocks of a snapshot's team stand in its spill area again, but for those that are poisoned there; the
others stand in its slot. -/
def State.putSpills (s : State) (t : Team) : State × Team :=
  let old := t.r.stack.reverse
  ((List.range t.r.blocks).foldl (fun s b =>
      let base := s.spillBase t b
      if (List.range 68).any fun k => s.poisoned (base + 32 * k) then s
      else s.writePhys base (((old.drop (8 * b)).take 8).flatMap REntry.bytes)) s,
    { t with r := { t.r with stack := (old.drop (8 * t.r.blocks)).reverse } })

/-- The team off its slot, its tiles in progress complete: its record, granules and image in memory. -/
def State.parkTeam (s : State) (t : Team) : State :=
  let (s, t) := s.drainTiles t
  let (s, t) := s.saveTeam t
  s.setTeam { t with
    was := if t.stat = .saved then t.was else t.stat
    stat := .saved }

/-- What a team of a snapshot is when it comes back: not stopped after a rollback, and at the end of a turn stopped where that finds
it so, `live` (R402). -/
def Team.returns (t : Team) (atEnd : Bool) (live : Option Team) : TStat :=
  match atEnd, live.bind Team.stopCause, if t.stat = .saved then t.was else t.stat with
  | true, some c, _ => .stopped c
  | _, _, .stopped c => if atEnd && live.isNone then .stopped c else .running
  | _, _, x => x

/-- A team of a snapshot comes back, saved. -/
def State.returnTeam (s : State) (was : TStat) (t : Team) : State :=
  let t := { t with
    wd := 0
    stat := was
    was := was
    migr := false
    engines := t.engines.map fun e => { e with fly := [] }
    touched := []
    touched0 := [] }
  let (s, t) := s.putSpills t
  s.parkTeam t

/-- A graph of a snapshot with the counters that no rollback restores (R366, R230): the restored segments count once more only
in HBMSEG, and the next spill opens a new one (log 151). -/
def Graph.keepCounts (g : Graph) (live : Option Graph) : Graph :=
  match live with
  | none => g
  | some l => { g with nodes := g.nodes.map fun (n, x) => (n, match l.nodes.get? n with
      | some y => { x with
          enq := y.enq
          launch := y.launch
          spillrec := y.spillrec
          fillrec := y.fillrec
          spillseg := y.spillseg
          hbmseg := y.hbmseg
          peakres := y.peakres
          peakspill := y.peakspill
          nseg := y.nseg
          segfill := 64
          hbm := [] }
      | none => x) }

/-- A region of a snapshot: floor, bases and records return (R336); one made since, if under the same index, has none
(R366). -/
def VRegion.back (live : VRegion) (old : Option VRegion) : VRegion :=
  let o := (old.filter (·.id == live.id)).getD VRegion.empty
  { live with
    floor := o.floor
    sfloor := o.sfloor
    base := o.base
    recs := o.recs }

/-- The reduction lines that partition `p` homes return to the state of a snapshot at the present homes, their gap timers as they
stood (R342). -/
def State.backLines (s : State) (p : Nat) (c : Snap) : State :=
  let s := { s with slices := s.slices.map fun (l, y) => (l, { y with
    lines := y.lines.filter fun (k, _) => decide (1000 ≤ l) || s.lineOwner (64 * k) != p
    waits := y.waits.filter fun w => w.p != p || w.dev.isSome }) }
  let s := c.lines.foldl (fun s (l, zs) => zs.foldl (fun s (k, z) =>
    s.setRline ((s.lineSlice (64 * k)).getD l) k { z with since := s.now - (c.at_ - z.since) }) s) s
  c.disc.foldl (fun s (l, n) => if s.sliceHolderOf l = p then s.modSlice l fun y => { y with disc := n } else s) s

/-- What the partition's agents have on its way is gone: buffered stores and the near copies that show them, bulk copies. -/
def State.dropWork (s : State) (p : Nat) : State :=
  let mine (e : WEntry) : Bool := (s.team? e.team).any (·.part == p)
  let shown (x : Core) (l : Nat) : Bool := x.wbuf.any fun e => mine e && e.bytes.any fun (a, _) => lineOf a == l
  { s with
    cores := s.cores.map fun (k, x) => (k, { x with
      wbuf := x.wbuf.filter fun e => !mine e
      near := x.near.filter fun c => c.ver.isSome || !shown x c.line })
    dies := s.dies.map fun (k, d) => (k, { d with copyQ := (d.copyQ.map fun (e, l) => (e, l.filter (·.p != p))).filter fun (_, l) => !l.isEmpty }) }

/-- A record of TYPE 1 is a control record (R381). -/
def isCtrl (w : List W32) : Bool := (w.getD 0 0).toNat / 2 ^ 28 == 1
def Ctrl.ofWords (w : List W32) : Ctrl :=
  ⟨(w.getD 4 0).toNat, (w.getD 0 0).toNat / 2 ^ 16 % 256, join64 (w.getD 5 0) (w.getD 6 0), join64 (w.getD 8 0) (w.getD 9 0)⟩

/-- A record of the world outside enters partition `p`: to the Mill or to its node's queue. -/
def State.admitRecord (s : State) (p : Nat) (w : List W32) : State :=
  if isCtrl w then s.modPart p fun x => { x with ctrl := x.ctrl ++ [Ctrl.ofWords w] }
  else
    let g := (w.getD 0 0).toNat / 2 ^ 16 % 256
    let n := (w.getD 0 0).toNat % 2 ^ 16
    s.enterQueue p g n w (s.boundOf p g n (recDepth w)) (some Rel.device)

def State.takeInput (s : State) (p : Nat) : Input → State
  | .record w => s.admitRecord p w
  | .arrival t off n => s.arriveAdd t off n
  | .rdo pa x idx => (s.contribute none true ⟨noLaneN, 0, (List.range 4).map (pa + ·), []⟩ x idx).getD s

/-- A turned partition logs an input of the world outside (R364). -/
def State.noteInput (s : State) (p : Nat) (i : Input) : State :=
  if s.turned p then s.modPart p fun x => { x with inputs := x.inputs ++ [(x.epoch, i)] } else s

/-- An input of the world outside is accepted. -/
def State.input (s : State) (p : Nat) (i : Input) : State := (s.noteInput p i).takeInput p i

/-- The partition that homes `pa`, a word of a reduction line. -/
def State.linePart (s : State) (pa : Nat) : Option Nat :=
  if s.space pa = .here then ((s.lineSlice pa).bind fun sl => s.rline? sl (lineOf (s.norm pa))).map fun _ => s.lineOwner pa else none

/-- A contribution that partition `q` accepted from outside it is an input (R342); none is of `p` to its own line. -/
def State.noteRdo (s : State) (p : Option Nat) (a : Acc) (x idx : W32) : State :=
  let pa := s.norm (a.pas.headD 0)
  match s.linePart pa with
  | some q => if p = some q then s else s.noteInput q (.rdo pa x idx)
  | none => s

def State.inputRecord (s : State) (p : Nat) (w : List W32) : State := s.input p (.record w)

/-- Teams of a live partition that the rollback finds stopped, as the snapshot has them. -/
def State.clearedStops (s : State) (p : Nat) (c : Snap) : List Team :=
  s.teams.filterMap fun (k, t) => match t.part == p, t.stat, c.teams.get? k with
    | true, .stopped _, some u => some u
    | _, _, _ => none

/-- Lines the log holds: of memory, of the scratch of the snapshot's teams, live or ended since. -/
def State.undoCount (s : State) (p : Nat) (c : Snap) : Nat :=
  let x := s.part p
  let live := s.teams.filterMap fun (k, t) => if t.part == p && (c.teams.get? k).isSome then
    some (t.touched.map (·.1) ++ t.touched0.map (·.2)).eraseDups.length else none
  (undoLines x.undoOrder).length + live.sum +
    ((x.ended.filter fun e => (c.teams.get? e.team.toNat).isSome).map fun e => (e.lines.map (·.2)).eraseDups.length).sum

/-- After a return the queues have homes (R257), the spilled records their lines of the pool, and the residents fit the cap
(R229). -/
def State.spillBack (s : State) (p : Nat) : State :=
  let s := s.rehome p
  let s := (s.part p).graphs.foldl (fun s (_, g) => g.nodes.foldl (fun s (_, n) => n.q.foldl (fun s r =>
    match r.spill with
    | some (_, k) => s.writeSpill p k r.w
    | none => s) s) s) s
  s.spillDown p (s.part p).residents

/-- Word 7 of the entry of a region that has been destroyed since a checkpoint: LIVE = 0, whatever the log gave back (R366). -/
def State.noteDead (s : State) (p : Nat) (c : Snap) : State :=
  c.regions.foldl (fun s (r, _) => if s.liveRegion p r then s else s.writeVirt p (s.vrEntry p r + 56) (leBytes 8 0)) s

/-- Slices that have come since a checkpoint hold the floors of its regions, of one that had reached only some of the slices then the
highest (R337, log 116). -/
def State.backFloors (s : State) (p : Nat) (c : Snap) : State :=
  c.regions.foldl (fun s (r, o) =>
    let f := o.sfloor.foldl (fun (m : W32) (y : Nat × W32) => if m < y.2 then y.2 else m) o.floor
    (s.regionHomes p (s.region p r)).foldl (fun s l =>
      if (o.sfloor.get? l).isSome || !s.liveRegion p r then s else s.takeFloor p r f l) s) s

/-- Partition `p` is as snapshot `c` has it, its teams saved: after a rollback, or at the end of a turn. -/
def State.backTo (s : State) (p : Nat) (c : Snap) (atEnd : Bool) : State :=
  let x := s.part p
  let n := s.undoCount p c
  let stops := if atEnd then [] else s.clearedStops p c
  let teams := c.teams.map fun (k, t) => (t.returns atEnd (s.teams.get? k), t)
  let s := s.teams.foldl (fun s (_, t) => if t.part == p && t.stat != .saved then s.traceUni t 3 else s) s
  let s := s.dropWork p
  let s := (undoLines x.undoOrder).foldl (fun s (l, bs) => s.putLine l bs) s
  let s := { s with teams := s.teams.filter fun (_, t) => t.part != p }
  let s := s.backLines p c
  let s := s.setPart p { x with
    graphs := c.graphs.map fun (k, g) => (k, g.keepCounts (x.graphs.get? k))
    flying := c.flying
    held := c.held ++ x.held.filter fun a => a.kind.isReleased
    ctrl := c.ctrl
    regions := x.regions.map fun (k, r) => (k, r.back (c.regions.get? k))
    leases := c.leases
    claims := []
    epoch := c.num
    cuts := []
    undo := []
    egress := []
    ended := []
    redirect := []
    ckReq := false }
  let s := teams.foldl (fun s (was, t) => s.returnTeam was t) s
  let s := x.inputs.foldl (fun s (e, w) => if c.num ≤ e then s.takeInput p w else s) s
  let s := s.modPart p fun y => { y with inputs := x.inputs.filterMap fun (e, w) => if c.num ≤ e then some (c.num, w) else none }
  let s := stops.foldl (fun s t => s.stopRecord t 0x82) s
  let s := x.regions.foldl (fun (s : State) (r, live) =>
    let old := ((c.regions.get? r).filter (·.id == live.id)).getD VRegion.empty
    (s.dropVersions p r fun g v => old.exist g v != BitVec.allOnes 64).noteRegion p r true) s
  let s := (s.noteDead p c).backFloors p c
  (((s.bump p 0x157 n).clearFilters).spillBack p).refresh p

/-! ## Turns (R359, R362) -/

def State.tlen (s : State) (p : Nat) : Nat := 1000 * (s.preg p 20 % 0x1_0000)
def State.slack (s : State) (p : Nat) : Nat := 1000 * (s.preg p 20 / 0x1_0000 % 0x1_0000)

/-- The member has a team or a queued record. -/
def State.hasWork (s : State) (p : Nat) : Bool :=
  (s.teams.any fun (_, t) => t.part == p) || !(s.part p).flying.isEmpty ||
    (s.part p).graphs.any fun (_, g) => g.nodes.any fun (_, n) => !n.q.isEmpty

def Snap.idle (c : Snap) : Bool :=
  c.teams.isEmpty && c.flying.isEmpty && c.graphs.all fun (_, g) => g.nodes.all fun (_, n) => n.q.isEmpty

def State.othersWork (s : State) (p : Nat) : Bool := (List.range 17).any fun q => q != p && s.sameGroup p q && s.hasWork q

/-- A grid checkpoint falls within SLACK of the turn's end. -/
def State.gridNear (s : State) (p : Nat) : Bool :=
  let x := s.part p
  let e := x.turnEnd
  let k := (e + s.slack p - x.turnStart) / s.ckint p
  decide (1 ≤ k) && decide (e - s.slack p ≤ x.turnStart + k * s.ckint p)

/-- Why a turn may end now. -/
inductive TurnEnd where
  /-- A grid checkpoint within SLACK of its end has committed. -/
  | commit
  /-- Its end has come, and no grid checkpoint lies within SLACK. -/
  | late
  /-- A grid checkpoint before its end found the member without work. -/
  | idle
  deriving DecidableEq, Repr

def State.turnOver (s : State) (p : Nat) : Option TurnEnd :=
  let x := s.part p
  match x.onTurn, x.committed with
  | true, some c =>
    let fresh := c.grid && decide (x.turnStart < c.at_)
    if fresh && decide (x.turnEnd - s.slack p ≤ c.at_) && decide (c.at_ ≤ x.turnEnd + s.slack p) then some .commit
    else if !s.gridNear p && decide (x.turnEnd ≤ s.now) then some .late
    else if fresh && decide (c.at_ < x.turnEnd) && c.idle then some .idle
    else none
  | _, _ => none

/-- CHECKPOINT_COMMIT. Once a commit ends the turn, none follows it in that turn (R362). -/
def State.checkpointCommit (s : State) (p : Nat) : State :=
  match (s.part p).cuts with
  | [] => s
  | c :: _ =>
    let ended := match s.turnOver p with
      | some .commit | some .idle => true
      | _ => false
    if !ended && (c.teams.all fun (_, t) => s.teamSettled t) && s.emissionsSettled p c && s.buffersSettled p c.num &&
        s.copiesSettled p && s.hostReady p c.num then
      s.commit p c
    else s
def execCheckpointCommit (s : State) : Out := .next (s.checkpointCommit s.ev.part)

/-- The partition is back at its last committed checkpoint. -/
def State.toCommitted (s : State) (p : Nat) (atEnd : Bool) : State :=
  match (s.part p).committed with
  | some c => s.backTo p c atEnd
  | none => s

/-- ROLLBACK: at the end of a turn with no grid checkpoint near. -/
def State.rollback (s : State) (p : Nat) : State :=
  if s.turnOver p = some .late ∧ s.othersWork p ∧ !(s.part p).rolled then
    ((s.toCommitted p false).bump p 0x158 1).modPart p fun x => { x with rolled := true }
  else s
def execRollback (s : State) : Out := .next (s.rollback s.ev.part)

def State.closeTurn (s : State) (p : Nat) : State :=
  (s.modPart p fun x => { x with
    onTurn := false
    rolled := false }).refresh p

/-- TURN_END. Where no other member has work, a turn that would end goes on. -/
def State.turnEnds (s : State) (p : Nat) : State :=
  match s.turnOver p with
  | none => s
  | some .idle => (s.toCommitted p true).closeTurn p
  | some why =>
    if !s.othersWork p && !(s.part p).rolled then
      s.modPart p fun x => { x with turnEnd := x.turnEnd + s.tlen p }
    else
      match why with
      | .late => (s.rollback p).closeTurn p
      | _ => (s.toCommitted p true).closeTurn p
def execTurnEnd (s : State) : Out := .next (s.turnEnds s.ev.part)

/-- The cuts on the grid that are due are taken, at most `n`. -/
def State.gridCuts (s : State) (p : Nat) : Nat → State
  | 0 => s
  | n + 1 =>
    match s.cutDue p false with
    | some (_, some _) => (s.checkpointCut p false).gridCuts p n
    | _ => s

/-- As time passes, a turned partition's cuts on its grid fall at their times (R360), and its turn ends when it is over (R362). -/
def State.turnDue (s : State) (p : Nat) : State :=
  if !s.turned p || !(s.part p).onTurn then s
  else (s.gridCuts p ((s.now - (s.part p).turnStart) / s.ckint p)).turnEnds p

/-- The members of `p`'s group that have work, in the order of their turns. -/
def State.turnOrder (s : State) (p : Nat) : List Nat :=
  let ms := (List.range 17).filter fun q => s.sameGroup p q
  let last := ms.find? fun q => (s.part q).lastTurn
  let ready := ms.filter fun q => s.hasWork q && !(s.part q).frozen && !(s.part q).freezing
  match last with
  | none => ready
  | some l => (ready.filter (decide <| l < ·)) ++ ready.filter (decide <| · ≤ l)

/-- TURN_START: the next member with work takes the cores; its teams are then restored one by one. -/
def State.turnStarts (s : State) (p : Nat) : State :=
  if ((List.range 17).any fun q => s.sameGroup p q && (s.part q).onTurn) || (s.turnOrder p).head? != some p then s
  else
    let s := (List.range 17).foldl (fun s q =>
      if s.sameGroup p q then s.modPart q fun x => { x with lastTurn := q == p } else s) s
    (s.modPart p fun x => { x with
      onTurn := true
      turnStart := s.now
      turnEnd := s.now + s.tlen p
      gridPos := 0 }).refresh p
def execTurnStart (s : State) : Out := .next (s.turnStarts s.ev.part)

end Sys2Proof.Machine
end

