-- ==== Sys2Proof/Machine/Partitions.lean ====
section
/-!
DEFINITION. A partition stopped and started (R368, R369, R372, R413), and its teams moved: saved off a core (R351), restored
(R340), the arrival redirect (R365).
-/
namespace Sys2Proof.Machine

/-! ## Teams off their cores -/

/-- The team's core is on its way out of the partition (R349, R353). On a core that has failed the team is killed (R428). -/
def State.coreLeaves (s : State) (t : Team) : Bool := s.outgoing t.part t.core && !s.mgmt.failedCores.getLsbD t.core

/-- TEAM_MIGRATE: a team on a core that leaves stops issuing, is brought to its save point, and is saved once at rest and fenced
(R350, R147). -/
def State.teamMigrate (s : State) (id : TeamId) : State :=
  match s.team? id with
  | none => s
  | some t =>
    if t.stat = .saved ∨ !s.coreLeaves t then s
    else
      let (s, t) := s.toSavePoint t
      let t := { t with migr := true }
      if s.atRest t && s.fenced t then
        (match t.stat with
          | .stopped _ => s
          | _ => s.traceUni t 3).parkTeam t
      else s.setTeam t
def execTeamMigrate (s : State) : Out := .next (s.teamMigrate s.ev.team)

/-- Saved teams of a partition are restored in ascending sr.team, while it runs (R340). -/
def State.mayRestore (s : State) (t : Team) : Bool :=
  let x := s.part t.part
  t.stat == .saved && !x.frozen && !x.freezing && (!s.turned t.part || (x.onTurn && !x.rolled)) &&
    (!x.redirect.any fun r => r.1 == t.id) &&
    s.teams.all fun (_, u) => u.part != t.part || u.stat != .saved || decide (t.id ≤ u.id)

/-- The engines and rings of the new mapping (R194, R211). -/
def Team.remap (t : Team) (engs rings : List Nat) : Team :=
  { t with
    engines := (t.engines.zip engs).map fun (e, k) => { e with phys := k }
    rings := (t.rings.zip rings).map fun (r, k) => { r with phys := k } }

/-- A team is on its slot again: what runs goes on at its PC, with the arrival test of R103. -/
def State.goesOn (s : State) (t : Team) : State :=
  match t.stat with
  | .stopped _ => s.setTeam t
  | .running => (s.tracePacket t t.r.pc ⟨1, 3, []⟩).backOnSlot t
  | _ => (s.tracePacket t t.r.pc ⟨1, 3, []⟩).setTeam t

/-- The acquire of a team that comes to core `c`: no copy there is older than what it has performed or observed (R147, R142). -/
def State.acquireAt (s : State) (c old : Nat) : State :=
  let s := s.dropNear c
  if dieOfCore c = dieOfCore old then s else s.dropFarPeers (dieOfCore c)

/-- TEAM_RESTORE (R340, R242): by rule 2 of R265, every written entry absent. -/
def State.teamRestore (s : State) (id : TeamId) : State :=
  match s.team? id with
  | none => s
  | some t =>
    if !s.mayRestore t then s
    else
      match s.ruleTwo (t.need s) (s.candidates t.part none) with
      | none => s
      | some (c, k) =>
        let r := s.residents c
        let engs := freeOf 4 (r.flatMap fun u => u.engines.map (·.phys)) t.engines.length
        let rings := freeOf 32 (r.flatMap fun u => u.rings.map (·.phys)) t.rings.length
        let s := if t.migr && c != t.core then s.bump t.part 0x155 1 else s
        (s.acquireAt c t.core).goesOn { t.remap engs rings with
          core := c
          slot := k
          stat := t.was
          migr := false
          wd := 0 }
def execTeamRestore (s : State) : Out := .next (s.teamRestore s.ev.team)

/-- ARRIVAL_REDIRECT: the oldest addition goes to the arrival word in the team's image. -/
def State.arrivalRedirect (s : State) (p : Nat) : State :=
  match (s.part p).redirect with
  | [] => s
  | (id, off, n) :: r =>
    let s := s.modPart p fun x => { x with redirect := r }
    match s.team? id with
    | none => s
    | some t =>
      let t := t.engineArrive off n
      (s.setTeam t).writePhys (s.imageBase t + 0x1_8000 + off) (t.scrRead off 16)
def execArrivalRedirect (s : State) : Out := .next (s.arrivalRedirect s.ev.part)

/-! ## Freeze and thaw (R368, R372, R413) -/

/-- FRZ = 1. -/
def State.freeze (s : State) (p : Nat) : State :=
  if (s.part p).frozen then s else (s.modPart p fun x => { x with freezing := true }).refresh p

/-- A team of a freezing partition is brought to its save point. -/
def State.toSavePoints (s : State) (p : Nat) : State :=
  s.teams.foldl (fun s (_, t) =>
    if t.part = p ∧ t.stat ≠ .saved then
      let (s, t) := s.toSavePoint t
      s.setTeam t
    else s) s

/-- A team at rest stays on its slot, its granules in the save area. -/
def State.freezeTeam (s : State) (t : Team) : State :=
  match t.stat with
  | .saved => s
  | .stopped _ => s
  | _ =>
    let s := s.traceUni t 3
    let (s, t) := s.drainTiles t
    let (s, t) := s.saveGranules (t.landWhere fun _ => true)
    s.setTeam t

/-- FREEZE_COMPLETE. -/
def State.freezeComplete (s : State) (p : Nat) : State :=
  if !(s.part p).freezing then s
  else
    let s := s.toSavePoints p
    if s.teams.all fun (_, t) => t.part != p || t.stat == .saved || s.atRest t then
      let s := s.teams.foldl (fun s (_, t) => if t.part == p then s.freezeTeam t else s) s
      (s.modPart p fun x => { x with
        freezing := false
        frozen := true
        gtFrz := s.gtime p
        lostFrz := s.pr p 0x150 }).refresh p
    else s
def execFreezeComplete (s : State) : Out := .next (s.freezeComplete s.ev.part)

/-- GTOFF rises so that the next read of sr.gtime returns GTLAST + 1. -/
def State.raiseTime (s : State) (p : Nat) : State :=
  if s.gtime p ≤ s.pr p 0x2016 then s.setPr p 0x2015 (s.pr p 0x2016 + 1 - s.mr 0x33) else s

/-- The counters that are unavailable. -/
def State.unavail (s : State) (p : Nat) : List Nat := (List.range 8).filter fun k => (s.pr p (0x500 + k)).getLsbD 63

/-- A device record to a node that each loaded graph names in word 4 of its object, at bit `lo` (R249). -/
def State.sendGraphs (s : State) (p lo : Nat) (payload : List W32) : State :=
  (s.part p).graphs.foldl (fun s (g, x) =>
    let n := fld x.obj 4 (lo + 15) lo
    if n = 0xFFFF then s else s.sendDev p g n payload) s

/-- The notice of a changed catalogue (R413). -/
def State.catalogueNotice (s : State) (p : Nat) : State :=
  let us := s.unavail p
  if us.all fun k => (s.part p).known.testBit k then s
  else
    let ids : List W32 := (List.range 8).map fun k => if us.contains k then BitVec.ofNat 32 (bitsOf (s.pr p (0x500 + k)) 15 0) else 0
    let pay : List W32 := [1, BitVec.ofNat 32 (us.map (2 ^ ·)).sum] ++ ids ++ [BitVec.ofNat 32 (bitsOf (s.mr 0x31) 15 0), 0]
    ((s.sendGraphs p 16 pay).sendSup p pay).modPart p fun x => { x with known := (us.map (2 ^ ·)).sum }

/-- FRZ = 0: the teams go on where they stood. -/
def State.thaw (s : State) (p : Nat) : State :=
  let x := s.part p
  if !x.frozen && !x.freezing then s
  else
    let was := x.frozen
    let s := s.setPart p { x with
      frozen := false
      freezing := false
      resetReq := false }
    if was then
      let s := s.raiseTime p
      let s := s.teams.foldl (fun s (_, t) =>
        match t.part == p, t.stat with
        | false, _ | _, .saved | _, .stopped _ => s
        | _, _ => s.goesOn { t with wd := 0 }) s
      (s.catalogueNotice p).refresh p
    else s.refresh p

/-! ## The dump (R369) -/

/-- The virtual address of a physical line of a region. -/
def State.lineVa (s : State) (p : Nat) (x : VRegion) (line : Nat) : Nat :=
  ((List.range (x.dlen / pageBytes)).findSome? fun k =>
    match s.combined p (x.dbase + k * pageBytes) with
    | some e =>
      let pa := e.pbase + (x.dbase + k * pageBytes - e.vbase)
      if pa ≤ 64 * line ∧ 64 * line < pa + pageBytes then some (x.dbase + k * pageBytes + (64 * line - pa)) else none
    | none => none).getD 0

/-- The directory entries of region `r`, ascending. -/
def State.dirEntries (s : State) (p r : Nat) (x : VRegion) : List (List Byte) :=
  let es := (x.recs.map fun q => (s.lineVa p x q.g, q)).mergeSort fun a b =>
    decide (a.1 < b.1) || (a.1 == b.1 && decide (a.2.v ≤ b.2.v))
  es.map fun (va, q) => leBytes 8 va ++ leBytes 8 (q.v.toNat + 2 ^ 32 * r) ++ leBytes 8 q.mask.toNat ++
    leBytes 8 (x.baseOf q.g).toNat

/-- The sections of the dump, entry by entry. -/
def State.dumpTeams (s : State) (p : Nat) : List (List Byte) :=
  s.teams.filterMap fun (_, t) => if t.part == p then some (t.record ++ t.image t.scrS) else none
def Partition.dumpRecords (x : Partition) : List (List Byte) :=
  x.graphs.flatMap fun (_, g) => g.nodes.flatMap fun (_, n) => n.q.map fun r => r.w.flatMap fun w => leBytes 4 w.toNat
def State.dumpRings (s : State) (p : Nat) : List (List Byte) :=
  (s.part p).rings.map fun (_, r) => (List.range 8).flatMap fun i =>
    leBytes 8 ((s.readVirt p (va56 (r.cb.toNat + 8 * i)) 8).getD 0)
def State.dumpDirs (s : State) (p : Nat) : List (List Byte) := (s.part p).regions.flatMap fun (k, r) => s.dirEntries p k r

/-- Entries while they end at or below `room`, and whether one did not. -/
def fitEntries (room : Nat) : List (List Byte) → List Byte × Bool
  | [] => ([], false)
  | e :: r =>
    if room < e.length then ([], true)
    else
      let y := fitEntries (room - e.length) r
      (e ++ y.1, y.2)

/-- The capture of a frozen partition into its dump buffer. -/
def State.capture (s : State) (p : Nat) : State :=
  let x := s.part p
  let secs := [s.dumpTeams p, x.dumpRecords, s.dumpRings p, s.dumpDirs p]
  let sizes := secs.map fun l => l.flatten.length
  let offs := (List.range 4).map fun k => 64 + (sizes.take k).sum
  let body := fitEntries (s.preg p 19 - 64) secs.flatten
  let short := decide (s.preg p 19 < 64) || body.2
  let counts := secs.map (·.length)
  let head := leBytes 8 (p + if short then 256 else 0) ++ leBytes 8 x.gtFrz.toNat ++
    (counts.zip offs).flatMap (fun (n, o) => leBytes 8 (n + 2 ^ 32 * o)) ++ leBytes 8 x.lostFrz.toNat ++
    leBytes 8 (64 + body.1.length)
  let s := if s.preg p 19 < 64 then s else s.writePhys (s.preg p 18) (head ++ body.1)
  s.modPart p fun y => { y with
    capdone := true
    trunc := short }

/-! ## The clear (R368) -/

/-- Cores and slices of the partition hold nothing of before; on cores where another member of its turn group runs, that member's
work stays. -/
def State.scrubUnits (s : State) (p : Nat) : State :=
  { s with
    cores := s.cores.filterMap fun (c, y) =>
      if !s.holdsCore p c then some (c, y)
      else if (s.residents c).isEmpty && y.wbuf.isEmpty then none
      else some (c, { y with
        near := []
        tlb := y.tlb.filter (·.p != p) })
    slices := s.slices.filterMap fun (l, y) =>
      if s.sliceHolderOf l = p then (if y.disc = 0 then none else some (l, { Slice.reset with disc := y.disc }))
      else some (l, { y with
        lines := y.lines.filter fun (_, z) => z.p != p
        waits := y.waits.filter fun w => w.p != p }) }

/-- What the clear leaves of the partition itself: its registers, units, rings. -/
def Partition.cleared' (x : Partition) : Partition :=
  { x with
    graphs := []
    claims := []
    leases := []
    regions := []
    held := x.held.filter fun a => a.kind.isReleased
    flying := []
    ctrl := []
    reports := []
    redirect := []
    cuts := []
    undo := []
    egress := []
    inputs := []
    ended := []
    ckReq := false
    safeRun := none
    resetReq := false
    rolled := false
    onTurn := false }

/-- Teams, queues, reservations, leases, lines, wait places, regions, graphs, CREDUSE and LOSTREC go. -/
def State.clearPart (s : State) (p : Nat) : State :=
  let s := s.teams.foldl (fun s (_, t) => if t.part == p && t.stat != .saved then s.traceUni t 2 else s) s
  let s := (s.part p).regions.foldl (fun s (r, _) => (s.noteRegion p r false).dropVersions p r fun _ _ => true) s
  let s := s.dropWork p
  let s := (State.scrubUnits { s with teams := s.teams.filter fun (_, t) => t.part != p } p).clearFilters
  let s := (s.setPart p (s.part p).cleared').setPr p 0x150 0
  s.modPart p fun x => { x with committed := if s.turned p then some (s.snapOf p x.epoch s.now false false) else none }

/-- PARTITION_CLEAR_DONE: RST of a frozen partition. -/
def State.partitionClear (s : State) (p : Nat) : State :=
  let x := s.part p
  if x.frozen && x.resetReq then
    ((s.capture p).clearPart p).modPart p fun y => { y with cleared := true }
  else s
def execPartitionClearDone (s : State) : Out := .next (s.partitionClear s.ev.part)

/-- PSTAT. UNDOUSE is a free value while the log holds an entry: no rule gives the size of one (log 6). -/
def State.pstat (s : State) (p : Nat) : State × W64 :=
  let x := s.part p
  let low := x.frozen.toNat + 2 * x.capdone.toNat + 4 * x.trunc.toNat + 8 * x.cleared.toNat + 16 * x.onTurn.toNat
  if x.undo.isEmpty then (s, BitVec.ofNat 64 low)
  else ({ s with free := s.free + 1 }, BitVec.ofNat 64 (low + 2 ^ 16 * ((Config.freeWord s.free).toNat % 2 ^ 32)))

/-- A PCTL write: FRZ and RST together freeze first, then capture and clear. -/
def State.pctl (s : State) (p : Nat) (v : W64) : Option State :=
  let rst := v.getLsbD 1
  if rst && !(s.part p).frozen && !v.getLsbD 0 then none
  else
    let s := if v.getLsbD 0 then s.freeze p else if rst then s else s.thaw p
    some (if rst then s.modPart p fun x => { x with
        resetReq := true
        capdone := false
        trunc := false
        cleared := false } else s)

end Sys2Proof.Machine
end

