-- ==== Sys2Proof/Machine/Units.lean ====
section
/-!
DEFINITION. Units on the move (R345-R358, R226, R227): `presize`, `plend`, `prevoke` and what ends them, dual-hash windows,
page migration, `pgret`.
-/
namespace Sys2Proof.Machine

/-! ## Line state between homes (R354, R337, R341) -/

/-- The lines that stand at the old homes of window `w` and have another home now. -/
def State.leftIn (s : State) (w : DWin) : List Nat :=
  (w.grans.map (·.1) ++ w.olds.flatten.eraseDups.flatMap fun l =>
    (s.slice l).lines.map (·.1) ++ (s.slice l).waits.map (·.granule) ++ (s.slice l).cached).filter fun k =>
    s.lineOwner (64 * k) == w.p && dieOfPa (64 * k) == w.die && (s.oldHome k).isSome

/-- The line at slice `o` has state: a lease's pin, reduction state, wait places or directory records (R354). -/
def State.hasState (s : State) (o line : Nat) : Bool :=
  (s.rline? o line).isSome || ((s.slice o).waits.any fun w => w.granule == line) || s.pinnedLines.contains line ||
    s.wins.any fun (_, w) => w.grans.any (·.1 == line)

/-- A revocation or a failure takes slice `o` from its holder. -/
def State.revoked (s : State) (o : Nat) : Bool := s.ops.any fun (_, q) => q.kind != .resize && q.outSlices.testBit o

/-- The sweep of a window takes a line: one with state moves; one without is dropped where it is clean, and where it is dirty moves,
or in a revocation is written back (R354, R349). Which bytes are dirty the model does not hold: the schedule says (log 107). -/
def State.sweepLine (s : State) (line : Nat) (clean : Bool) : State :=
  match s.oldHome line with
  | some o =>
    if (clean || s.revoked o || (s.homeSlice (64 * line)).isNone) && !s.hasState o line then (s.evictLine line).dropCached o line
    else s.moveLine line
  | none => s

/-- DUAL_HASH_SWEEP: the sweep of window `i` takes a line. -/
def execDualHashSweep (s : State) : Out :=
  .next (match s.wins.get? s.ev.idx with
    | some w => if (s.leftIn w).contains s.ev.addr then s.sweepLine s.ev.addr s.ev.flag else s
    | none => s)

/-- WINDOW_CLOSE: every sweep has ended. -/
def State.windowClose (s : State) (i : Nat) : State :=
  match s.wins.get? i with
  | some w => if (s.leftIn w).isEmpty then { s with wins := s.wins.del i } else s
  | none => s
def execWindowClose (s : State) : Out := .next (s.windowClose s.ev.idx)

/-- The regions that partition `p`'s lines belong to, by partition and number. -/
def State.regionsOver (s : State) (p : Nat) : List (Nat × Nat) :=
  (List.range 17).flatMap fun q => (s.part q).regions.filterMap fun (r, x) =>
    if (s.rangeOwners q x.dbase x.dlen).contains p then some (q, r) else none

/-- The slices of a new hash set hold the floors of the live regions before they home any line (R337): of a floor that has
reached only some of the slices before, all take it (log 116). -/
def State.seedFloors (s : State) (p : Nat) (old new_ : List Nat) : State :=
  (s.regionsOver p).foldl (fun s (q, r) =>
    let x := s.region q r
    let f := old.foldl (fun (m : W32) l => if m < x.floorAt l then x.floorAt l else m) x.floor
    new_.foldl (fun s l => s.takeFloor q r f l) s) s

/-- The granules with directory records among the lines of partition `p` on die `d`, with the slices `old` that home them. -/
def State.gransOn (s : State) (p d : Nat) (old : List Nat) : List (Nat × Nat) :=
  ((s.parts.flatMap fun (_, x) => x.regions.flatMap fun (_, y) => y.recs.map (·.g)).eraseDups.filter fun g =>
    s.lineOwner (64 * g) == p && dieOfPa (64 * g) == d).filterMap fun g => (homeIn old (64 * g)).map fun o => (g, o)

/-- A window opens on each die whose hash set has changed for `p`; `old` gives the sets before. A set that changes while a
window is open on the die joins that window, for at most one is open there (R354, log 116). -/
def State.openWindows (s : State) (p : Nat) (old : Nat → List Nat) : State :=
  (List.range 4).foldl (fun s d =>
    let new_ := s.slicesOn p d
    if old d = new_ then s
    else
      let s := if (old d).isEmpty then s else match s.wins.find? fun (_, w) => w.p == p && w.die == d with
        | some (i, w) => { s with wins := s.wins.put i { w with
            olds := old d :: w.olds
            grans := w.grans ++ (s.gransOn p d (old d)).filter fun x => (w.grans.lookup x.1).isNone } }
        | none => { s with
          wins := s.wins.put s.nwins ⟨p, d, [old d], s.gransOn p d (old d)⟩
          nwins := s.nwins + 1 }
      s.seedFloors p (old d) new_) s

/-- A window for `p` is open. -/
def State.windowed (s : State) (p : Nat) : Bool := s.wins.any fun (_, w) => w.p == p
def State.windowedOn (s : State) (p d : Nat) : Bool := s.wins.any fun (_, w) => w.p == p && w.die == d

/-- What slices hold of lines in channel groups that change hands goes with them (log 116). -/
def State.forgetGroups (s : State) (gs : List Nat) : State :=
  let here (l : Nat) : Bool := decide (64 * l < localTop) && gs.contains (groupOf (64 * l))
  { s with
    slices := s.slices.map fun (k, x) => (k, { x with
      cached := x.cached.filter fun l => !here l
      lines := x.lines.filter fun (l, _) => !here l
      waits := x.waits.filter fun w => !here w.granule })
    wins := s.wins.map fun (k, w) => (k, { w with grans := w.grans.filter fun x => !here x.1 }) }

/-! ## Unit blocks (R226) -/

namespace UnitBlock
def p (w : List W64) : Nat := fld w 0 4 0
def src (w : List W64) : Nat := fld w 0 12 8
def cores (w : List W64) : Nat := fld w 1 47 0
def slices (w : List W64) : Nat := (wd w 2).toNat + 2 ^ 64 * fld w 3 31 0
def groups (w : List W64) : Nat := (wd w 4).toNat + 2 ^ 64 * (wd w 5).toNat
def link (w : List W64) : Nat := fld w 6 23 16
def gran (w : List W64) : Nat := fld w 6 15 0
end UnitBlock

/-- The block passes R226; otherwise fault 0x62. -/
def unitOk (k : OpKind) (w : List W64) : Bool :=
  fld w 0 63 13 == 0 && fld w 0 7 5 == 0 && fld w 1 63 48 == 0 && fld w 3 63 32 == 0 && fld w 6 63 24 == 0 &&
    decide (UnitBlock.p w ≤ 16) &&
    (match k with
      | .resize => UnitBlock.src w == 0 && decide (UnitBlock.gran w ≤ 1024)
      | .lend | .revoke | .fail => decide (UnitBlock.src w ≤ 16) && UnitBlock.p w != UnitBlock.src w && UnitBlock.groups w == 0
          && UnitBlock.link w == 0 && UnitBlock.gran w == 0)

def bitList (n bits : Nat) : List Nat := (List.range n).filter fun k => bits.testBit k
def bitSum (l : List Nat) : Nat := (l.map (2 ^ ·)).sum

/-- Word 7. -/
def word7 (time why state : Nat) : W64 := BitVec.ofNat 64 (time % 2 ^ 48 * 2 ^ 16 + why * 2 ^ 8 + state)

/-- The device writes word 7 of the block of an operation. -/
def State.putWord7 (s : State) (at_ : Option (Nat × W64)) (v : W64) : State :=
  match at_ with
  | some (p, va) => s.writeVirt p (va.toNat + 56) (le8 v)
  | none => { s with mgmt := { s.mgmt with stage := s.mgmt.stage.set 0 7 v } }

/-- The die, or the stack, of a unit is ready (R426). -/
def State.coreReady (s : State) (c : Nat) : Bool := s.dieReady (dieOfCore c) && !s.mgmt.failedCores.getLsbD c
def State.sliceReady (s : State) (l : Nat) : Bool := s.dieReady (dieOfSlice l) && !s.mgmt.failedSlices.getLsbD l
def State.groupReady (s : State) (g : Nat) : Bool := s.mgmt.ready.getLsbD (8 + g / 8)

/-- A running operation names `p`. -/
def State.opNames (s : State) (p : Nat) : Bool :=
  s.ops.any fun (_, o) => o.kind != .fail && (o.p == p || (o.kind != .resize && o.src == p))

/-! ## Idle units (R346) -/

def State.coreIdle (s : State) (c : Nat) : Bool :=
  (s.residents c).isEmpty && !(s.parts.any fun (_, x) => x.claims.any fun (k, _) => k == c) &&
    !s.ops.any fun (_, o) => o.outCores.testBit c || (UnitBlock.cores o.words).testBit c

/-- The partition's leases pin a line in slice `l`. -/
def State.leasedIn (s : State) (p l : Nat) : Bool :=
  (s.part p).leases.any fun e => (s.leaseLines p e).any fun k => s.homeSlice (64 * k) == some l

def State.sliceIdle (s : State) (p l : Nat) : Bool :=
  (s.slice l).lines.isEmpty && (s.slice l).waits.isEmpty && !s.leasedIn p l &&
    !(s.part p).regions.any fun (_, x) => x.recs.any fun q => s.homeSlice (64 * q.g) == some l

/-! ## The host stage's leaves (R357) -/

/-- An entry of a host-stage table. -/
def State.hostEntry (s : State) (base k : Nat) : Option W64 :=
  let e := BitVec.ofNat 64 (s.readPhys (base + 8 * k) 8)
  if pteV e then some e else none

/-- The leaves of partition `p`'s host stage: entry address, entry, page size. -/
def State.hostLeaves (s : State) (p : Nat) : List (Nat × W64 × Nat) :=
  let root := s.pr p 0x200B
  if !root.getLsbD 0 then []
  else
    (List.range 16).flatMap fun i =>
      match s.hostEntry (pteAddr root) i with
      | none => []
      | some e1 => (List.range 32768).flatMap fun j =>
        match s.hostEntry (pteAddr e1) j with
        | none => []
        | some e2 =>
          if pteLeaf e2 then [(pteAddr e1 + 8 * j, e2, 2 ^ 33)]
          else (List.range 32768).filterMap fun k =>
            (s.hostEntry (pteAddr e2) k).map fun e3 => (pteAddr e2 + 8 * k, e3, 2 ^ 18)

/-- The leaf maps part of group `g`. -/
def leafIn (g : Nat) (l : Nat × W64 × Nat) : Bool :=
  (overlapAt (pteAddr l.2.1) l.2.2 (g * groupBytes) groupBytes).isSome && decide (pteAddr l.2.1 < localTop)

/-- A host stage that is off maps every group. -/
def State.mapsGroup (s : State) (p g : Nat) : Bool := !(s.pr p 0x200B).getLsbD 0 || (s.hostLeaves p).any (leafIn g)

/-- A physical range of the partition (R347) touches the group. -/
def State.rangeIn (s : State) (p g : Nat) : Bool :=
  [(s.preg p 12, 64 * s.preg p 4), (s.preg p 13, s.preg p 14 * 0x5_0000), (s.preg p 15, s.preg p 14 * s.imageLen p),
    (s.preg p 16, s.preg p 17), (s.preg p 18, s.preg p 19)].any fun (b, n) =>
    (overlapAt b n (g * groupBytes) groupBytes).isSome

/-! ## `presize` (R352, R353) -/

def State.ownCores (s : State) (p : Nat) : List Nat := (List.range 48).filter (s.ownsCore p)
def State.ownSlices (s : State) (p : Nat) : List Nat := (List.range 96).filter fun l => s.sliceOwnerOf l == p
def State.ownGroups (s : State) (p : Nat) : List Nat := (List.range 128).filter fun g => s.groupOwnerOf g == p
def without (a b : List Nat) : List Nat := a.filter fun x => !b.contains x

/-- Outgoing groups paired with incoming ones, ascending. -/
def State.groupPairs (s : State) (p : Nat) (w : List W64) : List (Nat × Nat) :=
  let new_ := bitList 128 (UnitBlock.groups w)
  (without (s.ownGroups p) new_).zip (without new_ (s.ownGroups p))

/-- Why a `presize` is refused; 0 where it is not. -/
def State.resizeWhy (s : State) (w : List W64) : Nat :=
  let p := UnitBlock.p w
  let cs := bitList 48 (UnitBlock.cores w)
  let ls := bitList 96 (UnitBlock.slices w)
  let gs := bitList 128 (UnitBlock.groups w)
  let outG := without (s.ownGroups p) gs
  let others (f : Partition → Nat) : Nat := s.tenantShares f - (if p = 0 then 0 else f (s.part p))
  if !(without cs (s.ownCores p)).all (fun c => s.coreOwnerOf c == 0 && s.coreHolderOf c == 0 && s.coreReady c) ||
      !(without ls (s.ownSlices p)).all (fun l => s.sliceOwnerOf l == 0 && s.sliceHolderOf l == 0 && s.sliceReady l) ||
      !(without gs (s.ownGroups p)).all (fun g => s.groupOwnerOf g == 0 && s.groupReady g) then 1
  else if outG.any (s.rangeIn p) || (s.hostLeaves p).any (fun l => l.2.2 == 2 ^ 33 && outG.any (leafIn · l)) ||
      (outG.any fun g => !((s.groupPairs p w).any fun x => x.1 == g) && s.mapsGroup p g) then 2
  else if (List.range 17).any (fun q => (q == p || s.sameGroup p q) && s.opNames q) then 3
  else if cs.isEmpty then 4
  else if 1024 < others (·.gran) + UnitBlock.gran w ∨ 256 < others (·.link) + UnitBlock.link w then 5
  else 0

def setAll (t : Table Nat) (v : Nat) : List Nat → Table Nat
  | [] => t
  | k :: r => setAll (t.set 0 k v) v r

/-- Steps 2 to 4: outgoing units leave the candidates and the hash sets, incoming ones become P's. -/
def State.resizeStart (s : State) (w : List W64) (at_ : Option (Nat × W64)) : State :=
  let p := UnitBlock.p w
  let cs := bitList 48 (UnitBlock.cores w)
  let ls := bitList 96 (UnitBlock.slices w)
  let gs := bitList 128 (UnitBlock.groups w)
  let outC := (without (s.ownCores p) cs).filter (s.holdsCore p)
  let outL := (without (s.ownSlices p) ls).filter fun l => s.sliceHolderOf l == p
  let lentC := (without (s.ownCores p) cs).filter fun c => !s.holdsCore p c
  let lentL := (without (s.ownSlices p) ls).filter fun l => s.sliceHolderOf l != p
  let inC := without cs (s.ownCores p)
  let inL := without ls (s.ownSlices p)
  let old (q d : Nat) : List Nat := s.slicesOn q d
  let o : UnitOp := ⟨.resize, p, 0, w, at_, s.now, bitSum outC, bitSum outL, s.groupPairs p w⟩
  let s' := { s with
    coreOwner := setAll (setAll s.coreOwner p inC) 0 lentC
    coreHolder := setAll s.coreHolder p inC
    sliceOwner := setAll (setAll s.sliceOwner p inL) 0 lentL
    sliceHolder := setAll s.sliceHolder p inL
    groupOwner := setAll s.groupOwner p (without gs (s.ownGroups p))
    ops := s.ops.put s.nops o
    nops := s.nops + 1 }
  let s' := s'.modPart p fun x => { x with
    gran := UnitBlock.gran w
    link := UnitBlock.link w }
  let s' := s'.forgetGroups (without gs (s.ownGroups p))
  let s' := (List.range 17).foldl (fun s q => if q == 0 || q == p || s.sameGroup p q || s.sameGroup 0 q then
    (s.rehome q).passClaims q else s) s'
  let s' := ((((s'.openWindows p (old p)).openWindows 0 (old 0)).trimFar p).trimFar 0).refresh p
  (s'.spillDown p (s'.part p).residents).spillDown 0 (s'.part 0).residents

/-! ## `plend` and `prevoke` (R348, R349) -/

def State.lendWhy (s : State) (w : List W64) : Nat :=
  let q := UnitBlock.src w
  let cs := bitList 48 (UnitBlock.cores w)
  let ls := bitList 96 (UnitBlock.slices w)
  if !cs.all (fun c => s.ownsCore q c && s.holdsCore q c && s.coreReady c) ||
      !ls.all (fun l => s.sliceOwnerOf l == q && s.sliceHolderOf l == q && s.sliceReady l) then 1
  else if !cs.all s.coreIdle || !ls.all (s.sliceIdle q) then 2
  else if s.opNames (UnitBlock.p w) || s.opNames q then 3
  else if ((List.range 48).filter fun c => s.holdsCore q c && !cs.contains c).isEmpty then 4
  else 0

def State.revokeWhy (s : State) (w : List W64) : Nat :=
  let p := UnitBlock.p w
  let q := UnitBlock.src w
  if !(bitList 48 (UnitBlock.cores w)).all (fun c => s.ownsCore q c && s.holdsCore p c) ||
      !(bitList 96 (UnitBlock.slices w)).all (fun l => s.sliceOwnerOf l == q && s.sliceHolderOf l == p) then 1
  else if s.opNames p || s.opNames q then 3
  else 0

/-- A lend: the units are the borrower's at once; windows open for both. A lent core is not scrubbed: what its write buffer
holds goes on to its home. -/
def State.lendStart (s : State) (w : List W64) (at_ : Option (Nat × W64)) : State :=
  let p := UnitBlock.p w
  let q := UnitBlock.src w
  let cs := bitList 48 (UnitBlock.cores w)
  let ls := bitList 96 (UnitBlock.slices w)
  let oldP (d : Nat) : List Nat := s.slicesOn p d
  let oldQ (d : Nat) : List Nat := s.slicesOn q d
  let s' := { s with
    coreHolder := setAll s.coreHolder p cs
    sliceHolder := setAll s.sliceHolder p ls
    ops := s.ops.put s.nops ⟨.lend, p, q, w, at_, s.now, 0, 0, []⟩
    nops := s.nops + 1 }
  (((s'.openWindows p oldP).openWindows q oldQ).trimFar p).trimFar q

/-- A revocation: the units leave the borrower's candidates and hash sets. -/
def State.revokeStart (s : State) (w : List W64) (at_ : Option (Nat × W64)) : State :=
  let p := UnitBlock.p w
  let old (d : Nat) : List Nat := s.slicesOn p d
  let s' := { s with
    ops := s.ops.put s.nops ⟨.revoke, p, UnitBlock.src w, w, at_, s.now, UnitBlock.cores w, UnitBlock.slices w, []⟩
    nops := s.nops + 1 }
  (s'.passClaims p).openWindows p old

/-- A captured block: the operation starts, or is refused with WHY. -/
def State.unitOp (s : State) (k : OpKind) (w : List W64) (at_ : Option (Nat × W64)) : State :=
  let why := match k with
    | .resize => s.resizeWhy w
    | .lend => s.lendWhy w
    | .revoke | .fail => s.revokeWhy w
  if why ≠ 0 then s.putWord7 at_ (word7 0 why 2)
  else
    let s := s.putWord7 at_ 0
    match k with
    | .resize => s.resizeStart w at_
    | .lend => s.lendStart w at_
    | .revoke | .fail => s.revokeStart w at_

def unitEff (k : OpKind) (x : RArgs) (s : State) (t : Team) : Eff :=
  let va := uni s t x.a
  withBlock s t va.toNat 8 64 fun s w =>
    if unitOk k w then .ok (s.unitOp k w (some (t.part, va))) else .fault 0x62 (BitVec.ofNat 64 (va56 va.toNat)) noLane
def execPresize (x : RArgs) (s : State) : Out := issue (.presize x) (unitEff .resize x) s
def execPlend (x : RArgs) (s : State) : Out := issue (.plend x) (unitEff .lend x) s
def execPrevoke (x : RArgs) (s : State) : Out := issue (.prevoke x) (unitEff .revoke x) s

/-! ## Ends of operations (R349, R353, R358) -/

/-- The record of R358 to partition `p`. -/
def State.unitRecord (s : State) (p cause : Nat) : State :=
  let word (n k : Nat) : W32 := BitVec.ofNat 32 (n / 2 ^ (32 * k))
  let cs := bitSum ((List.range 48).filter (s.holdsCore p))
  let ls := bitSum ((List.range 96).filter fun l => s.sliceHolderOf l == p)
  let gs := bitSum (s.ownGroups p)
  let pay : List W32 := [word cs 0, word cs 1, word ls 0, word ls 1, word ls 2, word gs 0, word gs 1, word gs 2, word gs 3,
    BitVec.ofNat 32 (s.granOf p), BitVec.ofNat 32 (s.linkOf p), BitVec.ofNat 32 cause]
  (s.sendGraphs p 0 pay).sendSup p pay

def State.scrubCores (s : State) (cs : List Nat) : State := { s with cores := s.cores.filter fun (c, _) => !cs.contains c }
/-- A scrubbed slice goes to its next holder with its counters at zero. -/
def State.scrubSlices (s : State) (ls : List Nat) : State := { s with slices := s.slices.filter fun (l, _) => !ls.contains l }
/-- A scrubbed group reads as zeros. -/
def State.scrubGroups (s : State) (gs : List Nat) : State :=
  let here (a : Nat) : Bool := decide (a < localTop) && gs.contains (groupOf a)
  { s with
    mem := s.mem.filter fun (a, _) => !here a
    poison := s.poison.filter fun (g, _) => !here (32 * g)
    lostFirst := s.lostFirst.filter fun (f, _) => !here (f * pageBytes) }

/-- The operation `i` ends: word 7, then records to the partitions it touches. -/
def State.opEnd (s : State) (i : Nat) (o : UnitOp) (cause : Nat) (ps : List Nat) : State :=
  let s := { s with ops := s.ops.del i }
  let s := s.putWord7 o.at_ (word7 ((s.now - o.start) / 1000) 0 1)
  (ps.foldl (fun s p => s.unitRecord p cause) s).clearFilters

/-- The partitions whose units change with those of `ps`: the members of their turn groups (R358). -/
def State.members (s : State) (ps : List Nat) : List Nat := (List.range 17).filter fun q => ps.any fun p => q == p || s.sameGroup p q

/-- PLEND_DONE. -/
def State.lendDone (s : State) (i : Nat) : State :=
  match s.ops.get? i with
  | some o =>
    if o.kind = .lend ∧ !s.windowed o.p ∧ !s.windowed o.src then s.opEnd i o 1 (s.members [o.p, o.src]) else s
  | none => s
def execPlendDone (s : State) : Out := .next (s.lendDone s.ev.idx)

/-- The outgoing cores of an operation on which no team is left, and nothing of one on its way. -/
def State.coresOut (s : State) (o : UnitOp) : List Nat :=
  (bitList 48 o.outCores).filter fun c => (s.residents c).isEmpty && (s.core c).wbuf.isEmpty

/-- The outgoing slices of an operation that the sweep of their die's window has emptied, on dies where no window of their
next holder is open. -/
def State.slicesOut (s : State) (o : UnitOp) (next : Nat) : List Nat :=
  (bitList 96 o.outSlices).filter fun l => !s.windowedOn o.p (dieOfSlice l) && !s.windowedOn next (dieOfSlice l)

/-- Scrubbed cores and slices of operation `i` pass to partition `q`, each as it is ready (R349, R353). -/
def State.passUnits (s : State) (i : Nat) (o : UnitOp) (q : Nat) (owned : Bool) : State :=
  let cs := s.coresOut o
  let ls := s.slicesOut o q
  let old (d : Nat) : List Nat := s.slicesOn q d
  let s := (s.scrubCores cs).scrubSlices ls
  let o' := { o with
    outCores := bitSum (without (bitList 48 o.outCores) cs)
    outSlices := bitSum (without (bitList 96 o.outSlices) ls) }
  let s' := { s with
    coreOwner := if owned then setAll s.coreOwner q cs else s.coreOwner
    coreHolder := setAll s.coreHolder q cs
    sliceOwner := if owned then setAll s.sliceOwner q ls else s.sliceOwner
    sliceHolder := setAll s.sliceHolder q ls
    ops := s.ops.put i o' }
  ((s'.openWindows q old).trimFar o.p).refresh q

/-- The removal of failed units ends: the partitions that held and owned them hear of it (R428). -/
def State.failEnd (s : State) (i : Nat) (o : UnitOp) : State :=
  (s.members [o.p, o.src]).foldl (fun s q => s.unitRecord q 3) { s with ops := s.ops.del i }

/-- PREVOKE_DONE: the units that are scrubbed are the lender's again, or partition 0's where they have failed (R428); the operation
ends with the last. -/
def State.revokeDone (s : State) (i : Nat) : State :=
  match s.ops.get? i with
  | some o =>
    if o.kind = .revoke ∨ o.kind = .fail then
      let s := if o.kind = .fail then s.passUnits i o 0 true else s.passUnits i o o.src false
      match s.ops.get? i with
      | some o =>
        if o.outCores = 0 ∧ o.outSlices = 0 ∧ !s.windowed o.p ∧ (o.kind = .fail ∨ !s.windowed o.src) then
          (if o.kind = .fail then s.failEnd i o else s.opEnd i o 2 (s.members [o.p, o.src]))
        else s
      | none => s
    else s
  | none => s
def execPrevokeDone (s : State) : Out := .next (s.revokeDone s.ev.idx)

/-- The outgoing channel groups of a resize out of which every leaf has been migrated. -/
def State.groupsOut (s : State) (o : UnitOp) : List Nat :=
  (without (s.ownGroups o.p) (bitList 128 (UnitBlock.groups o.words))).filter fun g => !(s.hostLeaves o.p).any (leafIn g)

/-- PRESIZE_DONE: each outgoing unit, scrubbed, is partition 0's; the operation ends with the last. -/
def State.resizeDone (s : State) (i : Nat) : State :=
  match s.ops.get? i with
  | some o =>
    if o.kind = .resize then
      let gs := s.groupsOut o
      let s := (s.scrubGroups gs).forgetGroups gs
      let s := State.passUnits { s with groupOwner := setAll s.groupOwner 0 gs } i o 0 true
      match s.ops.get? i with
      | some o =>
        let left := without (s.ownGroups o.p) (bitList 128 (UnitBlock.groups o.words))
        if o.outCores = 0 ∧ o.outSlices = 0 ∧ left.isEmpty ∧ !s.windowed o.p then s.opEnd i o 0 (s.members [0, o.p])
        else s
      | none => s
    else s
  | none => s
def execPresizeDone (s : State) : Out := .next (s.resizeDone s.ev.idx)

/-! ## Shoot-down (R227, R290) -/

/-- The unperformed accesses of a pending instruction: virtual addresses and their bytes. -/
def Pending.touches (p : Pending) : List Acc :=
  if p.performed then []
  else match p.kind with
    | .load _ a _ _ => a
    | .store a _ _ => a.map (·.1)
    | .atomic _ _ _ _ _ _ a => a.map (·.1)
    | .rdo a _ => a.map (·.1)
    | .ldv _ a _ _ _ | .latest _ a _ | .vqry _ a => a.map (·.acc)
    | .stv a _ => a.map (·.1.acc)
    | .vflr a _ _ => [a]
    | .acp _ a _ _ _ => a
    | _ => []

/-- The unperformed accesses of partition `p`'s teams that `f` names, by team and instruction, and those of atomics whose
update is on its way in a write buffer. -/
def State.using (s : State) (p : Nat) (f : Acc → Bool) : List (TeamId × Nat) :=
  s.teams.flatMap fun (_, t) =>
    if t.part = p then
      (t.pend.filterMap fun q => if q.touches.any f then some (t.id, q.seq) else none) ++
        (s.core t.core).wbuf.filterMap fun e => if e.team == t.id && !e.counted then some (t.id, e.seq) else none
    else []

/-- Every listed access has been performed at its home, and every row and tile that a shoot-down met is over. -/
def State.gone (s : State) (ws : List (TeamId × Nat)) : Bool :=
  s.flights.all (fun f => !f.stale) && ws.all fun (id, q) => ((s.team? id).all fun t => (t.pendOf q).all (·.performed)) &&
    s.cores.all fun (_, c) => c.wbuf.all fun e => e.counted || e.team != id || e.seq != q

/-- The control of `pgret`: partition, stage, size. -/
structure Shoot where
  p : Nat
  host : Bool
  size : Nat
  deriving DecidableEq, Repr

def shootOf (b : W64) : Option Shoot :=
  if bitsIn b 0x71F#64 && decide (bitsOf b 4 0 ≤ 16) && decide (bitsOf b 10 9 < 3) then
    some ⟨bitsOf b 4 0, b.getLsbD 8, 2 ^ (18 + match bitsOf b 10 9 with
      | 0 => 0
      | 1 => 8
      | _ => 15)⟩
  else none

/-- The entries a shoot-down drops. -/
def Shoot.hits (k : Shoot) (a : Nat) (e : Tlb) : Bool := (overlapAt (if k.host then e.gbase else e.vbase) e.size a k.size).isSome

/-- An access went through the range: by its virtual addresses, or its guest-physical ones. -/
def Shoot.used (k : Shoot) (a : Nat) (x : Acc) : Bool :=
  if k.host then x.gpas.any fun g => decide (a ≤ g) && decide (g < a + k.size)
  else (overlapAt x.va.toNat (max 1 x.pas.length) a k.size).isSome

/-- The shoot-down of a range, which marks the rows and tiles on their way over it, and the accesses that used it. -/
def State.shoot (s : State) (k : Shoot) (a : Nat) : State × List (TeamId × Nat) :=
  ((s.dropTlb k.p (k.hits a)).markStale k.p (k.used a), s.using k.p (k.used a))

/-- R227; an A of 2^56 or more is fault 0x14 (log 149). -/
def pgretEff (x : RArgs) (s : State) (t : Team) : Eff :=
  let a := (uni s t x.a).toNat
  match shootOf (uni s t x.b) with
  | none => .fault 0x14 (BitVec.ofNat 64 a) noLane
  | some k =>
    if a % k.size ≠ 0 ∨ 2 ^ 56 ≤ a then .fault 0x14 (BitVec.ofNat 64 a) noLane
    else
      let (s, ws) := s.shoot k a
      .hold (s.modTeam t.id fun u => { u with holdOn := some (.pgret ws) })
def execPgret (x : RArgs) (s : State) : Out := issue (.pgret x) (pgretEff x) s

/-- The hold of a team ends: it goes on after its instruction. -/
def State.endHold (s : State) (t : Team) : State := (s.setTeam { t with holdOn := none }).moveOn t

/-- PGRET_DONE. -/
def State.pgretDone (s : State) (id : TeamId) : State :=
  match s.team? id with
  | some t =>
    match t.holdOn with
    | some (.pgret ws) => if s.gone ws then s.endHold t else s
    | _ => s
  | none => s

/-- ROOT_DROP_DONE (R290). -/
def State.rootDropDone (s : State) (id : TeamId) : State :=
  match s.team? id with
  | some t =>
    match t.holdOn with
    | some (.rootDrop ws) => if s.gone ws then s.endHold t else s
    | _ => s
  | none => s

/-! ## Page migration (R357) -/

/-- The new place of an address of group `g`. -/
def shiftGroup (g h pa : Nat) : Nat := pa - g * groupBytes + h * groupBytes

/-- A frame that moves. -/
structure Frame where
  old : Nat
  new_ : Nat
  size : Nat
  deriving DecidableEq, Repr

def Frame.has (f : Frame) (a : Nat) : Bool := decide (f.old ≤ a) && decide (a < f.old + f.size)
def Frame.hasNew (f : Frame) (a : Nat) : Bool := decide (f.new_ ≤ a) && decide (a < f.new_ + f.size)
/-- Where an address, a line, a 32-byte granule stands after the move. -/
def Frame.to (f : Frame) (a : Nat) : Nat := if f.has a then a - f.old + f.new_ else a
def Frame.line (f : Frame) (l : Nat) : Nat := f.to (64 * l) / 64
def Frame.gran (f : Frame) (g : Nat) : Nat := f.to (32 * g) / 32

def Frame.mem (f : Frame) (m : List Host.Cell) : List Host.Cell :=
  Table.setAll (m.filter fun (c : Host.Cell) => !f.hasNew c.1) Config.unlisted
    ((m.filter fun (c : Host.Cell) => f.has c.1).map fun (a, b) => (f.to a, b))
def Frame.poison (f : Frame) (m : Table W32) : Table W32 :=
  Table.setAll (m.filter fun (c : Nat × W32) => !f.hasNew (32 * c.1)) 0
    ((m.filter fun (c : Nat × W32) => f.has (32 * c.1)).map fun (g, b) => (f.gran g, b))
def Frame.region (f : Frame) (r : VRegion) : VRegion := { r with
  recs := r.recs.map fun (q : VRec) => { q with g := f.line q.g }
  base := r.base.foldl (fun (m : Table W32) (c : Nat × W32) => Table.put m (f.line c.1) c.2) [] }
def Frame.rline (f : Frame) (x : RLine) : RLine := { x with
  held := x.held.map fun (q : Contrib) => { q with pa := f.to q.pa } }
/-- What a checkpoint holds of the frame (R336). -/
def Frame.snap (f : Frame) (c : Snap) : Snap := { c with
  regions := c.regions.map fun (r, x) => (r, f.region x)
  lines := c.lines.map fun (l, zs) => (l, zs.foldl (fun (m : Table RLine) (k, z) => m.put (f.line k) (f.rline z)) [])
  mem := c.mem.map fun m => { m with
    mem := f.mem m.mem
    poison := f.poison m.poison
    frames := m.frames.map fun k => frameOf (f.to (k * pageBytes)) } }
/-- What is marked lost there. -/
def Frame.lost (f : Frame) (l : Table (List Nat)) : Table (List Nat) :=
  l.foldl (fun (m : Table (List Nat)) (k, gs) => m.put (frameOf (f.to (k * pageBytes))) (gs.map fun g => granuleOf (f.to (32 * g)))) []
/-- An input that names a place of the frame (R364). -/
def Frame.input (f : Frame) : Input → Input
  | .rdo pa x idx => .rdo (f.to pa) x idx
  | i => i
/-- A blocked or parked version load goes on at the new frame. -/
def Frame.pending (f : Frame) (p : Pending) : Pending :=
  match p.kind with
  | .ldv dst accs acq w k => { p with kind := .ldv dst (accs.map fun a => { a with
      acc := { a.acc with pas := a.acc.pas.map f.to } }) acq w k }
  | _ => p

/-- The home slice of a line of the new frame. -/
def State.newHome (s : State) (f : Frame) (l k : Nat) : Nat := (s.homeSlice (64 * f.line k)).getD l

/-- What slice `l` holds of the frame's lines moves to the new home slices: reduction state, and the bytes. -/
def State.moveStateOf (s : State) (f : Frame) (l : Nat) : State :=
  let s := ((s.slice l).lines.filter fun (k, _) => f.has (64 * k)).foldl (fun s (k, z) =>
    (s.dropRline l k).setRline (s.newHome f l k) (f.line k) (f.rline z)) s
  ((s.slice l).cached.filter fun k => f.has (64 * k)).foldl (fun s k => (s.dropCached l k).putCached (s.newHome f l k) (f.line k)) s

/-- The held contributions of the frame's lines have room in the new home slices (R341). -/
def State.frameRoom (s : State) (f : Frame) : Bool :=
  let moved : List (Nat × Nat × Nat) := s.slices.flatMap fun (l, x) =>
    x.lines.filterMap fun (k, z) => if f.has (64 * k) then some (l, s.newHome f l k, z.held.length) else none
  moved.all fun (_, n, _) => decide ((s.slice n).heldCount + ((moved.filter fun x => x.2.1 == n && x.1 != n).map (·.2.2)).sum ≤ 1024)

/-- The frame's bytes, poison and line state stand at the new frame too; what was at the old one is gone (R357). -/
def State.moveFrame (s : State) (p : Nat) (f : Frame) : State :=
  let s : State := { s with
    mem := f.mem s.mem
    poison := f.poison s.poison
    lostFirst := f.lost s.lostFirst
    wins := s.wins.map fun (k, w) => (k, { w with grans := w.grans.filter fun x => !f.has (64 * x.1) }) }
  let s := (s.slices.map (·.1)).foldl (fun s l => s.moveStateOf f l) s
  let s := s.modPart p fun (x : Partition) => { x with
    regions := x.regions.map fun (c : Nat × VRegion) => (c.1, f.region c.2)
    committed := x.committed.map f.snap
    cuts := x.cuts.map f.snap
    safeRun := x.safeRun.map f.snap
    inputs := x.inputs.map fun (e, i) => (e, f.input i)
    undo := x.undo.map fun (u : Undo) => { u with line := f.line u.line } }
  let s := s.modTeamsOf p fun t => { t with pend := t.pend.map f.pending }
  let (s, ws) := s.takeOut fun w => f.has (64 * w.granule)
  s.movePlaces [] (ws.map fun w => ((s.homeSlice (64 * f.line w.granule)).getD 0, { w with granule := f.line w.granule }))

/-- A version load, which holds nothing of its page but its wait places. -/
def PKind.blocks : PKind → Bool
  | .ldv .. => true
  | _ => false

/-- No access on its way uses the frame (step 4 of R294); a version load goes on at the new one. -/
def State.frameQuiet (s : State) (p : Nat) (f : Frame) : Bool :=
  let hit (a : Nat) : Bool := f.has (s.norm a)
  (s.teams.all fun (_, t) => t.part != p || t.pend.all fun q => q.kind.blocks || !q.touches.any fun x => x.pas.any hit) &&
    (s.cores.all fun (_, c) => c.wbuf.all fun e => e.bytes.all fun (a, _) => !hit a) &&
    s.flights.all fun x => !x.accs.any fun a => a.pas.any hit

/-- PAGE_MIGRATE: one leaf of operation `i`, at physical address `at_`. -/
def State.pageMigrate (s : State) (i at_ : Nat) : State :=
  match s.ops.get? i with
  | none => s
  | some o =>
    match (s.hostLeaves o.p).find? fun l => l.1 == at_ with
    | none => s
    | some (a, e, size) =>
      match o.groups.find? fun (g, _) => leafIn g (a, e, size) with
      | none => s
      | some (g, h) =>
        let old := pteAddr e
        let new_ := shiftGroup g h old
        let f : Frame := ⟨old, new_, size⟩
        if size ≠ 2 ^ 18 ∨ !s.frameQuiet o.p f ∨ !s.frameRoom f then s
        else
          let s := s.moveFrame o.p f
          let e' := BitVec.ofNat 64 (e.toNat - old + new_)
          let s := s.writePhys a (le8 e')
          let s := s.dropTlb o.p fun t => (overlapAt t.pbase t.size old size).isSome
          let keep (c : LineCopy) : Bool := !f.has (64 * c.line)
          { s with
            cores := s.cores.map fun (c, x) => (c, { x with near := x.near.filter keep })
            dies := s.dies.map fun (d, x) => (d, { x with far := x.far.filter keep }) }
def execPageMigrate (s : State) : Out := .next (s.pageMigrate s.ev.idx s.ev.addr)

end Sys2Proof.Machine
end

