-- ==== Sys2Proof/Machine/Ingress.lean ====
section
/-!
DEFINITION. Ingress rings (R373, R374, R379, R380, R225), control records and the loading of graphs (R249-R252, R381), the
report queue (R382).
-/
namespace Sys2Proof.Machine

/-! ## Ring blocks (R379) -/

/-- The address of a control block, from RINGCB. -/
def ringVa (v : W64) : W64 := v &&& 0x00FF_FFFF_FFFF_FFC0#64
def IRing.slots (g : IRing) : Nat := 2 ^ bitsOf g.word1 4 0
def IRing.slotVa (g : IRing) (i : Nat) : Nat := g.sbase.toNat + 64 * (i % g.slots)

/-- A range touches the block or the slots of a ring. -/
def IRing.touches (g : IRing) (a n : Nat) : Bool :=
  (overlapAt a n g.cb.toNat 64).isSome || (overlapAt a n g.sbase.toNat (64 * g.slots)).isSome

/-- The physical lines of a range of virtual addresses, as runs: first line and number of lines. -/
def State.lineRuns (s : State) (p va n : Nat) : List (Nat × Nat) :=
  (rangePieces va n).filterMap fun (a, k) => (s.combined p (va56 a)).map fun e =>
    (lineOf (s.norm (e.pbase + (va56 a - e.vbase))), k / 64)

/-- The ring that RINGCB `r` of partition `p` enables with value `v`; `none` where the write faults (R380). -/
def State.ringOf (s : State) (p r : Nat) (v : W64) : Option IRing :=
  match s.readWords p (ringVa v).toNat 5 with
  | none => none
  | some w =>
    if fld w 0 63 56 != 0 || fld w 0 5 0 != 0 || fld w 1 63 32 != 0 || fld w 1 7 5 != 0 || !within (fld w 1 4 0) 4 16 ||
        (s.part p).rings.any fun (k, g) => k != r && g.touches (ringVa v).toNat 64 then none
    else
      let area := s.lineRuns p (ringVa v).toNat 64 ++ s.lineRuns p (wd w 0).toNat (64 * 2 ^ fld w 1 4 0)
      some ⟨ringVa v, wd w 0, wd w 1, lo32 (wd w 3), (wd w 4).getLsbD 0, area⟩

/-- A write of RINGCBr that enables; `none` where it faults (0x14). No undo entry of its lines stays: rings are not rolled back. -/
def State.ringOn (s : State) (p r : Nat) (v : W64) : Option State :=
  (s.ringOf p r v).map fun g =>
    (s.setPr p (0x1A0 + r) v).modPart p fun x =>
      let y := { x with rings := x.rings.put r g }
      { y with undo := x.undo.filter fun u => !y.ringLine u.line }
/-- A write of RINGCBr that disables: no slot is half consumed between steps. -/
def State.ringOff (s : State) (p r : Nat) (v : W64) : State :=
  (s.setPr p (0x1A0 + r) v).modPart p fun x => { x with rings := x.rings.del r }
def State.ringcb (s : State) (p r : Nat) (v : W64) : Option State :=
  if v.getLsbD 0 then s.ringOn p r v else some (s.ringOff p r v)

/-! ## Consumption (R373, R374) -/

/-- The failure of R374 that a record of type 0 or 1 meets for good, lowest number first; 0 where it meets none. -/
def State.ringCause (s : State) (p : Nat) (w : List W32) : Nat :=
  let w0 := (recWord w 0).toNat
  let ty := w0 / 2 ^ 28
  let g := w0 / 2 ^ 16 % 256
  let charge := if ty = 1 then 1 else s.boundOf p g (w0 % 2 ^ 16) (recDepth w)
  if 2 ≤ ty then 1
  else if ty = 0 ∧ (s.node? p g (w0 % 2 ^ 16)).isNone then 2
  else if s.credLim p < charge then 3
  else if (recWord w 1).toNat / 2 ^ 21 ≠ 0 ∨ (recWord w 3).toNat / 2 ^ 12 ≠ 0 ∨ 12 < recLen w ∨
      (ty = 1 ∧ !within (recWord w 4).toNat 1 3) then 4
  else 0

/-- The account is short for the record now (R260). -/
def State.ringShort (s : State) (p : Nat) (w : List W32) : Bool :=
  if isCtrl w then decide (s.credLim p < s.credUse p + 1)
  else
    let w0 := (recWord w 0).toNat
    s.fate p (w0 / 2 ^ 16 % 256) (w0 % 2 ^ 16) w == .waits

/-- A slot fails: the ring is in error, and the error node hears of it. -/
def State.ringFail (s : State) (p r : Nat) (g : IRing) (cause : Nat) (w : List W32) : State :=
  let word4 := BitVec.ofNat 64 (g.rdidx.toNat * 2 ^ 32 + cause * 2 ^ 8 + 1)
  let s := s.writeVirt p (g.cb.toNat + 32) (le8 word4)
  let gs := bitsOf g.word1 31 24
  let node := bitsOf g.word1 23 8
  let rec_ := (s.devRecord gs node 0 [lo32 g.cb, hi32 g.cb, g.rdidx, BitVec.ofNat 32 cause, recWord w 0]).set 1 0
  s.modPart p fun x => { x with
    rings := x.rings.put r { g with err := true }
    held := x.held ++ [⟨.device, gs, node, rec_, 0, .device, some Rel.device⟩] }

/-- The read index of a ring becomes `i`, in the Mill and in the block. -/
def State.ringTo (s : State) (p r : Nat) (g : IRing) (i : W32) : State :=
  (s.writeVirt p (g.cb.toNat + 24) (leBytes 4 i.toNat)).modPart p fun x => { x with
    rings := x.rings.put r { g with rdidx := i } }

/-- The sixteen words of a slot. -/
def State.slotWords (s : State) (p : Nat) (g : IRing) : Option (List W32) :=
  (List.range 16).mapM fun k => (s.readVirt p (g.slotVa g.rdidx.toNat + 4 * k) 4).map (BitVec.ofNat 32)

/-- The die whose Mill takes a record: the home of its node (R257). -/
def State.recvDie (s : State) (p : Nat) (w : List W32) : Nat :=
  s.homeDie p ((recWord w 0).toNat / 2 ^ 16 % 256) ((recWord w 0).toNat % 2 ^ 16)

/-- INGRESS_POLL: the Mill looks at the next slot of ring `r`. -/
def State.ingressPoll (s : State) (p r : Nat) : State :=
  match (s.part p).rings.get? r with
  | none => s
  | some g =>
    if g.err || (s.part p).frozen || (s.part p).freezing then s
    else
      match s.slotWords p g with
      | none => s
      | some w =>
        if recWord w 2 ≠ g.rdidx then s
        else
          let s := s.dropFarPeers (s.recvDie p w)
          let c := s.ringCause p w
          if c ≠ 0 then s.ringFail p r g c w
          else if s.ringShort p w then s
          else (s.inputRecord p w).ringTo p r g (g.rdidx + 1)
def execIngressPoll (s : State) : Out := .next (s.ingressPoll s.ev.part s.ev.idx)

/-- The ring of partition `p` whose block stands at `a`. -/
def State.ringAt (s : State) (p : Nat) (a : W64) : Option (Nat × IRing) :=
  (s.part p).rings.find? fun (_, g) => g.cb == a

/-- `ringrst` (R225). -/
def ringrstEff (x : RArgs) (s : State) (t : Team) : Eff :=
  let a := uni s t x.a
  let b := lo32 (uni s t x.b)
  let bad (c : Nat) : Eff := .fault c a noLane
  match s.ringAt t.part a with
  | none => if (List.range 17).any fun q => (s.ringAt q a).isSome then bad 0x11 else bad 0x14
  | some (r, g) =>
    let wr := BitVec.ofNat 32 ((s.readVirt t.part (a.toNat + 16) 4).getD 0)
    if !g.err then bad 0x53
    else if wr - g.rdidx < b - g.rdidx then bad 0x14
    else
      let word4 := (s.readVirt t.part (a.toNat + 32) 8).getD 0
      let s := s.writeVirt t.part (a.toNat + 32) (leBytes 8 (word4 / 2 * 2))
      .ok (s.ringTo t.part r { g with err := false } b)
def execRingrst (x : RArgs) (s : State) : Out := issue (.ringrst x) (ringrstEff x) s

/-! ## Loading a graph (R251) -/

def lowZero (x k : Nat) : Bool := x % 2 ^ k == 0

/-- The fields of a graph object. -/
def objOk (p : Nat) (w : List W64) : Bool :=
  let nn := fld w 0 15 0
  let top (i : Nat) : Bool := fld w i 63 56 == 0
  let node (lo : Nat) : Bool := fld w 4 (lo + 15) lo == 0xFFFF || decide (fld w 4 (lo + 15) lo < nn)
  fld w 0 63 22 == 0 && within nn 1 4096 && decide (fld w 0 21 20 ≤ if p = 0 then 2 else 1) &&
    top 1 && top 2 && top 3 && top 5 && lowZero (fld w 1 55 0) 7 && lowZero (fld w 2 55 0) 5 && lowZero (fld w 3 55 0) 6 &&
    lowZero (fld w 5 55 0) 6 && fld w 4 63 32 == 0 && node 16 && node 0 && wd w 6 == 0 && wd w 7 == 0

/-- Edges 0 to k - 1 are the valid ones. -/
def edgesOk (nn : Nat) (es : List W64) : Bool :=
  es.all (fun e => bitsOf e 63 32 == 0 && bitsOf e 30 27 == 0 && decide (edgeMax e ≤ 1024) &&
      (!edgeValid e || decide (edgeSucc e < nn))) &&
    (es.dropWhile edgeValid).all fun e => !edgeValid e

/-- The fields of a node descriptor. -/
def descOk (scrlim nn : Nat) (n : Node) : Bool :=
  let w := n.desc
  fld w 0 63 56 == 0 && fld w 1 47 44 == 0 && within (fld w 1 43 41) 0 4 && within n.regs 1 64 && fld w 1 33 29 == 0 &&
    (!n.erre || decide (n.errNode < nn)) && within (fld w 1 18 15) 0 12 && fld w 1 14 13 == 0 && fld w 1 12 12 == 0 &&
    within n.width 32 1024 && lowZero n.width 5 && fld w 2 63 48 == 0 && within n.coal 5 5000 && lowZero n.scrBytes 7 &&
    decide (n.scrBytes ≤ 0x38_0000) && decide (n.scrBytes ≤ scrlim) && fld w 3 63 32 == 0 && fld w 4 63 56 == 0 &&
    lowZero (fld w 4 55 0) 3 && fld w 5 63 9 == 0 && within (fld w 5 8 0) 0 256 && edgesOk nn n.edges &&
    fld w 14 63 56 == 0 && lowZero (fld w 14 55 0) 3 && (n.ringBits != 0 || wd w 14 == 0) && wd w 15 == 0 &&
    n.ringNumbers.all fun k => decide (32 * k + 32 ≤ n.scrBytes)

/-- R248. A slot count above 2⁸ is no ground to refuse: the admission's tests find it (R215) (log 83). -/
def ringEntryOk (e : W64) : Bool := bitsOf e 63 57 == 0 && lowZero (bitsOf e 31 0) 7
def bindEntryOk (e : W64) : Bool := bitsOf e 62 56 == 0 && lowZero (bitsOf e 55 0) 6
def regionOk (w : List W64) : Bool := lowZero (wd w 0).toNat 3 && lowZero (wd w 1).toNat 3 && wd w 3 == 0

/-- The clause-start bit of an address in the regions of a graph that is being loaded; poison of the map is no bit (R17, log 100). -/
def State.entryOk (s : State) (p : Nat) (rs : List Region3) (a : W64) : Bool :=
  lowZero a.toNat 3 && match rs.find? (Region3.holds · a) with
    | none => false
    | some g =>
      let k := (a.toNat - g.base.toNat) / 8
      let bad := (s.combined p (va56 (g.map.toNat + k / 8))).any fun e => s.poisoned (e.pbase + (va56 (g.map.toNat + k / 8) - e.vbase))
      !bad && ((s.readVirt p (g.map.toNat + k / 8) 1).getD 0).testBit (k % 8)

/-- Node `k` of the object `o`, as read; `none` where the load is refused. -/
def State.loadNode (s : State) (p : Nat) (o : List W64) (rs : List Region3) (k : Nat) : Option Node := do
  let desc ← s.readWords p (fld o 1 55 0 + 128 * k) 16
  let n : Node := ⟨desc, [], [], [], .empty, 0, false, 0, 0, 0, 0, 0, 0, 0, 0, 0, 0, [], s.ruleDie p k⟩
  let rtab ← s.readWords p (fld desc 14 55 0) (ringCount n)
  let btab ← s.readWords p (fld desc 4 55 0) (fld desc 5 8 0)
  if descOk (s.preg p 1) (fld o 0 15 0) n && rtab.all ringEntryOk && btab.all bindEntryOk && s.entryOk p rs n.entry then
    some { n with
      rtab := rtab
      btab := btab
      level := n.prio }
  else none

def State.loadRegion (s : State) (p : Nat) (o : List W64) (k : Nat) : Option Region3 := do
  let w ← s.readWords p (fld o 2 55 0 + 32 * k) 4
  if regionOk w then some ⟨wd w 0, wd w 1, wd w 2⟩ else none

/-- The graph whose object stands at `va`; `none` where R251 or R258 refuses it. -/
def State.loadGraph (s : State) (p : Nat) (va : W64) : Option Graph := do
  let o ← s.readWords p va.toNat 8
  if !objOk p o then none
  else
    let rs ← (List.range (fld o 0 19 16 + 1)).mapM (s.loadRegion p o)
    let ns ← (List.range (fld o 0 15 0)).mapM fun k => (s.loadNode p o rs k).map fun n => (k, n)
    let g : Graph := ⟨o, ns, rs, 0, false, []⟩
    if g.cyclic || !g.boundsOk then none else some g

/-! ## Control records (R381) -/

/-- The control record at the head, where it is of operation `op` and the partition runs; the state without it. -/
def State.ctrlHead (s : State) (p op : Nat) : Option (Ctrl × State) :=
  let x := s.part p
  match x.ctrl with
  | c :: r => if c.op = op ∧ !x.frozen ∧ !x.freezing then some (c, s.setPart p { x with ctrl := r }) else none
  | [] => none

/-- CTRL_LOAD. -/
def State.ctrlLoad (s : State) (p : Nat) : State :=
  match s.ctrlHead p 1 with
  | none => s
  | some (c, s) =>
    match s.graph? p c.gslot with
    | some x => s.report p ⟨1, 2, c.gslot, x.inst, c.tag, 0⟩
    | none =>
      match s.loadGraph p c.va with
      | none => s.report p ⟨1, 1, c.gslot, 0, c.tag, 0⟩
      | some x => (s.modPart p fun y => { y with graphs := y.graphs.put c.gslot x }).report p ⟨1, 0, c.gslot, 0, c.tag, 0⟩
def execCtrlLoad (s : State) : Out := .next (s.ctrlLoad s.ev.part)

/-- CTRL_UNLOAD. -/
def State.ctrlUnload (s : State) (p : Nat) : State :=
  match s.ctrlHead p 2 with
  | none => s
  | some (c, s) =>
    match s.graph? p c.gslot with
    | none => s.report p ⟨2, 3, c.gslot, 0, c.tag, 0⟩
    | some x =>
      if s.graphBusy p c.gslot then s.report p ⟨2, 4, c.gslot, x.inst, c.tag, 0⟩
      else
        let s := s.endInstance p c.gslot
        let s := (((s.graph? p c.gslot).map (·.watch)).getD []).foldl (fun s tag => s.report p ⟨3, 3, c.gslot, x.inst, tag, 0⟩) s
        (s.modPart p fun y => { y with graphs := y.graphs.del c.gslot }).report p ⟨2, 0, c.gslot, x.inst, c.tag, 0⟩
def execCtrlUnload (s : State) : Out := .next (s.ctrlUnload s.ev.part)

/-- CTRL_WATCH. -/
def State.ctrlWatch (s : State) (p : Nat) : State :=
  match s.ctrlHead p 3 with
  | none => s
  | some (c, s) =>
    match s.graph? p c.gslot with
    | none => s.report p ⟨3, 3, c.gslot, 0, c.tag, 0⟩
    | some _ =>
      let s := s.endInstance p c.gslot
      s.modGraph p c.gslot fun y => { y with watch := y.watch ++ [c.tag] }
def execCtrlWatch (s : State) : Out := .next (s.ctrlWatch s.ev.part)

/-! ## The report queue (R382) -/

/-- The entry of slot `j`. -/
def reportBytes (log j : Nat) (r : Report) : List Byte :=
  leBytes 8 (r.inst.toNat * 2 ^ 32 + r.status * 2 ^ 24 + r.gslot * 2 ^ 16 + (if j.testBit log then 0 else 2 ^ 8) + r.kind) ++
    le8 r.tag ++ le8 r.lost ++ leBytes 8 0

/-- An MSI-X vector of function `f` is raised: sent on the port that holds the control plane, or held, once (R377). -/
def State.raiseMsix (s : State) (f v : Nat) : State :=
  { s with mgmt :=
    if s.mgmt.held then { s.mgmt with msixSent := s.mgmt.msixSent ++ [(f, v)] }
    else if s.mgmt.msixPending.contains (f, v) then s.mgmt
    else { s.mgmt with msixPending := s.mgmt.msixPending ++ [(f, v)] } }

/-- Slot `cqNext` may be written. -/
def State.reportRoom (s : State) (p : Nat) : Bool :=
  let x := s.part p
  let ctl := s.pr p 0x17A
  x.cqSet && s.mgmt.held && decide ((x.cqNext + 2 ^ 32 - bitsOf ctl 47 16) % 2 ^ 32 < 2 ^ bitsOf ctl 3 0)

/-- REPORT_WRITE. -/
def State.reportWrite (s : State) (p : Nat) : State :=
  let x := s.part p
  match x.reports with
  | [] => s
  | r :: rs =>
    if !s.reportRoom p then s
    else
      let log := bitsOf (s.pr p 0x17A) 3 0
      let s := s.setPart p { x with
        reports := rs
        cqNext := (x.cqNext + 1) % 2 ^ 32 }
      let va := (s.pr p 0x179).toNat + 32 * (x.cqNext % 2 ^ log)
      (s.writeVirt p va (reportBytes log x.cqNext r)).raiseMsix p 0
def execReportWrite (s : State) : Out := .next (s.reportWrite s.ev.part)

/-- CQCONS_WRITE: the host writes CQCONS in its function's management window (R420). -/
def State.cqcons (s : State) (p : Nat) (v : W32) : State :=
  let c := s.pr p 0x17A
  s.setPr p 0x17A ((c &&& ~~~(0x0000_FFFF_FFFF_0000#64)) ||| (v.zeroExtend 64 <<< 16))

end Sys2Proof.Machine
end

