-- ==== Sys2Proof/Machine/Arrays.lean ====
section
/-!
DEFINITION. The matrix arrays at work: the queue performed in order (R178), the governor (R319, R320), gating (R318), and the
replay units with their log and rerun (R416-R418).
-/
namespace Sys2Proof.Machine

/-! ## Arrays (R318-R320) -/

def Arr.reset : Arr := ⟨false, false, 0, none, 0⟩
def State.arr (s : State) (c k : Nat) : Arr := (s.core c).arr.get Arr.reset k
def State.setArr (s : State) (c k : Nat) (a : Arr) : State := s.modCore c fun x => { x with arr := x.arr.set Arr.reset k a }

/-- Clocks of a K-step of a format block (R315, MCAP). -/
def kClocks (w : List W64) : Nat :=
  if elemBits (fmtA w) < 8 ∧ elemBits (fmtB w) < 8 then 8
  else if fmtRow (fmtA w) = 4 ∨ fmtRow (fmtA w) = 5 then 32
  else 16

/-- GOVCTL as it stands, and the key of the LIM and WIN in force, which change at a window (R320). -/
def govKey (d : Nat) : Nat := 0x1_0198 + d
def State.govOn (s : State) (d : Nat) : Bool := (s.mr (0x198 + d)).getLsbD 63
/-- The clocks an array may start in a window; none where LIM is 256, which sets no limit (R319). -/
def State.govLimit (s : State) (d : Nat) : Option Nat :=
  let v := s.mr (govKey d)
  if bitsOf v 8 0 = 256 then none else some (bitsOf v 8 0 * bitsOf v 25 16 * 160 / 256)

/-- Of `n` K-steps of `c` clocks, how many the window lets start, from `used`; the clocks used then. -/
def kStarts (lim : Option Nat) (c : Nat) : Nat → Nat → Nat × Nat
  | 0, used => (0, used)
  | n + 1, used =>
    if used = 0 ∨ lim.all (fun l => decide (used + c ≤ l)) then
      let r := kStarts lim c n (used + c)
      (r.1 + 1, r.2)
    else (0, used)

/-- The K-steps of a queue entry. -/
def MOp.steps : MOp → Nat
  | .mul _ _ n _ _ _ => n
  | _ => 0
def MOp.clocks : MOp → Nat
  | .mul _ _ _ _ _ w => kClocks w
  | _ => 0
/-- The entry uses the datapath. -/
def MOp.datapath : MOp → Bool
  | .fmt _ => false
  | _ => true

/-! ## The replay log (R416, R417) -/

def State.rpl (s : State) (d : Nat) : Replay := (s.die d).replay
def State.modRpl (s : State) (d : Nat) (f : Replay → Replay) : State := s.modDie d fun x => { x with replay := f x.replay }
def Replay.state (r : Replay) : Nat := bitsOf r.stat 63 60
def Replay.kind (r : Replay) : Nat := bitsOf r.ctl 59 58
def Replay.target (r : Replay) : Nat := bitsOf r.ctl 55 48
def Replay.area (r : Replay) : Nat := r.len.toNat - 0x1_0000
def rplStat (state entry unit : Nat) : W64 := BitVec.ofNat 64 (state * 2 ^ 60 + entry % 2 ^ 28 * 2 ^ 32 + unit % 2 ^ 16 * 2 ^ 16)
/-- The array the unit of die `d` is set on. -/
def Replay.array (r : Replay) (d : Nat) : Nat × Nat := (12 * d + r.target / 8, r.target % 8)

def padMul64 (l : List Byte) : List Byte := l ++ List.replicate ((64 - l.length % 64) % 64) 0#8

/-- An entry: the header with its length, then the data. -/
def logEntry (word team w3 w4 : Nat) (data : List Byte) : List Byte :=
  let data := padMul64 data
  leBytes 8 (64 + data.length) ++ leBytes 8 word ++ leBytes 8 team ++ leBytes 8 w3 ++ leBytes 8 w4 ++
    List.replicate 24 0#8 ++ data

/-- The unit of die `d` appends an entry, or its log is full. -/
def State.logAppend (s : State) (d : Nat) (e : List Byte) : State :=
  let r := s.rpl d
  if r.state ≠ 1 then s
  else if r.area < r.used + e.length then s.modRpl d fun x => { x with stat := rplStat 2 0 0 }
  else
    (s.writePhys (r.base.toNat + r.used) e).modRpl d fun x => { x with
      used := x.used + e.length
      entries := x.entries + 1 }

def rotl (w x n : Nat) : Nat := (x * 2 ^ n) % 2 ^ w + x / 2 ^ (w - n)
/-- rowd(i) of a bank (R417). -/
def rowDigest (bank : List Nat) (i : Nat) : Nat :=
  (List.range 64).foldl (fun a j => a ^^^ rotl 32 (bank.getD (64 * i + j) 0) (j % 32)) 0
def bankDigests (bank : List Nat) : List Nat := (List.range 64).map (rowDigest bank)
/-- The digest of a destination row. -/
def copyDigest (row : List Byte) : Nat :=
  (List.range ((row.length + 7) / 8)).foldl (fun a q => a ^^^ rotl 64 (leNat ((row.drop (8 * q)).take 8)) (q % 64)) 0

/-- Bank flags and poison marks in the layout of offset 0x340. -/
def Matrix.flagMarks (m : Matrix) : Nat := m.flagWord.toNat % 2 ^ 24

def rowBytes (rows : Table Byte) : List Byte := (List.range 16384).map fun k => rows.get 0 k

/-- The bank an entry acts on. -/
def MOp.bank : MOp → Nat
  | .fmt _ => 0
  | .mul _ c _ _ _ _ => c
  | .zero c => c
  | .ld c _ _ => c
  | .st _ c _ _ => c

/-- The data of a matrix entry: `t` the team before it, `m` its array after. -/
def matrixLog (t : Team) (e : MEntry) (m : Matrix) : List Byte :=
  let bytes (l : List Nat) : List Byte := l.map t.scrByte
  let kBytes (w : List W64) (boff k : Nat) : List Byte := t.kBytes e.got w boff k
  let mid : List Byte := match e.op with
    | .fmt _ | .zero _ => []
    | .mul _ _ n boff rows w =>
      (if e.reuse then [] else rowBytes rows) ++ (List.range n).flatMap (kBytes w boff)
    | .ld _ off rs => (bankAddrs off rs 4).flatMap fun a => bytes (span a 4)
    | .st f c _ _ => (m.bank c).flatMap fun v => leBytes (mstWidth f) (mstElem f v).1
  m.fmt.flatMap le8 ++ mid ++ (bankDigests (m.bank e.op.bank)).flatMap (leBytes 4)

/-- The array of team `t` is the one its die's unit logs. -/
def State.logsArray (s : State) (t : Team) : Bool :=
  let d := dieOfCore t.core
  let r := s.rpl d
  r.state == 1 && r.kind == 0 && r.array d == (t.core, t.slot)

/-- A copy of engine `e` of die `d` has been performed. -/
def State.logCopy (s : State) (d e : Nat) (c : Copy) (status : Nat) : State :=
  let r := s.rpl d
  if r.state = 1 ∧ r.kind = 1 ∧ r.target = e then
    let big := decide (2 ^ 20 < BlockWords.rowLen c.words * BlockWords.rows c.words)
    let data := c.words.flatMap le8 ++ if big then [] else c.read.flatten ++ c.read.flatMap fun row => leBytes 8 (copyDigest row)
    s.logAppend d (logEntry c.word.toNat c.team.toNat status big.toNat data)
  else s

/-! ## Performing the queue (R178) -/

/-- How many of the latest cuts the array's head entry lies before. -/
def State.oldEntry (s : State) (t : Team) : Nat := s.olderTeam t.part t.id fun u => u.mtx.any fun q => !q.queue.isEmpty

/-- A K-step of the head entry reads its byte `a` of scratch (R189, R301). -/
def MEntry.reads (e : MEntry) (t : Team) (k a : Nat) : MEntry :=
  match e.op with
  | .mul _ _ n boff _ w =>
    if k < n ∧ (kAddrs w boff k).contains a then { e with got := e.got.put (2 ^ 32 * k + a) (t.kByte e.got k a) } else e
  | _ => e
def Team.entryReads (t : Team) (k a : Nat) : Team :=
  match t.mtx with
  | some m => match m.queue with
    | e :: r => { t with mtx := some { m with queue := e.reads t k a :: r } }
    | [] => t
  | none => t

/-- The head entry `e` of the array of `t` is performed. -/
def State.entryDone (s : State) (t : Team) (m : Matrix) (e : MEntry) : State :=
  let after (u : Team) : Team :=
    match u.mtx with
    | some q => ({ u with mtx := some { q with queue := q.queue.tail } }.runEntry { q with queue := q.queue.tail } e.op e.got).subCnt 3
    | none => u
  let s := s.asOld (s.oldEntry t) fun s =>
    s.modWork t.part t.id fun u => { after u with wd := 0 }
  let s := s.countEvent t.part (dieOfCore t.core) 0x003 e.op.steps
  let s := match s.team? t.id with
    | some u =>
      if s.logsArray t then
        match u.mtx with
        | some q => s.logAppend (dieOfCore t.core) (logEntry e.word.toNat t.id.toNat q.flagMarks 0 (matrixLog t e q))
        | none => s
      else s
    | none => s
  if m.queue.length = 1 then s.setArr t.core t.slot { s.arr t.core t.slot with idleSince := s.now } else s

/-- The entry writes scratch. -/
def MOp.stores : MOp → Bool
  | .st .. => true
  | _ => false

/-- MATRIX_ENTRY_PERFORMED: K-steps start as the governor lets them; with the last the entry is performed. -/
def State.matrixEntry (s : State) (id : TeamId) : State :=
  match s.team? id with
  | none => s
  | some t =>
    match t.mtx with
    | none => s
    | some m =>
      match m.queue with
      | [] => s
      | e :: r =>
        let a := s.arr t.core t.slot
        let d := dieOfCore t.core
        if t.stat = .saved ∨ (a.gated ∧ e.op.datapath) ∨ a.blocked.isSome ∨ (e.op.stores ∧ s.writeHeld t.part []) then s
        else
          let left := e.op.steps - e.started
          let k := if s.govOn d then kStarts (s.govLimit d) e.op.clocks left a.used else (left, a.used)
          let s := s.setArr t.core t.slot { a with
            used := k.2
            blocked := if k.1 < left then some s.clock else none }
          if k.1 < left then
            s.modTeam id fun u => { u with mtx := some { m with queue := { e with started := e.started + k.1 } :: r } }
          else s.entryDone t m e
/-- MATRIX_ENTRY_PERFORMED of a part: K-step `k` of the head entry reads one byte. -/
def State.matrixRead (s : State) (id : TeamId) (k a : Nat) : State :=
  match s.team? id with
  | none => s
  | some t =>
    let x := s.arr t.core t.slot
    if t.stat = .saved ∨ x.gated ∨ x.blocked.isSome then s
    else s.asOld (s.oldEntry t) fun s => s.modWork t.part id fun u => u.entryReads k a
def execMatrixEntryPerformed (s : State) : Out :=
  .next (if s.ev.flag then s.matrixRead s.ev.team s.ev.idx s.ev.addr else s.matrixEntry s.ev.team)

/-- The partition whose team has the array of a slot. -/
def State.arrTeam (s : State) (c k : Nat) : Option Team :=
  (s.residents c).find? fun t => t.slot == k && t.mtx.isSome

/-- A window begins for array `k` of core `c`: what it waited is counted (R320). -/
def State.windowArr (s : State) (c k : Nat) : State :=
  let a := s.arr c k
  let s := s.setArr c k { a with
    used := 0
    blocked := none }
  match a.blocked, s.arrTeam c k with
  | some since, some t => (s.bump t.part 0x154 (s.clock - since)).countEvent t.part (dieOfCore c) 0x004 (s.clock - since)
  | _, _ => s

/-- GOVERNOR_WINDOW on die `d`: LIM and WIN take effect (log 88). -/
def State.governorWindow (s : State) (d : Nat) : State :=
  let s := (List.range 12).foldl (fun s c => (List.range 8).foldl (fun s k => s.windowArr (12 * d + c) k) s) s
  s.setMr (govKey d) (s.mr (0x198 + d))
def execGovernorWindow (s : State) : Out := .next (s.governorWindow s.ev.die)

/-- A write of GOVCTL: EN counts at once, LIM and WIN at the next window (R320) (log 88). -/
def State.govWrite (s : State) (d : Nat) (v : W64) : State := s.setMr (0x198 + d) v

/-- The key of the time of the last MGATE write, in ns. -/
def gateKey : Nat := 0x1_0190
def State.gateWrite (s : State) (v : W64) : State :=
  (s.setMr 0x190 v).setMr gateKey (BitVec.ofNat 64 s.now)

/-- ARRAY_GATE: an array idle for GDLY µs gates; its idle time counts from the end of filler, which every idle array runs (R423, log
145). -/
def State.arrayGate (s : State) (c k : Nat) : State :=
  let a := s.arr c k
  let g := (s.mr 0x190).toNat
  let idle := (s.arrTeam c k).all fun t => t.arrayQuiet
  let since := max (max a.idleSince s.mgmt.fillEnd) (s.mr gateKey).toNat
  if !a.gated && !s.mgmt.filler && idle && g != 0 && decide (since + 1000 * g ≤ s.now) then s.setArr c k { a with
    gated := true
    waking := false } else s
def execArrayGate (s : State) : Out := .next (s.arrayGate s.ev.core s.ev.slot)

/-- ARRAY_WAKE: the wake that an issue started has ended. -/
def State.arrayWake (s : State) (c k : Nat) : State :=
  let a := s.arr c k
  if a.gated && a.waking then s.setArr c k { a with
    gated := false
    waking := false
    idleSince := s.now } else s
def execArrayWake (s : State) : Out := .next (s.arrayWake s.ev.core s.ev.slot)

/-! ## Replay (R418) -/

/-- Records of kinds 4 and 5 to the partitions with cores on die `d`. -/
def State.haltNotice (s : State) (d kind : Nat) : State :=
  (List.range 17).foldl (fun s p =>
    if (List.range 12).any fun c => s.holdsCore p (12 * d + c) then
      s.sendSup p [BitVec.ofNat 32 kind, BitVec.ofNat 32 d, 0, 1] else s) s

/-- LOG = 1: the log is clear, and begins with what the target array holds. -/
def State.rplLog (s : State) (d : Nat) (v : W64) : State :=
  let s := s.modRpl d fun x => { x with
    ctl := v
    stat := rplStat 1 0 0
    used := 0
    entries := 0 }
  let r := s.rpl d
  let at_ := r.array d
  s.modRpl d fun x => { x with start := if r.kind = 0 then (s.arrTeam at_.1 at_.2).bind fun t => t.mtx.map fun m => (t.id, m) else none }

/-- GO = 1; `none` where it faults. -/
def State.rplGo (s : State) (d : Nat) (v : W64) : Option State :=
  let r := s.rpl d
  if r.state = 0 ∨ r.state = 3 then none
  else some ((s.modRpl d fun x => { x with
    ctl := v &&& 0x0CFF_0000_0000_0000#64
    stat := rplStat 3 0 0
    halted := true }).haltNotice d 4)

/-- A RPLCTL write; `none` where it faults (0x14). During a replay a write of LOG changes nothing (log 60). -/
def State.rplctl (s : State) (d : Nat) (v : W64) : Option State :=
  if v.getLsbD 62 then s.rplGo d v
  else if (s.rpl d).state = 3 then some s
  else if v.getLsbD 63 then some (s.rplLog d v)
  else some (s.modRpl d fun x => { x with
    ctl := v
    stat := if x.state = 1 then rplStat 0 0 0 else x.stat })

/-- A header and the data of a log entry. -/
structure LogRec where
  word : W64
  team : TeamId
  w3 : Nat
  w4 : Nat
  data : List Byte
  deriving DecidableEq, Repr

/-- The entry at the head of the log; `none` where its header is malformed. -/
def parseLog (l : List Byte) : Option (LogRec × List Byte) :=
  let f (k : Nat) : Nat := leNat ((l.drop (8 * k)).take 8)
  let n := f 0
  if n < 64 ∨ n % 64 ≠ 0 ∨ l.length < n ∨ ((l.drop 40).take 24).any (· != 0) then none
  else some (⟨BitVec.ofNat 64 (f 1), BitVec.ofNat 32 (f 2), f 3, f 4, (l.take n).drop 64⟩, l.drop n)

/-- Logged bytes as K-steps. -/
def logSteps (w : List W64) (rows : Table Byte) (per : Nat) : Nat → Nat → List Byte → List KStep
  | 0, _, _ => []
  | n + 1, k, l => kStepOf w rows k ((l.take per).map (·.toNat)) :: logSteps w rows per n (k + 1) (l.drop per)

def rowsOfBytes (l : List Byte) : Table Byte :=
  ((List.range l.length).zip l).filter fun (_, b) => b != 0

/-- The rerun of one matrix entry: the array after it, the bank, the digests logged; `none` for a word that is no queue
entry. -/
def rerunMatrix (m : Matrix) (r : LogRec) : Option (Matrix × Nat × List Byte) :=
  let fmt := (List.range 8).map fun k => BitVec.ofNat 64 (leNat ((r.data.drop (8 * k)).take 8))
  let rest := r.data.drop 64
  let m := { m with fmt := fmt }
  let mul (set : Bool) (n c : Nat) (reu : Bool) : Option (Matrix × Nat × List Byte) :=
    let per := (kAddrs fmt 0 0).length
    let rows := if reu then (m.latch.map (·.rows)).getD [] else rowsOfBytes (rest.take 16384)
    let rest := if reu then rest else rest.drop 16384
    let m := { m with latch := some ⟨0, 0, 0, rows⟩ }
    some (m.multiply set c fmt (logSteps fmt rows per n 0 rest) false, c, rest.drop (n * per))
  match decodeWord r.word with
  | .ok (.mfmt _) => some (m, 0, rest)
  | .ok (.mma set x) => mul set 1 x.acc.val x.reu
  | .ok (.mloop set x) => mul set (x.xo.val + 1) x.acc.val x.reu
  | .ok (.mzero x) => some (m.setBank x.acc.val [], x.acc.val, rest)
  | .ok (.mld x) =>
    some (m.setBank x.acc.val ((List.range 4096).map fun n => leNat ((rest.drop (4 * n)).take 4)), x.acc.val, rest.drop 16384)
  | .ok (.mst f x) =>
    let vs := (m.bank x.acc.val).map (mstElem f)
    some (m.raise x.acc.val (vs.foldl (fun g v => g ||| v.2) 0), x.acc.val, rest.drop (4096 * mstWidth f))
  | _ => none

/-- How a replay ends: state, entry, unit, bytes for the result area. -/
structure Rerun where
  state : Nat
  entry : Nat
  unit : Nat
  out : List Byte
  deriving DecidableEq, Repr

def bankBytes (bank : List Nat) : List Byte := bank.flatMap (leBytes 4)

/-- The rerun of a matrix log, `k` the entry's index, `fuel` the entries left. -/
def rerunArray : Nat → Nat → TeamId → Matrix → List Byte → Rerun
  | 0, _, _, _, _ => ⟨4, 0, 0, []⟩
  | fuel + 1, k, team, m, l =>
    match parseLog l with
    | none => ⟨6, k, 0, []⟩
    | some (r, l) =>
      match rerunMatrix (if r.team = team then m else Matrix.empty) r with
      | none => ⟨6, k, 0, []⟩
      | some (m, c, tail) =>
        let m := { m with poison := BitVec.ofNat 4 (r.w3 / 2 ^ 20) }
        let logged (i : Nat) : Nat := leNat ((tail.drop (4 * i)).take 4)
        match (List.range 64).find? fun i => rowDigest (m.bank c) i != logged i with
        | some i => ⟨5, k, i, bankBytes (m.bank c)⟩
        | none => if m.flagMarks = r.w3 then rerunArray fuel (k + 1) r.team m l else ⟨5, k, 0, bankBytes (m.bank c)⟩

/-- The rows of a copy entry that differ from their digest. -/
def rerunCopy : Nat → Nat → List Byte → Rerun
  | 0, _, _ => ⟨4, 0, 0, []⟩
  | fuel + 1, k, l =>
    match parseLog l with
    | none => ⟨6, k, 0, []⟩
    | some (r, l) =>
      match decodeWord r.word with
      | .ok (.bcp _) =>
        if r.w4 % 2 = 1 then rerunCopy fuel (k + 1) l
        else
          let block := (List.range 8).map fun i => BitVec.ofNat 64 (leNat ((r.data.drop (8 * i)).take 8))
          let rest := r.data.drop 64
          let len := BlockWords.rowLen block
          let n := min (BlockWords.rows block) (rest.length / (len + 8))
          let row (i : Nat) : List Byte := (rest.drop (i * len)).take len
          match (List.range n).find? fun i => copyDigest (row i) != leNat ((rest.drop (n * len + 8 * i)).take 8) with
          | some i => ⟨5, k, i, row i⟩
          | none => rerunCopy fuel (k + 1) l
      | _ => ⟨6, k, 0, []⟩

/-- REPLAY_DONE: the target has rerun its log; the cores of the die go on. -/
def State.replayDone (s : State) (d : Nat) : State :=
  let r := s.rpl d
  if r.state ≠ 3 then s
  else
    let log := (List.range r.used).map fun i => s.memByte (r.base.toNat + i)
    let x := if r.kind = 0 then
        match r.start with
        | some (t, m) => rerunArray r.entries 0 t m log
        | none => rerunArray r.entries 0 0 Matrix.empty log
      else rerunCopy r.entries 0 log
    let s := if x.state = 5 then s.writePhys (r.base.toNat + r.area) x.out else s
    (s.modRpl d fun y => { y with
      stat := if x.state = 5 then rplStat 5 x.entry x.unit else rplStat x.state 0 0
      halted := false }).haltNotice d 5
def execReplayDone (s : State) : Out := .next (s.replayDone s.ev.die)

end Sys2Proof.Machine
end

