-- ==== Sys2Proof/Machine/Control.lean ====
section
/-!
DEFINITION. Control transfers, `exit` and divergence (R96-R105).
-/
namespace Sys2Proof.Machine

/-- The header address of the clause in issue. -/
def Team.header (t : Team) : W64 :=
  match t.r.cl with
  | some c => c.h
  | none => t.r.pc

/-- H + 8 x DISP (R27). -/
def Team.disp (t : Team) (d : W64) : W64 := t.header + 8#64 * d

def guardIsScal : Guard → Bool
  | .scal .. => true
  | _ => false

/-- The packet of a taken `br`, `call` or `exit` (R391). -/
def State.traceTaken (s : State) (t : Team) (g : Guard) : State := if guardIsScal g then s.traceUni t 0 else s

def brEff (g : Guard) (disp : BitVec 32) (s : State) (t : Team) : Eff :=
  .goto (s.traceTaken t g) (t.disp (disp.signExtend 64))
def execBr (g : Guard) (disp : BitVec 32) (s : State) : Out := issue (.br g disp) (brEff g disp) s

/-- The link register receives the address of the next clause (R98). -/
def State.link (s : State) (t : Team) (d : Dest) : State :=
  s.modTeam t.id fun u => { u with r := u.r.sset (destIndex d) t.nextClause }

def callEff (g : Guard) (d : Dest) (disp : BitVec 32) (s : State) (t : Team) : Eff :=
  .goto ((s.traceTaken t g).link t d) (t.disp (disp.signExtend 64))
def execCall (g : Guard) (d : Dest) (disp : BitVec 32) (s : State) : Out :=
  issue (.call g d disp) (callEff g d disp) s

def brxEff (x : RArgs) (s : State) (t : Team) : Eff := .goto (s.traceInd t (uni s t x.a)) (uni s t x.a)
def execBrx (x : RArgs) (s : State) : Out := issue (.brx x) (brxEff x) s
def retEff (x : RArgs) (s : State) (t : Team) : Eff := .goto (s.traceInd t (uni s t x.a)) (uni s t x.a)
def execRet (x : RArgs) (s : State) : Out := issue (.ret x) (retEff x) s
def callxEff (x : RArgs) (s : State) (t : Team) : Eff :=
  .goto ((s.traceInd t (uni s t x.a)).link t x.d) (uni s t x.a)
def execCallx (x : RArgs) (s : State) : Out := issue (.callx x) (callxEff x) s

/-! ## `exit` (R99) -/

/-- The lanes `x` leave an entry. -/
def REntry.without (x : LaneMask) (e : REntry) : REntry :=
  { e with
    rmask := e.rmask &&& ~~~x
    pmask := e.pmask &&& ~~~x }

/-- The lanes `x` leave the masks of the entry whose image stands at `pa`; poison stays. -/
def State.clearEntry (s : State) (x : LaneMask) (pa : Nat) : State :=
  (List.range 256).foldl (fun s k =>
    s.putByte (pa + k) (s.memByte (pa + k) &&& ~~~(x.extractLsb' (8 * (k % 128)) 8))) s

/-- The lanes `x` leave every entry of the spill area (R99, R101). -/
def State.clearSpilled (s : State) (t : Team) (x : LaneMask) : State :=
  (List.range (8 * t.r.blocks)).foldl (fun s j => s.clearEntry x (s.spillBase t 0 + 272 * j)) s

/-- The loop of R99: `none` retires the team, otherwise where it goes on; the flag says that a fill it needs met poison. -/
def exitLoop (s : State) (t : Team) : Nat → Team × Option W64 × Bool
  | 0 => (t, none, false)
  | fuel + 1 =>
    match s.fill t with
    | (t, true) => (t, none, true)
    | (t, false) =>
      match t.r.stack with
      | [] => (t, none, false)
      | e :: rest =>
        if e.pmask != 0 then
          ({ t with r := { t.r with
            mask := e.pmask
            stack := { e with pmask := 0 } :: rest } }, some e.ppc, false)
        else if e.rmask != 0 then
          ({ t with r := { t.r with
            mask := e.rmask
            stack := rest } }, some e.rc, false)
        else exitLoop s { t with r := { t.r with stack := rest } } fuel

/-- R99. Entries in the spill area change only behind closed checks, for memory has no undo. A fill that the loop needs
before any arrival faults at the `exit`, which then has no effect (log 102). -/
def exitEff (g : Guard) (s : State) (t : Team) : Eff :=
  match s.team? t.id with
  | none => .wait
  | some live =>
    if 0 < t.r.blocks ∧ !t.closed then .wait
    else
      let u := { live with r := { live.r with stack := t.r.stack.map (REntry.without t.r.mask) } }
      let s := s.clearSpilled t t.r.mask
      match exitLoop s u u.steps with
      | (_, _, true) => .fault 0x40 0 noLane
      | (u, none, false) => .leave (s.setTeam { u with
          r := { u.r with mask := 0 }
          stat := .retiring })
      | (u, some h, false) => .leave ((s.traceTaken t g).arrive u h)
def execExit (g : Guard) (s : State) : Out := issue (.exit g) (exitEff g) s

/-! ## `brd` (R102) -/

/-- The taken mask words of a DIV packet. -/
def divFields (t : Team) (taken : LaneMask) : List Byte :=
  t.passWords.flatMap fun w => leBytes 4 (maskWord taken w).toNat

/-- The join clause: a clause header with RCV = 1. -/
def State.joinOk (s : State) (t : Team) (j : W64) : State × Option Nat :=
  match s.checkTarget t j with
  | (s, some c) => (s, some c)
  | (s, none) =>
    match s.rcvAt t j with
    | (s, true) => (s, none)
    | (s, false) => (s, some 0x05)

def brdEff (g : Guard) (target join : BitVec 16) (s : State) (t : Team) : Eff :=
  let tgt := t.disp (target.signExtend 64)
  let j := t.disp (join.signExtend 64)
  let f := t.nextClause
  let taken := maskOf (t.active g)
  let rest := t.r.mask &&& ~~~taken
  match s.checkTarget t tgt with
  | (_, some c) => .fault c tgt noLane
  | (s, none) =>
    match s.joinOk t j with
    | (_, some c) => .fault c j noLane
    | (s, none) =>
      let s := s.tracePacket t t.r.pc ⟨2, 0, divFields t taken⟩
      if rest = 0 then .goto s tgt
      else if taken = 0 then .ok s
      else if 256 ≤ t.r.depth then .fault 0x07 0 noLane
      else if t.r.spills && !t.closed then .wait
      else
        match s.checkTarget t f with
        | (_, some c) => .fault c f noLane
        | (s, none) =>
          match s.team? t.id with
          | none => .wait
          | some u =>
            let (s, u) := s.push u ⟨t.r.mask, rest, f, j⟩
            .goto (s.setTeam { u with r := { u.r with mask := taken } }) tgt
def execBrd (g : Guard) (target join : BitVec 16) (s : State) : Out := issue (.brd g target join) (brdEff g target join) s

end Sys2Proof.Machine
end

