-- ==== Sys2Proof/Machine/Begin.lean ====
section
/-!
DEFINITION. The start of a clause (R13-R15, R38): fetch, validation, the port, the header's condition, the condition of a
waiting instruction.
-/
namespace Sys2Proof.Machine

/-- R13: every selected counter is at or below WTHR. -/
def headerReady (t : Team) (h : Header) : Bool :=
  (List.range 6).all fun n => !h.wmask.getLsbD n || decide (t.cnt n ≤ h.wthr)

/-- The condition of a waiting instruction (R15); every other instruction has none. -/
def waitReady (s : State) (t : Team) (i : Instr) : Bool :=
  match i with
  | .acpw tag _ => acpwReady tag.val t
  | .mwait _ => mwaitReady t
  | .await x => awaitReady x s t
  | .qpop q _ => slotReady false q.val t
  | .qpush q _ => slotReady true q.val t
  | .fence op sc _ => fenceReady op.kind sc s t
  | .qfence x => qfenceReady x s t
  | _ => true

/-- The first instruction may start: a waiting instruction whose guard holds has its operands and its condition. -/
def firstReady (s : State) (t : Team) (cl : Clause) : Bool :=
  match cl.words with
  | [] => true
  | w :: _ =>
    match decodeWord w with
    | .error _ => true
    | .ok i =>
      match i.enc with
      | none => true
      | some e =>
        if waiting e.opc then
          let u := t.settle t.icount cl.serial
          let u := { u with r := { u.r with cl := some cl } }
          !t.mustWait t.icount cl.serial (guardAccess e.g).reads &&
            (!guardUni e.g u.r ||
              (!u.mustWait u.icount cl.serial (encAccess e none).reads && waitReady s u i))
        else true

/-- The clause that the team stands at could start: its port is free, its header's condition and that of a waiting first
instruction hold (R13-R15). -/
def State.startable (s : State) (t : Team) (c : Clause) : Bool :=
  !s.portBusy t (vectorPort c.hdr) && headerReady t (Header.ofWord c.hdr) && firstReady s t c

/-- CLAUSE_ISSUE for team `t`, which stands at a header. -/
def State.clauseIssue (s : State) (t : Team) : State :=
  if !s.runnable t || t.r.cl.isSome then s.wait
  else
    let x := s.fetchClause t t.r.pc
    match startFault t t.r.pc x.2, x.2.2 with
    | some f, _ => x.1.raise t f
    | none, .ok c => if x.1.startable t c then x.1.startClause t c 0 else x.1.wait
    | none, .error _ => x.1.wait

def execClauseIssue (s : State) : Out :=
  .next (match s.cur with
    | some t => s.clauseIssue t
    | none => s)

/-! ## YLD (R12, R16, R100) -/

/-- A team may issue: it stands in a clause, or at one that could start or that faults (log 106). -/
def State.ready (s : State) (t : Team) : Bool :=
  s.runnable t && match t.r.cl with
    | some c => t.port || !s.portBusy t (vectorPort c.hdr)
    | none =>
      let x := s.fetchClause t t.r.pc
      match startFault t t.r.pc x.2, x.2.2 with
      | none, .ok c => x.1.startable t c
      | _, _ => true

/-- Another ready team of `t`'s slot (log 106). -/
def State.other (s : State) (t : Team) : Option Team :=
  (s.teams.map (·.2)).find? fun u => u.id != t.id && u.core == t.core && u.slot == t.slot && s.ready u

/-- Before the team in issue goes on: where its last clause had YLD, its slot switches to another ready team, if one
exists. -/
def State.switched (s : State) : State :=
  match s.cur with
  | some t =>
    if t.yld then
      let s := s.setTeam { t with yld := false }
      match s.other t with
      | some u => { s with focus := some u.id }
      | none => s
    else s
  | none => s

end Sys2Proof.Machine
end

