-- ==== Sys2Proof/Machine/Shake.lean ====
section
/-!
DEFINITION. SHAKE256 (R430), as FIPS 202 defines it (log 17): the permutation Keccak-f[1600] on 25 lanes of 64 bits, lane (x, y)
at place x + 5 y.
-/
namespace Sys2Proof.Machine

def lane (a : List W64) (x y : Nat) : W64 := a.getD (x % 5 + 5 * (y % 5)) 0
/-- Every lane anew. -/
def lanes25 (f : Nat → Nat → W64) : List W64 := (List.range 25).map fun i => f (i % 5) (i / 5)

def keccakTheta (a : List W64) : List W64 :=
  let c := (List.range 5).map fun x => (List.range 5).foldl (fun z y => z ^^^ lane a x y) 0
  let d := (List.range 5).map fun x => c.getD ((x + 4) % 5) 0 ^^^ (c.getD ((x + 1) % 5) 0).rotateLeft 1
  lanes25 fun x y => lane a x y ^^^ d.getD x 0

/-- The offsets of ρ, in the places of the lanes. -/
def keccakRho : List Nat :=
  [0, 1, 62, 28, 27, 36, 44, 6, 55, 20, 3, 10, 43, 25, 39, 41, 45, 15, 21, 8, 18, 2, 61, 56, 14]

/-- ρ and π. -/
def keccakMove (a : List W64) : List W64 :=
  lanes25 fun x y => (lane a (x + 3 * y) x).rotateLeft (keccakRho.getD ((x + 3 * y) % 5 + 5 * x) 0)

def keccakChi (a : List W64) : List W64 :=
  lanes25 fun x y => lane a x y ^^^ (~~~(lane a (x + 1) y) &&& lane a (x + 2) y)

def keccakConsts : List W64 :=
  [0x0000000000000001, 0x0000000000008082, 0x800000000000808A, 0x8000000080008000, 0x000000000000808B, 0x0000000080000001,
    0x8000000080008081, 0x8000000000008009, 0x000000000000008A, 0x0000000000000088, 0x0000000080008009, 0x000000008000000A,
    0x000000008000808B, 0x800000000000008B, 0x8000000000008089, 0x8000000000008003, 0x8000000000008002, 0x8000000000000080,
    0x000000000000800A, 0x800000008000000A, 0x8000000080008081, 0x8000000000008080, 0x0000000080000001, 0x8000000080008008]

def keccakRound (a : List W64) (k : W64) : List W64 :=
  let b := keccakChi (keccakMove (keccakTheta a))
  b.set 0 (b.getD 0 0 ^^^ k)

def keccakF (a : List W64) : List W64 := keccakConsts.foldl keccakRound a

/-- A block of 136 bytes enters the state. -/
def keccakAbsorb (a : List W64) (block : List Byte) : List W64 :=
  keccakF ((List.range 25).map fun i => a.getD i 0 ^^^ (if i < 17 then BitVec.ofNat 64 (leNat ((block.drop (8 * i)).take 8)) else 0))

/-- The message with the bits 1111, a 1, zeros and a 1 behind it, in whole blocks. -/
def shakePad (m : List Byte) : List Byte :=
  let n := 136 - m.length % 136
  if n = 1 then m ++ [0x9F#8] else m ++ [0x1F#8] ++ List.replicate (n - 2) 0#8 ++ [0x80#8]

/-- The first 64 bytes of SHAKE256; byte 0 lowest. -/
def shake256 (m : List Byte) : BitVec 512 :=
  let l := shakePad m
  let a := (List.range (l.length / 136)).foldl (fun a k => keccakAbsorb a ((l.drop (136 * k)).take 136)) (List.replicate 25 0#64)
  BitVec.ofNat 512 (leNat ((a.take 8).flatMap fun x => leBytes 8 x.toNat))

end Sys2Proof.Machine
end

