-- ==== Sys2Proof/Machine/System.lean ====
section
/-!
DEFINITION. System registers (R222 and the rules that extend it): what a read gives, what a write does, `sysrd`, `syswr` and
the rows that a register or a value picks out.
-/
namespace Sys2Proof.Machine

/-! ## Reads -/

/-- CREDUSE, CREDLIM, GOVSTAT (R277, R317). -/
def State.govstat (s : State) (p : Nat) : W64 :=
  let on := (List.range 4).any fun d => s.govOn d && (List.range 12).any fun c => s.holdsCore p (12 * d + c)
  BitVec.ofNat 64 ((if on then 2 ^ 63 else 0) + (s.pr p 0x154).toNat % 2 ^ 48)

/-- The selected team is stopped (R401). -/
def State.dbgStopped (s : State) (p : Nat) : Bool :=
  match s.team? (lo32 (s.pr p 0x111)) with
  | some t => t.part == p && t.stopCause.isSome
  | none => false

/-- The partition's own registers. -/
def State.readOwn (s : State) (p n : Nat) : Option (State × W64) :=
  if n = 0x111 then
    some (s, (s.pr p n &&& 0xFFFF_FFFF#64) ||| (if s.dbgStopped p then 0x8000_0000_0000_0000#64 else 0))
  else if n = 0x113 then s.dbgdataRead p
  else if within n 0x120 0x13F && n % 4 == 3 then some (s, 0)
  else if n = 0x152 then some (s, wrap48 (s.credUse p))
  else if n = 0x153 then some (s, wrap48 (s.credLim p))
  else if n = 0x154 then some (s, s.govstat p)
  else some (s, s.pr p n)

def State.readTrace (s : State) (d r : Nat) : W64 :=
  let x := (s.die d).trace
  if r = 0 then x.ctl
  else if r = 1 then x.buf
  else if r = 2 then x.len
  else if r = 3 then x.wp
  else if r = 4 then BitVec.ofNat 64 x.lost
  else x.evt.get 0 r

def State.readReplay (s : State) (d r : Nat) : W64 :=
  let x := s.rpl d
  if r = 0 then x.ctl else if r = 1 then x.base else if r = 2 then x.len else x.stat

/-- Register `r` of partition `q`. -/
def State.readPart (s : State) (q r : Nat) : State × W64 :=
  if r = 23 then (s, if (s.part q).frozen || (s.part q).freezing then 1 else 0)
  else if r = 24 then s.pstat q
  else (s, s.pr q (0x2000 + r))

/-- A read of register `n` as partition `p` makes it; `none` where it faults (0x14). FPCTL, FPLANE, WCNT and TGCNT are a
team's. -/
def State.sysRead (s : State) (p n : Nat) : Option (State × W64) :=
  match sysInfo n with
  | none => none
  | some i =>
    match i.kind with
    | .team => some (s, 0)
    | .module => some (s, if within n 0x800 0x9FF then evCat (n - 0x800) else s.mr n)
    | .own => s.readOwn p n
    | .of q r => some (s.readPart q r)
    | .slice l => some (s, if s.sliceOwnerOf l = p then BitVec.ofNat 64 (s.slice l).disc else 0)
    | .trace d r => some (s, s.readTrace d r)
    | .replay d r => some (s, s.readReplay d r)

/-- The registers of a team. -/
def Team.sysRead (t : Team) (n : Nat) : W64 :=
  if n = 0x10 then t.r.fctl else if n = 0x20 then t.wcnt else t.tgcnt

/-! ## Writes -/

/-- What a write answers: done; done, and the writing team is held (R290); a fault with s61. `faultIn` faults after a
change that the register's rule makes. -/
inductive SysAns where
  | ok (s : State)
  | held (s : State) (ws : List (TeamId × Nat))
  | fault (code : Nat) (info : W64)
  | faultIn (s : State) (code : Nat) (info : W64)

def SysAns.of : Option State → SysAns
  | some s => .ok s
  | none => .fault 0x14 0

/-- The unperformed accesses of a partition, which a change of root waits for (R290). -/
def State.rootHold (s : State) (p : Nat) : SysAns :=
  .held ((s.dropTlb p fun _ => true).markStale p fun _ => true) (s.using p fun _ => true)

/-- DOMCFG (R385). -/
def State.writeDomcfg (s : State) (v : W64) : SysAns :=
  if (List.range 17).any fun p => p != 0 && !(s.part p).graphs.isEmpty then .fault 0x14 0 else .ok (s.setMr 0x32 v)

/-- DTIME (R432): no guest time falls. -/
def State.writeDtime (s : State) (v : W64) : SysAns :=
  .ok ((List.range 17).foldl (fun s p => s.raiseTime p) (s.setMr 0x33 v))

/-- Module registers. -/
def State.writeModule (s : State) (n : Nat) (v : W64) : SysAns :=
  if n = 0x32 then s.writeDomcfg v
  else if n = 0x33 then s.writeDtime v
  else if n = 0x190 then .ok (s.gateWrite v)
  else if within n 0x198 0x19B then .ok (s.govWrite (n - 0x198) v)
  else .ok (s.setMr n v)

/-- CMPCTL (R397): on only with an address and a length that fit its kind. -/
def State.writeCmp (s : State) (p n : Nat) (v : W64) : SysAns :=
  let a := (s.pr p (n + 1)).toNat
  let l := (s.pr p (n + 2)).toNat
  let fits := if bitsOf v 2 1 = 0 then a % 8 == 0 && l == 0 else within l 1 (2 ^ 32)
  if v.getLsbD 0 && !fits then .faultIn (s.setPr p n (s.pr p n &&& ~~~(1#64))) 0x14 0 else .ok (s.setPr p n v)

/-- The most scratch that the partition's teams hold on one core. -/
def State.scratchHeld (s : State) (p : Nat) : Nat :=
  (List.range 48).foldl (fun m c => max m (((s.residents c).filter (·.part == p)).map (·.scrS)).sum) 0

/-- The near caches of the partition's cores fit what SCRSPLIT leaves them (R284); which lines go is not said (log 107). -/
def State.trimNear (s : State) (p : Nat) : State :=
  { s with cores := s.cores.map fun (c, x) => (c, if s.coreUser c == some p then { x with near := x.near.take (s.nearCap p) } else x) }

/-- SCRSPLIT. -/
def State.writeScrsplit (s : State) (p : Nat) (v : W64) : SysAns :=
  if s.preg p 1 < v.toNat ∨ v.toNat < s.scratchHeld p then .fault 0x14 0 else .ok ((s.setPr p 0x160 v).trimNear p)

/-- PROFCTL (R414): the grants, then the notice of a change (R415). -/
def State.writeProfctl (s : State) (p : Nat) (v : W64) : SysAns :=
  if p ≠ 0 ∧ (v &&& ~~~(s.pr p 0x201D) &&& 3#64) ≠ 0 then .fault 0x06 0
  else if s.pr p 0x15C = v then .ok s
  else .ok ((s.setPr p 0x15C v).profNotice p false)

/-- PMSEL (R412, R413): an event that the device lacks makes the counter unavailable. -/
def State.writePmsel (s : State) (p k : Nat) (v : W64) : SysAns :=
  let e := bitsOf v 15 0
  let there := decide (e < 512) && (evCat e).getLsbD 63
  let sel := BitVec.ofNat 64 (e + (if e ≠ 0 ∧ !there then 2 ^ 63 else 0) + (if e < 512 ∧ (evCat e).getLsbD 62 then 2 ^ 62 else 0))
  let s := s.setPr p (0x500 + k) sel
  .ok (if (s.part p).frozen then s else s.modPart p fun x => { x with known := ((s.unavail p).map (2 ^ ·)).sum })

/-- GPTROOT (R290). -/
def State.writeGptroot (s : State) (p : Nat) (v : W64) : SysAns := (s.setPr p 0x170 v).rootHold p

/-- DBGDATA and DBGRUN (R401). -/
def State.writeDbgdata (s : State) (p : Nat) (v : W64) : SysAns := .of (s.dbgdataWrite p v)
def State.writeDbgrun (s : State) (p : Nat) (v : W64) : SysAns := .of (s.dbgrun p v)

/-- VRCMD (R325). -/
def State.writeVrcmd (s : State) (p : Nat) (v : W64) : SysAns :=
  match s.vrcmd p v with
  | .ok s => .ok s
  | .error a => .fault 0x14 a

/-- RINGCBr (R380). -/
def State.writeRingcb (s : State) (p r : Nat) (v : W64) : SysAns := .of (s.ringcb p r v)

/-- The partition's own registers. -/
def State.writeOwn (s : State) (p n : Nat) (v : W64) : SysAns :=
  if n = 0x111 then .ok (s.setPr p n (v &&& 0xFFFF_FFFF#64))
  else if n = 0x113 then s.writeDbgdata p v
  else if n = 0x114 then s.writeDbgrun p v
  else if within n 0x120 0x13F && n % 4 == 0 then s.writeCmp p n v
  else if n = 0x150 then .ok (s.setPr p n v)
  else if n = 0x15C then s.writeProfctl p v
  else if n = 0x160 then s.writeScrsplit p v
  else if n = 0x170 then s.writeGptroot p v
  else if n = 0x175 then s.writeVrcmd p v
  else if n = 0x17A then .ok ((s.setPr p n v).modPart p fun x => { x with cqSet := true })
  else if within n 0x1A0 0x1AF then s.writeRingcb p (n - 0x1A0) v
  else if within n 0x500 0x507 then s.writePmsel p (n - 0x500) v
  else if within n 0x660 0x67D then .ok ((s.modPart p fun x => { x with bins := some (x.bins.getD x.regs) }).setPr p n v)
  else .ok (s.setPr p n v)

/-- What the unit holds at EN = 1: the captured buffer, an empty FIFO, the first packet (R403, R405). -/
def Trace.start (x : Trace) (p : Nat) (v : W64) (now : Nat) (teams : List TeamId) : Trace :=
  let y := { x with
    ctl := (v &&& ~~~(0x1F_0000#64)) ||| BitVec.ofNat 64 (p * 0x1_0000)
    capBuf := x.buf
    capLen := x.len
    wp := x.wp &&& 0x8000_0000_0000_0000#64
    batch := []
    owed := false
    dead := false
    lost := 0
    fifo := []
    pendLoss := 0
    tags := []
    marks := teams
    evt := x.evt.filter fun (k, _) => decide (k < 0x100)
    lastTime := now
    since := 0
    full := false }
  y.group now none false true [eventSync now]

/-- TRCCTL of die `d` (R403). -/
def State.writeTrcctl (s : State) (p d : Nat) (v : W64) : SysAns :=
  let x := (s.die d).trace
  let en := v.getLsbD 63
  let others := 0x7FFF_FFFF_FFE0_FFFF#64
  let len := x.len.toNat
  if x.en && (v &&& others) != (x.ctl &&& others) then .fault 0x14 0
  else if en && ((x.en && x.part != p) || !within len 4096 (2 ^ 36)) then .fault 0x14 0
  else if en && !x.en then
    let ids := s.teams.filterMap fun (_, t) => if t.part == p && t.stat != .saved && dieOfCore t.core == d then some t.id else none
    .ok ((s.modDie d fun z => { z with trace := x.start p v s.clock ids }).profNotice p false)
  else
    let s' := s.modDie d fun z => { z with trace := { x with
      ctl := (v &&& ~~~(0x1F_0000#64)) ||| (x.ctl &&& 0x1F_0000#64) } }
    .ok (if x.en && !en then s'.profNotice x.part false else s')

/-- A trace register of die `d`: at level 1 it needs the grant (R403, R414). -/
def State.writeTrace (s : State) (p d r : Nat) (lvl2 : Bool) (v : W64) : SysAns :=
  let x := (s.die d).trace
  let put (y : Trace) : SysAns := .ok (s.modDie d fun z => { z with trace := y })
  if !lvl2 && p != 0 && !(s.pr p 0x201D).getLsbD (8 + d) then .fault 0x06 0
  else if r = 0 then s.writeTrcctl p d v
  else if r = 1 then put { x with buf := v }
  else if r = 2 then put { x with len := v }
  else if r = 3 then (if x.en then .fault 0x14 0 else put { x with wp := v })
  else put { x with evt := x.evt.set 0 r v }

/-- A replay register of die `d` (R416). -/
def State.writeReplay (s : State) (d r : Nat) (v : W64) : SysAns :=
  if r = 0 then .of (s.rplctl d v)
  else if r = 1 then (if s.groupOwnerOf (groupOf v.toNat) = 0 then .ok (s.modRpl d fun x => { x with base := v }) else .fault 0x14 0)
  else .ok (s.modRpl d fun x => { x with len := v })

/-- A measurement (R430): the digest of an image, or of a write to HPTROOT or SAFECTL. -/
def Mgmt.addMeasure (m : Mgmt) (bytes : List Byte) : Mgmt :=
  let d := shake256 bytes
  { m with
    measCount := m.measCount + 1
    measure :=
      if m.measure.length < 128 then m.measure ++ [d]
      else m.measure.set 127 (shake256 (leBytes 64 (m.measure.getD 127 0).toNat ++ leBytes 64 d.toNat)) }
def State.measureWrite (s : State) (n : Nat) (v : W64) : State :=
  { s with mgmt := s.mgmt.addMeasure (leBytes 8 n ++ le8 v) }

/-- HPTROOT of partition `q` (R290, R430): only partition 0's may be off. -/
def State.writeHptroot (s : State) (q : Nat) (v : W64) : SysAns :=
  if q ≠ 0 ∧ !v.getLsbD 0 then .fault 0x14 0
  else ((s.setPr q 0x200B v).measureWrite (0x2000 + 0x100 * q + 11) v).rootHold q

/-- MODE (R347): only for a partition with nothing in it. -/
def State.modeFree (s : State) (q : Nat) : Bool :=
  !(s.teams.any fun (_, t) => t.part == q) && s.credUse q == 0 && (s.part q).held.isEmpty &&
    s.dies.all fun (_, d) => d.win.all fun (_, w) => w.recs.all (·.p != q)
def State.writeMode (s : State) (q : Nat) (v : W64) : SysAns :=
  if !s.modeFree q || (v.toNat % 4 == 1 && decide (s.preg q 17 < 64 * 2 ^ 20)) then .fault 0x14 0
  else
    let s := (s.setPr q 0x2006 v).setPr q 0x151 0
    .ok (s.modPart q fun x => { x with
      epoch := 0
      cuts := []
      undo := []
      egress := []
      inputs := []
      ended := []
      onTurn := false
      rolled := false
      committed := if v.toNat % 4 = 1 then some (s.snapOf q 0 s.now false false) else none })

/-- GTOFF (R372): only while frozen, and guest time does not fall. -/
def State.writeGtoff (s : State) (q : Nat) (v : W64) : SysAns :=
  if !(s.part q).frozen || decide (s.mr 0x33 + v < s.pr q 0x2016) then .fault 0x14 0 else .ok (s.setPr q 0x2015 v)

/-- PCTL (R368). -/
def State.writePctl (s : State) (q : Nat) (v : W64) : SysAns := .of (s.pctl q v)

/-- SAFERST (R427): the device restores, and then sets bit 63. -/
def State.writeSaferst (s : State) (q : Nat) (v : W64) : SysAns :=
  .ok ((s.setPr q 0x201E (v &&& 0x1_FFFF_FFFF#64)).modPart q fun x => { x with restoring := true })

/-- The registers whose value is a physical address in the partition's own groups. -/
def physReg (r : Nat) : Bool := r == 12 || r == 13 || r == 15 || r == 16 || r == 18

/-- Register `r` of partition `q`. -/
def State.writePart (s : State) (q r : Nat) (v : W64) : SysAns :=
  let n := v.toNat
  let put : SysAns := .ok (s.setPr q (0x2000 + r) v)
  let held := ((List.range 96).filter fun l => s.sliceHolderOf l == q).length
  if r = 1 then (if n < (s.pr q 0x160).toNat then .fault 0x14 0 else put)
  else if r = 2 then (if 3 * 2 ^ 20 * held < n then .fault 0x14 0 else put)
  else if r = 3 then
    let s := s.setPr q 0x2003 v
    .ok (((s.spillDown q (s.part q).residents).fillPlaces q (s.resCap q)).refresh q)
  else if r = 6 then s.writeMode q v
  else if r = 11 then s.writeHptroot q v
  else if physReg r then (if s.ownsPa q n then put else .fault 0x14 0)
  else if r = 21 then s.writeGtoff q v
  else if r = 23 then s.writePctl q v
  else if r = 26 then .ok ((s.setPr q 0x201A v).measureWrite (0x2000 + 0x100 * q + 26) v)
  else if r = 27 then (if within (n / 2 ^ 50) 1 2 then put else .fault 0x14 0)
  else if r = 30 then s.writeSaferst q v
  else put

/-- A write of register `n` as partition `p` makes it, at level 2 where `lvl2`; the values no state takes part in are
checked first. -/
def State.sysWrite (s : State) (p n : Nat) (lvl2 : Bool) (v : W64) : SysAns :=
  match sysInfo n with
  | none => .fault 0x01 0
  | some i =>
    if !sysValueOk n v then .fault 0x14 0
    else
      match i.kind with
      | .team | .slice _ => .ok s
      | .module => s.writeModule n v
      | .own => s.writeOwn p n v
      | .of q r => s.writePart q r v
      | .trace d r => s.writeTrace p d r lvl2 v
      | .replay d r => s.writeReplay d r v

/-! ## `sysrd`, `syswr` (R222) -/

def sysrdEff (n : Nat) (g : Guard) (d : Dest) (s : State) (t : Team) : Eff :=
  match d with
  | .v i => .ok (s.modTeam t.id fun u => u.apply ((t.active g).map fun l => .v i.val l (t.r.fflag l)))
  | .s i =>
    match sysInfo n with
    | some ⟨_, _, .team, _⟩ => .ok (s.modTeam t.id fun u => u.apply [.s i.val (t.sysRead n)])
    | _ =>
      match s.sysRead t.part n with
      | none => .fault 0x14 0 noLane
      | some (s, v) => .ok (s.modTeam t.id fun u => u.apply [.s i.val v])
def execSysrd (n : BitVec 16) (g : Guard) (d : Dest) (s : State) : Out := issue (.sysrd n g d) (sysrdEff n.toNat g d) s

/-- sr.fflags of the participating lanes. -/
def fplaneEff (g : Guard) (a : Opnd) (s : State) (t : Team) : Eff :=
  let ls := t.active g
  match ls.find? fun l => (lane32 s t a l &&& ~~~(0x71F#32)) != 0 with
  | some l => .fault 0x14 0 (laneWord l)
  | none => .ok (s.modTeam t.id fun u => { u with r := ls.foldl (fun r l => r.setFflag l (lane32 s t a l)) u.r })

/-- The answer of a write, for the team that issues it. -/
def SysAns.eff (t : Team) : SysAns → Eff
  | .ok s => .ok s
  | .held s ws => .hold (s.modTeam t.id fun u => { u with holdOn := some (.rootDrop ws) })
  | .fault c a => .fault c a noLane
  | .faultIn s c a => .faultIn s c a noLane

def syswrEff (n : Nat) (g : Guard) (a : Opnd) (s : State) (t : Team) : Eff :=
  if n = 0x11 then fplaneEff g a s t
  else
    let v := uni s t a
    if n = 0x10 then
      if sysValueOk n v then .ok (s.modTeam t.id fun u => { u with r := { u.r with fctl := v } }) else .fault 0x14 0 noLane
    else (s.sysWrite t.part n (t.level == 2) v).eff t

/-! ## The host's access (R425) -/

/-- SYSSEL after an access of register `n` for partition `p`: GO reads 0, the status stands in bits 39:32. -/
def sysselWord (p n : Nat) (wr : Bool) (status : Nat) : W64 :=
  BitVec.ofNat 64 (n % 2 ^ 16 + p % 32 * 2 ^ 16 + status * 2 ^ 32 + (if wr then 2 ^ 62 else 0))
def State.sysselDone (s : State) (p n : Nat) (wr : Bool) (status : Nat) : State :=
  { s with mgmt := { s.mgmt with syssel := sysselWord p n wr status } }

/-- A management write acts when it comes from the port that holds the control plane (R420, R377). -/
def State.manages (s : State) : Bool := s.mgmt.held && s.mgmt.holder == s.ev.port

/-- The staged words of a unit block (R425). -/
def State.stage (s : State) : List W64 := (List.range 8).map fun k => s.mgmt.stage.get 0 k

/-- What the host's access leads to: the state, the status, what it waits for. -/
structure HostAns where
  s : State
  status : Nat
  wait : Option Hold

/-- Writes of N = 0x0E00 to 0x0E0B: the staged block, the unit operations, `pgret`. -/
def State.stageWrite (s : State) (n : Nat) (v : W64) : HostAns :=
  let unit (k : OpKind) : HostAns := if unitOk k s.stage then ⟨s.unitOp k s.stage none, 0, none⟩ else ⟨s, 0x62, none⟩
  if n < 0x0E08 then ⟨{ s with mgmt := { s.mgmt with stage := s.mgmt.stage.set 0 (n - 0x0E00) v } }, 0, none⟩
  else if n = 0x0E08 then unit .resize
  else if n = 0x0E09 then unit .lend
  else if n = 0x0E0A then unit .revoke
  else
    let a := (wd s.stage 0).toNat
    match shootOf v with
    | none => ⟨s, 0x14, none⟩
    | some k => if a % k.size ≠ 0 ∨ 2 ^ 56 ≤ a then ⟨s, 0x14, none⟩ else
      let (s, ws) := s.shoot k a
      ⟨s, 0, some (.pgret ws)⟩

/-- A write of register `n` by the host as a level-2 team of partition `p`. -/
def State.hostSys (s : State) (p n : Nat) (v : W64) : HostAns :=
  if within n 0x0E00 0x0E0B then s.stageWrite n v
  else if 16 < p then ⟨s, 0x01, none⟩
  else
    match sysInfo n with
    | none => ⟨s, 0x01, none⟩
    | some i =>
      if i.wr.isNone then ⟨s, 0x01, none⟩
      else
        match s.sysWrite p n true v with
        | .ok s => ⟨s, 0, none⟩
        | .held s ws => ⟨s, 0, some (.rootDrop ws)⟩
        | .fault c _ => ⟨s, c, none⟩
        | .faultIn s c _ => ⟨s, c, none⟩

/-- The host's access ends once what it waits for is gone (R227, R290): GO reads 0. -/
def State.hostHoldEnd (s : State) : State :=
  match s.mgmt.syswait with
  | some (.pgret ws) | some (.rootDrop ws) =>
    if s.gone ws then { s with mgmt := { s.mgmt with
      syswait := none
      syssel := s.mgmt.syssel &&& ~~~(1#64 <<< 63) } } else s
  | none => s
/-- PGRET_DONE and ROOT_DROP_DONE: of a team that is held, or with the flag of the host's access. -/
def execPgretDone (s : State) : Out := .next (if s.ev.flag then s.hostHoldEnd else s.pgretDone s.ev.team)
def execRootDropDone (s : State) : Out := .next (if s.ev.flag then s.hostHoldEnd else s.rootDropDone s.ev.team)

/-- The access is on its way: GO stands at 1 (log 122). -/
def State.sysselBusy (s : State) (p n : Nat) (w : Option Hold) : State :=
  { s with mgmt := { s.mgmt with
    syssel := if w.isSome then sysselWord p n true 0 ||| (1#64 <<< 63) else s.mgmt.syssel
    syswait := w } }
/-- SYSSEL with GO and WR: the data in SYSDATA. -/
def State.sysselWr (s : State) (p n : Nat) (v : W64) : State :=
  let r := State.hostSys { s with mgmt := { s.mgmt with sysdata := v } } p n v
  ((r.s.sysselDone p n true r.status).sysselBusy p n r.wait).hostHoldEnd
/-- While an access is on its way SYSSEL takes no other (log 122). -/
def State.hostWrite (s : State) (p n : Nat) (v : W64) : State :=
  if s.manages && s.mgmt.syswait.isNone then s.sysselWr p n v else s

/-- SYSSEL with GO alone. -/
def State.sysselRd (s : State) (p n : Nat) : State :=
  if within n 0x0E00 0x0E07 then
    State.sysselDone { s with mgmt := { s.mgmt with sysdata := s.mgmt.stage.get 0 (n - 0x0E00) } } p n false 0
  else
    let ok := decide (p ≤ 16) && match sysInfo n with
      | some i => i.rd.isSome
      | none => false
    if !ok then s.sysselDone p n false 0x01
    else
      match s.sysRead p n with
      | none => s.sysselDone p n false 0x14
      | some (s, v) => State.sysselDone { s with mgmt := { s.mgmt with sysdata := v } } p n false 0

def State.hostRead (s : State) (p n : Nat) : State := if s.manages && s.mgmt.syswait.isNone then s.sysselRd p n else s

def execSysselRead (s : State) : Out := .next (s.hostRead s.ev.part s.ev.idx)
def execSysselWrite (s : State) : Out := .next (s.hostWrite s.ev.part s.ev.idx s.ev.val)
def execSysselPresize (s : State) : Out := .next (s.hostWrite 0 0x0E08 0)
def execSysselPlend (s : State) : Out := .next (s.hostWrite 0 0x0E09 0)
def execSysselPrevoke (s : State) : Out := .next (s.hostWrite 0 0x0E0A 0)
def execSysselPgret (s : State) : Out := .next (s.hostWrite 0 0x0E0B s.ev.val)

/-! ## The rows -/

/-- A write of a register by whoever makes it. -/
def sysWr (i : Instr) (w : SysWr) (s : State) : Out :=
  match w.by_ with
  | .team g a => issue i (syswrEff w.n.toNat g a) s
  | .host p v => .next (s.hostWrite p.val w.n.toNat v)

/-- The same where the written value satisfies `f`: the row stands for those writes alone. -/
def sysWrOn (f : W64 → Bool) (w : SysWr) (s : State) : Out :=
  match w.by_ with
  | .team _ a =>
    match s.cur with
    | some t => if f (uni s t a) then sysWr (.syswr w) w s else .next s
    | none => .fault .noTeam
  | .host _ v => if f v then sysWr (.syswr w) w s else .next s

def execSyswr (w : SysWr) (s : State) : Out := sysWr (.syswr w) w s
def execGptrootWrite (w : SysWr) (s : State) : Out := sysWr (.gptrootWrite w) w s
def execHptrootWrite (w : SysWr) (s : State) : Out := sysWr (.hptrootWrite w) w s
def execScrsplitWrite (w : SysWr) (s : State) : Out := sysWr (.scrsplitWrite w) w s
def execDomcfgWrite (w : SysWr) (s : State) : Out := sysWr (.domcfgWrite w) w s
def execDtimeWrite (w : SysWr) (s : State) : Out := sysWr (.dtimeWrite w) w s
def execGtoffWrite (w : SysWr) (s : State) : Out := sysWr (.gtoffWrite w) w s
def execModeWrite (w : SysWr) (s : State) : Out := sysWr (.modeWrite w) w s
def execSaferstWrite (w : SysWr) (s : State) : Out := sysWr (.saferstWrite w) w s
def execProfctlWrite (w : SysWr) (s : State) : Out := sysWr (.profctlWrite w) w s
def execPmselWrite (w : SysWr) (s : State) : Out := sysWr (.pmselWrite w) w s
def execTrcctlWrite (w : SysWr) (s : State) : Out := sysWr (.trcctlWrite w) w s
def execDbgdataWrite (w : SysWr) (s : State) : Out := sysWr (.dbgdataWrite w) w s
def execDbgdataRead (g : Guard) (d : Dest) (s : State) : Out := issue (.dbgdataRead g d) (sysrdEff 0x113 g d) s

def execVrcmdCreate (w : SysWr) (s : State) : Out := sysWrOn (fun v => bitsOf v 9 8 == 1) w s
def execVrcmdDestroy (w : SysWr) (s : State) : Out := sysWrOn (fun v => bitsOf v 9 8 == 2) w s
def execRingcbEnable (w : SysWr) (s : State) : Out := sysWrOn (fun v => v.getLsbD 0) w s
def execRingcbDisable (w : SysWr) (s : State) : Out := sysWrOn (fun v => !v.getLsbD 0) w s
def execPctlFreeze (w : SysWr) (s : State) : Out := sysWrOn (fun v => v.getLsbD 0) w s
def execPctlThaw (w : SysWr) (s : State) : Out := sysWrOn (fun v => !v.getLsbD 0 && !v.getLsbD 1) w s
def execPctlReset (w : SysWr) (s : State) : Out := sysWrOn (fun v => v.getLsbD 1) w s
def execDbgrunResume (w : SysWr) (s : State) : Out := sysWrOn (fun v => bitsOf v 2 0 == 0) w s
def execDbgrunStep (w : SysWr) (s : State) : Out := sysWrOn (fun v => bitsOf v 2 0 == 1) w s
def execDbgrunSkip (w : SysWr) (s : State) : Out := sysWrOn (fun v => bitsOf v 2 0 == 2) w s
def execDbgrunKill (w : SysWr) (s : State) : Out := sysWrOn (fun v => bitsOf v 2 0 == 3) w s
def execDbgrunHalt (w : SysWr) (s : State) : Out := sysWrOn (fun v => bitsOf v 2 0 == 4) w s
def execRplctlLog (w : SysWr) (s : State) : Out := sysWrOn (fun v => v.getLsbD 63) w s
def execRplctlGo (w : SysWr) (s : State) : Out := sysWrOn (fun v => v.getLsbD 62) w s

end Sys2Proof.Machine
end

