-- ==== Sys2Proof/Machine/Manage.lean ====
section
/-!
DEFINITION. The management window (R420), power (R421-R424), bring-up and reset (R426), damage and degraded operation (R370,
R428), identity and attestation (R429-R431), the restore from the safe tier (R427).
-/
namespace Sys2Proof.Machine

/-! ## The registers (R420) -/

def Mgmt.health (m : Mgmt) : W64 := BitVec.ofNat 64 ((if m.replReq then 2 ^ 63 else 0) + m.failedCores.toNat % 2 ^ 48)
def Mgmt.pwrstat (m : Mgmt) : W64 :=
  BitVec.ofNat 64 ((if m.fwgov then 2 ^ 63 else 0) + m.hold % 2 ^ 28 * 2 ^ 32 + m.env / 1000 % 4096 * 2 ^ 16 + m.pwr % 4096)

/-- The ordering code of the module (R1), in ASCII: XYR-M4. -/
def orderingCode : List Byte := [0x58, 0x59, 0x52, 0x2D, 0x4D, 0x34]

/-- The certificate (R430): the ordering code, zero fields between offsets 0x60 and 0x7F, nothing above 0x74DF. -/
def Mgmt.certByte (m : Mgmt) (k : Nat) : Byte :=
  if !m.ready.getLsbD 40 || decide (0x74E0 ≤ k) || within k 0x60 0x7F then 0
  else if within k 0x50 0x5F then orderingCode.getD (k - 0x50) 0
  else Config.certificate k

/-- A byte of the window; a free value where no register stands (log 6). `mine` is CPSEM.MINE. The degraded flags of the ports stand
behind the failed-slice map (log 143). -/
def State.mgmtByte (s : State) (mine : Bool) (off : Nat) : Byte :=
  let m := s.mgmt
  let of (x : W64) : Byte := x.extractLsb' (8 * (off % 8)) 8
  let r := off / 8 * 8
  if r = 0x0000 then of (BitVec.ofNat 64 (m.held.toNat + 2 * (m.held && mine).toNat))
  else if r = 0x0008 then of m.ready
  else if r = 0x0010 then of m.health
  else if r = 0x0018 then of (m.failedSlices.extractLsb' 0 64)
  else if r = 0x0020 then of ((m.failedSlices.extractLsb' 64 32).zeroExtend 64)
  else if r = 0x0028 then of (m.degraded.zeroExtend 64)
  else if r = 0x0100 then of m.pwrctl
  else if r = 0x0108 then of m.pwrstat
  else if r = 0x0110 then of (wrap48 m.fillcnt)
  else if r = 0x0200 then of m.syssel
  else if r = 0x0208 then of m.sysdata
  else if within r 0x0300 0x0318 then m.attnonce.getD (off - 0x0300) 0
  else if r = 0x0320 then of m.attctl
  else if within off 0x1_0000 0x1_FFFF then m.attrep.getD (off - 0x1_0000) 0
  else if within off 0x2_0000 0x2_FFFF then m.certByte (off - 0x2_0000)
  else (Config.freeWord s.free).extractLsb' (8 * (off % 8)) 8

/-! ## Power (R421-R424) -/

def Mgmt.cap (m : Mgmt) : Nat := bitsOf m.pwrctl 11 0
def Mgmt.slew (m : Mgmt) : Nat := bitsOf m.pwrctl 41 32
/-- FLOOR where it is held. -/
def Mgmt.floor (m : Mgmt) : Nat := if m.pwrctl.getLsbD 63 && !m.fwgov then bitsOf m.pwrctl 27 16 else 0

/-- A value of PWRCTL in range. -/
def pwrctlOk (v : W64) : Bool :=
  bitsIn v 0x8000_03FF_0FFF_0FFF#64 && within (bitsOf v 11 0) 500 3000 && decide (bitsOf v 27 16 ≤ bitsOf v 11 0) &&
    within (bitsOf v 41 32) 50 1000
def State.pwrctl (s : State) (v : W64) : State := if pwrctlOk v then { s with mgmt := { s.mgmt with pwrctl := v } } else s
/-- PWRCTL_WRITE: by the port that holds the control plane, or by the management controller while none holds it (R420). -/
def execPwrctlWrite (s : State) : Out :=
  .next (if if s.ev.flag then !s.mgmt.held else s.manages then s.pwrctl s.ev.val else s)

/-- A after one µs, in mW: `d` is D in W (R422). -/
def Mgmt.envelope (m : Mgmt) (d : Nat) : Nat :=
  let up := 1000 * min d m.cap - m.env
  let a := m.env + min up m.slew
  let down := a - 1000 * max d m.floor
  a - min down m.slew

/-- A matrix entry with K-steps stands in some queue. -/
def State.matrixWork (s : State) : Bool := s.teams.any fun (_, t) => t.mtx.any fun m => m.queue.any fun e => e.op.steps != 0

/-- An array that could run filler: awake, its queue empty (R423). -/
def State.idleArray (s : State) : Bool :=
  (List.range 48).any fun c => (List.range 8).any fun k => !(s.arr c k).gated && (s.arrTeam c k).all (·.arrayQuiet)

/-- The device clears LOCK of a partition whose own cores alone can give the power that the module must shed (R414), and tells
(R415). -/
def State.shed (s : State) (us : Nat) : State :=
  (List.range 17).foldl (fun s p =>
    let c := s.pr p 0x15C
    if c.getLsbD 0 && Config.mustShed (1000 * us) p then (s.setPr p 0x15C (c &&& ~~~(1#64))).profNotice p true else s) s

/-- PWR and A as computed for a µs; what slew control held and what filler ran are free values (log 6). -/
def State.powerAt (s : State) (us : Nat) : State :=
  let m := s.mgmt
  let d := Config.powerDemand (1000 * us)
  let x := (Config.freeWord s.free).toNat
  let y := (Config.freeWord (s.free + 1)).toNat
  let env := m.envelope d
  let fill := decide (1000 * d < env) && !m.fwgov && s.idleArray
  State.shed (us := us) { s with
    free := s.free + 2
    mgmt := { m with
      ticks := us
      pwr := (Config.powerMeasured (1000 * us)).getD m.pwr
      env := env
      hold := if env < 1000 * d ∧ s.matrixWork then min (2 ^ 28 - 1) (m.hold + x % 2 ^ 28) else m.hold
      fillcnt := if fill then (m.fillcnt + y) % 2 ^ 48 else m.fillcnt
      filler := fill
      fillEnd := if m.filler then 1000 * us else m.fillEnd } }
/-- POWER_TICK: once a µs, when it is due. -/
def State.powerTick (s : State) : State :=
  if s.now < 1000 * (s.mgmt.ticks + 1) then s else s.powerAt (s.mgmt.ticks + 1)
/-- The ticks that have become due, as time passes. -/
def State.powerTicks (s : State) : State :=
  (List.range (s.now / 1000 - s.mgmt.ticks)).foldl (fun s _ => s.powerTick) s
def execPowerTick (s : State) : Out := .next s.powerTick

/-- Every measurement of the last `us` µs satisfies `f`. -/
def State.lastPower (s : State) (us : Nat) (f : Option Nat → Bool) : Bool :=
  decide (us ≤ s.mgmt.ticks) && (List.range us).all fun k => f (Config.powerMeasured (1000 * (s.mgmt.ticks - k)))
def State.powerLost (s : State) : Bool := s.lastPower 10 Option.isNone
def State.powerOver (s : State) : Bool := s.lastPower 2000 fun x => x.any fun p => decide (105 * s.mgmt.cap < 100 * p)
def State.powerFine (s : State) : Bool := s.lastPower 10000 fun x => x.any fun p => decide (p ≤ s.mgmt.cap)

/-- GOVCTL as firmware sets it. -/
def Mgmt.fwGovctl (m : Mgmt) : W64 := BitVec.ofNat 64 (2 ^ 63 + 10 * 2 ^ 16 + 256 * m.cap / 3000)
def State.engage (s : State) : State :=
  let old := (List.range 4).map fun d => s.mr (0x198 + d)
  let s := (List.range 4).foldl (fun (s : State) d => s.govWrite d s.mgmt.fwGovctl) s
  { s with mgmt := { s.mgmt with
    fwgov := true
    govSaved := some old } }
/-- FWGOV_ENGAGE (R424). -/
def execFwgovEngage (s : State) : Out :=
  .next (if !s.mgmt.fwgov && (s.powerLost || s.powerOver) then s.engage else s)

def State.disengage (s : State) : State :=
  let s := match s.mgmt.govSaved with
    | some l => (List.range 4).foldl (fun (s : State) d => s.govWrite d (wd l d)) s
    | none => s
  { s with mgmt := { s.mgmt with
    fwgov := false
    govSaved := none } }
/-- FWGOV_RELEASE. -/
def execFwgovRelease (s : State) : Out := .next (if s.mgmt.fwgov && s.powerFine then s.disengage else s)

/-! ## Identity and attestation (R429-R431) -/

/-- The report but for its signature. -/
def Mgmt.report (m : Mgmt) : List Byte :=
  leBytes 8 1 ++ leBytes 8 m.measCount ++ m.attnonce ++
    (List.range 128).flatMap fun k => leBytes 64 (m.measure.getD k 0).toNat

/-- ATTCTL bit 0 := 1 (log 122). -/
def State.sign (s : State) : State :=
  if s.mgmt.ready.getLsbD 40 then
    { s with mgmt := { s.mgmt with
      attctl := 1
      signing := some s.mgmt.report } }
  else s
def execAttctlSign (s : State) : Out := .next (if s.manages then s.sign else s)

/-- ATTEST_DONE. -/
def State.attestDone (s : State) : State :=
  match s.mgmt.signing with
  | some r => { s with mgmt := { s.mgmt with
      attrep := r ++ leBytes 29792 (Config.signature r).toNat
      attctl := 3
      signing := none } }
  | none => s
def execAttestDone (s : State) : Out := .next s.attestDone

/-- A port that becomes ready carries what has waited for one. -/
def State.carry (s : State) : State :=
  if s.linkReady then { s with
    outbox := s.outbox ++ s.unsent
    unsent := [] } else s

/-- FIRMWARE_VERIFY: the function of READY bit `k` is there once its image verifies; bit 0 is the first. -/
def State.firmware (s : State) (k : Nat) (image : List Byte) : State :=
  if 40 < k ∨ k = 3 ∨ (k ≠ 0 ∧ !s.mgmt.ready.getLsbD 0) then s
  else if Config.imageVerifies image then
    State.carry { s with mgmt := { s.mgmt.addMeasure image with ready := s.mgmt.ready ||| (1#64 <<< k) } }
  else { s with mgmt := { s.mgmt with replReq := true } }
def execFirmwareVerify (s : State) : Out := .next (s.firmware s.ev.idx s.ev.bytes)

/-- MODULE_RESET: the schedule and the counter of free values are no part of the module. -/
def State.moduleReset (s : State) : State := { State.reset with
  agenda := s.agenda
  free := s.free }
def execModuleReset (s : State) : Out := .next s.moduleReset

/-! ## Damage (R370, R428) -/


/-- UNCORRECTABLE_ERROR in granule `g` of local memory. -/
def State.damage (s : State) (g : Nat) : State :=
  if localTop ≤ 32 * g then s
  else
    let f := frameOf (32 * g)
    { s with
      poison := s.poison.set 0 g 0xFFFF_FFFF#32
      retiring := s.retiring.put f (g :: (s.retiring.get [] f).filter (· != g)) }
def execUncorrectableError (s : State) : Out := .next (s.damage s.ev.addr)

/-- PAGE_RETIRE_DONE: the frame stands in a spare of its channel group, and its owner is told. -/
def State.pageRetire (s : State) (f : Nat) : State :=
  match s.retiring.get? f with
  | none => s
  | some lost =>
    let s := { s with retiring := s.retiring.del f }
    let g := groupOf (f * pageBytes)
    let used := s.spares.get 0 g
    if 32 ≤ used then { s with mgmt := { s.mgmt with replReq := true } }
    else
      let lost := lost ++ (s.lostFirst.get [] f).filter fun g => !lost.contains g
      let n := lost.length
      let pa := BitVec.ofNat 64 (f * pageBytes)
      let s := { s with
        spares := s.spares.set 0 g (used + 1)
        lostFirst := s.lostFirst.put f lost
        mgmt := if used + 1 = 32 then { s.mgmt with replReq := true } else s.mgmt }
      s.sendSup (s.groupOwnerOf g) [lo32 pa, hi32 pa, BitVec.ofNat 32 n, 0x40]
def execPageRetireDone (s : State) : Out := .next (s.pageRetire s.ev.addr)

/-- A unit that fails leaves whatever operation was taking it, and its holder as under `prevoke`; scrubbed, it is partition 0's
(R428, log 154). -/
def State.failOp (s : State) (p src cs ls : Nat) : State :=
  let off (a b : Nat) : Nat := bitSum ((bitList 96 a).filter fun k => !b.testBit k)
  let ops : Table UnitOp := s.ops.map fun (i, o) => (i, { o with
    outCores := off o.outCores cs
    outSlices := off o.outSlices ls })
  { s with
    ops := ops.put s.nops ⟨.fail, p, src, [], none, s.now, cs, ls, []⟩
    nops := s.nops + 1 }

/-- A core that fails: its teams are killed with 0x40, and it leaves its holder, failed. -/
def State.coreFail (s : State) (c : Nat) : State :=
  if s.mgmt.failedCores.getLsbD c then s
  else
    let p := s.coreHolderOf c
    let s := (s.residents c).foldl (fun s t => s.setTeam (t.kill 0x40)) s
    let s := State.failOp { s with mgmt := { s.mgmt with
        failedCores := s.mgmt.failedCores ||| (1#64 <<< c)
        replReq := true } } p (s.coreOwnerOf c) (2 ^ c) 0
    (s.members [p, s.coreOwnerOf c]).foldl (fun s q => (s.rehome q).passClaims q) s

/-- A slice that fails: its lines move to the new homes. -/
def State.sliceFail (s : State) (l : Nat) : State :=
  if s.mgmt.failedSlices.getLsbD l then s
  else
    let p := s.sliceHolderOf l
    let old (d : Nat) : List Nat := s.slicesOn p d
    let s := State.failOp { s with mgmt := { s.mgmt with
        failedSlices := s.mgmt.failedSlices ||| (1#96 <<< l)
        replReq := true } } p (s.sliceOwnerOf l) 0 (2 ^ l)
    s.openWindows p old

/-- UNIT_FAIL. -/
def execUnitFail (s : State) : Out :=
  .next (if s.ev.flag then (if s.ev.slice < 96 then s.sliceFail s.ev.slice else s)
    else (if s.ev.core < 48 then s.coreFail s.ev.core else s))

/-- UALINK_DEGRADE: a port trains below full width (R384). -/
def State.degrade (s : State) (port : Nat) : State :=
  { s with mgmt := { s.mgmt with
    degraded := s.mgmt.degraded ||| (1#16 <<< port)
    replReq := true } }
def execUalinkDegrade (s : State) : Out := .next (if s.ev.port < 16 then s.degrade s.ev.port else s)

/-! ## The control plane (R377) -/

/-- A port carries requests once it is ready. -/
def State.portReady (s : State) (k : Nat) : Bool := decide (k < 2) && s.mgmt.ready.getLsbD (1 + k)

/-- A read of CPSEM by port `k` takes it where no port holds it. -/
def State.cpsemTake (s : State) (k : Nat) : State :=
  let m := s.mgmt
  if m.held then s
  else { s with mgmt := { m with
    held := true
    holder := k
    msixSent := m.msixSent ++ m.msixPending
    msixPending := [] } }
/-- CPSEM_ACQUIRE: port `k` reads CPSEM. -/
def State.cpsemRead (s : State) (k : Nat) : State :=
  if !s.portReady k then s
  else
    let s := s.cpsemTake k
    let m := s.mgmt
    { s with mgmt := { m with hostReads := m.hostReads ++ [leBytes 8 (if m.holder = k then 3 else 1)] } }
def execCpsemAcquire (s : State) : Out := .next (s.cpsemRead s.ev.port)

/-- CPSEM_RELEASE: port `k` writes 0. -/
def State.cpsemFree (s : State) (k : Nat) : State :=
  if s.mgmt.held && s.mgmt.holder == k then { s with mgmt := { s.mgmt with held := false } } else s
def execCpsemRelease (s : State) : Out := .next (s.cpsemFree s.ev.port)

/-! ## Writes of the window (R420) -/

/-- A write of the 8 bytes at offset `r` of the window. SYSSEL with GO performs the access (log 122). -/
def State.mgmtWrite (s : State) (r : Nat) (v : W64) : State :=
  let m := s.mgmt
  if r = 0x0100 then s.pwrctl v
  else if r = 0x0200 then
    if !bitsIn v 0xC000_0000_001F_FFFF#64 || m.syswait.isSome then s
    else if v.getLsbD 63 then
      (if v.getLsbD 62 then s.sysselWr (bitsOf v 20 16) (bitsOf v 15 0) m.sysdata
        else s.sysselRd (bitsOf v 20 16) (bitsOf v 15 0))
    else { s with mgmt := { m with syssel := v } }
  else if r = 0x0208 then { s with mgmt := { m with sysdata := v } }
  else if within r 0x0300 0x0318 then
    { s with mgmt := { m with attnonce := m.attnonce.take (r - 0x0300) ++ le8 v ++ m.attnonce.drop (r - 0x0300 + 8) } }
  else if r = 0x0320 then (if v.getLsbD 0 then s.sign else s)
  else s

/-- Bytes stored to the window: each register they touch is written whole, its other bytes as they stand (log 122). -/
def State.mgmtStore (s : State) (bytes : List (Nat × Byte)) : State :=
  let rs := (bytes.map fun (a, _) => a / 8).eraseDups
  rs.foldl (fun s r =>
    let v := leNat ((List.range 8).map fun k => (bytes.lookup (8 * r + k)).getD (s.mgmtByte false (8 * r + k)))
    s.mgmtWrite (8 * r) (BitVec.ofNat 64 v)) s

/-! ## Restore from the safe tier (R427) -/

/-- The checkpoint that SAFERST names. -/
def State.safeSnap (s : State) (p : Nat) : Option Snap :=
  let v := s.pr p 0x201E
  ((s.part p).halves.get? (bitsOf v 32 32)).bind fun c => if c.num = bitsOf v 31 0 then some c else none

/-- Frames and poison as the checkpoint holds them. -/
def State.restoreMem (s : State) (p : Nat) (c : Snap) : State :=
  match c.mem with
  | none => s
  | some m =>
    { s with
      mem := Table.setAll (s.mem.filter fun (x : Host.Cell) => !s.ownsPa p x.1) Config.unlisted m.mem
      poison := Table.setAll (s.poison.filter fun (x : Nat × W32) => !s.ownsPa p (32 * x.1)) 0 m.poison }

/-- SAFE_RESTORE_DONE. -/
def State.safeRestore (s : State) (p : Nat) : State :=
  let x := s.part p
  if !x.restoring || !x.frozen then s
  else
    match s.safeSnap p with
    | none => s
    | some c =>
      let s := (s.clearPart p).restoreMem p c
      let s := s.backLines p c
      let s := s.modPart p fun y => { y with
        graphs := c.graphs
        flying := c.flying
        held := c.held
        ctrl := c.ctrl
        regions := c.regions
        leases := c.leases
        restoring := false
        cleared := true }
      let s := (c.teams.foldl (fun s (_, t) => s.returnTeam (t.returns false none) t) s).spillBack p
      let s := s.modPart p fun y => { y with
        committed := if s.turned p then some (s.snapOf p y.epoch s.now false false) else none }
      (s.setPr p 0x201E (s.pr p 0x201E ||| 0x8000_0000_0000_0000#64)).refresh p
def execSafeRestoreDone (s : State) : Out := .next (s.safeRestore s.ev.part)

end Sys2Proof.Machine
end

