-- ==== Sys2Proof/Machine/Perform.lean ====
section
/-!
DEFINITION. What is performed after issue (R141): loads, stores, atomics, ordered contributions, per-lane copies, bulk copies,
and the timers of lines, leases and cached copies.
-/
namespace Sys2Proof.Machine

/-! ## Order within a team (R142) -/

/-- The physical bytes a pending instruction still has to read or update at their homes. -/
def Pending.reads (s : State) (p : Pending) : List Nat :=
  if p.performed then []
  else match p.kind with
    | .load _ a _ _ => a.flatMap fun x => x.pas.map s.norm
    | .atomic _ _ _ _ _ _ a => a.flatMap fun x => x.1.pas.map s.norm
    | .rdo a _ => a.flatMap fun x => x.1.pas.map s.norm
    | _ => []

/-- An earlier unperformed load or update of the team shares a byte. -/
def Team.readsBefore (s : State) (t : Team) (num : Nat) (pas : List Nat) : Bool :=
  t.pend.any fun p => decide (p.num < num) && (p.reads s).any pas.contains

/-- The team has a buffered store to one of the bytes. -/
def State.buffered (s : State) (t : Team) (pas : List Nat) : Bool :=
  (s.core t.core).wbuf.any fun e => e.team == t.id && e.bytes.any fun (a, _) => pas.contains a

/-- An earlier scratch store or atomic of the team is unperformed. -/
def Team.scratchBefore (t : Team) (num : Nat) : Bool :=
  t.pend.any fun p => decide (p.num < num) && !p.performed && match p.kind with
    | .sts .. | .atoms .. => true
    | _ => false

/-! ## Poison (R145, R370) -/

/-- The lowest byte of an access that is poisoned for team `t`. -/
def State.accPoison (s : State) (t : Team) (a : Acc) : Option Nat := a.pas.findIdx? (s.loadPoison t)

/-- A load that meets poison faults; the first load of a retired frame tells its losses. -/
def State.loadFault (s : State) (t : Team) (p : Pending) : List Acc → Option State
  | [] => none
  | a :: r =>
    match s.lostLoad t p a, s.accPoison t a with
    | some s, _ => some s
    | none, some i => some (s.performFault t p ⟨0x40, a.va.toNat + i, a.lane⟩)
    | none, none => s.loadFault t p r

/-! ## Loads -/

/-- A byte as a load of team `t` gets it; the register space stands in the management window (R420). -/
def State.anyByte (s : State) (t : Team) (src : CopySrc) (pa : Nat) : Byte :=
  match s.space pa with
  | .regs => (bufByte pa (s.seenBuf t)).getD (s.mgmtByte false (pa % 2 ^ 50))
  | _ => s.loadByte t src pa

/-- Where an access takes its bytes from: an acquire at .die or wider reads homes (R300). -/
def State.loadSrc (s : State) (src : CopySrc) (acq : Option Scope) (pas : List Nat) : CopySrc :=
  if (acq.any fun sc => decide (2 ≤ sc.code)) && !s.plainly pas then .home else src

/-- The bytes of a load in one aligned eight of memory are read before the rest: every access is a set of byte events, in any
order (R144, R296, R298) (log 40). -/
def State.loadPart (s : State) (t : Team) (p : Pending) (src : CopySrc) (dst : Dst) (accs : List Acc)
    (acq : Option Scope) (got : Table Byte) (word : Nat) : State :=
  let all_ := accs.flatMap (·.pas)
  let pas := all_.filter fun a => s.norm a / 8 == word && (got.get? a).isNone
  if t.readsBefore s p.num (all_.map s.norm) || !s.hostOpen all_ || pas.any (s.loadPoison t) ||
      pas.any (fun a => s.space a == .regs) then s
  else
    let from_ := s.loadSrc src acq all_
    let got := pas.foldl (fun (g : Table Byte) a => g.put a (s.loadByte t from_ a)) got
    (s.noteLoad t from_ pas).modTeam t.id fun u => u.modPend p.seq fun q => { q with kind := .load dst accs acq got }

/-- A load at its homes or copies: what it has not read yet, and all it read is delivered. -/
def State.loadPerform (s : State) (t : Team) (p : Pending) (src : CopySrc) (dst : Dst) (accs : List Acc)
    (acq : Option Scope) (got : Table Byte) : State :=
  let pas := accs.flatMap (·.pas)
  if t.readsBefore s p.num (pas.map s.norm) || !s.hostOpen pas then s
  else
    match s.loadFault t p accs with
    | some s => s
    | none =>
      let src := s.loadSrc src acq pas
      let ws := accs.flatMap fun a => dst.deliver a.lane (a.pas.map fun b => (got.get? b).getD (s.anyByte t src b))
      let s := if pas.any (fun pa => s.space pa == .regs) then { s with free := s.free + 1 } else s
      let s := s.noteLoad t src (pas.filter fun a => (got.get? a).isNone)
      let s := match acq with
        | some sc => s.acquireOf t sc pas
        | none => s
      s.modTeam t.id fun u => u.perform p.seq ws

/-- `lds`. -/
def State.ldsPerform (s : State) (t : Team) (p : Pending) (dst : Dst) (accs : List Acc) : State :=
  if t.scratchBefore p.num then s
  else
    match accs.findSome? fun a => (a.pas.findIdx? t.scrBad).map fun i => (⟨0x40, a.va.toNat + i, a.lane⟩ : Fail) with
    | some f => s.performFault t p f
    | none => s.modTeam t.id fun u => u.perform p.seq (accs.flatMap fun a => dst.deliver a.lane (a.pas.map t.scrByte))

/-- LOAD_DATA_RETURN; of a part of a `ld` when the event's number is 1. -/
def State.loadReturn (s : State) (src : CopySrc) : State :=
  match s.evPend with
  | none => s
  | some (t, p) =>
    if p.performed || !t.acquiredBefore p.num then s
    else
      match p.kind with
      | .load dst accs acq got =>
        if s.ev.idx = 1 then s.loadPart t p src dst accs acq got s.ev.addr else s.loadPerform t p src dst accs acq got
      | .lds dst accs => s.ldsPerform t p dst accs
      | .ldv _ _ _ false none => s.ldvWake
      | .latest dst accs acq => if s.vReady t p accs then s.latestPerform t p dst accs acq else s
      | .vqry dst accs => if s.vReady t p accs then s.vqryPerform t p dst accs else s
      | _ => s
def execLoadDataReturn (s : State) : Out := .next (s.loadReturn s.ev.src)

/-! ## Stores -/

/-- Bytes performed at their homes for team `t`; those of the register space go to the window. -/
def State.performBytes (s : State) (t : Team) (bytes : List (Nat × Byte)) : State :=
  let regs := bytes.filter fun (a, _) => s.space a == .regs
  let mem := bytes.filter fun (a, _) => s.space a != .regs
  let s := s.reachLines t.part (s.linesAt (mem.map (·.1)))
  let s := (s.homeStores t.part mem).dropPeerLines (dieOfCore t.core) (mem.map (·.1))
  if regs.isEmpty then s else s.mgmtStore (regs.map fun (a, b) => (a % 2 ^ 50, b))

/-- The first entry that instruction `seq` of team `t` left in a buffer, and the entries before it. -/
def entryAt (l : List WEntry) (t : TeamId) (seq : Nat) : Option (List WEntry × WEntry) :=
  match l.findIdx? fun e => e.team == t && e.seq == seq with
  | some i => l[i]?.map fun e => (l.take i, e)
  | none => none

/-- The entry's bytes do not wait behind an earlier entry's (R285). -/
def WEntry.free (e : WEntry) (before : List WEntry) : Bool :=
  before.all fun b => b.bytes.all fun (a, _) => !e.bytes.any fun (c, _) => c == a

def State.dropEntry (s : State) (c : Nat) (e : WEntry) : State := s.modCore c fun x => { x with wbuf := x.wbuf.erase e }

/-- An entry leaves the buffer for its homes, and updates the core's copies (R285). -/
def State.entryPerform (s : State) (t : Team) (e : WEntry) : State :=
  ((s.dropEntry t.core e).performBytes t e.bytes).patchNear t.core e.bytes

/-- The bytes of an entry in one aligned eight of memory leave the buffer before the rest (R144, R296) (log 40). -/
def State.entryPart (s : State) (t : Team) (e : WEntry) (word : Nat) : State :=
  let here (x : Nat × Byte) : Bool := x.1 / 8 == word
  let now := e.bytes.filter here
  ((s.modCore t.core fun x => { x with wbuf := x.wbuf.map fun w =>
      if w = e then { e with bytes := e.bytes.filter fun x => !here x } else w }).performBytes t now).patchNear t.core now

/-- The entry's write waits (R361, R389). -/
def State.entryHeld (s : State) (t : Team) (e : WEntry) : Bool := s.writeHeld t.part (e.bytes.map (·.1))

/-- `st`: its entry leaves the buffer, or a part of it. -/
def State.stPerform (s : State) (t : Team) (p : Pending) (rel : Option Scope) (inBuf : Bool) : State :=
  let ready := match rel with
    | some sc => s.releaseReady t p sc
    | none => true
  if !ready then s
  else if !inBuf then s.modWork t.part t.id fun u => u.perform p.seq []
  else
    match entryAt (s.core t.core).wbuf t.id p.seq with
    | none => s
    | some (before, e) =>
      if !e.free before || !s.hostOpen (e.bytes.map (·.1)) || s.entryHeld t e then s
      else if s.ev.flag then s.entryPart t e s.ev.idx
      else (s.entryPerform t e).modWork t.part t.id fun u => u.perform p.seq []

/-- The oldest update that atomic `seq` of team `t` left in its core's buffer goes to its home (R153). -/
def State.updatePerform (s : State) (t : Team) (seq : Nat) : State :=
  match entryAt (s.core t.core).wbuf t.id seq with
  | some (before, e) =>
    if e.counted || !e.free before || !s.hostOpen (e.bytes.map (·.1)) then s
    else s.asOld ((s.part t.part).epoch - e.epoch) fun s => if s.entryHeld t e then s else s.entryPerform t e
  | none => s

/-- `sts`: its bytes stand in scratch, or one of them, the schedule says which (R144, R306). -/
def State.stsPerform (s : State) (t : Team) (p : Pending) (left : List (Nat × Byte)) : State :=
  if t.scratchBefore p.num || s.writeHeld t.part [] then s
  else if s.ev.flag then
    let now := left.filter fun x => x.1 == s.ev.idx
    s.modWork t.part t.id fun u => (now.foldl (fun (u : Team) (x : Nat × Byte) => u.scrPut x.1 x.2) u).modPend p.seq fun q => { q with
      kind := .sts (left.filter fun x => x.1 != s.ev.idx) }
  else s.modWork t.part t.id fun u =>
    (left.foldl (fun (u : Team) (x : Nat × Byte) => u.scrPut x.1 x.2) u).perform p.seq []

/-- The copies of lines that a core and its die hold are dropped (R176, R334). -/
def State.dropLines (s : State) (c : Nat) (lines : List Nat) : State :=
  (s.modCore c fun x => { x with near := x.near.filter fun k => !lines.contains k.line }).modDie (dieOfCore c) fun x =>
    { x with far := x.far.filter fun k => !lines.contains k.line }

/-- `cctl`: once no store of the core to the lines is on its way, where it cleans. -/
def State.cctlPerform (s : State) (t : Team) (p : Pending) (lines : List Nat) (clean drop : Bool) : State :=
  if clean && (s.core t.core).wbuf.any fun e => e.bytes.any fun (a, _) => lines.contains (lineOf a) then s
  else (if drop then s.dropLines t.core lines else s).modWork t.part t.id fun u => u.perform p.seq []

/-- STORE_PERFORMED: of a pending instruction, or of an update that an atomic left. -/
def State.storePerform (s : State) : State :=
  match s.team? s.ev.team with
  | none => s
  | some t =>
    match t.pend.find? fun p => p.seq == s.ev.seq && !p.performed with
    | none => s.updatePerform t s.ev.seq
    | some p =>
      if !t.closedBefore p.num then s
      else s.asOld (s.oldPend t.part t.id p.seq) fun s =>
        match p.kind with
        | .store _ rel inBuf => s.stPerform t p rel inBuf
        | .sts left => s.stsPerform t p left
        | .cctl lines clean drop => s.cctlPerform t p lines clean drop
        | _ => s
def execStorePerformed (s : State) : Out := .next s.storePerform

/-! ## Atomics (R150-R154) -/

/-- The new value of one update. -/
def atomApply (op : AT) (cas : Bool) (t : AtomTy) (old b e : Nat) : Nat :=
  let n := 32 * t.regs
  let o := old % 2 ^ n
  let x := b % 2 ^ n
  let signed (k : Nat) : Int := if 2 ^ (n - 1) ≤ k then (k : Int) - 2 ^ n else k
  let lt (a b : Nat) : Bool := match t with
    | .i32 | .i64 => decide (signed a < signed b)
    | _ => decide (a < b)
  if cas then (if o = e % 2 ^ n then x else o)
  else
    match op, t with
    | .add, .f32 => (ff32.add .rne o x).1
    | .add, _ => (o + x) % 2 ^ n
    | .min, .f32 => (ff32.minmax false false o x).1
    | .max, .f32 => (ff32.minmax true false o x).1
    | .min, _ => if lt x o then x else o
    | .max, _ => if lt o x then x else o
    | .and, _ => o &&& x
    | .or, _ => o ||| x
    | .xor, _ => o ^^^ x
    | .xchg, _ => x
    | .incwrap, _ => if x ≤ o then 0 else (o + 1) % 2 ^ n

/-- Where an atomic of scope `sc` on `pas` executes: at its home, or at the core (R153). -/
def State.atHome (s : State) (sc : Scope) (pas : List Nat) : Bool := decide (2 ≤ sc.code) || pas.any s.isHost

/-- One update at its home, on behalf of a release of class `rel` (R302): the old value. -/
def State.atomHome1 (s : State) (t : Team) (rel : Nat) (f : Nat → Nat) (n : Nat) (a : Acc) : State × Nat :=
  let s := s.reachLines t.part (s.linesAt a.pas)
  let old := leNat (a.pas.map (s.homeByte t.part))
  let s := (s.homeStores t.part (a.pas.zip (leBytes n (f old)))).dropPeerLines (dieOfCore t.core) a.pas
  let lines := s.linesAt a.pas
  let s := s.modCore t.core fun c => { c with near := c.near.filter fun k => k.ver.isSome || !lines.contains k.line }
  (if rel = 2 then s.noteRelease a.pas else s, old)

/-- One update at the core (R302): it reads the core's value, and its result enters the write buffer. -/
def State.atomCore1 (s : State) (t : Team) (seq rel : Nat) (f : Nat → Nat) (n : Nat) (a : Acc) : State × Nat :=
  let old := leNat (a.pas.map (s.loadByte t .near))
  let s := s.noteLoad t .near a.pas
  (s.bufStore t seq false rel a.va (a.pas.zip (leBytes n (f old))), old)

/-- The updates of the lanes in order: each lane's old value and the state after them. -/
def State.atomAll (s : State) (t : Team) (sc : Scope) (seq rel : Nat) (f : Nat → Nat → Nat → Nat) (n : Nat) :
    List (Acc × W64 × W64) → State × List (Nat × Nat)
  | [] => (s, [])
  | (a, b, e) :: r =>
    let g (old : Nat) : Nat := f old b.toNat e.toNat
    let x := if s.atHome sc a.pas then s.atomHome1 t rel g n a else s.atomCore1 t seq rel g n a
    let y := x.1.atomAll t sc seq rel f n r
    (y.1, (a.lane, x.2) :: y.2)

/-- The update of a lane must wait: at its home for the team's own buffered stores to its bytes, at the core for a store to
them that other teams do not yet see, so that no store falls between its read and its write (R299, R302) (log 126). -/
def State.atomWaits (s : State) (t : Team) (sc : Scope) (a : Acc) : Bool :=
  let pas := a.pas.map s.norm
  if s.atHome sc a.pas then s.buffered t pas
  else (s.core t.core).wbuf.any fun e => !s.sees t.id e && e.bytes.any fun (b, _) => pas.contains b

/-- The lowest poisoned byte that an atomic's lane meets, where it executes. -/
def State.atomPoison (s : State) (t : Team) (sc : Scope) (a : Acc) : Option Nat :=
  if s.atHome sc a.pas then a.pas.findIdx? s.poisoned else s.accPoison t a

def atomWrites (dst : Option Dst) (olds : List (Nat × Nat)) : List RegWrite :=
  match dst with
  | none => []
  | some d => olds.flatMap fun (l, v) => destWrites d.d d.bytes l (extendTo64 d.bytes d.signed v)

/-- An atomic whose turn has come. -/
def State.atomPerform (s : State) (t : Team) (p : Pending) (op : AT) (cas : Bool) (ty : AtomTy) (sc : Scope) (o : Order)
    (dst : Option Dst) (accs : List (Acc × W64 × W64)) : State :=
  let pas := accs.flatMap fun a => a.1.pas.map s.norm
  let rel := o == .rel || o == .acqrel
  if t.readsBefore s p.num pas || (accs.any fun a => s.atomWaits t sc a.1) || (rel && !s.releaseReady t p sc) || !s.hostOpen pas ||
      s.writeHeld t.part (accs.flatMap fun a => if s.atHome sc a.1.pas then a.1.pas else []) then s
  else
    match accs.findSome? fun a => (s.atomPoison t sc a.1).map fun i => (⟨0x40, a.1.va.toNat + i, a.1.lane⟩ : Fail) with
    | some f => s.performFault t p f
    | none =>
      let x := s.atomAll t sc p.seq (relClass t (if rel then some sc else none)) (atomApply op cas ty) (atBytes ty) accs
      let s := if o == .acq || o == .acqrel then x.1.acquireOf t sc pas else x.1
      s.modTeam t.id fun u => u.perform p.seq (atomWrites dst x.2)

/-- Updates in scratch, lane by lane. -/
def Team.atomsAll (t : Team) (f : Nat → Nat → Nat → Nat) (n : Nat) : List (Acc × W64 × W64) → Team × List (Nat × Nat)
  | [] => (t, [])
  | (a, b, e) :: r =>
    let old := leNat (a.pas.map t.scrByte)
    let x := (t.scrPuts (a.pas.headD 0) (leBytes n (f old b.toNat e.toNat))).atomsAll f n r
    (x.1, (a.lane, old) :: x.2)

def State.atomsPerform (s : State) (t : Team) (p : Pending) (op : AT) (cas : Bool) (ty : AtomTy) (dst : Dst)
    (accs : List (Acc × W64 × W64)) : State :=
  let earlier := t.pend.any fun q => decide (q.num < p.num) && !q.performed && match q.kind with
    | .lds .. => true
    | _ => false
  if earlier || t.scratchBefore p.num || s.writeHeld t.part [] then s
  else
    match accs.findSome? fun a => (a.1.pas.findIdx? t.scrBad).map fun i => (⟨0x40, a.1.va.toNat + i, a.1.lane⟩ : Fail) with
    | some f => s.performFault t p f
    | none =>
      let x := t.atomsAll (atomApply op cas ty) (atBytes ty) accs
      s.setTeam (x.1.perform p.seq (atomWrites (some dst) x.2))

/-- ATOMIC_PERFORMED. -/
def State.atomicPerform (s : State) : State :=
  match s.evPend with
  | none => s
  | some (t, p) =>
    if p.performed || !t.closedBefore p.num || !t.acquiredBefore p.num then s
    else
      match p.kind with
      | .atomic op cas ty sc o dst accs => s.atomPerform t p op cas ty sc o dst accs
      | .atoms op cas ty dst accs => s.atomsPerform t p op cas ty dst accs
      | _ => s
def execAtomicPerformed (s : State) : Out := .next s.atomicPerform

/-! ## Ordered contributions (R156, R157, R303) -/

/-- The lowest lane whose line has no state. -/
def State.noLine (s : State) (cs : List (Acc × W32 × W32)) : Option Acc :=
  (cs.map (·.1)).find? fun a => match a.pas with
    | pa :: _ => match s.lineSlice (s.norm pa) with
      | some sl => (s.rline? sl (lineOf (s.norm pa))).isNone
      | none => true
    | [] => false

/-- What is left of an `rdo` whose lanes have passed the checks at their homes; with the last contribution it is performed.
Its checks are closed, so that a contribution held at the sender holds nothing else back (R303, log 115). -/
def State.rdoLeft (s : State) (t : Team) (p : Pending) (cs : List (Acc × W32 × W32)) : State :=
  if cs.isEmpty then s.modTeam t.id fun u => u.perform p.seq []
  else s.modTeam t.id fun u => u.modPend p.seq fun q => { q with
    kind := .rdo cs true
    open_ := false }

/-- The `i`-th contribution of an `rdo` reaches its home. -/
def State.rdoOne (s : State) (t : Team) (p : Pending) (cs : List (Acc × W32 × W32)) (i : Nat) : State :=
  match cs[i]? with
  | none => s.rdoLeft t p cs
  | some (a, x, idx) =>
    match s.contribute (some (dieOfCore t.core)) false a x idx with
    | some s => (s.noteRdo (some t.part) a x idx).rdoLeft t p (cs.eraseIdx i)
    | none => s.rdoLeft t p cs

/-- The contributions of `rdo` number `p` reach their homes, to which their lines move first (R341): every lane is checked
there, then the `i`-th enters. -/
def State.rdoArrive (s : State) (t : Team) (p : Pending) (cs : List (Acc × W32 × W32)) (checked : Bool) (i : Nat) : State :=
  let s := s.moveLines (s.linesAt (cs.flatMap fun c => c.1.pas))
  if checked then s.rdoOne t p cs i
  else
    let bad := s.noLine cs
    match s.firstGap (accsBefore bad (cs.map (·.1))), bad with
    | some (s, line, idx), _ =>
      let c := s.cancelFrom t p.num p.snap
      c.1.raise c.2 (c.2.faultAt 0x15 line idx)
    | none, some a => s.performFault t p ⟨0x14, a.va.toNat, a.lane⟩
    | none, none => s.rdoOne t p cs i

/-- An addition at the home of one of the bytes waits (R361, R389). -/
def State.addHeld (s : State) (pas : List Nat) : Bool := pas.any fun a => !s.isPeer a && s.writeHeld (s.lineOwner a) [a]

/-- RDO_CONTRIBUTION_ARRIVE. -/
def State.rdoEvent (s : State) : State :=
  match s.evPend with
  | none => s
  | some (t, p) =>
    match p.kind with
    | .rdo cs checked =>
      let pas := cs.flatMap fun c => c.1.pas
      if p.performed || !t.closedBefore p.num || s.buffered t (pas.map s.norm) || !s.hostOpen pas || s.addHeld pas then s
      else s.rdoArrive t p cs checked s.ev.idx
    | _ => s
def execRdoContributionArrive (s : State) : Out := .next s.rdoEvent

/-- A gap of a line is overdue (R157). -/
def State.gapDue (s : State) (x : RLine) : Bool := x.gap && decide (x.since + 1000 * (s.pr x.p 0x140).toNat ≤ s.now)

/-- GAP_TIMEOUT of line `line` in slice `sl`: the owner faults at its save point, or the gap stays pending (R157). -/
def State.gapTimeout (s : State) (sl line : Nat) : State :=
  match s.rline? sl line with
  | none => s
  | some x =>
    if !s.gapDue x then s
    else
      match s.team? x.owner with
      | none => s.setRline sl line { x with gapPending := true }
      | some t =>
        if t.stat ≠ .running then s
        else
          let info := (lowestHeld x).zeroExtend 64
          let s := s.setRline sl line { x with since := s.now }
          match t.pend.find? fun p => p.open_ && !p.performed with
          | some p =>
            let c := s.cancelFrom t p.num p.snap
            (c.1.raise c.2 (c.2.faultAt 0x15 x.va info)).clearFilters
          | none => s.raise t (t.faultAt 0x15 x.va info)

/-- Every gap that is overdue and not yet pending times out: at once, as time passes (R344). -/
def State.gapTimeouts (s : State) : State :=
  (s.slices.flatMap fun (l, y) => y.lines.filterMap fun (k, x) => if s.gapDue x && !x.gapPending then some (l, k) else none).foldl
    (fun s (l, k) => s.gapTimeout l k) s

def execGapTimeout (s : State) : Out := .next (s.gapTimeout s.ev.slice s.ev.addr)

/-! ## Per-lane copies (R164) -/

/-- An earlier `acp` of the tag is unperformed. -/
def Team.tagBefore (t : Team) (num tag : Nat) : Bool :=
  t.pend.any fun p => decide (p.num < num) && !p.performed && match p.kind with
    | .acp g .. => g == tag
    | _ => false

/-- A byte that an engine of partition `p` reads at its home (R287). -/
def State.engByte (s : State) (p pa : Nat) : Byte :=
  match s.space pa with
  | .regs => s.mgmtByte false (pa % 2 ^ 50)
  | _ => s.homeByte p pa

/-- The scratch granules that take poison from the bytes of a copy. -/
def State.acpBad (s : State) (l : List (Nat × Option Nat)) : List Nat :=
  ((l.filter fun x => x.2.any s.poisoned).map fun x => x.1 / 32).eraseDups

/-- Scratch bytes of a copy, each with what it takes: the team with them written, the granules that take poison marked. Of a granule
that has taken poison before, `bad`, a byte that comes later stays poisoned too (R164). -/
def State.acpPut (s : State) (p : Nat) (bad : List Nat) (l : List (Nat × Option Nat)) (u : Team) : Team :=
  let u := l.foldl (fun (u : Team) (x : Nat × Option Nat) => u.scrPut x.1 ((x.2.map (s.engByte p)).getD 0)) u
  let u := (l.filter fun x => bad.contains (x.1 / 32)).foldl (fun (u : Team) (x : Nat × Option Nat) => u.scrPoisonBit x.1) u
  (s.acpBad l).foldl (fun (u : Team) g => u.scrPoisonGr g) u

/-- ACP_PERFORMED: every lane's 32 bytes stand in scratch, or one more byte, the schedule says which (R301). -/
def State.acpPerform (s : State) : State :=
  match s.evPend with
  | none => s
  | some (t, p) =>
    match p.kind with
    | .acp tag accs left bad waits =>
      let pas := accs.flatMap (·.pas)
      if p.performed || !t.closedBefore p.num || t.tagBefore p.num tag || !s.hostOpen pas || s.unobserved waits pas then s
      else s.asOld (s.oldPend t.part t.id p.seq) fun s =>
        if s.writeHeld t.part [] then s
        else if s.ev.flag then
          match left[s.ev.idx]? with
          | some x => if (left.take s.ev.idx).any (·.1 == x.1) then s
            else s.modWork t.part t.id fun u => (s.acpPut t.part bad [x] u).modPend p.seq fun q => { q with
              kind := .acp tag accs (left.eraseIdx s.ev.idx) (bad ++ s.acpBad [x]) waits }
          | none => s
        else s.modWork t.part t.id fun u => ((s.acpPut t.part bad left u).subTag tag).perform p.seq []
    | _ => s
def execAcpPerformed (s : State) : Out := .next s.acpPerform

/-! ## Bulk copies (R166-R171) -/

/-- The head copy of engine `e` of die `d`, not yet ended, whose partition runs. -/
def State.headCopy (s : State) (d e : Nat) : Option Copy :=
  match (s.die d).copies e with
  | c :: _ => if c.ended.isNone then some c else none
  | [] => none

/-- BCP_COMPLETE of a part: one step of the row that the head copy is at. -/
def State.bcpStep (s : State) (d e what : Nat) : State :=
  match s.headCopy d e with
  | none => s
  | some c => s.asOld (s.oldCopy c) fun s =>
    let r := s.rowStep c what
    r.1.setCopies d e (r.2 :: ((r.1.die d).copies e).tail)

/-- BCP_COMPLETE: `n` rows of the head copy (0 for all); with the last row it ends, status 1 if it carried poison. -/
def State.bcpRun (s : State) (d e n : Nat) : State :=
  match s.headCopy d e with
  | none => s
  | some c =>
    let total := BlockWords.rows c.words
    let x := s.asOld (s.oldCopy c) fun s =>
      let r := s.runRows c (if n = 0 then total else n)
      match r.2.2 with
      | some _ => s
      | none => r.1.setCopies d e (r.2.1 :: ((r.1.die d).copies e).tail)
    match x.headCopy d e with
    | some c =>
      if total ≤ c.row then
        let st := if c.poisoned then 1 else 0
        (x.logCopy d e c st).copyEnd d e c st
      else x
    | none => x
def execBcpComplete (s : State) : Out :=
  .next (if s.ev.flag then s.bcpStep s.ev.die s.ev.eng s.ev.idx else s.bcpRun s.ev.die s.ev.eng s.ev.idx)

/-- The head copy ends at its row with status 2, and the supervisor hears (R170). -/
def State.copyFails (s : State) (d e : Nat) (c : Copy) (code va : Nat) : State :=
  let c := { c with fly := none }
  let a := BitVec.ofNat 64 va
  let s := s.sendSup c.p [BitVec.ofNat 32 code, lo32 a, hi32 a, BitVec.ofNat 32 e]
  (s.logCopy d e c 2).copyEnd d e c 2

/-- The row on its way gets no answer from a place such as `f` names: the copy ends there (log 141). -/
def State.rowLost (s : State) (d e : Nat) (f : Nat → Bool) : State :=
  match s.headCopy d e with
  | none => s
  | some c =>
    match c.fly.bind (·.firstOn f) with
    | some va => s.copyFails d e c 0x18 va
    | none => s

/-- BCP_TRANSLATION_FAIL: the rows before the bad one stand. With the flag another device has not answered (R386). -/
def State.bcpFail (s : State) (d e : Nat) : State :=
  match s.headCopy d e with
  | none => s
  | some c =>
    let r := State.runRows { s with back := s.oldCopy c } c (BlockWords.rows c.words)
    match r.2.2 with
    | none => s
    | some b => State.copyFails { r.1 with back := 0 } d e r.2.1 b.code b.addr
def execBcpTranslationFail (s : State) : Out :=
  .next (if s.ev.flag then s.rowLost s.ev.die s.ev.eng s.isPeer else s.bcpFail s.ev.die s.ev.eng)

/-! ## Timers -/

/-- LEASE_EXPIRE (R172). -/
def State.leaseExpire (s : State) (p base : Nat) : State :=
  s.modPart p fun x => { x with leases := x.leases.filter fun l => !(l.base.toNat == base && decide (l.until_ ≤ s.now)) }
def execLeaseExpire (s : State) : Out := .next (s.leaseExpire s.ev.part s.ev.addr)

/-- No lease outlives its end by more than 1 µs (R288). -/
def State.leaseEnds (s : State) : State :=
  { s with parts := s.parts.map fun (k, x) => (k, { x with leases := x.leases.filter fun l => decide (s.now < l.until_ + 1000) }) }

/-- NEAR_COPY_EXPIRE: a near copy of line `l` goes, at any time (R285). -/
def State.nearDrop (s : State) (c l : Nat) : State := s.modCore c fun x => { x with near := x.near.filter fun k => k.line != l }
def execNearCopyExpire (s : State) : Out := .next (s.nearDrop s.ev.core s.ev.addr)

/-- FAR_COPY_EXPIRE. -/
def State.farDrop (s : State) (d l : Nat) : State := s.modDie d fun x => { x with far := x.far.filter (·.line != l) }
def execFarCopyExpire (s : State) : Out := .next (s.farDrop s.ev.die s.ev.addr)

/-! ## Remote and host failures (R386, R377) -/

/-- The first byte of a pending instruction that `f` names: its access, its place there, its physical address. -/
def Pending.firstOn (f : Nat → Bool) (p : Pending) : Option (Acc × Nat × Nat) :=
  p.touches.findSome? fun a => (a.pas.findIdx? f).map fun i => (a, i, a.pas.getD i 0)

/-- A store's bytes for the place of `pa` are lost there, and no copy at the core shows them; its other bytes stay in the
buffer. -/
def State.entryFails (s : State) (t : Team) (e : WEntry) (pa : Nat) : State :=
  let gone (x : Nat × Byte) : Bool := s.space x.1 == s.space pa
  let left := e.bytes.filter fun x => !gone x
  let lines := (e.bytes.filter gone).map fun x => lineOf x.1
  s.modCore t.core fun x => { x with
    wbuf := if left.isEmpty then x.wbuf.erase e else x.wbuf.map fun w => if w = e then { e with bytes := left } else w
    near := x.near.filter fun k => k.ver.isSome || !lines.contains k.line }

/-- A store's access without the bytes that `f` names, at one of its ends. -/
def Acc.without (f : Nat → Bool) (x : Acc × List Byte) : Acc × List Byte :=
  let a := x.1
  let keep := (List.range a.pas.length).filter fun i => !f (a.pas.getD i 0)
  let of_ (l : List Nat) : List Nat := if l.isEmpty then l else keep.map (l.getD · 0)
  (⟨a.lane, a.va + BitVec.ofNat 64 (a.pas.takeWhile f).length, of_ a.pas, of_ a.gpas⟩, keep.map (x.2.getD · 0))

/-- A fabric error of partition `p` at address `va` on the device of `pa` (R141, R386). -/
def State.fabricError (s : State) (p : Nat) (va : W64) (pa : Nat) : State :=
  let dev := match s.space pa with
    | .peer d => d
    | _ => s.devn
  (s.bump p 0x159 1).sendSup p [0x18, lo32 va, hi32 va, BitVec.ofNat 32 dev]

/-- The home of byte `i` of access `a`, at `pa`, answers instruction `p` with an error. -/
def State.transportFail (s : State) (t : Team) (p : Pending) (a : Acc) (i pa : Nat) : State :=
  let va := BitVec.ofNat 64 (a.va.toNat + i)
  match p.kind with
  | .store accs rel inBuf =>
    let s := match entryAt (s.core t.core).wbuf t.id p.seq with
      | some (_, e) => s.entryFails t e pa
      | none => s
    (s.modTeam t.id fun u =>
      if (entryAt (s.core t.core).wbuf t.id p.seq).isNone then u.perform p.seq []
      else u.modPend p.seq fun q => { q with
        kind := .store (accs.map (Acc.without fun b => s.space b == s.space pa)) rel inBuf }).fabricError t.part va pa
  | _ => (s.performFault t p ⟨0x18, va.toNat, a.lane⟩).clearFilters

/-- The update that atomic `seq` left in the buffer is lost on its way to another device. -/
def State.updateFails (s : State) (t : Team) (seq : Nat) : State :=
  match entryAt (s.core t.core).wbuf t.id seq with
  | some (_, e) =>
    match e.counted, (e.bytes.map (·.1)).find? s.isPeer with
    | false, some pa => (s.entryFails t e pa).fabricError t.part e.va pa
    | _, _ => s
  | none => s

/-- REMOTE_TIMEOUT: an access to another device has no completion; under the number that comes next, the read that the
instruction at which the team stands makes at its issue. -/
def State.remoteTimeout (s : State) : State :=
  match s.team? s.ev.team with
  | none => s
  | some t =>
    match t.pend.find? fun p => p.seq == s.ev.seq && !p.performed with
    | none => if s.ev.seq = t.nseq then s.modTeam t.id fun u => { u with lost := some u.icount } else s.updateFails t s.ev.seq
    | some p =>
      match p.kind, p.firstOn s.isPeer with
      | .rdo _ true, _ | _, none => s
      | _, some (a, i, pa) => if t.closedBefore p.num then s.transportFail t p a i pa else s
def execRemoteTimeout (s : State) : Out := .next s.remoteTimeout

/-- Accesses of team `t` to the host fail, oldest first. -/
def State.hostFail (s : State) (id : TeamId) : Nat → State
  | 0 => s
  | n + 1 =>
    match s.team? id with
    | none => s
    | some t =>
      match t.pend.find? fun p => (p.firstOn s.isHost).isSome with
      | none => s
      | some p =>
        match p.firstOn s.isHost with
        | some (a, i, pa) => (s.transportFail t p a i pa).hostFail id n
        | none => s

/-- Tiles of team `id` in flight to or from the host fail, an engine's oldest, unless it has written a byte. -/
def State.hostTiles (s : State) (id : TeamId) : State :=
  match s.team? id with
  | none => s
  | some t =>
    (List.range t.engines.length).foldl (fun s k =>
      match (t.engine k).bind fun e => e.fly.head? with
      | some f => match f.put.isEmpty, f.firstOn s.isHost with
        | true, some va => s.modTeam id fun u => u.tileFails k 0x18 va
        | _, _ => s
      | none => s) s

/-- CONTROL_LINK_LOSS: the holder's link has stayed down for 10 ms; its host accesses fail with 0x18, the rows of bulk copies
among them. -/
def State.linkLoss (s : State) (k : Nat) : State :=
  if s.mgmt.held && s.mgmt.holder == k then
    let s := s.teams.foldl (fun (s : State) (x : Nat × Team) => (s.hostFail x.2.id (x.2.pend.length + 1)).hostTiles x.2.id)
      { s with mgmt := { s.mgmt with held := false } }
    (span 0 16).foldl (fun s i => s.rowLost (i / 4) (i % 4) s.isHost) s
  else s
def execControlLinkLoss (s : State) : Out := .next (s.linkLoss s.ev.port)

end Sys2Proof.Machine
end

