-- ==== Sys2Proof/Machine/Domain.lean ====
section
/-!
DEFINITION. The UALink domain: record transport (R271-R273, R387), remote wakes and floors (R331, R332, R338), staggered
restart (R390), accesses that arrive at a home of this device (R303, R384, R386), and PCIe accesses (R376, R378).
-/
namespace Sys2Proof.Machine

/-! ## The receiver (R271, R387) -/

/-- `a` is not later than `b` within the window of 2³¹. -/
def seqLe (a b : W32) : Bool := decide ((b - a).toNat < 2 ^ 31)

def State.inboundOf (s : State) (dev d : Nat) : Inbound := s.inbound.get ⟨0, []⟩ (4 * dev + d)
def State.setInbound (s : State) (dev d : Nat) (x : Inbound) : State := { s with inbound := s.inbound.put (4 * dev + d) x }

/-- Numbers that are dropped count as arrived. -/
def Inbound.settle (x : Inbound) : Nat → Inbound
  | 0 => x
  | k + 1 =>
    if x.skip.contains x.next then Inbound.settle { x with
      next := x.next + 1
      skip := x.skip.filter (· != x.next) } k
    else x
/-- The number awaited has arrived for good. -/
def Inbound.advance (x : Inbound) : Inbound := Inbound.settle { x with next := x.next + 1 } (x.skip.length + 1)

/-- The partition that a DOMID names; 0 names none. -/
def State.partOfDomid (s : State) (d : Nat) : Option Nat :=
  if d = 0 then none else (List.range 17).find? fun p => s.preg p 25 == d

/-- A message of the domain arrives: a UALink port is ready to carry it (R426) (log 120). -/
def State.arrived (s : State) (f : State → State) : Out := .next (if s.linkReady then f s else s)

/-- What becomes of a record of the domain at partition `p`: only type 0 arrives so (R244). -/
def State.remoteFate (s : State) (p : Nat) (w : List W32) : Fate :=
  let w0 := (recWord w 0).toNat
  if 2 ^ 28 ≤ w0 then .never else s.fate p (w0 / 2 ^ 16 % 256) (w0 % 2 ^ 16) w

/-- The header of an answer to a record: it comes from the die whose Mill the record names (log 142). -/
def State.answerHdr (s : State) (dev domid : Nat) (w : List W32) : Hdr :=
  s.hdr ((s.partOfDomid domid).elim 0 fun p => s.recvDie p w) dev domid

/-- REC_RECEIVE: record `seq` of the pair (device `dev`, die `d`). -/
def State.recReceive (s : State) (dev d domid : Nat) (seq : W32) (w : List W32) : State :=
  let x := s.inboundOf dev d
  let h := s.answerHdr dev domid w
  if seq ≠ x.next then
    if seqLe seq x.next then s.say (.ack h (x.next - 1)) else s
  else
    match s.partOfDomid domid with
    | none => (s.setInbound dev d x.advance).say (.nak h seq true)
    | some p =>
      match s.remoteFate p w with
      | .never => (s.setInbound dev d x.advance).say (.nak h seq true)
      | .waits => s.say (.nak h seq false)
      | .enters _ =>
        let y := x.advance
        ((s.setInbound dev d y).inputRecord p w).say (.ack h (y.next - 1))
def execRecReceive (s : State) : Out := s.arrived fun s => s.recReceive s.ev.dev s.ev.die s.ev.domid (lo32 s.ev.val) s.ev.words

/-- SKIP_RECEIVE: number `seq` of the pair is dropped. -/
def State.skipReceive (s : State) (dev d : Nat) (seq : W32) : State :=
  let x := s.inboundOf dev d
  if seq = x.next then s.setInbound dev d x.advance
  else if seqLe seq x.next || x.skip.contains seq then s
  else s.setInbound dev d { x with skip := x.skip ++ [seq] }
def execSkipReceive (s : State) : Out := s.arrived fun s => s.skipReceive s.ev.dev s.ev.die (lo32 s.ev.val)

/-! ## The sender (R271-R273) -/

/-- ACK_RECEIVE: every number up to `seq` is accepted. An acceptance of the refused number ends the back-off. -/
def State.ackReceive (s : State) (d dev : Nat) (seq : W32) : State :=
  let x := (s.die d).window dev
  let left := x.recs.filter fun r => !seqLe r.seq seq
  if left.length = x.recs.length then s
  else
    let fresh := match x.resend with
      | some n => seqLe n seq
      | none => true
    s.setWindow d dev { x with
      recs := left
      backoff := if fresh then 0 else x.backoff
      resend := if fresh then none else x.resend }
def execAckReceive (s : State) : Out := s.arrived fun s => s.ackReceive s.ev.die s.ev.dev (lo32 s.ev.val)

/-- The next back-off of a record of partition `p`. -/
def State.nextBackoff (s : State) (p b : Nat) : Nat :=
  let v := s.preg p 9
  if b = 0 then v % 256 else min (2 * b) (v / 256 % 256)

/-- NAK_RECEIVE: a temporary refusal of number `seq` begins a back-off; a permanent one drops the record (R207). -/
def State.nakReceive (s : State) (d dev : Nat) (seq : W32) (perm : Bool) : State :=
  let x := (s.die d).window dev
  match x.recs.find? fun r => r.seq == seq with
  | none => s
  | some r =>
    if perm then
      (s.setWindow d dev { x with recs := x.recs.filter fun q => q.seq != seq }).refuse r.p r.sender r.w
    else if x.resend.isSome then s
    else s.setWindow d dev { x with
      backoff := s.nextBackoff r.p x.backoff
      resend := some seq
      since := s.now }
def execNakReceive (s : State) : Out := s.arrived fun s => s.nakReceive s.ev.die s.ev.dev (lo32 s.ev.val) s.ev.flag

/-- The records of a window from number `n` on are sent again, in order. -/
def State.resendFrom (s : State) (d dev : Nat) (n : W32) : State :=
  s.sends ((((s.die d).window dev).recs.filter fun r => seqLe n r.seq).map (s.recMsg d dev))

/-- BACKOFF_EXPIRE. -/
def State.backoffExpire (s : State) (d dev : Nat) : State :=
  let x := (s.die d).window dev
  match x.resend with
  | none => s
  | some n =>
    if s.now < x.since + 1000 * x.backoff then s
    else (s.resendFrom d dev n).setWindow d dev { x with resend := none }
def execBackoffExpire (s : State) : Out := .next (s.backoffExpire s.ev.die s.ev.dev)

/-- R273 for a record of a window: its number is dropped, the receiver is told, and the records behind it are resent: at
once, or when a back-off that is running ends. -/
def State.dropRecord (s : State) (d dev : Nat) (seq : W32) : State :=
  let x := (s.die d).window dev
  match x.recs.find? fun r => r.seq == seq with
  | none => s
  | some r =>
    if s.now < r.deadline then s
    else
      let s := s.setWindow d dev { x with
        recs := x.recs.filter fun q => q.seq != seq
        resend := x.resend.map fun n => if n == seq then seq + 1 else n }
      let s := s.say (.skip (s.hdr d dev r.domid) seq)
      let s := if x.resend.isNone then s.resendFrom d dev (seq + 1) else s
      s.refuse r.p r.sender r.w

/-- REPLTO_EXPIRE. -/
def execRepltoExpire (s : State) : Out :=
  .next (if s.ev.flag then s.dropRecord s.ev.die s.ev.dev (lo32 s.ev.val) else s.dropArrival s.ev.part s.ev.idx)

/-! ## Versions of other devices (R331, R332, R338) -/

/-- The region's home is another device: the device (log 19). -/
def State.regionAway (s : State) (p r : Nat) : Option Nat :=
  match s.regionHomes p (s.region p r) with
  | [h] => if 1000 ≤ h then some (h - 1000) else none
  | _ => none

/-- VWAKE_RECEIVE: granule `g` holds version `v` at its home; the loads that wait for it go there again, and bring these bytes
(log 92). -/
def State.vwakeReceive (s : State) (p r g : Nat) (v : W32) (bytes : List Byte) : State :=
  match s.regionAway p r with
  | none => s
  | some _ =>
    let x := s.region p r
    let have_ := x.exist g v
    let new_ := (cells (64 * g) bytes).filter fun (a, _) => !have_.getLsbD (a % 64)
    if new_.isEmpty then s else ((s.setRegion p r (x.record false g v new_)).noteRegion p r true).freeReady
def execVwakeReceive (s : State) : Out := s.arrived fun s =>
  (s.partOfDomid s.ev.domid).elim s fun p => s.vwakeReceive p s.ev.idx s.ev.addr (lo32 s.ev.val) (s.ev.bytes.take 64)

/-- VFLR_MSG_RECEIVE: a holder confirms one message, or the home of a region raises its floor and this device confirms. -/
def State.vflrMsg (s : State) (dev p r : Nat) (f : W32) (confirm : Bool) : State :=
  if confirm then
    let x := s.region p r
    s.setRegion p r { x with told := x.told.erase (dev, f) }
  else if s.regionAway p r = some dev then
    ((s.takeFloor p r f (1000 + dev)).dropVersions p r fun _ v => decide (v < f)).say (.vflr (s.partHdr p 0 dev) r f true)
  else s
def execVflrMsgReceive (s : State) : Out := s.arrived fun s =>
  (s.partOfDomid s.ev.domid).elim s fun p => s.vflrMsg s.ev.dev p s.ev.idx (lo32 s.ev.val) s.ev.flag

/-! ## Restart stagger (R390) -/

/-- The rise of the envelope starts from the power that the module draws (R422). -/
def State.ramp (s : State) : State := { s with mgmt := { s.mgmt with env := 1000 * s.mgmt.pwr } }

/-- STAGGER_RECEIVE: launches of the partition are held until T0 + STAGOFF, for at most 10 ms. -/
def State.staggerReceive (s : State) (domid t0 : Nat) : State :=
  match s.partOfDomid domid with
  | none => s
  | some p =>
    let now := (s.mr 0x33).toNat
    let until_ := t0 + s.preg p 28
    if until_ ≤ now then (s.modPart p fun x => { x with stagger := none }).ramp
    else s.modPart p fun x => { x with stagger := some (min until_ (now + 10000000)) }
def execStaggerReceive (s : State) : Out := s.arrived fun s => s.staggerReceive s.ev.domid s.ev.val.toNat

/-- STAGGER_HOLD_END. -/
def State.staggerEnd (s : State) (p : Nat) : State :=
  match (s.part p).stagger with
  | none => s
  | some until_ => if until_ ≤ (s.mr 0x33).toNat then (s.modPart p fun x => { x with stagger := none }).ramp else s
def execStaggerHoldEnd (s : State) : Out := .next (s.staggerEnd s.ev.part)

/-! ## Accesses that arrive at a home of this device (R303, R338, R384, R386) -/

def bytesAt (pa n : Nat) : List Nat := (List.range n).map (pa + ·)

/-- The partition whose memory holds `pa`. -/
def State.ownerOf (s : State) (pa : Nat) : Nat := s.groupOwnerOf (groupOf pa)

/-- An atomic on memory of partition `p` at a home of this device; the old value as bytes. -/
def State.atomicAt (s : State) (p pa : Nat) (op : AT) (cas : Bool) (t : AtomTy) (b e : W64) : State × List Byte :=
  let n := atBytes t
  let old := leNat ((bytesAt pa n).map s.memByte)
  (s.storeBytes p (cells pa (leBytes n (atomApply op cas t old b.toNat e.toNat))), leBytes n old)

/-- The access of version `v` of region `r` at `pa`. -/
def remoteVAcc (pa r : Nat) (v : W32) (n : Nat) : VAcc := ⟨⟨noLaneN, 0, bytesAt pa n, []⟩, r, v⟩

/-- The lanes that words name. -/
def lanesOf (l : List W32) : LaneMask := maskOf ((List.range 1024).filter fun k => (l.getD (k / 32) 0).getLsbD (k % 32))

/-- A version load of device `dev`: it is answered, blocked in the wait table of its home behind the loads parked there (R333), or
fails. -/
def State.remoteLdv (s : State) (dev p r pa : Nat) (v : W32) (n : Nat) (t : TeamId) (seq : Nat) (lanes : LaneMask) : State :=
  let a := remoteVAcc pa r v n
  let g := a.gran s
  let m := granMask (a.bytes s)
  let s := s.retryOn [a]
  match s.vFail p a with
  | some f => s.say (.denied dev f.code)
  | none =>
    let sl := s.vHome a
    if s.abroad p r g v m then
      (s.addHolder p r sl dev).say (.answer dev (s.verBytes p (s.region p r) g v (a.bytes s)))
    else
      let mine := (s.slice sl).waits.filter fun w => w.dev == some dev && w.team == t && w.seq == seq
      if (s.slice sl).waits.length < 256 ∧ mine.length < 64 then
        s.modSlice sl fun x => { x with waits := x.waits ++ [⟨some dev, t, seq, p, r, g, v, lanes, m⟩] }
      else s.denyForeign dev 0 t seq

/-- The region as another device sees it: of a turned partition, as its last committed checkpoint has it (R336). -/
def State.regionAbroad (s : State) (p r : Nat) : VRegion :=
  if s.turned p then ((s.part p).committed.map fun c => c.regions.get VRegion.empty r).getD VRegion.empty else s.region p r

/-- A byte of memory as another device sees it: of a turned partition, as its last committed checkpoint has it (R336). -/
def State.byteAbroad (s : State) (p pa : Nat) : Byte :=
  let us := if s.turned p then (s.part p).undo.filter fun u => u.line == lineOf pa else []
  match us.foldl (fun (m : Option Undo) u => if m.any fun v => decide (v.epoch ≤ u.epoch) then m else some u) none with
  | some u => u.bytes.getD (pa % 64) 0
  | none => s.memByte pa

/-- `ldv.latest` of another device: the bytes, then the version (R161). -/
def State.remoteLatest (s : State) (dev p r pa : Nat) (b : W32) (n : Nat) : State :=
  let a := remoteVAcc pa r b n
  let x := s.regionAbroad p r
  match x.highest (a.gran s) b (granMask (a.bytes s)) with
  | none => s.say (.denied dev 0x30)
  | some v =>
    if x.baseOf (a.gran s) = v ∧ (a.bytes s).any s.poisoned then s.say (.denied dev 0x40)
    else
      let bs := if x.baseOf (a.gran s) = v then (a.bytes s).map (s.byteAbroad p) else s.verBytes p x (a.gran s) v (a.bytes s)
      s.say (.answer dev (bs ++ leBytes 4 v.toNat))

/-- `vqry` of another device (R163). -/
def State.remoteVqry (s : State) (dev p r pa : Nat) : State :=
  let a := remoteVAcc pa r 0 1
  let x := s.regionAbroad p r
  let top := (x.highest (a.gran s) 0xFFFF_FFFF#32 (BitVec.allOnes 64)).getD 0
  s.say (.answer dev (leBytes 4 top.toNat ++ leBytes 4 (x.floorAt (s.vHome a)).toNat))

/-- A version store of another device; `rel` for a release. -/
def State.remoteStv (s : State) (dev p r pa : Nat) (v : W32) (rel : Bool) (data : List Byte) : State :=
  match s.vStore1 p rel (remoteVAcc pa r v data.length) data with
  | .error f => s.say (.denied dev f.code)
  | .ok s => (((s.noteRegion p r true).freeReady).wakeParked [lineOf (s.norm pa)]).say (.answer dev [])

/-- A floor rise asked by another device: every home slice takes it; it is answered once no holder is left to confirm (until
then the request stands, and arrives again). -/
def State.remoteVflr (s : State) (dev p r : Nat) (f : W32) : State :=
  let s := (s.regionHomes p (s.region p r)).foldl (fun s sl => s.takeFloor p r f sl) s
  let x := s.region p r
  if x.confirmed f then (s.floorHeld p r f).say (.answer dev []) else s

/-- A contribution of another device to a reduction line homed here (R303): an input of the line's partition (R342). One
that the line has no place for stays at its sender, and arrives again. -/
def State.remoteRdo (s : State) (dev pa : Nat) (x idx : W32) : State :=
  let a : Acc := ⟨noLaneN, 0, bytesAt pa 4, []⟩
  let s := s.moveLines (s.linesAt a.pas)
  let bad := s.noLine [(a, x, idx)]
  match s.firstGap (accsBefore bad [a]), bad with
  | some (s, _, _), _ => s.say (.denied dev 0x15)
  | none, some _ => s.say (.denied dev 0x14)
  | none, none =>
    match s.contribute none false a x idx with
    | some s => (s.noteRdo none a x idx).say (.answer dev [])
    | none => s

/-- An atomic of another device. -/
def State.remoteAtomic (s : State) (dev pa : Nat) (op : AT) (cas : Bool) (t : AtomTy) (b e : W64) : State :=
  if (s.homeSlice pa).isNone then s.say (.denied dev 0x14)
  else if (bytesAt pa (atBytes t)).any s.poisoned then s.say (.denied dev 0x40)
  else
    let x := s.atomicAt (s.ownerOf pa) pa op cas t b e
    x.1.say (.answer dev x.2)

/-- An arrival addition of another device, which names a team of this one: an input of its partition (R364, R365). -/
def State.remoteArrival (s : State) (dev : Nat) (t : TeamId) (off n : Nat) : State :=
  match s.team? t with
  | some u => (s.input u.part (.arrival t off n)).say (.answer dev [])
  | none => s.say (.denied dev 0x14)

/-- The bytes that an operation names. -/
def opSize : RemoteOp → Nat
  | .read n | .ldv _ n | .latest _ n => n
  | .write d | .stv _ d => d.length
  | .atomic _ _ t _ _ => atBytes t
  | .rdo .. => 4
  | .vqry => 1
  | .vflr _ | .arrival .. => 0
/-- A version access: its region has to be live here (R338). -/
def opVersioned : RemoteOp → Bool
  | .ldv .. | .latest .. | .vqry | .stv .. | .vflr _ => true
  | _ => false
/-- A write, which may have to wait (R361, R389). -/
def opWrites : RemoteOp → Bool
  | .read _ | .ldv .. | .latest .. | .vqry => false
  | _ => true

/-- REMOTE_ACCESS_ARRIVE: the address is one of this device's memory. One that has to wait arrives again. -/
def State.remoteAccess (s : State) (e : Event) : State :=
  let p := s.ownerOf e.addr
  let pas := bytesAt e.addr (opSize e.op)
  if localTop < e.addr + opSize e.op then s.say (.denied e.dev 0x10)
  else if opVersioned e.op && !s.liveRegion e.part e.idx then s.say (.denied e.dev 0x18)
  else if opWrites e.op && s.writeHeld p pas then s
  else
    let s := s.reachLines p (s.linesAt pas)
    match e.op with
    | .read n =>
      if (bytesAt e.addr n).any s.poisoned then s.say (.denied e.dev 0x40)
      else s.say (.answer e.dev ((bytesAt e.addr n).map s.memByte))
    | .write d => (s.storeBytes p (cells e.addr d)).say (.answer e.dev [])
    | .atomic op cas t b x => s.remoteAtomic e.dev e.addr op cas t b x
    | .rdo x idx => s.remoteRdo e.dev e.addr x idx
    | .ldv v n => s.remoteLdv e.dev e.part e.idx e.addr v n e.team e.seq (lanesOf e.words)
    | .latest b n => s.remoteLatest e.dev e.part e.idx e.addr b n
    | .vqry => s.remoteVqry e.dev e.part e.idx e.addr
    | .stv v d => s.remoteStv e.dev e.part e.idx e.addr v e.flag d
    | .vflr f => s.remoteVflr e.dev e.part e.idx f
    | .arrival t off n => s.remoteArrival e.dev t off n
def execRemoteAccessArrive (s : State) : Out := s.arrived fun s => s.remoteAccess s.ev

/-! ## PCIe accesses to BAR2 (R376, R378) -/

/-- The physical addresses of guest-physical bytes through the host stage. Host memory and the register space, which is
partition 0's (R281), are no frame of a leaf (R290, log 109); a die or stack that is not ready answers nothing (R426)
(log 94). -/
def State.inboundPas (s : State) (p a n : Nat) (w : Bool) : Option (List Nat) :=
  let off := !(s.pr p 0x200B).getLsbD 0
  (bytesAt a n).mapM fun g =>
    match (s.hostWalk s.pte p g).res with
    | none => none
    | some h =>
      let ok := match s.space h.addr with
        | .nowhere => false
        | .regs => off && p == 0
        | .host => off
        | .here => s.groupReady (groupOf h.addr) && s.dieReady (dieOfPa h.addr)
        | .peer _ => true
      if ok && (h.w || !w) then some h.addr else none

/-- An access completes with data, or with Unsupported Request, which no bytes stand for. -/
def State.complete (s : State) (bs : List Byte) : State :=
  { s with mgmt := { s.mgmt with hostReads := s.mgmt.hostReads ++ [bs] } }

/-- A port's bytes for the management window: a write of CPSEM may release it (R377), and of the rest only those of the port
that holds the control plane count (R420) (log 85). -/
def State.portStores (s : State) (port : Nat) (bytes : List (Nat × Byte)) : State :=
  let t := if s.mgmt.held && s.mgmt.holder == port then s.mgmtStore bytes else s
  if bytes.any fun (x, b) => x == 0 && !b.getLsbD 0 then t.cpsemFree port else t

/-- CQCONS of partition `p` (R383), and its byte `k` in the window of its function. -/
def State.cqconsOf (s : State) (p : Nat) : Nat := bitsOf (s.pr p 0x17A) 47 16
def State.vfByte (s : State) (p k : Nat) : Byte :=
  if k < 4 then BitVec.ofNat 8 (s.cqconsOf p / 2 ^ (8 * k)) else (Config.freeWord s.free).extractLsb' (8 * (k % 8)) 8

/-- A port's write of BAR0 of function `p` (R420): the management window, or a virtual function's CQCONS. -/
def State.barWrite (s : State) (port p : Nat) (bytes : List (Nat × Byte)) : State :=
  if p = 0 then s.portStores port bytes
  else if bytes.any fun (k, _) => k < 4 then
    s.cqcons p (BitVec.ofNat 32 (leNat ((List.range 4).map fun k => (bytes.lookup k).getD (s.vfByte p k))))
  else s
/-- A port's read of bytes of the management window: one of CPSEM takes it. -/
def State.windowRead (s : State) (port : Nat) (offs : List Nat) : State :=
  if offs.any (· < 8) then s.cpsemTake port else s
/-- A port's read of BAR0 of function `p`. -/
def State.barRead (s : State) (port p : Nat) (offs : List Nat) : State :=
  let s := if p = 0 then s.windowRead port offs else s
  let bs := offs.map fun k => if p = 0 then s.mgmtByte (s.mgmt.holder == port) k else s.vfByte p k
  { s.complete bs with free := s.free + 1 }

/-- CQCONS_WRITE: a port's write of a virtual function's window. -/
def execCqconsWrite (s : State) : Out :=
  .next (if s.portReady s.ev.port then s.cqcons s.ev.part (lo32 s.ev.val) else s)

/-- HOST_WRITE_INBOUND; one that has to wait arrives again (R361, R389). -/
def State.hostWriteIn (s : State) (port p a : Nat) (data : List Byte) : State :=
  if !s.portReady port || 16 < p then s
  else
    match s.inboundPas p a data.length true with
    | none => s.complete []
    | some pas =>
      if !s.hostOpen pas || s.writeHeld p pas then s
      else
        let l := pas.zip data
        let regs := l.filter fun (x, _) => s.space x == .regs
        let mem := l.filter fun (x, _) => s.space x != .regs
        let s := (s.reachLines p (s.linesAt (mem.map (·.1)))).storeBytes p mem
        if regs.isEmpty then s else s.portStores port (regs.map fun (x, b) => (x % 2 ^ 50, b))
def execHostWriteInbound (s : State) : Out :=
  .next (if s.ev.flag then (if s.portReady s.ev.port && s.ev.part ≤ 16 then s.barWrite s.ev.port s.ev.part (cells s.ev.addr s.ev.bytes) else s)
    else s.hostWriteIn s.ev.port s.ev.part s.ev.addr s.ev.bytes)

/-- HOST_READ_INBOUND; bytes that are marked unreadable do not complete (R145, log 144). -/
def State.hostReadIn (s : State) (port p a n : Nat) : State :=
  if !s.portReady port || 16 < p then s
  else
    match s.inboundPas p a n false with
    | none => s.complete []
    | some pas =>
      if !s.hostOpen pas then s
      else if pas.any s.poisoned then s.complete []
      else
        let regs := (pas.filter fun x => s.space x == .regs).map (· % 2 ^ 50)
        let s := (s.windowRead port regs).reachLines p (s.linesAt (pas.filter fun x => s.space x != .regs))
        let s' := s.complete (pas.map fun x =>
          if s.space x == .regs then s.mgmtByte (s.mgmt.holder == port) (x % 2 ^ 50) else s.memByte x)
        if regs.isEmpty then s' else { s' with free := s.free + 1 }
def execHostReadInbound (s : State) : Out :=
  .next (if s.ev.flag then (if s.portReady s.ev.port && s.ev.part ≤ 16 then s.barRead s.ev.port s.ev.part (span s.ev.addr s.ev.idx) else s)
    else s.hostReadIn s.ev.port s.ev.part s.ev.addr s.ev.idx)

/-- FetchAdd, Swap and CAS on 32 and 64 bits. -/
def pcieAtomic (op : AT) (cas : Bool) (t : AtomTy) : Bool := t != .f32 && (cas || op == .add || op == .xchg)

/-- HOST_ATOMIC_INBOUND: an atomic at .dev. -/
def State.hostAtomicIn (s : State) (port p a : Nat) (o : RemoteOp) : State :=
  if !s.portReady port || 16 < p then s
  else
    match o with
    | .atomic op cas t b e =>
      match s.inboundPas p a (atBytes t) true with
      | some (pa :: _) =>
        let pas := bytesAt pa (atBytes t)
        if pcieAtomic op cas t && a % atBytes t == 0 && s.space pa == .here && (s.homeSlice pa).isSome && !pas.any s.poisoned then
          if s.writeHeld p pas then s
          else
            let x := (s.reachLines p (s.linesAt pas)).atomicAt p pa op cas t b e
            x.1.complete x.2
        else s.complete []
      | _ => s.complete []
    | _ => s.complete []
def execHostAtomicInbound (s : State) : Out := .next (s.hostAtomicIn s.ev.port s.ev.part s.ev.addr s.ev.op)

end Sys2Proof.Machine
end

