-- ==== Sys2Proof/Machine/Sample.lean ====
section
/-!
DEFINITION. The trace unit between instructions: PC samples (R407) and the drain of the FIFO into memory (R393, R404).
-/
namespace Sys2Proof.Machine

/-- The team's clause is in issue on the port of class `vec`. -/
def Team.issuing (t : Team) (vec : Bool) : Bool :=
  t.stat == .running && t.port && t.r.cl.any fun c => vectorPort c.hdr == vec

/-- The team of a slot that a sample tells of: the one in issue on the vector port, else the one in issue on the other, else
the one with the lowest sr.team (R407). -/
def State.sampled (s : State) (p c k : Nat) : Option Team :=
  let here := (s.residents c).filter fun t => t.slot == k && t.part == p
  match here.find? (·.issuing true), here.find? (·.issuing false) with
  | some t, _ => some t
  | none, some t => some t
  | none, none => here.foldl (fun (m : Option Team) t => match m with
    | some u => if t.id < u.id then some t else m
    | none => some t) none

/-- The instruction at which the team stands could issue: its port is its own, and its gate holds it for nothing; the team in
issue that found no way on waits (log 130). -/
def State.issues (s : State) (t : Team) : Bool :=
  (t.issuing true || t.issuing false) && !(s.focus == some t.id && s.stalled) && match decodeWord t.word with
    | .ok i => match i.enc with
      | some e => match s.gate t i e noRun with
        | .wait => false
        | _ => true
      | none => false
    | .error _ => true

/-- SUB of a sample (R406). -/
def State.sampleSub (s : State) (t : Team) : Nat :=
  let stopped := match t.stat with
    | .stopped _ => true
    | _ => false
  if t.hnd then 3
  else if stopped || t.parked then 2
  else if s.issues t then 0
  else 1

def State.sample (s : State) (t : Team) : State :=
  s.tracePacket t t.r.pc ⟨7, s.sampleSub t, leBytes 7 t.r.pc.toNat ++ leBytes 2 t.liveLanes.length⟩

/-- TRACE_SAMPLE_TICK of die `d`. -/
def State.sampleTick (s : State) (d : Nat) : State :=
  let x := (s.die d).trace
  if x.en && x.mode == 1 then
    (List.range 12).foldl (fun (s : State) c => (List.range 8).foldl (fun (s : State) k =>
      match s.sampled x.part (12 * d + c) k with
      | some t => s.sample t
      | none => s) s) s
  else s
def execTraceSampleTick (s : State) : Out := .next (s.sampleTick s.ev.die)

/-- The physical address of byte `i` of a trace buffer, where a store of its partition may go. -/
def State.tracePa (s : State) (x : Trace) (i : Nat) : Option Nat :=
  let va := x.capBuf.toNat + i % x.capLen.toNat
  match s.combined x.part (va56 va) with
  | some e => if e.w && !e.ver then some (e.pbase + (va56 va - e.vbase)) else none
  | none => none

/-- Bytes that the device performs at .dev, without undo entry. -/
def State.deviceBytes (s : State) : List (Nat × Byte) → State
  | [] => s
  | (a, b) :: r => (((s.putByte a b).unpoison a).dropHere a).deviceBytes r

/-- The drain of `k` clocks' ends takes bytes from the FIFO of die `d` to the buffer; a failure of the buffer ends it (R393,
R404). -/
def State.drain (s : State) (d k : Nat) : State :=
  let x := (s.die d).trace
  let n := min (k * x.drain) x.fifo.length
  if n = 0 || x.dead then s
  else
    match (List.range n).mapM fun i => s.tracePa x (x.bytesWritten + i) with
    | none =>
      let s' := s.modDie d fun z => { z with trace := { x with
        wp := x.wp ||| (1#64 <<< 63)
        ctl := x.ctl &&& ~~~(1#64 <<< 63)
        dead := true } }
      if x.en then s'.profNotice x.part true else s'
    | some pas =>
      if !s.hostOpen pas then s
      else (s.deviceBytes (pas.zip x.fifo)).modDie d fun z => { z with trace := { z.trace with
        fifo := z.trace.fifo.drop n
        wp := wrap48 (x.bytesWritten + n) } }

/-- TRACE_DRAIN of die `d`: the drain of the clock that has just ended. -/
def State.traceDrain (s : State) (d : Nat) : State :=
  if (s.die d).trace.owed then (s.drain d 1).modDie d fun z => { z with trace := { z.trace with owed := false } } else s
def execTraceDrain (s : State) : Out := .next (s.traceDrain s.ev.die)

/-- `c` clocks end at die `d`: its events of the present one enter the FIFO behind the drain still owed; then each clock's end
drains, the last where TRACE_DRAIN or the next clock finds it (R392, R393). -/
def State.traceClocks (s : State) (d c : Nat) : State :=
  let x := (s.die d).trace
  if c = 0 || (x.batch.isEmpty && x.fifo.isEmpty) then s
  else
    let s := (s.traceDrain d).modDie d fun z => { z with trace := z.trace.flush s.clock }
    (s.drain d (c - 1)).modDie d fun z => { z with trace := { z.trace with owed := true } }

end Sys2Proof.Machine
end

