-- ==== Sys2Proof/Machine/Dispatch.lean ====
section
/-!
DEFINITION. One arm for each constructor of `Instr`: the meaning it calls.
-/
namespace Sys2Proof.Machine

def exec (i : Instr) (s : State) : Host.Outcome State Fault Refusal :=
  match i with
  | .nop g => Sys2Proof.Machine.execNop g s
  | .smov t x => Sys2Proof.Machine.execSmov t x s
  | .sadd t x => Sys2Proof.Machine.execSadd t x s
  | .ssub t x => Sys2Proof.Machine.execSsub t x s
  | .smul t x => Sys2Proof.Machine.execSmul t x s
  | .smulh t x => Sys2Proof.Machine.execSmulh t x s
  | .smad t x => Sys2Proof.Machine.execSmad t x s
  | .sand t x => Sys2Proof.Machine.execSand t x s
  | .sor t x => Sys2Proof.Machine.execSor t x s
  | .sxor t x => Sys2Proof.Machine.execSxor t x s
  | .snot t x => Sys2Proof.Machine.execSnot t x s
  | .sshl t x => Sys2Proof.Machine.execSshl t x s
  | .sshr t x => Sys2Proof.Machine.execSshr t x s
  | .ssar t x => Sys2Proof.Machine.execSsar t x s
  | .srot t x => Sys2Proof.Machine.execSrot t x s
  | .smin t x => Sys2Proof.Machine.execSmin t x s
  | .smax t x => Sys2Proof.Machine.execSmax t x s
  | .scmp cond t bit x => Sys2Proof.Machine.execScmp cond t bit x s
  | .ssel x => Sys2Proof.Machine.execSsel x s
  | .spopc t x => Sys2Proof.Machine.execSpopc t x s
  | .sclz t x => Sys2Proof.Machine.execSclz t x s
  | .sbfe t x => Sys2Proof.Machine.execSbfe t x s
  | .sbfi x => Sys2Proof.Machine.execSbfi x s
  | .scvt t x => Sys2Proof.Machine.execScvt t x s
  | .slit h keep x => Sys2Proof.Machine.execSlit h keep x s
  | .saddImm t x => Sys2Proof.Machine.execSaddImm t x s
  | .smulImm t x => Sys2Proof.Machine.execSmulImm t x s
  | .sandImm t x => Sys2Proof.Machine.execSandImm t x s
  | .sorImm t x => Sys2Proof.Machine.execSorImm t x s
  | .sxorImm t x => Sys2Proof.Machine.execSxorImm t x s
  | .sshlImm t x => Sys2Proof.Machine.execSshlImm t x s
  | .sshrImm t x => Sys2Proof.Machine.execSshrImm t x s
  | .ssarImm t x => Sys2Proof.Machine.execSsarImm t x s
  | .srotImm t x => Sys2Proof.Machine.execSrotImm t x s
  | .sminImm t x => Sys2Proof.Machine.execSminImm t x s
  | .smaxImm t x => Sys2Proof.Machine.execSmaxImm t x s
  | .sbfeImm t x => Sys2Proof.Machine.execSbfeImm t x s
  | .sbfiImm x => Sys2Proof.Machine.execSbfiImm x s
  | .br g disp => Sys2Proof.Machine.execBr g disp s
  | .brd g target join => Sys2Proof.Machine.execBrd g target join s
  | .brx x => Sys2Proof.Machine.execBrx x s
  | .call g d disp => Sys2Proof.Machine.execCall g d disp s
  | .ret x => Sys2Proof.Machine.execRet x s
  | .exit g => Sys2Proof.Machine.execExit g s
  | .yield g => Sys2Proof.Machine.execYield g s
  | .srd r g d => Sys2Proof.Machine.execSrd r g d s
  | .callx x => Sys2Proof.Machine.execCallx x s
  | .vadd t x => Sys2Proof.Machine.execVadd t x s
  | .vsub t x => Sys2Proof.Machine.execVsub t x s
  | .vmul t x => Sys2Proof.Machine.execVmul t x s
  | .vmulh t x => Sys2Proof.Machine.execVmulh t x s
  | .vmad t x => Sys2Proof.Machine.execVmad t x s
  | .vand t x => Sys2Proof.Machine.execVand t x s
  | .vor t x => Sys2Proof.Machine.execVor t x s
  | .vxor t x => Sys2Proof.Machine.execVxor t x s
  | .vnot t x => Sys2Proof.Machine.execVnot t x s
  | .vshl t x => Sys2Proof.Machine.execVshl t x s
  | .vshr t x => Sys2Proof.Machine.execVshr t x s
  | .vsar t x => Sys2Proof.Machine.execVsar t x s
  | .vmin t x => Sys2Proof.Machine.execVmin t x s
  | .vmax t x => Sys2Proof.Machine.execVmax t x s
  | .vabs t x => Sys2Proof.Machine.execVabs t x s
  | .vneg t x => Sys2Proof.Machine.execVneg t x s
  | .vpopc t x => Sys2Proof.Machine.execVpopc t x s
  | .vclz t x => Sys2Proof.Machine.execVclz t x s
  | .vbfe t x => Sys2Proof.Machine.execVbfe t x s
  | .vbfi x => Sys2Proof.Machine.execVbfi x s
  | .vsel x => Sys2Proof.Machine.execVsel x s
  | .vcmp cond t bit x => Sys2Proof.Machine.execVcmp cond t bit x s
  | .vaddImm t x => Sys2Proof.Machine.execVaddImm t x s
  | .vmulImm t x => Sys2Proof.Machine.execVmulImm t x s
  | .vandImm t x => Sys2Proof.Machine.execVandImm t x s
  | .vorImm t x => Sys2Proof.Machine.execVorImm t x s
  | .vxorImm t x => Sys2Proof.Machine.execVxorImm t x s
  | .vshlImm t x => Sys2Proof.Machine.execVshlImm t x s
  | .vshrImm t x => Sys2Proof.Machine.execVshrImm t x s
  | .vsarImm t x => Sys2Proof.Machine.execVsarImm t x s
  | .vminImm t x => Sys2Proof.Machine.execVminImm t x s
  | .vmaxImm t x => Sys2Proof.Machine.execVmaxImm t x s
  | .fadd rm x => Sys2Proof.Machine.execFadd rm x s
  | .fmul rm x => Sys2Proof.Machine.execFmul rm x s
  | .ffma rm x => Sys2Proof.Machine.execFfma rm x s
  | .fmin nan x => Sys2Proof.Machine.execFmin nan x s
  | .fmax nan x => Sys2Proof.Machine.execFmax nan x s
  | .fcmp cond t bit x => Sys2Proof.Machine.execFcmp cond t bit x s
  | .frcp x => Sys2Proof.Machine.execFrcp x s
  | .frsq x => Sys2Proof.Machine.execFrsq x s
  | .fsqrt rm x => Sys2Proof.Machine.execFsqrt rm x s
  | .fex2 x => Sys2Proof.Machine.execFex2 x s
  | .flg2 x => Sys2Proof.Machine.execFlg2 x s
  | .fsin x => Sys2Proof.Machine.execFsin x s
  | .fcos x => Sys2Proof.Machine.execFcos x s
  | .fclass f x => Sys2Proof.Machine.execFclass f x s
  | .cvt rm dst src x => Sys2Proof.Machine.execCvt rm dst src x s
  | .cvtNosat rm dst src x => Sys2Proof.Machine.execCvtNosat rm dst src x s
  | .hadd2F16 rm x => Sys2Proof.Machine.execHadd2F16 rm x s
  | .hmul2F16 rm x => Sys2Proof.Machine.execHmul2F16 rm x s
  | .hfma2F16 rm x => Sys2Proof.Machine.execHfma2F16 rm x s
  | .hadd2Bf16 rm x => Sys2Proof.Machine.execHadd2Bf16 rm x s
  | .hmul2Bf16 rm x => Sys2Proof.Machine.execHmul2Bf16 rm x s
  | .hfma2Bf16 rm x => Sys2Proof.Machine.execHfma2Bf16 rm x s
  | .shfl op x => Sys2Proof.Machine.execShfl op x s
  | .bcast x => Sys2Proof.Machine.execBcast x s
  | .ballot bit x => Sys2Proof.Machine.execBallot bit x s
  | .vote op dbit bit x => Sys2Proof.Machine.execVote op dbit bit x s
  | .tred op x => Sys2Proof.Machine.execTred op x s
  | .tscan op x => Sys2Proof.Machine.execTscan op x s
  | .ld t x => Sys2Proof.Machine.execLd t x s
  | .ldAcq t sc x => Sys2Proof.Machine.execLdAcq t sc x s
  | .st t x => Sys2Proof.Machine.execSt t x s
  | .stRel t sc x => Sys2Proof.Machine.execStRel t sc x s
  | .lds t x => Sys2Proof.Machine.execLds t x s
  | .sts t x => Sys2Proof.Machine.execSts t x s
  | .atom op sc o t x => Sys2Proof.Machine.execAtom op sc o t x s
  | .atomCas sc o t x => Sys2Proof.Machine.execAtomCas sc o t x s
  | .red op sc o t x => Sys2Proof.Machine.execRed op sc o t x s
  | .rdo x => Sys2Proof.Machine.execRdo x s
  | .rdoset x => Sys2Proof.Machine.execRdoset x s
  | .ldv t sc acq x => Sys2Proof.Machine.execLdv t sc acq x s
  | .ldvLatest t sc acq x => Sys2Proof.Machine.execLdvLatest t sc acq x s
  | .stv t x => Sys2Proof.Machine.execStv t x s
  | .stvRel t sc x => Sys2Proof.Machine.execStvRel t sc x s
  | .vflr x => Sys2Proof.Machine.execVflr x s
  | .vqry x => Sys2Proof.Machine.execVqry x s
  | .acp tag x => Sys2Proof.Machine.execAcp tag x s
  | .acpw tag g => Sys2Proof.Machine.execAcpw tag g s
  | .lease x => Sys2Proof.Machine.execLease x s
  | .unlease x => Sys2Proof.Machine.execUnlease x s
  | .pref l x => Sys2Proof.Machine.execPref l x s
  | .cctl op x => Sys2Proof.Machine.execCctl op x s
  | .fence op sc g => Sys2Proof.Machine.execFence op sc g s
  | .atoms op sc o t x => Sys2Proof.Machine.execAtoms op sc o t x s
  | .atomsCas sc o t x => Sys2Proof.Machine.execAtomsCas sc o t x s
  | .mfmt x => Sys2Proof.Machine.execMfmt x s
  | .mma set x => Sys2Proof.Machine.execMma set x s
  | .mloop set x => Sys2Proof.Machine.execMloop set x s
  | .mzero x => Sys2Proof.Machine.execMzero x s
  | .mld x => Sys2Proof.Machine.execMld x s
  | .mst f x => Sys2Proof.Machine.execMst f x s
  | .mwait g => Sys2Proof.Machine.execMwait g s
  | .sgo x => Sys2Proof.Machine.execSgo x s
  | .sstop x => Sys2Proof.Machine.execSstop x s
  | .sqry x => Sys2Proof.Machine.execSqry x s
  | .qfence x => Sys2Proof.Machine.execQfence x s
  | .bcp x => Sys2Proof.Machine.execBcp x s
  | .qpop q x => Sys2Proof.Machine.execQpop q x s
  | .qpush q x => Sys2Proof.Machine.execQpush q x s
  | .qrel q x => Sys2Proof.Machine.execQrel q x s
  | .qstat q x => Sys2Proof.Machine.execQstat q x s
  | .qtry q x => Sys2Proof.Machine.execQtry q x s
  | .aset x => Sys2Proof.Machine.execAset x s
  | .aadd x => Sys2Proof.Machine.execAadd x s
  | .await x => Sys2Proof.Machine.execAwait x s
  | .aqry x => Sys2Proof.Machine.execAqry x s
  | .emit edge x => Sys2Proof.Machine.execEmit edge x s
  | .emitTeam edge x => Sys2Proof.Machine.execEmitTeam edge x s
  | .emitx len edge x => Sys2Proof.Machine.execEmitx len edge x s
  | .emitxTeam len edge x => Sys2Proof.Machine.execEmitxTeam len edge x s
  | .rrd x => Sys2Proof.Machine.execRrd x s
  | .rlen x => Sys2Proof.Machine.execRlen x s
  | .trap n g => Sys2Proof.Machine.execTrap n g s
  | .tretFix g => Sys2Proof.Machine.execTretFix g s
  | .tretSkip g => Sys2Proof.Machine.execTretSkip g s
  | .tretRetry g => Sys2Proof.Machine.execTretRetry g s
  | .tretKill g => Sys2Proof.Machine.execTretKill g s
  | .sysrd n g d => Sys2Proof.Machine.execSysrd n g d s
  | .syswr w => Sys2Proof.Machine.execSyswr w s
  | .ckpt x => Sys2Proof.Machine.execCkpt x s
  | .bkpt n g => Sys2Proof.Machine.execBkpt n g s
  | .tmark x => Sys2Proof.Machine.execTmark x s
  | .ringrst x => Sys2Proof.Machine.execRingrst x s
  | .presize x => Sys2Proof.Machine.execPresize x s
  | .plend x => Sys2Proof.Machine.execPlend x s
  | .prevoke x => Sys2Proof.Machine.execPrevoke x s
  | .pgret x => Sys2Proof.Machine.execPgret x s
  | .gptrootWrite w => Sys2Proof.Machine.execGptrootWrite w s
  | .hptrootWrite w => Sys2Proof.Machine.execHptrootWrite w s
  | .scrsplitWrite w => Sys2Proof.Machine.execScrsplitWrite w s
  | .vrcmdCreate w => Sys2Proof.Machine.execVrcmdCreate w s
  | .vrcmdDestroy w => Sys2Proof.Machine.execVrcmdDestroy w s
  | .ringcbEnable w => Sys2Proof.Machine.execRingcbEnable w s
  | .ringcbDisable w => Sys2Proof.Machine.execRingcbDisable w s
  | .domcfgWrite w => Sys2Proof.Machine.execDomcfgWrite w s
  | .dtimeWrite w => Sys2Proof.Machine.execDtimeWrite w s
  | .gtoffWrite w => Sys2Proof.Machine.execGtoffWrite w s
  | .modeWrite w => Sys2Proof.Machine.execModeWrite w s
  | .pctlFreeze w => Sys2Proof.Machine.execPctlFreeze w s
  | .pctlThaw w => Sys2Proof.Machine.execPctlThaw w s
  | .pctlReset w => Sys2Proof.Machine.execPctlReset w s
  | .saferstWrite w => Sys2Proof.Machine.execSaferstWrite w s
  | .profctlWrite w => Sys2Proof.Machine.execProfctlWrite w s
  | .pmselWrite w => Sys2Proof.Machine.execPmselWrite w s
  | .trcctlWrite w => Sys2Proof.Machine.execTrcctlWrite w s
  | .dbgdataRead g d => Sys2Proof.Machine.execDbgdataRead g d s
  | .dbgdataWrite w => Sys2Proof.Machine.execDbgdataWrite w s
  | .dbgrunResume w => Sys2Proof.Machine.execDbgrunResume w s
  | .dbgrunStep w => Sys2Proof.Machine.execDbgrunStep w s
  | .dbgrunSkip w => Sys2Proof.Machine.execDbgrunSkip w s
  | .dbgrunKill w => Sys2Proof.Machine.execDbgrunKill w s
  | .dbgrunHalt w => Sys2Proof.Machine.execDbgrunHalt w s
  | .rplctlLog w => Sys2Proof.Machine.execRplctlLog w s
  | .rplctlGo w => Sys2Proof.Machine.execRplctlGo w s
  | .clauseIssue => Sys2Proof.Machine.execClauseIssue s
  | .faultDeliver => Sys2Proof.Machine.execFaultDeliver s
  | .loadDataReturn => Sys2Proof.Machine.execLoadDataReturn s
  | .storePerformed => Sys2Proof.Machine.execStorePerformed s
  | .atomicPerformed => Sys2Proof.Machine.execAtomicPerformed s
  | .rdoContributionArrive => Sys2Proof.Machine.execRdoContributionArrive s
  | .versionStoreRecord => Sys2Proof.Machine.execVersionStoreRecord s
  | .ldvWake => Sys2Proof.Machine.execLdvWake s
  | .parkedRetry => Sys2Proof.Machine.execParkedRetry s
  | .floorApply => Sys2Proof.Machine.execFloorApply s
  | .vflrPerformed => Sys2Proof.Machine.execVflrPerformed s
  | .acpPerformed => Sys2Proof.Machine.execAcpPerformed s
  | .bcpComplete => Sys2Proof.Machine.execBcpComplete s
  | .bcpTranslationFail => Sys2Proof.Machine.execBcpTranslationFail s
  | .arrivalRedirect => Sys2Proof.Machine.execArrivalRedirect s
  | .matrixEntryPerformed => Sys2Proof.Machine.execMatrixEntryPerformed s
  | .streamTileComplete => Sys2Proof.Machine.execStreamTileComplete s
  | .streamEngineFault => Sys2Proof.Machine.execStreamEngineFault s
  | .emitPerformed => Sys2Proof.Machine.execEmitPerformed s
  | .teamRetire => Sys2Proof.Machine.execTeamRetire s
  | .teamKill => Sys2Proof.Machine.execTeamKill s
  | .pgretDone => Sys2Proof.Machine.execPgretDone s
  | .recordEnqueue => Sys2Proof.Machine.execRecordEnqueue s
  | .admissionDecision => Sys2Proof.Machine.execAdmissionDecision s
  | .coalesceTimeout => Sys2Proof.Machine.execCoalesceTimeout s
  | .agingTick => Sys2Proof.Machine.execAgingTick s
  | .instanceEnd => Sys2Proof.Machine.execInstanceEnd s
  | .arrivalRetry => Sys2Proof.Machine.execArrivalRetry s
  | .gapTimeout => Sys2Proof.Machine.execGapTimeout s
  | .watchdogExpire => Sys2Proof.Machine.execWatchdogExpire s
  | .leaseExpire => Sys2Proof.Machine.execLeaseExpire s
  | .nearCopyExpire => Sys2Proof.Machine.execNearCopyExpire s
  | .farCopyExpire => Sys2Proof.Machine.execFarCopyExpire s
  | .recReceive => Sys2Proof.Machine.execRecReceive s
  | .ackReceive => Sys2Proof.Machine.execAckReceive s
  | .nakReceive => Sys2Proof.Machine.execNakReceive s
  | .backoffExpire => Sys2Proof.Machine.execBackoffExpire s
  | .skipReceive => Sys2Proof.Machine.execSkipReceive s
  | .repltoExpire => Sys2Proof.Machine.execRepltoExpire s
  | .vwakeReceive => Sys2Proof.Machine.execVwakeReceive s
  | .vflrMsgReceive => Sys2Proof.Machine.execVflrMsgReceive s
  | .staggerReceive => Sys2Proof.Machine.execStaggerReceive s
  | .staggerHoldEnd => Sys2Proof.Machine.execStaggerHoldEnd s
  | .remoteAccessArrive => Sys2Proof.Machine.execRemoteAccessArrive s
  | .remoteTimeout => Sys2Proof.Machine.execRemoteTimeout s
  | .ingressPoll => Sys2Proof.Machine.execIngressPoll s
  | .ctrlLoad => Sys2Proof.Machine.execCtrlLoad s
  | .ctrlUnload => Sys2Proof.Machine.execCtrlUnload s
  | .ctrlWatch => Sys2Proof.Machine.execCtrlWatch s
  | .reportWrite => Sys2Proof.Machine.execReportWrite s
  | .hostWriteInbound => Sys2Proof.Machine.execHostWriteInbound s
  | .hostReadInbound => Sys2Proof.Machine.execHostReadInbound s
  | .hostAtomicInbound => Sys2Proof.Machine.execHostAtomicInbound s
  | .cpsemAcquire => Sys2Proof.Machine.execCpsemAcquire s
  | .cpsemRelease => Sys2Proof.Machine.execCpsemRelease s
  | .controlLinkLoss => Sys2Proof.Machine.execControlLinkLoss s
  | .cqconsWrite => Sys2Proof.Machine.execCqconsWrite s
  | .ualinkDegrade => Sys2Proof.Machine.execUalinkDegrade s
  | .freezeComplete => Sys2Proof.Machine.execFreezeComplete s
  | .traceSampleTick => Sys2Proof.Machine.execTraceSampleTick s
  | .teamStop => Sys2Proof.Machine.execTeamStop s
  | .replayDone => Sys2Proof.Machine.execReplayDone s
  | .plendDone => Sys2Proof.Machine.execPlendDone s
  | .prevokeDone => Sys2Proof.Machine.execPrevokeDone s
  | .presizeDone => Sys2Proof.Machine.execPresizeDone s
  | .teamMigrate => Sys2Proof.Machine.execTeamMigrate s
  | .teamRestore => Sys2Proof.Machine.execTeamRestore s
  | .dualHashSweep => Sys2Proof.Machine.execDualHashSweep s
  | .windowClose => Sys2Proof.Machine.execWindowClose s
  | .pageMigrate => Sys2Proof.Machine.execPageMigrate s
  | .checkpointCut => Sys2Proof.Machine.execCheckpointCut s
  | .checkpointCommit => Sys2Proof.Machine.execCheckpointCommit s
  | .turnEnd => Sys2Proof.Machine.execTurnEnd s
  | .turnStart => Sys2Proof.Machine.execTurnStart s
  | .rollback => Sys2Proof.Machine.execRollback s
  | .safeCheckpointHold => Sys2Proof.Machine.execSafeCheckpointHold s
  | .uncorrectableError => Sys2Proof.Machine.execUncorrectableError s
  | .pageRetireDone => Sys2Proof.Machine.execPageRetireDone s
  | .unitFail => Sys2Proof.Machine.execUnitFail s
  | .firmwareVerify => Sys2Proof.Machine.execFirmwareVerify s
  | .attctlSign => Sys2Proof.Machine.execAttctlSign s
  | .attestDone => Sys2Proof.Machine.execAttestDone s
  | .sysselRead => Sys2Proof.Machine.execSysselRead s
  | .sysselWrite => Sys2Proof.Machine.execSysselWrite s
  | .sysselPresize => Sys2Proof.Machine.execSysselPresize s
  | .sysselPlend => Sys2Proof.Machine.execSysselPlend s
  | .sysselPrevoke => Sys2Proof.Machine.execSysselPrevoke s
  | .sysselPgret => Sys2Proof.Machine.execSysselPgret s
  | .pwrctlWrite => Sys2Proof.Machine.execPwrctlWrite s
  | .powerTick => Sys2Proof.Machine.execPowerTick s
  | .fwgovEngage => Sys2Proof.Machine.execFwgovEngage s
  | .fwgovRelease => Sys2Proof.Machine.execFwgovRelease s
  | .governorWindow => Sys2Proof.Machine.execGovernorWindow s
  | .arrayGate => Sys2Proof.Machine.execArrayGate s
  | .arrayWake => Sys2Proof.Machine.execArrayWake s
  | .traceDrain => Sys2Proof.Machine.execTraceDrain s
  | .moduleReset => Sys2Proof.Machine.execModuleReset s
  | .safeRestoreDone => Sys2Proof.Machine.execSafeRestoreDone s
  | .partitionClearDone => Sys2Proof.Machine.execPartitionClearDone s
  | .rootDropDone => Sys2Proof.Machine.execRootDropDone s

end Sys2Proof.Machine
end

