-- ==== Sys2Proof/Machine/Progress.lean ====
section
/-!
DEFINITION. What the module does next of its own accord: the word the team in issue stands at, the oldest work of a team
that waits (log 2), the passing of time (log 3), and a team placed at one instruction (`State.placeWord`).
-/
namespace Sys2Proof.Machine

/-! ## The next instruction -/

inductive Fetched where
  | idle
  | header
  | word (i : Except DecErr Instr)

/-- Where the team in issue stands: a clause's words are those the slot validated (R38). -/
def State.fetched (s : State) : Fetched :=
  match s.cur with
  | none => .idle
  | some t =>
    match t.r.cl with
    | none => .header
    | some _ => .word (decodeWord t.word)

/-- A word of the clause that does not decode: no clause that was started holds one. -/
def State.badWord (s : State) (e : DecErr) : State :=
  match s.cur with
  | some t => s.raise t (t.faultAt e.code 0 noLane)
  | none => s

/-! ## Progress of a waiting team (log 2) -/

/-- The event that performs a pending instruction. -/
def Pending.event (p : Pending) : Option Instr :=
  match p.kind with
  | .load .. | .lds .. | .latest .. | .vqry .. => some .loadDataReturn
  | .result => none
  | .store .. | .sts .. | .cctl .. => some .storePerformed
  | .atomic .. | .atoms .. => some .atomicPerformed
  | .rdo .. => some .rdoContributionArrive
  | .ldv _ _ _ _ (some _) => some .parkedRetry
  | .ldv .. => some .ldvWake
  | .stv .. => some .versionStoreRecord
  | .vflr .. => some .vflrPerformed
  | .acp .. => some .acpPerformed
  | .emit .. => some .emitPerformed

/-- The die and engine whose oldest copy is the team's. -/
def State.copyAtHead (s : State) (t : Team) : Option (Nat × Nat) :=
  let d := dieOfCore t.core
  ((List.range 4).find? fun e => match (s.die d).copies e with
    | c :: _ => c.team == t.id
    | [] => false).map fun e => (d, e)

/-- The team's engine with a run. -/
def Team.busyEngine (t : Team) : Option Nat :=
  (List.range t.engines.length).find? fun k => match t.engines[k]? with
    | some e => !e.runs.isEmpty && e.st != .faulted
    | none => false

/-- What the array of team `t` does next: it wakes, a window begins, or its oldest entry is performed. -/
def State.arrayProgress (s : State) (t : Team) : Instr × Event :=
  let a := s.arr t.core t.slot
  let e : Event := { team := t.id, part := t.part, core := t.core, slot := t.slot, die := dieOfCore t.core }
  if a.gated && a.waking then (.arrayWake, e)
  else if a.blocked.isSome then (.governorWindow, e)
  else (.matrixEntryPerformed, e)

/-- An atomic of the team whose update, or an entry before it, stands in its core's write buffer. -/
def State.updateLeft (s : State) (t : Team) : Option Nat :=
  ((s.core t.core).wbuf.find? fun e => e.team == t.id && !e.counted).map (·.seq)

/-- What performs the oldest unperformed work of team `t`. -/
def State.workOf (s : State) (t : Team) : Option (Instr × Event) :=
  let e : Event := { team := t.id, part := t.part }
  match t.pend.find? fun p => !p.performed with
  | some p => p.event.map fun i => (i, { e with seq := p.seq })
  | none =>
    if (s.updateLeft t).isSome then (s.updateLeft t).map fun q => (.storePerformed, { e with seq := q })
    else if t.mtx.any fun m => !m.queue.isEmpty then some (s.arrayProgress t)
    else
      match t.busyEngine with
      | some k => some (.streamTileComplete, { e with eng := k })
      | none => (s.copyAtHead t).map fun (d, g) => (.bcpComplete, { e with die := d, eng := g })

/-- The next event for team `t`, which waits: what ends it, then its oldest unperformed work. A team that ends first gives up
what it will not perform. -/
def State.progressOf (s : State) (t : Team) : Option (Instr × Event) :=
  let e : Event := { team := t.id, part := t.part }
  match t.stat with
  | .retiring => if t.endAllRuns false = t then (s.workOf t).or (some (.teamRetire, e)) else some (.teamRetire, e)
  | .killing _ =>
    if t.endAllRuns true = t ∧ t.pend.all (fun p => !p.kind.blocks) then (s.workOf t).or (some (.teamKill, e))
    else some (.teamKill, e)
  | .saved => some (.teamRestore, e)
  | .stopped _ => none
  | .running =>
    if t.stopReq.isSome && t.deliverable then some (.teamStop, e)
    else if t.trap.isSome && t.deliverable then some (.faultDeliver, e)
    else s.workOf t

/-- What happens next while the team in issue waits and the schedule is empty. -/
def State.progress (s : State) : Option (Instr × Event) :=
  match s.cur with
  | some t => s.progressOf t
  | none => none

/-! ## Time (log 3) -/

/-- `c` clocks of a core count for the partition whose clocks they are, if any: the lane-cycle record of its slots, and
event 0x001 (R409, R412). -/
def State.coreClocks (s : State) (core c : Nat) : State :=
  match s.coreUser core with
  | some p => ((List.range 8).foldl (fun s k => s.slotClocks p core c k) s).countEvent p (dieOfCore core) 0x001 (8 * c)
  | none => s

/-- The governor or slew control holds back a K-step of the team's array (R275, R320, R422): slew control paces all while the
envelope stands below the demand (log 146). -/
def State.heldBack (s : State) (t : Team) : Bool :=
  t.mtx.any fun m => ((s.core t.core).arr.get? t.slot).any (·.blocked.isSome) ||
    (decide (s.mgmt.env < 1000 * Config.powerDemand (1000 * s.mgmt.ticks)) && m.queue.any fun e => e.op.steps != 0)

/-- A write of the team waits for its partition's undo log or the safe tier, as throttled (R275, R361, R389). -/
def State.throttled (s : State) (t : Team) : Bool :=
  s.writeHeld t.part ((t.pend.flatMap fun p => p.touches.flatMap (·.pas)) ++
    ((s.core t.core).wbuf.filter fun e => e.team == t.id).flatMap fun e => e.bytes.map (·.1))

/-- The team finds no way on at its instruction. -/
def State.standsAt (s : State) (t : Team) : Bool :=
  match decodeWord t.word with
  | .ok i =>
    match exec i { s with
      focus := some t.id
      stalled := false } with
    | .next u => u.stalled
    | _ => false
  | .error _ => false
/-- It stands at the read of a block in host memory, which a port that held the control plane would carry (R377). -/
def State.hostStalls (s : State) (t : Team) : Bool :=
  t.r.cl.isSome && s.standsAt t && !({ s with mgmt := { s.mgmt with held := true } } : State).standsAt t

/-- The team, or work of it, waits for host memory while no port holds the control plane (R377). -/
def State.hostWaits (s : State) (t : Team) : Bool :=
  let host (f : Flight) : Bool := (f.firstOn s.isHost).isSome
  !s.mgmt.held && ((t.pend.any fun p => (p.firstOn s.isHost).isSome) ||
    (t.engines.any fun e => e.head.isSome && match (s.tileNext t e 0).2 with
      | .goes f => host f
      | _ => false) ||
    (span 0 4).any fun g => ((s.die (dieOfCore t.core)).copies g).head?.any (fun c => c.team == t.id && c.fly.any host) || s.hostStalls t)

/-- The team is resident: neither stopped nor parked by a turn, a resize, a freeze or a migration (R275, R368). -/
def State.counts (s : State) (t : Team) : Bool :=
  (t.stat == .running || t.stat == .retiring) && !(s.part t.part).frozen

/-- The clocks in which a team issues nothing count, but for those R275 leaves out. -/
def State.watch (s : State) (t : Team) (c : Nat) : Team :=
  if s.counts t && !(s.die (dieOfCore t.core)).replay.halted && !s.heldBack t && !s.throttled t && !s.hostWaits t then { t with wd := t.wd + c } else t

/-- sr.grun counts a turned partition's turns, and a pinned one's time out of the freeze (R372). -/
def State.running (s : State) (k : Nat) (p : Partition) (ns : Nat) : Partition :=
  if (if s.turned k then p.onTurn else !p.frozen) then { p with grun := p.grun + ns } else p

/-- The arrivals of a partition whose time is over are dropped (R273). -/
def State.lateArrivals (s : State) (p : Nat) : Nat → State
  | 0 => s
  | n + 1 =>
    match (s.part p).held.findIdx? (·.late s) with
    | some i => (s.dropArrival p i).lateArrivals p n
    | none => s
/-- So are the records of the replay windows. -/
def State.lateRecords (s : State) : State :=
  (s.dies.flatMap fun (d, x) => x.win.flatMap fun (dev, w) => (w.recs.filter fun r => r.deadline ≤ s.now).map fun r =>
    (d, dev, r.seq)).foldl (fun s (d, dev, q) => s.dropRecord d dev q) s

/-- What is due as time passes: aging ticks, launch rules by age (R262), the end of REPLTO, ends of leases, gap timeouts, watchdogs,
power ticks, the grid and the end of turns. -/
def State.overdue (s : State) : State :=
  let s := (List.range 17).foldl (fun s p => s.refresh p) s.agingTicks
  let s := ((List.range 17).foldl (fun s p => s.lateArrivals p (s.part p).held.length) s).lateRecords
  (List.range 17).foldl (fun s p => s.turnDue p)
    s.leaseEnds.gapTimeouts.watchdogs.powerTicks.hostHoldEnd

/-- `c` clocks of every core; a bin changed in the present clock applies from the next (R410). -/
def State.coresClocks (s : State) (c : Nat) : State :=
  let run (s : State) (c : Nat) : State := (List.range 48).foldl (fun s k => s.coreClocks k c) s
  if c = 0 then s
  else if s.parts.any fun (_, x) => x.bins.isSome then
    run { run s 1 with parts := (run s 1).parts.map fun (k, x) => (k, { x with bins := none }) } (c - 1)
  else run s c

/-- The shared events of links, fabric and memory that `c` clocks bring: how many, the manual leaves to units whose traffic it
does not count (R411, R371) (log 6). They are counted where a partition's counter or a die's event trace watches them. -/
def State.sharedEvents (s : State) (c : Nat) : State :=
  let watched (p e : Nat) : Bool := (List.range 8).any fun k => bitsOf (s.pr p (0x500 + k)) 15 0 == e
  let traced (d e : Nat) : Bool := (s.die d).trace.en && (List.range 4).any fun k => bitsOf ((s.die d).trace.evt.get 0 (8 + k)) 15 0 == e
  if c = 0 then s
  else (List.range 5).foldl (fun s k =>
    let e := 0x100 + k
    (List.range 4).foldl (fun s d =>
      if traced d e || (List.range 17).any (watched · e) then
        let n := (Config.freeWord s.free).toNat
        (List.range 17).foldl (fun s p =>
          if watched p e || (traced d e && (s.die d).trace.part == p) then s.countEvent p d e n else s) { s with free := s.free + 1 }
      else s) s) s

/-- Time passes: `c` clocks, `ns` nanoseconds. -/
def State.elapse (s : State) (c ns : Nat) : State :=
  let s := (s.coresClocks c).sharedEvents c
  let s := (List.range 4).foldl (fun s d => s.traceClocks d c) s
  let s := { s with
    clock := s.clock + c
    now := s.now + ns
    teams := s.teams.map fun (k, t) => (k, s.watch t c)
    parts := (List.range 17).foldl (fun ps k =>
      Table.set ps Partition.reset k (s.running k (Table.get ps Partition.reset k) ns)) s.parts }
  (s.setMr 0x33 (s.mr 0x33 + BitVec.ofNat 64 ns)).overdue

/-! ## The world outside -/

/-- Bytes of host memory and of other devices' memory change; nothing else is theirs to store. Copies that caches of this
device hold stay (R285, R286) (log 127). -/
def State.outsideWrites (s : State) (l : List Host.Cell) : State :=
  { s with mem := Table.setAll s.mem Config.unlisted (l.filter fun c => s.isHost c.1 || s.isPeer c.1) }

/-! ## One instruction placed -/

/-- Where `placeWord` puts its code region and the region's map. -/
def placeBase : Nat := 0x4_0000
def placeMap : Nat := 0x4_1000

/-- The clause that holds word `w`: it and, where it may have a successor, a `nop`. -/
def placeHeader (w : W64) : W64 :=
  let opc := (Fields.unpack w).opc.toNat
  BitVec.ofNat 64 (opcClass opc * 2 ^ 60 + (if transfer opc then 0 else 2 ^ 56))
def placeWords (w : W64) : List W64 := if transfer (Fields.unpack w).opc.toNat then [w] else [w, 0]

/-- A node of one 32-lane team, and a graph whose one region is the clause's. -/
def placeNode : Node :=
  ⟨[], [], [], [], .empty, 7, false, 0, 0, 0, 0, 0, 0, 0, 0, 0, 0, [], 0⟩
def placeGraph : Graph :=
  ⟨[], [(0, placeNode)], [⟨BitVec.ofNat 64 placeBase, 0x1000, BitVec.ofNat 64 placeMap⟩], 0, true, []⟩

/-- A team of partition 0 on core 0, all 32 lanes live, inside the clause of `w`. -/
def placeTeam (w : W64) : Team where
  id := 0
  part := 0
  gslot := 0
  node := 0
  inst := 0
  core := 0
  slot := 0
  w := 32
  present := 0xFFFF_FFFF
  lane := true
  level := 2
  slvl := 0
  hnd := false
  fault := none
  trap := none
  r := { s := [], v := [], fflags := [], fctl := 0, mask := 0xFFFF_FFFF, stack := [], blocks := 0, due := 0,
         pc := BitVec.ofNat 64 (placeBase + 8),
         cl := some ⟨BitVec.ofNat 64 placeBase, placeHeader w, placeWords w, [], 0⟩ }
  port := true
  yld := false
  sbuf := []
  olds := []
  wc := []
  tg := []
  pend := []
  nseq := 0
  icount := 0
  nclause := 1
  spills := 0
  fills := 0
  gfills := 0
  scrS := 0
  scr := []
  scrWritten := []
  scrPoison := []
  rings := []
  engines := []
  mtx := none
  recs := [List.replicate 16 0]
  used := []
  credit := 1
  wd := 0
  stat := .running
  stopReq := none
  lost := none
  stopRec := none
  pcSet := false
  holdOn := none
  cmpIgnore := []
  trapPkt := none
  relFence := false
  relAt := none
  step := false
  ctx := 0
  was := .running
  migr := false
  touched := []
  touched0 := []

/-- `s` with the clause of `w` in memory, its map, and a team in issue at `w`. -/
def State.placeWord (s : State) (w : W64) : State :=
  let code := (placeHeader w :: placeWords w).flatMap fun x => leBytes 8 x.toNat
  let s := (s.writePhys placeBase code).writePhys placeMap [0x01#8]
  let s := s.modPart 0 fun p => { p with graphs := p.graphs.put 0 placeGraph }
  let s := s.modDie 0 fun d => { d with launchSeq := d.launchSeq + 1 }
  { s.setTeam (placeTeam w) with
    focus := some 0
    stalled := false
    agenda := [] }

end Sys2Proof.Machine
end

