-- ==== Sys2Proof/WellFormed.lean ====
section
/-!
DEFINITION. Which terms of `Instr` the spec can spell: the tests of stages 5 and 6 of R38 on an instruction's encoding, and
what a row that is no instruction must satisfy.
-/
namespace Sys2Proof

/-- The system-register number of a write that the host makes, and its row. -/
def SysWr.hostOk (w : SysWr) (row : SysRow) : Bool :=
  match w.by_ with
  | .team _ _ => false
  | .host _ _ =>
    (match Machine.sysInfo w.n.toNat with
      | some i => i.wr.isSome
      | none => false) && sysRow w.n.toNat == row

/-- The rows that a written value picks out: the register's number. -/
def SysWr.valueOk (w : SysWr) (f : Nat → Bool) : Bool := f w.n.toNat

/-- A write by the host (R425): a writable register, under the constructor of its row; the rows that a value or an event
picks out stand for themselves. -/
def Instr.hostWrite : Instr → Bool
  | .syswr w => w.hostOk .plain
  | .gptrootWrite w => w.hostOk .gptroot
  | .hptrootWrite w => w.hostOk .hptroot
  | .scrsplitWrite w => w.hostOk .scrsplit
  | .domcfgWrite w => w.hostOk .domcfg
  | .dtimeWrite w => w.hostOk .dtime
  | .gtoffWrite w => w.hostOk .gtoff
  | .modeWrite w => w.hostOk .mode
  | .saferstWrite w => w.hostOk .saferst
  | .profctlWrite w => w.hostOk .profctl
  | .pmselWrite w => w.hostOk .pmsel
  | .trcctlWrite w => w.hostOk .trcctl
  | .dbgdataWrite w => w.hostOk .dbgdata
  | _ => false

/-- A write picked out by its value: VRCMD, RINGCB, PCTL, DBGRUN, RPLCTL. -/
def Instr.valueRow : Instr → Option (SysWr × Bool)
  | .vrcmdCreate w | .vrcmdDestroy w => some (w, w.valueOk (· == 0x0175))
  | .ringcbEnable w | .ringcbDisable w => some (w, w.valueOk (Machine.within · 0x01A0 0x01AF))
  | .pctlFreeze w | .pctlThaw w | .pctlReset w =>
    some (w, w.valueOk fun n => Machine.within n 0x2000 0x30FF && n % 0x100 == 23)
  | .dbgrunResume w | .dbgrunStep w | .dbgrunSkip w | .dbgrunKill w | .dbgrunHalt w => some (w, w.valueOk (· == 0x0114))
  | .rplctlLog w | .rplctlGo w =>
    some (w, w.valueOk fun n => Machine.within n 0x01B0 0x01BF && n % 4 == 0)
  | _ => none

/-- A system-register write, by whoever makes it. -/
def Instr.sysWr? : Instr → Option SysWr
  | .syswr w | .gptrootWrite w | .hptrootWrite w | .scrsplitWrite w | .domcfgWrite w | .dtimeWrite w | .gtoffWrite w
  | .modeWrite w | .saferstWrite w | .profctlWrite w | .pmselWrite w | .trcctlWrite w | .dbgdataWrite w => some w
  | i => i.valueRow.map (·.1)

/-- A device event, or a write by the host: what the schedule may name (log 1). -/
def Instr.isEvent (i : Instr) : Bool :=
  match i.sysWr? with
  | some w => (match w.by_ with
    | .host _ _ => true
    | .team _ _ => false)
  | none => i.enc.isNone

/-- The terms the spec gives a meaning: an instruction whose encoding passes the tests of R38, a write of the right
register, or an event. -/
def Instr.wf (i : Instr) : Bool :=
  match i.valueRow with
  | some (_, ok) => ok
  | none =>
    match i.enc with
    | some e => e.ok1' && e.ok3'
    | none => i.sysWr?.isNone || i.hostWrite

end Sys2Proof
end

