-- ==== Sys2Proof/Machine/Step.lean ====
section
/-!
DEFINITION. One step of the module: an item of the schedule, or, where the schedule is empty, the team that has the issue
(log 1, log 2). `State.withFetchWord` places one instruction where the next step issues it.
-/
namespace Sys2Proof.Machine

/-- The team in issue goes on, or the one to which its slot switches: at a header the clause starts, inside a clause the
instruction at its PC runs. -/
def issueStep (s : State) : Host.Outcome State Fault Refusal :=
  let s := s.switched
  match s.fetched with
  | .idle => .next s
  | .header => exec .clauseIssue s
  | .word (.ok i) => exec i s
  | .word (.error e) => .next (s.badWord e)

/-- An event of the schedule, with what it concerns. -/
def eventStep (i : Instr) (e : Event) (s : State) : Host.Outcome State Fault Refusal :=
  if i.isEvent then exec i { s with ev := e } else .refused .notAnEvent

/-- One step. -/
def step (s : State) : Host.Outcome State Fault Refusal :=
  match s.agenda with
  | .event i e :: r => eventStep i e { s with agenda := r }
  | .issue t :: r => issueStep { s with
      agenda := r
      focus := some t
      stalled := false }
  | .elapse c n :: r => .next (State.elapse { s with agenda := r } c n)
  | .outside l :: r => .next (State.outsideWrites { s with agenda := r } l)
  | [] =>
    if s.stalled then
      match s.progress with
      | some (i, e) => eventStep i e { s with stalled := false }
      | none => .next s
    else issueStep s

/-- `s` with the instruction whose bits are `w` where the next step issues it. -/
def State.withFetchWord (s : State) (_nbits w : Nat) : State := s.placeWord (BitVec.ofNat 64 w)

end Sys2Proof.Machine
end

