-- ==== Sys2Proof/Safety.lean ====
section
/-!
DEFINITION. What counts as a safe run, and the terms in which claims are stated: when an instruction issues, where its effect
starts, and what it means that it completes.
-/
namespace Sys2Proof.Machine

/-- `n` steps from `s` meet no stop of the model. -/
def Safe (n : Nat) (s : State) : Prop :=
  match Sys2Proof.core.run n s with
  | .next _ => True
  | .fault _ => False
  | .refused _ => False

/-! ## Issue -/

/-- Instruction `i` of the team in issue passes everything that comes before its own effect (R13, R15, R29, R30, R34, R36,
R40, R87, R238, R240, R397): `t` is the team, earlier results landed and absent operands filled, `s1` the state then. `n` is
the run of registers of operand A, where it is not its width. -/
def Issues (i : Instr) (n : RunOf) (s s1 : State) (t : Team) (e : Enc) : Prop :=
  ∃ t0, s.cur = some t0 ∧ i.enc = some e ∧ s.gate t0 i e n = .go s1 t

/-- The state in which the effect of an instruction starts: last-read operands released (R35), pending results that it
overtakes dropped (R32), its issue accounted (R409). -/
def started (n : RunOf) (s1 : State) (t : Team) (e : Enc) : State := s1.prepare t e (encAccess e (n s1 t))

/-- The place after the instruction may be entered: it is no clause's last, or the next clause may be (R17). -/
def FallsOn (s1 : State) (t : Team) : Prop := ((s1.setTeam t).fallsInto t).2 = none

/-- Whenever instruction `i` issues, the place after it may be entered and `P` holds of the state and the team its effect
starts from, it completes: the next state is that of its effect `f`, the team moved on past the instruction. -/
def Completes (i : Instr) (n : RunOf) (P : State → Team → Prop) (f : State → Team → State) : Prop :=
  ∀ s s1 t e, Issues i n s s1 t e → FallsOn s1 t → P (started n s1 t e) t →
    exec i s = .next ((f (started n s1 t e) t).advance t)

/-- No further condition. -/
def always (_ : State) (_ : Team) : Prop := True

/-- The team of `t` has issued its instruction and goes to the clause at `target` (R96, R103). -/
def goesTo (s : State) (t : Team) (target : W64) : State :=
  match (s.modTeam t.id Team.retired).team? t.id with
  | some u => ((s.modTeam t.id Team.retired).arrive u target).yieldAfter u
  | none => s.modTeam t.id Team.retired

/-- Whenever instruction `i` issues, `P` holds and the target may be entered (R96), the team goes there; `f` is what else
the instruction does. -/
def Transfers (i : Instr) (P : State → Team → Prop) (target : State → Team → W64) (f : State → Team → State) : Prop :=
  ∀ s s1 t e, Issues i noRun s s1 t e → P (started noRun s1 t e) t →
    ((s1.setTeam t).checkTarget t (target (started noRun s1 t e) t)).2 = none →
    exec i s = .next (goesTo (f (started noRun s1 t e) t) t (target (started noRun s1 t e) t))

/-- Whenever instruction `i` issues and `P` holds, the next state is `f` as it stands. -/
def Ends (i : Instr) (P : State → Team → Prop) (f : State → Team → State) : Prop :=
  ∀ s s1 t e, Issues i noRun s s1 t e → P (started noRun s1 t e) t → exec i s = .next (f (started noRun s1 t e) t)

/-- Whenever instruction `i` issues and `P` holds, it takes the fault `code` with `info` in s61 and `s62` in s62, and has no
other effect (R34, R218). -/
def Faults (i : Instr) (n : RunOf) (P : State → Team → Prop) (code : Nat) (info s62 : State → Team → W64) : Prop :=
  ∀ s s1 t e, Issues i n s s1 t e → P (started n s1 t e) t →
    exec i s = .next ((s1.setTeam t).raise t
      (t.faultAt code (info (started n s1 t e) t) (s62 (started n s1 t e) t)))

/-- Every lane's range passes its issue checks (R139), and no watch matches (R398). -/
def Passes (s : State) (t : Team) (k : AccKind) (cl : PClass) (bad : Nat → Bool) (reads writes : Bool)
    (reqs : List Req) : Prop :=
  (s.checkReqs t k cl bad reqs).2.isOk = true ∧
    (s.checkReqs t k cl bad reqs).1.watchHit t reads writes (watched reqs) = none

/-- The lanes' accesses with the physical address of each byte, and the state with the translations that were used. -/
def passed (s : State) (t : Team) (k : AccKind) (cl : PClass) (bad : Nat → Bool) (reqs : List Req) : State × List Acc :=
  match s.checkReqs t k cl bad reqs with
  | (s, .ok accs) => (s, accs)
  | (s, .error _) => (s, [])

/-- The block of `n` words at `va` can be read at issue: it is aligned, its range passes the checks, no watch matches, no
device leaves it unanswered, no byte is poisoned (R139, R386). -/
def BlockReads (s : State) (t : Team) (va n : Nat) : Prop :=
  let q := s.checkRange t.core t.part t.level .load .plain (va56 va) (8 * n)
  va56 va % 64 = 0 ∧ q.1.watchHit t true false (watched [⟨noLaneN, va56 va, 8 * n, none⟩]) = none ∧
    match q.2 with
    | .ok l => (t.lost = some t.icount → (physOf l).findIdx? q.1.isPeer = none) ∧ q.1.blockOpen t (physOf l) = true ∧
        (physOf l).findIdx? q.1.poisoned = none
    | .error _ => False

/-- The read of the block of `n` words at `va` passes its checks, but another device, whose memory its byte `i` is the first
of, has not answered it (R386). -/
def BlockUnanswered (s : State) (t : Team) (va n i : Nat) : Prop :=
  let q := s.checkRange t.core t.part t.level .load .plain (va56 va) (8 * n)
  va56 va % 64 = 0 ∧ q.1.watchHit t true false (watched [⟨noLaneN, va56 va, 8 * n, none⟩]) = none ∧
    t.lost = some t.icount ∧
    match q.2 with
    | .ok l => (physOf l).findIdx? q.1.isPeer = some i
    | .error _ => False

/-- Its words, read at their homes, and the state with the translations that were used. -/
def blockOf (s : State) (t : Team) (va n : Nat) : State × List W64 :=
  match s.checkRange t.core t.part t.level .load .plain (va56 va) (8 * n) with
  | (s, .ok l) =>
    (s, (List.range n).map fun i => BitVec.ofNat 64 (leNat ((((physOf l).drop (8 * i)).take 8).map (s.homeByte t.part))))
  | (s, .error _) => (s, [])

/-- A result that an instruction knows when it issues (R32): at once, or after its window. -/
def result (s : State) (t : Team) (la : Fin 16) (d : Dest) (v : W64) : State :=
  s.resultWrites t la [.s (destIndex d)] [.s (destIndex d) v]

/-! ## The reconvergence stack -/

/-- R99, R104: `u` is what is left of team `t` when it has popped entries of which no lane remains; where they leave the slot
empty, the newest block of the spill area, none of whose bytes is poisoned, is read into it. -/
inductive Pops (s : State) : Team → Team → Prop
  | done (t : Team) : Pops s t t
  | pop (t u : Team) (e : REntry) (rest : List REntry) : t.r.stack = e :: rest → e.pmask = 0 → e.rmask = 0 →
      Pops s { t with r := { t.r with stack := rest } } u → Pops s t u
  | fill (t u : Team) (b : Nat) : t.r.stack = [] → t.r.blocks = b + 1 →
      (∀ k < 68, s.poisoned (s.spillBase t b + 32 * k) = false) →
      Pops s { t with
        r := { t.r with
          stack := ((List.range 8).map fun j => s.readEntry (s.spillBase t b + 272 * j)).reverse
          blocks := b
          due := 0 }
        fills := t.fills + 1 } u → Pops s t u

/-! ## The home slices at rest -/

/-- No dual-hash window is open and no queued record is spilled: a line that moves or comes to its slice then changes no byte of
memory (R229, R230, R337). -/
def State.still (s : State) : Bool :=
  s.wins.isEmpty && s.parts.all fun (_, x) => x.graphs.all fun (_, y) => y.nodes.all fun (_, z) => z.q.all fun r =>
    r.spill.isNone

/-! ## Results -/

/-- Scalar register `d` of team `t` holds `v`. -/
def putScalar (s : State) (t : Team) (d : Dest) (v : W64) : State :=
  s.modTeam t.id fun u => { u with r := u.r.sset (destIndex d) v }

/-- Each participating lane of vector register `d` holds `f l`; a 64-bit value takes two registers. -/
def putLanes (s : State) (t : Team) (g : Guard) (wide : Bool) (d : Dest) (f : Nat → W64) : State :=
  s.modTeam t.id fun u => u.apply ((t.active g).flatMap fun l => laneWrites wide (destIndex d) l (f l))

/-- Each lane of `ls` raises its flags (R66). -/
def raiseLanes (s : State) (t : Team) (ls : List Nat) (f : Nat → W32) : State :=
  s.modTeam t.id fun u => u.raises (ls.map fun l => (l, f l))

/-! ## Integer values, said with bit vectors -/

/-- The low bits of a value that an integer type keeps, extended again to 64 bits by its sign (R85). -/
def narrow (t : IW) (v : W64) : W64 :=
  match t with
  | .i64 | .n64 => v
  | .i32 => (v.setWidth 32).signExtend 64
  | .n32 => (v.setWidth 32).setWidth 64
  | .i16 => (v.setWidth 16).signExtend 64
  | .n16 => (v.setWidth 16).setWidth 64
  | .i8 => (v.setWidth 8).signExtend 64
  | .n8 => (v.setWidth 8).setWidth 64

/-- The number that the low bits stand for under an integer type. -/
def value (t : IW) (v : W64) : Int := if iwSigned t then (narrow t v).toInt else (narrow t v).toNat

/-- The low bits of an untyped width, the others zero (R88). -/
def cut (t : BW) (v : W64) : W64 :=
  match t with
  | .b64 => v
  | .b32 => (v.setWidth 32).setWidth 64
  | .b16 => (v.setWidth 16).setWidth 64
  | .b8 => (v.setWidth 8).setWidth 64

/-- The same, the sign bit of the width repeated above. -/
def cutSigned (t : BW) (v : W64) : W64 :=
  match t with
  | .b64 => v
  | .b32 => (v.setWidth 32).signExtend 64
  | .b16 => (v.setWidth 16).signExtend 64
  | .b8 => (v.setWidth 8).signExtend 64

/-- A rotation to the left within the width. -/
def rotated (t : BW) (v : W64) (n : Nat) : W64 :=
  match t with
  | .b64 => v.rotateLeft n
  | .b32 => ((v.setWidth 32).rotateLeft n).setWidth 64
  | .b16 => ((v.setWidth 16).rotateLeft n).setWidth 64
  | .b8 => ((v.setWidth 8).rotateLeft n).setWidth 64

/-- The bits of `v` below the width that are set. -/
def setBits (t : BW) (v : W64) : List Nat := (List.range (bwBits t)).filter v.getLsbD

end Sys2Proof.Machine
end

