-- ==== Sys2Proof/Certificates/Slice0/Obligations.lean ====
section
/-!
DEFINITION. The statements for the provers.
-/
open Sys2Proof Sys2Proof.Machine

/-! ## Words and steps -/

/-- R19-R43: decoding the word of a well-formed instruction gives it back, whatever its operands. -/
def Obligations.DecodeOfEncode : Prop :=
  ∀ (i : Instr) (w : W64), i.wf = true → encode i = some w → decodeWord w = .ok i

/-- R38: a word that decodes is the word of the instruction it decodes to, which is well formed. -/
def Obligations.EncodeOfDecode : Prop :=
  ∀ (i : Instr) (w : W64), decodeWord w = .ok i → encode i = some w ∧ i.wf = true

/-- Words that the manual's programs write out decode to the instructions they stand for. -/
def Obligations.WordsOfTheManual : Prop :=
  decodeWord 0x0000_0000_0000_0000 = .ok (.nop .none) ∧
  decodeWord 0x0100_0054_C000_0000 = .ok (.smov .b64 ⟨.none, .s 20, .lit 0, .v 0 false, .v 0 false, 0⟩) ∧
  decodeWord 0x2000_0055_5400_1000 = .ok (.saddImm .i64 ⟨.none, .s 21, .s 20, 16⟩) ∧
  decodeWord 0x1820_0049_00E0_0000 = .ok (.slit 1 false ⟨.none, .s 9, .v 0 false, 0xE000⟩) ∧
  decodeWord 0x1140_0059_5857_0000 = .ok (.scmp .lt .i64 0 ⟨.none, .s 25, .s 24, .s 23, .v 0 false, 0⟩) ∧
  decodeWord 0x3016_4000_FFFF_FFFD = .ok (.br (.scal 25 0 false) 0xFFFF_FFFD) ∧
  decodeWord 0x8180_0058_5600_8000 = .ok (.ldAcq .b32 .dom ⟨.none, .s 24, .s 22, .v 0 false, 0, 0⟩) ∧
  decodeWord 0x8388_0000_0208_8200 =
    .ok (.stRel .b32 .dom ⟨.vec 0 0 false, .v 0, .v 2 false, .v 8 false, 2, 0⟩) ∧
  decodeWord 0x8608_0008_5581_8100 =
    .ok (.atom .add .dom .relaxed .n32 ⟨.vec 0 0 false, .v 8, .s 21, .k 1, .v 0 false, 0⟩) ∧
  decodeWord 0x8880_0000_5611_6100 =
    .ok (.red .or .dev .relaxed .n32 ⟨.none, .v 0, .s 22, .v 17 false, .v 0 false, 0⟩) ∧
  decodeWord 0xE700_0000_5859_0000 = .ok (.ringrst ⟨.none, .v 0, .s 24, .s 25, .v 0 false, 0⟩)

/-- R11, R12, R38: with nothing scheduled, a step of a team inside a clause runs the instruction that the clause's word at its
PC decodes to; the words are those the slot read and validated at the header (`ClauseStarts`). Where the team's last clause
had YLD the slot first switches to another ready team, if one exists. The model's own (log 1): a scheduled event runs with
what it concerns, and leaves the rest of the schedule. -/
def Obligations.StepRunsDecoded : Prop :=
  (∀ (s : State) (t : Team) (c : Clause) (i : Instr), s.agenda = [] → s.stalled = false → s.switched.cur = some t →
    t.r.cl = some c → decodeWord (c.words.getD (c.at t.r.pc) 0) = .ok i → step s = exec i s.switched) ∧
  (∀ (s : State) (t : Team), s.cur = some t → t.yld = false → s.switched = s) ∧
  (∀ (s : State) (t u : Team), s.cur = some t → t.yld = true → (s.setTeam { t with yld := false }).other t = some u →
    s.switched = { s.setTeam { t with yld := false } with focus := some u.id } ∧ u.id ≠ t.id ∧ u.core = t.core ∧
      u.slot = t.slot ∧ (s.setTeam { t with yld := false }).ready u = true) ∧
  (∀ (s : State) (i : Instr) (e : Event) (r : List Agenda), s.agenda = .event i e :: r → i.isEvent = true →
    step s = exec i { s with
      agenda := r
      ev := e })

/-- No read of memory depends on more than the canonical list: every step keeps the list of memory canonical, whatever the
instruction or event. -/
def Obligations.MemoryStaysCanonical : Prop :=
  ∀ s s' : State, Memory.wf s.mem = true → step s = .next s' → Memory.wf s'.mem = true

/-- Reset memory is canonical, and lists nothing. -/
def Obligations.MemoryCanonicalAtReset : Prop :=
  Memory.wf State.reset.mem = true ∧ ∀ a, State.reset.memByte a = 0

/-! ## Issue -/

/-- R13, R14, R29, R34, R36, R40, R238: a team with nothing unperformed, in a clause whose port it holds or finds free, at the
level the instruction needs, whose scalar guard holds, that meets no PC match, reads no released register, has no absent entry
and finds the granules it needs, issues as it stands, and holds the port. An instruction of any kind whose scalar guard is
false has no effect but its account: the team moves on, its registers but for landed results as they were. -/
def Obligations.IssueOrGuardedOff : Prop :=
  (∀ (s : State) (t : Team) (c : Clause) (i : Instr) (e : Enc) (n : RunOf),
    let u : Team := { t with port := true }
    s.cur = some t → i.enc = some e → t.r.cl = some c → s.runnable t = true →
    (t.port = true ∨ s.portBusy t (vectorPort c.hdr) = false) → t.pend = [] → t.wc = [] → guardUni e.g t.r = true →
    s.pcMatch u = none → levelOf i ≤ t.level → t.r.v.all (fun x => x.2 != .absent) = true →
    s.granulesShort u (u.newGranules e [] (writeKeys u e (encAccess e (n s u)))) = false →
    (s.pr t.part 0x110).getLsbD 0 = false → Issues i n s s u e) ∧
  (∀ (w : W64) (i : Instr) (e : Enc) (s s1 : State) (t0 t : Team), decodeWord w = .ok i → i.enc = some e → s.cur = some t0 →
    s.gate t0 i e noRun = .off s1 t → FallsOn s1 t →
    exec i s = .next ((((s1.setTeam t).account t e false).traceNotTaken t e.opc).advance t))

/-- R40: an instruction whose opcode needs a higher level than the team's raises fault 0x06 at issue, with what earlier
instructions of the clause have written; so do `srd` of the supervisor register sr.clock and `sysrd` and `syswr` of a register
above the level. -/
def Obligations.PrivilegeChecked : Prop :=
  (∀ (i : Instr) (e : Enc) (s : State) (t0 : Team) (c : Clause), s.cur = some t0 → i.enc = some e → t0.r.cl = some c →
    s.runnable t0 = true → (t0.port = true ∨ s.portBusy t0 (vectorPort c.hdr) = false) →
    t0.mustWait t0.icount c.serial (guardAccess e.g).reads = false →
    let t := t0.arrived c
    guardUni e.g t.r = true → t.mustWait t.icount c.serial (encAccess e none).reads = false → s.pcMatch t = none →
    t.level < levelOf i → exec i s = .next (s.raise t (t.faultAt 0x06 0 noLane))) ∧
  (∀ (i : Instr) (e : Enc), i.enc = some e → e.opc ≠ 0x37 → e.opc ≠ 0xE2 → e.opc ≠ 0xE3 →
    levelOf i = if e.opc = 0xE1 ∨ e.opc = 0xE4 ∨ e.opc = 0xE7 then 1 else if 0xE8 ≤ e.opc ∧ e.opc ≤ 0xEB then 2 else 0) ∧
  (∀ (r : SReg) (n : BitVec 16) (g : Guard) (d : Dest) (a : Opnd) (k : SysInfo), sysInfo n.toNat = some k →
    levelOf (.srd r g d) = (if r = .clock then 1 else 0) ∧ levelOf (.sysrd n g d) = k.rd.getD 0 ∧
      levelOf (.syswr ⟨n, .team g a⟩) = k.wr.getD 0)

/-- R11, R35: the last read of a vector register releases it for every mask word once the operands have been read, and no other
vector register, and no scalar register, the mask, the stack or the flags, changes when the effect starts. Past an instruction
that is not its clause's last the team stands at the next word: the PC is 8 more, one more instruction has issued, and
registers, mask and stack stand. -/
def Obligations.IssueBeginsAndEnds : Prop :=
  (∀ (s : State) (t u : Team), t.isLast = false → s.team? t.id = some u → u.id = t.id →
    ∃ v, (s.advance t).team? t.id = some v ∧ v.r.pc = t.r.pc + 8#64 ∧ v.icount = u.icount + 1 ∧ v.wd = 0 ∧
      v.r.s = u.r.s ∧ v.r.v = u.r.v ∧ v.r.mask = u.r.mask ∧ v.r.stack = u.r.stack ∧ v.r.fflags = u.r.fflags ∧
      v.r.fctl = u.r.fctl ∧ v.r.cl = u.r.cl ∧ v.pend = u.pend ∧ v.wc = u.wc ∧ v.scr = u.scr ∧ v.mtx = u.mtx) ∧
  (∀ (n : RunOf) (s1 : State) (t : Team) (e : Enc),
    ∃ u, (started n s1 t e).team? t.id = some u ∧
      (∀ k w, k ∈ (encAccess e (n s1 t)).lr → u.r.entry k w = .none ∨ 32 ≤ w) ∧
      (∀ k w, k ∉ (encAccess e (n s1 t)).lr → w < 32 → u.r.entry k w = t.r.entry k w) ∧
      u.r.s = t.r.s ∧ u.r.mask = t.r.mask ∧ u.r.stack = t.r.stack ∧ u.r.fflags = t.r.fflags ∧ u.r.pc = t.r.pc ∧
      (∀ a, (started n s1 t e).memByte a = s1.memByte a))

/-! ## Scalar instructions (R83-R95, R100, R107, R108) -/

/-- R85, R88, R91, R92: `sadd`, `ssub`, `smul`, `smulh`, `smad`, the minimum and maximum and the immediate forms compute on the
low bits that their type names and extend the result; the immediate is sign-extended (R24); `scmp` writes one bit of its
destination and keeps the others; `ssel` picks by C. -/
def Obligations.ScalarArithmetic : Prop :=
  ∀ (ty : IW) (x : RArgs) (y : IArgs) (k : Cmp) (ct : ScmpTy) (b : Fin 64),
    Completes (.sadd ty x) noRun always (fun s t => putScalar s t x.d (narrow ty (uni s t x.a + uni s t x.b))) ∧
    Completes (.ssub ty x) noRun always (fun s t => putScalar s t x.d (narrow ty (uni s t x.a - uni s t x.b))) ∧
    Completes (.smul ty x) noRun always (fun s t => putScalar s t x.d (narrow ty (uni s t x.a * uni s t x.b))) ∧
    Completes (.smulh ty x) noRun always (fun s t => putScalar s t x.d (narrow ty
      (BitVec.ofInt 64 (value ty (uni s t x.a) * value ty (uni s t x.b) / 2 ^ iwBits ty)))) ∧
    Completes (.smad ty x) noRun always (fun s t =>
      putScalar s t x.d (narrow ty (uni s t x.a * uni s t x.b + uni s t x.c))) ∧
    Completes (.saddImm ty y) noRun always (fun s t =>
      putScalar s t y.d (narrow ty (uni s t y.a + y.imm.signExtend 64))) ∧
    Completes (.smulImm ty y) noRun always (fun s t =>
      putScalar s t y.d (narrow ty (uni s t y.a * y.imm.signExtend 64))) ∧
    Completes (.smin ty x) noRun always (fun s t => putScalar s t x.d
      (narrow ty (if value ty (uni s t x.a) ≤ value ty (uni s t x.b) then uni s t x.a else uni s t x.b))) ∧
    Completes (.smax ty x) noRun always (fun s t => putScalar s t x.d
      (narrow ty (if value ty (uni s t x.a) ≤ value ty (uni s t x.b) then uni s t x.b else uni s t x.a))) ∧
    Completes (.sminImm ty y) noRun always (fun s t => putScalar s t y.d
      (narrow ty (if value ty (uni s t y.a) ≤ value ty (y.imm.signExtend 64) then uni s t y.a else y.imm.signExtend 64))) ∧
    Completes (.smaxImm ty y) noRun always (fun s t => putScalar s t y.d
      (narrow ty (if value ty (uni s t y.a) ≤ value ty (y.imm.signExtend 64) then y.imm.signExtend 64 else uni s t y.a))) ∧
    Completes (.scmp k ct b x) noRun always (fun s t => putScalar s t x.d
      (let old := t.r.sget (destIndex x.d)
       let bit := 1#64 <<< b.val
       if cmpHolds k (value (scmpIW ct) (uni s t x.a)) (value (scmpIW ct) (uni s t x.b)) then (old &&& ~~~bit) ||| bit
       else old &&& ~~~bit)) ∧
    Completes (.ssel x) noRun always (fun s t =>
      putScalar s t x.d (if uni s t x.c = 0 then uni s t x.b else uni s t x.a))

/-- R88, R89: moves and logic on the low bits of the width, the others zero; a shift by the width or more gives 0, or the sign;
a rotate takes its count modulo the width. -/
def Obligations.ScalarLogicAndShifts : Prop :=
  ∀ (ty : BW) (x : RArgs) (y : IArgs),
    Completes (.smov ty x) noRun always (fun s t => putScalar s t x.d (cut ty (uni s t x.a))) ∧
    Completes (.sand ty x) noRun always (fun s t => putScalar s t x.d (cut ty (uni s t x.a &&& uni s t x.b))) ∧
    Completes (.sor ty x) noRun always (fun s t => putScalar s t x.d (cut ty (uni s t x.a ||| uni s t x.b))) ∧
    Completes (.sxor ty x) noRun always (fun s t => putScalar s t x.d (cut ty (uni s t x.a ^^^ uni s t x.b))) ∧
    Completes (.snot ty x) noRun always (fun s t => putScalar s t x.d (cut ty (~~~uni s t x.a))) ∧
    Completes (.sandImm ty y) noRun always (fun s t => putScalar s t y.d (cut ty (uni s t y.a &&& y.imm.signExtend 64))) ∧
    Completes (.sorImm ty y) noRun always (fun s t => putScalar s t y.d (cut ty (uni s t y.a ||| y.imm.signExtend 64))) ∧
    Completes (.sxorImm ty y) noRun always (fun s t => putScalar s t y.d (cut ty (uni s t y.a ^^^ y.imm.signExtend 64))) ∧
    Completes (.sshl ty x) noRun always (fun s t => putScalar s t x.d
      (if (uni s t x.b).toNat < bwBits ty then cut ty (uni s t x.a <<< (uni s t x.b).toNat) else 0)) ∧
    Completes (.sshr ty x) noRun always (fun s t => putScalar s t x.d
      (if (uni s t x.b).toNat < bwBits ty then cut ty (uni s t x.a) >>> (uni s t x.b).toNat else 0)) ∧
    Completes (.ssar ty x) noRun always (fun s t => putScalar s t x.d
      (cut ty ((cutSigned ty (uni s t x.a)).sshiftRight (min (uni s t x.b).toNat (bwBits ty))))) ∧
    Completes (.srot ty x) noRun always (fun s t => putScalar s t x.d
      (rotated ty (uni s t x.a) (uni s t x.b).toNat)) ∧
    Completes (.sshlImm ty y) noRun always (fun s t => putScalar s t y.d
      (if y.imm.toNat < bwBits ty then cut ty (uni s t y.a <<< y.imm.toNat) else 0)) ∧
    Completes (.sshrImm ty y) noRun always (fun s t => putScalar s t y.d
      (if y.imm.toNat < bwBits ty then cut ty (uni s t y.a) >>> y.imm.toNat else 0)) ∧
    Completes (.ssarImm ty y) noRun always (fun s t => putScalar s t y.d
      (cut ty ((cutSigned ty (uni s t y.a)).sshiftRight (min y.imm.toNat (bwBits ty))))) ∧
    Completes (.srotImm ty y) noRun always (fun s t => putScalar s t y.d (rotated ty (uni s t y.a) y.imm.toNat)) ∧
    ((Instr.sshl ty x).enc.map (·.opc), (Instr.sshr ty x).enc.map (·.opc), (Instr.ssar ty x).enc.map (·.opc),
      (Instr.srot ty x).enc.map (·.opc)) = (some 0x0B, some 0x0C, some 0x0D, some 0x0E)

/-- R90, R93, R95, R118: counts of set and of leading zero bits, bit fields, and the literal loads; what a bit field is, bit by
bit, in words of 64 bits and of 32: a field past the top is cut there, and an empty one gives 0, or leaves the destination. -/
def Obligations.ScalarBits : Prop :=
  (∀ (ty : BW) (sx : SX) (h : Fin 4) (keep : Bool) (x : RArgs) (y : IArgs),
    Completes (.spopc ty x) noRun always (fun s t =>
      putScalar s t x.d (BitVec.ofNat 64 (setBits ty (uni s t x.a)).length)) ∧
    Completes (.sclz ty x) noRun always (fun s t => putScalar s t x.d
      (BitVec.ofNat 64 (bwBits ty - (((setBits ty (uni s t x.a)).getLast?.map (· + 1)).getD 0)))) ∧
    Completes (.sbfe sx x) noRun always (fun s t => putScalar s t x.d
      (bfe 64 sx (uni s t x.a) ((uni s t x.b).toNat % 256) ((uni s t x.c).toNat % 256))) ∧
    Completes (.sbfi x) noRun always (fun s t => putScalar s t x.d (bfi 64 (t.r.sget (destIndex x.d)) (uni s t x.a)
      ((uni s t x.b).toNat % 256) ((uni s t x.c).toNat % 256))) ∧
    Completes (.sbfeImm sx y) noRun always (fun s t => putScalar s t y.d
      (bfe 64 sx (uni s t y.a) (y.imm.toNat % 256) (y.imm.toNat / 256))) ∧
    Completes (.sbfiImm y) noRun always (fun s t => putScalar s t y.d
      (bfi 64 (t.r.sget (destIndex y.d)) (uni s t y.a) (y.imm.toNat % 256) (y.imm.toNat / 256))) ∧
    Completes (.slit h keep y) noRun always (fun s t => putScalar s t y.d
      (((if keep then t.r.sget (destIndex y.d) else 0) &&& ~~~(0xFFFF#64 <<< (16 * h.val))) |||
        (y.imm.setWidth 64 <<< (16 * h.val))))) ∧
  (∀ (w : Nat) (a d : W64) (p n k : Nat), w = 32 ∨ w = 64 → k < 64 →
    let m := if p < w then min n (w - p) else 0
    (bfe w .n a p n).getLsbD k = (decide (k < m) && a.getLsbD (p + k)) ∧
    (bfe w .i a p n).getLsbD k = (decide (0 < m) && decide (k < w) && a.getLsbD (p + min k (m - 1))) ∧
    (bfi w d a p n).getLsbD k = (if p ≤ k ∧ k < p + m then a.getLsbD (k - p) else d.getLsbD k))

/-- R100, R107, R108, R94, R372: `nop` does nothing; `yield` sets YLD of its clause; `srd` reads the special registers, those of a
lane into vector registers, the mask into sixteen scalar registers; a read of sr.gtime raises GTLAST to the value returned;
`scvt` converts in the mode DRM. -/
def Obligations.ScalarOthers : Prop :=
  ∀ (g : Guard) (r : SReg) (d : Dest) (c : CV) (x : RArgs),
    Completes (.nop g) noRun always (fun s _ => s) ∧
    Completes (.yield g) noRun always (fun s t => s.modTeam t.id fun u => { u with r := { u.r with
      cl := u.r.cl.map fun c => { c with hdr := c.hdr ||| 1#64 <<< 42 } } }) ∧
    Completes (.srd .lane g d) noRun always (fun s t => putLanes s t g false d fun l => BitVec.ofNat 64 l) ∧
    Completes (.srd .fflags g d) noRun always (fun s t => putLanes s t g false d fun l => (t.r.fflag l).setWidth 64) ∧
    Completes (.srd .mask g d) noRun always (fun s t => s.modTeam t.id fun u => u.apply
      ((List.range 16).map fun j => .s (destIndex d + j) (t.r.mask.extractLsb' (64 * j) 64))) ∧
    Completes (.srd .gtime g d) noRun always (fun s t =>
      putScalar (s.setPr t.part 0x2016 (if s.pr t.part 0x2016 < s.gtime t.part then s.gtime t.part else s.pr t.part 0x2016)) t d
        (s.mr 0x33 + s.pr t.part 0x2015)) ∧
    (r ≠ .lane → r ≠ .fflags → r ≠ .mask → r ≠ .gtime →
      Completes (.srd r g d) noRun always (fun s t => putScalar s t d (srValue s t r))) ∧
    Completes (.scvt c x) noRun always (fun s t => putScalar s t x.d
      (convert false (laneMode .fctl 0 t.r.fctl) (cvFmts c).1 (cvFmts c).2 (uni s t x.a).toNat).1)

/-! ## Vector instructions (R109-R134) -/

/-- R115, R119, R120: lane arithmetic under the type, minimum, maximum and selection; a 64-bit type takes two registers (R28),
and lanes that do not participate keep theirs (R109); `vcmp` writes one bit of each participating lane. -/
def Obligations.VectorArithmetic : Prop :=
  ∀ (ty : IW) (st : IS) (k : Cmp) (b : Fin 32) (x : RArgs) (y : IArgs),
    let A (s : State) (t : Team) (o : Opnd) (l : Nat) : W64 := opnd s t (.int (iwWide ty)) o l
    let B (s : State) (t : Team) (o : Opnd) (l : Nat) : W64 := opnd s t (.int (isWide st)) o l
    Completes (.vadd ty x) noRun always (fun s t => putLanes s t x.g (iwWide ty) x.d fun l =>
      narrow ty (A s t x.a l + A s t x.b l)) ∧
    Completes (.vsub ty x) noRun always (fun s t => putLanes s t x.g (iwWide ty) x.d fun l =>
      narrow ty (A s t x.a l - A s t x.b l)) ∧
    Completes (.vmul ty x) noRun always (fun s t => putLanes s t x.g (iwWide ty) x.d fun l =>
      narrow ty (A s t x.a l * A s t x.b l)) ∧
    Completes (.vmulh ty x) noRun always (fun s t => putLanes s t x.g (iwWide ty) x.d fun l =>
      narrow ty (BitVec.ofInt 64 (value ty (A s t x.a l) * value ty (A s t x.b l) / 2 ^ iwBits ty))) ∧
    Completes (.vmad ty x) noRun always (fun s t => putLanes s t x.g (iwWide ty) x.d fun l =>
      narrow ty (A s t x.a l * A s t x.b l + A s t x.c l)) ∧
    Completes (.vabs st x) noRun always (fun s t => putLanes s t x.g (isWide st) x.d fun l =>
      narrow (isToIW st) (if value (isToIW st) (B s t x.a l) < 0 then -(B s t x.a l) else B s t x.a l)) ∧
    Completes (.vneg st x) noRun always (fun s t => putLanes s t x.g (isWide st) x.d fun l =>
      narrow (isToIW st) (-(B s t x.a l))) ∧
    Completes (.vaddImm ty y) noRun always (fun s t => putLanes s t y.g (iwWide ty) y.d fun l =>
      narrow ty (A s t y.a l + y.imm.signExtend 64)) ∧
    Completes (.vmulImm ty y) noRun always (fun s t => putLanes s t y.g (iwWide ty) y.d fun l =>
      narrow ty (A s t y.a l * y.imm.signExtend 64)) ∧
    Completes (.vmin ty x) noRun always (fun s t => putLanes s t x.g (iwWide ty) x.d fun l =>
      narrow ty (if value ty (A s t x.a l) ≤ value ty (A s t x.b l) then A s t x.a l else A s t x.b l)) ∧
    Completes (.vmax ty x) noRun always (fun s t => putLanes s t x.g (iwWide ty) x.d fun l =>
      narrow ty (if value ty (A s t x.a l) ≤ value ty (A s t x.b l) then A s t x.b l else A s t x.a l)) ∧
    Completes (.vminImm ty y) noRun always (fun s t => putLanes s t y.g (iwWide ty) y.d fun l =>
      narrow ty (if value ty (A s t y.a l) ≤ value ty (y.imm.signExtend 64) then A s t y.a l else y.imm.signExtend 64)) ∧
    Completes (.vmaxImm ty y) noRun always (fun s t => putLanes s t y.g (iwWide ty) y.d fun l =>
      narrow ty (if value ty (A s t y.a l) ≤ value ty (y.imm.signExtend 64) then y.imm.signExtend 64 else A s t y.a l)) ∧
    Completes (.vsel x) noRun always (fun s t => putLanes s t x.g false x.d fun l =>
      if lane32 s t x.c l = 0 then opnd s t (.int false) x.b l else opnd s t (.int false) x.a l) ∧
    ((Instr.vsel x).enc.map fun e => (e.opc, e.md)) = some (0x54, 0) ∧
    Completes (.vcmp k ty b x) noRun always (fun s t => putLanes s t x.g false x.d fun l =>
      let old : W64 := (t.r.lane (destIndex x.d) l).setWidth 64
      let bit := 1#64 <<< b.val
      if cmpHolds k (value ty (A s t x.a l)) (value ty (A s t x.b l)) then (old &&& ~~~bit) ||| bit else old &&& ~~~bit)

/-- R115-R118: lane logic and shifts; a shift count is the low 32 bits of B; lane counts and bit fields. -/
def Obligations.VectorLogicShiftsAndBits : Prop :=
  (∀ (ty : BW) (x : RArgs) (y : IArgs),
    let A (s : State) (t : Team) (o : Opnd) (l : Nat) : W64 := opnd s t (.int (bwWide ty)) o l
    let N (s : State) (t : Team) (l : Nat) : Nat := (A s t x.b l).toNat % 2 ^ 32
    Completes (.vand ty x) noRun always (fun s t => putLanes s t x.g (bwWide ty) x.d fun l =>
      cut ty (A s t x.a l &&& A s t x.b l)) ∧
    Completes (.vor ty x) noRun always (fun s t => putLanes s t x.g (bwWide ty) x.d fun l =>
      cut ty (A s t x.a l ||| A s t x.b l)) ∧
    Completes (.vxor ty x) noRun always (fun s t => putLanes s t x.g (bwWide ty) x.d fun l =>
      cut ty (A s t x.a l ^^^ A s t x.b l)) ∧
    Completes (.vnot ty x) noRun always (fun s t => putLanes s t x.g (bwWide ty) x.d fun l => cut ty (~~~A s t x.a l)) ∧
    Completes (.vshl ty x) noRun always (fun s t => putLanes s t x.g (bwWide ty) x.d fun l =>
      if N s t l < bwBits ty then cut ty (A s t x.a l <<< N s t l) else 0) ∧
    Completes (.vshr ty x) noRun always (fun s t => putLanes s t x.g (bwWide ty) x.d fun l =>
      if N s t l < bwBits ty then cut ty (A s t x.a l) >>> N s t l else 0) ∧
    Completes (.vsar ty x) noRun always (fun s t => putLanes s t x.g (bwWide ty) x.d fun l =>
      cut ty ((cutSigned ty (A s t x.a l)).sshiftRight (min (N s t l) (bwBits ty)))) ∧
    Completes (.vandImm ty y) noRun always (fun s t => putLanes s t y.g (bwWide ty) y.d fun l =>
      cut ty (A s t y.a l &&& y.imm.signExtend 64)) ∧
    Completes (.vorImm ty y) noRun always (fun s t => putLanes s t y.g (bwWide ty) y.d fun l =>
      cut ty (A s t y.a l ||| y.imm.signExtend 64)) ∧
    Completes (.vxorImm ty y) noRun always (fun s t => putLanes s t y.g (bwWide ty) y.d fun l =>
      cut ty (A s t y.a l ^^^ y.imm.signExtend 64)) ∧
    Completes (.vshlImm ty y) noRun always (fun s t => putLanes s t y.g (bwWide ty) y.d fun l =>
      if y.imm.toNat < bwBits ty then cut ty (A s t y.a l <<< y.imm.toNat) else 0) ∧
    Completes (.vshrImm ty y) noRun always (fun s t => putLanes s t y.g (bwWide ty) y.d fun l =>
      if y.imm.toNat < bwBits ty then cut ty (A s t y.a l) >>> y.imm.toNat else 0) ∧
    Completes (.vsarImm ty y) noRun always (fun s t => putLanes s t y.g (bwWide ty) y.d fun l =>
      cut ty ((cutSigned ty (A s t y.a l)).sshiftRight (min y.imm.toNat (bwBits ty))))) ∧
  (∀ (ty : BW) (sx : SX) (x : RArgs),
    let A (s : State) (t : Team) (l : Nat) : W64 := opnd s t (.int (bwWide ty)) x.a l
    let B (s : State) (t : Team) (o : Opnd) (l : Nat) : W64 := opnd s t (.int false) o l
    Completes (.vpopc ty x) noRun always (fun s t => putLanes s t x.g false x.d fun l =>
      BitVec.ofNat 64 (setBits ty (A s t l)).length) ∧
    Completes (.vclz ty x) noRun always (fun s t => putLanes s t x.g false x.d fun l =>
      BitVec.ofNat 64 (bwBits ty - (((setBits ty (A s t l)).getLast?.map (· + 1)).getD 0))) ∧
    Completes (.vbfe sx x) noRun always (fun s t => putLanes s t x.g false x.d fun l =>
      bfe 32 sx (B s t x.a l) ((B s t x.b l).toNat % 256) ((B s t x.c l).toNat % 256)) ∧
    Completes (.vbfi x) noRun always (fun s t => putLanes s t x.g false x.d fun l =>
      bfi 32 ((t.r.lane (destIndex x.d) l).setWidth 64) (B s t x.a l) ((B s t x.b l).toNat % 256)
        ((B s t x.c l).toNat % 256)))

/-- R121-R123, R66: .f32 arithmetic in each lane, once rounded in the lane's mode, its flags raised in the lane. -/
def Obligations.FloatArithmetic : Prop :=
  ∀ (rm : RM) (nan : Bool) (k : Cmp) (ft : FcmpTy) (b : Fin 32) (x : RArgs),
    let F (s : State) (t : Team) (o : Opnd) (l : Nat) : Nat := fopnd s t .f32 o l
    let res (s : State) (t : Team) (f : Nat → Nat × W32) : State :=
      raiseLanes (putLanes s t x.g false x.d fun l => BitVec.ofNat 64 (f l).1) t (t.active x.g) fun l => (f l).2
    Completes (.fadd rm x) noRun always (fun s t => res s t fun l => ff32.add (modeAt t rm l) (F s t x.a l) (F s t x.b l)) ∧
    Completes (.fmul rm x) noRun always (fun s t => res s t fun l => ff32.mul (modeAt t rm l) (F s t x.a l) (F s t x.b l)) ∧
    Completes (.ffma rm x) noRun always (fun s t => res s t fun l =>
      ff32.fma (modeAt t rm l) (F s t x.a l) (F s t x.b l) (F s t x.c l)) ∧
    Completes (.fmin nan x) noRun always (fun s t => res s t fun l => ff32.minmax false nan (F s t x.a l) (F s t x.b l)) ∧
    Completes (.fmax nan x) noRun always (fun s t => res s t fun l => ff32.minmax true nan (F s t x.a l) (F s t x.b l)) ∧
    Completes (.fcmp k ft b x) noRun always (fun s t =>
      let c (l : Nat) := (fcmpFF ft).compare k (fopnd s t (fcmpFmt ft) x.a l) (fopnd s t (fcmpFmt ft) x.b l)
      raiseLanes (putLanes s t x.g false x.d fun l => putBit ((t.r.lane (destIndex x.d) l).setWidth 64) b.val (c l).1)
        t (t.active x.g) fun l => (c l).2)

/-- R124-R126: the approximations, classes and conversions of each lane; without lookahead the result stands at once. -/
def Obligations.FloatFunctions : Prop :=
  ∀ (rm : RM) (f dst src : Fmt) (x : RArgs), x.la = 0 →
    let F (s : State) (t : Team) (l : Nat) : Nat := fopnd s t .f32 x.a l
    let res (s : State) (t : Team) (h : Nat → Nat × W32) : State :=
      putLanes (raiseLanes s t (t.active x.g) fun l => (h l).2) t x.g false x.d fun l => BitVec.ofNat 64 (h l).1
    let conv (no : Bool) (s : State) (t : Team) : State :=
      let h (l : Nat) := convert no (modeAt t rm l) dst src (opnd s t (srcTy src) x.a l).toNat
      raiseLanes (putLanes s t x.g (dst.regs == 2) x.d fun l => (h l).1) t (t.active x.g) fun l => (h l).2
    Completes (.frcp x) noRun always (fun s t => res s t fun l => frcpOp (F s t l)) ∧
    Completes (.frsq x) noRun always (fun s t => res s t fun l => frsqOp (F s t l)) ∧
    Completes (.fsqrt rm x) noRun always (fun s t => res s t fun l => fsqrtOp (modeAt t rm l) (F s t l)) ∧
    Completes (.fex2 x) noRun always (fun s t => res s t fun l => fex2Op (F s t l)) ∧
    Completes (.flg2 x) noRun always (fun s t => res s t fun l => flg2Op (F s t l)) ∧
    Completes (.fsin x) noRun always (fun s t => res s t fun l => fsinOp (F s t l)) ∧
    Completes (.fcos x) noRun always (fun s t => res s t fun l => fcosOp (F s t l)) ∧
    Completes (.fclass f x) noRun always (fun s t => putLanes s t x.g false x.d fun l =>
      (classMask f (fopnd s t f x.a l)).setWidth 64) ∧
    Completes (.cvt rm dst src x) noRun always (conv false) ∧
    Completes (.cvtNosat rm dst src x) noRun always (conv true)

/-- R127: the two 16-bit elements of a lane are computed apart; the lane raises the flags of both. -/
def Obligations.PackedArithmetic : Prop :=
  ∀ (rm : RM) (x : RArgs),
    let P (fm : Fmt) (s : State) (t : Team) (o : Opnd) (l e : Nat) : Nat := half (popnd s t fm o l) e
    let res (s : State) (t : Team) (f : Nat → Nat → Nat × W32) : State :=
      raiseLanes (putLanes s t x.g false x.d fun l =>
        BitVec.ofNat 64 ((f l 0).1 % 2 ^ 16 + (f l 1).1 % 2 ^ 16 * 2 ^ 16)) t (t.active x.g) fun l => (f l 0).2 ||| (f l 1).2
    Completes (.hadd2F16 rm x) noRun always (fun s t => res s t fun l e =>
      ff16.add (modeAt t rm l) (P .f16 s t x.a l e) (P .f16 s t x.b l e)) ∧
    Completes (.hmul2F16 rm x) noRun always (fun s t => res s t fun l e =>
      ff16.mul (modeAt t rm l) (P .f16 s t x.a l e) (P .f16 s t x.b l e)) ∧
    Completes (.hfma2F16 rm x) noRun always (fun s t => res s t fun l e =>
      ff16.fma (modeAt t rm l) (P .f16 s t x.a l e) (P .f16 s t x.b l e) (P .f16 s t x.c l e)) ∧
    Completes (.hadd2Bf16 rm x) noRun always (fun s t => res s t fun l e =>
      fbf16.add (modeAt t rm l) (P .bf16 s t x.a l e) (P .bf16 s t x.b l e)) ∧
    Completes (.hmul2Bf16 rm x) noRun always (fun s t => res s t fun l e =>
      fbf16.mul (modeAt t rm l) (P .bf16 s t x.a l e) (P .bf16 s t x.b l e)) ∧
    Completes (.hfma2Bf16 rm x) noRun always (fun s t => res s t fun l e =>
      fbf16.fma (modeAt t rm l) (P .bf16 s t x.a l e) (P .bf16 s t x.b l e) (P .bf16 s t x.c l e))

/-- R129-R134: exchange, broadcast, ballots and votes over the live lanes, reductions over a tree, scans. -/
def Obligations.TeamWideInstructions : Prop :=
  ∀ (sh : SH) (vt : VT) (to_ : TO) (b : Fin 32) (db : Fin 64) (x : RArgs),
    let set (s : State) (t : Team) : List Nat := t.liveLanes.filter fun l => (lane32 s t x.a l).getLsbD b.val
    Completes (.shfl sh x) noRun always (fun s t => putLanes s t x.g false x.d fun l =>
      let n := (lane32 s t x.b l).toNat
      let from_ : Int := match sh with
        | .idx => n
        | .xor => (l ^^^ n : Nat)
        | .up => (l : Int) - n
        | .down => l + n
      opnd s t (.int false) x.a (if 0 ≤ from_ ∧ from_ < t.w then from_.toNat else l)) ∧
    Completes (.bcast x) noRun always (fun s t =>
      let n := (uni s t x.b).toNat
      let v : W64 := if n < t.w then opnd s t (.int false) x.a n else 0
      if x.d.isS then putScalar s t x.d v else putLanes s t x.g false x.d fun _ => v) ∧
    Completes (.ballot b x) noRun always (fun s t => s.modTeam t.id fun u => u.apply
      ((List.range 16).map fun j => .s (destIndex x.d + j) ((maskOf (set s t)).extractLsb' (64 * j) 64))) ∧
    Completes (.vote vt db b x) noRun always (fun s t => putScalar s t x.d
      (putBit (t.r.sget (destIndex x.d)) db.val (match vt with
        | .all => (set s t).length == t.liveLanes.length
        | .any => (set s t).length != 0
        | .uni => (set s t).length == 0 || (set s t).length == t.liveLanes.length))) ∧
    Completes (.tred to_ x) noRun always (fun s t =>
      let who := if x.d.isS then t.liveLanes else t.active x.g
      let v := tree to_ (log2up t.w) (contributions to_ x s t who)
      let s := raiseLanes s t who fun _ => v.2
      if x.d.isS then putScalar s t x.d (BitVec.ofNat 64 v.1)
      else putLanes s t x.g false x.d fun _ => BitVec.ofNat 64 v.1) ∧
    Completes (.tscan to_ x) noRun always (fun s t =>
      let v := scan to_ (log2up t.w) 1 (contributions to_ x s t (t.active x.g))
      putLanes (raiseLanes s t (t.active x.g) fun _ => v.2) t x.g false x.d fun l => BitVec.ofNat 64 (v.1.getD l 0))

/-! ## Control (R96-R104) -/

/-- R27, R96, R98, R391: `br` and `call` go to H + 8 × DISP, `brx`, `callx` and `ret` to the address in A; `call` and `callx`
leave the address of the next clause in D. -/
def Obligations.ControlTransfers : Prop :=
  ∀ (g : Guard) (d : Dest) (disp : BitVec 32) (x : RArgs),
    let linked (s : State) (t : Team) (d : Dest) : State :=
      s.modTeam t.id fun u => { u with r := u.r.sset (destIndex d) t.nextClause }
    let away (_ : State) (t : Team) : W64 := t.header + 8#64 * disp.signExtend 64
    Transfers (.br g disp) always away (fun s t => s.traceTaken t g) ∧
    Transfers (.call g d disp) always away (fun s t => linked (s.traceTaken t g) t d) ∧
    Transfers (.brx x) always (fun s t => uni s t x.a) (fun s t => s.traceInd t (uni s t x.a)) ∧
    Transfers (.ret x) always (fun s t => uni s t x.a) (fun s t => s.traceInd t (uni s t x.a)) ∧
    Transfers (.callx x) always (fun s t => uni s t x.a) (fun s t => linked (s.traceInd t (uni s t x.a)) t x.d)

/-- R99, R104: `exit` takes the running lanes away, from the entries in the spill area too, and pops the entries of which no lane
is left, filling the slot from the spill area where they leave it empty: with no entry left the team retires; otherwise the
lanes that wait at the other side of the top entry go on there, or, where none waits, those at its join. The model's own
(logs 102, 128): a fill that meets poison is the fault of the `exit`, with s61 = 0 and no lane. -/
def Obligations.ExitOutcomes : Prop :=
  ∀ (g : Guard) (e : REntry) (rest : List REntry) (v : Team) (b : Nat),
    let without (t : Team) (e : REntry) : REntry :=
      { e with
        rmask := e.rmask &&& ~~~t.r.mask
        pmask := e.pmask &&& ~~~t.r.mask }
    let live (s : State) (t : Team) (m : LaneMask) (k : List REntry) : Team :=
      let u := (s.team? t.id).getD t
      { u with r := { u.r with
        mask := m
        stack := k } }
    let left (s : State) (t : Team) : Prop :=
      (t.r.blocks = 0 ∨ t.closed = true) ∧ Pops (s.clearSpilled t t.r.mask) (live s t t.r.mask (t.r.stack.map (without t))) v
    let goes (s : State) (t : Team) (m : LaneMask) (k : List REntry) (h : W64) : State :=
      ((((s.clearSpilled t t.r.mask).traceTaken t g).arrive { v with r := { v.r with
        mask := m
        stack := k } } h).modTeam t.id Team.retired).yieldAfter t
    Ends (.exit g) (fun _ t => t.r.stack = [] ∧ t.r.blocks = 0) (fun s t =>
      ((s.setTeam { live s t 0 [] with stat := .retiring }).modTeam t.id Team.retired).yieldAfter t) ∧
    Ends (.exit g)
      (fun _ t => (t.r.blocks = 0 ∨ t.closed = true) ∧ t.r.stack = e :: rest ∧ e.pmask &&& ~~~t.r.mask ≠ 0)
      (fun s t => ((((s.clearSpilled t t.r.mask).traceTaken t g).arrive (live s t (e.pmask &&& ~~~t.r.mask)
        ({ without t e with pmask := 0 } :: rest.map (without t))) e.ppc).modTeam t.id Team.retired).yieldAfter t) ∧
    Ends (.exit g)
      (fun _ t => (t.r.blocks = 0 ∨ t.closed = true) ∧ t.r.stack = e :: rest ∧ e.pmask &&& ~~~t.r.mask = 0 ∧
        e.rmask &&& ~~~t.r.mask ≠ 0)
      (fun s t => ((((s.clearSpilled t t.r.mask).traceTaken t g).arrive (live s t (e.rmask &&& ~~~t.r.mask)
        (rest.map (without t))) e.rc).modTeam t.id Team.retired).yieldAfter t) ∧
    Ends (.exit g) (fun s t => left s t ∧ v.r.stack = [] ∧ v.r.blocks = 0)
      (fun s t => (((s.clearSpilled t t.r.mask).setTeam { v with
        r := { v.r with mask := 0 }
        stat := .retiring }).modTeam t.id Team.retired).yieldAfter t) ∧
    Ends (.exit g) (fun s t => left s t ∧ v.r.stack = e :: rest ∧ e.pmask ≠ 0)
      (fun s t => goes s t e.pmask ({ e with pmask := 0 } :: rest) e.ppc) ∧
    Ends (.exit g) (fun s t => left s t ∧ v.r.stack = e :: rest ∧ e.pmask = 0 ∧ e.rmask ≠ 0)
      (fun s t => goes s t e.rmask rest e.rc) ∧
    Faults (.exit g) noRun
      (fun s t => left s t ∧ v.r.stack = [] ∧ v.r.blocks = b + 1 ∧
        ∃ k < 68, (s.clearSpilled t t.r.mask).poisoned (s.spillBase v b + 32 * k) = true)
      0x40 (fun _ _ => 0) (fun _ _ => noLane)

/-- R102: `brd` whose lanes all take it goes to TARGET, with none it goes on; where they part, the entry (mask, those that
stay, the next clause, JOIN) is pushed and those that take it go. -/
def Obligations.DivergingBranch : Prop :=
  ∀ (g : Guard) (target join : BitVec 16),
    let tgt (t : Team) : W64 := t.header + 8#64 * target.signExtend 64
    let j (t : Team) : W64 := t.header + 8#64 * join.signExtend 64
    let taken (t : Team) : LaneMask := maskOf (t.active g)
    let rest (t : Team) : LaneMask := t.r.mask &&& ~~~taken t
    let a (s : State) (t : Team) : State × Option Nat := s.checkTarget t (tgt t)
    let b (s : State) (t : Team) : State × Option Nat := (a s t).1.joinOk t (j t)
    let ok (s : State) (t : Team) : Prop := (a s t).2 = none ∧ (b s t).2 = none
    let f (s : State) (t : Team) : State := (b s t).1.tracePacket t t.r.pc ⟨2, 0, divFields t (taken t)⟩
    let n (s : State) (t : Team) : State × Option Nat := (f s t).checkTarget t t.nextClause
    let live (s : State) (t : Team) : Team := ((n s t).1.team? t.id).getD t
    let pushed (s : State) (t : Team) : State × Team := (n s t).1.push (live s t) ⟨t.r.mask, rest t, t.nextClause, j t⟩
    Transfers (.brd g target join) (fun s t => ok s t ∧ rest t = 0) (fun _ t => tgt t) f ∧
    Completes (.brd g target join) noRun (fun s t => ok s t ∧ rest t ≠ 0 ∧ taken t = 0) f ∧
    Transfers (.brd g target join)
      (fun s t => ok s t ∧ rest t ≠ 0 ∧ taken t ≠ 0 ∧ t.r.depth < 256 ∧ (t.r.spills = false ∨ t.closed = true) ∧ (n s t).2 = none ∧
        ((n s t).1.team? t.id).isSome = true)
      (fun _ t => tgt t)
      (fun s t => (pushed s t).1.setTeam { (pushed s t).2 with r := { (pushed s t).2.r with mask := taken t } })

/-- R105, R174: a `brd` that would push a 257th entry raises fault 0x07 and leaves mask, stack and PC as they were; `unlease`
ends the lease whose base equals A, and an A that names no lease of the partition is fault 0x14. That the end is performed as
`unlease` issues, and nothing of it is left to perform, is the model's choice (log 111). -/
def Obligations.StackOverflowAndUnlease : Prop :=
  ∀ (g : Guard) (target join : BitVec 16) (x : RArgs),
    let tgt (t : Team) : W64 := t.header + 8#64 * target.signExtend 64
    let j (t : Team) : W64 := t.header + 8#64 * join.signExtend 64
    let a (s : State) (t : Team) : State × Option Nat := s.checkTarget t (tgt t)
    let base (s : State) (t : Team) : W64 := BitVec.ofNat 64 (va56 (addrOf s t x.a 0))
    Faults (.brd g target join) noRun
      (fun s t => (a s t).2 = none ∧ ((a s t).1.joinOk t (j t)).2 = none ∧ t.r.mask &&& ~~~maskOf (t.active g) ≠ 0 ∧
        maskOf (t.active g) ≠ 0 ∧ 256 ≤ t.r.depth) 0x07 (fun _ _ => 0) (fun _ _ => noLane) ∧
    Completes (.unlease x) noRun (fun s t => ((s.part t.part).leases.any (·.base == base s t)) = true)
      (fun s t => s.modPart t.part fun p => { p with leases := p.leases.filter (·.base != base s t) }) ∧
    Faults (.unlease x) noRun (fun s t => ((s.part t.part).leases.any (·.base == base s t)) = false) 0x14 base
      (fun _ _ => noLane)

/-! ## Memory, scratch, versions (R135-R163) -/

/-- R25, R136-R139, R143, R146: each participating lane, or the team where the destination is scalar, accesses the bytes at A
plus its offset; the load or store is left to be performed, W0 or W1 raised. A store stands in the core's write buffer from
its issue (R285). -/
def Obligations.LoadsAndStores : Prop :=
  ∀ (ty : SZL) (tz : SZS) (sc : Scope) (x : MArgs),
    let lq (s : State) (t : Team) : List Req := memReqs s t (accessLanes t x.g (some x.d)) x.a (x.off.toNat * ty.bytes) ty.bytes 1
    let sq (s : State) (t : Team) : List Req := memReqs s t (t.active x.g) x.a (x.off.toNat * tz.bytes) tz.bytes 1
    let lOk (s : State) (t : Team) : Prop := Passes s t .load .plain nowhereBad true false (lq s t)
    let sOk (s : State) (t : Team) : Prop := Passes s t .store .plain nowhereBad false true (sq s t)
    let dst : Dst := ⟨x.d, ty.bytes, ty == .i8 || ty == .i16⟩
    let load (acq : Option Scope) (s : State) (t : Team) : State :=
      let q := passed s t .load .plain nowhereBad (lq s t)
      q.1.pendAdd t x.la (some 0) (.load dst q.2 acq []) true false dst.refs []
    let store (rel : Option Scope) (hidden : Nat) (s : State) (t : Team) : State :=
      let q := passed s t .store .plain nowhereBad (sq s t)
      let bytes := storeCells q.1 t x.b tz.bytes q.2
      let s := if bytes.isEmpty then q.1 else q.1.bufStore t t.nseq true (if t.relFence then 2 else hidden) 0 bytes
      s.pendAdd t x.la (some 1) (.store (q.2.map fun a => (a, dataBytes s t x.b tz.bytes a.lane)) rel (!bytes.isEmpty))
        false false [] []
    let scr (t : Team) (lanes : List Nat) (n : Nat) (s : State) : Except Fail (List Acc) :=
      scratchReqs t 1 (lanes.map fun l => (l, scratchOf s t x.a l + x.off.toNat * n, n))
    Completes (.ld ty x) noRun lOk (load none) ∧
    Completes (.ldAcq ty sc x) noRun lOk (load (some sc)) ∧
    Completes (.st tz x) noRun sOk (store none 0) ∧
    Completes (.stRel tz sc x) noRun sOk (store (some sc) (if 2 ≤ sc.code then 2 else 1)) ∧
    (∀ accs, Completes (.lds ty x) noRun (fun s t => scr t (accessLanes t x.g (some x.d)) ty.bytes s = .ok accs)
      (fun s t => s.pendAdd t x.la (some 0) (.lds dst accs) true false dst.refs [])) ∧
    (∀ accs, Completes (.sts tz x) noRun (fun s t => scr t (t.active x.g) tz.bytes s = .ok accs)
      (fun s t => s.pendAdd t x.la (some 1) (.sts (storeCells s t x.b tz.bytes accs)) false false [] []))

/-- R150-R156: an atomic's lanes access their word, aligned to its size; those in scratch the team's window; `rdo` sends each
lane's value with its index. W1 rises. -/
def Obligations.AtomicsAtIssue : Prop :=
  ∀ (op : AT) (sc : Scope) (o : Order) (ty : AtomTy) (x : RArgs) (accs : List Acc),
    let n : Nat := 4 * ty.regs
    let dst : Dst := ⟨x.d, n, ty == .i32⟩
    let reqs (d : Option Dest) (s : State) (t : Team) : List Req := memReqs s t (accessLanes t x.g d) x.a 0 n n
    let bad (cas : Bool) (s : State) (t : Team) : Nat → Bool := s.atomicBad t (hostOffers (if cas then .xchg else op) cas ty)
    let left (cas : Bool) (d : Option Dest) (s : State) (t : Team) : State :=
      let q := passed s t .store .plain (bad cas s t) (reqs d s t)
      q.1.pendAdd t x.la (some 1)
        (.atomic (if cas then .xchg else op) cas ty sc o (d.map fun _ => dst) (atomLanes q.1 t ty d x.b q.2)) true false
        (if d.isSome then dst.refs else []) []
    let scratch (s : State) (t : Team) : Prop :=
      scratchReqs t n ((accessLanes t x.g (some x.d)).map fun l => (l, scratchOf s t x.a l + 0, n)) = .ok accs
    let leftIn (op : AT) (cas : Bool) (s : State) (t : Team) : State :=
      s.pendAdd t x.la (some 1) (.atoms op cas ty dst (atomLanes s t ty (some x.d) x.b accs)) true false dst.refs []
    Completes (.atom op sc o ty x) noRun
      (fun s t => Passes s t .store .plain (bad false s t) true true (reqs (some x.d) s t)) (left false (some x.d)) ∧
    Completes (.atomCas sc o ty x) noRun
      (fun s t => Passes s t .store .plain (bad true s t) true true (reqs (some x.d) s t)) (left true (some x.d)) ∧
    Completes (.red op sc o ty x) noRun
      (fun s t => Passes s t .store .plain (bad false s t) false true (reqs none s t)) (left false none) ∧
    Completes (.atoms op sc o ty x) noRun scratch (leftIn op false) ∧
    Completes (.atomsCas sc o ty x) noRun scratch (leftIn .xchg true) ∧
    Completes (.rdo x) noRun (fun s t => Passes s t .store .plain (s.rdoBad t) false true (rdoReqs s t x)) (fun s t =>
      let q := passed s t .store .plain (s.rdoBad t) (rdoReqs s t x)
      q.1.pendAdd t x.la (some 1)
        (.rdo (q.2.map fun a => (a, lo32 (opnd q.1 t (.flt .f32) x.b a.lane), lane32 q.1 t x.c a.lane)) false)
        true false [] [])

/-- R139, R140, R153, R158: an atomic or a version access of a lane, the lowest that takes part, whose address is not a multiple
of its width raises fault 0x13 with that address in s61 and the lane in s62, wherever its operation is offered; on scratch so
does `atoms`. A format block must be aligned to 64 bytes. -/
def Obligations.MisalignedAccesses : Prop :=
  ∀ (op : AT) (sc : Scope) (o : Order) (ty : AtomTy) (tv : SZV) (ts : SZS) (acq : Bool) (x : RArgs) (y : XArgs) (l : Nat)
    (r : List Nat),
    let n : Nat := 4 * ty.regs
    let va (s : State) (t : Team) : Nat := addrOf s t x.a l
    let info (s : State) (t : Team) : W64 := BitVec.ofNat 64 (va56 (va s t))
    let lane (_ : State) (_ : Team) : W64 := laneWord l
    let bad (k : AT) (cas : Bool) (s : State) (t : Team) : Bool := s.targetBad t (s.atomicBad t (hostOffers k cas ty)) (va s t)
    Faults (.atom op sc o ty x) noRun (fun s t => accessLanes t x.g (some x.d) = l :: r ∧ bad op false s t = false ∧
      va s t % n ≠ 0) 0x13 info lane ∧
    Faults (.atomCas sc o ty x) noRun (fun s t => accessLanes t x.g (some x.d) = l :: r ∧ bad .xchg true s t = false ∧
      va s t % n ≠ 0) 0x13 info lane ∧
    Faults (.red op sc o ty x) noRun (fun s t => t.active x.g = l :: r ∧ bad op false s t = false ∧ va s t % n ≠ 0)
      0x13 info lane ∧
    Faults (.atoms op sc o ty x) noRun (fun s t => accessLanes t x.g (some x.d) = l :: r ∧ scratchOf s t x.a l % n ≠ 0)
      0x13 (fun s t => BitVec.ofNat 64 (scratchOf s t x.a l)) lane ∧
    Faults (.atomsCas sc o ty x) noRun (fun s t => accessLanes t x.g (some x.d) = l :: r ∧ scratchOf s t x.a l % n ≠ 0)
      0x13 (fun s t => BitVec.ofNat 64 (scratchOf s t x.a l)) lane ∧
    (∀ i ∈ [Instr.ldv tv sc acq x, .ldvLatest tv sc acq x], Faults i noRun
      (fun s t => accessLanes t x.g (some x.d) = l :: r ∧ s.targetBad t (s.verBad t false) (va s t) = false ∧
        va s t % tv.bytes ≠ 0) 0x13 info lane) ∧
    (∀ i ∈ [Instr.stv ts x, .stvRel ts sc x], Faults i noRun
      (fun s t => t.active x.g = l :: r ∧ s.targetBad t (s.verBad t true) (va s t) = false ∧ va s t % ts.bytes ≠ 0)
      0x13 info lane) ∧
    Faults (.mfmt y) noRun (fun s t => t.mtx.isSome = true ∧ y.a ≠ Opnd.none ∧ va56 (uni s t y.a).toNat % 64 ≠ 0) 0x13
      (fun s t => BitVec.ofNat 64 (va56 (uni s t y.a).toNat)) (fun _ _ => noLane)

/-- R158-R163: version instructions name the region of their address; the version stands in B (in C for a store), the floor
of `vflr` in B. Loads raise W0, stores and floors W1. -/
def Obligations.VersionInstructions : Prop :=
  ∀ (ty : SZV) (tz : SZS) (sc : Scope) (acq : Bool) (x : RArgs),
    let lq (s : State) (t : Team) : List Req := memReqs s t (accessLanes t x.g (some x.d)) x.a 0 ty.bytes ty.bytes
    let sq (s : State) (t : Team) : List Req := memReqs s t (t.active x.g) x.a 0 tz.bytes tz.bytes
    let one (lanes : List Nat) (s : State) (t : Team) : List Req := memReqs s t lanes x.a 0 1 1
    let order : Option Scope := if acq then some sc else none
    let lOk (s : State) (t : Team) : Prop := Passes s t .load .versioned (s.verBad t false) true false (lq s t)
    let sOk (s : State) (t : Team) : Prop := Passes s t .store .versioned (s.verBad t true) false true (sq s t)
    let store (rel : Option Scope) (s : State) (t : Team) : State :=
      let q := passed s t .store .versioned (s.verBad t true) (sq s t)
      q.1.pendAdd t x.la (some 1)
        (.stv (q.2.map fun a => (q.1.vacc t (lane32 q.1 t x.c a.lane) a, dataBytes q.1 t x.b tz.bytes a.lane)) rel)
        true false [] []
    Completes (.ldv ty sc acq x) noRun lOk (fun s t =>
      let q := passed s t .load .versioned (s.verBad t false) (lq s t)
      let dst : Dst := ⟨x.d, ty.bytes, false⟩
      q.1.pendAdd t x.la (some 0) (.ldv dst (q.1.vaccs t x.b q.2) order false none) true false dst.refs []) ∧
    Completes (.ldvLatest ty sc acq x) noRun lOk (fun s t =>
      let q := passed s t .load .versioned (s.verBad t false) (lq s t)
      q.1.pendAdd t x.la (some 0) (.latest (latestDst x.d ty.bytes) (q.1.vaccs t x.b q.2) order) true false
        (latestDst x.d ty.bytes).refs []) ∧
    Completes (.stv tz x) noRun sOk (store none) ∧
    Completes (.stvRel tz sc x) noRun sOk (store (some sc)) ∧
    Completes (.vqry x) noRun
      (fun s t => Passes s t .load .versioned (s.verBad t true) true false (one (accessLanes t x.g (some x.d)) s t))
      (fun s t =>
        let q := passed s t .load .versioned (s.verBad t true) (one (accessLanes t x.g (some x.d)) s t)
        let dst : Dst := ⟨x.d, 8, false⟩
        q.1.pendAdd t x.la (some 0) (.vqry dst (q.2.map (q.1.vacc t 0))) true false dst.refs []) ∧
    Completes (.vflr x) noRun
      (fun s t => Passes s t .store .versioned (s.verBad t false) false false (one [noLaneN] s t))
      (fun s t =>
        let q := passed s t .store .versioned (s.verBad t false) (one [noLaneN] s t)
        let a := q.2.headD ⟨noLaneN, 0, [], []⟩
        q.1.pendAdd t x.la (some 1) (.vflr a (q.1.vacc t 0 a).region (lo32 (uni q.1 t x.b))) true false [] [])

/-- R149, R155, R164, R165, R172-R176: async copies count under their tag, `acpw` goes on when its tag is clear; `lease`
adds to the partition's leases; `pref` is done whatever it fetches; `cctl` leaves its lines to be cleaned, dropped or both,
W1 raised; `fence` goes on when what it waits for is performed; `rdoset` sets the state of the lines. -/
def Obligations.CopiesLeasesAndCaches : Prop :=
  ∀ (tag : Fin 8) (g : Guard) (lv : PL) (op : CC) (fn : FenceOp) (sc : Scope) (x : RArgs) (y : MArgs),
    Completes (.acp tag x) noRun
      (fun s t => Passes s t .engRead .plain nowhereBad true false (acpReqs s t x (t.active x.g)))
      (fun s t =>
        let q := passed s t .engRead .plain nowhereBad (acpReqs s t x (t.active x.g))
        (q.1.pendAdd t x.la (some 2) (.acp tag.val q.2 (q.2.flatMap fun a =>
          (List.range 32).map fun i => (scratchOf q.1 t x.b a.lane + i, a.pas[i]?)) [] (q.1.observed t)) false false [] []).modTeam
          t.id fun u => u.addTag tag.val) ∧
    Completes (.acpw tag g) noRun (fun _ t => t.tag tag.val = 0) (fun s _ => s) ∧
    (∀ ps : List (Nat × Nat × Tlb), Completes (.lease x) noRun
      (fun s t =>
        let va := va56 (addrOf s t x.a 0)
        let len := (uni s t x.b).toNat
        let q := s.checkRange t.core t.part t.level .load .plain va len
        va % 4096 = 0 ∧ len % 4096 = 0 ∧ len ≠ 0 ∧ 1 ≤ (uni s t x.c).toNat ∧ (uni s t x.c).toNat ≤ 1000000 ∧ q.2 = .ok ps ∧
          (q.1.turned t.part && (linesOf ps).any fun k => q.1.outside (64 * k)) = false ∧
          (linesOf ps).all (fun k => !q.1.isHost (64 * k) && !q.1.noSlice (64 * k)) = true ∧
          len + (((q.1.part t.part).leases).map (·.len)).sum ≤ q.1.preg t.part 2 ∧ (q.1.part t.part).leases.length < 64 ∧
          ((q.1.part t.part).leases.all fun l => (overlapAt l.base.toNat l.len va len).isNone) = true ∧ q.1.pinFits ps = true)
      (fun s t =>
        let va := va56 (addrOf s t x.a 0)
        let len := (uni s t x.b).toNat
        let q := s.checkRange t.core t.part t.level .load .plain va len
        (q.1.reachLines t.part ((linesOf ps).map fun k => lineOf (q.1.norm (64 * k)))).modPart t.part fun p => { p with
          leases := p.leases ++ [⟨BitVec.ofNat 64 va, len, q.1.now + 1000 * (uni s t x.c).toNat⟩] })) ∧
    Completes (.pref lv y) noRun always
      (fun s t => s.prefAll t lv ((t.active y.g).map fun l => addrOf s t y.a l + 64 * y.off.toNat)) ∧
    (∀ ps : List (Nat × Nat × Tlb), Completes (.cctl op x) noRun
      (fun s t =>
        let q := s.xlate t.core t.part (rangePieces (va56 (addrOf s t x.a 0)) (uni s t x.b).toNat)
        1 ≤ (uni s t x.b).toNat ∧ (uni s t x.b).toNat ≤ 2 ^ 32 ∧ q.2 = .ok ps ∧
          (ps.all fun e => e.2.2.permits t.level .load) = true)
      (fun s t =>
        let q := (s.xlate t.core t.part (rangePieces (va56 (addrOf s t x.a 0)) (uni s t x.b).toNat)).1
        let lines := (touchedLines ps).map fun l => lineOf (q.norm (64 * l))
        q.pendAdd t x.la (some 1) (.cctl lines (op != .inv) (op != .clean)) false false [] [])) ∧
    Completes (.fence fn sc g) noRun (fun s t => fenceReady fn.kind sc s t = true) (fun s t =>
      let s := if fn.kind = .rel then s else s.acquire t sc
      let s := if fn.kind = .acq then s else s.modTeam t.id fun u => u.released (some sc)
      if fn.kind ≠ .acq ∧ 2 ≤ sc.code then s.modTeam t.id fun u => { u with relFence := true } else s) ∧
    Completes (.rdoset x) noRun
      (fun s t =>
        let q := passed s t .store .plain (s.rdoBad t) (rdosetReqs s t x)
        let v := q.1.moveLines (q.1.linesAt (q.2.flatMap (·.pas)))
        Passes s t .store .plain (s.rdoBad t) false true (rdosetReqs s t x) ∧ v.firstGap q.2 = none ∧
          (v.setLines t (q.2.map fun a => (a, lane32 v t x.b a.lane))).2 = none)
      (fun s t =>
        let q := passed s t .store .plain (s.rdoBad t) (rdosetReqs s t x)
        let v := q.1.moveLines (q.1.linesAt (q.2.flatMap (·.pas)))
        (v.setLines t (q.2.map fun a => (a, lane32 v t x.b a.lane))).1)

/-! ## Matrix, engines, rings (R177-R200, R211-R217) -/

/-- R178, R180, R185-R192: every matrix instruction but `mwait` joins the array queue in order; a multiply takes the rows of
its A registers as it issues, or, with REU, those of the latch; a block that another device does not answer is fault 0x18
(R386); `mwait` goes on when the queue is empty and hands the flags to the running lanes. -/
def Obligations.MatrixInstructions : Prop :=
  ∀ (set : Bool) (f : MS) (g : Guard) (x : XArgs) (m : Matrix),
    let va (s : State) (t : Team) : Option Nat :=
      if x.a = Opnd.none then t.binding s x.bnd.val 0 else some (uni s t x.a).toNat
    let off (s : State) (t : Team) : Nat := bitsOf (uni s t x.a) 31 0
    let rs (s : State) (t : Team) : Nat := bitsOf (uni s t x.a) 47 32
    let fits (e : Nat) (s : State) (t : Team) : Prop :=
      let stride := if rs s t = 0 then 64 * e else rs s t
      t.mtx.isSome = true ∧ bitsOf (uni s t x.a) 63 48 = 0 ∧ off s t % 16 = 0 ∧ stride % 16 = 0 ∧ 64 * e ≤ stride ∧
        off s t + 63 * stride + 64 * e ≤ t.scrS
    let mul (n : Nat) (s : State) (t : Team) : State :=
      let regs := n * kRegs m.pendingFmt
      let rows := if x.reu then (m.latch.map (·.rows)).getD [] else collect t x.a.index regs
      s.enqueue t (.mul set x.acc.val n ((t.r.sget (destIndex x.d)).toNat % 2 ^ 32) rows m.pendingFmt) x.reu fun q =>
        if x.reu then q else { q with latch := some ⟨x.a.index, fmtA m.pendingFmt, regs, rows⟩ }
    let ready (n : Nat) (_ : State) (t : Team) : Prop := t.mtx = some m ∧ mulFault t m x n = none
    (∀ a, Completes (.mfmt x) noRun
      (fun s t => t.mtx.isSome = true ∧ va s t = some a ∧ BlockReads s t a 8 ∧ fmtOk (blockOf s t a 8).2 = true)
      (fun s t => (blockOf s t a 8).1.enqueue t (.fmt (blockOf s t a 8).2) false id)) ∧
    (∀ a i, Faults (.mfmt x) noRun (fun s t => t.mtx.isSome = true ∧ va s t = some a ∧ BlockUnanswered s t a 8 i) 0x18
      (fun _ _ => BitVec.ofNat 64 (va56 a + i)) (fun _ _ => noLane)) ∧
    Completes (.mma set x) (mulRun 1 x) (ready 1) (mul 1) ∧
    Completes (.mloop set x) (mulRun (x.xo.val + 1) x) (ready (x.xo.val + 1)) (mul (x.xo.val + 1)) ∧
    Completes (.mzero x) noRun (fun _ t => t.mtx.isSome = true) (fun s t => s.enqueue t (.zero x.acc.val) false id) ∧
    Completes (.mld x) noRun (fits 4) (fun s t => s.enqueue t (.ld x.acc.val (off s t) (rs s t)) false id) ∧
    Completes (.mst f x) noRun (fits (if f = .f32 then 4 else 2))
      (fun s t => s.enqueue t (.st f x.acc.val (off s t) (rs s t)) false id) ∧
    Completes (.mwait g) noRun (fun _ t => t.mtx = some m ∧ m.queue = []) (fun s t =>
      (s.modTeam t.id fun u =>
        { u.raises (t.liveLanes.map (·, m.flags.get 0 0 ||| m.flags.get 0 1 ||| m.flags.get 0 2 ||| m.flags.get 0 3)) with
          mtx := some { m with flags := [] } }).wakeArr t)

/-- R166, R168, R194-R200: `sgo` gives its engine a run of the layout record that it binds, row length and stride taken from
the shape of the record's handle where the record leaves them zero; `sstop` ends it after its present tile; `sqry` reads it;
`qfence` goes on when what it names has drained; `bcp` joins the copy engine of its die, W4 raised. A block that another
device does not answer is fault 0x18 (R386). -/
def Obligations.EngineInstructions : Prop :=
  ∀ (x : XArgs) (y : RArgs) (va : Nat) (e : Engine),
    let w (s : State) (t : Team) : List W64 := (blockOf s t va 16).2
    let sh (s : State) (t : Team) : Nat := s.shapesOf t + 64 * bitsOf (Lay.hnd (w s t)) 63 56
    let shaped (s : State) (t : Team) : Prop := Lay.hnd (w s t) ≠ 0 ∧ Lay.rlen (w s t) = 0
    let run (t : Team) (v : List W64) (s' : State) : State :=
      s'.modTeam t.id fun u => u.addRun x.xo.val e
        ⟨v, BitVec.ofNat 64 (if Lay.hnd v = 0 then fld v 0 55 0 else bitsOf (Lay.hnd v) 55 6 * 64), uni s' t x.a,
          Lay.start v, t.level, s'.observed t⟩
    let bound (s : State) (t : Team) : Prop :=
      t.binding s x.bnd.val 1 = some va ∧ t.engine x.xo.val = some e ∧ e.st ≠ .faulted ∧ BlockReads s t va 16
    let cva (s : State) (t : Team) : Nat := (uni s t y.a).toNat
    let c (s : State) (t : Team) : State × List W64 := blockOf s t (cva s t) 8
    Completes (.sgo x) noRun
      (fun s t => bound s t ∧ ¬ shaped s t ∧ layoutOk t x.xo.val (w s t) (s.shapesOf t != 0) = true)
      (fun s t => run t (w s t) (blockOf s t va 16).1) ∧
    Completes (.sgo x) noRun
      (fun s t =>
        let s' := (blockOf s t va 16).1
        bound s t ∧ shaped s t ∧ s.shapesOf t ≠ 0 ∧ Lay.zeroOk (w s t) = true ∧ BlockReads s' t (sh s t) 8 ∧
          layoutOk t x.xo.val (withRow (w s t) (shapeRow (blockOf s' t (sh s t) 8).2)) true = true)
      (fun s t =>
        let q := blockOf (blockOf s t va 16).1 t (sh s t) 8
        run t (withRow (w s t) (shapeRow q.2)) q.1) ∧
    (∀ i, Faults (.sgo x) noRun
      (fun s t => t.binding s x.bnd.val 1 = some va ∧ t.engine x.xo.val = some e ∧ BlockUnanswered s t va 16 i) 0x18
      (fun _ _ => BitVec.ofNat 64 (va56 va + i)) (fun _ _ => noLane)) ∧
    (∀ i, Faults (.bcp y) noRun (fun s t => (uni s t y.b).toNat ≤ 3 ∧ BlockUnanswered s t (cva s t) 8 i) 0x18
      (fun s t => BitVec.ofNat 64 (va56 (cva s t) + i)) (fun _ _ => noLane)) ∧
    Completes (.sstop x) noRun (fun _ t => t.engine x.xo.val = some e)
      (fun s t => s.modTeam t.id fun u => u.stopEngine x.xo.val e) ∧
    Completes (.sqry x) noRun (fun _ t => t.engine x.xo.val = some e) (fun s t => result s t x.la x.d e.query) ∧
    Completes (.qfence y) noRun
      (fun s t =>
        let m := lo32 (uni s t y.a)
        m.toNat < 2 ^ 17 ∧ (∀ k < 4, m.getLsbD (1 + k) = true → ∃ e, t.engine k = some e ∧ e.st ≠ .faulted) ∧
          s.drained t m = true)
      (fun s _ => s) ∧
    Completes (.bcp y) noRun
      (fun s t => (uni s t y.b).toNat ≤ 3 ∧ BlockReads s t (cva s t) 8 ∧ blockOk (c s t).1 t (c s t).2 = true ∧
        ((c s t).1.copyBad t (c s t).2).2 = none)
      (fun s t =>
        let s' := ((c s t).1.copyBad t (c s t).2).1
        let d := dieOfCore t.core
        let n := (uni s t y.b).toNat
        (s'.setCopies d n ((s'.die d).copies n ++
          [⟨t.id, t.nseq, t.part, t.core, BitVec.ofNat 64 (va56 (cva s t)), (c s t).2, 0, 0, false, t.word, [], none, false,
            none, 0, t.level, s'.observed t⟩])).modTeam t.id fun u => { u.addCnt 4 with nseq := u.nseq + 1 })

/-- R211-R217: `qpop`, `qpush` and `qtry` take the next slot of a ring of their direction and give its offset, `qtry` answers
bit 63 where there is none, `qrel` gives the oldest held slot back, `qstat` reads word 1; `aset` sets a target, `aadd` adds,
each with the carry rule; `await` goes on once the generation has passed, `aqry` reads the word. -/
def Obligations.RingsAndArrivalWords : Prop :=
  ∀ (q : Fin 32) (x : RArgs) (r : Ring) (u : Team),
    let here (drain : Bool) (_ : State) (t : Team) : Prop :=
      t.ring? q.val = some r ∧ r.err = false ∧ r.drain = drain ∧ 1 ≤ r.avail
    let took (s : State) (t : Team) : State :=
      result (s.modTeam t.id fun u => u.setRing { r with hold := r.hold + 1 }) t x.la x.d
        (BitVec.ofNat 64 (r.base + (if r.drain then r.tail + r.hold else r.head + r.hold).toNat % 2 ^ r.logn * r.ssz * 128))
    let off (s : State) (t : Team) : Nat := scratchOf s t x.a 0
    let lanes (s : State) (t : Team) : List (Nat × Nat × Nat) :=
      (t.active x.g).map fun l => (l, scratchOf s t x.a l, (opnd s t (.int true) x.b l).toNat)
    let word (s : State) (t : Team) : Prop :=
      arriveCheck t noLaneN (off s t) 0 = none ∧ t.wordQuiet (off s t) = true ∧ (t.arrive? (off s t)).top = 0
    Completes (.qpop q x) noRun (here false) took ∧
    Completes (.qpush q x) noRun (here true) took ∧
    Completes (.qtry q x) noRun (fun s t => here r.drain s t) took ∧
    Completes (.qtry q x) noRun (fun _ t => t.ring? q.val = some r ∧ r.err = false ∧ r.avail = 0)
      (fun s t => result s t x.la x.d (1#64 <<< 63)) ∧
    Completes (.qstat q x) noRun (fun _ t => t.ring? q.val = some r ∧ r.err = false)
      (fun s t => result s t x.la x.d (BitVec.ofNat 64 (r.head.toNat + 2 ^ 16 * r.tail.toNat + 2 ^ 32 * r.hold.toNat))) ∧
    Completes (.qrel q x) noRun (fun _ t => t.ring? q.val = some r ∧ r.err = false ∧ r.hold ≠ 0 ∧ t.scratchQuiet = true)
      (fun s t => s.modTeam t.id fun u => u.setRing { r with
        hold := r.hold - 1
        tail := if r.drain then r.tail + 1 else r.tail
        head := if r.drain then r.head else r.head + 1 }) ∧
    Completes (.aset x) noRun
      (fun s t => arriveCheck t noLaneN (off s t) (uni s t x.b).toNat = none ∧ t.wordQuiet (off s t) = true)
      (fun s t => s.modTeam t.id fun u =>
        u.putArrive (off s t) { u.arrive? (off s t) with target := (uni s t x.b).toNat }.carry) ∧
    Completes (.aadd x) noRun
      (fun s t => ((lanes s t).all fun l => (arriveCheck t l.1 l.2.1 l.2.2).isNone) = true ∧ t.coreReleased = true ∧
        addLanes t (lanes s t) = .ok u)
      (fun s t => s.modTeam t.id fun v => { v with
        scr := u.scr
        scrWritten := u.scrWritten
        scrPoison := u.scrPoison }) ∧
    Completes (.await x) noRun
      (fun s t => word s t ∧ ((t.arrive? (off s t)).gen + 2 ^ 16 - (uni s t x.b).toNat % 2 ^ 16) % 2 ^ 16 < 2 ^ 15)
      (fun s t => s.acquire t .dev) ∧
    Completes (.aqry x) noRun word (fun s t =>
      s.resultWrites t x.la [.s (destIndex x.d), .s (destIndex x.d + 1)]
        [.s (destIndex x.d) (BitVec.ofNat 64 (t.scrNat (off s t) 8)),
          .s (destIndex x.d + 1) (BitVec.ofNat 64 (t.scrNat (off s t + 8) 8))])

/-! ## Records (R201-R210) -/

/-- R201-R207: an emission whose checks pass sends a record for each lane, or one for the team: words, allowances and bounds
as `emitAll` gives them; the team's credit falls by the bounds, W5 rises. `rrd` and `rlen` read the input record. -/
def Obligations.RecordInstructions : Prop :=
  ∀ (edge : Fin 8) (len : Fin 16) (x : RArgs) (n : Node) (g : Graph) (xs : List Emission) (used : Table Nat),
    let can (q : EmitReq) (team : Bool) (ls : List Nat) (s : State) (t : Team) : Prop :=
      t.node? s = some n ∧ s.graph? t.part t.gslot = some g ∧ (team = true → n.perTeam = true) ∧
        emitAll s t n g q (!n.perTeam && !team) ls t.used = .ok (xs, used) ∧ xs ≠ []
    let sent (routed : Bool) (s : State) (t : Team) : State :=
      ((xs.foldl (fun s e => s.sendEmission t t.nseq e routed) s).pendAdd t x.la (some 5) (.emit xs.length) false false
        [] []).modTeam t.id fun v => { v with
          used := used
          credit := v.credit - (xs.map (·.bound)).sum }
    let lenB (s : State) (t : Team) : Nat := (lo32 (uni s t x.b)).toNat
    let lanesQ (s : State) (t : Team) : EmitReq :=
      ⟨edge.val, lenB s t, none, fun l => (lane32 s t x.c l).toNat, fun l i => t.r.lane (x.a.index + i) l⟩
    let teamQ (s : State) (t : Team) : EmitReq :=
      ⟨edge.val, lenB s t, none, fun _ => (lo32 (uni s t x.c)).toNat, fun _ i => lo32 (t.r.sget (x.a.index + i))⟩
    let lanesX (s : State) (t : Team) : EmitReq :=
      ⟨edge.val, len.val, some fun l => opnd s t (.int true) x.c l, fun _ => 0, fun l i => t.r.lane (x.a.index + i) l⟩
    let teamX (s : State) (t : Team) : EmitReq :=
      ⟨edge.val, len.val, some fun _ => uni s t x.c, fun _ => 0, fun _ i => lo32 (t.r.sget (x.a.index + i))⟩
    Completes (.emit edge x) (payloadRun x)
      (fun s t => x.a.index + lenB s t ≤ 64 ∧ can (lanesQ s t) false (t.active x.g) s t) (sent false) ∧
    Completes (.emitTeam edge x) (payloadRun x)
      (fun s t => x.a.index + lenB s t ≤ 64 ∧ can (teamQ s t) true [noLaneN] s t) (sent false) ∧
    Completes (.emitx len edge x) (fun _ _ => some len.val) (fun s t => can (lanesX s t) false (t.active x.g) s t) (sent true) ∧
    Completes (.emitxTeam len edge x) (fun _ _ => some len.val) (fun s t => can (teamX s t) true [noLaneN] s t) (sent true) ∧
    Completes (.rrd x) noRun
      (fun s t => x.d.isS = true ∧ t.perTeamNode s = true ∧ (lane32 s t x.a 0).toNat ≤ 15)
      (fun s t => result s t x.la x.d ((recWord (t.recOf s 0) (lane32 s t x.a 0).toNat).zeroExtend 64)) ∧
    Completes (.rrd x) noRun
      (fun s t => x.d.isS = false ∧ ∀ l ∈ t.active x.g, (lane32 s t x.a l).toNat ≤ 15)
      (fun s t => s.resultWrites t x.la [.v (destIndex x.d)]
        ((t.active x.g).map fun l => .v (destIndex x.d) l (recWord (t.recOf s l) (lane32 s t x.a l).toNat))) ∧
    Completes (.rlen x) noRun (fun s t => x.d.isS = true ∧ t.perTeamNode s = true)
      (fun s t => result s t x.la x.d (BitVec.ofNat 64 (recLen (t.recOf s 0)))) ∧
    Completes (.rlen x) noRun (fun _ _ => x.d.isS = false)
      (fun s t => s.resultWrites t x.la [.v (destIndex x.d)]
        ((t.active x.g).map fun l => .v (destIndex x.d) l (BitVec.ofNat 32 (recLen (t.recOf s l)))))

/-! ## Traps and system instructions (R218-R227) -/

/-- R218, R220: fault `f` of a team outside the handler whose results have landed goes to the handler: s60 to s63 take the
code, the information, the lane and the PC, their old values go to the bank, the level becomes 1 unless it is 2, and the team
stands at the handler entry. A fault inside the handler kills the team with code 0x0B. -/
def Obligations.FaultTaken : Prop :=
  (∀ (s : State) (t : Team) (f : FaultRec),
    let vec : W64 := if t.level = 2 then s.mr 0x180 else s.pr t.part 0x100
    let region : Region3 :=
      if t.level = 2 then ⟨s.mr 0x181, s.mr 0x182, s.mr 0x183⟩
      else ⟨s.pr t.part 0x101, s.pr t.part 0x102, s.pr t.part 0x103⟩
    let u0 : Team := { t with lost := none }.inHandler f
    t.hnd = false → t.pend = [] → t.arrayQuiet = true → (t.r.stack = [] → t.r.blocks = 0 ∨ t.r.due = t.r.blocks) →
    (∀ e ∈ t.r.stack.head?, e.rc = vec → ((s.mapBit t region vec).1.rcvAt u0 vec).2 = false) → vec.extractLsb' 0 3 = 0#3 →
    vec.extractLsb' 56 8 = 0#8 → region.base.toNat ≤ vec.toNat → vec.toNat < region.base.toNat + region.len.toNat →
    (s.mapBit t region vec).2 = some true →
    ∃ u, (s.raise t f).team? t.id = some u ∧ u.hnd = true ∧ u.slvl = t.level ∧ u.level = max t.level 1 ∧ u.fault = some f ∧
      u.r.sget 60 = BitVec.ofNat 64 f.code ∧ u.r.sget 61 = f.info ∧ u.r.sget 62 = f.s62 ∧ u.r.sget 63 = f.pc ∧
      u.bank = [t.r.sget 60, t.r.sget 61, t.r.sget 62, t.r.sget 63] ∧ u.r.pc = vec ∧ u.r.cl = none ∧
      (∀ k, k < 60 → u.r.sget k = t.r.sget k) ∧ u.r.v = t.r.v ∧ u.r.mask = t.r.mask ∧ u.r.stack = t.r.stack ∧
      u.r.blocks = t.r.blocks ∧ u.r.fflags = t.r.fflags ∧ u.scr = t.scr ∧ (s.raise t f).mem = s.mem) ∧
  (∀ (s : State) (t : Team) (f : FaultRec), t.hnd = true → t.pend = [] → t.arrayQuiet = true →
    ∃ u, (s.raise t f).team? t.id = some u ∧ u.stat = .killing 0x0B ∧ u.trap = none ∧ (s.raise t f).mem = s.mem)

/-- R39, R219, R224: `trap` raises 0x7F with its number, `bkpt` 0x70, which stops the team instead where DBGCTL says so; each
`tret` outside the handler is fault 0x0C; in it s60 to s63, level and HND return, and the team stands at the instruction,
behind it, or is killed. -/
def Obligations.TrapsAndReturns : Prop :=
  ∀ (n : BitVec 8) (g : Guard) (f : FaultRec) (c : Clause),
    let back (md : Nat) (s : State) (t : Team) : State := (s.modTeam t.id Team.retired).traceTrap t 1 md f.pc
    let left (md : Nat) (s : State) (t : Team) : Team := (((back md s t).team? t.id).getD t).leaveHandler
    let again (md : Nat) (s : State) (t : Team) : Team := { left md s t with cmpIgnore := f.cmp.toList }
    let inside (s : State) (t : Team) : Prop := t.hnd = true ∧ t.fault = some f ∧ (s.team? t.id).isSome = true
    let at_ (s : State) (u : Team) (pc : W64) : State := s.setTeam { u with
      port := false
      r := { u.r with
        pc := pc
        cl := some c } }
    let none_ (_ : State) (_ : Team) : W64 := 0
    let lane (_ : State) (_ : Team) : W64 := noLane
    Faults (.trap n g) noRun always 0x7F (fun _ _ => n.zeroExtend 64) lane ∧
    (∀ s s1 t e, Issues (.bkpt n g) noRun s s1 t e → t.cmpIgnore.contains 100 = false →
      ((s1.setTeam t).pr t.part 0x110).getLsbD 1 = false →
      exec (.bkpt n g) s = .next ((s1.setTeam t).raise t (t.faultAt 0x70 (n.zeroExtend 64) noLane))) ∧
    (∀ s s1 t e, Issues (.bkpt n g) noRun s s1 t e → t.cmpIgnore.contains 100 = false →
      ((s1.setTeam t).pr t.part 0x110).getLsbD 1 = true →
      exec (.bkpt n g) s = .next ((s1.setTeam t).setTeam { t with
        stopReq := some 0x70
        stopRec := some (t.faultAt 0x70 (n.zeroExtend 64) noLane) })) ∧
    Faults (.tretFix g) noRun (fun _ t => t.hnd = false) 0x0C none_ lane ∧
    Faults (.tretSkip g) noRun (fun _ t => t.hnd = false) 0x0C none_ lane ∧
    Faults (.tretRetry g) noRun (fun _ t => t.hnd = false) 0x0C none_ lane ∧
    Faults (.tretKill g) noRun (fun _ t => t.hnd = false) 0x0C none_ lane ∧
    Ends (.tretRetry g) (fun s t => inside s t ∧ f.cl = some c ∧ c.words ≠ [])
      (fun s t => at_ (back 2 s t) (again 2 s t) f.pc) ∧
    Ends (.tretFix g) (fun s t => inside s t ∧ f.cl = some c ∧ c.words ≠ [])
      (fun s t =>
        let s' := if 0x10 ≤ f.code ∧ f.code ≤ 0x1F then
            (back 0 s t).dropTlb (left 0 s t).part fun e => e.hit (left 0 s t).part (va56 f.info.toNat)
          else back 0 s t
        at_ s' (again 0 s t) f.pc) ∧
    Ends (.tretSkip g) (fun s t => inside s t ∧ f.cl = some c ∧ c.at f.pc + 1 < c.words.length)
      (fun s t => at_ (back 1 s t) (left 1 s t) (f.pc + 8#64)) ∧
    Ends (.tretKill g) inside (fun s t => (back 3 s t).setTeam { left 3 s t with
      trap := none
      holdOn := none
      stopReq := none
      stat := .killing f.code })

/-- R223, R225-R227: `tmark` leaves a packet; `ckpt` asks for a checkpoint and answers its number; `ringrst` sets the read index
of a ring in error; the unit instructions hand over their block, or take fault 0x18 where another device does not answer its
read (R386); `pgret` drops translations and holds the team until what used them is performed. -/
def Obligations.SystemOperations : Prop :=
  ∀ (x : RArgs) (r : Nat) (ring : IRing) (k : Shoot),
    let block (s : State) (t : Team) : State × List W64 := blockOf s t (uni s t x.a).toNat 8
    let unit (op : OpKind) (s : State) (t : Team) : Prop :=
      BlockReads s t (uni s t x.a).toNat 8 ∧ unitOk op (block s t).2 = true
    let given (op : OpKind) (s : State) (t : Team) : State := (block s t).1.unitOp op (block s t).2 (some (t.part, uni s t x.a))
    let wr (s : State) (t : Team) : W32 := BitVec.ofNat 32 ((s.readVirt t.part ((uni s t x.a).toNat + 16) 4).getD 0)
    Completes (.tmark x) noRun always
      (fun s t => s.tracePacket t t.r.pc ⟨5, 1, leBytes 4 (lo32 (uni s t x.a)).toNat⟩) ∧
    Completes (.ckpt x) noRun always (fun s t =>
      result (s.modPart t.part fun y => { y with ckReq := true }) t x.la x.d (BitVec.ofNat 64 ((s.part t.part).epoch + 1))) ∧
    Completes (.ringrst x) noRun
      (fun s t => s.ringAt t.part (uni s t x.a) = some (r, ring) ∧ ring.err = true ∧
        ¬ (wr s t - ring.rdidx < lo32 (uni s t x.b) - ring.rdidx))
      (fun s t =>
        let a := (uni s t x.a).toNat
        (s.writeVirt t.part (a + 32) (leBytes 8 ((s.readVirt t.part (a + 32) 8).getD 0 / 2 * 2))).ringTo t.part r
          { ring with err := false } (lo32 (uni s t x.b))) ∧
    Completes (.presize x) noRun (unit .resize) (given .resize) ∧
    Completes (.plend x) noRun (unit .lend) (given .lend) ∧
    Completes (.prevoke x) noRun (unit .revoke) (given .revoke) ∧
    (∀ i, ∀ mk ∈ [Instr.presize, Instr.plend, Instr.prevoke], Faults (mk x) noRun
      (fun s t => BlockUnanswered s t (uni s t x.a).toNat 8 i) 0x18
      (fun s t => BitVec.ofNat 64 (va56 (uni s t x.a).toNat + i)) (fun _ _ => noLane)) ∧
    (∀ s s1 t e, Issues (.pgret x) noRun s s1 t e → FallsOn s1 t →
      shootOf (uni (started noRun s1 t e) t x.b) = some k → (uni (started noRun s1 t e) t x.a).toNat % k.size = 0 →
      (uni (started noRun s1 t e) t x.a).toNat < 2 ^ 56 →
      let q := (started noRun s1 t e).shoot k (uni (started noRun s1 t e) t x.a).toNat
      exec (.pgret x) s = .next ((q.1.modTeam t.id fun u => { u with holdOn := some (.pgret q.2) }).modTeam t.id Team.retired))

/-! ## Clauses, teams -/

/-- R13-R17, R38: a clause whose words were fetched and are valid starts when its counters are at or below its threshold, its
port is free and its first instruction may start: the slot keeps the header and the words, and the team stands at the first
instruction. -/
def Obligations.ClauseStarts : Prop :=
  ∀ (s s' : State) (t : Team) (h : Option W64) (c : Clause), s.cur = some t → s.runnable t = true → t.r.cl = none →
    s.fetchClause t t.r.pc = (s', h, .ok c) → validate c.hdr c.words = none → s'.portBusy t (vectorPort c.hdr) = false →
    (∀ n < 6, (Header.ofWord c.hdr).wmask.getLsbD n = true → t.cnt n ≤ (Header.ofWord c.hdr).wthr) →
    firstReady s' t c = true →
    ∃ u v, exec .clauseIssue s = .next u ∧ u.team? t.id = some v ∧ v.r.cl = some c ∧ v.r.pc = c.h + 8#64 ∧
      v.nclause = t.nclause + 1 ∧ v.r.s = t.r.s ∧ v.r.v = t.r.v ∧ v.r.mask = t.r.mask ∧ v.pend = t.pend ∧ u.mem = s'.mem

/-- R199, R218, R220, R243, R276, R400: a retiring team with nothing left to do is gone, its number free; a killed one too,
its records at the error edge or counted lost; a fault that waited is delivered when earlier checks are closed, a gap's with
the lowest index then held; the watchdog's is 0x60; a team that is to stop and whose work is done stands stopped with its
granules saved. -/
def Obligations.TeamsEnd : Prop :=
  ∀ (s : State) (t : Team) (f : FaultRec) (code : Nat), s.team? s.ev.team = some t → t.id = s.ev.team →
    (t.stat = .retiring → (t.endAllRuns false).finished = true → s.wclean t = true →
      ∃ u, exec .teamRetire s = .next u ∧ u.team? t.id = none) ∧
    (t.stat = .killing code → t.pend = [] → (t.endAllRuns true).finished = true → s.wclean t = true →
      ∃ u, exec .teamKill s = .next u ∧ u.team? t.id = none) ∧
    (t.trap = some f → t.deliverable = true → t.stat = .running → exec .faultDeliver s = .next (s.takeFault t (s.gapNow t f)) ∧
      (f.code ≠ 0x15 → s.gapNow t f = f)) ∧
    (t.stat = .running → t.trap = none → s.preg t.part 0 ≤ t.wd → t.pend = [] →
      exec .watchdogExpire s = .next (s.raise t (t.faultAt 0x60 0 noLane))) ∧
    (t.stat = .running → t.stopReq = some code → code ≠ 0x80 → t.pend = [] → s.atRest t = true →
      ∃ u v, exec .teamStop s = .next u ∧ u.team? t.id = some v ∧ v.stat = .stopped code ∧ v.stopReq = none ∧
        v.r.pc = t.r.pc ∧ v.r.s = t.r.s ∧ (∀ k g, v.r.entry k g = .absent ↔ t.r.entry k g ≠ .none))

/-! ## Performing (R141-R148) -/

/-- R13, R32, R141: an instruction that leaves work behind raises its own counter by one and no other, and stands last among
the team's unperformed instructions; when it is performed that counter falls by one; what it has to write waits to land, and
where it has nothing to write it is forgotten. Registers and memory are as they were. -/
def Obligations.CountersRiseAndFall : Prop :=
  (∀ (s : State) (t u : Team) (la : Fin 16) (c : Nat) (k : PKind) (open_ done : Bool) (ds : List RegRef) (l : List RegWrite),
    s.team? t.id = some u → u.id = t.id →
    ∃ v p, (s.pendAdd t la (some c) k open_ done ds l).team? t.id = some v ∧ v.pend = u.pend ++ [p] ∧
      p.kind = k ∧ p.la = la.val ∧ p.num = t.icount ∧ v.cnt c = u.cnt c + 1 ∧ (∀ d, d ≠ c → v.cnt d = u.cnt d) ∧
      v.r = u.r ∧ v.scr = u.scr ∧ (s.pendAdd t la (some c) k open_ done ds l).mem = s.mem) ∧
  (∀ (t : Team) (p : Pending) (c : Nat) (l : List RegWrite), t.pendOf p.seq = some p →
    (∀ q ∈ t.pend, q.seq = p.seq → q = p) → p.ctr = some c →
    (t.perform p.seq l).cnt c = t.cnt c - 1 ∧ (∀ d, d ≠ c → (t.perform p.seq l).cnt d = t.cnt d) ∧
      (p.dsts = [] → (t.perform p.seq l).pendOf p.seq = none) ∧
      (p.dsts ≠ [] → ∃ q, (t.perform p.seq l).pendOf p.seq = some q ∧ q.performed = true ∧ q.open_ = false ∧
        q.land = if p.banked then l.map (RegWrite.mapRef .bankOut) else l) ∧
      (t.perform p.seq l).r = t.r ∧ (t.perform p.seq l).scr = t.scr)

/-- R141-R146, R285, R298: the data of a load returns: each lane's bytes as its team sees them through the core's write
buffer, a copy or the home, an acquire at .die or wider from the home; poison would fault. The bytes of one aligned eight may
be read before the rest (R144, R296). `lds` reads scratch. -/
def Obligations.LoadsReturn : Prop :=
  ∀ (s : State) (t : Team) (p : Pending) (dst : Dst), s.evPend = some (t, p) → p.performed = false →
    t.acquiredBefore p.num = true →
    (∀ (accs : List Acc) (acq : Option Scope) (got : Table Byte), p.kind = .load dst accs acq got →
      let pas := accs.flatMap (·.pas)
      let src := if (acq.any fun sc => decide (2 ≤ sc.code)) = true ∧ s.plainly pas = false then .home else s.ev.src
      t.readsBefore s p.num (pas.map s.norm) = false → s.hostOpen pas = true → (∀ a ∈ pas, s.space a ≠ .regs) →
      (s.ev.idx ≠ 1 → s.loadFault t p accs = none →
        let s' := s.noteLoad t src (pas.filter fun a => (got.get? a).isNone)
        exec .loadDataReturn s = .next ((match acq with
          | some sc => if s'.plainly pas = true then s' else s'.acquire t sc
          | none => s').modTeam t.id fun u => u.perform p.seq (accs.flatMap fun (a : Acc) =>
            dst.deliver a.lane (a.pas.map fun b => (got.get? b).getD (s.loadByte t src b))))) ∧
      (s.ev.idx = 1 → t.id = s.ev.team → (∀ a ∈ pas, s.loadPoison t a = false) →
        ∃ u v w got', exec .loadDataReturn s = .next u ∧
        u.team? t.id = some v ∧ v.pendOf p.seq = some w ∧ w.kind = .load dst accs acq got' ∧ w.performed = false ∧
        v.r = t.r ∧ (s.still = true → u.mem = s.mem) ∧
        (∀ a ∈ pas, s.norm a / 8 = s.ev.addr → (got.get? a).isNone = true → got'.get? a = some (s.loadByte t src a)) ∧
        ∀ a, (s.norm a / 8 ≠ s.ev.addr ∨ a ∉ pas ∨ (got.get? a).isSome = true) → got'.get? a = got.get? a)) ∧
    (∀ accs : List Acc, p.kind = .lds dst accs → t.scratchBefore p.num = false →
      (∀ a ∈ accs, ∀ k ∈ a.pas, t.scrBad k = false) →
      exec .loadDataReturn s = .next (s.modTeam t.id fun u =>
        u.perform p.seq (accs.flatMap fun (a : Acc) => dst.deliver a.lane (a.pas.map t.scrByte))))

/-- R141, R146, R148, R153, R176, R285, R286: a buffered store, a release once the accesses before it are performed, leaves for
its homes: exactly its bytes change in memory, but where a line that moves or is evicted at its slice brings a change of its
own (R230, R337), whichever instruction or team reads them next, and no far copy of their lines
but of a version is left; so does the update that an atomic of scope .core or .team left in its core's buffer. `sts` writes
exactly its bytes of scratch, all at once or one before the rest. `cctl` is performed once, where it cleans, no store of the
core to its lines is on its way; where it drops, no copy of them is left at the core and its die. A write waits while the undo
log is full or the safe tier has yet to take its frame (R361, R389). -/
def Obligations.StoresArePerformed : Prop :=
  ∀ (s : State) (t : Team) (p : Pending) (accs : List (Acc × List Byte)) (rel : Option Scope) (before : List WEntry)
      (e : WEntry),
    let held (pas : List Nat) : Bool := State.writeHeld { s with back := 0 } t.part pas
    let leaves : Prop := e.free before = true → (∀ x ∈ e.bytes, s.space x.1 = .here ∧ s.norm x.1 = x.1) →
      (e.bytes.map (·.1)).Nodup → held (e.bytes.map (·.1)) = false →
      ∃ u, exec .storePerformed s = .next u ∧ (∀ x ∈ e.bytes, u.memByte x.1 = x.2) ∧
        (s.still = true → ∀ a, s.norm a ∉ e.bytes.map (·.1) → u.memByte a = s.memByte a) ∧
        (∀ x ∈ e.bytes, ∀ d, (u.die d).far.all (fun c => c.ver.isSome || c.line != lineOf x.1) = true)
    (s.evPend = some (t, p) → p.performed = false → t.closedBefore p.num = true → p.kind = .store accs rel true →
      (∀ sc ∈ rel, s.releaseReady t p sc = true) → s.ev.flag = false →
      entryAt (s.core t.core).wbuf t.id p.seq = some (before, e) → leaves) ∧
    (s.team? s.ev.team = some t → (∀ q ∈ t.pend, q.seq = s.ev.seq → q.performed = true) →
      entryAt (s.core t.core).wbuf t.id s.ev.seq = some (before, e) → e.counted = false → leaves) ∧
    (∀ left : List (Nat × Byte), s.evPend = some (t, p) → t.id = s.ev.team → p.seq = s.ev.seq → p.performed = false →
      t.closedBefore p.num = true → p.kind = .sts left → p.ctr = some 1 → t.scratchBefore p.num = false → held [] = false →
      s.oldPend t.part t.id p.seq = 0 → (left.map (·.1)).Nodup → ∃ u v, exec .storePerformed s = .next u ∧ u.mem = s.mem ∧
        u.team? s.ev.team = some v ∧
        (s.ev.flag = false → (∀ x ∈ left, v.scrByte x.1 = x.2) ∧
          (∀ k, k ∉ left.map (·.1) → v.scrByte k = t.scrByte k) ∧ v.cnt 1 = t.cnt 1 - 1) ∧
        (s.ev.flag = true → (∀ x ∈ left, x.1 = s.ev.idx → v.scrByte x.1 = x.2) ∧
          (∀ k, k ≠ s.ev.idx → v.scrByte k = t.scrByte k) ∧ v.cnt 1 = t.cnt 1 ∧
          ∃ w, v.pendOf p.seq = some w ∧ w.kind = .sts (left.filter (·.1 != s.ev.idx)))) ∧
    (∀ (lines : List Nat) (clean drop : Bool), s.evPend = some (t, p) → t.id = s.ev.team → p.performed = false →
      t.closedBefore p.num = true → p.kind = .cctl lines clean drop → p.ctr = some 1 →
      (clean = false ∨ ∀ w ∈ (s.core t.core).wbuf, ∀ x ∈ w.bytes, lineOf x.1 ∉ lines) →
      ∃ u v, exec .storePerformed s = .next u ∧ u.mem = s.mem ∧ u.team? s.ev.team = some v ∧ v.cnt 1 = t.cnt 1 - 1 ∧
        (u.core t.core).wbuf = (s.core t.core).wbuf ∧
        (drop = true → (∀ c ∈ (u.core t.core).near, c.line ∉ lines) ∧ ∀ c ∈ (u.die (dieOfCore t.core)).far, c.line ∉ lines))

/-- R148, R150-R154: an atomic whose turn has come, a release once the accesses before it are performed, reads and updates each
lane's word in order at its home, or in the core's buffer where its scope is smaller, and delivers the old values; an acquire
then drops the copies that its scope names; those on scratch act there. -/
def Obligations.AtomicsArePerformed : Prop :=
  ∀ (s : State) (t : Team) (p : Pending) (op : AT) (cas : Bool) (ty : AtomTy) (accs : List (Acc × W64 × W64)),
    s.evPend = some (t, p) → p.performed = false → t.closedBefore p.num = true → t.acquiredBefore p.num = true →
    (∀ (sc : Scope) (o : Order) (dst : Option Dst), p.kind = .atomic op cas ty sc o dst accs →
      let pas := accs.flatMap fun a => a.1.pas.map s.norm
      let rel : Prop := o = .rel ∨ o = .acqrel
      (rel → s.releaseReady t p sc = true) →
      s.writeHeld t.part (accs.flatMap fun a => if s.atHome sc a.1.pas then a.1.pas else []) = false →
      t.readsBefore s p.num pas = false → (∀ a ∈ accs, s.atomWaits t sc a.1 = false) → s.hostOpen pas = true →
      (∀ a ∈ accs, s.atomPoison t sc a.1 = none) →
      let hides := if t.relFence = true ∨ (rel ∧ 2 ≤ sc.code) then 2 else if rel then 1 else 0
      let x := s.atomAll t sc p.seq hides (atomApply op cas ty) (4 * ty.regs) accs
      let s' := if (o = .acq ∨ o = .acqrel) ∧ x.1.plainly pas = false then x.1.acquire t sc else x.1
      exec .atomicPerformed s = .next (s'.modTeam t.id fun u => u.perform p.seq (atomWrites dst x.2))) ∧
    (∀ dst : Dst, p.kind = .atoms op cas ty dst accs → t.scratchBefore p.num = false → s.writeHeld t.part [] = false →
      (∀ q ∈ t.pend, q.num < p.num → q.performed = true) → (∀ a ∈ accs, ∀ k ∈ a.1.pas, t.scrBad k = false) →
      let x := t.atomsAll (atomApply op cas ty) (4 * ty.regs) accs
      exec .atomicPerformed s = .next (s.setTeam (x.1.perform p.seq (atomWrites (some dst) x.2))))

/-- R156, R157, R303: a contribution whose index is next is added at its home and frees those held behind it; a gap that lasts
GAPTO faults its owner at its save point. -/
def Obligations.OrderedReductions : Prop :=
  ∀ (s : State) (t : Team) (p : Pending) (a : Acc) (x idx : W32),
    (s.evPend = some (t, p) → p.kind = .rdo [(a, x, idx)] true → p.performed = false → t.closedBefore p.num = true →
      s.buffered t (a.pas.map s.norm) = false → s.hostOpen a.pas = true → s.ev.idx = 0 →
      s.addHeld a.pas = false →
      ∀ s', (s.moveLines (s.linesAt a.pas)).contribute (some (dieOfCore t.core)) false a x idx = some s' →
      exec .rdoContributionArrive s = .next ((s'.noteRdo (some t.part) a x idx).modTeam t.id fun u => u.perform p.seq [])) ∧
    (∀ l : RLine, s.rline? s.ev.slice s.ev.addr = some l → l.gap = true →
      l.since + 1000 * (s.pr l.p 0x140).toNat ≤ s.now → s.team? l.owner = some t → t.stat = .running → t.pend = [] →
      exec .gapTimeout s = .next ((s.setRline s.ev.slice s.ev.addr { l with since := s.now }).raise t
        (t.faultAt 0x15 l.va ((lowestHeld l).zeroExtend 64)))) ∧
    (∀ l : RLine, s.rline? s.ev.slice s.ev.addr = some l → l.gap = true →
      l.since + 1000 * (s.pr l.p 0x140).toNat ≤ s.now → s.team? l.owner = none →
      exec .gapTimeout s = .next (s.setRline s.ev.slice s.ev.addr { l with gapPending := true }))

/-- R159-R163, R322, R330-R335: a version load whose bytes exist returns them, when it first reaches its homes, when it wakes
or when it tries again, and fills copies of the complete versions it read; one served from copies returns theirs; `ldv.latest`
returns the highest version up to its bound with the number of that version, `vqry` the highest complete version and the
floor; a store, a release once the accesses before it are performed, records its version and frees those that waited for it; a
slice takes a floor, and `vflr` is performed when all have and every holder told has confirmed. -/
def Obligations.VersionsArePerformed : Prop :=
  ∀ (s : State) (t : Team) (p : Pending) (dst : Dst) (accs : List VAcc) (acq : Option Scope),
    let at_ (l : List VAcc) (s' : State) : State := s'.reachLines t.part (l.map (·.gran s)).eraseDups
    let home : State := at_ accs (s.freePlaces t.id (· == p.seq))
    let acquired (s' : State) : State := match acq with
      | some sc => s'.acquire t sc
      | none => s'
    let there : Prop := (acq = none ∨ s.ev.flag = false) ∧ s.vReady t p accs = true ∧
      (∀ a ∈ accs, home.vStop t p a = none) ∧ ∀ a ∈ accs, home.vThere t.part a = true
    let answered : State :=
      ((acquired (home.fillVersions t accs)).modTeam t.id fun u => u.perform p.seq (accs.flatMap fun a =>
        dst.deliver a.acc.lane (home.verBytes t.part (home.region t.part a.region) (a.gran home) a.version
          (a.bytes home)))).clearFilters
    let copy (a : VAcc) : Option LineCopy := s.verCopy t s.ev.src a
    let parked : List (Nat × TeamId × Nat) := s.parkedLoads fun _ l => l.any fun a => (accs.map s.vHome).contains (s.vHome a)
    s.evPend = some (t, p) → t.id = s.ev.team → p.seq = s.ev.seq →
    (p.kind = .ldv dst accs acq true none → (∀ a ∈ accs, s.vThere t.part a = true) → there →
      exec .ldvWake s = .next answered) ∧
    (∀ b k, p.kind = .ldv dst accs acq b (some k) → parked = [(k, t.id, p.seq)] → there →
      exec .parkedRetry s = .next answered) ∧
    (p.kind = .ldv dst accs acq false none → there → (∃ a ∈ accs, copy a = none) → parked = [] →
      exec .ldvWake s = .next answered) ∧
    (p.kind = .ldv dst accs acq false none → (acq = none ∨ s.ev.flag = false) → s.vReady t p accs = true →
      (∀ a ∈ accs, (copy a).isSome = true ∧ s.vStop t p a = none) →
      exec .ldvWake s = .next ((acquired s).modTeam t.id fun u => u.perform p.seq (accs.flatMap fun a =>
        dst.deliver a.acc.lane ((a.bytes s).map fun pa => ((copy a).map (copyByte · pa)).getD 0))).clearFilters) ∧
    (∀ ver : VAcc → W32, p.kind = .latest dst accs acq → (acq = none ∨ s.ev.flag = false) → s.vReady t p accs = true →
      let q := at_ accs s
      (∀ a ∈ accs, (q.region t.part a.region).highest (a.gran q) a.version (granMask (a.bytes q)) = some (ver a) ∧
        q.vLost t p a (ver a) = none ∧
        ((q.region t.part a.region).baseOf (a.gran q) = ver a → ∀ b ∈ a.bytes q, q.poisoned b = false)) →
      exec .loadDataReturn s = .next ((acquired q).modTeam t.id fun u => u.perform p.seq (accs.flatMap fun a =>
        let bs := q.verBytes t.part (q.region t.part a.region) (a.gran q) (ver a) (a.bytes q)
        destWrites dst.d dst.bytes a.acc.lane (leNat bs + 2 ^ (8 * bs.length) * (ver a).toNat)))) ∧
    (p.kind = .vqry dst accs → s.vReady t p accs = true →
      let q := at_ accs s
      exec .loadDataReturn s = .next (q.modTeam t.id fun u => u.perform p.seq (accs.flatMap fun a =>
        let x := q.region t.part a.region
        let top := (x.highest (a.gran q) 0xFFFF_FFFF#32 (BitVec.allOnes 64)).getD 0
        destWrites dst.d 8 a.acc.lane (top.toNat + 2 ^ 32 * (x.floorAt (q.vHome a)).toNat)))) ∧
    (∀ (w : List (VAcc × List Byte)) (rel : Option Scope) (s' : State), p.kind = .stv w rel → t.closedBefore p.num = true →
      (∀ sc ∈ rel, s.releaseReady t p sc = true) → s.turned t.part = false →
      s.hostOpen (w.flatMap fun x => x.1.bytes s) = true → s.writeHeld t.part [] = false →
      (at_ (w.map (·.1)) s).vStoreAll t.part (rel.isSome || t.relFence) w = .ok s' →
      let q := (w.map (·.1.region)).eraseDups.foldl (fun s r => s.noteRegion t.part r true) s'
      exec .versionStoreRecord s = .next ((q.freeReady.wakeParked ((w.map fun x => x.1.gran q).eraseDups)).modTeam t.id fun u =>
        u.perform p.seq [])) ∧
    (∀ (a : Acc) (r : Nat) (f : W32), p.kind = .vflr a r f → t.closedBefore p.num = true → s.hostOpen a.pas = true →
      (∀ d g, (d, g) ∈ (s.region t.part r).told → f < g) →
      (∀ sl ∈ s.regionHomes t.part (s.region t.part r), f ≤ (s.region t.part r).floorAt sl) →
      let x := s.region t.part r
      exec .vflrPerformed s = .next ((((s.setRegion t.part r { x with floor := if x.floor < f then f else x.floor }).dropVersions
        t.part r fun _ v => decide (v < f)).noteRegion t.part r true).modTeam t.id fun u => u.perform p.seq [])) ∧
    (∀ f : W32, s.ev.val = f.setWidth 64 → s.floorAsked s.ev.part s.ev.idx f = true →
      s.writeHeld s.ev.part [] = false →
      s.ev.slice ∈ s.regionHomes s.ev.part (s.region s.ev.part s.ev.idx) →
      ∃ u, exec .floorApply s = .next u ∧
        (s.region s.ev.part s.ev.idx).floorAt s.ev.slice ≤ (u.region s.ev.part s.ev.idx).floorAt s.ev.slice ∧
        f ≤ (u.region s.ev.part s.ev.idx).floorAt s.ev.slice)

/-- R164, R166-R171, R301: the lanes of `acp` stand in scratch, each padded to 32 bytes, all at once or a byte before the rest,
what is poisoned marked; a bulk copy whose row can be accessed goes on by it, or by a step of it: the row's next byte is read,
the next that was read is written, what was written is added to the arrival word; it ends with its last row, status 1 where it
carried poison; one whose pages have gone ends with status 2 and tells the supervisor, and so does, the model's own (log 141),
one whose row another device has not answered, with code 0x18. -/
def Obligations.CopiesArePerformed : Prop :=
  ∀ (s : State) (t : Team) (p : Pending) (c : Copy) (d e : Nat),
    let bad (l : List (Nat × Option Nat)) : List Nat := ((l.filter fun x => x.2.any s.poisoned).map fun x => x.1 / 32).eraseDups
    let put (was : List Nat) (l : List (Nat × Option Nat)) (u : Team) : Team :=
      (bad l).foldl (fun (u : Team) g => u.scrPoisonGr g)
        ((l.filter fun x => was.contains (x.1 / 32)).foldl (fun (u : Team) x => u.scrPoisonBit x.1)
          (l.foldl (fun (u : Team) x => u.scrPut x.1 ((x.2.map (s.engByte t.part)).getD 0)) u))
    let back (q : State) (c : Copy) : State := q.setCopies d e (c :: ((q.die d).copies e).tail)
    let here : Prop := s.ev.die = d ∧ s.ev.eng = e ∧ s.headCopy d e = some c ∧ s.oldCopy c = 0 ∧ s.back = 0
    let atRow (q : State) (f : Flight) : Prop :=
      here ∧ s.team? c.team = some t ∧ c.row < BlockWords.rows c.words ∧ s.rowOf t c = (q, .ok f) ∧
        q.flightOpen f c.waits = true
    let wholeRow (q : State) (f : Flight) : State × Copy :=
      let x := q.endFlight t f
      let y := x.1.addOwed { c with owed := c.owed + (f.len - f.put.length) }
      let bs := (List.range f.len).map fun i => x.2.got.get (0, false) i
      (y.1, { y.2 with
        fly := none
        row := c.row + 1
        bytes := c.bytes + BlockWords.rowLen c.words
        poisoned := c.poisoned || bs.any (·.2)
        read := if BlockWords.rowLen c.words * BlockWords.rows c.words ≤ 2 ^ 20 then c.read ++ [bs.map (·.1)] else [] })
    let failed (q : State) (c : Copy) (code va : Nat) : State :=
      let c := { c with fly := none }
      let a := BitVec.ofNat 64 va
      ((q.sendSup c.p [BitVec.ofNat 32 code, lo32 a, hi32 a, BitVec.ofNat 32 e]).logCopy d e c 2).copyEnd d e c 2
    (∀ (tag : Nat) (accs : List Acc) (left : List (Nat × Option Nat)) (was : List Nat) (ws : List (TeamId × Nat)),
      s.evPend = some (t, p) → p.kind = .acp tag accs left was ws →
      p.performed = false → t.closedBefore p.num = true → t.tagBefore p.num tag = false →
      s.hostOpen (accs.flatMap (·.pas)) = true → s.unobserved ws (accs.flatMap (·.pas)) = false →
      s.oldPend t.part t.id p.seq = 0 → s.back = 0 → s.writeHeld t.part [] = false →
      (s.ev.flag = false →
        exec .acpPerformed s = .next (s.modTeam t.id fun u => ((put was left u).subTag tag).perform p.seq [])) ∧
      (∀ x, s.ev.flag = true → left[s.ev.idx]? = some x → (∀ y ∈ left.take s.ev.idx, y.1 ≠ x.1) →
        exec .acpPerformed s = .next (s.modTeam t.id fun u => (put was [x] u).modPend p.seq fun q => { q with
          kind := .acp tag accs (left.eraseIdx s.ev.idx) (was ++ bad [x]) ws }))) ∧
    (∀ (q : State) (f : Flight), atRow q f → s.ev.flag = true → s.ev.idx = 0 →
      exec .bcpComplete s = .next (back q { c with fly := some (q.fetchFlight t f [f.got.length]) })) ∧
    (∀ (q : State) (f : Flight), atRow q f → q.flightHeld c.p f = false → s.ev.flag = true → s.ev.idx = 1 →
      f.put.length < f.got.length → (copyOverlaps c.words f = false ∨ f.len ≤ f.got.length) →
      exec .bcpComplete s = .next (back (q.landFlight t f [f.put.length]).1 { c with
        fly := some (q.landFlight t f [f.put.length]).2
        owed := c.owed + 1 })) ∧
    (∀ (q : State) (f : Flight), atRow q f → s.ev.flag = true → s.ev.idx = 2 →
      exec .bcpComplete s = .next (back (s.addOwed c).1 (s.addOwed c).2)) ∧
    (∀ (q : State) (f : Flight), atRow q f → q.flightHeld c.p f = false → s.ev.flag = false → s.ev.idx = 1 →
      c.row + 1 < BlockWords.rows c.words →
      exec .bcpComplete s = .next (back (wholeRow q f).1 (wholeRow q f).2)) ∧
    (∀ (q : State) (f : Flight), atRow q f → q.flightHeld c.p f = false → s.ev.flag = false → s.ev.idx = 1 →
      c.row + 1 = BlockWords.rows c.words →
      let z := (wholeRow q f).2
      let st := if z.poisoned then 1 else 0
      exec .bcpComplete s = .next (((back (wholeRow q f).1 z).logCopy d e z st).copyEnd d e z st)) ∧
    (here → s.ev.flag = false → ∀ s' c' b, s.runRows c (BlockWords.rows c.words) = (s', c', some b) →
      exec .bcpTranslationFail s = .next (failed s' c' b.code b.addr)) ∧
    (here → s.ev.flag = true → ∀ f va, c.fly = some f → f.firstOn s.isPeer = some va →
      exec .bcpTranslationFail s = .next (failed s c 0x18 va))

/-- R194-R197, R307-R312: the oldest tile, in flight or one whose ring has a slot and whose rows translate, moves, and its run
goes on or ends; a byte of one of up to eight tiles in flight is read before the rest, and of the oldest written; the oldest
faults the engine where it fails, or where another device has not answered it (R386). -/
def Obligations.TilesArePerformed : Prop :=
  ∀ (s s' : State) (u : Team) (e : Engine) (r : Run), s.working s.ev.team s.ev.eng = some (u, e, r) →
    let g : Nat := s.ev.eng
    let j : Nat := s.ev.idx
    let i : Nat := s.ev.addr
    let started (f : Flight) : Prop := j < 8 ∧ j ≤ e.fly.length ∧ (e.st = .stopping → j < e.fly.length) ∧
      s.tileAt u e j = (s', .goes f) ∧ s'.oldTile u g j e = 0
    let free (f : Flight) : Prop := State.flightHeld { s' with back := 0 } u.part f = false
    (∀ f, s.ev.flag = false → s.tileAt u e 0 = (s', .goes f) → s'.oldTile u g 0 e = 0 → free f →
      exec .streamTileComplete s = .next (s'.asOld 0 fun q =>
        (q.moveTile u r f).modWork u.part u.id fun v => v.tileDone g)) ∧
    (∀ f, s.ev.flag = true → started f → (j ≠ 0 ∨ f.got.get? i = none) →
      exec .streamTileComplete s = .next (s'.asOld 0 fun q =>
        q.modWork u.part s.ev.team fun v => v.setFlight g j (q.fetchFlight u f [i]))) ∧
    (∀ f, s.ev.flag = true → started f → j = 0 → f.got.get? i ≠ none → free f →
      exec .streamTileComplete s = .next (s'.asOld 0 fun q =>
        (q.landFlight u f [i]).1.modWork u.part s.ev.team fun v => v.setFlight g 0 (q.landFlight u f [i]).2)) ∧
    (∀ code info, s.tileAt u e 0 = (s', .fails code info) → s'.oldTile u g 0 e = 0 →
      exec .streamEngineFault s = .next (s'.asOld 0 fun q => q.modWork u.part s.ev.team fun v => v.tileFails g code info)) ∧
    (∀ f va, s.ev.flag = true → s.tileNext u e 0 = (s', .goes f) → f.put = [] → f.firstOn s'.isPeer = some va →
      s'.oldTile u g 0 e = 0 →
      exec .streamEngineFault s = .next (s'.asOld 0 fun q => q.modWork u.part s.ev.team fun v => v.tileFails g 0x18 va))

/-! ## Records and the Mill (R206, R243-R276) -/

/-- R206, R207, R260, R273: a record on its way enters its queue unless one before it of the same team to the same node is still on
its way or waits; an emission all of whose records stand is performed; an arrival enters with its bound when the account has room
and is refused for good where its node does not exist, or when its time is over. -/
def Obligations.RecordsTravel : Prop :=
  ∀ (s : State) (f : Flying) (a : Arrival) (c : Nat),
    let p := s.ev.part
    let i := s.ev.idx
    ((s.part p).flying[i]? = some f → (s.part p).frozen = false → (s.part p).flyWaits i f = false →
      let s' := (s.enterQueue p f.gslot f.node f.w f.credit f.rel).modPart p fun x => { x with flying := x.flying.eraseIdx i }
      exec .recordEnqueue s = .next (match f.kind with
        | .emit t seq => s'.emitLess t seq
        | .charged => s')) ∧
    (∀ t q, s.evPend = some (t, q) → q.kind = .emit 0 →
      exec .emitPerformed s = .next (s.modTeam t.id fun u => u.perform q.seq [])) ∧
    ((s.part p).held[i]? = some a → a.late s = false → (s.part p).arrivalWaits i a = false → s.outward a = none →
      (s.fate p a.gslot a.node a.w = .enters c →
        exec .arrivalRetry s = .next ((((s.enterQueue p a.gslot a.node a.w c a.rel).modPart p fun x => { x with
          held := x.held.eraseIdx i }).noteOldCopy p a c).arrivalDone a)) ∧
      (s.fate p a.gslot a.node a.w = .never → exec .arrivalRetry s =
        .next ((s.setPart p { s.part p with held := (s.part p).held.eraseIdx i }).arrivalLost p a))) ∧
    ((s.part p).held[i]? = some a → a.late s = true → exec .arrivalRetry s =
      .next ((s.setPart p { s.part p with held := (s.part p).held.eraseIdx i }).arrivalLost p a))

/-- R250, R252, R261-R270, R276, R382, R390: the Mill gives a decision to the partition whose round it is and to the first queue
in order: it launches a team there, noted as the last at level 7 where that is its level; a queue gathers until its age or its
count is reached or no record can reach it any more, and has its priority when it leaves EMPTY; when its interval is over a
tick raises the levels of full queues of its die; an instance that has become idle ends: each watch of the graph is answered
by a report, and the next instance begins. -/
def Obligations.MillDecides : Prop :=
  ∀ (s : State) (p left g n k ctx : Nat) (c : Nat) (y : Node) (x : Graph) (r : QRec) (q : List QRec),
    (s.nextPart s.ev.die = some (p, left) → y.q = r :: q →
      let s0 := s.modDie s.ev.die fun z => { z with
        roundPart := p
        roundLeft := left }
      let s' := if y.level = 7 then s0.modDie s.ev.die fun z => { z with last7 := z.last7.put p (g, n) } else s0
      s0.nextQueue s.ev.die p = some (g, n, y) → s'.graph? p g = some x → s'.freeCtx p = some ctx → s'.serialBusy p = false →
      s'.choosePlace (y.need p (y.taken.map (s'.recWords p))) (s'.candidates p (some (g, n))) (recAff (s'.recWords p r)) =
        some (c, k) →
      exec .admissionDecision s = .next (s'.launch p g n x y c k ctx)) ∧
    (∃ u, exec .coalesceTimeout s = .next u ∧ u.mem = s.mem ∧ u.teams = s.teams ∧ ∀ (gr : Graph) (nd : Node),
      (s.part s.ev.part).frozen = false → (s.part s.ev.part).freezing = false → s.graph? s.ev.part g = some gr →
      gr.nodes.get? n = some nd → ∃ gr' nd', u.graph? s.ev.part g = some gr' ∧ gr'.nodes.get? n = some nd' ∧ nd'.q = nd.q ∧
        (nd.q = [] → nd'.st = .empty) ∧
        (∀ r ∈ nd.q.head?,
          let due : Prop := nd.perTeam = true ∨ nd.width ≤ nd.q.length ∨ r.at_ + 100 * nd.coal ≤ s.now
          let dry : Prop := s.drainedUp s.ev.part g gr n = true
          nd'.st = (if dry ∨ (nd.gall = false ∧ due) then .ready else .gather)) ∧
        nd'.level = (if (nd.st = .empty ∨ nd.st = .frozen) ∧ nd'.st ≠ nd.st then nd.prio else nd.level)) ∧
    (s.nextTick s.ev.die s.ev.part ≤ s.now → s.staggered s.ev.part = false → ∀ (gr : Graph) (nd : Node),
      (s.part s.ev.part).graphs.get? g = some gr → gr.nodes.get? n = some nd → nd.st = .ready → nd.home = s.ev.die →
      ∃ u, exec .agingTick s = .next u ∧ ∃ gr' nd', (u.part s.ev.part).graphs.get? g = some gr' ∧
        gr'.nodes.get? n = some nd' ∧ nd'.full = true ∧ nd'.level = (if nd.full then min 7 (nd.level + 1) else nd.level)) ∧
    (∀ gr : Graph, s.graph? s.ev.part s.ev.gslot = some gr →
      (gr.active = true → s.graphBusy s.ev.part s.ev.gslot = false → s.turned s.ev.part = false →
        (s.part s.ev.part).reports.length + gr.watch.length ≤ 64 → ∃ u gr', exec .instanceEnd s = .next u ∧
          u.graph? s.ev.part s.ev.gslot = some gr' ∧ gr'.inst = gr.inst + 1 ∧ gr'.active = false ∧ gr'.watch = [] ∧
          (u.part s.ev.part).reports = (s.part s.ev.part).reports ++
            gr.watch.map fun tag => ⟨3, 0, s.ev.gslot, gr.inst, tag, s.pr s.ev.part 0x150⟩) ∧
      (gr.active = false ∨ s.graphBusy s.ev.part s.ev.gslot = true → exec .instanceEnd s = .next s))

/-- R172, R285, R286: a lease past its time is gone, and cached copies of a line leave at any time. -/
def Obligations.TimersRun : Prop :=
  ∀ (s : State) (l : Lease),
    (l.until_ ≤ s.now → l.base.toNat = s.ev.addr →
      ∃ u, exec .leaseExpire s = .next u ∧ l ∉ (u.part s.ev.part).leases ∧ u.mem = s.mem ∧
        ∀ k ∈ (s.part s.ev.part).leases, k.base.toNat ≠ s.ev.addr → k ∈ (u.part s.ev.part).leases) ∧
    (∃ u, exec .nearCopyExpire s = .next u ∧ ((u.core s.ev.core).near.all fun c => c.line != s.ev.addr) = true ∧
      u.mem = s.mem ∧ (u.core s.ev.core).wbuf = (s.core s.ev.core).wbuf) ∧
    (∃ u, exec .farCopyExpire s = .next u ∧ ((u.die s.ev.die).far.all fun c => c.line != s.ev.addr) = true ∧ u.mem = s.mem)

/-! ## Arrays, partitions, units, the module -/

/-- R317-R320, R416-R418: the head of an array's queue is performed where no governor is on, or none limits it, its clocks
counted then, and a store of scratch not while writes wait; a K-step may read a byte before that; an array idle for GDLY µs
gates, an issue wakes it; a window makes GOVCTL count; a replay ends and the die's cores go on. -/
def Obligations.ArraysRun : Prop :=
  ∀ (s : State) (t : Team) (m : Matrix) (e : MEntry) (r : List MEntry),
    let c := s.ev.core
    let k := s.ev.slot
    let mayStore : Prop := e.op.stores = false ∨ s.writeHeld t.part [] = false
    (s.ev.flag = false → mayStore →
      s.team? s.ev.team = some t → t.mtx = some m → m.queue = e :: r → t.stat ≠ .saved → s.govOn (dieOfCore t.core) = true →
      s.govLimit (dieOfCore t.core) = none → (s.arr t.core t.slot).blocked = none → (s.arr t.core t.slot).gated = false →
      let left := e.op.steps - e.started
      exec .matrixEntryPerformed s = .next ((s.setArr t.core t.slot { s.arr t.core t.slot with
        used := (s.arr t.core t.slot).used + left * e.op.clocks
        blocked := none }).entryDone t m e)) ∧
    (s.ev.flag = false → mayStore →
      s.team? s.ev.team = some t → t.mtx = some m → m.queue = e :: r → t.stat ≠ .saved → s.govOn (dieOfCore t.core) = false →
      (s.arr t.core t.slot).blocked = none → ((s.arr t.core t.slot).gated = false ∨ e.op.datapath = false) →
      exec .matrixEntryPerformed s =
        .next ((s.setArr t.core t.slot { s.arr t.core t.slot with blocked := none }).entryDone t m e)) ∧
    (∀ (set : Bool) (b n boff : Nat) (rows : Table Byte) (w : List W64), s.ev.flag = true → s.team? s.ev.team = some t →
      t.id = s.ev.team → t.mtx = some m → m.queue = e :: r → t.stat ≠ .saved → (s.arr t.core t.slot).gated = false →
      (s.arr t.core t.slot).blocked = none → s.oldEntry t = 0 → s.back = 0 → e.op = .mul set b n boff rows w → s.ev.idx < n →
      s.ev.addr ∈ kAddrs w boff s.ev.idx →
      exec .matrixEntryPerformed s = .next (s.modTeam t.id fun u => { u with mtx := some { m with
        queue := { e with got := e.got.put (2 ^ 32 * s.ev.idx + s.ev.addr) (t.kByte e.got s.ev.idx s.ev.addr) } :: r } })) ∧
    ((s.arr c k).gated = false → s.mgmt.filler = false → (s.mr 0x190).toNat ≠ 0 →
      ((s.arrTeam c k).all fun t => t.arrayQuiet) = true →
      max (max (s.arr c k).idleSince s.mgmt.fillEnd) (s.mr 0x1_0190).toNat + 1000 * (s.mr 0x190).toNat ≤ s.now →
      ∃ u, exec .arrayGate s = .next u ∧ (u.arr c k).gated = true ∧ (u.arr c k).waking = false) ∧
    ((s.arr c k).gated = true → (s.arr c k).waking = true →
      ∃ u, exec .arrayWake s = .next u ∧ (u.arr c k).gated = false ∧ (u.arr c k).idleSince = s.now) ∧
    (s.ev.die < 4 → ∃ u, exec .governorWindow s = .next u ∧ u.mr (govKey s.ev.die) = s.mr (0x198 + s.ev.die) ∧
      ∀ j < 12, ∀ n < 8, (u.arr (12 * s.ev.die + j) n).used = 0 ∧ (u.arr (12 * s.ev.die + j) n).blocked = none) ∧
    ((s.rpl s.ev.die).state = 3 → ∃ u, exec .replayDone s = .next u ∧ (u.rpl s.ev.die).halted = false ∧
      (u.rpl s.ev.die).state ≠ 3)

/-- R359-R366, R389, R427: a cut takes the next number; the oldest open checkpoint commits when its work is performed, CKPTNUM
its number, and what was held of the epochs before it leaves: stores to memory, records for other devices, reports; a turn
begins with the next member that has work and ends with no member on its turn; a rollback is counted; the safe tier holds a checkpoint once its bytes are there, and gives it back. -/
def Obligations.CheckpointsAndTurns : Prop :=
  ∀ (s : State) (c : Snap) (cs : List Snap) (at_ : Nat) (g : Option Nat),
    let p := s.ev.part
    let out := (s.part p).egress.filter fun (e, _) => decide (e < c.num)
    (s.cutDue p s.ev.flag = some (at_, g) →
      ∃ u q, exec .checkpointCut s = .next u ∧ (u.part p).epoch = (s.part p).epoch + 1 ∧
        (u.part p).cuts = (s.part p).cuts ++ [q] ∧
        q.num = (s.part p).epoch + 1 ∧ q.at_ = at_ ∧ q.grid = g.isSome ∧ (s.safeAsked p = false → (u.part p).ckReq = false) ∧
        u.mem = s.mem) ∧
    ((s.part p).cuts = c :: cs → s.turnOver p ≠ some .commit → s.turnOver p ≠ some .idle →
      (c.teams.all fun (_, t) => s.teamSettled t) = true → s.emissionsSettled p c = true → s.buffersSettled p c.num = true →
      s.copiesSettled p = true → s.hostReady p c.num = true → (∀ x ∈ s.slices, x.2.waits = []) →
      ∃ u, exec .checkpointCommit s = .next u ∧ u.pr p 0x151 = BitVec.ofNat 64 c.num ∧ (u.part p).cuts = cs ∧
        (u.part p).undo = (s.part p).undo.filter (fun x => decide (c.num ≤ x.epoch)) ∧
        (u.part p).egress = (s.part p).egress.filter (fun (e, _) => decide (c.num ≤ e)) ∧
        ((∀ x ∈ out, (∀ r v l, x.2 ≠ .version r v l) ∧ ∀ a b, x.2 = .store a b → s.norm a = a) →
          ∀ a, u.memByte a = (heldByte (s.norm a) out).getD (s.memByte a)) ∧
        (∀ e dev die gs n from_ w tm, (e, Egress.record dev die gs n from_ w tm) ∈ out →
          ⟨.released dev die tm, gs, n, w, s.now + 1000 * s.preg p 10, from_, none⟩ ∈ (u.part p).held) ∧
        ((s.part p).reports.length + out.length ≤ 64 → ∀ e r, (e, Egress.report r) ∈ out → r ∈ (u.part p).reports)) ∧
    (s.ev.flag = false → (s.part p).safeRun = some c → (s.safeTarget p ≠ 2 ∨ s.mgmt.held = true) →
      (s.safeTarget p ≠ 1 ∨ s.linkReady = true) →
      ∃ u d, exec .safeCheckpointHold s = .next u ∧ u.pr p 0x15A = BitVec.ofNat 64 c.num ∧ (u.part p).safeRun = none ∧
        (u.part p).halves.get? (u.part p).safeHalf.toNat = some d ∧ d.num = c.num ∧ d.teams = c.teams) ∧
    ((s.part p).restoring = true → (s.part p).frozen = true → s.safeSnap p = some c →
      ∃ u, exec .safeRestoreDone s = .next u ∧ (u.part p).restoring = false ∧ (u.part p).cleared = true ∧
        (u.pr p 0x201E).getLsbD 63 = true ∧ (u.part p).leases = c.leases) ∧
    ((∀ q, s.sameGroup p q = true → (s.part q).onTurn = false) → (s.turnOrder p).head? = some p → p ≤ 16 →
      ∃ u, exec .turnStart s = .next u ∧ (u.part p).onTurn = true ∧ (u.part p).turnStart = s.now ∧
        (u.part p).turnEnd = s.now + s.tlen p) ∧
    ((s.turnOver p = some .commit ∨ s.turnOver p = some .idle) → s.othersWork p = true →
      ∃ u, exec .turnEnd s = .next u ∧ (u.part p).onTurn = false ∧ (u.part p).rolled = false) ∧
    (s.turnOver p = some .late → s.othersWork p = true → (s.part p).rolled = false →
      exec .rollback s = .next (((s.toCommitted p false).bump p 0x158 1).modPart p fun x => { x with rolled := true }))

/-- R340, R350, R351, R365, R368, R369: a freezing partition whose teams are saved, or at rest at their save points, is frozen,
every register they hold in its context block; a reset of it leaves no team, graph, lease or queue and LOSTREC zero; a team
whose core leaves is saved once it is at rest and fenced, and stops issuing before that; it is restored when its turn and a
place have come, as what it was; its redirected arrival additions come first. -/
def Obligations.PartitionsStopAndMove : Prop :=
  ∀ (s s1 : State) (t t1 : Team) (off n : Nat) (r : List (TeamId × Nat × Nat)),
    let p := s.ev.part
    let onSlot (x : Team) : Prop := x.part = p ∧ x.stat = .running ∧ x.pend = []
    ((s.part p).freezing = true → s1 = s.toSavePoints p →
        (s1.teams.all fun (_, x) => x.part != p || x.stat == .saved || s1.atRest x) = true →
      ∃ u, exec .freezeComplete s = .next u ∧ (u.part p).frozen = true ∧ (u.part p).freezing = false ∧
        (u.part p).gtFrz = s.gtime p ∧
        ((∀ x ∈ s1.teams, s1.team? x.2.id = some x.2) → s1.team? t.id = some t → onSlot t →
          ∃ v, u.team? t.id = some v ∧ v.stat = .running ∧ v.r.pc = t.r.pc ∧ v.r.s = t.r.s ∧
            ∀ k g, v.r.entry k g = .absent ↔ t.r.entry k g ≠ .none) ∧
        (s1.teams = [(t.id.toNat, t)] → onSlot t → (∀ e ∈ t.engines, e.fly = []) → (t.r.v.map (·.1)).Nodup →
          let base := s.ctxBase t + 0x1_0000
          (∀ x ∈ t.r.v, ∀ i < 128, s.norm (base + 128 * x.1 + i) = base + 128 * x.1 + i) →
          ∀ k g, (k, VEnt.mapped g) ∈ t.r.v → ∀ i < 128, u.memByte (base + 128 * k + i) = g.extractLsb' (8 * i) 8)) ∧
    ((s.part p).frozen = true → (s.part p).resetReq = true →
      ∃ u, exec .partitionClearDone s = .next u ∧ (u.teams.all fun (_, t) => t.part != p) = true ∧
        (u.part p).graphs = [] ∧ (u.part p).leases = [] ∧ (u.part p).regions = [] ∧ (u.part p).flying = [] ∧
        (u.part p).cuts = [] ∧ (u.part p).egress = [] ∧ (u.part p).rings = (s.part p).rings ∧
        u.pr p 0x150 = 0 ∧ (u.part p).cleared = true ∧ (u.part p).resetReq = false) ∧
    (s.team? s.ev.team = some t → t.id = s.ev.team → t.stat ≠ .saved → s.coreLeaves t = true → s.toSavePoint t = (s1, t1) →
      let m := { t1 with migr := true }
      (s1.atRest m = true → s1.fenced m = true →
        ∃ u v, exec .teamMigrate s = .next u ∧ u.team? t.id = some v ∧ v.stat = .saved ∧ v.migr = true ∧
          ((∀ e ∈ t1.engines, e.fly = []) → v.was = t1.stat ∧ (t1.pend = [] → v.r.pc = t1.r.pc ∧ v.r.s = t1.r.s))) ∧
      ((s1.atRest m = false ∨ s1.fenced m = false) → exec .teamMigrate s = .next (s1.setTeam m))) ∧
    (s.team? s.ev.team = some t → t.id = s.ev.team → s.mayRestore t = true →
      ∀ c k, s.ruleTwo (t.need s) (s.candidates t.part none) = some (c, k) →
        (t.was = .running → t.pcSet = false ∧ (t.r.cl.isSome = true ∨ t.r.blocks = 0 ∧ ∀ e ∈ t.r.stack.head?, e.rc ≠ t.r.pc)) →
      ∃ u v, exec .teamRestore s = .next u ∧ u.team? t.id = some v ∧ v.stat = t.was ∧ v.core = c ∧ v.slot = k ∧
        v.migr = false ∧ v.r = t.r ∧ v.scr = t.scr) ∧
    ((s.part p).redirect = [] → exec .arrivalRedirect s = .next s) ∧
    ((s.part p).redirect = (t.id, off, n) :: r → s.team? t.id = none →
      exec .arrivalRedirect s = .next (s.modPart p fun x => { x with redirect := r })) ∧
    ((s.part p).redirect = (t.id, off, n) :: r → s.team? t.id = some t →
      let s' := s.modPart p fun x => { x with redirect := r }
      exec .arrivalRedirect s = .next ((s'.setTeam (t.engineArrive off n)).writePhys (s'.imageBase (t.engineArrive off n) +
        0x1_8000 + off) ((t.engineArrive off n).scrRead off 16)))

/-- R290, R348-R354, R357: a lend ends when its windows have closed; of a revocation each core that is empty and each slice
that the sweep has emptied is the lender's again, of a resize or where it has failed partition 0's, as is each group whose last
leaf has moved; a line of a window moves with its reduction state, or, without state and clean or of a slice that leaves for
good, is dropped; a window closes with its last; a page moves with its leaf, and a leaf of 8 GiB in an outgoing group, which no
migration moves, refuses the resize; a shoot-down or a change of root ends its team's hold, or the host's access, when what
used the dropped entries is performed. -/
def Obligations.UnitsMove : Prop :=
  ∀ (s : State) (o : UnitOp) (w : DWin) (t : Team) (ws : List (TeamId × Nat)),
    let i := s.ev.idx
    (s.ops.get? i = some o → o.kind = .lend → s.windowed o.p = false → s.windowed o.src = false →
      exec .plendDone s = .next (s.opEnd i o 1 (s.members [o.p, o.src]))) ∧
    let emptied (c : Nat) : Prop := s.residents c = [] ∧ (s.core c).wbuf = []
    let swept (q l : Nat) : Prop := s.windowedOn o.p (dieOfSlice l) = false ∧ s.windowedOn q (dieOfSlice l) = false
    (s.ops.get? i = some o → o.kind = .revoke → ∃ u, exec .prevokeDone s = .next u ∧
      (∀ c ∈ bitList 48 o.outCores, emptied c → u.coreHolderOf c = o.src) ∧
      ∀ l ∈ bitList 96 o.outSlices, swept o.src l → u.sliceHolderOf l = o.src) ∧
    (s.ops.get? i = some o → o.kind = .fail → ∃ u, exec .prevokeDone s = .next u ∧
      (∀ c ∈ bitList 48 o.outCores, emptied c → u.coreOwnerOf c = 0 ∧ u.coreHolderOf c = 0) ∧
      ∀ l ∈ bitList 96 o.outSlices, swept 0 l → u.sliceOwnerOf l = 0 ∧ u.sliceHolderOf l = 0) ∧
    (s.ops.get? i = some o → o.kind = .resize → ∃ u, exec .presizeDone s = .next u ∧
      (∀ c ∈ bitList 48 o.outCores, emptied c → u.coreOwnerOf c = 0 ∧ u.coreHolderOf c = 0) ∧
      (∀ l ∈ bitList 96 o.outSlices, swept 0 l → u.sliceOwnerOf l = 0 ∧ u.sliceHolderOf l = 0) ∧
      ∀ g ∈ without (s.ownGroups o.p) (bitList 128 (UnitBlock.groups o.words)),
        (s.hostLeaves o.p).any (leafIn g) = false → u.groupOwnerOf g = 0) ∧
    (∀ l, s.wins.get? i = some w → (s.leftIn w).contains s.ev.addr = true → s.oldHome s.ev.addr = some l →
      let goes : Prop := (s.ev.flag = true ∨ s.revoked l = true ∨ s.homeSlice (64 * s.ev.addr) = none) ∧
        s.hasState l s.ev.addr = false
      (goes → exec .dualHashSweep s = .next ((s.evictLine s.ev.addr).dropCached l s.ev.addr)) ∧
      (¬ goes → exec .dualHashSweep s = .next (s.moveLine s.ev.addr)) ∧
      (∀ n x, s.homeSlice (64 * s.ev.addr) = some n → s.roomAt l n s.ev.addr = true → s.rline? l s.ev.addr = some x →
        ∃ u, exec .dualHashSweep s = .next u ∧ u.rline? n s.ev.addr = some x ∧ u.rline? l s.ev.addr = none)) ∧
    (s.wins.get? i = some w → s.leftIn w = [] → ∃ u, exec .windowClose s = .next u ∧ u.wins.get? i = none ∧
      u.slices = s.slices ∧ u.mem = s.mem) ∧
    (∀ a e size g h, s.ops.get? i = some o → (s.hostLeaves o.p).find? (fun l => l.1 == s.ev.addr) = some (a, e, size) →
      o.groups.find? (fun q => leafIn q.1 (a, e, size)) = some (g, h) → size = 2 ^ 18 →
      let f : Frame := ⟨pteAddr e, shiftGroup g h (pteAddr e), 2 ^ 18⟩
      s.frameQuiet o.p f = true → s.frameRoom f = true →
      ∃ u, exec .pageMigrate s = .next u ∧
        u.mem = ((s.moveFrame o.p f).writePhys a
          (le8 (BitVec.ofNat 64 (e.toNat - pteAddr e + shiftGroup g h (pteAddr e))))).mem) ∧
    (∀ a e size, s.ops.get? i = some o → (s.hostLeaves o.p).find? (fun l => l.1 == s.ev.addr) = some (a, e, size) →
      size ≠ 2 ^ 18 → exec .pageMigrate s = .next s) ∧
    (∀ bw at_, let q := UnitBlock.p bw
      let out := without (s.ownGroups q) (bitList 128 (UnitBlock.groups bw))
      (∀ c ∈ without (bitList 48 (UnitBlock.cores bw)) (s.ownCores q),
        s.coreOwnerOf c = 0 ∧ s.coreHolderOf c = 0 ∧ s.coreReady c = true) →
      (∀ l ∈ without (bitList 96 (UnitBlock.slices bw)) (s.ownSlices q),
        s.sliceOwnerOf l = 0 ∧ s.sliceHolderOf l = 0 ∧ s.sliceReady l = true) →
      (∀ g ∈ without (bitList 128 (UnitBlock.groups bw)) (s.ownGroups q), s.groupOwnerOf g = 0 ∧ s.groupReady g = true) →
      (∃ l ∈ s.hostLeaves q, l.2.2 = 2 ^ 33 ∧ ∃ g ∈ out, leafIn g l = true) →
      s.unitOp .resize bw at_ = s.putWord7 at_ (word7 0 2 2)) ∧
    (s.ev.flag = true → s.mgmt.syswait = some (.pgret ws) → s.gone ws = true → exec .pgretDone s = .next { s with
      mgmt := { s.mgmt with
        syswait := none
        syssel := s.mgmt.syssel &&& ~~~(1#64 <<< 63) } }) ∧
    (s.ev.flag = false → s.team? s.ev.team = some t → t.holdOn = some (.pgret ws) → s.gone ws = true →
      exec .pgretDone s = .next ((s.setTeam { t with holdOn := none }).moveOn t)) ∧
    (s.ev.flag = false → s.team? s.ev.team = some t → t.holdOn = some (.rootDrop ws) → s.gone ws = true →
      exec .rootDropDone s = .next ((s.setTeam { t with holdOn := none }).moveOn t))

/-- R370, R377, R384, R421-R431: damage poisons its granule and marks its frame, which then moves to a spare and is told to its
owner; a unit that fails is marked, its teams are killed, and it leaves its holder; the control plane has one holder; PWRCTL
takes a value in range, and power is measured anew each µs; the firmware's governor comes and goes; functions are there once their image verifies; a report is signed. -/
def Obligations.ModuleManagement : Prop :=
  ∀ (s : State) (r : List Byte),
    let g := s.ev.addr
    let k := s.ev.port
    (32 * g < localTop → ∃ u, exec .uncorrectableError s = .next u ∧ u.poison.get 0 g = 0xFFFF_FFFF#32 ∧
      (∃ l, u.retiring.get? (frameOf (32 * g)) = some (g :: l)) ∧ u.mem = s.mem) ∧
    (∀ lost, s.retiring.get? g = some lost → s.spares.get 0 (groupOf (g * pageBytes)) < 31 →
      ∃ u, exec .pageRetireDone s = .next u ∧ u.retiring.get? g = none ∧
        (∃ l, u.lostFirst.get? g = some l ∧ ∀ x ∈ lost, x ∈ l) ∧
        u.spares.get 0 (groupOf (g * pageBytes)) = s.spares.get 0 (groupOf (g * pageBytes)) + 1) ∧
    (s.ev.flag = false → s.ev.core < 48 → s.mgmt.failedCores.getLsbD s.ev.core = false → ∃ u, exec .unitFail s = .next u ∧
      u.mgmt.failedCores.getLsbD s.ev.core = true ∧ u.mgmt.replReq = true ∧
      (∃ o, u.ops.get? s.nops = some o ∧ o.kind = .fail ∧ o.p = s.coreHolderOf s.ev.core ∧ o.outCores = 2 ^ s.ev.core) ∧
      ∀ t ∈ s.residents s.ev.core, ∃ v, u.team? t.id = some v ∧ v.stat = .killing 0x40) ∧
    (s.ev.flag = true → s.ev.slice < 96 → s.mgmt.failedSlices.getLsbD s.ev.slice = false → ∃ u, exec .unitFail s = .next u ∧
      u.mgmt.failedSlices.getLsbD s.ev.slice = true ∧ u.mgmt.replReq = true ∧
      ∃ o, u.ops.get? s.nops = some o ∧ o.kind = .fail ∧ o.p = s.sliceHolderOf s.ev.slice ∧ o.outSlices = 2 ^ s.ev.slice) ∧
    (((s.ev.flag = false ∧ s.mgmt.failedCores.getLsbD s.ev.core = true) ∨
      (s.ev.flag = true ∧ s.mgmt.failedSlices.getLsbD s.ev.slice = true)) → exec .unitFail s = .next s) ∧
    (k < 16 → ∃ u, exec .ualinkDegrade s = .next u ∧ u.mgmt.degraded.getLsbD k = true ∧ u.mgmt.replReq = true) ∧
    (s.portReady k = true → s.mgmt.held = false → ∃ u, exec .cpsemAcquire s = .next u ∧ u.mgmt.held = true ∧
      u.mgmt.holder = k ∧ u.mgmt.hostReads = s.mgmt.hostReads ++ [leBytes 8 3]) ∧
    (s.portReady k = true → s.mgmt.held = true → s.mgmt.holder ≠ k → ∃ u, exec .cpsemAcquire s = .next u ∧
      u.mgmt.holder = s.mgmt.holder ∧ u.mgmt.hostReads = s.mgmt.hostReads ++ [leBytes 8 1]) ∧
    (s.mgmt.held = true → s.mgmt.holder = k → ∃ u, exec .cpsemRelease s = .next u ∧ u.mgmt.held = false) ∧
    (s.mgmt.held = true → s.mgmt.holder = k → ∃ u, exec .controlLinkLoss s = .next u ∧ u.mgmt.held = false) ∧
    (pwrctlOk s.ev.val = true → (if s.ev.flag = true then s.mgmt.held = false else s.manages = true) →
      exec .pwrctlWrite s = .next { s with mgmt := { s.mgmt with pwrctl := s.ev.val } }) ∧
    (let us := s.mgmt.ticks + 1
     1000 * us ≤ s.now → ∃ u, exec .powerTick s = .next u ∧
      u.mgmt.env = s.mgmt.envelope (Config.powerDemand (1000 * us)) ∧
      u.mgmt.pwr = (Config.powerMeasured (1000 * us)).getD s.mgmt.pwr ∧ u.mgmt.ticks = us ∧ u.mem = s.mem ∧
      u.mgmt.filler = (decide (1000 * Config.powerDemand (1000 * us) < u.mgmt.env) && !s.mgmt.fwgov && s.idleArray) ∧
      u.mgmt.fillEnd = if s.mgmt.filler then 1000 * us else s.mgmt.fillEnd) ∧
    (s.mgmt.fwgov = false → ∃ u, exec .fwgovEngage s = .next u ∧ u.mgmt.fwgov = (s.powerLost || s.powerOver) ∧
      if (s.powerLost || s.powerOver) = true then ∀ d < 4, u.mr (0x198 + d) = s.mgmt.fwGovctl else u = s) ∧
    (s.mgmt.fwgov = true → ∃ u, exec .fwgovRelease s = .next u ∧ u.mgmt.fwgov = !s.powerFine) ∧
    (s.manages = true → s.mgmt.ready.getLsbD 40 = true → ∃ u, exec .attctlSign s = .next u ∧ u.mgmt.attctl = 1 ∧
      u.mgmt.signing = some s.mgmt.report) ∧
    (s.mgmt.signing = some r → ∃ u, exec .attestDone s = .next u ∧ u.mgmt.attctl = 3 ∧
      u.mgmt.attrep = r ++ leBytes 29792 (Config.signature r).toNat) ∧
    (s.ev.idx ≤ 40 → s.ev.idx ≠ 3 → (s.ev.idx = 0 ∨ s.mgmt.ready.getLsbD 0 = true) →
      ∃ u, exec .firmwareVerify s = .next u ∧
        if Config.imageVerifies s.ev.bytes = true then
          u.mgmt.ready.getLsbD s.ev.idx = true ∧ u.mgmt.measCount = s.mgmt.measCount + 1
        else u.mgmt.ready = s.mgmt.ready ∧ u.mgmt.replReq = true) ∧
    exec .moduleReset s = .next { State.reset with
      agenda := s.agenda
      free := s.free }

/-! ## Domain, host, ingress -/

/-- R207, R271-R273, R303, R331, R332, R338, R384-R387, R390, R426: once a UALink port is ready, the record a sender's next
number names enters and is acknowledged, or is refused for a while; acknowledged records leave the window, a refused one
starts a back-off, after which the window is sent again; a record past REPLTO is dropped and the receiver told; what other
devices ask of this device's memory is performed and answered; an access without completion fails with 0x18 at its first
byte there. -/
def Obligations.DomainTraffic : Prop :=
  ∀ (s : State) (p c : Nat) (r : WinRec) (t : Team) (q : Pending) (a : Acc) (k pa : Nat)
      (d : List Byte),
    let e := s.ev
    let seq := lo32 e.val
    let x := s.inboundOf e.dev e.die
    let w := (s.die e.die).window e.dev
    (s.linkReady = true → seq = x.next → s.partOfDomid e.domid = some p → s.remoteFate p e.words = .enters c →
      exec .recReceive s = .next (((s.setInbound e.dev e.die x.advance).inputRecord p e.words).say
        (.ack (s.answerHdr e.dev e.domid e.words) (x.advance.next - 1)))) ∧
    (s.linkReady = true → seq = x.next → s.partOfDomid e.domid = some p → s.remoteFate p e.words = .waits →
      exec .recReceive s = .next (s.say (.nak (s.answerHdr e.dev e.domid e.words) seq false))) ∧
    (s.linkReady = true → seq = x.next → s.partOfDomid e.domid = none → exec .recReceive s =
      .next ((s.setInbound e.dev e.die x.advance).say (.nak (s.answerHdr e.dev e.domid e.words) seq true))) ∧
    (s.linkReady = true → seq = x.next → exec .skipReceive s = .next (s.setInbound e.dev e.die x.advance)) ∧
    (s.linkReady = true → (∃ k ∈ w.recs, seqLe k.seq seq = true) → ∃ u, exec .ackReceive s = .next u ∧
      ((u.die e.die).window e.dev).recs = w.recs.filter (fun k => !seqLe k.seq seq) ∧ u.mem = s.mem) ∧
    (s.linkReady = true → e.flag = false → w.recs.find? (fun k => k.seq == seq) = some r → w.resend = none →
      ∃ u, exec .nakReceive s = .next u ∧ ((u.die e.die).window e.dev).resend = some seq ∧
        ((u.die e.die).window e.dev).backoff = s.nextBackoff r.p w.backoff ∧ ((u.die e.die).window e.dev).since = s.now) ∧
    (∀ n, w.resend = some n → w.since + 1000 * w.backoff ≤ s.now → ∃ u, exec .backoffExpire s = .next u ∧
      ((u.die e.die).window e.dev).resend = none ∧
      let again := (w.recs.filter fun k => seqLe n k.seq).map (s.recMsg e.die e.dev)
      if s.linkReady = true then u.outbox = s.outbox ++ again else u.unsent = s.unsent ++ again) ∧
    (e.flag = true → w.recs.find? (fun k => k.seq == seq) = some r → r.deadline ≤ s.now → ∃ u, exec .repltoExpire s = .next u ∧
      ((u.die e.die).window e.dev).recs = w.recs.filter (fun k => k.seq != seq) ∧
      .skip (s.hdr e.die e.dev r.domid) seq ∈ if s.linkReady then u.outbox else u.unsent) ∧
    (s.linkReady = true → s.partOfDomid e.domid = some p → (s.regionAway p e.idx).isSome = true →
      ((cells (64 * e.addr) (e.bytes.take 64)).all fun k => !((s.region p e.idx).exist e.addr seq).getLsbD (k.1 % 64)) =
        true → e.bytes ≠ [] →
      exec .vwakeReceive s = .next (((s.setRegion p e.idx ((s.region p e.idx).record false e.addr seq
        (cells (64 * e.addr) (e.bytes.take 64)))).noteRegion p e.idx true).freeReady)) ∧
    (s.linkReady = true → s.partOfDomid e.domid = some p → e.flag = true → ∃ u, exec .vflrMsgReceive s = .next u ∧
      u.mem = s.mem ∧ (u.region p e.idx).told = (s.region p e.idx).told.erase (e.dev, seq)) ∧
    (s.linkReady = true → s.partOfDomid e.domid = some p → e.flag = false → s.regionAway p e.idx = some e.dev →
      ∃ u, exec .vflrMsgReceive s = .next u ∧ .vflr (s.partHdr p 0 e.dev) e.idx seq true ∈ u.outbox) ∧
    (s.linkReady = true → s.partOfDomid e.domid = some p → (s.mr 0x33).toNat < e.val.toNat + s.preg p 28 →
      ∃ u, exec .staggerReceive s = .next u ∧ (u.part p).stagger =
        some (min (e.val.toNat + s.preg p 28) ((s.mr 0x33).toNat + 10000000))) ∧
    (∀ n, (s.part e.part).stagger = some n → n ≤ (s.mr 0x33).toNat →
      ∃ u, exec .staggerHoldEnd s = .next u ∧ (u.part e.part).stagger = none ∧ u.mgmt.env = 1000 * s.mgmt.pwr) ∧
    (∀ n, s.linkReady = true → e.op = .read n → e.addr + n ≤ localTop →
      let s' := s.reachLines (s.ownerOf e.addr) (s.linesAt (bytesAt e.addr n))
      (bytesAt e.addr n).any s'.poisoned = false →
      exec .remoteAccessArrive s = .next (s'.say (.answer e.dev ((bytesAt e.addr n).map s'.memByte)))) ∧
    (s.linkReady = true → e.op = .write d → e.addr + d.length ≤ localTop →
      s.writeHeld (s.ownerOf e.addr) (bytesAt e.addr d.length) = false → ∃ u, exec .remoteAccessArrive s = .next u ∧
      (∀ k, k < d.length → u.memByte (e.addr + k) = d.getD k 0) ∧
      (s.still = true → ∀ b, s.norm b < e.addr ∨ e.addr + d.length ≤ s.norm b → u.memByte b = s.memByte b)) ∧
    (s.evPend = some (t, q) → q.performed = false → t.closedBefore q.num = true → q.firstOn s.isPeer = some (a, k, pa) →
      (∀ l b o, q.kind ≠ .store l b o) → (∀ l, q.kind ≠ .rdo l true) →
      exec .remoteTimeout s = .next ((s.performFault t q ⟨0x18, (a.va + BitVec.ofNat 64 k).toNat, a.lane⟩).clearFilters)) ∧
    (s.team? e.team = some t → e.seq = t.nseq → (∀ k ∈ t.pend, k.seq = e.seq → k.performed = true) →
      exec .remoteTimeout s = .next (s.modTeam t.id fun u => { u with lost := some u.icount }))

/-- R281, R376-R383, R420: a host's access to BAR2 goes through the host stage, and one that finds nothing there completes without
data; a slot of an ingress ring whose record has its turn is taken; control records load, unload and watch graphs, and each is
answered by a report; a report goes to the queue while it has room. -/
def Obligations.HostAndIngress : Prop :=
  ∀ (s s' : State) (g : IRing) (w : List W32) (c : Ctrl) (x : Graph) (r : Report) (rs : List Report) (pas : List Nat),
    let e := s.ev
    let p := e.part
    let port : Prop := s.portReady e.port = true ∧ p ≤ 16
    (port → e.flag = false → s.inboundPas p e.addr e.bytes.length true = some pas → s.hostOpen pas = true →
      s.writeHeld p pas = false → (∀ a ∈ pas, s.space a = .here) →
      exec .hostWriteInbound s = .next ((s.reachLines p (s.linesAt pas)).storeBytes p (pas.zip e.bytes))) ∧
    (port → e.flag = true → p ≠ 0 → (∀ k ∈ cells e.addr e.bytes, 4 ≤ k.1) → exec .hostWriteInbound s = .next s) ∧
    (port → e.flag = false → s.inboundPas p e.addr e.idx false = some pas → s.hostOpen pas = true →
      (∀ a ∈ pas, s.space a = .here) → pas.any s.poisoned = false →
      let s' := s.reachLines p (s.linesAt pas)
      ∃ u, exec .hostReadInbound s = .next u ∧ u.mgmt.hostReads = s.mgmt.hostReads ++ [pas.map s'.memByte] ∧ u.mem = s'.mem) ∧
    (port → e.flag = false → (s.inboundPas p e.addr e.idx false = none ∨
        (s.inboundPas p e.addr e.idx false = some pas ∧ s.hostOpen pas = true ∧ pas.any s.poisoned = true)) →
      ∃ u, exec .hostReadInbound s = .next u ∧ u.mgmt.hostReads = s.mgmt.hostReads ++ [[]] ∧ u.mem = s.mem) ∧
    (port → e.flag = true → (p = 0 → ∀ k ∈ span e.addr e.idx, 8 ≤ k) →
      ∃ u, exec .hostReadInbound s = .next u ∧ u.mem = s.mem ∧
        u.mgmt.hostReads = s.mgmt.hostReads ++ [(span e.addr e.idx).map fun k =>
        if p = 0 then s.mgmtByte (s.mgmt.holder == e.port) k else s.vfByte p k]) ∧
    (∀ pa op cas ty b k, port → e.op = .atomic op cas ty b k →
      s.inboundPas p e.addr (atBytes ty) true = some (pa :: pas) → pcieAtomic op cas ty = true → e.addr % atBytes ty = 0 →
      s.space pa = .here → (s.homeSlice pa).isSome = true → (bytesAt pa (atBytes ty)).any s.poisoned = false →
      s.writeHeld p (bytesAt pa (atBytes ty)) = false →
      let x := (s.reachLines p (s.linesAt (bytesAt pa (atBytes ty)))).atomicAt p pa op cas ty b k
      exec .hostAtomicInbound s = .next (x.1.complete x.2)) ∧
    let seen : State := s.dropFarPeers (s.recvDie p w)
    ((s.part p).rings.get? e.idx = some g → g.err = false → (s.part p).frozen = false → (s.part p).freezing = false →
      s.slotWords p g = some w → recWord w 2 = g.rdidx → seen.ringCause p w = 0 → seen.ringShort p w = false →
      exec .ingressPoll s = .next ((seen.inputRecord p w).ringTo p e.idx g (g.rdidx + 1))) ∧
    ((s.part p).rings.get? e.idx = some g → g.err = false → (s.part p).frozen = false → (s.part p).freezing = false →
      s.slotWords p g = some w → recWord w 2 = g.rdidx → seen.ringCause p w ≠ 0 →
      ∃ u, exec .ingressPoll s = .next u ∧ (u.part p).rings.get? e.idx = some { g with err := true }) ∧
    (s.ctrlHead p 1 = some (c, s') → s'.graph? p c.gslot = none → s'.loadGraph p c.va = some x →
      exec .ctrlLoad s = .next ((s'.modPart p fun y => { y with graphs := y.graphs.put c.gslot x }).report p
        ⟨1, 0, c.gslot, 0, c.tag, 0⟩)) ∧
    (s.ctrlHead p 1 = some (c, s') → s'.graph? p c.gslot = none → s'.loadGraph p c.va = none →
      exec .ctrlLoad s = .next (s'.report p ⟨1, 1, c.gslot, 0, c.tag, 0⟩)) ∧
    (s.ctrlHead p 2 = some (c, s') → s'.graph? p c.gslot = some x → s'.graphBusy p c.gslot = false →
      ∃ u, exec .ctrlUnload s = .next u ∧ u.graph? p c.gslot = none) ∧
    (s.ctrlHead p 3 = some (c, s') → (s'.graph? p c.gslot).isSome = true →
      exec .ctrlWatch s =
        .next ((s'.endInstance p c.gslot).modGraph p c.gslot fun y => { y with watch := y.watch ++ [c.tag] })) ∧
    ((s.part p).reports = r :: rs → s.reportRoom p = true → ∃ u, exec .reportWrite s = .next u ∧ (u.part p).reports = rs ∧
      (u.part p).cqNext = ((s.part p).cqNext + 1) % 2 ^ 32 ∧ u.mgmt.msixSent = s.mgmt.msixSent ++ [(p, 0)]) ∧
    (s.portReady e.port = true → ∃ u, exec .cqconsWrite s = .next u ∧ (u.pr p 0x17A).extractLsb' 16 32 = lo32 e.val ∧
      (u.pr p 0x17A).extractLsb' 0 16 = (s.pr p 0x17A).extractLsb' 0 16 ∧ u.mem = s.mem)

/-- R403-R407, R425: a sample adds packets and changes nothing else; the drain moves bytes from the FIFO to the trace buffer;
an access through SYSSEL leaves its data and its status; the staged block starts a unit operation, and `pgret` a shoot-down,
whose access stays on its way until what used the dropped entries is performed. -/
def Obligations.TraceAndHostRegisters : Prop :=
  ∀ (s : State) (pas : List Nat) (v : W64) (q : State),
    let e := s.ev
    let x := (s.die e.die).trace
    let n := min x.drain x.fifo.length
    let staged : State := { s with mgmt := { s.mgmt with sysdata := 0 } }
    let unit (k : OpKind) (reg : Nat) : State := ((staged.unitOp k s.stage none).sysselDone 0 reg true 0).sysselBusy 0 reg none
    let host : Prop := s.manages = true ∧ s.mgmt.syswait = none
    (∃ u, exec .traceSampleTick s = .next u ∧ (u.die e.die).trace.fifo = x.fifo ∧ u.mem = s.mem ∧ u.teams = s.teams ∧
      ∀ y ∈ x.batch, y ∈ (u.die e.die).trace.batch) ∧
    (x.owed = true → n ≠ 0 → x.dead = false → (List.range n).mapM (fun i => s.tracePa x (x.bytesWritten + i)) = some pas →
      s.hostOpen pas = true →
      ∃ u, exec .traceDrain s = .next u ∧ (u.die e.die).trace.fifo = x.fifo.drop n ∧
        (u.die e.die).trace.wp = wrap48 (x.bytesWritten + n) ∧ (u.die e.die).trace.owed = false ∧
        ((pas.map s.norm).Nodup → ∀ i a, pas[i]? = some a → u.memByte a = x.fifo.getD i 0) ∧
        ∀ a, s.norm a ∉ pas.map s.norm → u.memByte a = s.memByte a) ∧
    (host → e.part ≤ 16 → ((sysInfo e.idx).bind (·.rd)).isSome = true →
      within e.idx 0x0E00 0x0E07 = false → s.sysRead e.part e.idx = some (q, v) →
      ∃ u, exec .sysselRead s = .next u ∧ u.mgmt.sysdata = v ∧ u.mgmt.syssel = sysselWord e.part e.idx false 0 ∧
        u.mem = q.mem) ∧
    (host → within e.idx 0x0E00 0x0E0B = false → e.part ≤ 16 → ((sysInfo e.idx).bind (·.wr)).isSome = true →
      let put : State := { s with mgmt := { s.mgmt with sysdata := e.val } }
      (put.sysWrite e.part e.idx true e.val = .ok q →
        exec .sysselWrite s = .next ((q.sysselDone e.part e.idx true 0).sysselBusy e.part e.idx none)) ∧
      ∀ code a, put.sysWrite e.part e.idx true e.val = .fault code a →
        exec .sysselWrite s = .next ((put.sysselDone e.part e.idx true code).sysselBusy e.part e.idx none)) ∧
    (host → unitOk .resize s.stage = true → exec .sysselPresize s = .next (unit .resize 0x0E08)) ∧
    (host → unitOk .lend s.stage = true → exec .sysselPlend s = .next (unit .lend 0x0E09)) ∧
    (host → unitOk .revoke s.stage = true → exec .sysselPrevoke s = .next (unit .revoke 0x0E0A)) ∧
    (∀ k, host → shootOf e.val = some k → (wd s.stage 0).toNat % k.size = 0 → (wd s.stage 0).toNat < 2 ^ 56 →
      let sh := State.shoot { s with mgmt := { s.mgmt with sysdata := e.val } } k (wd s.stage 0).toNat
      ∃ u, exec .sysselPgret s = .next u ∧ u.mem = sh.1.mem ∧
        if sh.1.gone sh.2 = true then u.mgmt.syswait = none ∧ u.mgmt.syssel = sysselWord 0 0x0E0B true 0
        else u.mgmt.syswait = some (.pgret sh.2) ∧ u.mgmt.syssel = sysselWord 0 0x0E0B true 0 ||| (1#64 <<< 63))

/-! ## System registers (R222) -/

/-- R222, R425: a register that is read gives its value to D; one that is written has the effect of its rule, by a team of the
level that it needs or by the host, and the writing team is held where the rule says so; the rows that a value picks out are
that write. FPLANE is read and written lane by lane, FPCTL whole, and a value with other bits is fault 0x14. A register of the
partition without a rule of its own holds what was written. -/
def Obligations.SystemRegisters : Prop :=
  ∀ (w : SysWr) (g : Guard) (a : Opnd) (i : Fin 64) (q : State) (v : W64),
    let team : SysWr := ⟨w.n, .team g a⟩
    let n := w.n.toNat
    let wr (s : State) (t : Team) : SysAns := s.sysWrite t.part n (t.level == 2) (uni s t a)
    let rows : List (SysWr → Instr) :=
      [.syswr, .scrsplitWrite, .domcfgWrite, .dtimeWrite, .gtoffWrite, .modeWrite, .saferstWrite, .profctlWrite, .pmselWrite,
        .trcctlWrite, .dbgdataWrite, .gptrootWrite, .hptrootWrite]
    let picks : List ((SysWr → Instr) × (W64 → Bool)) :=
      [(.vrcmdCreate, fun v => bitsOf v 9 8 == 1), (.vrcmdDestroy, fun v => bitsOf v 9 8 == 2),
        (.ringcbEnable, fun v => v.getLsbD 0), (.ringcbDisable, fun v => !v.getLsbD 0),
        (.pctlFreeze, fun v => v.getLsbD 0), (.pctlThaw, fun v => !v.getLsbD 0 && !v.getLsbD 1),
        (.pctlReset, fun v => v.getLsbD 1), (.dbgrunResume, fun v => bitsOf v 2 0 == 0),
        (.dbgrunStep, fun v => bitsOf v 2 0 == 1), (.dbgrunSkip, fun v => bitsOf v 2 0 == 2),
        (.dbgrunKill, fun v => bitsOf v 2 0 == 3), (.dbgrunHalt, fun v => bitsOf v 2 0 == 4),
        (.rplctlLog, fun v => v.getLsbD 63), (.rplctlGo, fun v => v.getLsbD 62)]
    (((sysInfo n).any fun k => k.kind != .team) = true →
      Completes (.sysrd w.n g (.s i)) noRun (fun s t => s.sysRead t.part n = some (q, v))
        (fun _ t => putScalar q t (.s i) v)) ∧
    (((sysInfo n).any fun k => k.kind == .team) = true →
      Completes (.sysrd w.n g (.s i)) noRun always (fun s t => putScalar s t (.s i) (t.sysRead n))) ∧
    Completes (.dbgdataRead g (.s i)) noRun (fun s t => s.dbgdataRead t.part = some (q, v))
      (fun _ t => putScalar q t (.s i) v) ∧
    (n = 0x11 → Completes (.sysrd w.n g (.v i)) noRun always
      (fun s t => s.modTeam t.id fun u => u.apply ((t.active g).map fun l => .v i.val l (t.r.fflag l)))) ∧
    (n = 0x10 → ∀ mk ∈ rows,
      Completes (mk team) noRun (fun s t => sysValueOk 0x10 (uni s t a) = true)
        (fun s t => s.modTeam t.id fun u => { u with r := { u.r with fctl := uni s t a } }) ∧
      Faults (mk team) noRun (fun s t => sysValueOk 0x10 (uni s t a) = false) 0x14 (fun _ _ => 0) (fun _ _ => noLane)) ∧
    (n = 0x11 →
      let bad (s : State) (t : Team) (l : Nat) : Bool := (lane32 s t a l &&& ~~~(0x71F#32)) != 0
      ∀ mk ∈ rows,
      Completes (mk team) noRun (fun s t => (t.active g).any (bad s t) = false)
        (fun s t => s.modTeam t.id fun u =>
          { u with r := (t.active g).foldl (fun r l => r.setFflag l (lane32 s t a l)) u.r }) ∧
      ∀ l, Faults (mk team) noRun (fun s t => (t.active g).find? (bad s t) = some l) 0x14 (fun _ _ => 0)
        (fun _ _ => laneWord l)) ∧
    (n ≠ 0x10 → n ≠ 0x11 → ∀ mk ∈ rows,
      Completes (mk team) noRun (fun s t => wr s t = .ok q) (fun _ _ => q) ∧
      (∀ (ws : List (TeamId × Nat)) (s s1 : State) (t : Team) (e : Enc), Issues (mk team) noRun s s1 t e →
        FallsOn s1 t → wr (started noRun s1 t e) t = .held q ws → exec (mk team) s =
          .next ((q.modTeam t.id fun u => { u with holdOn := some (.rootDrop ws) }).modTeam t.id Team.retired)) ∧
      (∀ (p : Fin 32) (s : State), s.manages = true → s.mgmt.syswait = none → within n 0x0E00 0x0E0B = false →
        ((sysInfo n).bind (·.wr)).isSome = true → p.val ≤ 16 →
        State.sysWrite { s with mgmt := { s.mgmt with sysdata := v } } p.val n true v = .ok q →
        exec (mk ⟨w.n, .host p v⟩) s = .next ((q.sysselDone p.val n true 0).sysselBusy p.val n none))) ∧
    (n ≠ 0x10 → n ≠ 0x11 → ∀ mf ∈ picks, ∀ (s s1 : State) (t0 t : Team) (e : Enc), s.cur = some t0 → mf.2 (uni s t0 a) = true →
      Issues (.syswr team) noRun s s1 t e → FallsOn s1 t → wr (started noRun s1 t e) t = .ok q →
      exec (mf.1 team) s = .next (q.advance t)) ∧
    (∀ (s : State) (p : Nat), n ∈ [0x100, 0x101, 0x102, 0x103, 0x110, 0x112, 0x140, 0x150, 0x171, 0x174, 0x179] →
      sysValueOk n v = true →
      ∃ u, s.sysWrite p n false v = .ok u ∧ u.pr p n = v ∧ u.mem = s.mem ∧ u.teams = s.teams ∧
        ∀ k, k ≠ n → u.pr p k = s.pr p k)

/-! ## What does not change -/

/-- Everything but the instruction's own team, and of that its destination: an instruction of the scalar, vector and
team-wide groups (opcodes 0x01-0x2F and 0x40-0x7F) leaves memory, every other team, every register of the module and, but for
the counters of fills, events and lane cycles and the last grid time read, every register of the partitions as they were,
whatever becomes of it. Where it neither faults nor ends its clause, its team's registers outside the destination and the
released ones, the mask, the stack, scratch and credit stand too. -/
def Obligations.RegisterInstructionFrame : Prop :=
  ∀ (i : Instr) (e : Enc) (s s' : State), i.enc = some e → (e.opc < 0x30 ∨ (0x40 ≤ e.opc ∧ e.opc < 0x80)) →
    exec i s = .next s' →
    s'.mem = s.mem ∧ s'.poison = s.poison ∧ s'.mregs = s.mregs ∧ s'.slices = s.slices ∧ s'.mgmt = s.mgmt ∧
      (∀ k, (∀ t, s.cur = some t → t.id ≠ k) → s'.team? k = s.team? k) ∧
      (∀ p k, k ≠ 0x156 → k ≠ 0x2016 → ¬ (0x508 ≤ k ∧ k < 0x510) → ¬ (0x600 ≤ k ∧ k < 0x680) → s'.pr p k = s.pr p k) ∧
      (∀ s1 t u, Issues i noRun s s1 t e → t.isLast = false → s'.team? t.id = some u → u.hnd = t.hnd → u.stat = t.stat →
        u.trap = none →
        (∀ k, k ∉ (encAccess e none).ws → u.r.sget k = t.r.sget k) ∧
          (∀ k m, m < 32 → k ∉ (encAccess e none).wv → k ∉ (encAccess e none).lr → u.r.entry k m = t.r.entry k m) ∧
          u.r.mask = t.r.mask ∧ u.r.stack = t.r.stack ∧ u.r.fctl = t.r.fctl ∧ u.scr = t.scr ∧ u.credit = t.credit)

/-- Memory changes only when an access is performed: no load, store, atomic, version, copy or cache instruction (opcodes
0x80-0x99 but for `rdoset`, which may apply contributions held at its lines) changes a byte of it, another
team or a register of the module when it issues. `lease` and `pref`, which bring lines to their slices, are held to it where no
window is open and no record spilled. -/
def Obligations.MemoryUntouchedAtIssue : Prop :=
  ∀ (i : Instr) (e : Enc) (s s' : State), i.enc = some e → 0x80 ≤ e.opc → e.opc < 0x9A → (∀ x, i ≠ .rdoset x) →
    ((∃ l x y, i = .lease x ∨ i = .pref l y) → s.still = true) → exec i s = .next s' →
    s'.mregs = s.mregs ∧ s'.poison = s.poison ∧ (∀ a, s'.memByte a = s.memByte a) ∧
      ∀ k, (∀ t, s.cur = some t → t.id ≠ k) → s'.team? k = s.team? k

/-- R426: right after reset the registers hold their reset values, every core, slice and group is partition 0's, there is no
team, no graph and no record, READY is zero and no port holds the control plane; memory lists nothing. -/
def Obligations.ResetState : Prop :=
  let s := State.reset
  s.mr 0x30 = 0x0000_2008_1018_0140#64 ∧ s.mr 0x32 = 0x0001_0000#64 ∧ s.mr 0x190 = 10#64 ∧
    (∀ p, p ≤ 16 → s.pr p 0x140 = 1000#64 ∧ s.preg p 0 = 0x5F5E_1000 ∧ s.preg p 5 = 200 ∧ s.preg p 6 = 0 ∧ s.preg p 7 = 1 ∧
      s.preg p 8 = 50 ∧ s.preg p 9 = 0x4001 ∧ s.preg p 10 = 100000 ∧ s.preg p 20 = 0x0014_03E8) ∧
    (∀ c, s.coreOwnerOf c = 0 ∧ s.coreHolderOf c = 0) ∧ (∀ l, s.sliceOwnerOf l = 0 ∧ s.sliceHolderOf l = 0) ∧
    (∀ g, s.groupOwnerOf g = 0) ∧ (∀ t, s.team? t = none) ∧ (∀ p g, s.graph? p g = none) ∧ s.mgmt.ready = 0#64 ∧
    s.mgmt.held = false ∧ s.mgmt.pwrctl = 0x0000_00C8_0000_0BB8#64 ∧ Memory.wf s.mem = true ∧ ∀ a, s.memByte a = 0
end

