-- ==== Sys2Proof/Laws/Table.lean ====
section
/-!
SUPPORT. Finite maps: what a read gives after a write, and that writes keep the canonical form.
-/
namespace Sys2Proof.Machine
variable {α : Type}

@[simp] theorem Table.get?_nil (k : Nat) : Table.get? ([] : Table α) k = none := rfl

theorem Table.get?_del_same (t : Table α) (k : Nat) : (t.del k).get? k = none := by
  induction t with
  | nil => rfl
  | cons x r ih =>
    obtain ⟨a, v⟩ := x
    by_cases h : a = k <;> simp [Table.del, Table.get?, h, ih]

theorem Table.get?_del_ne (t : Table α) {k j : Nat} (h : j ≠ k) : (t.del k).get? j = t.get? j := by
  induction t with
  | nil => rfl
  | cons x r ih =>
    obtain ⟨a, v⟩ := x
    by_cases ha : a = k
    · subst ha
      simp [Table.del, Table.get?, ih, Ne.symm h]
    · simp [Table.del, Table.get?, ha, ih]

theorem Table.get?_ins_same (t : Table α) (k : Nat) (v : α) (h : t.get? k = none) : (t.ins k v).get? k = some v := by
  induction t with
  | nil => simp [Table.ins, Table.get?]
  | cons x r ih =>
    obtain ⟨a, w⟩ := x
    by_cases ha : a = k
    · simp [Table.get?, ha] at h
    · simp only [Table.get?, ha, if_false] at h
      by_cases hl : k < a <;> simp [Table.ins, Table.get?, hl, ha, ih h]

theorem Table.get?_ins_ne (t : Table α) {k j : Nat} (v : α) (h : j ≠ k) : (t.ins k v).get? j = t.get? j := by
  induction t with
  | nil => simp [Table.ins, Table.get?, Ne.symm h]
  | cons x r ih =>
    obtain ⟨a, w⟩ := x
    by_cases hl : k < a <;> simp [Table.ins, Table.get?, hl, Ne.symm h, ih]

@[simp] theorem Table.get?_put_same (t : Table α) (k : Nat) (v : α) : (t.put k v).get? k = some v :=
  Table.get?_ins_same _ k v (Table.get?_del_same t k)
theorem Table.get?_put_ne (t : Table α) {k j : Nat} (v : α) (h : j ≠ k) : (t.put k v).get? j = t.get? j := by
  rw [Table.put, Table.get?_ins_ne _ v h, Table.get?_del_ne t h]

@[simp] theorem Table.get_put_same (t : Table α) (d : α) (k : Nat) (v : α) : (t.put k v).get d k = v := by
  simp [Table.get]
theorem Table.get_put_ne (t : Table α) (d : α) {k j : Nat} (v : α) (h : j ≠ k) : (t.put k v).get d j = t.get d j := by
  simp [Table.get, Table.get?_put_ne t v h]

variable [DecidableEq α]

@[simp] theorem Table.get_set_same (t : Table α) (d : α) (k : Nat) (v : α) : (t.set d k v).get d k = v := by
  by_cases h : v = d
  · simp [Table.set, h, Table.get, Table.get?_del_same]
  · simp [Table.set, h]
theorem Table.get?_set_ne (t : Table α) (d : α) {k j : Nat} (v : α) (h : j ≠ k) : (t.set d k v).get? j = t.get? j := by
  by_cases hv : v = d
  · simp [Table.set, hv, Table.get?_del_ne t h]
  · simp [Table.set, hv, Table.get?_put_ne t v h]
theorem Table.get_set_ne (t : Table α) (d : α) {k j : Nat} (v : α) (h : j ≠ k) : (t.set d k v).get d j = t.get d j := by
  by_cases hv : v = d
  · simp [Table.set, hv, Table.get, Table.get?_del_ne t h]
  · simp [Table.set, hv, Table.get_put_ne t d v h]

/-! ## Canonical form -/

theorem Table.wfFrom_mono {d : α} {t : Table α} {a b : Nat} (h : a ≤ b) (hw : Table.wfFrom d b t = true) :
    Table.wfFrom d a t = true := by
  cases t with
  | nil => rfl
  | cons x r =>
    obtain ⟨k, v⟩ := x
    simp only [Table.wfFrom, Bool.and_eq_true, decide_eq_true_eq] at hw ⊢
    exact ⟨⟨by omega, hw.1.2⟩, hw.2⟩

theorem Table.wfFrom_del {d : α} {t : Table α} {lo : Nat} (k : Nat) (h : Table.wfFrom d lo t = true) :
    Table.wfFrom d lo (t.del k) = true := by
  induction t generalizing lo with
  | nil => rfl
  | cons x r ih =>
    obtain ⟨a, v⟩ := x
    simp only [Table.wfFrom, Bool.and_eq_true, decide_eq_true_eq] at h
    by_cases ha : a = k
    · simpa [Table.del, ha] using ih (Table.wfFrom_mono (by omega) h.2)
    · simp only [Table.del, ha, if_false, Table.wfFrom, Bool.and_eq_true, decide_eq_true_eq]
      exact ⟨h.1, ih h.2⟩

theorem Table.wfFrom_ins {d : α} {t : Table α} {lo : Nat} {k : Nat} {v : α} (hv : v ≠ d) (hk : lo ≤ k)
    (hn : t.get? k = none) (h : Table.wfFrom d lo t = true) : Table.wfFrom d lo (t.ins k v) = true := by
  induction t generalizing lo with
  | nil => simp [Table.ins, Table.wfFrom, hv, hk]
  | cons x r ih =>
    obtain ⟨a, w⟩ := x
    simp only [Table.wfFrom, Bool.and_eq_true, decide_eq_true_eq] at h
    by_cases hl : k < a
    · simp only [Table.ins, hl, if_true, Table.wfFrom, Bool.and_eq_true, decide_eq_true_eq]
      exact ⟨⟨hk, hv⟩, ⟨⟨by omega, h.1.2⟩, h.2⟩⟩
    · have hne : a ≠ k := by
        intro e
        simp [Table.get?, e] at hn
      simp only [Table.ins, hl, if_false, Table.wfFrom, Bool.and_eq_true, decide_eq_true_eq]
      refine ⟨h.1, ih (by omega) ?_ h.2⟩
      simpa [Table.get?, hne] using hn

theorem Table.wf_del {d : α} {t : Table α} (k : Nat) (h : t.wf d = true) : (t.del k).wf d = true := Table.wfFrom_del k h
theorem Table.wf_put {d : α} {t : Table α} (k : Nat) {v : α} (hv : v ≠ d) (h : t.wf d = true) : (t.put k v).wf d = true :=
  Table.wfFrom_ins hv (Nat.zero_le k) (Table.get?_del_same t k) (Table.wfFrom_del k h)
theorem Table.wf_set {d : α} {t : Table α} (k : Nat) (v : α) (h : t.wf d = true) : (t.set d k v).wf d = true := by
  by_cases hv : v = d
  · simpa [Table.set, hv] using Table.wf_del k h
  · simpa [Table.set, hv] using Table.wf_put k hv h
theorem Table.wf_setAll {d : α} {t u : Table α} (h : t.wf d = true) : (t.setAll d u).wf d = true := by
  induction u generalizing t with
  | nil => simpa [Table.setAll] using h
  | cons x r ih => exact ih (Table.wf_set x.1 x.2 h)

theorem Table.wfFrom_filter {d : α} {t : Table α} {lo : Nat} (f : Nat × α → Bool) (h : Table.wfFrom d lo t = true) :
    Table.wfFrom d lo (t.filter f) = true := by
  induction t generalizing lo with
  | nil => rfl
  | cons x r ih =>
    obtain ⟨a, v⟩ := x
    simp only [Table.wfFrom, Bool.and_eq_true, decide_eq_true_eq] at h
    by_cases hf : f (a, v) = true
    · simp only [List.filter_cons, hf, if_true, Table.wfFrom, Bool.and_eq_true, decide_eq_true_eq]
      exact ⟨h.1, ih h.2⟩
    · simp only [List.filter_cons, hf]
      exact ih (Table.wfFrom_mono (by omega) h.2)
theorem Table.wf_filter {d : α} {t : Table α} (f : Nat × α → Bool) (h : t.wf d = true) : Table.wf d (t.filter f) = true :=
  Table.wfFrom_filter f h

end Sys2Proof.Machine
end

