-- ==== Sys2Proof/Laws/State.lean ====
section
/-!
SUPPORT. What each update of the state leaves as it was, field by field, and what the named operations read afterwards.
-/
namespace Sys2Proof.Machine

/-! ## Fields an update does not touch -/
@[simp] theorem State.setTeam_mem (s : State) (t : Team) : (s.setTeam t).mem = s.mem := rfl
@[simp] theorem State.setTeam_poison (s : State) (t : Team) : (s.setTeam t).poison = s.poison := rfl
@[simp] theorem State.setTeam_lostFirst (s : State) (t : Team) : (s.setTeam t).lostFirst = s.lostFirst := rfl
@[simp] theorem State.setTeam_retiring (s : State) (t : Team) : (s.setTeam t).retiring = s.retiring := rfl
@[simp] theorem State.setTeam_spares (s : State) (t : Team) : (s.setTeam t).spares = s.spares := rfl
@[simp] theorem State.setTeam_clock (s : State) (t : Team) : (s.setTeam t).clock = s.clock := rfl
@[simp] theorem State.setTeam_now (s : State) (t : Team) : (s.setTeam t).now = s.now := rfl
@[simp] theorem State.setTeam_mregs (s : State) (t : Team) : (s.setTeam t).mregs = s.mregs := rfl
@[simp] theorem State.setTeam_mgmt (s : State) (t : Team) : (s.setTeam t).mgmt = s.mgmt := rfl
@[simp] theorem State.setTeam_coreOwner (s : State) (t : Team) : (s.setTeam t).coreOwner = s.coreOwner := rfl
@[simp] theorem State.setTeam_coreHolder (s : State) (t : Team) : (s.setTeam t).coreHolder = s.coreHolder := rfl
@[simp] theorem State.setTeam_sliceOwner (s : State) (t : Team) : (s.setTeam t).sliceOwner = s.sliceOwner := rfl
@[simp] theorem State.setTeam_sliceHolder (s : State) (t : Team) : (s.setTeam t).sliceHolder = s.sliceHolder := rfl
@[simp] theorem State.setTeam_groupOwner (s : State) (t : Team) : (s.setTeam t).groupOwner = s.groupOwner := rfl
@[simp] theorem State.setTeam_ops (s : State) (t : Team) : (s.setTeam t).ops = s.ops := rfl
@[simp] theorem State.setTeam_nops (s : State) (t : Team) : (s.setTeam t).nops = s.nops := rfl
@[simp] theorem State.setTeam_wins (s : State) (t : Team) : (s.setTeam t).wins = s.wins := rfl
@[simp] theorem State.setTeam_nwins (s : State) (t : Team) : (s.setTeam t).nwins = s.nwins := rfl
@[simp] theorem State.setTeam_parts (s : State) (t : Team) : (s.setTeam t).parts = s.parts := rfl
@[simp] theorem State.setTeam_dies (s : State) (t : Team) : (s.setTeam t).dies = s.dies := rfl
@[simp] theorem State.setTeam_cores (s : State) (t : Team) : (s.setTeam t).cores = s.cores := rfl
@[simp] theorem State.setTeam_slices (s : State) (t : Team) : (s.setTeam t).slices = s.slices := rfl
@[simp] theorem State.setTeam_inbound (s : State) (t : Team) : (s.setTeam t).inbound = s.inbound := rfl
@[simp] theorem State.setTeam_outbox (s : State) (t : Team) : (s.setTeam t).outbox = s.outbox := rfl
@[simp] theorem State.setTeam_unsent (s : State) (t : Team) : (s.setTeam t).unsent = s.unsent := rfl
@[simp] theorem State.setTeam_free (s : State) (t : Team) : (s.setTeam t).free = s.free := rfl
@[simp] theorem State.setTeam_nparks (s : State) (t : Team) : (s.setTeam t).nparks = s.nparks := rfl
@[simp] theorem State.setTeam_rels (s : State) (t : Team) : (s.setTeam t).rels = s.rels := rfl
@[simp] theorem State.setTeam_back (s : State) (t : Team) : (s.setTeam t).back = s.back := rfl
@[simp] theorem State.setTeam_focus (s : State) (t : Team) : (s.setTeam t).focus = s.focus := rfl
@[simp] theorem State.setTeam_stalled (s : State) (t : Team) : (s.setTeam t).stalled = s.stalled := rfl
@[simp] theorem State.setTeam_ev (s : State) (t : Team) : (s.setTeam t).ev = s.ev := rfl
@[simp] theorem State.setTeam_agenda (s : State) (t : Team) : (s.setTeam t).agenda = s.agenda := rfl

@[simp] theorem State.dropTeam_mem (s : State) (t : TeamId) : (s.dropTeam t).mem = s.mem := rfl
@[simp] theorem State.dropTeam_poison (s : State) (t : TeamId) : (s.dropTeam t).poison = s.poison := rfl
@[simp] theorem State.dropTeam_lostFirst (s : State) (t : TeamId) : (s.dropTeam t).lostFirst = s.lostFirst := rfl
@[simp] theorem State.dropTeam_retiring (s : State) (t : TeamId) : (s.dropTeam t).retiring = s.retiring := rfl
@[simp] theorem State.dropTeam_spares (s : State) (t : TeamId) : (s.dropTeam t).spares = s.spares := rfl
@[simp] theorem State.dropTeam_clock (s : State) (t : TeamId) : (s.dropTeam t).clock = s.clock := rfl
@[simp] theorem State.dropTeam_now (s : State) (t : TeamId) : (s.dropTeam t).now = s.now := rfl
@[simp] theorem State.dropTeam_mregs (s : State) (t : TeamId) : (s.dropTeam t).mregs = s.mregs := rfl
@[simp] theorem State.dropTeam_mgmt (s : State) (t : TeamId) : (s.dropTeam t).mgmt = s.mgmt := rfl
@[simp] theorem State.dropTeam_coreOwner (s : State) (t : TeamId) : (s.dropTeam t).coreOwner = s.coreOwner := rfl
@[simp] theorem State.dropTeam_coreHolder (s : State) (t : TeamId) : (s.dropTeam t).coreHolder = s.coreHolder := rfl
@[simp] theorem State.dropTeam_sliceOwner (s : State) (t : TeamId) : (s.dropTeam t).sliceOwner = s.sliceOwner := rfl
@[simp] theorem State.dropTeam_sliceHolder (s : State) (t : TeamId) : (s.dropTeam t).sliceHolder = s.sliceHolder := rfl
@[simp] theorem State.dropTeam_groupOwner (s : State) (t : TeamId) : (s.dropTeam t).groupOwner = s.groupOwner := rfl
@[simp] theorem State.dropTeam_ops (s : State) (t : TeamId) : (s.dropTeam t).ops = s.ops := rfl
@[simp] theorem State.dropTeam_nops (s : State) (t : TeamId) : (s.dropTeam t).nops = s.nops := rfl
@[simp] theorem State.dropTeam_wins (s : State) (t : TeamId) : (s.dropTeam t).wins = s.wins := rfl
@[simp] theorem State.dropTeam_nwins (s : State) (t : TeamId) : (s.dropTeam t).nwins = s.nwins := rfl
@[simp] theorem State.dropTeam_parts (s : State) (t : TeamId) : (s.dropTeam t).parts = s.parts := rfl
@[simp] theorem State.dropTeam_dies (s : State) (t : TeamId) : (s.dropTeam t).dies = s.dies := rfl
@[simp] theorem State.dropTeam_cores (s : State) (t : TeamId) : (s.dropTeam t).cores = s.cores := rfl
@[simp] theorem State.dropTeam_slices (s : State) (t : TeamId) : (s.dropTeam t).slices = s.slices := rfl
@[simp] theorem State.dropTeam_inbound (s : State) (t : TeamId) : (s.dropTeam t).inbound = s.inbound := rfl
@[simp] theorem State.dropTeam_outbox (s : State) (t : TeamId) : (s.dropTeam t).outbox = s.outbox := rfl
@[simp] theorem State.dropTeam_unsent (s : State) (t : TeamId) : (s.dropTeam t).unsent = s.unsent := rfl
@[simp] theorem State.dropTeam_free (s : State) (t : TeamId) : (s.dropTeam t).free = s.free := rfl
@[simp] theorem State.dropTeam_nparks (s : State) (t : TeamId) : (s.dropTeam t).nparks = s.nparks := rfl
@[simp] theorem State.dropTeam_rels (s : State) (t : TeamId) : (s.dropTeam t).rels = s.rels := rfl
@[simp] theorem State.dropTeam_back (s : State) (t : TeamId) : (s.dropTeam t).back = s.back := rfl
@[simp] theorem State.dropTeam_focus (s : State) (t : TeamId) : (s.dropTeam t).focus = s.focus := rfl
@[simp] theorem State.dropTeam_stalled (s : State) (t : TeamId) : (s.dropTeam t).stalled = s.stalled := rfl
@[simp] theorem State.dropTeam_ev (s : State) (t : TeamId) : (s.dropTeam t).ev = s.ev := rfl
@[simp] theorem State.dropTeam_agenda (s : State) (t : TeamId) : (s.dropTeam t).agenda = s.agenda := rfl

@[simp] theorem State.setPart_mem (s : State) (p : Nat) (x : Partition) : (s.setPart p x).mem = s.mem := rfl
@[simp] theorem State.setPart_poison (s : State) (p : Nat) (x : Partition) : (s.setPart p x).poison = s.poison := rfl
@[simp] theorem State.setPart_lostFirst (s : State) (p : Nat) (x : Partition) : (s.setPart p x).lostFirst = s.lostFirst := rfl
@[simp] theorem State.setPart_retiring (s : State) (p : Nat) (x : Partition) : (s.setPart p x).retiring = s.retiring := rfl
@[simp] theorem State.setPart_spares (s : State) (p : Nat) (x : Partition) : (s.setPart p x).spares = s.spares := rfl
@[simp] theorem State.setPart_clock (s : State) (p : Nat) (x : Partition) : (s.setPart p x).clock = s.clock := rfl
@[simp] theorem State.setPart_now (s : State) (p : Nat) (x : Partition) : (s.setPart p x).now = s.now := rfl
@[simp] theorem State.setPart_mregs (s : State) (p : Nat) (x : Partition) : (s.setPart p x).mregs = s.mregs := rfl
@[simp] theorem State.setPart_mgmt (s : State) (p : Nat) (x : Partition) : (s.setPart p x).mgmt = s.mgmt := rfl
@[simp] theorem State.setPart_coreOwner (s : State) (p : Nat) (x : Partition) : (s.setPart p x).coreOwner = s.coreOwner := rfl
@[simp] theorem State.setPart_coreHolder (s : State) (p : Nat) (x : Partition) : (s.setPart p x).coreHolder = s.coreHolder := rfl
@[simp] theorem State.setPart_sliceOwner (s : State) (p : Nat) (x : Partition) : (s.setPart p x).sliceOwner = s.sliceOwner := rfl
@[simp] theorem State.setPart_sliceHolder (s : State) (p : Nat) (x : Partition) : (s.setPart p x).sliceHolder = s.sliceHolder := rfl
@[simp] theorem State.setPart_groupOwner (s : State) (p : Nat) (x : Partition) : (s.setPart p x).groupOwner = s.groupOwner := rfl
@[simp] theorem State.setPart_ops (s : State) (p : Nat) (x : Partition) : (s.setPart p x).ops = s.ops := rfl
@[simp] theorem State.setPart_nops (s : State) (p : Nat) (x : Partition) : (s.setPart p x).nops = s.nops := rfl
@[simp] theorem State.setPart_wins (s : State) (p : Nat) (x : Partition) : (s.setPart p x).wins = s.wins := rfl
@[simp] theorem State.setPart_nwins (s : State) (p : Nat) (x : Partition) : (s.setPart p x).nwins = s.nwins := rfl
@[simp] theorem State.setPart_teams (s : State) (p : Nat) (x : Partition) : (s.setPart p x).teams = s.teams := rfl
@[simp] theorem State.setPart_dies (s : State) (p : Nat) (x : Partition) : (s.setPart p x).dies = s.dies := rfl
@[simp] theorem State.setPart_cores (s : State) (p : Nat) (x : Partition) : (s.setPart p x).cores = s.cores := rfl
@[simp] theorem State.setPart_slices (s : State) (p : Nat) (x : Partition) : (s.setPart p x).slices = s.slices := rfl
@[simp] theorem State.setPart_inbound (s : State) (p : Nat) (x : Partition) : (s.setPart p x).inbound = s.inbound := rfl
@[simp] theorem State.setPart_outbox (s : State) (p : Nat) (x : Partition) : (s.setPart p x).outbox = s.outbox := rfl
@[simp] theorem State.setPart_unsent (s : State) (p : Nat) (x : Partition) : (s.setPart p x).unsent = s.unsent := rfl
@[simp] theorem State.setPart_free (s : State) (p : Nat) (x : Partition) : (s.setPart p x).free = s.free := rfl
@[simp] theorem State.setPart_nparks (s : State) (p : Nat) (x : Partition) : (s.setPart p x).nparks = s.nparks := rfl
@[simp] theorem State.setPart_rels (s : State) (p : Nat) (x : Partition) : (s.setPart p x).rels = s.rels := rfl
@[simp] theorem State.setPart_back (s : State) (p : Nat) (x : Partition) : (s.setPart p x).back = s.back := rfl
@[simp] theorem State.setPart_focus (s : State) (p : Nat) (x : Partition) : (s.setPart p x).focus = s.focus := rfl
@[simp] theorem State.setPart_stalled (s : State) (p : Nat) (x : Partition) : (s.setPart p x).stalled = s.stalled := rfl
@[simp] theorem State.setPart_ev (s : State) (p : Nat) (x : Partition) : (s.setPart p x).ev = s.ev := rfl
@[simp] theorem State.setPart_agenda (s : State) (p : Nat) (x : Partition) : (s.setPart p x).agenda = s.agenda := rfl

@[simp] theorem State.setCore_mem (s : State) (c : Nat) (x : Core) : (s.setCore c x).mem = s.mem := rfl
@[simp] theorem State.setCore_poison (s : State) (c : Nat) (x : Core) : (s.setCore c x).poison = s.poison := rfl
@[simp] theorem State.setCore_lostFirst (s : State) (c : Nat) (x : Core) : (s.setCore c x).lostFirst = s.lostFirst := rfl
@[simp] theorem State.setCore_retiring (s : State) (c : Nat) (x : Core) : (s.setCore c x).retiring = s.retiring := rfl
@[simp] theorem State.setCore_spares (s : State) (c : Nat) (x : Core) : (s.setCore c x).spares = s.spares := rfl
@[simp] theorem State.setCore_clock (s : State) (c : Nat) (x : Core) : (s.setCore c x).clock = s.clock := rfl
@[simp] theorem State.setCore_now (s : State) (c : Nat) (x : Core) : (s.setCore c x).now = s.now := rfl
@[simp] theorem State.setCore_mregs (s : State) (c : Nat) (x : Core) : (s.setCore c x).mregs = s.mregs := rfl
@[simp] theorem State.setCore_mgmt (s : State) (c : Nat) (x : Core) : (s.setCore c x).mgmt = s.mgmt := rfl
@[simp] theorem State.setCore_coreOwner (s : State) (c : Nat) (x : Core) : (s.setCore c x).coreOwner = s.coreOwner := rfl
@[simp] theorem State.setCore_coreHolder (s : State) (c : Nat) (x : Core) : (s.setCore c x).coreHolder = s.coreHolder := rfl
@[simp] theorem State.setCore_sliceOwner (s : State) (c : Nat) (x : Core) : (s.setCore c x).sliceOwner = s.sliceOwner := rfl
@[simp] theorem State.setCore_sliceHolder (s : State) (c : Nat) (x : Core) : (s.setCore c x).sliceHolder = s.sliceHolder := rfl
@[simp] theorem State.setCore_groupOwner (s : State) (c : Nat) (x : Core) : (s.setCore c x).groupOwner = s.groupOwner := rfl
@[simp] theorem State.setCore_ops (s : State) (c : Nat) (x : Core) : (s.setCore c x).ops = s.ops := rfl
@[simp] theorem State.setCore_nops (s : State) (c : Nat) (x : Core) : (s.setCore c x).nops = s.nops := rfl
@[simp] theorem State.setCore_wins (s : State) (c : Nat) (x : Core) : (s.setCore c x).wins = s.wins := rfl
@[simp] theorem State.setCore_nwins (s : State) (c : Nat) (x : Core) : (s.setCore c x).nwins = s.nwins := rfl
@[simp] theorem State.setCore_teams (s : State) (c : Nat) (x : Core) : (s.setCore c x).teams = s.teams := rfl
@[simp] theorem State.setCore_parts (s : State) (c : Nat) (x : Core) : (s.setCore c x).parts = s.parts := rfl
@[simp] theorem State.setCore_dies (s : State) (c : Nat) (x : Core) : (s.setCore c x).dies = s.dies := rfl
@[simp] theorem State.setCore_slices (s : State) (c : Nat) (x : Core) : (s.setCore c x).slices = s.slices := rfl
@[simp] theorem State.setCore_inbound (s : State) (c : Nat) (x : Core) : (s.setCore c x).inbound = s.inbound := rfl
@[simp] theorem State.setCore_outbox (s : State) (c : Nat) (x : Core) : (s.setCore c x).outbox = s.outbox := rfl
@[simp] theorem State.setCore_unsent (s : State) (c : Nat) (x : Core) : (s.setCore c x).unsent = s.unsent := rfl
@[simp] theorem State.setCore_free (s : State) (c : Nat) (x : Core) : (s.setCore c x).free = s.free := rfl
@[simp] theorem State.setCore_nparks (s : State) (c : Nat) (x : Core) : (s.setCore c x).nparks = s.nparks := rfl
@[simp] theorem State.setCore_rels (s : State) (c : Nat) (x : Core) : (s.setCore c x).rels = s.rels := rfl
@[simp] theorem State.setCore_back (s : State) (c : Nat) (x : Core) : (s.setCore c x).back = s.back := rfl
@[simp] theorem State.setCore_focus (s : State) (c : Nat) (x : Core) : (s.setCore c x).focus = s.focus := rfl
@[simp] theorem State.setCore_stalled (s : State) (c : Nat) (x : Core) : (s.setCore c x).stalled = s.stalled := rfl
@[simp] theorem State.setCore_ev (s : State) (c : Nat) (x : Core) : (s.setCore c x).ev = s.ev := rfl
@[simp] theorem State.setCore_agenda (s : State) (c : Nat) (x : Core) : (s.setCore c x).agenda = s.agenda := rfl

@[simp] theorem State.setSlice_mem (s : State) (l : Nat) (x : Slice) : (s.setSlice l x).mem = s.mem := rfl
@[simp] theorem State.setSlice_poison (s : State) (l : Nat) (x : Slice) : (s.setSlice l x).poison = s.poison := rfl
@[simp] theorem State.setSlice_lostFirst (s : State) (l : Nat) (x : Slice) : (s.setSlice l x).lostFirst = s.lostFirst := rfl
@[simp] theorem State.setSlice_retiring (s : State) (l : Nat) (x : Slice) : (s.setSlice l x).retiring = s.retiring := rfl
@[simp] theorem State.setSlice_spares (s : State) (l : Nat) (x : Slice) : (s.setSlice l x).spares = s.spares := rfl
@[simp] theorem State.setSlice_clock (s : State) (l : Nat) (x : Slice) : (s.setSlice l x).clock = s.clock := rfl
@[simp] theorem State.setSlice_now (s : State) (l : Nat) (x : Slice) : (s.setSlice l x).now = s.now := rfl
@[simp] theorem State.setSlice_mregs (s : State) (l : Nat) (x : Slice) : (s.setSlice l x).mregs = s.mregs := rfl
@[simp] theorem State.setSlice_mgmt (s : State) (l : Nat) (x : Slice) : (s.setSlice l x).mgmt = s.mgmt := rfl
@[simp] theorem State.setSlice_coreOwner (s : State) (l : Nat) (x : Slice) : (s.setSlice l x).coreOwner = s.coreOwner := rfl
@[simp] theorem State.setSlice_coreHolder (s : State) (l : Nat) (x : Slice) : (s.setSlice l x).coreHolder = s.coreHolder := rfl
@[simp] theorem State.setSlice_sliceOwner (s : State) (l : Nat) (x : Slice) : (s.setSlice l x).sliceOwner = s.sliceOwner := rfl
@[simp] theorem State.setSlice_sliceHolder (s : State) (l : Nat) (x : Slice) : (s.setSlice l x).sliceHolder = s.sliceHolder := rfl
@[simp] theorem State.setSlice_groupOwner (s : State) (l : Nat) (x : Slice) : (s.setSlice l x).groupOwner = s.groupOwner := rfl
@[simp] theorem State.setSlice_ops (s : State) (l : Nat) (x : Slice) : (s.setSlice l x).ops = s.ops := rfl
@[simp] theorem State.setSlice_nops (s : State) (l : Nat) (x : Slice) : (s.setSlice l x).nops = s.nops := rfl
@[simp] theorem State.setSlice_wins (s : State) (l : Nat) (x : Slice) : (s.setSlice l x).wins = s.wins := rfl
@[simp] theorem State.setSlice_nwins (s : State) (l : Nat) (x : Slice) : (s.setSlice l x).nwins = s.nwins := rfl
@[simp] theorem State.setSlice_teams (s : State) (l : Nat) (x : Slice) : (s.setSlice l x).teams = s.teams := rfl
@[simp] theorem State.setSlice_parts (s : State) (l : Nat) (x : Slice) : (s.setSlice l x).parts = s.parts := rfl
@[simp] theorem State.setSlice_dies (s : State) (l : Nat) (x : Slice) : (s.setSlice l x).dies = s.dies := rfl
@[simp] theorem State.setSlice_cores (s : State) (l : Nat) (x : Slice) : (s.setSlice l x).cores = s.cores := rfl
@[simp] theorem State.setSlice_inbound (s : State) (l : Nat) (x : Slice) : (s.setSlice l x).inbound = s.inbound := rfl
@[simp] theorem State.setSlice_outbox (s : State) (l : Nat) (x : Slice) : (s.setSlice l x).outbox = s.outbox := rfl
@[simp] theorem State.setSlice_unsent (s : State) (l : Nat) (x : Slice) : (s.setSlice l x).unsent = s.unsent := rfl
@[simp] theorem State.setSlice_free (s : State) (l : Nat) (x : Slice) : (s.setSlice l x).free = s.free := rfl
@[simp] theorem State.setSlice_nparks (s : State) (l : Nat) (x : Slice) : (s.setSlice l x).nparks = s.nparks := rfl
@[simp] theorem State.setSlice_rels (s : State) (l : Nat) (x : Slice) : (s.setSlice l x).rels = s.rels := rfl
@[simp] theorem State.setSlice_back (s : State) (l : Nat) (x : Slice) : (s.setSlice l x).back = s.back := rfl
@[simp] theorem State.setSlice_focus (s : State) (l : Nat) (x : Slice) : (s.setSlice l x).focus = s.focus := rfl
@[simp] theorem State.setSlice_stalled (s : State) (l : Nat) (x : Slice) : (s.setSlice l x).stalled = s.stalled := rfl
@[simp] theorem State.setSlice_ev (s : State) (l : Nat) (x : Slice) : (s.setSlice l x).ev = s.ev := rfl
@[simp] theorem State.setSlice_agenda (s : State) (l : Nat) (x : Slice) : (s.setSlice l x).agenda = s.agenda := rfl

@[simp] theorem State.setDie_mem (s : State) (d : Nat) (x : Die) : (s.setDie d x).mem = s.mem := rfl
@[simp] theorem State.setDie_poison (s : State) (d : Nat) (x : Die) : (s.setDie d x).poison = s.poison := rfl
@[simp] theorem State.setDie_lostFirst (s : State) (d : Nat) (x : Die) : (s.setDie d x).lostFirst = s.lostFirst := rfl
@[simp] theorem State.setDie_retiring (s : State) (d : Nat) (x : Die) : (s.setDie d x).retiring = s.retiring := rfl
@[simp] theorem State.setDie_spares (s : State) (d : Nat) (x : Die) : (s.setDie d x).spares = s.spares := rfl
@[simp] theorem State.setDie_clock (s : State) (d : Nat) (x : Die) : (s.setDie d x).clock = s.clock := rfl
@[simp] theorem State.setDie_now (s : State) (d : Nat) (x : Die) : (s.setDie d x).now = s.now := rfl
@[simp] theorem State.setDie_mregs (s : State) (d : Nat) (x : Die) : (s.setDie d x).mregs = s.mregs := rfl
@[simp] theorem State.setDie_mgmt (s : State) (d : Nat) (x : Die) : (s.setDie d x).mgmt = s.mgmt := rfl
@[simp] theorem State.setDie_coreOwner (s : State) (d : Nat) (x : Die) : (s.setDie d x).coreOwner = s.coreOwner := rfl
@[simp] theorem State.setDie_coreHolder (s : State) (d : Nat) (x : Die) : (s.setDie d x).coreHolder = s.coreHolder := rfl
@[simp] theorem State.setDie_sliceOwner (s : State) (d : Nat) (x : Die) : (s.setDie d x).sliceOwner = s.sliceOwner := rfl
@[simp] theorem State.setDie_sliceHolder (s : State) (d : Nat) (x : Die) : (s.setDie d x).sliceHolder = s.sliceHolder := rfl
@[simp] theorem State.setDie_groupOwner (s : State) (d : Nat) (x : Die) : (s.setDie d x).groupOwner = s.groupOwner := rfl
@[simp] theorem State.setDie_ops (s : State) (d : Nat) (x : Die) : (s.setDie d x).ops = s.ops := rfl
@[simp] theorem State.setDie_nops (s : State) (d : Nat) (x : Die) : (s.setDie d x).nops = s.nops := rfl
@[simp] theorem State.setDie_wins (s : State) (d : Nat) (x : Die) : (s.setDie d x).wins = s.wins := rfl
@[simp] theorem State.setDie_nwins (s : State) (d : Nat) (x : Die) : (s.setDie d x).nwins = s.nwins := rfl
@[simp] theorem State.setDie_teams (s : State) (d : Nat) (x : Die) : (s.setDie d x).teams = s.teams := rfl
@[simp] theorem State.setDie_parts (s : State) (d : Nat) (x : Die) : (s.setDie d x).parts = s.parts := rfl
@[simp] theorem State.setDie_cores (s : State) (d : Nat) (x : Die) : (s.setDie d x).cores = s.cores := rfl
@[simp] theorem State.setDie_slices (s : State) (d : Nat) (x : Die) : (s.setDie d x).slices = s.slices := rfl
@[simp] theorem State.setDie_inbound (s : State) (d : Nat) (x : Die) : (s.setDie d x).inbound = s.inbound := rfl
@[simp] theorem State.setDie_outbox (s : State) (d : Nat) (x : Die) : (s.setDie d x).outbox = s.outbox := rfl
@[simp] theorem State.setDie_unsent (s : State) (d : Nat) (x : Die) : (s.setDie d x).unsent = s.unsent := rfl
@[simp] theorem State.setDie_free (s : State) (d : Nat) (x : Die) : (s.setDie d x).free = s.free := rfl
@[simp] theorem State.setDie_nparks (s : State) (d : Nat) (x : Die) : (s.setDie d x).nparks = s.nparks := rfl
@[simp] theorem State.setDie_rels (s : State) (d : Nat) (x : Die) : (s.setDie d x).rels = s.rels := rfl
@[simp] theorem State.setDie_back (s : State) (d : Nat) (x : Die) : (s.setDie d x).back = s.back := rfl
@[simp] theorem State.setDie_focus (s : State) (d : Nat) (x : Die) : (s.setDie d x).focus = s.focus := rfl
@[simp] theorem State.setDie_stalled (s : State) (d : Nat) (x : Die) : (s.setDie d x).stalled = s.stalled := rfl
@[simp] theorem State.setDie_ev (s : State) (d : Nat) (x : Die) : (s.setDie d x).ev = s.ev := rfl
@[simp] theorem State.setDie_agenda (s : State) (d : Nat) (x : Die) : (s.setDie d x).agenda = s.agenda := rfl

@[simp] theorem State.setPr_mem (s : State) (p k : Nat) (v : W64) : (s.setPr p k v).mem = s.mem := rfl
@[simp] theorem State.setPr_poison (s : State) (p k : Nat) (v : W64) : (s.setPr p k v).poison = s.poison := rfl
@[simp] theorem State.setPr_lostFirst (s : State) (p k : Nat) (v : W64) : (s.setPr p k v).lostFirst = s.lostFirst := rfl
@[simp] theorem State.setPr_retiring (s : State) (p k : Nat) (v : W64) : (s.setPr p k v).retiring = s.retiring := rfl
@[simp] theorem State.setPr_spares (s : State) (p k : Nat) (v : W64) : (s.setPr p k v).spares = s.spares := rfl
@[simp] theorem State.setPr_clock (s : State) (p k : Nat) (v : W64) : (s.setPr p k v).clock = s.clock := rfl
@[simp] theorem State.setPr_now (s : State) (p k : Nat) (v : W64) : (s.setPr p k v).now = s.now := rfl
@[simp] theorem State.setPr_mregs (s : State) (p k : Nat) (v : W64) : (s.setPr p k v).mregs = s.mregs := rfl
@[simp] theorem State.setPr_mgmt (s : State) (p k : Nat) (v : W64) : (s.setPr p k v).mgmt = s.mgmt := rfl
@[simp] theorem State.setPr_coreOwner (s : State) (p k : Nat) (v : W64) : (s.setPr p k v).coreOwner = s.coreOwner := rfl
@[simp] theorem State.setPr_coreHolder (s : State) (p k : Nat) (v : W64) : (s.setPr p k v).coreHolder = s.coreHolder := rfl
@[simp] theorem State.setPr_sliceOwner (s : State) (p k : Nat) (v : W64) : (s.setPr p k v).sliceOwner = s.sliceOwner := rfl
@[simp] theorem State.setPr_sliceHolder (s : State) (p k : Nat) (v : W64) : (s.setPr p k v).sliceHolder = s.sliceHolder := rfl
@[simp] theorem State.setPr_groupOwner (s : State) (p k : Nat) (v : W64) : (s.setPr p k v).groupOwner = s.groupOwner := rfl
@[simp] theorem State.setPr_ops (s : State) (p k : Nat) (v : W64) : (s.setPr p k v).ops = s.ops := rfl
@[simp] theorem State.setPr_nops (s : State) (p k : Nat) (v : W64) : (s.setPr p k v).nops = s.nops := rfl
@[simp] theorem State.setPr_wins (s : State) (p k : Nat) (v : W64) : (s.setPr p k v).wins = s.wins := rfl
@[simp] theorem State.setPr_nwins (s : State) (p k : Nat) (v : W64) : (s.setPr p k v).nwins = s.nwins := rfl
@[simp] theorem State.setPr_teams (s : State) (p k : Nat) (v : W64) : (s.setPr p k v).teams = s.teams := rfl
@[simp] theorem State.setPr_dies (s : State) (p k : Nat) (v : W64) : (s.setPr p k v).dies = s.dies := rfl
@[simp] theorem State.setPr_cores (s : State) (p k : Nat) (v : W64) : (s.setPr p k v).cores = s.cores := rfl
@[simp] theorem State.setPr_slices (s : State) (p k : Nat) (v : W64) : (s.setPr p k v).slices = s.slices := rfl
@[simp] theorem State.setPr_inbound (s : State) (p k : Nat) (v : W64) : (s.setPr p k v).inbound = s.inbound := rfl
@[simp] theorem State.setPr_outbox (s : State) (p k : Nat) (v : W64) : (s.setPr p k v).outbox = s.outbox := rfl
@[simp] theorem State.setPr_unsent (s : State) (p k : Nat) (v : W64) : (s.setPr p k v).unsent = s.unsent := rfl
@[simp] theorem State.setPr_free (s : State) (p k : Nat) (v : W64) : (s.setPr p k v).free = s.free := rfl
@[simp] theorem State.setPr_nparks (s : State) (p k : Nat) (v : W64) : (s.setPr p k v).nparks = s.nparks := rfl
@[simp] theorem State.setPr_rels (s : State) (p k : Nat) (v : W64) : (s.setPr p k v).rels = s.rels := rfl
@[simp] theorem State.setPr_back (s : State) (p k : Nat) (v : W64) : (s.setPr p k v).back = s.back := rfl
@[simp] theorem State.setPr_focus (s : State) (p k : Nat) (v : W64) : (s.setPr p k v).focus = s.focus := rfl
@[simp] theorem State.setPr_stalled (s : State) (p k : Nat) (v : W64) : (s.setPr p k v).stalled = s.stalled := rfl
@[simp] theorem State.setPr_ev (s : State) (p k : Nat) (v : W64) : (s.setPr p k v).ev = s.ev := rfl
@[simp] theorem State.setPr_agenda (s : State) (p k : Nat) (v : W64) : (s.setPr p k v).agenda = s.agenda := rfl

@[simp] theorem State.setMr_mem (s : State) (n : Nat) (v : W64) : (s.setMr n v).mem = s.mem := rfl
@[simp] theorem State.setMr_poison (s : State) (n : Nat) (v : W64) : (s.setMr n v).poison = s.poison := rfl
@[simp] theorem State.setMr_lostFirst (s : State) (n : Nat) (v : W64) : (s.setMr n v).lostFirst = s.lostFirst := rfl
@[simp] theorem State.setMr_retiring (s : State) (n : Nat) (v : W64) : (s.setMr n v).retiring = s.retiring := rfl
@[simp] theorem State.setMr_spares (s : State) (n : Nat) (v : W64) : (s.setMr n v).spares = s.spares := rfl
@[simp] theorem State.setMr_clock (s : State) (n : Nat) (v : W64) : (s.setMr n v).clock = s.clock := rfl
@[simp] theorem State.setMr_now (s : State) (n : Nat) (v : W64) : (s.setMr n v).now = s.now := rfl
@[simp] theorem State.setMr_mgmt (s : State) (n : Nat) (v : W64) : (s.setMr n v).mgmt = s.mgmt := rfl
@[simp] theorem State.setMr_coreOwner (s : State) (n : Nat) (v : W64) : (s.setMr n v).coreOwner = s.coreOwner := rfl
@[simp] theorem State.setMr_coreHolder (s : State) (n : Nat) (v : W64) : (s.setMr n v).coreHolder = s.coreHolder := rfl
@[simp] theorem State.setMr_sliceOwner (s : State) (n : Nat) (v : W64) : (s.setMr n v).sliceOwner = s.sliceOwner := rfl
@[simp] theorem State.setMr_sliceHolder (s : State) (n : Nat) (v : W64) : (s.setMr n v).sliceHolder = s.sliceHolder := rfl
@[simp] theorem State.setMr_groupOwner (s : State) (n : Nat) (v : W64) : (s.setMr n v).groupOwner = s.groupOwner := rfl
@[simp] theorem State.setMr_ops (s : State) (n : Nat) (v : W64) : (s.setMr n v).ops = s.ops := rfl
@[simp] theorem State.setMr_nops (s : State) (n : Nat) (v : W64) : (s.setMr n v).nops = s.nops := rfl
@[simp] theorem State.setMr_wins (s : State) (n : Nat) (v : W64) : (s.setMr n v).wins = s.wins := rfl
@[simp] theorem State.setMr_nwins (s : State) (n : Nat) (v : W64) : (s.setMr n v).nwins = s.nwins := rfl
@[simp] theorem State.setMr_teams (s : State) (n : Nat) (v : W64) : (s.setMr n v).teams = s.teams := rfl
@[simp] theorem State.setMr_parts (s : State) (n : Nat) (v : W64) : (s.setMr n v).parts = s.parts := rfl
@[simp] theorem State.setMr_dies (s : State) (n : Nat) (v : W64) : (s.setMr n v).dies = s.dies := rfl
@[simp] theorem State.setMr_cores (s : State) (n : Nat) (v : W64) : (s.setMr n v).cores = s.cores := rfl
@[simp] theorem State.setMr_slices (s : State) (n : Nat) (v : W64) : (s.setMr n v).slices = s.slices := rfl
@[simp] theorem State.setMr_inbound (s : State) (n : Nat) (v : W64) : (s.setMr n v).inbound = s.inbound := rfl
@[simp] theorem State.setMr_outbox (s : State) (n : Nat) (v : W64) : (s.setMr n v).outbox = s.outbox := rfl
@[simp] theorem State.setMr_unsent (s : State) (n : Nat) (v : W64) : (s.setMr n v).unsent = s.unsent := rfl
@[simp] theorem State.setMr_free (s : State) (n : Nat) (v : W64) : (s.setMr n v).free = s.free := rfl
@[simp] theorem State.setMr_nparks (s : State) (n : Nat) (v : W64) : (s.setMr n v).nparks = s.nparks := rfl
@[simp] theorem State.setMr_rels (s : State) (n : Nat) (v : W64) : (s.setMr n v).rels = s.rels := rfl
@[simp] theorem State.setMr_back (s : State) (n : Nat) (v : W64) : (s.setMr n v).back = s.back := rfl
@[simp] theorem State.setMr_focus (s : State) (n : Nat) (v : W64) : (s.setMr n v).focus = s.focus := rfl
@[simp] theorem State.setMr_stalled (s : State) (n : Nat) (v : W64) : (s.setMr n v).stalled = s.stalled := rfl
@[simp] theorem State.setMr_ev (s : State) (n : Nat) (v : W64) : (s.setMr n v).ev = s.ev := rfl
@[simp] theorem State.setMr_agenda (s : State) (n : Nat) (v : W64) : (s.setMr n v).agenda = s.agenda := rfl

@[simp] theorem State.bump_mem (s : State) (p k n : Nat) : (s.bump p k n).mem = s.mem := rfl
@[simp] theorem State.bump_poison (s : State) (p k n : Nat) : (s.bump p k n).poison = s.poison := rfl
@[simp] theorem State.bump_lostFirst (s : State) (p k n : Nat) : (s.bump p k n).lostFirst = s.lostFirst := rfl
@[simp] theorem State.bump_retiring (s : State) (p k n : Nat) : (s.bump p k n).retiring = s.retiring := rfl
@[simp] theorem State.bump_spares (s : State) (p k n : Nat) : (s.bump p k n).spares = s.spares := rfl
@[simp] theorem State.bump_clock (s : State) (p k n : Nat) : (s.bump p k n).clock = s.clock := rfl
@[simp] theorem State.bump_now (s : State) (p k n : Nat) : (s.bump p k n).now = s.now := rfl
@[simp] theorem State.bump_mregs (s : State) (p k n : Nat) : (s.bump p k n).mregs = s.mregs := rfl
@[simp] theorem State.bump_mgmt (s : State) (p k n : Nat) : (s.bump p k n).mgmt = s.mgmt := rfl
@[simp] theorem State.bump_coreOwner (s : State) (p k n : Nat) : (s.bump p k n).coreOwner = s.coreOwner := rfl
@[simp] theorem State.bump_coreHolder (s : State) (p k n : Nat) : (s.bump p k n).coreHolder = s.coreHolder := rfl
@[simp] theorem State.bump_sliceOwner (s : State) (p k n : Nat) : (s.bump p k n).sliceOwner = s.sliceOwner := rfl
@[simp] theorem State.bump_sliceHolder (s : State) (p k n : Nat) : (s.bump p k n).sliceHolder = s.sliceHolder := rfl
@[simp] theorem State.bump_groupOwner (s : State) (p k n : Nat) : (s.bump p k n).groupOwner = s.groupOwner := rfl
@[simp] theorem State.bump_ops (s : State) (p k n : Nat) : (s.bump p k n).ops = s.ops := rfl
@[simp] theorem State.bump_nops (s : State) (p k n : Nat) : (s.bump p k n).nops = s.nops := rfl
@[simp] theorem State.bump_wins (s : State) (p k n : Nat) : (s.bump p k n).wins = s.wins := rfl
@[simp] theorem State.bump_nwins (s : State) (p k n : Nat) : (s.bump p k n).nwins = s.nwins := rfl
@[simp] theorem State.bump_teams (s : State) (p k n : Nat) : (s.bump p k n).teams = s.teams := rfl
@[simp] theorem State.bump_dies (s : State) (p k n : Nat) : (s.bump p k n).dies = s.dies := rfl
@[simp] theorem State.bump_cores (s : State) (p k n : Nat) : (s.bump p k n).cores = s.cores := rfl
@[simp] theorem State.bump_slices (s : State) (p k n : Nat) : (s.bump p k n).slices = s.slices := rfl
@[simp] theorem State.bump_inbound (s : State) (p k n : Nat) : (s.bump p k n).inbound = s.inbound := rfl
@[simp] theorem State.bump_outbox (s : State) (p k n : Nat) : (s.bump p k n).outbox = s.outbox := rfl
@[simp] theorem State.bump_unsent (s : State) (p k n : Nat) : (s.bump p k n).unsent = s.unsent := rfl
@[simp] theorem State.bump_free (s : State) (p k n : Nat) : (s.bump p k n).free = s.free := rfl
@[simp] theorem State.bump_nparks (s : State) (p k n : Nat) : (s.bump p k n).nparks = s.nparks := rfl
@[simp] theorem State.bump_rels (s : State) (p k n : Nat) : (s.bump p k n).rels = s.rels := rfl
@[simp] theorem State.bump_back (s : State) (p k n : Nat) : (s.bump p k n).back = s.back := rfl
@[simp] theorem State.bump_focus (s : State) (p k n : Nat) : (s.bump p k n).focus = s.focus := rfl
@[simp] theorem State.bump_stalled (s : State) (p k n : Nat) : (s.bump p k n).stalled = s.stalled := rfl
@[simp] theorem State.bump_ev (s : State) (p k n : Nat) : (s.bump p k n).ev = s.ev := rfl
@[simp] theorem State.bump_agenda (s : State) (p k n : Nat) : (s.bump p k n).agenda = s.agenda := rfl

@[simp] theorem State.putByte_poison (s : State) (pa : Nat) (b : Byte) : (s.putByte pa b).poison = s.poison := rfl
@[simp] theorem State.putByte_lostFirst (s : State) (pa : Nat) (b : Byte) : (s.putByte pa b).lostFirst = s.lostFirst := rfl
@[simp] theorem State.putByte_retiring (s : State) (pa : Nat) (b : Byte) : (s.putByte pa b).retiring = s.retiring := rfl
@[simp] theorem State.putByte_spares (s : State) (pa : Nat) (b : Byte) : (s.putByte pa b).spares = s.spares := rfl
@[simp] theorem State.putByte_clock (s : State) (pa : Nat) (b : Byte) : (s.putByte pa b).clock = s.clock := rfl
@[simp] theorem State.putByte_now (s : State) (pa : Nat) (b : Byte) : (s.putByte pa b).now = s.now := rfl
@[simp] theorem State.putByte_mregs (s : State) (pa : Nat) (b : Byte) : (s.putByte pa b).mregs = s.mregs := rfl
@[simp] theorem State.putByte_mgmt (s : State) (pa : Nat) (b : Byte) : (s.putByte pa b).mgmt = s.mgmt := rfl
@[simp] theorem State.putByte_coreOwner (s : State) (pa : Nat) (b : Byte) : (s.putByte pa b).coreOwner = s.coreOwner := rfl
@[simp] theorem State.putByte_coreHolder (s : State) (pa : Nat) (b : Byte) : (s.putByte pa b).coreHolder = s.coreHolder := rfl
@[simp] theorem State.putByte_sliceOwner (s : State) (pa : Nat) (b : Byte) : (s.putByte pa b).sliceOwner = s.sliceOwner := rfl
@[simp] theorem State.putByte_sliceHolder (s : State) (pa : Nat) (b : Byte) : (s.putByte pa b).sliceHolder = s.sliceHolder := rfl
@[simp] theorem State.putByte_groupOwner (s : State) (pa : Nat) (b : Byte) : (s.putByte pa b).groupOwner = s.groupOwner := rfl
@[simp] theorem State.putByte_ops (s : State) (pa : Nat) (b : Byte) : (s.putByte pa b).ops = s.ops := rfl
@[simp] theorem State.putByte_nops (s : State) (pa : Nat) (b : Byte) : (s.putByte pa b).nops = s.nops := rfl
@[simp] theorem State.putByte_wins (s : State) (pa : Nat) (b : Byte) : (s.putByte pa b).wins = s.wins := rfl
@[simp] theorem State.putByte_nwins (s : State) (pa : Nat) (b : Byte) : (s.putByte pa b).nwins = s.nwins := rfl
@[simp] theorem State.putByte_teams (s : State) (pa : Nat) (b : Byte) : (s.putByte pa b).teams = s.teams := rfl
@[simp] theorem State.putByte_parts (s : State) (pa : Nat) (b : Byte) : (s.putByte pa b).parts = s.parts := rfl
@[simp] theorem State.putByte_dies (s : State) (pa : Nat) (b : Byte) : (s.putByte pa b).dies = s.dies := rfl
@[simp] theorem State.putByte_cores (s : State) (pa : Nat) (b : Byte) : (s.putByte pa b).cores = s.cores := rfl
@[simp] theorem State.putByte_slices (s : State) (pa : Nat) (b : Byte) : (s.putByte pa b).slices = s.slices := rfl
@[simp] theorem State.putByte_inbound (s : State) (pa : Nat) (b : Byte) : (s.putByte pa b).inbound = s.inbound := rfl
@[simp] theorem State.putByte_outbox (s : State) (pa : Nat) (b : Byte) : (s.putByte pa b).outbox = s.outbox := rfl
@[simp] theorem State.putByte_unsent (s : State) (pa : Nat) (b : Byte) : (s.putByte pa b).unsent = s.unsent := rfl
@[simp] theorem State.putByte_free (s : State) (pa : Nat) (b : Byte) : (s.putByte pa b).free = s.free := rfl
@[simp] theorem State.putByte_nparks (s : State) (pa : Nat) (b : Byte) : (s.putByte pa b).nparks = s.nparks := rfl
@[simp] theorem State.putByte_rels (s : State) (pa : Nat) (b : Byte) : (s.putByte pa b).rels = s.rels := rfl
@[simp] theorem State.putByte_back (s : State) (pa : Nat) (b : Byte) : (s.putByte pa b).back = s.back := rfl
@[simp] theorem State.putByte_focus (s : State) (pa : Nat) (b : Byte) : (s.putByte pa b).focus = s.focus := rfl
@[simp] theorem State.putByte_stalled (s : State) (pa : Nat) (b : Byte) : (s.putByte pa b).stalled = s.stalled := rfl
@[simp] theorem State.putByte_ev (s : State) (pa : Nat) (b : Byte) : (s.putByte pa b).ev = s.ev := rfl
@[simp] theorem State.putByte_agenda (s : State) (pa : Nat) (b : Byte) : (s.putByte pa b).agenda = s.agenda := rfl

@[simp] theorem State.setPoison_mem (s : State) (pa : Nat) (m : W32) : (s.setPoison pa m).mem = s.mem := rfl
@[simp] theorem State.setPoison_lostFirst (s : State) (pa : Nat) (m : W32) : (s.setPoison pa m).lostFirst = s.lostFirst := rfl
@[simp] theorem State.setPoison_retiring (s : State) (pa : Nat) (m : W32) : (s.setPoison pa m).retiring = s.retiring := rfl
@[simp] theorem State.setPoison_spares (s : State) (pa : Nat) (m : W32) : (s.setPoison pa m).spares = s.spares := rfl
@[simp] theorem State.setPoison_clock (s : State) (pa : Nat) (m : W32) : (s.setPoison pa m).clock = s.clock := rfl
@[simp] theorem State.setPoison_now (s : State) (pa : Nat) (m : W32) : (s.setPoison pa m).now = s.now := rfl
@[simp] theorem State.setPoison_mregs (s : State) (pa : Nat) (m : W32) : (s.setPoison pa m).mregs = s.mregs := rfl
@[simp] theorem State.setPoison_mgmt (s : State) (pa : Nat) (m : W32) : (s.setPoison pa m).mgmt = s.mgmt := rfl
@[simp] theorem State.setPoison_coreOwner (s : State) (pa : Nat) (m : W32) : (s.setPoison pa m).coreOwner = s.coreOwner := rfl
@[simp] theorem State.setPoison_coreHolder (s : State) (pa : Nat) (m : W32) : (s.setPoison pa m).coreHolder = s.coreHolder := rfl
@[simp] theorem State.setPoison_sliceOwner (s : State) (pa : Nat) (m : W32) : (s.setPoison pa m).sliceOwner = s.sliceOwner := rfl
@[simp] theorem State.setPoison_sliceHolder (s : State) (pa : Nat) (m : W32) : (s.setPoison pa m).sliceHolder = s.sliceHolder := rfl
@[simp] theorem State.setPoison_groupOwner (s : State) (pa : Nat) (m : W32) : (s.setPoison pa m).groupOwner = s.groupOwner := rfl
@[simp] theorem State.setPoison_ops (s : State) (pa : Nat) (m : W32) : (s.setPoison pa m).ops = s.ops := rfl
@[simp] theorem State.setPoison_nops (s : State) (pa : Nat) (m : W32) : (s.setPoison pa m).nops = s.nops := rfl
@[simp] theorem State.setPoison_wins (s : State) (pa : Nat) (m : W32) : (s.setPoison pa m).wins = s.wins := rfl
@[simp] theorem State.setPoison_nwins (s : State) (pa : Nat) (m : W32) : (s.setPoison pa m).nwins = s.nwins := rfl
@[simp] theorem State.setPoison_teams (s : State) (pa : Nat) (m : W32) : (s.setPoison pa m).teams = s.teams := rfl
@[simp] theorem State.setPoison_parts (s : State) (pa : Nat) (m : W32) : (s.setPoison pa m).parts = s.parts := rfl
@[simp] theorem State.setPoison_dies (s : State) (pa : Nat) (m : W32) : (s.setPoison pa m).dies = s.dies := rfl
@[simp] theorem State.setPoison_cores (s : State) (pa : Nat) (m : W32) : (s.setPoison pa m).cores = s.cores := rfl
@[simp] theorem State.setPoison_slices (s : State) (pa : Nat) (m : W32) : (s.setPoison pa m).slices = s.slices := rfl
@[simp] theorem State.setPoison_inbound (s : State) (pa : Nat) (m : W32) : (s.setPoison pa m).inbound = s.inbound := rfl
@[simp] theorem State.setPoison_outbox (s : State) (pa : Nat) (m : W32) : (s.setPoison pa m).outbox = s.outbox := rfl
@[simp] theorem State.setPoison_unsent (s : State) (pa : Nat) (m : W32) : (s.setPoison pa m).unsent = s.unsent := rfl
@[simp] theorem State.setPoison_free (s : State) (pa : Nat) (m : W32) : (s.setPoison pa m).free = s.free := rfl
@[simp] theorem State.setPoison_nparks (s : State) (pa : Nat) (m : W32) : (s.setPoison pa m).nparks = s.nparks := rfl
@[simp] theorem State.setPoison_rels (s : State) (pa : Nat) (m : W32) : (s.setPoison pa m).rels = s.rels := rfl
@[simp] theorem State.setPoison_back (s : State) (pa : Nat) (m : W32) : (s.setPoison pa m).back = s.back := rfl
@[simp] theorem State.setPoison_focus (s : State) (pa : Nat) (m : W32) : (s.setPoison pa m).focus = s.focus := rfl
@[simp] theorem State.setPoison_stalled (s : State) (pa : Nat) (m : W32) : (s.setPoison pa m).stalled = s.stalled := rfl
@[simp] theorem State.setPoison_ev (s : State) (pa : Nat) (m : W32) : (s.setPoison pa m).ev = s.ev := rfl
@[simp] theorem State.setPoison_agenda (s : State) (pa : Nat) (m : W32) : (s.setPoison pa m).agenda = s.agenda := rfl

@[simp] theorem State.unpoison_mem (s : State) (pa : Nat) : (s.unpoison pa).mem = s.mem := rfl
@[simp] theorem State.unpoison_lostFirst (s : State) (pa : Nat) : (s.unpoison pa).lostFirst = s.lostFirst := rfl
@[simp] theorem State.unpoison_retiring (s : State) (pa : Nat) : (s.unpoison pa).retiring = s.retiring := rfl
@[simp] theorem State.unpoison_spares (s : State) (pa : Nat) : (s.unpoison pa).spares = s.spares := rfl
@[simp] theorem State.unpoison_clock (s : State) (pa : Nat) : (s.unpoison pa).clock = s.clock := rfl
@[simp] theorem State.unpoison_now (s : State) (pa : Nat) : (s.unpoison pa).now = s.now := rfl
@[simp] theorem State.unpoison_mregs (s : State) (pa : Nat) : (s.unpoison pa).mregs = s.mregs := rfl
@[simp] theorem State.unpoison_mgmt (s : State) (pa : Nat) : (s.unpoison pa).mgmt = s.mgmt := rfl
@[simp] theorem State.unpoison_coreOwner (s : State) (pa : Nat) : (s.unpoison pa).coreOwner = s.coreOwner := rfl
@[simp] theorem State.unpoison_coreHolder (s : State) (pa : Nat) : (s.unpoison pa).coreHolder = s.coreHolder := rfl
@[simp] theorem State.unpoison_sliceOwner (s : State) (pa : Nat) : (s.unpoison pa).sliceOwner = s.sliceOwner := rfl
@[simp] theorem State.unpoison_sliceHolder (s : State) (pa : Nat) : (s.unpoison pa).sliceHolder = s.sliceHolder := rfl
@[simp] theorem State.unpoison_groupOwner (s : State) (pa : Nat) : (s.unpoison pa).groupOwner = s.groupOwner := rfl
@[simp] theorem State.unpoison_ops (s : State) (pa : Nat) : (s.unpoison pa).ops = s.ops := rfl
@[simp] theorem State.unpoison_nops (s : State) (pa : Nat) : (s.unpoison pa).nops = s.nops := rfl
@[simp] theorem State.unpoison_wins (s : State) (pa : Nat) : (s.unpoison pa).wins = s.wins := rfl
@[simp] theorem State.unpoison_nwins (s : State) (pa : Nat) : (s.unpoison pa).nwins = s.nwins := rfl
@[simp] theorem State.unpoison_teams (s : State) (pa : Nat) : (s.unpoison pa).teams = s.teams := rfl
@[simp] theorem State.unpoison_parts (s : State) (pa : Nat) : (s.unpoison pa).parts = s.parts := rfl
@[simp] theorem State.unpoison_dies (s : State) (pa : Nat) : (s.unpoison pa).dies = s.dies := rfl
@[simp] theorem State.unpoison_cores (s : State) (pa : Nat) : (s.unpoison pa).cores = s.cores := rfl
@[simp] theorem State.unpoison_slices (s : State) (pa : Nat) : (s.unpoison pa).slices = s.slices := rfl
@[simp] theorem State.unpoison_inbound (s : State) (pa : Nat) : (s.unpoison pa).inbound = s.inbound := rfl
@[simp] theorem State.unpoison_outbox (s : State) (pa : Nat) : (s.unpoison pa).outbox = s.outbox := rfl
@[simp] theorem State.unpoison_unsent (s : State) (pa : Nat) : (s.unpoison pa).unsent = s.unsent := rfl
@[simp] theorem State.unpoison_free (s : State) (pa : Nat) : (s.unpoison pa).free = s.free := rfl
@[simp] theorem State.unpoison_nparks (s : State) (pa : Nat) : (s.unpoison pa).nparks = s.nparks := rfl
@[simp] theorem State.unpoison_rels (s : State) (pa : Nat) : (s.unpoison pa).rels = s.rels := rfl
@[simp] theorem State.unpoison_back (s : State) (pa : Nat) : (s.unpoison pa).back = s.back := rfl
@[simp] theorem State.unpoison_focus (s : State) (pa : Nat) : (s.unpoison pa).focus = s.focus := rfl
@[simp] theorem State.unpoison_stalled (s : State) (pa : Nat) : (s.unpoison pa).stalled = s.stalled := rfl
@[simp] theorem State.unpoison_ev (s : State) (pa : Nat) : (s.unpoison pa).ev = s.ev := rfl
@[simp] theorem State.unpoison_agenda (s : State) (pa : Nat) : (s.unpoison pa).agenda = s.agenda := rfl

@[simp] theorem State.modPart_mem (s : State) (p : Nat) (f : Partition → Partition) : (s.modPart p f).mem = s.mem := rfl
@[simp] theorem State.modPart_poison (s : State) (p : Nat) (f : Partition → Partition) : (s.modPart p f).poison = s.poison := rfl
@[simp] theorem State.modPart_lostFirst (s : State) (p : Nat) (f : Partition → Partition) : (s.modPart p f).lostFirst = s.lostFirst := rfl
@[simp] theorem State.modPart_retiring (s : State) (p : Nat) (f : Partition → Partition) : (s.modPart p f).retiring = s.retiring := rfl
@[simp] theorem State.modPart_spares (s : State) (p : Nat) (f : Partition → Partition) : (s.modPart p f).spares = s.spares := rfl
@[simp] theorem State.modPart_clock (s : State) (p : Nat) (f : Partition → Partition) : (s.modPart p f).clock = s.clock := rfl
@[simp] theorem State.modPart_now (s : State) (p : Nat) (f : Partition → Partition) : (s.modPart p f).now = s.now := rfl
@[simp] theorem State.modPart_mregs (s : State) (p : Nat) (f : Partition → Partition) : (s.modPart p f).mregs = s.mregs := rfl
@[simp] theorem State.modPart_mgmt (s : State) (p : Nat) (f : Partition → Partition) : (s.modPart p f).mgmt = s.mgmt := rfl
@[simp] theorem State.modPart_coreOwner (s : State) (p : Nat) (f : Partition → Partition) : (s.modPart p f).coreOwner = s.coreOwner := rfl
@[simp] theorem State.modPart_coreHolder (s : State) (p : Nat) (f : Partition → Partition) : (s.modPart p f).coreHolder = s.coreHolder := rfl
@[simp] theorem State.modPart_sliceOwner (s : State) (p : Nat) (f : Partition → Partition) : (s.modPart p f).sliceOwner = s.sliceOwner := rfl
@[simp] theorem State.modPart_sliceHolder (s : State) (p : Nat) (f : Partition → Partition) : (s.modPart p f).sliceHolder = s.sliceHolder := rfl
@[simp] theorem State.modPart_groupOwner (s : State) (p : Nat) (f : Partition → Partition) : (s.modPart p f).groupOwner = s.groupOwner := rfl
@[simp] theorem State.modPart_ops (s : State) (p : Nat) (f : Partition → Partition) : (s.modPart p f).ops = s.ops := rfl
@[simp] theorem State.modPart_nops (s : State) (p : Nat) (f : Partition → Partition) : (s.modPart p f).nops = s.nops := rfl
@[simp] theorem State.modPart_wins (s : State) (p : Nat) (f : Partition → Partition) : (s.modPart p f).wins = s.wins := rfl
@[simp] theorem State.modPart_nwins (s : State) (p : Nat) (f : Partition → Partition) : (s.modPart p f).nwins = s.nwins := rfl
@[simp] theorem State.modPart_teams (s : State) (p : Nat) (f : Partition → Partition) : (s.modPart p f).teams = s.teams := rfl
@[simp] theorem State.modPart_dies (s : State) (p : Nat) (f : Partition → Partition) : (s.modPart p f).dies = s.dies := rfl
@[simp] theorem State.modPart_cores (s : State) (p : Nat) (f : Partition → Partition) : (s.modPart p f).cores = s.cores := rfl
@[simp] theorem State.modPart_slices (s : State) (p : Nat) (f : Partition → Partition) : (s.modPart p f).slices = s.slices := rfl
@[simp] theorem State.modPart_inbound (s : State) (p : Nat) (f : Partition → Partition) : (s.modPart p f).inbound = s.inbound := rfl
@[simp] theorem State.modPart_outbox (s : State) (p : Nat) (f : Partition → Partition) : (s.modPart p f).outbox = s.outbox := rfl
@[simp] theorem State.modPart_unsent (s : State) (p : Nat) (f : Partition → Partition) : (s.modPart p f).unsent = s.unsent := rfl
@[simp] theorem State.modPart_free (s : State) (p : Nat) (f : Partition → Partition) : (s.modPart p f).free = s.free := rfl
@[simp] theorem State.modPart_nparks (s : State) (p : Nat) (f : Partition → Partition) : (s.modPart p f).nparks = s.nparks := rfl
@[simp] theorem State.modPart_rels (s : State) (p : Nat) (f : Partition → Partition) : (s.modPart p f).rels = s.rels := rfl
@[simp] theorem State.modPart_back (s : State) (p : Nat) (f : Partition → Partition) : (s.modPart p f).back = s.back := rfl
@[simp] theorem State.modPart_focus (s : State) (p : Nat) (f : Partition → Partition) : (s.modPart p f).focus = s.focus := rfl
@[simp] theorem State.modPart_stalled (s : State) (p : Nat) (f : Partition → Partition) : (s.modPart p f).stalled = s.stalled := rfl
@[simp] theorem State.modPart_ev (s : State) (p : Nat) (f : Partition → Partition) : (s.modPart p f).ev = s.ev := rfl
@[simp] theorem State.modPart_agenda (s : State) (p : Nat) (f : Partition → Partition) : (s.modPart p f).agenda = s.agenda := rfl

@[simp] theorem State.modCore_mem (s : State) (c : Nat) (f : Core → Core) : (s.modCore c f).mem = s.mem := rfl
@[simp] theorem State.modCore_poison (s : State) (c : Nat) (f : Core → Core) : (s.modCore c f).poison = s.poison := rfl
@[simp] theorem State.modCore_lostFirst (s : State) (c : Nat) (f : Core → Core) : (s.modCore c f).lostFirst = s.lostFirst := rfl
@[simp] theorem State.modCore_retiring (s : State) (c : Nat) (f : Core → Core) : (s.modCore c f).retiring = s.retiring := rfl
@[simp] theorem State.modCore_spares (s : State) (c : Nat) (f : Core → Core) : (s.modCore c f).spares = s.spares := rfl
@[simp] theorem State.modCore_clock (s : State) (c : Nat) (f : Core → Core) : (s.modCore c f).clock = s.clock := rfl
@[simp] theorem State.modCore_now (s : State) (c : Nat) (f : Core → Core) : (s.modCore c f).now = s.now := rfl
@[simp] theorem State.modCore_mregs (s : State) (c : Nat) (f : Core → Core) : (s.modCore c f).mregs = s.mregs := rfl
@[simp] theorem State.modCore_mgmt (s : State) (c : Nat) (f : Core → Core) : (s.modCore c f).mgmt = s.mgmt := rfl
@[simp] theorem State.modCore_coreOwner (s : State) (c : Nat) (f : Core → Core) : (s.modCore c f).coreOwner = s.coreOwner := rfl
@[simp] theorem State.modCore_coreHolder (s : State) (c : Nat) (f : Core → Core) : (s.modCore c f).coreHolder = s.coreHolder := rfl
@[simp] theorem State.modCore_sliceOwner (s : State) (c : Nat) (f : Core → Core) : (s.modCore c f).sliceOwner = s.sliceOwner := rfl
@[simp] theorem State.modCore_sliceHolder (s : State) (c : Nat) (f : Core → Core) : (s.modCore c f).sliceHolder = s.sliceHolder := rfl
@[simp] theorem State.modCore_groupOwner (s : State) (c : Nat) (f : Core → Core) : (s.modCore c f).groupOwner = s.groupOwner := rfl
@[simp] theorem State.modCore_ops (s : State) (c : Nat) (f : Core → Core) : (s.modCore c f).ops = s.ops := rfl
@[simp] theorem State.modCore_nops (s : State) (c : Nat) (f : Core → Core) : (s.modCore c f).nops = s.nops := rfl
@[simp] theorem State.modCore_wins (s : State) (c : Nat) (f : Core → Core) : (s.modCore c f).wins = s.wins := rfl
@[simp] theorem State.modCore_nwins (s : State) (c : Nat) (f : Core → Core) : (s.modCore c f).nwins = s.nwins := rfl
@[simp] theorem State.modCore_teams (s : State) (c : Nat) (f : Core → Core) : (s.modCore c f).teams = s.teams := rfl
@[simp] theorem State.modCore_parts (s : State) (c : Nat) (f : Core → Core) : (s.modCore c f).parts = s.parts := rfl
@[simp] theorem State.modCore_dies (s : State) (c : Nat) (f : Core → Core) : (s.modCore c f).dies = s.dies := rfl
@[simp] theorem State.modCore_slices (s : State) (c : Nat) (f : Core → Core) : (s.modCore c f).slices = s.slices := rfl
@[simp] theorem State.modCore_inbound (s : State) (c : Nat) (f : Core → Core) : (s.modCore c f).inbound = s.inbound := rfl
@[simp] theorem State.modCore_outbox (s : State) (c : Nat) (f : Core → Core) : (s.modCore c f).outbox = s.outbox := rfl
@[simp] theorem State.modCore_unsent (s : State) (c : Nat) (f : Core → Core) : (s.modCore c f).unsent = s.unsent := rfl
@[simp] theorem State.modCore_free (s : State) (c : Nat) (f : Core → Core) : (s.modCore c f).free = s.free := rfl
@[simp] theorem State.modCore_nparks (s : State) (c : Nat) (f : Core → Core) : (s.modCore c f).nparks = s.nparks := rfl
@[simp] theorem State.modCore_rels (s : State) (c : Nat) (f : Core → Core) : (s.modCore c f).rels = s.rels := rfl
@[simp] theorem State.modCore_back (s : State) (c : Nat) (f : Core → Core) : (s.modCore c f).back = s.back := rfl
@[simp] theorem State.modCore_focus (s : State) (c : Nat) (f : Core → Core) : (s.modCore c f).focus = s.focus := rfl
@[simp] theorem State.modCore_stalled (s : State) (c : Nat) (f : Core → Core) : (s.modCore c f).stalled = s.stalled := rfl
@[simp] theorem State.modCore_ev (s : State) (c : Nat) (f : Core → Core) : (s.modCore c f).ev = s.ev := rfl
@[simp] theorem State.modCore_agenda (s : State) (c : Nat) (f : Core → Core) : (s.modCore c f).agenda = s.agenda := rfl

@[simp] theorem State.modSlice_mem (s : State) (l : Nat) (f : Slice → Slice) : (s.modSlice l f).mem = s.mem := rfl
@[simp] theorem State.modSlice_poison (s : State) (l : Nat) (f : Slice → Slice) : (s.modSlice l f).poison = s.poison := rfl
@[simp] theorem State.modSlice_lostFirst (s : State) (l : Nat) (f : Slice → Slice) : (s.modSlice l f).lostFirst = s.lostFirst := rfl
@[simp] theorem State.modSlice_retiring (s : State) (l : Nat) (f : Slice → Slice) : (s.modSlice l f).retiring = s.retiring := rfl
@[simp] theorem State.modSlice_spares (s : State) (l : Nat) (f : Slice → Slice) : (s.modSlice l f).spares = s.spares := rfl
@[simp] theorem State.modSlice_clock (s : State) (l : Nat) (f : Slice → Slice) : (s.modSlice l f).clock = s.clock := rfl
@[simp] theorem State.modSlice_now (s : State) (l : Nat) (f : Slice → Slice) : (s.modSlice l f).now = s.now := rfl
@[simp] theorem State.modSlice_mregs (s : State) (l : Nat) (f : Slice → Slice) : (s.modSlice l f).mregs = s.mregs := rfl
@[simp] theorem State.modSlice_mgmt (s : State) (l : Nat) (f : Slice → Slice) : (s.modSlice l f).mgmt = s.mgmt := rfl
@[simp] theorem State.modSlice_coreOwner (s : State) (l : Nat) (f : Slice → Slice) : (s.modSlice l f).coreOwner = s.coreOwner := rfl
@[simp] theorem State.modSlice_coreHolder (s : State) (l : Nat) (f : Slice → Slice) : (s.modSlice l f).coreHolder = s.coreHolder := rfl
@[simp] theorem State.modSlice_sliceOwner (s : State) (l : Nat) (f : Slice → Slice) : (s.modSlice l f).sliceOwner = s.sliceOwner := rfl
@[simp] theorem State.modSlice_sliceHolder (s : State) (l : Nat) (f : Slice → Slice) : (s.modSlice l f).sliceHolder = s.sliceHolder := rfl
@[simp] theorem State.modSlice_groupOwner (s : State) (l : Nat) (f : Slice → Slice) : (s.modSlice l f).groupOwner = s.groupOwner := rfl
@[simp] theorem State.modSlice_ops (s : State) (l : Nat) (f : Slice → Slice) : (s.modSlice l f).ops = s.ops := rfl
@[simp] theorem State.modSlice_nops (s : State) (l : Nat) (f : Slice → Slice) : (s.modSlice l f).nops = s.nops := rfl
@[simp] theorem State.modSlice_wins (s : State) (l : Nat) (f : Slice → Slice) : (s.modSlice l f).wins = s.wins := rfl
@[simp] theorem State.modSlice_nwins (s : State) (l : Nat) (f : Slice → Slice) : (s.modSlice l f).nwins = s.nwins := rfl
@[simp] theorem State.modSlice_teams (s : State) (l : Nat) (f : Slice → Slice) : (s.modSlice l f).teams = s.teams := rfl
@[simp] theorem State.modSlice_parts (s : State) (l : Nat) (f : Slice → Slice) : (s.modSlice l f).parts = s.parts := rfl
@[simp] theorem State.modSlice_dies (s : State) (l : Nat) (f : Slice → Slice) : (s.modSlice l f).dies = s.dies := rfl
@[simp] theorem State.modSlice_cores (s : State) (l : Nat) (f : Slice → Slice) : (s.modSlice l f).cores = s.cores := rfl
@[simp] theorem State.modSlice_inbound (s : State) (l : Nat) (f : Slice → Slice) : (s.modSlice l f).inbound = s.inbound := rfl
@[simp] theorem State.modSlice_outbox (s : State) (l : Nat) (f : Slice → Slice) : (s.modSlice l f).outbox = s.outbox := rfl
@[simp] theorem State.modSlice_unsent (s : State) (l : Nat) (f : Slice → Slice) : (s.modSlice l f).unsent = s.unsent := rfl
@[simp] theorem State.modSlice_free (s : State) (l : Nat) (f : Slice → Slice) : (s.modSlice l f).free = s.free := rfl
@[simp] theorem State.modSlice_nparks (s : State) (l : Nat) (f : Slice → Slice) : (s.modSlice l f).nparks = s.nparks := rfl
@[simp] theorem State.modSlice_rels (s : State) (l : Nat) (f : Slice → Slice) : (s.modSlice l f).rels = s.rels := rfl
@[simp] theorem State.modSlice_back (s : State) (l : Nat) (f : Slice → Slice) : (s.modSlice l f).back = s.back := rfl
@[simp] theorem State.modSlice_focus (s : State) (l : Nat) (f : Slice → Slice) : (s.modSlice l f).focus = s.focus := rfl
@[simp] theorem State.modSlice_stalled (s : State) (l : Nat) (f : Slice → Slice) : (s.modSlice l f).stalled = s.stalled := rfl
@[simp] theorem State.modSlice_ev (s : State) (l : Nat) (f : Slice → Slice) : (s.modSlice l f).ev = s.ev := rfl
@[simp] theorem State.modSlice_agenda (s : State) (l : Nat) (f : Slice → Slice) : (s.modSlice l f).agenda = s.agenda := rfl

@[simp] theorem State.modDie_mem (s : State) (d : Nat) (f : Die → Die) : (s.modDie d f).mem = s.mem := rfl
@[simp] theorem State.modDie_poison (s : State) (d : Nat) (f : Die → Die) : (s.modDie d f).poison = s.poison := rfl
@[simp] theorem State.modDie_lostFirst (s : State) (d : Nat) (f : Die → Die) : (s.modDie d f).lostFirst = s.lostFirst := rfl
@[simp] theorem State.modDie_retiring (s : State) (d : Nat) (f : Die → Die) : (s.modDie d f).retiring = s.retiring := rfl
@[simp] theorem State.modDie_spares (s : State) (d : Nat) (f : Die → Die) : (s.modDie d f).spares = s.spares := rfl
@[simp] theorem State.modDie_clock (s : State) (d : Nat) (f : Die → Die) : (s.modDie d f).clock = s.clock := rfl
@[simp] theorem State.modDie_now (s : State) (d : Nat) (f : Die → Die) : (s.modDie d f).now = s.now := rfl
@[simp] theorem State.modDie_mregs (s : State) (d : Nat) (f : Die → Die) : (s.modDie d f).mregs = s.mregs := rfl
@[simp] theorem State.modDie_mgmt (s : State) (d : Nat) (f : Die → Die) : (s.modDie d f).mgmt = s.mgmt := rfl
@[simp] theorem State.modDie_coreOwner (s : State) (d : Nat) (f : Die → Die) : (s.modDie d f).coreOwner = s.coreOwner := rfl
@[simp] theorem State.modDie_coreHolder (s : State) (d : Nat) (f : Die → Die) : (s.modDie d f).coreHolder = s.coreHolder := rfl
@[simp] theorem State.modDie_sliceOwner (s : State) (d : Nat) (f : Die → Die) : (s.modDie d f).sliceOwner = s.sliceOwner := rfl
@[simp] theorem State.modDie_sliceHolder (s : State) (d : Nat) (f : Die → Die) : (s.modDie d f).sliceHolder = s.sliceHolder := rfl
@[simp] theorem State.modDie_groupOwner (s : State) (d : Nat) (f : Die → Die) : (s.modDie d f).groupOwner = s.groupOwner := rfl
@[simp] theorem State.modDie_ops (s : State) (d : Nat) (f : Die → Die) : (s.modDie d f).ops = s.ops := rfl
@[simp] theorem State.modDie_nops (s : State) (d : Nat) (f : Die → Die) : (s.modDie d f).nops = s.nops := rfl
@[simp] theorem State.modDie_wins (s : State) (d : Nat) (f : Die → Die) : (s.modDie d f).wins = s.wins := rfl
@[simp] theorem State.modDie_nwins (s : State) (d : Nat) (f : Die → Die) : (s.modDie d f).nwins = s.nwins := rfl
@[simp] theorem State.modDie_teams (s : State) (d : Nat) (f : Die → Die) : (s.modDie d f).teams = s.teams := rfl
@[simp] theorem State.modDie_parts (s : State) (d : Nat) (f : Die → Die) : (s.modDie d f).parts = s.parts := rfl
@[simp] theorem State.modDie_cores (s : State) (d : Nat) (f : Die → Die) : (s.modDie d f).cores = s.cores := rfl
@[simp] theorem State.modDie_slices (s : State) (d : Nat) (f : Die → Die) : (s.modDie d f).slices = s.slices := rfl
@[simp] theorem State.modDie_inbound (s : State) (d : Nat) (f : Die → Die) : (s.modDie d f).inbound = s.inbound := rfl
@[simp] theorem State.modDie_outbox (s : State) (d : Nat) (f : Die → Die) : (s.modDie d f).outbox = s.outbox := rfl
@[simp] theorem State.modDie_unsent (s : State) (d : Nat) (f : Die → Die) : (s.modDie d f).unsent = s.unsent := rfl
@[simp] theorem State.modDie_free (s : State) (d : Nat) (f : Die → Die) : (s.modDie d f).free = s.free := rfl
@[simp] theorem State.modDie_nparks (s : State) (d : Nat) (f : Die → Die) : (s.modDie d f).nparks = s.nparks := rfl
@[simp] theorem State.modDie_rels (s : State) (d : Nat) (f : Die → Die) : (s.modDie d f).rels = s.rels := rfl
@[simp] theorem State.modDie_back (s : State) (d : Nat) (f : Die → Die) : (s.modDie d f).back = s.back := rfl
@[simp] theorem State.modDie_focus (s : State) (d : Nat) (f : Die → Die) : (s.modDie d f).focus = s.focus := rfl
@[simp] theorem State.modDie_stalled (s : State) (d : Nat) (f : Die → Die) : (s.modDie d f).stalled = s.stalled := rfl
@[simp] theorem State.modDie_ev (s : State) (d : Nat) (f : Die → Die) : (s.modDie d f).ev = s.ev := rfl
@[simp] theorem State.modDie_agenda (s : State) (d : Nat) (f : Die → Die) : (s.modDie d f).agenda = s.agenda := rfl

@[simp] theorem State.dropFar_mem (s : State) (l : Nat) : (s.dropFar l).mem = s.mem := rfl
@[simp] theorem State.dropFar_poison (s : State) (l : Nat) : (s.dropFar l).poison = s.poison := rfl
@[simp] theorem State.dropFar_lostFirst (s : State) (l : Nat) : (s.dropFar l).lostFirst = s.lostFirst := rfl
@[simp] theorem State.dropFar_retiring (s : State) (l : Nat) : (s.dropFar l).retiring = s.retiring := rfl
@[simp] theorem State.dropFar_spares (s : State) (l : Nat) : (s.dropFar l).spares = s.spares := rfl
@[simp] theorem State.dropFar_clock (s : State) (l : Nat) : (s.dropFar l).clock = s.clock := rfl
@[simp] theorem State.dropFar_now (s : State) (l : Nat) : (s.dropFar l).now = s.now := rfl
@[simp] theorem State.dropFar_mregs (s : State) (l : Nat) : (s.dropFar l).mregs = s.mregs := rfl
@[simp] theorem State.dropFar_mgmt (s : State) (l : Nat) : (s.dropFar l).mgmt = s.mgmt := rfl
@[simp] theorem State.dropFar_coreOwner (s : State) (l : Nat) : (s.dropFar l).coreOwner = s.coreOwner := rfl
@[simp] theorem State.dropFar_coreHolder (s : State) (l : Nat) : (s.dropFar l).coreHolder = s.coreHolder := rfl
@[simp] theorem State.dropFar_sliceOwner (s : State) (l : Nat) : (s.dropFar l).sliceOwner = s.sliceOwner := rfl
@[simp] theorem State.dropFar_sliceHolder (s : State) (l : Nat) : (s.dropFar l).sliceHolder = s.sliceHolder := rfl
@[simp] theorem State.dropFar_groupOwner (s : State) (l : Nat) : (s.dropFar l).groupOwner = s.groupOwner := rfl
@[simp] theorem State.dropFar_ops (s : State) (l : Nat) : (s.dropFar l).ops = s.ops := rfl
@[simp] theorem State.dropFar_nops (s : State) (l : Nat) : (s.dropFar l).nops = s.nops := rfl
@[simp] theorem State.dropFar_wins (s : State) (l : Nat) : (s.dropFar l).wins = s.wins := rfl
@[simp] theorem State.dropFar_nwins (s : State) (l : Nat) : (s.dropFar l).nwins = s.nwins := rfl
@[simp] theorem State.dropFar_teams (s : State) (l : Nat) : (s.dropFar l).teams = s.teams := rfl
@[simp] theorem State.dropFar_parts (s : State) (l : Nat) : (s.dropFar l).parts = s.parts := rfl
@[simp] theorem State.dropFar_cores (s : State) (l : Nat) : (s.dropFar l).cores = s.cores := rfl
@[simp] theorem State.dropFar_slices (s : State) (l : Nat) : (s.dropFar l).slices = s.slices := rfl
@[simp] theorem State.dropFar_inbound (s : State) (l : Nat) : (s.dropFar l).inbound = s.inbound := rfl
@[simp] theorem State.dropFar_outbox (s : State) (l : Nat) : (s.dropFar l).outbox = s.outbox := rfl
@[simp] theorem State.dropFar_unsent (s : State) (l : Nat) : (s.dropFar l).unsent = s.unsent := rfl
@[simp] theorem State.dropFar_free (s : State) (l : Nat) : (s.dropFar l).free = s.free := rfl
@[simp] theorem State.dropFar_nparks (s : State) (l : Nat) : (s.dropFar l).nparks = s.nparks := rfl
@[simp] theorem State.dropFar_rels (s : State) (l : Nat) : (s.dropFar l).rels = s.rels := rfl
@[simp] theorem State.dropFar_back (s : State) (l : Nat) : (s.dropFar l).back = s.back := rfl
@[simp] theorem State.dropFar_focus (s : State) (l : Nat) : (s.dropFar l).focus = s.focus := rfl
@[simp] theorem State.dropFar_stalled (s : State) (l : Nat) : (s.dropFar l).stalled = s.stalled := rfl
@[simp] theorem State.dropFar_ev (s : State) (l : Nat) : (s.dropFar l).ev = s.ev := rfl
@[simp] theorem State.dropFar_agenda (s : State) (l : Nat) : (s.dropFar l).agenda = s.agenda := rfl

@[simp] theorem State.wait_mem (s : State) : (s.wait).mem = s.mem := rfl
@[simp] theorem State.wait_poison (s : State) : (s.wait).poison = s.poison := rfl
@[simp] theorem State.wait_lostFirst (s : State) : (s.wait).lostFirst = s.lostFirst := rfl
@[simp] theorem State.wait_retiring (s : State) : (s.wait).retiring = s.retiring := rfl
@[simp] theorem State.wait_spares (s : State) : (s.wait).spares = s.spares := rfl
@[simp] theorem State.wait_clock (s : State) : (s.wait).clock = s.clock := rfl
@[simp] theorem State.wait_now (s : State) : (s.wait).now = s.now := rfl
@[simp] theorem State.wait_mregs (s : State) : (s.wait).mregs = s.mregs := rfl
@[simp] theorem State.wait_mgmt (s : State) : (s.wait).mgmt = s.mgmt := rfl
@[simp] theorem State.wait_coreOwner (s : State) : (s.wait).coreOwner = s.coreOwner := rfl
@[simp] theorem State.wait_coreHolder (s : State) : (s.wait).coreHolder = s.coreHolder := rfl
@[simp] theorem State.wait_sliceOwner (s : State) : (s.wait).sliceOwner = s.sliceOwner := rfl
@[simp] theorem State.wait_sliceHolder (s : State) : (s.wait).sliceHolder = s.sliceHolder := rfl
@[simp] theorem State.wait_groupOwner (s : State) : (s.wait).groupOwner = s.groupOwner := rfl
@[simp] theorem State.wait_ops (s : State) : (s.wait).ops = s.ops := rfl
@[simp] theorem State.wait_nops (s : State) : (s.wait).nops = s.nops := rfl
@[simp] theorem State.wait_wins (s : State) : (s.wait).wins = s.wins := rfl
@[simp] theorem State.wait_nwins (s : State) : (s.wait).nwins = s.nwins := rfl
@[simp] theorem State.wait_teams (s : State) : (s.wait).teams = s.teams := rfl
@[simp] theorem State.wait_parts (s : State) : (s.wait).parts = s.parts := rfl
@[simp] theorem State.wait_dies (s : State) : (s.wait).dies = s.dies := rfl
@[simp] theorem State.wait_cores (s : State) : (s.wait).cores = s.cores := rfl
@[simp] theorem State.wait_slices (s : State) : (s.wait).slices = s.slices := rfl
@[simp] theorem State.wait_inbound (s : State) : (s.wait).inbound = s.inbound := rfl
@[simp] theorem State.wait_outbox (s : State) : (s.wait).outbox = s.outbox := rfl
@[simp] theorem State.wait_unsent (s : State) : (s.wait).unsent = s.unsent := rfl
@[simp] theorem State.wait_free (s : State) : (s.wait).free = s.free := rfl
@[simp] theorem State.wait_nparks (s : State) : (s.wait).nparks = s.nparks := rfl
@[simp] theorem State.wait_rels (s : State) : (s.wait).rels = s.rels := rfl
@[simp] theorem State.wait_back (s : State) : (s.wait).back = s.back := rfl
@[simp] theorem State.wait_focus (s : State) : (s.wait).focus = s.focus := rfl
@[simp] theorem State.wait_ev (s : State) : (s.wait).ev = s.ev := rfl
@[simp] theorem State.wait_agenda (s : State) : (s.wait).agenda = s.agenda := rfl

@[simp] theorem State.modTeam_mem (s : State) (t : TeamId) (f : Team → Team) : (s.modTeam t f).mem = s.mem := by unfold State.modTeam; split <;> rfl
@[simp] theorem State.modTeam_poison (s : State) (t : TeamId) (f : Team → Team) : (s.modTeam t f).poison = s.poison := by unfold State.modTeam; split <;> rfl
@[simp] theorem State.modTeam_lostFirst (s : State) (t : TeamId) (f : Team → Team) : (s.modTeam t f).lostFirst = s.lostFirst := by unfold State.modTeam; split <;> rfl
@[simp] theorem State.modTeam_retiring (s : State) (t : TeamId) (f : Team → Team) : (s.modTeam t f).retiring = s.retiring := by unfold State.modTeam; split <;> rfl
@[simp] theorem State.modTeam_spares (s : State) (t : TeamId) (f : Team → Team) : (s.modTeam t f).spares = s.spares := by unfold State.modTeam; split <;> rfl
@[simp] theorem State.modTeam_clock (s : State) (t : TeamId) (f : Team → Team) : (s.modTeam t f).clock = s.clock := by unfold State.modTeam; split <;> rfl
@[simp] theorem State.modTeam_now (s : State) (t : TeamId) (f : Team → Team) : (s.modTeam t f).now = s.now := by unfold State.modTeam; split <;> rfl
@[simp] theorem State.modTeam_mregs (s : State) (t : TeamId) (f : Team → Team) : (s.modTeam t f).mregs = s.mregs := by unfold State.modTeam; split <;> rfl
@[simp] theorem State.modTeam_mgmt (s : State) (t : TeamId) (f : Team → Team) : (s.modTeam t f).mgmt = s.mgmt := by unfold State.modTeam; split <;> rfl
@[simp] theorem State.modTeam_coreOwner (s : State) (t : TeamId) (f : Team → Team) : (s.modTeam t f).coreOwner = s.coreOwner := by unfold State.modTeam; split <;> rfl
@[simp] theorem State.modTeam_coreHolder (s : State) (t : TeamId) (f : Team → Team) : (s.modTeam t f).coreHolder = s.coreHolder := by unfold State.modTeam; split <;> rfl
@[simp] theorem State.modTeam_sliceOwner (s : State) (t : TeamId) (f : Team → Team) : (s.modTeam t f).sliceOwner = s.sliceOwner := by unfold State.modTeam; split <;> rfl
@[simp] theorem State.modTeam_sliceHolder (s : State) (t : TeamId) (f : Team → Team) : (s.modTeam t f).sliceHolder = s.sliceHolder := by unfold State.modTeam; split <;> rfl
@[simp] theorem State.modTeam_groupOwner (s : State) (t : TeamId) (f : Team → Team) : (s.modTeam t f).groupOwner = s.groupOwner := by unfold State.modTeam; split <;> rfl
@[simp] theorem State.modTeam_ops (s : State) (t : TeamId) (f : Team → Team) : (s.modTeam t f).ops = s.ops := by unfold State.modTeam; split <;> rfl
@[simp] theorem State.modTeam_nops (s : State) (t : TeamId) (f : Team → Team) : (s.modTeam t f).nops = s.nops := by unfold State.modTeam; split <;> rfl
@[simp] theorem State.modTeam_wins (s : State) (t : TeamId) (f : Team → Team) : (s.modTeam t f).wins = s.wins := by unfold State.modTeam; split <;> rfl
@[simp] theorem State.modTeam_nwins (s : State) (t : TeamId) (f : Team → Team) : (s.modTeam t f).nwins = s.nwins := by unfold State.modTeam; split <;> rfl
@[simp] theorem State.modTeam_parts (s : State) (t : TeamId) (f : Team → Team) : (s.modTeam t f).parts = s.parts := by unfold State.modTeam; split <;> rfl
@[simp] theorem State.modTeam_dies (s : State) (t : TeamId) (f : Team → Team) : (s.modTeam t f).dies = s.dies := by unfold State.modTeam; split <;> rfl
@[simp] theorem State.modTeam_cores (s : State) (t : TeamId) (f : Team → Team) : (s.modTeam t f).cores = s.cores := by unfold State.modTeam; split <;> rfl
@[simp] theorem State.modTeam_slices (s : State) (t : TeamId) (f : Team → Team) : (s.modTeam t f).slices = s.slices := by unfold State.modTeam; split <;> rfl
@[simp] theorem State.modTeam_inbound (s : State) (t : TeamId) (f : Team → Team) : (s.modTeam t f).inbound = s.inbound := by unfold State.modTeam; split <;> rfl
@[simp] theorem State.modTeam_outbox (s : State) (t : TeamId) (f : Team → Team) : (s.modTeam t f).outbox = s.outbox := by unfold State.modTeam; split <;> rfl
@[simp] theorem State.modTeam_unsent (s : State) (t : TeamId) (f : Team → Team) : (s.modTeam t f).unsent = s.unsent := by unfold State.modTeam; split <;> rfl
@[simp] theorem State.modTeam_free (s : State) (t : TeamId) (f : Team → Team) : (s.modTeam t f).free = s.free := by unfold State.modTeam; split <;> rfl
@[simp] theorem State.modTeam_nparks (s : State) (t : TeamId) (f : Team → Team) : (s.modTeam t f).nparks = s.nparks := by unfold State.modTeam; split <;> rfl
@[simp] theorem State.modTeam_rels (s : State) (t : TeamId) (f : Team → Team) : (s.modTeam t f).rels = s.rels := by unfold State.modTeam; split <;> rfl
@[simp] theorem State.modTeam_back (s : State) (t : TeamId) (f : Team → Team) : (s.modTeam t f).back = s.back := by unfold State.modTeam; split <;> rfl
@[simp] theorem State.modTeam_focus (s : State) (t : TeamId) (f : Team → Team) : (s.modTeam t f).focus = s.focus := by unfold State.modTeam; split <;> rfl
@[simp] theorem State.modTeam_stalled (s : State) (t : TeamId) (f : Team → Team) : (s.modTeam t f).stalled = s.stalled := by unfold State.modTeam; split <;> rfl
@[simp] theorem State.modTeam_ev (s : State) (t : TeamId) (f : Team → Team) : (s.modTeam t f).ev = s.ev := by unfold State.modTeam; split <;> rfl
@[simp] theorem State.modTeam_agenda (s : State) (t : TeamId) (f : Team → Team) : (s.modTeam t f).agenda = s.agenda := by unfold State.modTeam; split <;> rfl

/-! ## Reading after a write -/

theorem toNat_ne {a b : TeamId} (h : a ≠ b) : a.toNat ≠ b.toNat := fun e => h (BitVec.eq_of_toNat_eq e)

@[simp] theorem State.team?_setTeam_same (s : State) (t : Team) : (s.setTeam t).team? t.id = some t := by
  simp [State.team?, State.setTeam]
theorem State.team?_setTeam_ne (s : State) (t : Team) {k : TeamId} (h : t.id ≠ k) : (s.setTeam t).team? k = s.team? k := by
  simp [State.team?, State.setTeam, Table.get?_put_ne _ _ (toNat_ne h.symm)]
theorem State.team?_dropTeam_same (s : State) (k : TeamId) : (s.dropTeam k).team? k = none := by
  simp [State.team?, State.dropTeam, Table.get?_del_same]
theorem State.team?_dropTeam_ne (s : State) {j k : TeamId} (h : j ≠ k) : (s.dropTeam j).team? k = s.team? k := by
  simp [State.team?, State.dropTeam, Table.get?_del_ne _ (toNat_ne h.symm)]
theorem State.modTeam_some {s : State} {k : TeamId} {u : Team} (f : Team → Team) (h : s.team? k = some u) :
    s.modTeam k f = s.setTeam (f u) := by simp [State.modTeam, h]
theorem State.modTeam_none {s : State} {k : TeamId} (f : Team → Team) (h : s.team? k = none) : s.modTeam k f = s := by
  simp [State.modTeam, h]
theorem State.team?_modTeam_same {s : State} {k : TeamId} {u : Team} (f : Team → Team) (h : s.team? k = some u)
    (hf : (f u).id = k) : (s.modTeam k f).team? k = some (f u) := by
  rw [State.modTeam_some f h, ← hf, State.team?_setTeam_same]
@[simp] theorem State.team?_mk_setPart (s : State) (p : Nat) (x : Partition) (k : TeamId) :
    (s.setPart p x).team? k = s.team? k := rfl
@[simp] theorem State.team?_setCore (s : State) (c : Nat) (x : Core) (k : TeamId) : (s.setCore c x).team? k = s.team? k := rfl
@[simp] theorem State.team?_setDie (s : State) (d : Nat) (x : Die) (k : TeamId) : (s.setDie d x).team? k = s.team? k := rfl
@[simp] theorem State.team?_setSlice (s : State) (l : Nat) (x : Slice) (k : TeamId) :
    (s.setSlice l x).team? k = s.team? k := rfl
@[simp] theorem State.team?_putByte (s : State) (a : Nat) (b : Byte) (k : TeamId) : (s.putByte a b).team? k = s.team? k := rfl

@[simp] theorem State.part_setPart_same (s : State) (p : Nat) (x : Partition) : (s.setPart p x).part p = x := by
  simp [State.part, State.setPart]
theorem State.part_setPart_ne (s : State) {p q : Nat} (x : Partition) (h : q ≠ p) : (s.setPart p x).part q = s.part q := by
  simp [State.part, State.setPart, Table.get_set_ne _ _ _ h]
@[simp] theorem State.part_setTeam (s : State) (t : Team) (p : Nat) : (s.setTeam t).part p = s.part p := rfl
@[simp] theorem State.part_modTeam (s : State) (t : TeamId) (f : Team → Team) (p : Nat) :
    (s.modTeam t f).part p = s.part p := by simp [State.part]
@[simp] theorem State.core_setCore_same (s : State) (c : Nat) (x : Core) : (s.setCore c x).core c = x := by
  simp [State.core, State.setCore]
theorem State.core_setCore_ne (s : State) {c k : Nat} (x : Core) (h : k ≠ c) : (s.setCore c x).core k = s.core k := by
  simp [State.core, State.setCore, Table.get_set_ne _ _ _ h]
@[simp] theorem State.slice_setSlice_same (s : State) (l : Nat) (x : Slice) : (s.setSlice l x).slice l = x := by
  simp [State.slice, State.setSlice]
theorem State.slice_setSlice_ne (s : State) {l k : Nat} (x : Slice) (h : k ≠ l) : (s.setSlice l x).slice k = s.slice k := by
  simp [State.slice, State.setSlice, Table.get_set_ne _ _ _ h]
@[simp] theorem State.die_setDie_same (s : State) (d : Nat) (x : Die) : (s.setDie d x).die d = x := by
  simp [State.die, State.setDie]
theorem State.die_setDie_ne (s : State) {d k : Nat} (x : Die) (h : k ≠ d) : (s.setDie d x).die k = s.die k := by
  simp [State.die, State.setDie, Table.get_set_ne _ _ _ h]

@[simp] theorem State.pr_setPr_same (s : State) (p k : Nat) (v : W64) : (s.setPr p k v).pr p k = v := by
  simp [State.pr, State.setPr, State.modPart]
theorem State.pr_setPr_key (s : State) (p : Nat) {k j : Nat} (v : W64) (h : j ≠ k) : (s.setPr p k v).pr p j = s.pr p j := by
  simp only [State.pr, State.setPr, State.modPart, State.part_setPart_same, Table.get, Table.get?_set_ne _ _ _ h]
theorem State.pr_setPr_part (s : State) {p q : Nat} (k j : Nat) (v : W64) (h : q ≠ p) :
    (s.setPr p k v).pr q j = s.pr q j := by
  simp [State.pr, State.setPr, State.modPart, State.part_setPart_ne _ _ h]
@[simp] theorem State.pr_setTeam (s : State) (t : Team) (p k : Nat) : (s.setTeam t).pr p k = s.pr p k := rfl
@[simp] theorem State.pr_modTeam (s : State) (t : TeamId) (f : Team → Team) (p k : Nat) : (s.modTeam t f).pr p k = s.pr p k := by
  simp [State.pr]
@[simp] theorem State.mr_setMr_same (s : State) (n : Nat) (v : W64) : (s.setMr n v).mr n = v := by
  simp [State.mr, State.setMr]
theorem State.mr_setMr_ne (s : State) {n k : Nat} (v : W64) (h : k ≠ n) : (s.setMr n v).mr k = s.mr k := by
  simp only [State.mr, State.setMr, Table.get, Table.get?_set_ne _ _ _ h]

/-! ## Memory -/

theorem State.norm_congr {s s' : State} (h : s'.mregs = s.mregs) (a : Nat) : s'.norm a = s.norm a := by
  have hd : s'.devn = s.devn := by simp only [State.devn, State.mr, h]
  simp only [State.norm, hd]
theorem State.memByte_congr {s s' : State} (hm : s'.mem = s.mem) (hr : s'.mregs = s.mregs) (a : Nat) :
    s'.memByte a = s.memByte a := by
  simp [State.memByte, hm, State.norm_congr hr]
@[simp] theorem State.norm_putByte (s : State) (a : Nat) (b : Byte) (k : Nat) : (s.putByte a b).norm k = s.norm k := rfl
theorem State.memByte_putByte_same (s : State) {a k : Nat} (b : Byte) (h : s.norm k = s.norm a) :
    (s.putByte a b).memByte k = b := by
  rw [State.memByte, State.norm_putByte, h]
  exact Table.get_set_same _ _ _ _
theorem State.memByte_putByte_ne (s : State) {a k : Nat} (b : Byte) (h : s.norm k ≠ s.norm a) :
    (s.putByte a b).memByte k = s.memByte k := by
  rw [State.memByte, State.norm_putByte]
  exact Table.get_set_ne _ _ _ h

end Sys2Proof.Machine
end

