-- ==== Sys2Proof/Laws/Frame.lean ====
section
/-!
SUPPORT. What translation, code checks and the taking of a fault can change, said once for each.
-/
namespace Sys2Proof.Machine

/-! ## Translation -/

/-- From `s` to `s'` only TLBs, the trace, event counters and free values have changed. -/
structure OnlyCounts (s s' : State) : Prop where
  mem : s'.mem = s.mem
  poison : s'.poison = s.poison
  mregs : s'.mregs = s.mregs
  mgmt : s'.mgmt = s.mgmt
  teams : s'.teams = s.teams
  slices : s'.slices = s.slices
  focus : s'.focus = s.focus
  back : s'.back = s.back
  outbox : s'.outbox = s.outbox
  ev : s'.ev = s.ev
  now : s'.now = s.now
  agenda : s'.agenda = s.agenda
  stalled : s'.stalled = s.stalled
  regs : ∀ p k, ¬ (0x508 ≤ k ∧ k < 0x510) → s'.pr p k = s.pr p k

theorem OnlyCounts.refl (s : State) : OnlyCounts s s := ⟨rfl, rfl, rfl, rfl, rfl, rfl, rfl, rfl, rfl, rfl, rfl, rfl, rfl, fun _ _ _ => rfl⟩
theorem OnlyCounts.trans {a b c : State} (h : OnlyCounts a b) (k : OnlyCounts b c) : OnlyCounts a c :=
  ⟨k.mem.trans h.mem, k.poison.trans h.poison, k.mregs.trans h.mregs, k.mgmt.trans h.mgmt, k.teams.trans h.teams,
    k.slices.trans h.slices, k.focus.trans h.focus, k.back.trans h.back, k.outbox.trans h.outbox, k.ev.trans h.ev,
    k.now.trans h.now, k.agenda.trans h.agenda, k.stalled.trans h.stalled,
    fun p j hj => (k.regs p j hj).trans (h.regs p j hj)⟩

theorem OnlyCounts.modDie (s : State) (d : Nat) (f : Die → Die) : OnlyCounts s (s.modDie d f) :=
  ⟨rfl, rfl, rfl, rfl, rfl, rfl, rfl, rfl, rfl, rfl, rfl, rfl, rfl, fun _ _ _ => rfl⟩
theorem OnlyCounts.modCore (s : State) (c : Nat) (f : Core → Core) : OnlyCounts s (s.modCore c f) :=
  ⟨rfl, rfl, rfl, rfl, rfl, rfl, rfl, rfl, rfl, rfl, rfl, rfl, rfl, fun _ _ _ => rfl⟩
theorem OnlyCounts.free (s : State) (n : Nat) : OnlyCounts s { s with free := n } :=
  ⟨rfl, rfl, rfl, rfl, rfl, rfl, rfl, rfl, rfl, rfl, rfl, rfl, rfl, fun _ _ _ => rfl⟩

theorem OnlyCounts.bump (s : State) (p k n : Nat) (hk : 0x508 ≤ k ∧ k < 0x510) : OnlyCounts s (s.bump p k n) :=
  ⟨rfl, rfl, rfl, rfl, rfl, rfl, rfl, rfl, rfl, rfl, rfl, rfl, rfl, fun q j hj => by
    have hne : j ≠ k := fun e => hj (e ▸ hk)
    by_cases h : q = p
    · subst h; exact State.pr_setPr_key s q _ hne
    · exact State.pr_setPr_part s k j _ h⟩

theorem OnlyCounts.countEvent (s : State) (p d e n : Nat) : OnlyCounts s (s.countEvent p d e n) := by
  have fold : ∀ (l : List Nat) (s : State), (∀ k ∈ l, k < 8) → OnlyCounts s (l.foldl (fun s k =>
      let sel := s.pr p (0x500 + k)
      if bitsOf sel 15 0 = e ∧ !sel.getLsbD 63 then s.bump p (0x508 + k) n else s) s) := by
    intro l
    induction l with
    | nil => exact fun s _ => .refl s
    | cons k r ih =>
      intro s h
      refine OnlyCounts.trans ?_ (ih _ fun j hj => h j (List.mem_cons_of_mem _ hj))
      dsimp only
      have hk := h k List.mem_cons_self
      split
      · exact .bump s p _ n (by omega)
      · exact .refl s
  unfold State.countEvent
  split
  · exact .refl s
  · dsimp only
    split
    · exact (fold _ s fun k hk => List.mem_range.1 hk).trans (.modDie _ _ _)
    · exact fold _ s fun k hk => List.mem_range.1 hk

/-- A walk (R290-R292). -/
theorem State.walkDie_counts (s : State) (d p va : Nat) : OnlyCounts s (s.walkDie d p va).1 := by
  unfold State.walkDie
  dsimp only
  split
  · exact ((OnlyCounts.countEvent s p d 0x009 1).trans (.modDie _ d _)).trans (.free _ _)
  · exact (((((OnlyCounts.countEvent s p d 0x009 1).trans (.modDie _ d _)).trans (.free _ _)).trans (.modDie _ d _))).trans
      (.free _ _)

theorem State.lookupDie_counts (s : State) (d p va : Nat) : OnlyCounts s (s.lookupDie d p va).1 := by
  unfold State.lookupDie
  split
  · exact .refl s
  · exact s.walkDie_counts d p va

theorem State.lookup_counts (s : State) (c p va : Nat) : OnlyCounts s (s.lookup c p va).1 := by
  unfold State.lookup
  dsimp only
  split
  · exact .refl s
  · have hw := (OnlyCounts.countEvent s p (dieOfCore c) 0x008 1).trans (State.lookupDie_counts _ (dieOfCore c) p va)
    split
    · next h => rw [h] at hw; exact hw
    · next h => rw [h] at hw; exact (hw.trans (.modCore _ c _)).trans (.free _ _)

theorem State.xlate_counts (s : State) (c p : Nat) (l : List (Nat × Nat)) : OnlyCounts s (s.xlate c p l).1 := by
  induction l generalizing s with
  | nil => exact .refl s
  | cons x r ih =>
    have hl := s.lookup_counts c p x.1
    simp only [State.xlate]
    split
    · next h => rw [h] at hl; exact hl
    · next s1 e h =>
      rw [h] at hl
      have hx := ih s1
      split
      · next h' => rw [h'] at hx; exact hl.trans hx
      · next h' => rw [h'] at hx; exact hl.trans hx

theorem State.checkRange_counts (s : State) (c p level : Nat) (k : AccKind) (cl : PClass) (va n : Nat) :
    OnlyCounts s (s.checkRange c p level k cl va n).1 := by
  have hx := s.xlate_counts c p (rangePieces va n)
  unfold State.checkRange
  split
  · next h => rw [h] at hx; exact hx
  · next h =>
    rw [h] at hx
    split
    · exact hx
    · split <;> exact hx

theorem State.fetchWord_counts (s : State) (t : Team) (va : W64) : OnlyCounts s (s.fetchWord t va).1 := by
  have hx := s.checkRange_counts t.core t.part t.level .fetch .plain va.toNat 8
  unfold State.fetchWord
  split
  · next h => rw [h] at hx; exact hx
  · next h =>
    rw [h] at hx
    dsimp only
    split <;> exact hx

theorem State.fetchWords_counts (s : State) (t : Team) (va : W64) (n : Nat) : OnlyCounts s (s.fetchWords t va n).1 := by
  induction n generalizing s va with
  | zero => exact .refl s
  | succ n ih =>
    have hl := s.fetchWord_counts t va
    simp only [State.fetchWords]
    split
    · next h => rw [h] at hl; exact hl
    · next s1 w h =>
      rw [h] at hl
      have hx := ih s1 (va + 8#64)
      split
      · next h' => rw [h'] at hx; exact hl.trans hx
      · next h' => rw [h'] at hx; exact hl.trans hx

theorem State.mapBit_counts (s : State) (t : Team) (g : Region3) (a : W64) : OnlyCounts s (s.mapBit t g a).1 := by
  have hl := s.lookup_counts t.core t.part (va56 (g.map.toNat + (a.toNat - g.base.toNat) / 8 / 8))
  unfold State.mapBit
  dsimp only
  split
  · next h => rw [h] at hl; exact hl
  · next h =>
    rw [h] at hl
    split <;> exact hl

theorem State.checkFetch_counts (s : State) (t : Team) (a : W64) : OnlyCounts s (s.checkFetch t a).1 := by
  have hf := s.fetchWord_counts t a
  unfold State.checkFetch
  split
  · next h => rw [h] at hf; exact hf
  · next s1 hdr h =>
    rw [h] at hf
    have hc := s1.checkRange_counts t.core t.part t.level .fetch .plain a.toNat (clauseBytes hdr)
    split
    · split
      · next h' => rw [h'] at hc; exact hf.trans hc
      · next h' => rw [h'] at hc; exact hf.trans hc
    · exact hf

/-- The check of a transfer's target (R17). -/
theorem State.checkTarget_counts (s : State) (t : Team) (a : W64) : OnlyCounts s (s.checkTarget t a).1 := by
  unfold State.checkTarget
  split
  · exact .refl s
  · split
    · exact .refl s
    · next g _ =>
      have hm := s.mapBit_counts t g a
      split
      · next s1 h =>
        rw [h] at hm
        exact hm.trans (s1.checkFetch_counts t a)
      · next s1 _ _ h => rw [h] at hm; exact hm

theorem State.rcvAt_counts (s : State) (t : Team) (h : W64) : OnlyCounts s (s.rcvAt t h).1 := by
  have hf := s.fetchWord_counts t h
  unfold State.rcvAt
  split
  · next e => rw [e] at hf; exact hf
  · next e => rw [e] at hf; exact hf

theorem State.fallsInto_counts (s : State) (t : Team) : OnlyCounts s (s.fallsInto t).1 := by
  unfold State.fallsInto
  split
  · exact s.checkTarget_counts t _
  · exact .refl s

/-! ## Arriving and faulting -/

/-- From `s` to `s'` team `k`, TLBs, traces, counters, the arrivals held for nodes and free values alone have changed. -/
structure OnlyTeam (k : TeamId) (s s' : State) : Prop where
  mem : s'.mem = s.mem
  poison : s'.poison = s.poison
  mregs : s'.mregs = s.mregs
  mgmt : s'.mgmt = s.mgmt
  slices : s'.slices = s.slices
  back : s'.back = s.back
  outbox : s'.outbox = s.outbox
  ev : s'.ev = s.ev
  now : s'.now = s.now
  agenda : s'.agenda = s.agenda
  focus : s'.focus = s.focus
  teams : ∀ j, j ≠ k → s'.team? j = s.team? j
  regs : ∀ p j, ¬ (0x508 ≤ j ∧ j < 0x510) → s'.pr p j = s.pr p j

theorem OnlyTeam.refl (k : TeamId) (s : State) : OnlyTeam k s s :=
  ⟨rfl, rfl, rfl, rfl, rfl, rfl, rfl, rfl, rfl, rfl, rfl, fun _ _ => rfl, fun _ _ _ => rfl⟩
theorem OnlyTeam.trans {k : TeamId} {a b c : State} (h : OnlyTeam k a b) (g : OnlyTeam k b c) : OnlyTeam k a c :=
  ⟨g.mem.trans h.mem, g.poison.trans h.poison, g.mregs.trans h.mregs, g.mgmt.trans h.mgmt, g.slices.trans h.slices,
    g.back.trans h.back, g.outbox.trans h.outbox, g.ev.trans h.ev, g.now.trans h.now, g.agenda.trans h.agenda,
    g.focus.trans h.focus, fun j hj => (g.teams j hj).trans (h.teams j hj),
    fun p j hj => (g.regs p j hj).trans (h.regs p j hj)⟩
theorem OnlyCounts.team {s s' : State} (h : OnlyCounts s s') (k : TeamId) : OnlyTeam k s s' :=
  ⟨h.mem, h.poison, h.mregs, h.mgmt, h.slices, h.back, h.outbox, h.ev, h.now, h.agenda, h.focus,
    fun j _ => by simp [State.team?, h.teams], h.regs⟩
theorem OnlyTeam.setTeam (s : State) (t : Team) : OnlyTeam t.id s (s.setTeam t) :=
  ⟨rfl, rfl, rfl, rfl, rfl, rfl, rfl, rfl, rfl, rfl, rfl, fun _ h => s.team?_setTeam_ne t h.symm, fun _ _ _ => rfl⟩

theorem State.tracePacket_counts (s : State) (t : Team) (pc : W64) (p : Pkt) : OnlyCounts s (s.tracePacket t pc p) := by
  unfold State.tracePacket
  dsimp only
  split
  · exact .modDie _ _ _
  · exact .refl s

theorem State.sendSup_counts (s : State) (p : Nat) (w : List W32) : OnlyCounts s (s.sendSup p w) := by
  unfold State.sendSup State.sendDev
  dsimp only
  split
  · refine ⟨rfl, rfl, rfl, rfl, rfl, rfl, rfl, rfl, rfl, rfl, rfl, rfl, rfl, fun q k _ => ?_⟩
    by_cases h : q = p
    · subst h; simp [State.pr, State.modPart]
    · simp [State.pr, State.modPart, State.part_setPart_ne _ _ h]
  · exact .refl s

/-- A fill (R104) changes the stack, the fill count and nothing else. -/
theorem State.refill_same (s : State) (t : Team) : ∃ r n, (s.refill t).1 = { t with r := r, fills := n } := by
  unfold State.refill State.fill
  split
  · exact ⟨t.r, t.fills, rfl⟩
  · split
    · dsimp only
      split
      · exact ⟨_, t.fills, rfl⟩
      · exact ⟨_, _, rfl⟩
    · exact ⟨t.r, t.fills, rfl⟩
theorem State.refill_id (s : State) (t : Team) : (s.refill t).1.id = t.id := by
  obtain ⟨r, n, h⟩ := s.refill_same t
  rw [h]

/-- An arrival at a header (R103) changes the team alone. -/
theorem State.arriveFrom_counts (s : State) (t : Team) (h : W64) (n : Nat) :
    OnlyCounts s (s.arriveFrom t h n).1 ∧ (s.arriveFrom t h n).2.1.id = t.id := by
  induction n generalizing s t h with
  | zero => exact ⟨.refl s, rfl⟩
  | succ n ih =>
    have hid := s.refill_id t
    simp only [State.arriveFrom]
    split
    · next e => rw [e] at hid; exact ⟨.refl s, hid⟩
    · next u e =>
      rw [e] at hid
      split
      · exact ⟨.refl s, hid⟩
      · split
        · have hr := s.rcvAt_counts u h
          split
          · next e => rw [e] at hr; exact ⟨hr, hid⟩
          · next s1 e =>
            rw [e] at hr
            split
            · exact ⟨hr.trans (ih _ _ _).1, (ih _ _ _).2.trans hid⟩
            · exact ⟨hr.trans (ih _ _ _).1, (ih _ _ _).2.trans hid⟩
        · exact ⟨.refl s, hid⟩

theorem Team.displace_id (t : Team) (n : Nat) (ks : List Nat) : (t.displace n ks).id = t.id := by
  unfold Team.displace; split <;> rfl
theorem Team.landAll_id (t : Team) (l : List Pending) : (t.landAll l).id = t.id := by
  induction l generalizing t with
  | nil => rfl
  | cons p r ih => exact (ih _).trans (t.displace_id p.num p.keys)
@[simp] theorem Team.landWhere_id (t : Team) (f : Pending → Bool) : (t.landWhere f).id = t.id := t.landAll_id _

theorem State.doubleFault_team (s : State) (t : Team) (f : FaultRec) : OnlyTeam t.id s (s.doubleFault t f) := by
  let u : Team := { t with
    trap := none
    holdOn := none
    trapPkt := none
    stat := .killing 0x0B }
  have h : OnlyTeam t.id s (s.setTeam u) := OnlyTeam.setTeam s u
  have k : OnlyTeam t.id (s.setTeam u) ((s.setTeam u).traceTrap t 0 0x0B f.pc) := (State.tracePacket_counts _ _ _ _).team _
  exact (h.trans k).trans ((State.sendSup_counts _ _ _).team _)

theorem Team.inHandler_id (t : Team) (f : FaultRec) : (t.inHandler f).id = t.id := by
  simp only [Team.inHandler, Team.enterBank]

/-- Going to the handler (R218). -/
theorem State.enterHandler_team (s : State) (t : Team) (f : FaultRec) (vec : W64) :
    OnlyTeam t.id s (s.enterHandler t f vec) := by
  have ha := s.arriveFrom_counts (t.inHandler f) vec (t.inHandler f).steps
  unfold State.enterHandler
  split
  next s1 u bad e =>
    rw [e] at ha
    have hid : u.id = t.id := ha.2.trans (t.inHandler_id f)
    have hs := OnlyTeam.setTeam s1 u
    rw [hid] at hs
    have h := (ha.1.team t.id).trans hs
    show OnlyTeam t.id s (if bad then _ else _)
    split
    · have hd := State.doubleFault_team (s1.setTeam u) u (u.faultAt 0x40 0 noLane)
      rw [hid] at hd
      exact h.trans hd
    · exact h

theorem State.deliver_team (s : State) (t : Team) (f : FaultRec) : OnlyTeam t.id s (s.deliver t f) := by
  unfold State.deliver
  dsimp only
  split
  · exact s.doubleFault_team t f
  · split
    · have hm := s.mapBit_counts t (s.vector t).2 (s.vector t).1
      split
      · next e => rw [e] at hm; exact (hm.team _).trans (State.enterHandler_team _ _ _ _)
      · next e => rw [e] at hm; exact (hm.team _).trans (State.doubleFault_team _ _ _)
    · exact s.doubleFault_team t f

/-- Taking a fault (R218). -/
theorem State.takeFault_team (s : State) (t : Team) (f : FaultRec) : OnlyTeam t.id s (s.takeFault t f) := by
  have h := s.deliver_team { t.landWhere fun p => decide (p.la < 15) with lost := none } f
  rw [show ({ t.landWhere fun p => decide (p.la < 15) with lost := none } : Team).id = t.id from t.landWhere_id _] at h
  exact h

theorem State.raise_team (s : State) (t : Team) (f : FaultRec) : OnlyTeam t.id s (s.raise t f) := by
  unfold State.raise
  split
  · exact s.takeFault_team t f
  · exact OnlyTeam.setTeam s { t with trap := some f }

/-- Arriving at a header, a fault there included. -/
theorem State.arrive_team (s : State) (t : Team) (h : W64) : OnlyTeam t.id s (s.arrive t h) := by
  have ha := s.arriveFrom_counts t h t.steps
  unfold State.arrive
  split
  · next s1 u e =>
    rw [e] at ha
    have := OnlyTeam.setTeam s1 u
    rw [ha.2] at this
    exact (ha.1.team _).trans this
  · next s1 u e =>
    rw [e] at ha
    have := s1.raise_team u (u.faultAt 0x40 0 noLane)
    rw [ha.2] at this
    exact (ha.1.team _).trans this

end Sys2Proof.Machine
end

