-- ==== Sys2Proof/Laws/Issue.lean ====
section
/-!
SUPPORT. What `issue` does with each answer of an effect, once for all machine instructions.
-/
namespace Sys2Proof.Machine

variable {i : Instr} {n : RunOf} {s s1 : State} {t : Team} {e : Enc} {eff : State → Team → Eff}

theorem issueRun_go (h : Issues i n s s1 t e) :
    issueRun n i eff s = .next ((s1.setTeam t).conclude t (eff (started n s1 t e) t)) := by
  obtain ⟨t0, hc, he, hg⟩ := h
  simp only [issueRun, hc, he, hg, started]

theorem issueRun_ok (h : Issues i n s s1 t e) (hf : FallsOn s1 t) {s' : State}
    (hr : eff (started n s1 t e) t = .ok s') : issueRun n i eff s = .next (s'.advance t) := by
  rw [issueRun_go h, hr]
  simp only [State.conclude]
  unfold FallsOn at hf
  split
  · next h' => rw [h'] at hf; simp at hf
  · rfl

theorem issueRun_goto (h : Issues i n s s1 t e) {s' : State} {a : W64}
    (hr : eff (started n s1 t e) t = .goto s' a) (hc : ((s1.setTeam t).checkTarget t a).2 = none) :
    issueRun n i eff s = .next (goesTo s' t a) := by
  rw [issueRun_go h, hr]
  simp only [State.conclude, goesTo]
  split
  · next h' => rw [h'] at hc; simp at hc
  · rfl

theorem issueRun_leave (h : Issues i n s s1 t e) {s' : State} (hr : eff (started n s1 t e) t = .leave s') :
    issueRun n i eff s = .next ((s'.modTeam t.id Team.retired).yieldAfter t) := by
  rw [issueRun_go h, hr]; rfl

theorem issueRun_done (h : Issues i n s s1 t e) {s' : State} (hr : eff (started n s1 t e) t = .done s') :
    issueRun n i eff s = .next s' := by
  rw [issueRun_go h, hr]; rfl

theorem issueRun_hold (h : Issues i n s s1 t e) (hf : FallsOn s1 t) {s' : State}
    (hr : eff (started n s1 t e) t = .hold s') : issueRun n i eff s = .next (s'.modTeam t.id Team.retired) := by
  rw [issueRun_go h, hr]
  simp only [State.conclude]
  unfold FallsOn at hf
  split
  · next h' => rw [h'] at hf; simp at hf
  · rfl

theorem issueRun_fault (h : Issues i n s s1 t e) {c : Nat} {a b : W64} (hr : eff (started n s1 t e) t = .fault c a b) :
    issueRun n i eff s = .next ((s1.setTeam t).raise t (t.faultAt c a b)) := by
  rw [issueRun_go h, hr]; rfl

theorem issueRun_wait (h : Issues i n s s1 t e) (hr : eff (started n s1 t e) t = .wait) :
    issueRun n i eff s = .next (s1.setTeam t).wait := by
  rw [issueRun_go h, hr]; rfl

/-- An instruction that is `issueRun` of an effect that answers `.ok` under `P` completes. -/
theorem Completes.of_ok {P : State → Team → Prop} {f : State → Team → State}
    (hx : ∀ s, exec i s = issueRun n i eff s) (hr : ∀ s t, P s t → eff s t = .ok (f s t)) : Completes i n P f := by
  intro s s1 t e h hf hp
  rw [hx, issueRun_ok h hf (hr _ _ hp)]

theorem Ends.of_leave {P : State → Team → Prop} {f : State → Team → State}
    (hx : ∀ s, exec i s = issueRun noRun i eff s) (hr : ∀ s t, P s t → eff s t = .leave (f s t)) :
    Ends i P (fun s t => ((f s t).modTeam t.id Team.retired).yieldAfter t) := by
  intro s s1 t e h hp
  rw [hx, issueRun_leave h (hr _ _ hp)]

theorem Ends.of_done {P : State → Team → Prop} {f : State → Team → State}
    (hx : ∀ s, exec i s = issueRun noRun i eff s) (hr : ∀ s t, P s t → eff s t = .done (f s t)) : Ends i P f := by
  intro s s1 t e h hp
  rw [hx, issueRun_done h (hr _ _ hp)]

theorem Transfers.of_goto {P : State → Team → Prop} {f : State → Team → State} {a : State → Team → W64}
    (hx : ∀ s, exec i s = issueRun noRun i eff s) (hr : ∀ s t, P s t → eff s t = .goto (f s t) (a s t)) :
    Transfers i P a f := by
  intro s s1 t e h hp hc
  rw [hx, issueRun_goto h (hr _ _ hp) hc]

theorem Faults.of_fault {P : State → Team → Prop} {c : Nat} {a b : State → Team → W64}
    (hx : ∀ s, exec i s = issueRun n i eff s) (hr : ∀ s t, P s t → eff s t = .fault c (a s t) (b s t)) :
    Faults i n P c a b := by
  intro s s1 t e h hp
  rw [hx, issueRun_fault h (hr _ _ hp)]

end Sys2Proof.Machine
end

