-- ==== Sys2Proof/Laws/Memory.lean ====
section
/-!
SUPPORT. Every operation that writes memory keeps its canonical form, and a write of bytes changes those bytes alone.
-/
namespace Sys2Proof.Machine

/-! ## The canonical form -/

theorem State.putByte_wf {s : State} (pa : Nat) (b : Byte) (h : Memory.wf s.mem = true) :
    Memory.wf (s.putByte pa b).mem = true := Table.wf_set _ _ h

@[simp] theorem State.noteUndo_mem (s : State) (p pa : Nat) (b : Byte) : (s.noteUndo p pa b).mem = s.mem := by
  unfold State.noteUndo; dsimp only; split <;> rfl
@[simp] theorem State.noteUndo_mregs (s : State) (p pa : Nat) (b : Byte) : (s.noteUndo p pa b).mregs = s.mregs := by
  unfold State.noteUndo; dsimp only; split <;> rfl
@[simp] theorem State.noteSafe_mem (s : State) (p pa : Nat) (b : Byte) : (s.noteSafe p pa b).mem = s.mem := by
  unfold State.noteSafe; dsimp only; split <;> rfl
@[simp] theorem State.noteSafe_mregs (s : State) (p pa : Nat) (b : Byte) : (s.noteSafe p pa b).mregs = s.mregs := by
  unfold State.noteSafe; dsimp only; split <;> rfl
@[simp] theorem State.dropHere_mem (s : State) (pa : Nat) : (s.dropHere pa).mem = s.mem := by
  unfold State.dropHere; split <;> rfl
@[simp] theorem State.dropHere_mregs (s : State) (pa : Nat) : (s.dropHere pa).mregs = s.mregs := by
  unfold State.dropHere; split <;> rfl

theorem State.storeByte_mem (s : State) (p pa : Nat) (b : Byte) :
    (s.storeByte p pa b).mem = Table.set s.mem Config.unlisted (s.norm pa) b := by
  simp only [State.storeByte, State.dropHere_mem, State.unpoison_mem, State.putByte, State.noteSafe_mem, State.noteUndo_mem]
  rw [State.norm_congr (s := s)]
  simp
@[simp] theorem State.storeByte_mregs (s : State) (p pa : Nat) (b : Byte) : (s.storeByte p pa b).mregs = s.mregs := by
  simp [State.storeByte]

/-- One byte that the device writes into an area of its own: `writePhys` byte by byte. -/
theorem State.writePhys_cons (s : State) (pa : Nat) (b : Byte) (l : List Byte) :
    ∃ s1 : State, s.writePhys pa (b :: l) = s1.writePhys (pa + 1) l ∧ s1.mem = Table.set s.mem Config.unlisted (s.norm pa) b ∧
      s1.mregs = s.mregs := by
  refine ⟨_, rfl, ?_, ?_⟩
  · simp only [State.dropHere_mem, State.unpoison_mem, State.putByte, State.noteSafe_mem]
    rw [State.norm_congr (s := s)]
    simp
  · simp

theorem State.storeBytes_wf {s : State} (p : Nat) (l : List (Nat × Byte)) (h : Memory.wf s.mem = true) :
    Memory.wf (s.storeBytes p l).mem = true := by
  induction l generalizing s with
  | nil => exact h
  | cons x r ih => exact ih (by rw [State.storeByte_mem]; exact Table.wf_set _ _ h)

theorem State.writePhys_wf {s : State} (pa : Nat) (l : List Byte) (h : Memory.wf s.mem = true) :
    Memory.wf (s.writePhys pa l).mem = true := by
  induction l generalizing s pa with
  | nil => exact h
  | cons x r ih =>
    obtain ⟨s1, e, m, -⟩ := s.writePhys_cons pa x r
    rw [e]
    exact ih _ (by rw [m]; exact Table.wf_set _ _ h)

theorem State.writeVirt_wf {s : State} (p va : Nat) (l : List Byte) (h : Memory.wf s.mem = true) :
    Memory.wf (s.writeVirt p va l).mem = true := by
  unfold State.writeVirt
  split
  · exact State.writePhys_wf _ _ h
  · exact h

theorem State.deviceBytes_wf {s : State} (l : List (Nat × Byte)) (h : Memory.wf s.mem = true) :
    Memory.wf (s.deviceBytes l).mem = true := by
  induction l generalizing s with
  | nil => exact h
  | cons x r ih => exact ih (by rw [State.dropHere_mem]; exact Table.wf_set _ _ h)

@[simp] theorem State.poisonGranules_mem (s : State) (l : List Nat) : (s.poisonGranules l).mem = s.mem := by
  induction l generalizing s with
  | nil => rfl
  | cons x r ih => exact ih _

theorem Memory.wf_filter {m : List Host.Cell} (f : Host.Cell → Bool) (h : Memory.wf m = true) : Memory.wf (m.filter f) = true :=
  Table.wf_filter f h
theorem Memory.wf_replace {m l : List Host.Cell} (f : Host.Cell → Bool) (h : Memory.wf m = true) :
    Memory.wf (Table.setAll (m.filter f) Config.unlisted l) = true := Table.wf_setAll (Table.wf_filter f h)

/-- Taking lanes out of the entries of the spill area changes bytes of memory, and poison and registers stay (R99). -/
theorem State.clearSpilled_only (s : State) (t : Team) (x : LaneMask) : ∃ m, s.clearSpilled t x = { s with mem := m } := by
  have entry : ∀ (l : List Nat) (s : State) (pa : Nat), ∃ m, l.foldl (fun s k =>
      s.putByte (pa + k) (s.memByte (pa + k) &&& ~~~(x.extractLsb' (8 * (k % 128)) 8))) s = { s with mem := m } := by
    intro l
    induction l with
    | nil => exact fun s _ => ⟨s.mem, rfl⟩
    | cons k l ih =>
      intro s pa
      obtain ⟨m, e⟩ := ih (s.putByte (pa + k) (s.memByte (pa + k) &&& ~~~(x.extractLsb' (8 * (k % 128)) 8))) pa
      exact ⟨m, e⟩
  unfold State.clearSpilled
  generalize List.range (8 * t.r.blocks) = l
  induction l generalizing s with
  | nil => exact ⟨s.mem, rfl⟩
  | cons j l ih =>
    obtain ⟨m, e⟩ := entry (List.range 256) s (s.spillBase t 0 + 272 * j)
    obtain ⟨m', e'⟩ := ih (s.clearEntry x (s.spillBase t 0 + 272 * j))
    exact ⟨m', e'.trans (by rw [State.clearEntry, e])⟩
@[simp] theorem State.clearSpilled_poisoned (s : State) (t : Team) (x : LaneMask) (a : Nat) :
    (s.clearSpilled t x).poisoned a = s.poisoned a := by
  obtain ⟨m, e⟩ := s.clearSpilled_only t x
  rw [e]
  rfl

/-! ## What a write leaves -/

@[simp] theorem State.storeBytes_mregs (s : State) (p : Nat) (l : List (Nat × Byte)) : (s.storeBytes p l).mregs = s.mregs := by
  induction l generalizing s with
  | nil => rfl
  | cons x r ih => rw [State.storeBytes, ih, State.storeByte_mregs]

theorem State.memByte_storeByte_same (s : State) (p : Nat) {a k : Nat} (b : Byte) (h : s.norm k = s.norm a) :
    (s.storeByte p a b).memByte k = b := by
  rw [State.memByte, State.norm_congr (State.storeByte_mregs s p a b), State.storeByte_mem, h]
  exact Table.get_set_same _ _ _ _
theorem State.memByte_storeByte_ne (s : State) (p : Nat) {a k : Nat} (b : Byte) (h : s.norm k ≠ s.norm a) :
    (s.storeByte p a b).memByte k = s.memByte k := by
  rw [State.memByte, State.norm_congr (State.storeByte_mregs s p a b), State.storeByte_mem]
  exact Table.get_set_ne _ _ _ h

/-- A byte that no cell of the list names is as it was. -/
theorem State.memByte_storeBytes_ne (s : State) (p : Nat) (l : List (Nat × Byte)) {k : Nat}
    (h : ∀ x ∈ l, s.norm k ≠ s.norm x.1) : (s.storeBytes p l).memByte k = s.memByte k := by
  induction l generalizing s with
  | nil => rfl
  | cons x r ih =>
    have hn : ∀ a, (s.storeByte p x.1 x.2).norm a = s.norm a := State.norm_congr (State.storeByte_mregs s p x.1 x.2)
    rw [State.storeBytes, ih]
    · exact State.memByte_storeByte_ne s p x.2 (h x List.mem_cons_self)
    · intro y hy
      rw [hn, hn]
      exact h y (List.mem_cons_of_mem _ hy)

@[simp] theorem State.writePhys_mregs (s : State) (pa : Nat) (l : List Byte) : (s.writePhys pa l).mregs = s.mregs := by
  induction l generalizing s pa with
  | nil => rfl
  | cons x r ih =>
    obtain ⟨s1, e, -, m⟩ := s.writePhys_cons pa x r
    rw [e, ih, m]

theorem State.memByte_writePhys_ne (s : State) (pa : Nat) (l : List Byte) {k : Nat}
    (h : ∀ i, i < l.length → s.norm k ≠ s.norm (pa + i)) : (s.writePhys pa l).memByte k = s.memByte k := by
  induction l generalizing s pa with
  | nil => rfl
  | cons x r ih =>
    obtain ⟨s1, e, m, c⟩ := s.writePhys_cons pa x r
    have hn : ∀ a, s1.norm a = s.norm a := State.norm_congr c
    rw [e, ih]
    · rw [State.memByte, hn, m]
      exact Table.get_set_ne _ _ _ (by simpa using h 0 (by simp))
    · intro i hi
      rw [hn, hn, Nat.add_assoc, Nat.add_comm 1 i]
      exact h (i + 1) (by simpa using hi)

end Sys2Proof.Machine
end

