-- ==== Sys2Proof/Laws/PerInstr.lean ====
section
/-!
SUPPORT. What holds of every instruction as syntax, constructor by constructor.
-/
namespace Sys2Proof.Laws.Encodes

/-- A well-formed instruction that no written value picks out is an event of the schedule exactly if it has no word. -/
def Statement (i : Instr) : Prop := i.valueRow = none → i.wf = true → i.isEvent = (encode i).isNone

theorem of_plain {i : Instr} (h : i.sysWr? = none) : Statement i := by
  intro _ _
  simp [Instr.isEvent, h, encode]

theorem of_value {i : Instr} (h : i.valueRow.isSome = true) : Statement i := by
  intro hn _
  simp [hn] at h

theorem of_write {i : Instr} {w : SysWr} {r : SysRow} (hw : i.sysWr? = some w) (he : i.enc = encSyswr w r)
    (hh : i.hostWrite = w.hostOk r) : Statement i := by
  intro hv hwf
  unfold Instr.wf at hwf
  rw [hv] at hwf
  simp only [Instr.isEvent, hw, encode, Option.isNone_map]
  cases hb : w.by_ with
  | host p v => rw [he]; simp [encSyswr, hb]
  | team g a =>
    cases hx : i.enc with
    | some e => rfl
    | none =>
      rw [hx] at hwf
      simp [hw, hh, SysWr.hostOk, hb] at hwf

theorem nop (g : Guard) : Statement (.nop g) := of_plain rfl
theorem smov (t : BW) (x : RArgs) : Statement (.smov t x) := of_plain rfl
theorem sadd (t : IW) (x : RArgs) : Statement (.sadd t x) := of_plain rfl
theorem ssub (t : IW) (x : RArgs) : Statement (.ssub t x) := of_plain rfl
theorem smul (t : IW) (x : RArgs) : Statement (.smul t x) := of_plain rfl
theorem smulh (t : IW) (x : RArgs) : Statement (.smulh t x) := of_plain rfl
theorem smad (t : IW) (x : RArgs) : Statement (.smad t x) := of_plain rfl
theorem sand (t : BW) (x : RArgs) : Statement (.sand t x) := of_plain rfl
theorem sor (t : BW) (x : RArgs) : Statement (.sor t x) := of_plain rfl
theorem sxor (t : BW) (x : RArgs) : Statement (.sxor t x) := of_plain rfl
theorem snot (t : BW) (x : RArgs) : Statement (.snot t x) := of_plain rfl
theorem sshl (t : BW) (x : RArgs) : Statement (.sshl t x) := of_plain rfl
theorem sshr (t : BW) (x : RArgs) : Statement (.sshr t x) := of_plain rfl
theorem ssar (t : BW) (x : RArgs) : Statement (.ssar t x) := of_plain rfl
theorem srot (t : BW) (x : RArgs) : Statement (.srot t x) := of_plain rfl
theorem smin (t : IW) (x : RArgs) : Statement (.smin t x) := of_plain rfl
theorem smax (t : IW) (x : RArgs) : Statement (.smax t x) := of_plain rfl
theorem scmp (cond : Cmp) (t : ScmpTy) (bit : Fin 64) (x : RArgs) : Statement (.scmp cond t bit x) := of_plain rfl
theorem ssel (x : RArgs) : Statement (.ssel x) := of_plain rfl
theorem spopc (t : BW) (x : RArgs) : Statement (.spopc t x) := of_plain rfl
theorem sclz (t : BW) (x : RArgs) : Statement (.sclz t x) := of_plain rfl
theorem sbfe (t : SX) (x : RArgs) : Statement (.sbfe t x) := of_plain rfl
theorem sbfi (x : RArgs) : Statement (.sbfi x) := of_plain rfl
theorem scvt (t : CV) (x : RArgs) : Statement (.scvt t x) := of_plain rfl
theorem slit (h : Fin 4) (keep : Bool) (x : IArgs) : Statement (.slit h keep x) := of_plain rfl
theorem saddImm (t : IW) (x : IArgs) : Statement (.saddImm t x) := of_plain rfl
theorem smulImm (t : IW) (x : IArgs) : Statement (.smulImm t x) := of_plain rfl
theorem sandImm (t : BW) (x : IArgs) : Statement (.sandImm t x) := of_plain rfl
theorem sorImm (t : BW) (x : IArgs) : Statement (.sorImm t x) := of_plain rfl
theorem sxorImm (t : BW) (x : IArgs) : Statement (.sxorImm t x) := of_plain rfl
theorem sshlImm (t : BW) (x : IArgs) : Statement (.sshlImm t x) := of_plain rfl
theorem sshrImm (t : BW) (x : IArgs) : Statement (.sshrImm t x) := of_plain rfl
theorem ssarImm (t : BW) (x : IArgs) : Statement (.ssarImm t x) := of_plain rfl
theorem srotImm (t : BW) (x : IArgs) : Statement (.srotImm t x) := of_plain rfl
theorem sminImm (t : IW) (x : IArgs) : Statement (.sminImm t x) := of_plain rfl
theorem smaxImm (t : IW) (x : IArgs) : Statement (.smaxImm t x) := of_plain rfl
theorem sbfeImm (t : SX) (x : IArgs) : Statement (.sbfeImm t x) := of_plain rfl
theorem sbfiImm (x : IArgs) : Statement (.sbfiImm x) := of_plain rfl
theorem br (g : Guard) (disp : BitVec 32) : Statement (.br g disp) := of_plain rfl
theorem brd (g : Guard) (target join : BitVec 16) : Statement (.brd g target join) := of_plain rfl
theorem brx (x : RArgs) : Statement (.brx x) := of_plain rfl
theorem call (g : Guard) (d : Dest) (disp : BitVec 32) : Statement (.call g d disp) := of_plain rfl
theorem ret (x : RArgs) : Statement (.ret x) := of_plain rfl
theorem exit (g : Guard) : Statement (.exit g) := of_plain rfl
theorem yield (g : Guard) : Statement (.yield g) := of_plain rfl
theorem srd (r : SReg) (g : Guard) (d : Dest) : Statement (.srd r g d) := of_plain rfl
theorem callx (x : RArgs) : Statement (.callx x) := of_plain rfl
theorem vadd (t : IW) (x : RArgs) : Statement (.vadd t x) := of_plain rfl
theorem vsub (t : IW) (x : RArgs) : Statement (.vsub t x) := of_plain rfl
theorem vmul (t : IW) (x : RArgs) : Statement (.vmul t x) := of_plain rfl
theorem vmulh (t : IW) (x : RArgs) : Statement (.vmulh t x) := of_plain rfl
theorem vmad (t : IW) (x : RArgs) : Statement (.vmad t x) := of_plain rfl
theorem vand (t : BW) (x : RArgs) : Statement (.vand t x) := of_plain rfl
theorem vor (t : BW) (x : RArgs) : Statement (.vor t x) := of_plain rfl
theorem vxor (t : BW) (x : RArgs) : Statement (.vxor t x) := of_plain rfl
theorem vnot (t : BW) (x : RArgs) : Statement (.vnot t x) := of_plain rfl
theorem vshl (t : BW) (x : RArgs) : Statement (.vshl t x) := of_plain rfl
theorem vshr (t : BW) (x : RArgs) : Statement (.vshr t x) := of_plain rfl
theorem vsar (t : BW) (x : RArgs) : Statement (.vsar t x) := of_plain rfl
theorem vmin (t : IW) (x : RArgs) : Statement (.vmin t x) := of_plain rfl
theorem vmax (t : IW) (x : RArgs) : Statement (.vmax t x) := of_plain rfl
theorem vabs (t : IS) (x : RArgs) : Statement (.vabs t x) := of_plain rfl
theorem vneg (t : IS) (x : RArgs) : Statement (.vneg t x) := of_plain rfl
theorem vpopc (t : BW) (x : RArgs) : Statement (.vpopc t x) := of_plain rfl
theorem vclz (t : BW) (x : RArgs) : Statement (.vclz t x) := of_plain rfl
theorem vbfe (t : SX) (x : RArgs) : Statement (.vbfe t x) := of_plain rfl
theorem vbfi (x : RArgs) : Statement (.vbfi x) := of_plain rfl
theorem vsel (x : RArgs) : Statement (.vsel x) := of_plain rfl
theorem vcmp (cond : Cmp) (t : IW) (bit : Fin 32) (x : RArgs) : Statement (.vcmp cond t bit x) := of_plain rfl
theorem vaddImm (t : IW) (x : IArgs) : Statement (.vaddImm t x) := of_plain rfl
theorem vmulImm (t : IW) (x : IArgs) : Statement (.vmulImm t x) := of_plain rfl
theorem vandImm (t : BW) (x : IArgs) : Statement (.vandImm t x) := of_plain rfl
theorem vorImm (t : BW) (x : IArgs) : Statement (.vorImm t x) := of_plain rfl
theorem vxorImm (t : BW) (x : IArgs) : Statement (.vxorImm t x) := of_plain rfl
theorem vshlImm (t : BW) (x : IArgs) : Statement (.vshlImm t x) := of_plain rfl
theorem vshrImm (t : BW) (x : IArgs) : Statement (.vshrImm t x) := of_plain rfl
theorem vsarImm (t : BW) (x : IArgs) : Statement (.vsarImm t x) := of_plain rfl
theorem vminImm (t : IW) (x : IArgs) : Statement (.vminImm t x) := of_plain rfl
theorem vmaxImm (t : IW) (x : IArgs) : Statement (.vmaxImm t x) := of_plain rfl
theorem fadd (rm : RM) (x : RArgs) : Statement (.fadd rm x) := of_plain rfl
theorem fmul (rm : RM) (x : RArgs) : Statement (.fmul rm x) := of_plain rfl
theorem ffma (rm : RM) (x : RArgs) : Statement (.ffma rm x) := of_plain rfl
theorem fmin (nan : Bool) (x : RArgs) : Statement (.fmin nan x) := of_plain rfl
theorem fmax (nan : Bool) (x : RArgs) : Statement (.fmax nan x) := of_plain rfl
theorem fcmp (cond : Cmp) (t : FcmpTy) (bit : Fin 32) (x : RArgs) : Statement (.fcmp cond t bit x) := of_plain rfl
theorem frcp (x : RArgs) : Statement (.frcp x) := of_plain rfl
theorem frsq (x : RArgs) : Statement (.frsq x) := of_plain rfl
theorem fsqrt (rm : RM) (x : RArgs) : Statement (.fsqrt rm x) := of_plain rfl
theorem fex2 (x : RArgs) : Statement (.fex2 x) := of_plain rfl
theorem flg2 (x : RArgs) : Statement (.flg2 x) := of_plain rfl
theorem fsin (x : RArgs) : Statement (.fsin x) := of_plain rfl
theorem fcos (x : RArgs) : Statement (.fcos x) := of_plain rfl
theorem fclass (f : Fmt) (x : RArgs) : Statement (.fclass f x) := of_plain rfl
theorem cvt (rm : RM) (dst src : Fmt) (x : RArgs) : Statement (.cvt rm dst src x) := of_plain rfl
theorem cvtNosat (rm : RM) (dst src : Fmt) (x : RArgs) : Statement (.cvtNosat rm dst src x) := of_plain rfl
theorem hadd2F16 (rm : RM) (x : RArgs) : Statement (.hadd2F16 rm x) := of_plain rfl
theorem hmul2F16 (rm : RM) (x : RArgs) : Statement (.hmul2F16 rm x) := of_plain rfl
theorem hfma2F16 (rm : RM) (x : RArgs) : Statement (.hfma2F16 rm x) := of_plain rfl
theorem hadd2Bf16 (rm : RM) (x : RArgs) : Statement (.hadd2Bf16 rm x) := of_plain rfl
theorem hmul2Bf16 (rm : RM) (x : RArgs) : Statement (.hmul2Bf16 rm x) := of_plain rfl
theorem hfma2Bf16 (rm : RM) (x : RArgs) : Statement (.hfma2Bf16 rm x) := of_plain rfl
theorem shfl (op : SH) (x : RArgs) : Statement (.shfl op x) := of_plain rfl
theorem bcast (x : RArgs) : Statement (.bcast x) := of_plain rfl
theorem ballot (bit : Fin 32) (x : RArgs) : Statement (.ballot bit x) := of_plain rfl
theorem vote (op : VT) (dbit : Fin 64) (bit : Fin 32) (x : RArgs) : Statement (.vote op dbit bit x) := of_plain rfl
theorem tred (op : TO) (x : RArgs) : Statement (.tred op x) := of_plain rfl
theorem tscan (op : TO) (x : RArgs) : Statement (.tscan op x) := of_plain rfl
theorem ld (t : SZL) (x : MArgs) : Statement (.ld t x) := of_plain rfl
theorem ldAcq (t : SZL) (sc : Scope) (x : MArgs) : Statement (.ldAcq t sc x) := of_plain rfl
theorem st (t : SZS) (x : MArgs) : Statement (.st t x) := of_plain rfl
theorem stRel (t : SZS) (sc : Scope) (x : MArgs) : Statement (.stRel t sc x) := of_plain rfl
theorem lds (t : SZL) (x : MArgs) : Statement (.lds t x) := of_plain rfl
theorem sts (t : SZS) (x : MArgs) : Statement (.sts t x) := of_plain rfl
theorem atom (op : AT) (sc : Scope) (o : Order) (t : AtomTy) (x : RArgs) : Statement (.atom op sc o t x) := of_plain rfl
theorem atomCas (sc : Scope) (o : Order) (t : AtomTy) (x : RArgs) : Statement (.atomCas sc o t x) := of_plain rfl
theorem red (op : AT) (sc : Scope) (o : Order) (t : AtomTy) (x : RArgs) : Statement (.red op sc o t x) := of_plain rfl
theorem rdo (x : RArgs) : Statement (.rdo x) := of_plain rfl
theorem rdoset (x : RArgs) : Statement (.rdoset x) := of_plain rfl
theorem ldv (t : SZV) (sc : Scope) (acq : Bool) (x : RArgs) : Statement (.ldv t sc acq x) := of_plain rfl
theorem ldvLatest (t : SZV) (sc : Scope) (acq : Bool) (x : RArgs) : Statement (.ldvLatest t sc acq x) := of_plain rfl
theorem stv (t : SZS) (x : RArgs) : Statement (.stv t x) := of_plain rfl
theorem stvRel (t : SZS) (sc : Scope) (x : RArgs) : Statement (.stvRel t sc x) := of_plain rfl
theorem vflr (x : RArgs) : Statement (.vflr x) := of_plain rfl
theorem vqry (x : RArgs) : Statement (.vqry x) := of_plain rfl
theorem acp (tag : Fin 8) (x : RArgs) : Statement (.acp tag x) := of_plain rfl
theorem acpw (tag : Fin 8) (g : Guard) : Statement (.acpw tag g) := of_plain rfl
theorem lease (x : RArgs) : Statement (.lease x) := of_plain rfl
theorem unlease (x : RArgs) : Statement (.unlease x) := of_plain rfl
theorem pref (l : PL) (x : MArgs) : Statement (.pref l x) := of_plain rfl
theorem cctl (op : CC) (x : RArgs) : Statement (.cctl op x) := of_plain rfl
theorem fence (op : FenceOp) (sc : Scope) (g : Guard) : Statement (.fence op sc g) := of_plain rfl
theorem atoms (op : AT) (sc : Scope) (o : Order) (t : AtomTy) (x : RArgs) : Statement (.atoms op sc o t x) := of_plain rfl
theorem atomsCas (sc : Scope) (o : Order) (t : AtomTy) (x : RArgs) : Statement (.atomsCas sc o t x) := of_plain rfl
theorem mfmt (x : XArgs) : Statement (.mfmt x) := of_plain rfl
theorem mma (set : Bool) (x : XArgs) : Statement (.mma set x) := of_plain rfl
theorem mloop (set : Bool) (x : XArgs) : Statement (.mloop set x) := of_plain rfl
theorem mzero (x : XArgs) : Statement (.mzero x) := of_plain rfl
theorem mld (x : XArgs) : Statement (.mld x) := of_plain rfl
theorem mst (f : MS) (x : XArgs) : Statement (.mst f x) := of_plain rfl
theorem mwait (g : Guard) : Statement (.mwait g) := of_plain rfl
theorem sgo (x : XArgs) : Statement (.sgo x) := of_plain rfl
theorem sstop (x : XArgs) : Statement (.sstop x) := of_plain rfl
theorem sqry (x : XArgs) : Statement (.sqry x) := of_plain rfl
theorem qfence (x : RArgs) : Statement (.qfence x) := of_plain rfl
theorem bcp (x : RArgs) : Statement (.bcp x) := of_plain rfl
theorem qpop (q : Fin 32) (x : RArgs) : Statement (.qpop q x) := of_plain rfl
theorem qpush (q : Fin 32) (x : RArgs) : Statement (.qpush q x) := of_plain rfl
theorem qrel (q : Fin 32) (x : RArgs) : Statement (.qrel q x) := of_plain rfl
theorem qstat (q : Fin 32) (x : RArgs) : Statement (.qstat q x) := of_plain rfl
theorem qtry (q : Fin 32) (x : RArgs) : Statement (.qtry q x) := of_plain rfl
theorem aset (x : RArgs) : Statement (.aset x) := of_plain rfl
theorem aadd (x : RArgs) : Statement (.aadd x) := of_plain rfl
theorem await (x : RArgs) : Statement (.await x) := of_plain rfl
theorem aqry (x : RArgs) : Statement (.aqry x) := of_plain rfl
theorem emit (edge : Fin 8) (x : RArgs) : Statement (.emit edge x) := of_plain rfl
theorem emitTeam (edge : Fin 8) (x : RArgs) : Statement (.emitTeam edge x) := of_plain rfl
theorem emitx (len : Fin 16) (edge : Fin 8) (x : RArgs) : Statement (.emitx len edge x) := of_plain rfl
theorem emitxTeam (len : Fin 16) (edge : Fin 8) (x : RArgs) : Statement (.emitxTeam len edge x) := of_plain rfl
theorem rrd (x : RArgs) : Statement (.rrd x) := of_plain rfl
theorem rlen (x : RArgs) : Statement (.rlen x) := of_plain rfl
theorem trap (n : BitVec 8) (g : Guard) : Statement (.trap n g) := of_plain rfl
theorem tretFix (g : Guard) : Statement (.tretFix g) := of_plain rfl
theorem tretSkip (g : Guard) : Statement (.tretSkip g) := of_plain rfl
theorem tretRetry (g : Guard) : Statement (.tretRetry g) := of_plain rfl
theorem tretKill (g : Guard) : Statement (.tretKill g) := of_plain rfl
theorem sysrd (n : BitVec 16) (g : Guard) (d : Dest) : Statement (.sysrd n g d) := of_plain rfl
theorem syswr (w : SysWr) : Statement (.syswr w) := of_write rfl rfl rfl
theorem ckpt (x : RArgs) : Statement (.ckpt x) := of_plain rfl
theorem bkpt (n : BitVec 8) (g : Guard) : Statement (.bkpt n g) := of_plain rfl
theorem tmark (x : RArgs) : Statement (.tmark x) := of_plain rfl
theorem ringrst (x : RArgs) : Statement (.ringrst x) := of_plain rfl
theorem presize (x : RArgs) : Statement (.presize x) := of_plain rfl
theorem plend (x : RArgs) : Statement (.plend x) := of_plain rfl
theorem prevoke (x : RArgs) : Statement (.prevoke x) := of_plain rfl
theorem pgret (x : RArgs) : Statement (.pgret x) := of_plain rfl
theorem gptrootWrite (w : SysWr) : Statement (.gptrootWrite w) := of_write rfl rfl rfl
theorem hptrootWrite (w : SysWr) : Statement (.hptrootWrite w) := of_write rfl rfl rfl
theorem scrsplitWrite (w : SysWr) : Statement (.scrsplitWrite w) := of_write rfl rfl rfl
theorem vrcmdCreate (w : SysWr) : Statement (.vrcmdCreate w) := of_value rfl
theorem vrcmdDestroy (w : SysWr) : Statement (.vrcmdDestroy w) := of_value rfl
theorem ringcbEnable (w : SysWr) : Statement (.ringcbEnable w) := of_value rfl
theorem ringcbDisable (w : SysWr) : Statement (.ringcbDisable w) := of_value rfl
theorem domcfgWrite (w : SysWr) : Statement (.domcfgWrite w) := of_write rfl rfl rfl
theorem dtimeWrite (w : SysWr) : Statement (.dtimeWrite w) := of_write rfl rfl rfl
theorem gtoffWrite (w : SysWr) : Statement (.gtoffWrite w) := of_write rfl rfl rfl
theorem modeWrite (w : SysWr) : Statement (.modeWrite w) := of_write rfl rfl rfl
theorem pctlFreeze (w : SysWr) : Statement (.pctlFreeze w) := of_value rfl
theorem pctlThaw (w : SysWr) : Statement (.pctlThaw w) := of_value rfl
theorem pctlReset (w : SysWr) : Statement (.pctlReset w) := of_value rfl
theorem saferstWrite (w : SysWr) : Statement (.saferstWrite w) := of_write rfl rfl rfl
theorem profctlWrite (w : SysWr) : Statement (.profctlWrite w) := of_write rfl rfl rfl
theorem pmselWrite (w : SysWr) : Statement (.pmselWrite w) := of_write rfl rfl rfl
theorem trcctlWrite (w : SysWr) : Statement (.trcctlWrite w) := of_write rfl rfl rfl
theorem dbgdataRead (g : Guard) (d : Dest) : Statement (.dbgdataRead g d) := of_plain rfl
theorem dbgdataWrite (w : SysWr) : Statement (.dbgdataWrite w) := of_write rfl rfl rfl
theorem dbgrunResume (w : SysWr) : Statement (.dbgrunResume w) := of_value rfl
theorem dbgrunStep (w : SysWr) : Statement (.dbgrunStep w) := of_value rfl
theorem dbgrunSkip (w : SysWr) : Statement (.dbgrunSkip w) := of_value rfl
theorem dbgrunKill (w : SysWr) : Statement (.dbgrunKill w) := of_value rfl
theorem dbgrunHalt (w : SysWr) : Statement (.dbgrunHalt w) := of_value rfl
theorem rplctlLog (w : SysWr) : Statement (.rplctlLog w) := of_value rfl
theorem rplctlGo (w : SysWr) : Statement (.rplctlGo w) := of_value rfl
theorem clauseIssue : Statement (.clauseIssue) := of_plain rfl
theorem faultDeliver : Statement (.faultDeliver) := of_plain rfl
theorem loadDataReturn : Statement (.loadDataReturn) := of_plain rfl
theorem storePerformed : Statement (.storePerformed) := of_plain rfl
theorem atomicPerformed : Statement (.atomicPerformed) := of_plain rfl
theorem rdoContributionArrive : Statement (.rdoContributionArrive) := of_plain rfl
theorem versionStoreRecord : Statement (.versionStoreRecord) := of_plain rfl
theorem ldvWake : Statement (.ldvWake) := of_plain rfl
theorem parkedRetry : Statement (.parkedRetry) := of_plain rfl
theorem floorApply : Statement (.floorApply) := of_plain rfl
theorem vflrPerformed : Statement (.vflrPerformed) := of_plain rfl
theorem acpPerformed : Statement (.acpPerformed) := of_plain rfl
theorem bcpComplete : Statement (.bcpComplete) := of_plain rfl
theorem bcpTranslationFail : Statement (.bcpTranslationFail) := of_plain rfl
theorem arrivalRedirect : Statement (.arrivalRedirect) := of_plain rfl
theorem matrixEntryPerformed : Statement (.matrixEntryPerformed) := of_plain rfl
theorem streamTileComplete : Statement (.streamTileComplete) := of_plain rfl
theorem streamEngineFault : Statement (.streamEngineFault) := of_plain rfl
theorem emitPerformed : Statement (.emitPerformed) := of_plain rfl
theorem teamRetire : Statement (.teamRetire) := of_plain rfl
theorem teamKill : Statement (.teamKill) := of_plain rfl
theorem pgretDone : Statement (.pgretDone) := of_plain rfl
theorem recordEnqueue : Statement (.recordEnqueue) := of_plain rfl
theorem admissionDecision : Statement (.admissionDecision) := of_plain rfl
theorem coalesceTimeout : Statement (.coalesceTimeout) := of_plain rfl
theorem agingTick : Statement (.agingTick) := of_plain rfl
theorem instanceEnd : Statement (.instanceEnd) := of_plain rfl
theorem arrivalRetry : Statement (.arrivalRetry) := of_plain rfl
theorem gapTimeout : Statement (.gapTimeout) := of_plain rfl
theorem watchdogExpire : Statement (.watchdogExpire) := of_plain rfl
theorem leaseExpire : Statement (.leaseExpire) := of_plain rfl
theorem nearCopyExpire : Statement (.nearCopyExpire) := of_plain rfl
theorem farCopyExpire : Statement (.farCopyExpire) := of_plain rfl
theorem recReceive : Statement (.recReceive) := of_plain rfl
theorem ackReceive : Statement (.ackReceive) := of_plain rfl
theorem nakReceive : Statement (.nakReceive) := of_plain rfl
theorem backoffExpire : Statement (.backoffExpire) := of_plain rfl
theorem skipReceive : Statement (.skipReceive) := of_plain rfl
theorem repltoExpire : Statement (.repltoExpire) := of_plain rfl
theorem vwakeReceive : Statement (.vwakeReceive) := of_plain rfl
theorem vflrMsgReceive : Statement (.vflrMsgReceive) := of_plain rfl
theorem staggerReceive : Statement (.staggerReceive) := of_plain rfl
theorem staggerHoldEnd : Statement (.staggerHoldEnd) := of_plain rfl
theorem remoteAccessArrive : Statement (.remoteAccessArrive) := of_plain rfl
theorem remoteTimeout : Statement (.remoteTimeout) := of_plain rfl
theorem ingressPoll : Statement (.ingressPoll) := of_plain rfl
theorem ctrlLoad : Statement (.ctrlLoad) := of_plain rfl
theorem ctrlUnload : Statement (.ctrlUnload) := of_plain rfl
theorem ctrlWatch : Statement (.ctrlWatch) := of_plain rfl
theorem reportWrite : Statement (.reportWrite) := of_plain rfl
theorem hostWriteInbound : Statement (.hostWriteInbound) := of_plain rfl
theorem hostReadInbound : Statement (.hostReadInbound) := of_plain rfl
theorem hostAtomicInbound : Statement (.hostAtomicInbound) := of_plain rfl
theorem cpsemAcquire : Statement (.cpsemAcquire) := of_plain rfl
theorem cpsemRelease : Statement (.cpsemRelease) := of_plain rfl
theorem controlLinkLoss : Statement (.controlLinkLoss) := of_plain rfl
theorem cqconsWrite : Statement (.cqconsWrite) := of_plain rfl
theorem ualinkDegrade : Statement (.ualinkDegrade) := of_plain rfl
theorem freezeComplete : Statement (.freezeComplete) := of_plain rfl
theorem traceSampleTick : Statement (.traceSampleTick) := of_plain rfl
theorem teamStop : Statement (.teamStop) := of_plain rfl
theorem replayDone : Statement (.replayDone) := of_plain rfl
theorem plendDone : Statement (.plendDone) := of_plain rfl
theorem prevokeDone : Statement (.prevokeDone) := of_plain rfl
theorem presizeDone : Statement (.presizeDone) := of_plain rfl
theorem teamMigrate : Statement (.teamMigrate) := of_plain rfl
theorem teamRestore : Statement (.teamRestore) := of_plain rfl
theorem dualHashSweep : Statement (.dualHashSweep) := of_plain rfl
theorem windowClose : Statement (.windowClose) := of_plain rfl
theorem pageMigrate : Statement (.pageMigrate) := of_plain rfl
theorem checkpointCut : Statement (.checkpointCut) := of_plain rfl
theorem checkpointCommit : Statement (.checkpointCommit) := of_plain rfl
theorem turnEnd : Statement (.turnEnd) := of_plain rfl
theorem turnStart : Statement (.turnStart) := of_plain rfl
theorem rollback : Statement (.rollback) := of_plain rfl
theorem safeCheckpointHold : Statement (.safeCheckpointHold) := of_plain rfl
theorem uncorrectableError : Statement (.uncorrectableError) := of_plain rfl
theorem pageRetireDone : Statement (.pageRetireDone) := of_plain rfl
theorem unitFail : Statement (.unitFail) := of_plain rfl
theorem firmwareVerify : Statement (.firmwareVerify) := of_plain rfl
theorem attctlSign : Statement (.attctlSign) := of_plain rfl
theorem attestDone : Statement (.attestDone) := of_plain rfl
theorem sysselRead : Statement (.sysselRead) := of_plain rfl
theorem sysselWrite : Statement (.sysselWrite) := of_plain rfl
theorem sysselPresize : Statement (.sysselPresize) := of_plain rfl
theorem sysselPlend : Statement (.sysselPlend) := of_plain rfl
theorem sysselPrevoke : Statement (.sysselPrevoke) := of_plain rfl
theorem sysselPgret : Statement (.sysselPgret) := of_plain rfl
theorem pwrctlWrite : Statement (.pwrctlWrite) := of_plain rfl
theorem powerTick : Statement (.powerTick) := of_plain rfl
theorem fwgovEngage : Statement (.fwgovEngage) := of_plain rfl
theorem fwgovRelease : Statement (.fwgovRelease) := of_plain rfl
theorem governorWindow : Statement (.governorWindow) := of_plain rfl
theorem arrayGate : Statement (.arrayGate) := of_plain rfl
theorem arrayWake : Statement (.arrayWake) := of_plain rfl
theorem traceDrain : Statement (.traceDrain) := of_plain rfl
theorem moduleReset : Statement (.moduleReset) := of_plain rfl
theorem safeRestoreDone : Statement (.safeRestoreDone) := of_plain rfl
theorem partitionClearDone : Statement (.partitionClearDone) := of_plain rfl
theorem rootDropDone : Statement (.rootDropDone) := of_plain rfl

end Sys2Proof.Laws.Encodes
end

