-- ==== Sys2Proof/Tests/Slice0.lean ====
section
/-!
SUPPORT. Tests of the model by evaluation. Expected values are the spec's own encodings and worked numbers; a theorem
`meets_…` shows states and operands that satisfy the hypotheses of a statement.
-/
namespace Sys2Proof.Tests
open Sys2Proof.Machine

set_option Elab.async false

/-! ## Operands and states -/

def u0 : Opnd := .v 0 false
/-- Scalar forms with one, two and three sources, and the immediate form. -/
def s1 : RArgs := ⟨.none, .s 1, .s 2, u0, u0, 0⟩
def s2 : RArgs := ⟨.none, .s 1, .s 2, .s 3, u0, 0⟩
def s3 : RArgs := ⟨.none, .s 1, .s 2, .s 3, .s 4, 0⟩
def sI : IArgs := ⟨.none, .s 1, .s 2, 5⟩
/-- The same with vector registers. -/
def v1 : RArgs := ⟨.none, .v 2, .v 4 false, u0, u0, 0⟩
def v2 : RArgs := ⟨.none, .v 2, .v 4 false, .v 6 false, u0, 0⟩
def v3 : RArgs := ⟨.none, .v 2, .v 4 false, .v 6 false, .v 8 false, 0⟩
def vI : IArgs := ⟨.none, .v 2, .v 4 false, 5⟩

abbrev Prep := State → State
/-- Scalar register `i` of the team in issue holds `x`. -/
def sreg (i : Nat) (x : W64) : Prep := fun s => s.modTeam 0 fun t => { t with r := t.r.sset i x }
def team (f : Team → Team) : Prep := fun s => s.modTeam 0 f
def none_ : Prep := id

/-- Where instruction `i` issues, the team there, and where its effect starts; with `on` the place after it may be
entered. -/
def effectAt (i : Instr) (f : Prep) (n : RunOf) (on : Bool) : Option (State × Team × State) :=
  match encode i with
  | none => none
  | some w =>
    let s := f (State.reset.placeWord w)
    match s.cur, i.enc with
    | some t0, some e =>
      match s.gate t0 i e n with
      | .go s1 t => if on && ((s1.setTeam t).fallsInto t).2.isSome then none else some (s1, t, started n s1 t e)
      | _ => none
    | _, _ => none

/-- Instruction `i` is well formed, issues where `f` has prepared the state, and `P` holds of the state and the team its effect
starts from. -/
def meets (i : Instr) (f : Prep := none_) (P : State → Team → Bool := fun _ _ => true)
    (n : RunOf := noRun) (on : Bool := true) : Bool :=
  i.wf && match effectAt i f n on with
    | some (_, t, s) => P s t
    | none => false
/-- The same for an instruction that goes elsewhere: `P` holds also of the state before its effect. -/
def meetsAt (i : Instr) (f : Prep) (P : State → State → Team → Bool) : Bool :=
  i.wf && match effectAt i f noRun false with
    | some (s1, t, s) => P s1 s t
    | none => false

/-! ## Well-formedness: a term that each check refuses -/

theorem test_wf : (Instr.sadd .i32 s2).wf = true := by decide
theorem test_wf_guard_kind : (Instr.sadd .i32 { s2 with g := .vec 0 0 false }).wf = false := by decide
theorem test_wf_lookahead : (Instr.sadd .i32 { s2 with la := 1 }).wf = false := by decide
theorem test_wf_unused_d : (Instr.st .b32 ⟨.none, .v 1, .s 2, .v 3 false, 0, 0⟩).wf = false := by decide
theorem test_wf_unused_b : (Instr.smov .b64 { s1 with b := .s 3 }).wf = false := by decide
theorem test_wf_unused_c : (Instr.sadd .i32 { s2 with c := .s 3 }).wf = false := by decide
theorem test_wf_unused_a : (Instr.mzero ⟨.none, .v 0, .s 1, 0, 0, 0, false, 0⟩).wf = false := by decide
theorem test_wf_codes : (Instr.scmp .uno .i64 0 s2).wf = false := by decide
theorem test_wf_guard_bit : (Instr.vadd .i32 { v2 with g := .vec 0 32 false }).wf = false := by decide
theorem test_wf_dest : (Instr.sadd .i32 { s2 with d := .v 1 }).wf = false := by decide
theorem test_wf_a : (Instr.sadd .i32 { s2 with a := .v 1 false }).wf = false := by decide
theorem test_wf_b : (Instr.sadd .i32 { s2 with b := .v 1 false }).wf = false := by decide
theorem test_wf_c : (Instr.smad .i32 { s3 with c := .v 1 false }).wf = false := by decide
theorem test_wf_payload : (Instr.emitx 8 0 ⟨.none, .v 0, .v 60 false, u0, .s 4, 0⟩).wf = false := by decide
theorem test_wf_value_row : (Instr.vrcmdCreate ⟨0x0174, .team .none (.s 2)⟩).wf = false := by decide
theorem test_wf_host_register : (Instr.syswr ⟨0x0000, .host 0 0⟩).wf = false := by decide
theorem test_wf_host_row : (Instr.syswr ⟨0x0033, .host 0 0⟩).wf = false := by decide

/-! ## Words written out from the spec's encodings (R19-R28) -/

/-- `sadd.i64 s21, s20, #16`: OPC 0x20, no guard, D = s21, A = s20, IMM 16 (R24). -/
theorem test_word_saddImm : decodeWord 0x2000_0055_5400_1000 = .ok (.saddImm .i64 ⟨.none, .s 21, .s 20, 16⟩) := by rfl
/-- `vadd.n32 v2, v4, v6`: OPC 0x40, MOD 3, D = 2, A = 4, B = 6. -/
theorem test_word_vadd : decodeWord 0x4060_0002_0406_0000 = .ok (.vadd .n32 v2) := by rfl
/-- `ld.b32 v1, [v2 + 8]` in units of 4: OPC 0x80, MOD 4, D = 1, A = 2, C the offset 2. -/
theorem test_word_ld : decodeWord 0x8080_0001_0200_0200 = .ok (.ld .b32 ⟨.none, .v 1, .v 2 false, u0, 2, 0⟩) := by rfl
/-- `mwait`: OPC 0xA6. -/
theorem test_word_mwait : decodeWord 0xA600_0000_0000_0000 = .ok (.mwait .none) := by rfl
/-- `qpop s1, ring 3`: OPC 0xC0, D = s1, A = 3. -/
theorem test_word_qpop : decodeWord 0xC000_0041_0300_0000 = .ok (.qpop 3 ⟨.none, .s 1, u0, u0, u0, 0⟩) := by rfl
/-- `rlen s1`: OPC 0xD5. -/
theorem test_word_rlen : decodeWord 0xD500_0041_0000_0000 = .ok (.rlen ⟨.none, .s 1, u0, u0, u0, 0⟩) := by rfl
/-- `tret.kill`: OPC 0xE1, MOD 3. -/
theorem test_word_tretKill : decodeWord 0xE160_0000_0000_0000 = .ok (.tretKill .none) := by rfl
/-- `br` with a scalar guard on s25 bit 0, DISP -3. -/
theorem test_word_br : decodeWord 0x3016_4000_FFFF_FFFD = .ok (.br (.scal 25 0 false) 0xFFFF_FFFD) := by rfl
/-- An unassigned opcode, and a reserved MOD value, are fault 0x01; a vector operand in a scalar field is 0x03 (R38). -/
theorem test_word_unassigned : decodeWord 0x1900_0000_0000_0000 = .error .encoding := by rfl
theorem test_word_mod : decodeWord 0x0120_0054_C000_0000 = .error .encoding := by rfl
theorem test_word_operand : decodeWord 0x0100_0054_0000_0000 = .error .operand := by rfl

/-! ## Results on fixed values -/

/-- The next state of instruction `i`, prepared by `f`: the team in it. -/
def after (i : Instr) (f : Prep) : Option Team :=
  match encode i with
  | none => none
  | some w =>
    match exec i (f (State.reset.placeWord w)) with
    | .next s => s.team? 0
    | _ => none

/-- 0x7FFF_FFFF + 1 in 32 bits is the least integer, extended (R85). -/
theorem test_sadd_wraps : (after (.sadd .i32 s2) (sreg 2 0x7FFF_FFFF ∘ sreg 3 1)).map (·.r.sget 1) =
    some 0xFFFF_FFFF_8000_0000 := by decide +kernel
/-- A shift by the width gives 0 (R89). -/
theorem test_sshl_width : (after (.sshl .b32 s2) (sreg 2 1 ∘ sreg 3 32)).map (·.r.sget 1) = some 0 := by decide +kernel
/-- -1 × -1 has high half 0 (R85). -/
theorem test_smulh_signed : (after (.smulh .i64 s2) (sreg 2 (-1) ∘ sreg 3 (-1))).map (·.r.sget 1) = some 0 := by decide +kernel
/-- 1.0 + 2^-24 rounds to 1.0, inexactly (R66 flag bit 4). -/
theorem test_fadd_rounds : (after (.fadd .rne v2) (team fun t => { t with
    r := (t.r.setLane 4 0 0x3F80_0000).setLane 6 0 0x3380_0000 })).map (fun t => t.r.lane 2 0) =
    some 0x3F80_0000 := by decide +kernel
/-- A taken branch stands at H + 8 × DISP (R27). -/
theorem test_br_target : (after (.br .none 0) none_).map (·.r.pc) = some (BitVec.ofNat 64 placeBase) := by decide +kernel
/-- A trap outside a region of a handler is a double fault: the team is killed (R220). -/
theorem test_trap_without_handler : (after (.trap 7 .none) none_).map (·.stat) = some (.killing 0x0B) := by decide +kernel

/-- SHAKE256 of the empty message (FIPS 202). -/
theorem test_shake256_empty : shake256 [] =
    0xbec4b7b3ac2e294086b49a47491c82fcf692b5679d0105cb00f2c0d8ddc45dd72f76d56e64270cb5821bb862ea52cd3f24eb3e74eb3f3b23138da80b2bddb946 :=
  by decide +kernel

/-! ## Issue -/

/-- `i` placed and prepared. -/
def placed (i : Instr) (f : Prep) : State := f (State.reset.placeWord ((encode i).getD 0))
def base : State := State.reset.placeWord 0
theorem meets_IssueOrGuardedOff :
    ((placed (.sadd .i32 s2) none_).cur.any fun t => (Instr.sadd .i32 s2).enc.any fun e =>
      let s := placed (.sadd .i32 s2) none_
      s.runnable t && t.r.cl.isSome && t.pend.isEmpty && t.wc.isEmpty && guardUni e.g t.r && (s.pcMatch t).isNone &&
        decide (levelOf (.sadd .i32 s2) ≤ t.level) && t.r.v.all (fun x => x.2 != .absent) &&
        !s.granulesShort t (t.newGranules e [] (writeKeys t e (encAccess e none))) && t.port && !(s.pr t.part 0x110).getLsbD 0) = true := by
  decide +kernel

theorem meets_ScalarArithmetic :
    ([.sadd .i32 s2, .ssub .i64 s2, .smul .n8 s2, .smulh .n64 s2, .smad .i16 s3, .saddImm .i64 sI, .smulImm .n32 sI,
      .smin .i32 s2, .smax .n32 s2, .sminImm .i64 sI, .smaxImm .i64 sI, .scmp .lt .i64 63 s2, .ssel s3] :
      List Instr).all (meets ·) = true := by decide +kernel
theorem meets_ScalarLogicAndShifts :
    ([.smov .b64 s1, .sand .b32 s2, .sor .b16 s2, .sxor .b8 s2, .snot .b64 s1, .sandImm .b64 sI, .sorImm .b64 sI,
      .sxorImm .b64 sI, .sshl .b64 s2, .sshr .b64 s2, .ssar .b8 s2, .srot .b16 s2, .sshlImm .b64 sI, .sshrImm .b64 sI,
      .ssarImm .b64 sI, .srotImm .b64 sI] : List Instr).all (meets ·) = true := by decide +kernel
theorem meets_ScalarBits :
    ([.spopc .b64 s1, .sclz .b32 s1, .sbfe .i s3, .sbfi s3, .sbfeImm .n sI, .sbfiImm sI, .slit 3 true ⟨.none, .s 9, u0, 0xE000⟩,
      .slit 0 false ⟨.none, .s 9, u0, 0xFFFF⟩] : List Instr).all (meets ·) = true := by decide +kernel
theorem meets_ScalarOthers :
    ([.nop .none, .yield .none, .srd .lane .none (.v 1), .srd .fflags .none (.v 1), .srd .mask .none (.s 0),
      .srd .team .none (.s 1), .scvt .f32i64 s1] : List Instr).all (meets ·) = true := by decide +kernel
theorem meets_VectorArithmetic :
    ([.vadd .i64 v2, .vsub .i32 v2, .vmul .i16 v2, .vmulh .n32 v2, .vmad .i64 v3, .vabs .i32 v1, .vneg .i64 v1, .vaddImm .i8 vI,
      .vmulImm .i32 vI, .vmin .i32 v2, .vmax .n64 v2, .vminImm .i32 vI, .vmaxImm .i32 vI, .vsel v3,
      .vcmp .ge .i32 31 v2] : List Instr).all (meets ·) = true := by decide +kernel
theorem meets_VectorLogicShiftsAndBits :
    ([.vand .b32 v2, .vor .b64 v2, .vxor .b8 v2, .vnot .b16 v1, .vshl .b32 v2, .vshr .b32 v2, .vsar .b32 v2, .vandImm .b32 vI,
      .vorImm .b32 vI, .vxorImm .b32 vI, .vshlImm .b32 vI, .vshrImm .b32 vI, .vsarImm .b32 vI] :
      List Instr).all (meets ·) = true := by decide +kernel
theorem meets_VectorLogicShiftsAndBits_bits :
    ([.vpopc .b32 v1, .vclz .b64 v1, .vbfe .i v3, .vbfi v3] : List Instr).all (meets ·) = true := by decide +kernel
theorem meets_FloatArithmetic :
    ([.fadd .rne v2, .fmul .fctl v2, .ffma .rz v3, .fmin false v2, .fmax true v2, .fcmp .uno .f32 31 v2] :
      List Instr).all (meets ·) = true := by decide +kernel
theorem meets_FloatFunctions :
    ([.frcp v1, .frsq v1, .fsqrt .rne v1, .fex2 v1, .flg2 v1, .fsin v1, .fcos v1, .fclass .f32 v1, .cvt .rne .i32 .f32 v1,
      .cvtNosat .rz .i32 .f32 v1] : List Instr).all (meets ·) = true := by decide +kernel
theorem meets_PackedArithmetic :
    ([.hadd2F16 .rne v2, .hmul2F16 .rne v2, .hfma2F16 .rne v3, .hadd2Bf16 .rne v2, .hmul2Bf16 .rne v2, .hfma2Bf16 .rne v3] :
      List Instr).all (meets ·) = true := by decide +kernel
theorem meets_TeamWideInstructions :
    ([.shfl .idx v2, .bcast ⟨.none, .v 2, .v 4 false, .s 3, u0, 0⟩, .bcast ⟨.none, .s 2, .v 4 false, .s 3, u0, 0⟩,
      .ballot 31 ⟨.none, .s 16, .v 4 false, u0, u0, 0⟩, .vote .any 63 31 ⟨.none, .s 8, .v 4 false, u0, u0, 0⟩,
      .tred .addI32 v1, .tred .addI32 ⟨.none, .s 2, .v 4 false, u0, u0, 0⟩, .tscan .addI32 v1] :
      List Instr).all (meets ·) = true := by decide +kernel

/-! ## Control -/

/-- Where a transfer's target may be entered. -/
def enters (target : State → Team → W64) : State → State → Team → Bool :=
  fun s1 s t => ((s1.setTeam t).checkTarget t (target s t)).2.isNone
def home : Prep := sreg 2 (BitVec.ofNat 64 placeBase)
def entry2 : REntry := ⟨0xFFFF_FFFF_FFFF, 0xFFFF_0000_0000, BitVec.ofNat 64 placeBase, BitVec.ofNat 64 placeBase⟩

theorem meets_ControlTransfers :
    (meetsAt (.br .none 0) none_ (enters fun _ t => t.header) && meetsAt (.call .none (.s 9) 0) none_ (enters fun _ t => t.header) &&
      ([.brx ⟨.none, .v 0, .s 2, u0, u0, 0⟩, .ret ⟨.none, .v 0, .s 2, u0, u0, 0⟩, .callx s1] : List Instr).all fun i =>
        meetsAt i home (enters fun s t => uni s t (.s 2))) = true := by decide +kernel
theorem meets_ExitOutcomes :
    (meets (.exit .none) none_ (fun _ t => t.r.stack.isEmpty && t.r.blocks == 0) (on := false) &&
      meets (.exit .none) (team fun t => { t with r := { t.r with stack := [entry2] } }) (fun _ t => match t.r.stack with
        | e :: _ => e.pmask &&& ~~~t.r.mask != 0
        | [] => false) (on := false) &&
      meets (.exit .none) (team fun t => { t with r := { t.r with stack := [{ entry2 with pmask := 0 }] } })
        (fun _ t => match t.r.stack with
          | e :: _ => e.pmask &&& ~~~t.r.mask == 0 && e.rmask &&& ~~~t.r.mask != 0 && t.r.blocks == 0
          | [] => false) (on := false)) = true := by decide +kernel

/-- The team popped by `Pops`, in at most `n` steps. -/
def popsTo (s : State) : Nat → Team → Team
  | 0, t => t
  | n + 1, t =>
    match t.r.stack, t.r.blocks with
    | e :: r, _ => if e.pmask = 0 ∧ e.rmask = 0 then popsTo s n { t with r := { t.r with stack := r } } else t
    | [], b + 1 => if (List.range 68).all (fun k => !s.poisoned (s.spillBase t b + 32 * k)) then popsTo s n { t with
          r := { t.r with
            stack := ((List.range 8).map fun j => s.readEntry (s.spillBase t b + 272 * j)).reverse
            blocks := b
            due := 0 }
          fills := t.fills + 1 } else t
    | [], 0 => t
theorem pops_popsTo (s : State) (n : Nat) (t : Team) : Pops s t (popsTo s n t) := by
  induction n generalizing t with
  | zero => exact .done t
  | succ n ih =>
    unfold popsTo
    split
    · next e r h =>
      split
      · next k => exact .pop t _ _ _ h k.1 k.2 (ih _)
      · exact .done t
    · next b h h' =>
      split
      · next k => exact .fill t _ b h h' (fun j hj => by simpa using List.all_eq_true.mp k j (List.mem_range.mpr hj)) (ih _)
      · exact .done t
    · exact .done t
/-- An entry of which no lane is left, and `r` below it, for `exit`. -/
def deadOver (r : List REntry) (blocks : Nat) : Prep := team fun t => { t with r := { t.r with
  stack := { entry2 with rmask := 0xFFFF_FFFF, pmask := 0 } :: r
  blocks := blocks } }
def popped (s : State) (t : Team) : Team :=
  let without (e : REntry) : REntry := { e with
    rmask := e.rmask &&& ~~~t.r.mask
    pmask := e.pmask &&& ~~~t.r.mask }
  let u := (s.team? t.id).getD t
  popsTo s 1 { u with r := { u.r with
    mask := t.r.mask
    stack := t.r.stack.map without } }
theorem meets_ExitOutcomes_pops :
    (meets (.exit .none) (deadOver [] 0) (fun s t => t.r.blocks == 0 && (popped s t).r.stack.isEmpty) (on := false) &&
      meets (.exit .none) (deadOver [entry2] 0) (fun s t => (popped s t).r.stack.head?.any (·.pmask != 0)) (on := false) &&
      meets (.exit .none) (deadOver [{ entry2 with rmask := 0xFF_0000_0000, pmask := 0 }] 0) (fun s t =>
        (popped s t).r.stack.head?.any fun e => e.pmask == 0 && e.rmask != 0) (on := false)) = true := by decide +kernel
/-- The fill meets poison; taking lanes out of the spill area leaves poison as it is (`State.clearSpilled_poisoned`). -/
theorem meets_ExitOutcomes_poison :
    meets (.exit .none) ((fun s => { s with poison := s.poison.set 0 (s.spillBase (placeTeam 0) 0 / 32) 1 }) ∘ deadOver [] 1)
      (fun s t => t.closed && (popped s t).r.stack.isEmpty && (popped s t).r.blocks == 1 && s.poisoned (s.spillBase (popped s t) 0))
      (on := false) = true := by decide +kernel

/-- The clause's header has RCV, and a clause starts behind it. -/
def twoClauses : Prep := fun s => (s.writePhys placeBase (leBytes 8 (2 ^ 41))).writePhys placeMap [0x05]
def brdOk (s : State) (t : Team) : Bool :=
  let tgt := t.header
  let a := s.checkTarget t tgt
  a.2.isNone && (a.1.joinOk t tgt).2.isNone
def brdPushed (s : State) (t : Team) : State × Option Nat :=
  let s := (((s.checkTarget t t.header).1.joinOk t t.header).1).tracePacket t t.r.pc
    ⟨2, 0, divFields t (maskOf (t.active (.vec 0 0 false)))⟩
  s.checkTarget t t.nextClause
theorem meets_DivergingBranch :
    (meetsAt (.brd (.vec 0 0 true) 0 0) twoClauses (fun s1 s t => brdOk s t && enters (fun _ t => t.header) s1 s t &&
        t.r.mask &&& ~~~maskOf (t.active (.vec 0 0 true)) == 0) &&
      meets (.brd (.vec 0 0 false) 0 0) twoClauses (fun s t => brdOk s t && t.r.mask != 0 && maskOf (t.active (.vec 0 0 false)) == 0) &&
      meetsAt (.brd (.vec 0 0 false) 0 0)
        (team (fun t => { t with r := t.r.setLane 0 3 1 }) ∘ twoClauses)
        (fun s1 s t => brdOk s t && enters (fun _ t => t.header) s1 s t && maskOf (t.active (.vec 0 0 false)) != 0 &&
          t.r.mask &&& ~~~maskOf (t.active (.vec 0 0 false)) != 0 && decide (t.r.depth < 256) && !t.r.spills &&
          (brdPushed s t).2.isNone && ((brdPushed s t).1.team? t.id).isSome)) = true := by
  decide +kernel

/-! ## Memory -/

def passesB (s : State) (t : Team) (k : AccKind) (cl : PClass) (bad : Nat → Bool) (r w : Bool) (q : List Req) : Bool :=
  (s.checkReqs t k cl bad q).2.isOk && ((s.checkReqs t k cl bad q).1.watchHit t r w (watched q)).isNone
theorem passes_of_passesB {s : State} {t : Team} {k : AccKind} {cl : PClass} {bad : Nat → Bool} {r w : Bool} {q : List Req}
    (h : passesB s t k cl bad r w q = true) : Passes s t k cl bad r w q := by
  simpa [passesB, Passes] using h
/-- A team with 4096 bytes of scratch. -/
def scratch : Prep := team fun t => { t with scrS := 4096 }
def okE {ε α : Type} : Except ε α → Bool
  | .ok _ => true
  | .error _ => false

def ldX : MArgs := ⟨.none, .v 2, .v 4 false, u0, 1, 0⟩
def stX : MArgs := ⟨.none, .v 0, .v 4 false, .v 6 false, 1, 0⟩
theorem meets_LoadsAndStores :
    (([.ld .b32 ldX, .ldAcq .b64 .dev ldX] : List Instr).all (meets · none_ fun s t =>
        passesB s t .load .plain nowhereBad true false (memReqs s t (accessLanes t ldX.g (some ldX.d)) ldX.a 4 4 1)) &&
      ([.st .b32 stX, .stRel .b32 .dev stX] : List Instr).all (meets · none_ fun s t =>
        passesB s t .store .plain nowhereBad false true (memReqs s t (t.active stX.g) stX.a 4 4 1)) &&
      meets (.lds .b32 ldX) scratch (fun s t => okE (scratchReqs t 1 ((accessLanes t ldX.g (some ldX.d)).map fun l =>
        (l, scratchOf s t ldX.a l + 4, 4)))) &&
      meets (.sts .b32 stX) scratch (fun s t => okE (scratchReqs t 1 ((t.active stX.g).map fun l =>
        (l, scratchOf s t stX.a l + 4, 4))))) = true := by decide +kernel

def at2 (d : Dest) (n : Nat) (x : RArgs) (s : State) (t : Team) : List Req := memReqs s t (accessLanes t x.g (some d)) x.a 0 n n
def redX : RArgs := ⟨.none, .v 0, .v 4 false, .v 6 false, u0, 0⟩
theorem meets_AtomicsAtIssue :
    (meets (.atom .add .dev .relaxed .i32 v2) none_ (fun s t =>
        passesB s t .store .plain (s.atomicBad t (hostOffers .add false .i32)) true true (at2 v2.d 4 v2 s t)) &&
      meets (.atomCas .dom .acqrel .i64 v2) none_ (fun s t =>
        passesB s t .store .plain (s.atomicBad t (hostOffers .xchg true .i64)) true true (at2 v2.d 8 v2 s t)) &&
      meets (.red .or .core .relaxed .n32 redX) none_ (fun s t =>
        passesB s t .store .plain (s.atomicBad t (hostOffers .or false .n32)) false true (memReqs s t (t.active .none) redX.a 0 4 4)) &&
      ([.atoms .add .core .relaxed .i32 v2, .atomsCas .core .relaxed .i32 v2] : List Instr).all (meets · scratch fun s t =>
        okE (scratchReqs t 4 ((accessLanes t v2.g (some v2.d)).map fun l => (l, scratchOf s t v2.a l + 0, 4)))) &&
      meets (.rdo ⟨.none, .v 0, .v 4 false, .v 6 false, .v 8 false, 0⟩) none_ (fun s t =>
        passesB s t .store .plain (s.rdoBad t) false true (rdoReqs s t ⟨.none, .v 0, .v 4 false, .v 6 false, .v 8 false, 0⟩))) =
      true := by decide +kernel

/-- Page 0 holds versioned data of region 3. -/
def region : VRegion := ⟨0, 0, 2 ^ 18, 0, 2 ^ 18, 0, [], [], [], 0, 0, [], []⟩
def versioned : Prep := fun s => (s.modCore 0 fun c => { c with
    tlb := [⟨0, 0, 2 ^ 18, 0, true, true, true, false, true, 0⟩] }).modPart 0 fun p => { p with regions := [(3, region)] }
/-- The clause of a test stands outside page 0. -/
def stvX : RArgs := ⟨.none, .v 0, .v 4 false, .v 6 false, .v 8 false, 0⟩
def vqX : RArgs := ⟨.none, .v 2, .v 4 false, u0, u0, 0⟩
def vfX : RArgs := ⟨.none, .v 0, .s 4, .s 6, u0, 0⟩
theorem meets_VersionInstructions :
    (([.ldv .b32 .dev true v2, .ldvLatest .b32 .dev false v2] : List Instr).all (meets · versioned (fun s t =>
        passesB s t .load .versioned (s.verBad t false) true false (at2 v2.d 4 v2 s t))) &&
      ([.stv .b32 stvX, .stvRel .b32 .dev stvX] : List Instr).all (meets · versioned (fun s t =>
        passesB s t .store .versioned (s.verBad t true) false true (memReqs s t (t.active .none) stvX.a 0 4 4))) &&
      meets (.vqry vqX) versioned (fun s t =>
        passesB s t .load .versioned (s.verBad t true) true false (memReqs s t (accessLanes t .none (some vqX.d)) vqX.a 0 1 1)) &&
      meets (.vflr vfX) versioned (fun s t =>
        passesB s t .store .versioned (s.verBad t false) false true (memReqs s t [noLaneN] vfX.a 0 1 1))) = true := by decide +kernel

def leX : RArgs := ⟨.none, .v 0, .s 2, .s 3, .s 4, 0⟩
def leaseHere : Prep := fun s => (s.setPr 0 0x2002 0x10_0000).modPart 0 fun p => { p with leases := [⟨0x8_0000, 4096, 10⟩] }
def leaseOk (s : State) (t : Team) (x : RArgs) : Bool :=
  let va := va56 (addrOf s t x.a 0)
  let len := (uni s t x.b).toNat
  let q := s.checkRange t.core t.part t.level .load .plain va len
  va % 4096 == 0 && len % 4096 == 0 && len != 0 && decide (1 ≤ (uni s t x.c).toNat) && decide ((uni s t x.c).toNat ≤ 1000000) &&
    match q.2 with
    | .error _ => false
    | .ok ps => !(q.1.turned t.part && (linesOf ps).any fun k => q.1.outside (64 * k)) &&
      (linesOf ps).all (fun k => !q.1.isHost (64 * k) && !q.1.noSlice (64 * k)) &&
      decide (len + (((q.1.part t.part).leases).map (·.len)).sum ≤ q.1.preg t.part 2) &&
      decide ((q.1.part t.part).leases.length < 64) &&
      ((q.1.part t.part).leases.all fun l => (overlapAt l.base.toNat l.len va len).isNone) && q.1.pinFits ps
theorem meets_lease : meets (.lease leX) (leaseHere ∘ sreg 3 4096 ∘ sreg 4 1) (fun s t => leaseOk s t leX) = true := by
  decide +kernel
def cctlOk (x : RArgs) (s : State) (t : Team) : Bool :=
  let q := s.xlate t.core t.part (rangePieces (va56 (addrOf s t x.a 0)) (uni s t x.b).toNat)
  decide (1 ≤ (uni s t x.b).toNat) && decide ((uni s t x.b).toNat ≤ 2 ^ 32) && match q.2 with
    | .error _ => false
    | .ok ps => ps.all fun e => e.2.2.permits t.level .load
def ccX : RArgs := ⟨.none, .v 0, .s 2, .s 3, u0, 0⟩
def acpX : RArgs := ⟨.none, .v 0, .v 4 false, .v 6 false, .v 8 false, 0⟩
def rsX : RArgs := ⟨.none, .v 0, .s 2, .s 3, u0, 0⟩
theorem meets_CopiesLeasesAndCaches :
    (meets (.acp 7 acpX) scratch (fun s t => passesB s t .engRead .plain nowhereBad true false (acpReqs s t acpX (t.active .none))) &&
      meets (.acpw 7 .none) none_ (fun _ t => t.tag 7 == 0) &&
      ([.pref .near ⟨.none, .v 0, .v 4 false, u0, 1, 0⟩] : List Instr).all (meets ·) &&
      ([.clean, .inv, .cinv] : List CC).all (fun op => meets (.cctl op ccX) (sreg 3 64) (cctlOk ccX)) &&
      ([.acq, .rel, .acqrel] : List FN).all (fun fn => meets (.fence ⟨fn, 0⟩ .dev .none) none_ (fenceReady fn .dev)) &&
      meets (.rdoset rsX) none_ (fun s t =>
        passesB s t .store .plain (s.rdoBad t) false true (rdosetReqs s t rsX) &&
          (let q := passed s t .store .plain (s.rdoBad t) (rdosetReqs s t rsX)
           let v := q.1.moveLines (q.1.linesAt (q.2.flatMap (·.pas)))
           (v.firstGap q.2).isNone && (v.setLines t (q.2.map fun a => (a, lane32 v t rsX.b a.lane))).2.isNone))) = true := by
  decide +kernel

/-! ## Matrix, engines, rings, records -/

def node0 (f : Node → Node) : Prep := fun s => s.modGraph 0 0 fun g => { g with nodes := [(0, f placeNode)] }
/-- 64-bit words in memory at `a`. -/
def words (a : Nat) (l : List W64) : Prep := fun s => s.writePhys a (l.flatMap fun w => leBytes 8 w.toNat)
def arr0 : Matrix := ⟨[], [], 0, none, [0xFF], []⟩
def arrayed : Prep := team fun t => { t with mtx := some arr0, scrS := 65536 }
def fmtX : XArgs := ⟨.none, .v 0, .s 2, 0, 0, 0, false, 0⟩
def mulX : XArgs := ⟨.none, .s 3, .v 8 false, 0, 1, 0, false, 0⟩
def mloopX : XArgs := ⟨.none, .s 3, .v 8 false, 0, 1, 1, false, 0⟩
def ldmX : XArgs := ⟨.none, .v 0, .s 2, 0, 1, 0, false, 0⟩
def blockReadsB (s : State) (t : Team) (va n : Nat) : Bool :=
  let q := s.checkRange t.core t.part t.level .load .plain (va56 va) (8 * n)
  decide (va56 va % 64 = 0) && (q.1.watchHit t true false (watched [⟨noLaneN, va56 va, 8 * n, none⟩])).isNone &&
    match q.2 with
    | .ok l => (t.lost != some t.icount || ((physOf l).findIdx? q.1.isPeer).isNone) && q.1.blockOpen t (physOf l) &&
        ((physOf l).findIdx? q.1.poisoned).isNone
    | .error _ => false
theorem blockReads_of {s : State} {t : Team} {va n : Nat} (h : blockReadsB s t va n = true) : BlockReads s t va n := by
  simp only [blockReadsB] at h
  unfold BlockReads
  generalize s.checkRange t.core t.part t.level .load .plain (va56 va) (8 * n) = q at h ⊢
  obtain ⟨s, _ | l⟩ := q
  · simp at h
  · simp only [Bool.and_eq_true, Bool.or_eq_true, decide_eq_true_eq, Option.isNone_iff_eq_none] at h
    exact ⟨h.1.1, h.1.2, fun e => h.2.1.1.resolve_left (by simp [e]), h.2.1.2, h.2.2⟩
def mulMeets (i : Instr) (x : XArgs) (n : Nat) : Bool :=
  meets i arrayed (fun _ t => t.mtx.any fun m => (mulFault t m x n).isNone) (mulRun n x)
def bankFits (e : Nat) (s : State) (t : Team) : Bool :=
  let v := uni s t (.s 2)
  let rs := bitsOf v 47 32
  let stride := if rs = 0 then 64 * e else rs
  t.mtx.isSome && bitsOf v 63 48 == 0 && bitsOf v 31 0 % 16 == 0 && stride % 16 == 0 && decide (64 * e ≤ stride) &&
    decide (bitsOf v 31 0 + 63 * stride + 64 * e ≤ t.scrS)
theorem meets_MatrixInstructions :
    (meets (.mfmt fmtX) (arrayed ∘ words 0x8_0000 [0xFF] ∘ sreg 2 0x8_0000) (fun s t => t.mtx.isSome &&
        blockReadsB s t 0x8_0000 8 && fmtOk (blockOf s t 0x8_0000 8).2) &&
      meets (.mfmt { fmtX with a := .none, bnd := 0 }) (arrayed ∘ words 0x8_0000 [0xFF] ∘ node0 fun n => { n with btab := [0x8_0000] })
        (fun s t => t.binding s 0 0 == some 0x8_0000 && blockReadsB s t 0x8_0000 8)) = true := by decide +kernel
theorem meets_MatrixMultiplies :
    (mulMeets (.mma true mulX) mulX 1 && mulMeets (.mloop false mloopX) mloopX 2) = true := by decide +kernel
theorem meets_MatrixBanks :
    (meets (.mzero { ldmX with a := .none }) arrayed (fun _ t => t.mtx.isSome) && meets (.mld ldmX) arrayed (bankFits 4) &&
      meets (.mst .f16 ldmX) arrayed (bankFits 2) &&
      meets (.mwait .none) arrayed (fun _ t => t.mtx.any fun m => m.queue.isEmpty)) = true := by decide +kernel

def eng0 : Engine := ⟨0, .idle, [], 0, 0, none, 0, 0, []⟩
/-- A layout record: one tile of 128 bytes, rows of 128. -/
def layout : List W64 := [0x9_0000, 0x1_0000_0000, 0, 0, 0, 0, 0, 0, 0, 0, 0, 0, 0, 0x80, 0x80, 0]
/-- The same with its shape from entry 1 of the shape table. -/
def shaped1 : List W64 := (layout.set 15 0x0100_0000_0000_0040).set 13 0 |>.set 0 0
def streams (lay : List W64) : Prep := (team fun t => { t with engines := [eng0], scrS := 65536 }) ∘ words 0x8_0000 lay ∘
  node0 fun n => { n with btab := [0x8000_0000_0008_0000] }
def shapeTable : Prep := words 0xA_0040 [0x7F00_0000, 128] ∘ fun s => s.modGraph 0 0 fun g => { g with obj := [0, 0, 0, 0, 0, 0xA_0000] }
def sgX : XArgs := ⟨.none, .v 0, .s 2, 0, 0, 0, false, 0⟩
def bound0 (s : State) (t : Team) : Bool :=
  t.binding s 0 1 == some 0x8_0000 && (t.engine 0).any (fun e => e.st != .faulted) && blockReadsB s t 0x8_0000 16
theorem meets_sgo : meets (.sgo sgX) (streams layout) (fun s t =>
    let w := (blockOf s t 0x8_0000 16).2
    bound0 s t && !(Lay.hnd w != 0 && Lay.rlen w == 0) && layoutOk t 0 w (s.shapesOf t != 0)) = true := by decide +kernel
theorem meets_sgo_shape : meets (.sgo sgX) (shapeTable ∘ streams shaped1) (fun s t =>
    let w := (blockOf s t 0x8_0000 16).2
    let s' := (blockOf s t 0x8_0000 16).1
    let sh := s.shapesOf t + 64 * bitsOf (Lay.hnd w) 63 56
    bound0 s t && Lay.hnd w != 0 && Lay.rlen w == 0 && s.shapesOf t != 0 && Lay.zeroOk w && blockReadsB s' t sh 8 &&
      layoutOk t 0 (withRow w (shapeRow (blockOf s' t sh 8).2)) true) = true := by decide +kernel
/-- A copy of one row of 64 bytes. -/
def block1 : List W64 := [0x9_0000, 0x9_1000, 0x40, 0, 0, 0, 0, 0]
theorem meets_EngineInstructions :
    (([.sstop { sgX with a := .none }, .sqry { sgX with a := .none, d := .s 4 }] : List Instr).all
        (meets · (streams layout) fun _ t => (t.engine 0).isSome) &&
      meets (.qfence ⟨.none, .v 0, .s 2, u0, u0, 0⟩) (streams layout ∘ sreg 2 2) (fun s t =>
        let m := lo32 (uni s t (.s 2))
        decide (m.toNat < 2 ^ 17) && (List.range 4).all (fun k => !m.getLsbD (1 + k) || (t.engine k).any (·.st != .faulted)) &&
          s.drained t m) &&
      meets (.bcp ⟨.none, .v 0, .s 2, .s 3, u0, 0⟩) (words 0x8_0000 block1 ∘ sreg 2 0x8_0000) (fun s t =>
        let c := blockOf s t 0x8_0000 8
        decide ((uni s t (.s 3)).toNat ≤ 3) && blockReadsB s t 0x8_0000 8 && blockOk c.1 t c.2 && (c.1.copyBad t c.2).2.isNone)) =
      true := by decide +kernel

def ring3 : Ring := ⟨3, 0, false, 2, 1, 0, false, 0, 1, 0⟩
def ringed (r : Ring) : Prep := team fun t => { t with rings := [r], scrS := 4096 }
def here (drain : Bool) (t : Team) : Bool := (t.ring? 3).any fun r => !r.err && r.drain == drain && decide (1 ≤ r.avail)
def qX : RArgs := ⟨.none, .s 1, u0, u0, u0, 0⟩
def q0 : RArgs := { qX with d := .v 0 }
theorem meets_Rings :
    (meets (.qpop 3 qX) (ringed ring3) (fun _ t => here false t) &&
      meets (.qpush 3 qX) (ringed { ring3 with drain := true }) (fun _ t => here true t) &&
      meets (.qtry 3 qX) (ringed ring3) (fun _ t => here false t) &&
      meets (.qtry 3 qX) (ringed { ring3 with tail := 0 }) (fun _ t => (t.ring? 3).any fun r => !r.err && r.avail == 0) &&
      meets (.qstat 3 qX) (ringed ring3) (fun _ t => (t.ring? 3).any fun r => !r.err) &&
      meets (.qrel 3 q0) (ringed { ring3 with hold := 1 }) (fun _ t => (t.ring? 3).any (fun r => !r.err && r.hold != 0) &&
        t.scratchQuiet)) = true := by decide +kernel
def arX : RArgs := ⟨.none, .v 0, .s 2, .s 3, u0, 0⟩
def aaX : RArgs := ⟨.none, .v 0, .v 4 false, .k 1, u0, 0⟩
def wordB (s : State) (t : Team) : Bool :=
  (arriveCheck t noLaneN (scratchOf s t (.s 2) 0) 0).isNone && t.wordQuiet (scratchOf s t (.s 2) 0) && (t.arrive? (scratchOf s t (.s 2) 0)).top == 0
theorem meets_ArrivalWords :
    (meets (.aset arX) scratch (fun s t => (arriveCheck t noLaneN (scratchOf s t (.s 2) 0) (uni s t (.s 3)).toNat).isNone &&
        t.wordQuiet (scratchOf s t (.s 2) 0)) &&
      meets (.aadd aaX) scratch (fun s t =>
        let ls := (t.active .none).map fun l => (l, scratchOf s t (.v 4 false) l, (opnd s t (.int true) (.k 1) l).toNat)
        (ls.all fun l => (arriveCheck t l.1 l.2.1 l.2.2).isNone) && t.coreReleased && okE (addLanes t ls)) &&
      meets (.await arX) (scratch ∘ sreg 3 0x7FFF_FFFF_FFFF_FFFF) (fun s t => wordB s t &&
        decide (((t.arrive? (scratchOf s t (.s 2) 0)).gen + 2 ^ 16 - (uni s t (.s 3)).toNat % 2 ^ 16) % 2 ^ 16 < 2 ^ 15)) &&
      meets (.aqry ⟨.none, .s 8, .s 2, u0, u0, 0⟩) scratch wordB) = true := by decide +kernel

/-- Edge 0 leads to node 1, four records a lane; the node is per team where `p` holds. -/
def edged (p : Bool) : Prep := node0 fun n => { n with desc := [0, if p then 0x800 else 0, 0, 0, 0, 0, 0x8004_0001] }
def canB (q : EmitReq) (team : Bool) (ls : List Nat) (s : State) (t : Team) : Bool :=
  match t.node? s, s.graph? t.part t.gslot with
  | some n, some g => (!team || n.perTeam) && match emitAll s t n g q (!n.perTeam && !team) ls t.used with
    | .ok (xs, _) => !xs.isEmpty
    | .error _ => false
  | _, _ => false
def emX : RArgs := ⟨.none, .v 0, .v 4 false, .s 3, .v 6 false, 0⟩
def emT : RArgs := ⟨.none, .v 0, .s 4, .s 3, .s 6, 0⟩
theorem meets_emit : meets (.emit 0 emX) (edged false ∘ sreg 3 2) (fun s t =>
    decide (4 + (lo32 (uni s t (.s 3))).toNat ≤ 64) && canB ⟨0, 2, none, fun l => (lane32 s t (.v 6 false) l).toNat,
      fun l i => t.r.lane (4 + i) l⟩ false (t.active .none) s t) (payloadRun emX) = true := by decide +kernel
theorem meets_emitx : meets (.emitx 2 0 { emX with b := u0 }) (edged false) (fun s t =>
    canB ⟨0, 2, some fun l => opnd s t (.int true) (.v 6 false) l, fun _ => 0, fun l i => t.r.lane (4 + i) l⟩ false
      (t.active .none) s t) (fun _ _ => some 2) = true := by decide +kernel
theorem meets_RecordInstructions :
    (meets (.emitTeam 0 emT) (edged true ∘ sreg 3 2) (fun s t => canB ⟨0, 2, none, fun _ => (lo32 (uni s t (.s 6))).toNat,
        fun _ i => lo32 (t.r.sget (4 + i))⟩ true [noLaneN] s t) (payloadRun emT) &&
      meets (.emitxTeam 2 0 { emT with b := u0 }) (edged true) (fun s t => canB ⟨0, 2, some fun _ => uni s t (.s 6), fun _ => 0,
        fun _ i => lo32 (t.r.sget (4 + i))⟩ true [noLaneN] s t) (fun _ _ => some 2) &&
      meets (.rrd s1) (edged true) (fun s t => t.perTeamNode s && decide ((lane32 s t (.s 2) 0).toNat ≤ 15)) &&
      meets (.rrd v1) (edged false) (fun s t => (t.active .none).all fun l => decide ((lane32 s t (.v 4 false) l).toNat ≤ 15)) &&
      meets (.rlen qX) (edged true) (fun s t => t.perTeamNode s) && meets (.rlen { qX with d := .v 1 }) (edged false)) = true := by
  decide +kernel

/-! ## Words, steps, frames -/

def reads (w : W64) (i : Instr) : Bool :=
  match decodeWord w with
  | .ok j => j == i
  | .error _ => false
theorem meets_DecodeOfEncode : ((Instr.sadd .i32 s2).wf && (encode (.sadd .i32 s2)).isSome && reads 0 (.nop .none)) = true := by
  decide +kernel
def ended_ (o : Host.Outcome State Fault Refusal) (P : State → Bool) : Bool :=
  match o with
  | .next s => P s
  | _ => false
theorem meets_StepRunsDecoded :
    (base.agenda.isEmpty && !base.stalled && base.cur.any fun t => t.r.cl.any fun c =>
      reads (c.words.getD (c.at t.r.pc) 0) (.nop .none)) = true := by decide +kernel
theorem meets_StepRunsEvent : (Instr.agingTick).isEvent = true := by decide
theorem meets_MemoryStaysCanonical : (Memory.wf base.mem && ended_ (step base) fun _ => true) = true := by decide +kernel
def off25 : Instr := .sadd .i32 { s2 with g := .scal 25 0 false }
theorem meets_IssueOrGuardedOff_off :
    ((placed off25 none_).cur.any fun t0 => off25.enc.any fun e => ((encode off25).any fun w => reads w off25) &&
      match (placed off25 none_).gate t0 off25 e noRun with
      | .off s1 t => ((s1.setTeam t).fallsInto t).2.isNone
      | _ => false) = true := by decide +kernel
theorem meets_IssueBeginsAndEnds : (base.cur.any fun t => !t.isLast && (base.team? t.id).any fun u => u.id == t.id) = true := by
  decide +kernel
theorem meets_RegisterInstructionFrame :
    meetsAt (.sadd .i32 s2) none_ (fun _ _ t => !t.isLast &&
      ended_ (exec (.sadd .i32 s2) (placed (.sadd .i32 s2) none_)) fun s' => (s'.team? t.id).any fun u => u.hnd == t.hnd &&
        u.stat == t.stat && u.trap.isNone) = true := by decide +kernel
theorem meets_MemoryUntouchedAtIssue : ended_ (exec (.st .b32 stX) (placed (.st .b32 stX) none_)) (fun _ => true) = true := by
  decide +kernel

/-! ## Faults, traps, system instructions -/

def mr (k : Nat) (v : W64) : Prep := fun s => s.setMr k v
def mg (f : Mgmt → Mgmt) : Prep := fun s => { s with mgmt := f s.mgmt }
/-- A UALink port is ready. -/
def linked : Prep := mg fun m => { m with ready := m.ready ||| 2 ^ 24 }
/-- Die 0 is ready. -/
def dieUp : Prep := mg fun m => { m with ready := m.ready ||| 2 ^ 4 }
/-- The handler of level 2 is the clause of the test. -/
def handled : Prep := mr 0x180 (BitVec.ofNat 64 placeBase) ∘ mr 0x181 (BitVec.ofNat 64 placeBase) ∘ mr 0x182 0x1000 ∘
  mr 0x183 (BitVec.ofNat 64 placeMap)
theorem meets_FaultTaken :
    (let s := handled base
     let v := BitVec.ofNat 64 placeBase
     let g : Region3 := ⟨s.mr 0x181, s.mr 0x182, s.mr 0x183⟩
     let fits (f : Team → Team) : Bool := (team f s).cur.any fun t => !t.hnd && t.pend.isEmpty && t.arrayQuiet &&
       (!t.r.stack.isEmpty || t.r.blocks == 0 || t.r.due == t.r.blocks) && (t.r.stack.head?.all fun e => e.rc != v) &&
       t.level == 2 && s.mr 0x180 == v && v.extractLsb' 0 3 == 0#3 && v.extractLsb' 56 8 == 0#8 &&
       decide (g.base.toNat ≤ v.toNat) && decide (v.toNat < g.base.toNat + g.len.toNat) && ((team f s).mapBit t g v).2 == some true
     fits id && fits (fun t => { t with r := { t.r with
       stack := [{ entry2 with rc := v + 8 }]
       blocks := 1 } }) && fits fun t => { t with r := { t.r with
         blocks := 1
         due := 1 } }) = true := by decide +kernel
theorem meets_FaultInHandler : ((team (fun t => { t with hnd := true }) base).cur.any fun t => t.hnd && t.pend.isEmpty &&
    t.arrayQuiet) = true := by decide +kernel
/-- In the handler, for a fault of the first instruction of a clause. -/
def inHandler : Prep := team fun t => { t with
  hnd := true
  fault := some ⟨0x7F, 0, noLane, BitVec.ofNat 64 (placeBase + 8), some ⟨BitVec.ofNat 64 placeBase, 0, [0, 0], [], 0⟩, false, none⟩ }
theorem meets_TrapsAndReturns :
    (meetsAt (.trap 7 .none) none_ (fun _ _ _ => true) &&
      meetsAt (.bkpt 7 .none) none_ (fun s1 _ t => !t.cmpIgnore.contains 100 && !((s1.setTeam t).pr t.part 0x110).getLsbD 1) &&
      meetsAt (.bkpt 7 .none) (fun s => s.setPr 0 0x110 2) (fun s1 _ t => !t.cmpIgnore.contains 100 &&
        ((s1.setTeam t).pr t.part 0x110).getLsbD 1) &&
      ([.tretFix .none, .tretSkip .none, .tretRetry .none, .tretKill .none] : List Instr).all fun i =>
        meetsAt i none_ (fun _ _ t => !t.hnd) && meetsAt i inHandler (fun _ s t => t.hnd && (s.team? t.id).isSome &&
          t.fault.any fun f => f.cl.any fun c => c.words != [] && decide (c.at f.pc + 1 < c.words.length))) = true := by
  decide +kernel
def sysX : RArgs := ⟨.none, .v 0, .s 2, .s 3, u0, 0⟩
def sysA : RArgs := { sysX with b := u0 }
def units (w : List W64) : Prep := words 0x8_0000 w ∘ sreg 2 0x8_0000
def unitB (op : OpKind) (s : State) (t : Team) : Bool :=
  blockReadsB s t (uni s t (.s 2)).toNat 8 && unitOk op (blockOf s t (uni s t (.s 2)).toNat 8).2
def ringErr : Prep := (fun s => s.modPart 0 fun p => { p with rings := [(2, ⟨0x8_0000, 0, 0, 0, true, []⟩)] }) ∘ sreg 2 0x8_0000
theorem meets_SystemOperations :
    (meets (.tmark sysA) && meets (.ckpt { qX with d := .s 4 }) &&
      meets (.ringrst sysX) ringErr (fun s t => (s.ringAt t.part (uni s t (.s 2))).any fun (_, g) => g.err &&
        !(decide (BitVec.ofNat 32 ((s.readVirt t.part ((uni s t (.s 2)).toNat + 16) 4).getD 0) - g.rdidx <
          lo32 (uni s t (.s 3)) - g.rdidx))) &&
      meets (.presize sysA) (units []) (unitB .resize) && meets (.plend sysA) (units [0x100]) (unitB .lend) &&
      meets (.prevoke sysA) (units [0x100]) (unitB .revoke) &&
      meets (.pgret sysX) none_ (fun s t => (shootOf (uni s t (.s 3))).any fun k => (uni s t (.s 2)).toNat % k.size == 0 &&
        decide ((uni s t (.s 2)).toNat < 2 ^ 56))) = true := by decide +kernel

/-! ## Clauses, teams -/

def atHeader : Prep := team fun t => { t with r := { t.r with
  cl := none
  pc := BitVec.ofNat 64 placeBase } }
theorem meets_ClauseStarts :
    (let s := atHeader base
     s.cur.any fun t => s.runnable t && t.r.cl.isNone && match s.fetchClause t t.r.pc with
       | (s', _, .ok c) => (validate c.hdr c.words).isNone && !s'.portBusy t (vectorPort c.hdr) && firstReady s' t c &&
         (List.range 6).all fun n => !(Header.ofWord c.hdr).wmask.getLsbD n || decide (t.cnt n ≤ (Header.ofWord c.hdr).wthr)
       | _ => false) = true := by decide +kernel
theorem meets_TeamsEnd :
    (let f (g : Team → Team) (P : Team → Bool) : Bool := ((team g base).team? 0).any fun t => t.id == 0 && P t &&
       (team g base).wclean t
     f (fun t => { t with stat := .retiring }) (fun t => t.stat == .retiring && (t.endAllRuns false).finished) &&
     f (fun t => { t with stat := .killing 7 }) (fun t => t.stat == .killing 7 && t.pend.isEmpty && (t.endAllRuns true).finished) &&
     f (fun t => { t with trap := some ⟨7, 0, 0, 0, none, false, none⟩ }) (fun t => t.trap.isSome && t.deliverable && t.stat == .running) &&
     f (fun t => { t with wd := 2 ^ 40 }) (fun t => t.stat == .running && t.trap.isNone && decide (base.preg t.part 0 ≤ t.wd) && t.pend.isEmpty) &&
     f (fun t => { t with stopReq := some 7 }) (fun t => t.stat == .running && t.stopReq == some 7 && t.pend.isEmpty &&
       (team (fun t => { t with stopReq := some 7 }) base).atRest t)) = true := by decide +kernel

/-! ## Performing -/

/-- An instruction left to be performed, raising counter 1. -/
def pend0 (k : PKind) : Pending := ⟨0, 0, 0, some 1, 0, k, false, false, [], [], [], (placeTeam 0).r, false⟩

/-- Four bytes of lane 0 at 0x9_0000. -/
def bytes4 : List Nat := [0x9_0000, 0x9_0001, 0x9_0002, 0x9_0003]
def acc4 : Acc := ⟨0, 0x9_0000, bytes4, bytes4⟩
/-- Scratch bytes 0 to 3. -/
def accS : Acc := ⟨0, 0, [0, 1, 2, 3], []⟩
def dst2 : Dst := ⟨.v 2, 4, false⟩
def pending (k : PKind) : Prep := team fun t => { t with
  pend := [pend0 k]
  wc := [(1, 1)]
  scrS := 4096 }
/-- The event is about team 0 and its first pending instruction; `P` holds. -/
def evMeets (k : PKind) (f : Prep) (P : State → Team → Pending → Bool) : Bool :=
  (f (pending k base)).evPend.any fun (t, p) => p.kind == k && !p.performed && t.closedBefore p.num && t.acquiredBefore p.num &&
    P (f (pending k base)) t p
theorem meets_CountersRiseAndFall : (base.cur.any fun t => (base.team? t.id).any fun u => u.id == t.id) = true := by decide +kernel
theorem meets_CountersRiseAndFall_fall :
    (((team fun t => { t with pend := [pend0 .result, { pend0 .result with seq := 1, dsts := [.v 2] }] }) base).team? 0).any
      (fun t => (t.pendOf 0).any (fun p => p.ctr == some 1 && p.dsts.isEmpty && (t.pend.all fun q => q.seq != p.seq || q == p)) &&
        (t.pendOf 1).any fun p => p.ctr == some 1 && !p.dsts.isEmpty && (t.pend.all fun q => q.seq != p.seq || q == p)) = true := by
  decide +kernel
theorem meets_LoadsReturn :
    (([0, 1] : List Nat).all (fun part => evMeets (.load dst2 [acc4] (some .dev) []) (fun s => { s with ev := {
          idx := part
          addr := 0x9_0000 / 8 } }) (fun s t p => !t.readsBefore s p.num (acc4.pas.map s.norm) &&
        s.hostOpen acc4.pas && (s.loadFault t p [acc4]).isNone && t.id == s.ev.team &&
        acc4.pas.all fun a => s.space a != .regs && !s.loadPoison t a)) &&
      evMeets (.lds dst2 [accS]) none_ (fun _ t p => !t.scratchBefore p.num && accS.pas.all fun k => !t.scrBad k)) = true := by
  decide +kernel
def stored : WEntry := ⟨0, 0, true, 0, 0, [], 0x9_0000, [(0x9_0000, 7), (0x9_0001, 8)]⟩
def storing (e : WEntry) : Prep := fun s => s.modCore 0 fun c => { c with wbuf := [e] }
def leavesB (s : State) (t : Team) (seq : Nat) : Bool :=
  (entryAt (s.core t.core).wbuf t.id seq).any fun (b, e) => e.free b && (e.bytes.all fun x =>
    s.space x.1 == .here && s.norm x.1 == x.1) && decide (e.bytes.map (·.1)).Nodup
def heldB (s : State) (t : Team) (pas : List Nat) : Bool := State.writeHeld { s with back := 0 } t.part pas
theorem meets_StoresArePerformed :
    (([none, some .dev, some .core] : List (Option Scope)).all (fun rel =>
        evMeets (.store [(acc4, [7, 8])] rel true) (storing stored) (fun s t p => !s.ev.flag && leavesB s t p.seq &&
          !heldB s t [0x9_0000, 0x9_0001] && rel.all fun sc => s.releaseReady t p sc)) &&
      (let s := storing { stored with counted := false } base
       (s.team? s.ev.team).any fun t => t.pend.isEmpty && leavesB s t 0) &&
      ([(false, 0), (true, 2)] : List (Bool × Nat)).all (fun (flag, k) =>
        evMeets (.sts [(1, 7), (2, 8)]) (fun s => { s with ev := { flag := flag, idx := k } }) (fun s t p =>
          t.id == s.ev.team && p.seq == s.ev.seq && p.ctr == some 1 && !t.scratchBefore p.num && !heldB s t [] &&
            s.oldPend t.part t.id p.seq == 0)) &&
      ([(true, 0x9_0040 / 64), (false, 0x9_0000 / 64)] : List (Bool × Nat)).all fun (clean, l) =>
        evMeets (.cctl [l] clean true) (storing stored) (fun s t p => t.id == s.ev.team && p.ctr == some 1 && (!clean ||
          (s.core t.core).wbuf.all fun w => w.bytes.all fun x => !([l].contains (lineOf x.1))))) = true := by decide +kernel
theorem meets_AtomicsArePerformed :
    (([.core, .dev] : List Scope).all (fun sc => ([.relaxed, .acq, .rel, .acqrel] : List Order).all fun o =>
        evMeets (.atomic .add false .i32 sc o (some dst2) [(acc4, 1, 0)]) none_ fun s t p =>
          (o == .relaxed || o == .acq || s.releaseReady t p sc) &&
            !s.writeHeld t.part (if s.atHome sc acc4.pas then acc4.pas else []) &&
            !t.readsBefore s p.num (acc4.pas.map s.norm) && !s.atomWaits t sc acc4 && s.hostOpen (acc4.pas.map s.norm) &&
            (s.atomPoison t sc acc4).isNone) &&
      evMeets (.atoms .add false .i32 dst2 [(accS, 1, 0)]) none_ (fun s t p => !t.scratchBefore p.num && !s.writeHeld t.part [] &&
        (t.pend.all fun q => !decide (q.num < p.num) || q.performed) && accS.pas.all fun k => !t.scrBad k)) = true := by decide +kernel

/-- A reduction line at 0x9_0000 with a gap since time 0, owned by team `o`. -/
def lined (o : TeamId) : Prep := fun s =>
  { s.setRline ((s.lineSlice 0x9_0000).getD 0) (lineOf 0x9_0000) ⟨3, o, 0, 0x9_0000, [⟨0x9_0000, 1, 5, none⟩], false, 0⟩ with
    now := 10 ^ 9
    ev := { slice := (s.lineSlice 0x9_0000).getD 0, addr := lineOf 0x9_0000 } }
theorem meets_OrderedReductions :
    (evMeets (.rdo [(acc4, 1, 3)] true) (lined 0) (fun s t _ => !s.buffered t (acc4.pas.map s.norm) && s.ev.idx == 0 &&
        s.hostOpen acc4.pas && !s.addHeld acc4.pas &&
        ((s.moveLines (s.linesAt acc4.pas)).contribute (some (dieOfCore t.core)) false acc4 1 3).isSome) &&
      ([0, 9] : List TeamId).all fun o =>
        let s := lined o base
        (s.rline? s.ev.slice s.ev.addr).any fun l => l.gap && decide (l.since + 1000 * (s.pr l.p 0x140).toNat ≤ s.now) &&
          l.owner == o && (s.team? l.owner).all fun t => t.stat == .running && t.pend.isEmpty) = true := by decide +kernel

/-- Version 5 of region 3, whose base versions are 0 and whose granules have version 5 at 0x9_0000. -/
def vacc5 : VAcc := ⟨acc4, 3, 5⟩
def region3 : VRegion := ⟨0, 0, 2 ^ 18, 2 ^ 18, 2 ^ 18, 0, [], [], [⟨0x9_0000 / 64, 5, -1, 0, []⟩], 0, 0, [], []⟩
def withRegion : Prep := fun s => s.modPart 0 fun p => { p with regions := [(3, region3)] }
def atGran (s : State) (t : Team) : State := s.reachLines t.part ([vacc5].map (·.gran s)).eraseDups
def thereB (s : State) (t : Team) (p : Pending) : Bool :=
  let q := atGran (s.freePlaces t.id (· == p.seq)) t
  s.vReady t p [vacc5] && ([vacc5].all fun a => (q.vStop t p a).isNone) && [vacc5].all (q.vThere t.part)
/-- The core holds a copy of version 5. -/
def near5 : Prep := fun s => { s.modCore 0 fun c => { c with near := [⟨0, 0x9_0000 / 64, some (3, 5), List.replicate 64 1, 0⟩] } with
  ev := { src := .near } }
/-- A wait place of the team's load at its granule. -/
def parkedB (s : State) (l : List (Nat × TeamId × Nat)) : Bool :=
  s.parkedLoads (fun _ l => l.any fun a => ([vacc5].map s.vHome).contains (s.vHome a)) == l
theorem meets_VersionsArePerformed :
    (evMeets (.ldv dst2 [vacc5] none true none) withRegion (fun s t p => thereB s t p && s.vThere t.part vacc5) &&
      evMeets (.ldv dst2 [vacc5] none false (some 1)) withRegion (fun s t p => thereB s t p && parkedB s [(1, t.id, p.seq)]) &&
      ([none, some .dev] : List (Option Scope)).all (fun acq => evMeets (.ldv dst2 [vacc5] acq false none) withRegion fun s t p =>
        (acq.isNone || !s.ev.flag) && thereB s t p && (s.verCopy t s.ev.src vacc5).isNone && parkedB s []) &&
      evMeets (.ldv dst2 [vacc5] none false none) (near5 ∘ withRegion) (fun s t p => s.vReady t p [vacc5] &&
        (s.verCopy t s.ev.src vacc5).isSome && (s.vStop t p vacc5).isNone)) = true := by decide +kernel
theorem meets_VersionsArePerformed_others :
    (evMeets (.latest dst2 [{ vacc5 with version := 9 }] none) withRegion (fun s t p =>
        let q := atGran s t
        s.vReady t p [{ vacc5 with version := 9 }] &&
          ((q.region t.part 3).highest (vacc5.gran q) 9 (granMask (vacc5.bytes q))).any fun v =>
            (q.vLost t p { vacc5 with version := 9 } v).isNone && (vacc5.bytes q).all fun b => !q.poisoned b) &&
      evMeets (.vqry dst2 [vacc5]) withRegion (fun s t p => s.vReady t p [vacc5]) &&
      ([none, some .dev] : List (Option Scope)).all fun rel =>
        let w : List (VAcc × List Byte) := [({ vacc5 with version := 6 }, [1, 2, 3, 4])]
        evMeets (.stv w rel) withRegion fun s t p => (rel.all fun sc => s.releaseReady t p sc) && !s.turned t.part &&
          s.hostOpen (w.flatMap fun x => x.1.bytes s) && !s.writeHeld t.part [] &&
          okE ((s.reachLines t.part (w.map (·.1.gran s)).eraseDups).vStoreAll t.part (rel.isSome || t.relFence) w)) = true := by
  decide +kernel
theorem meets_FloorsArePerformed :
    (evMeets (.vflr acc4 3 0) withRegion (fun s t _ => (s.region t.part 3).told.isEmpty && s.hostOpen acc4.pas &&
        (s.regionHomes t.part (s.region t.part 3)).all fun sl => decide (0#32 ≤ (s.region t.part 3).floorAt sl)) &&
      (let s := withRegion (pending (.vflr acc4 3 4) base)
       let s : State := { s with ev := { idx := 3, val := 4, slice := (s.regionHomes 0 (s.region 0 3)).headD 0 } }
       s.floorAsked s.ev.part s.ev.idx 4 && !s.writeHeld s.ev.part [] &&
         (s.regionHomes 0 (s.region 0 3)).contains s.ev.slice)) = true := by decide +kernel

def copy2 (row : Nat) : Copy := ⟨0, 0, 0, 0, 0, [0x9_0000, 0x9_1000, 0x1_0000_0040, 64, 64, 0, 0, 0], row, 0, false, 0, [], none,
  false, none, 0, 2, []⟩
/-- A copy of a row outside the address space. -/
def copyBad_ : Copy := { copy2 0 with words := [0x80_0000_0000_0000, 0x9_1000, 0x40, 0, 0, 0, 0, 0] }
def copying (c : Copy) (ev : Event) : Prep := fun s => { s.setCopies 0 0 [c] with ev := ev }
/-- Its row on the way, `n` of its bytes read. -/
def flying (n : Nat) : Copy := { copy2 0 with fly := some ⟨.mem [acc4], .mem [{ acc4 with pas := [1, 2, 3, 4] }], 4,
  (List.range n).map fun i => (i, 7, false), [], false⟩ }
def hereB (s : State) (c : Copy) : Bool := s.headCopy 0 0 == some c && s.oldCopy c == 0 && s.back == 0
def atRowB (c : Copy) (P : State → Flight → Bool) : Bool :=
  let s := copying c {} base
  hereB s c && decide (c.row < BlockWords.rows c.words) && (s.team? c.team).any fun t => match s.rowOf t c with
    | (q, .ok f) => q.flightOpen f c.waits && P q f
    | _ => false
def acpLeft : List (Nat × Option Nat) := [(0, some 0x9_0000), (1, none)]
theorem meets_CopiesArePerformed :
    (([(false, 0), (true, 1)] : List (Bool × Nat)).all (fun (flag, k) =>
        evMeets (.acp 3 [acc4] acpLeft [] []) (fun s => { s with ev := { flag := flag, idx := k } }) fun s t p =>
          !t.tagBefore p.num 3 && s.hostOpen acc4.pas && !s.unobserved [] acc4.pas && s.oldPend t.part t.id p.seq == 0 &&
          s.back == 0 && !s.writeHeld t.part [] && acpLeft[s.ev.idx]?.any fun x => (acpLeft.take s.ev.idx).all (·.1 != x.1)) &&
      atRowB (copy2 0) (fun q f => !q.flightHeld 0 f) && atRowB (copy2 1) (fun q f => !q.flightHeld 0 f) &&
      atRowB (flying 1) (fun q f => !q.flightHeld 0 f && decide (f.put.length < f.got.length) && !copyOverlaps (copy2 0).words f) &&
      atRowB { flying 4 with words := [0x9_0000, 0x9_0004, 0x1_0000_0040, 64, 64, 0, 0, 0] } (fun _ f =>
        decide (f.put.length < f.got.length) && copyOverlaps [0x9_0000, 0x9_0004, 0x1_0000_0040, 64, 64, 0, 0, 0] f &&
        decide (f.len ≤ f.got.length)) &&
      decide ((copy2 0).row + 1 < BlockWords.rows (copy2 0).words) && decide ((copy2 1).row + 1 = BlockWords.rows (copy2 1).words) &&
      (let s := copying copyBad_ {} base
       hereB s copyBad_ && (s.runRows copyBad_ (BlockWords.rows copyBad_.words)).2.2.isSome) &&
      (let c := { copy2 0 with fly := some ⟨.mem [{ acc4 with pas := [2 ^ 50 + 2 ^ 40] }], .scr 0, 1, [], [], false⟩ }
       let s := linked (mr 0x32 0x0002_0000 (copying c { flag := true } base))
       hereB s c && c.fly.any fun f => (f.firstOn s.isPeer).isSome)) = true := by
  decide +kernel

def streaming (lay : List W64) : Prep := team fun t => { t with
  scrS := 65536
  engines := [{ eng0 with st := .running, runs := [⟨lay, BitVec.ofNat 64 (fld lay 0 55 0), 0, 0, 2, []⟩] }] }
/-- The tile at place `j` of engine 0 is no old one, and `P` holds of what it comes to. -/
def tileB (lay : List W64) (f : Prep) (j : Nat) (P : State → Tile → Bool) : Bool :=
  let s := f (streaming lay base)
  (s.working 0 0).any fun (u, e, _) => decide (j ≤ e.fly.length) && e.st != .stopping &&
    (s.tileAt u e j).1.oldTile u 0 j e == 0 && P (s.tileAt u e j).1 (s.tileAt u e j).2
def goesB (P : State → Flight → Bool) (s : State) : Tile → Bool
  | .goes f => P s f && !State.flightHeld { s with back := 0 } 0 f
  | _ => false
/-- Four tiles, the first in flight with its first byte read. -/
def layout4 : List W64 := layout.set 3 3
def inFlight : Prep := team fun t => { t with engines := t.engines.map fun e => { e with
  fly := [⟨.mem [acc4], .scr 0, 4, [(0, 7, false)], [], false⟩] } }
theorem meets_TilesArePerformed :
    (tileB layout none_ 0 (goesB fun _ f => (f.got.get? 0).isNone) && tileB layout4 inFlight 1 (goesB fun _ _ => true) &&
      tileB layout4 inFlight 0 (goesB fun _ f => (f.got.get? 0).isSome) &&
      tileB (layout.set 0 0x80_0000_0000_0000) none_ 0 (fun _ x => match x with
        | .fails .. => true
        | _ => false) &&
      tileB (layout.set 0 (BitVec.ofNat 64 (2 ^ 50 + 2 ^ 40))) (linked ∘ mr 0x32 0x0002_0000) 0 (goesB fun s f => f.put.isEmpty &&
        (f.firstOn s.isPeer).isSome)) = true := by decide +kernel

/-! ## Records and the Mill -/

/-- The state after `f`, seen by event `e`. -/
def seen (e : Event) (f : Prep) (P : State → Bool) : Bool := P { f base with ev := e }
def rec0 : List W32 := List.replicate 16 0
def queued (k : Node → Node) : Prep := node0 fun n => k { n with
  q := [⟨rec0, 0, 1, 0, none, none⟩]
  st := .ready
  level := 3 }
def modP (f : Partition → Partition) : Prep := fun s => s.modPart 0 f
theorem meets_RecordsTravel :
    (seen {} (modP fun p => { p with flying := [⟨0, 0, rec0, 1, .emit 0 0, none⟩] }) (fun s =>
        (s.part 0).flying[0]?.any fun f => !(s.part 0).frozen && !(s.part 0).flyWaits 0 f) &&
      seen {} (pending (.emit 0)) (fun s => s.evPend.any fun (_, q) => q.kind == .emit 0) &&
      seen {} (modP fun p => { p with held := [⟨.emitx 0 0 0, 0, 0, rec0, 0, .device, none⟩] }) (fun s =>
        (s.part 0).held[0]?.any fun a => a.late s) &&
      ([0, 1] : List Nat).all fun n => seen {} (modP fun p => { p with held := [⟨.device, 0, n, rec0, 0, .device, none⟩] })
        fun s => (s.part 0).held[0]?.any fun a => !a.late s && !(s.part 0).arrivalWaits 0 a && (s.outward a).isNone &&
          match s.fate 0 a.gslot a.node a.w with
          | .enters _ => n == 0
          | .never => n == 1
          | .waits => false) = true := by decide +kernel
theorem meets_MillDecides :
    ([3, 7] : List Nat).all (fun level =>
      seen {} (queued (fun n => { n with level := level }) ∘ dieUp ∘ fun s => s.setPr 0 0x200E 4) fun s =>
      (s.nextPart 0).any fun (p, left) =>
      let s0 := s.modDie 0 fun z => { z with
        roundPart := p
        roundLeft := left }
      (s0.nextQueue 0 p).any fun (g, n, y) =>
        let s' := if y.level = 7 then s0.modDie 0 fun z => { z with last7 := z.last7.put p (g, n) } else s0
        y.level == level && (s'.graph? p g).isSome && (s'.freeCtx p).isSome && !s'.serialBusy p && y.q.any fun r =>
          (s'.choosePlace (y.need p (y.taken.map (s'.recWords p))) (s'.candidates p (some (g, n)))
            (recAff (s'.recWords p r))).isSome) = true := by decide +kernel
/-- Graph 0 runs nothing, and has a watch. -/
def watched_ : Prep := (fun s => s.modGraph 0 0 fun g => { g with watch := [9] }) ∘ fun s => { s with teams := [] }
theorem meets_MillDecides_instance :
    (seen {} watched_ (fun s => (s.graph? 0 0).any fun g => g.active && !s.graphBusy 0 0 && !s.turned 0 &&
        decide ((s.part 0).reports.length + g.watch.length ≤ 64)) &&
      seen {} (queued id) (fun s => (s.graph? 0 0).any (·.active) && s.graphBusy 0 0) &&
      seen {} (queued id) (fun s => !(s.part 0).frozen && !(s.part 0).freezing && (s.graph? 0 0).any fun g =>
        (g.nodes.get? 0).isSome)) = true := by decide +kernel
theorem meets_AgingTick :
    seen {} (queued id ∘ fun s => { s with now := 10 ^ 9 }) (fun s => decide (s.nextTick 0 0 ≤ s.now) && !s.staggered 0 && ((s.part 0).graphs.get? 0).any fun g => (g.nodes.get? 0).any fun n =>
      n.st == .ready && n.home == s.ev.die) = true := by decide +kernel
def lease0 : Lease := ⟨0x8_0000, 4096, 0⟩
theorem meets_TimersRun :
    seen { addr := 0x8_0000 } (fun s => s.modPart 0 fun p => { p with leases := [lease0] }) (fun s =>
      decide (lease0.until_ ≤ s.now) && lease0.base.toNat == s.ev.addr) = true := by decide +kernel

/-! ## Arrays, checkpoints, partitions, units -/

def arrQueue (op : MOp) : Prep := team fun t => { t with
  scrS := 65536
  mtx := some { arr0 with queue := [⟨op, 0, false, 0, []⟩] } }
def arrHead (s : State) (P : Team → MEntry → Bool) : Bool :=
  (s.team? 0).any fun t => t.id == 0 && t.mtx.any (fun m => m.queue.head?.any (P t)) && t.stat != .saved &&
    (s.arr t.core t.slot).blocked.isNone
def mulOp : MOp := .mul true 0 1 0 [] (wideFmt 0)
where wideFmt (n : Nat) : List W64 := List.replicate 8 (BitVec.ofNat 64 n)
theorem meets_ArraysRun :
    (([.zero 0, .st .f32 0 0 256] : List MOp).all (fun op => seen {} (arrQueue op) fun s => arrHead s fun t e =>
        (!e.op.stores || !s.writeHeld t.part []) && !s.govOn (dieOfCore t.core) && !(s.arr t.core t.slot).gated) &&
      seen {} (mr 0x198 0x8000_0000_0000_0100 ∘ mr (govKey 0) 0x100 ∘ arrQueue (.zero 0)) (fun s => arrHead s fun t e =>
        !e.op.stores && s.govOn (dieOfCore t.core) && (s.govLimit (dieOfCore t.core)).isNone && !(s.arr t.core t.slot).gated) &&
      seen { flag := true } (arrQueue mulOp) (fun s => arrHead s fun t e => !(s.arr t.core t.slot).gated && s.oldEntry t == 0 &&
        s.back == 0 && e.op == mulOp) &&
      (match mulOp with
        | .mul _ _ _ boff _ w => !(kAddrs w boff 0).isEmpty
        | _ => false) &&
      seen {} (fun s => { s with now := 10 ^ 9 }) (fun s => !(s.arr 0 0).gated && !s.mgmt.filler && (s.mr 0x190).toNat != 0 &&
        ((s.arrTeam 0 0).all fun t => t.arrayQuiet) &&
        decide (max (max (s.arr 0 0).idleSince s.mgmt.fillEnd) (s.mr 0x1_0190).toNat + 1000 * (s.mr 0x190).toNat ≤ s.now)) &&
      seen {} (fun s => s.setArr 0 0 ⟨true, true, 0, none, 0⟩) (fun s => (s.arr 0 0).gated && (s.arr 0 0).waking) &&
      seen {} (fun s => s.modRpl 0 fun r => { r with stat := 0x3000_0000_0000_0000 }) fun s => (s.rpl 0).state == 3) = true := by
  decide +kernel
def snap1 : Snap := ⟨1, 5000000, true, [], [], [], [], [], [], [], [], [], none⟩
/-- Partitions 0 and 1 take turns. -/
def turns : Prep := fun s => (s.setPr 0 0x2006 1).setPr 1 0x2006 1
def late : Prep := (fun s => { s with now := 10 ^ 9 }) ∘ modP fun p => { p with
  onTurn := true
  turnEnd := 10000000
  committed := some snap1 }
def otherWork : Prep := fun s => s.modPart 1 fun p => { p with flying := [⟨0, 0, rec0, 1, .charged, none⟩] }
/-- What the epoch before the cut left to be let out. -/
def out1 : List (Nat × Egress) := [(0, .store 0x9_0000 7), (0, .record 0 1 0 0 .device rec0 none), (0, .report ⟨1, 0, 0, 0, 0, 0⟩)]
theorem meets_Checkpoints :
    (seen {} (modP fun p => { p with ckReq := true }) (fun s => (s.cutDue 0 s.ev.flag).isSome && !s.safeAsked 0) &&
      seen {} (modP fun p => { p with
          cuts := [snap1]
          egress := out1 }) (fun s => (s.part 0).cuts.head?.any fun c => s.turnOver 0 == none &&
        (c.teams.all fun (_, t) => s.teamSettled t) && s.emissionsSettled 0 c && s.buffersSettled 0 c.num && s.copiesSettled 0 &&
          s.hostReady 0 c.num && (s.slices.all fun x => x.2.waits.isEmpty) && decide ((s.part 0).reports.length + 3 ≤ 64) &&
          s.norm 0x9_0000 == 0x9_0000) &&
      ([1, 2] : List W64).all (fun tgt => seen {} ((modP fun p => { p with safeRun := some snap1 }) ∘ linked ∘
          (mg fun m => { m with held := true }) ∘ fun s => s.setPr 0 0x201A tgt) fun s =>
        !s.ev.flag && (s.part 0).safeRun.isSome && s.safeTarget 0 == tgt.toNat && s.mgmt.held && s.linkReady) &&
      seen {} ((modP fun p => { p with
          restoring := true
          frozen := true
          halves := [(1, snap1)] }) ∘ fun s => s.setPr 0 0x201E 0x1_0000_0001) (fun s => (s.part 0).restoring && (s.part 0).frozen &&
        (s.safeSnap 0).isSome)) = true := by decide +kernel
theorem meets_CheckpointsAndTurns :
    (seen {} turns (fun s => ((List.range 17).all fun q => !s.sameGroup 0 q || !(s.part q).onTurn) &&
        (s.turnOrder 0).head? == some 0 && decide (s.ev.part ≤ 16)) &&
      seen {} (otherWork ∘ late ∘ turns ∘ modP fun p => { p with turnStart := 100000 }) (fun s => s.turnOver 0 == some .late &&
        s.othersWork 0 && !(s.part 0).rolled) &&
      seen {} (otherWork ∘ (modP fun p => { p with turnEnd := 5000001 }) ∘ late ∘ turns) (fun s => s.turnOver 0 == some .commit &&
        s.othersWork 0) &&
      seen {} (otherWork ∘ (modP fun p => { p with turnEnd := 2 * 10 ^ 9 }) ∘ late ∘ turns) (fun s => s.turnOver 0 == some .idle &&
        s.othersWork 0)) = true := by decide +kernel
def op0 : UnitOp := ⟨.lend, 0, 1, [], some (0, 0x8_0000), 0, 0, 0, []⟩
def oping (o : UnitOp) : Prep := fun s => { s with ops := [(2, o)] }
/-- The team stands at a save point with register granule 2 mapped. -/
def granule2 : Prep := team fun t => { t with r := { t.r with v := [(2, .mapped 5)] } }
def onSlotB (s : State) (t : Team) : Bool := s.team? t.id == some t && t.stat == .running && t.pend.isEmpty
theorem meets_PartitionsStopAndMove :
    (seen {} (granule2 ∘ modP fun p => { p with freezing := true }) (fun s =>
        let s1 := s.toSavePoints 0
        (s.part 0).freezing && (s1.teams.all fun (_, x) => x.part != 0 || x.stat == .saved || s1.atRest x) &&
          (s1.teams.all fun (_, x) => s1.team? x.id == some x) && (s1.team? 0).any fun t => onSlotB s1 t &&
            s1.teams == [(t.id.toNat, t)] && (t.engines.all fun e => e.fly.isEmpty) && decide (t.r.v.map (·.1)).Nodup &&
            t.r.v.any (fun x => x.2 == .mapped 5) && t.r.v.all fun x => (List.range 128).all fun i =>
              let a := s.ctxBase t + 0x1_0000 + 128 * x.1 + i
              s.norm a == a) &&
      seen {} (modP fun p => { p with
        frozen := true
        resetReq := true }) (fun s => (s.part 0).frozen && (s.part 0).resetReq) &&
      ([false, true] : List Bool).all (fun busy => seen {} (oping { op0 with outCores := 1 } ∘
          (fun s => if busy then pending .result s else s)) fun s => (s.team? 0).any fun t => t.id == 0 && t.stat != .saved &&
        s.coreLeaves t &&
          let q := s.toSavePoint t
          let m := { q.2 with migr := true }
          if busy then !q.1.atRest m else q.1.atRest m && q.1.fenced m && (q.2.engines.all fun e => e.fly.isEmpty) && q.2.pend.isEmpty) &&
      seen {} (dieUp ∘ team fun t => { t with stat := .saved }) (fun s => (s.team? 0).any fun t => t.id == 0 && s.mayRestore t &&
        t.was == .running && !t.pcSet && t.r.cl.isSome && (s.ruleTwo (t.need s) (s.candidates t.part none)).isSome) &&
      seen {} none_ (fun s => (s.part 0).redirect.isEmpty) &&
      seen {} (modP fun p => { p with redirect := [(7, 0, 1)] }) (fun s => (s.part 0).redirect == [(7, 0, 1)] &&
        (s.team? 7).isNone) &&
      seen {} (modP fun p => { p with redirect := [(0, 0, 1)] }) (fun s => (s.part 0).redirect.any (·.1 == 0) &&
        (s.team? 0).isSome)) = true := by decide +kernel
theorem meets_UnitsMove :
    (let ends (o : UnitOp) : Bool := seen { idx := 2 } (oping o) fun s => (s.ops.get? 2).any fun o =>
       !s.windowed o.p && !s.windowed o.src && (o.kind == .lend || (bitList 48 o.outCores).all fun c => (s.residents c).isEmpty &&
         (s.core c).wbuf.isEmpty) && (bitList 96 o.outSlices).all fun l => !s.windowedOn o.p (dieOfSlice l) &&
         !s.windowedOn o.src (dieOfSlice l)
     ends { op0 with outSlices := 1 } && ends { op0 with kind := .revoke, outCores := 2, outSlices := 1 } &&
       ends { op0 with kind := .resize, outCores := 2, outSlices := 1 } &&
       ends { op0 with kind := .fail, outCores := 2, outSlices := 1 } &&
       seen { idx := 2 } (fun s => { s with wins := [(2, ⟨0, 0, [[0]], []⟩)] }) (fun s => (s.wins.get? 2).any fun w => (s.leftIn w).isEmpty) &&
       seen { flag := true } (mg fun m => { m with syswait := some (.pgret [(0, 5)]) }) (fun s => s.gone [(0, 5)]) &&
       seen {} (team fun t => { t with holdOn := some (.pgret [(0, 5)]) }) (fun s => s.gone [(0, 5)]) &&
       seen {} (team fun t => { t with holdOn := some (.rootDrop []) }) fun s => s.gone []) = true := by decide +kernel
/-- A line that stands at its old home, slice 0. -/
def sweeping : Prep := fun s =>
  { s.modSlice 0 fun x => { x with cached := [1] } with wins := [(2, ⟨0, 0, [[0]], []⟩)] }
def reduces (l : Nat) : Prep := fun s => s.setRline 0 l ⟨3, 0, 0, 0, [], false, 0⟩
def sweepB (ev : Event) (f : Prep) (P : State → Bool) : Bool :=
  seen { ev with idx := 2, addr := 1 } (f ∘ sweeping) fun s => (s.wins.get? 2).any fun w => (s.leftIn w).contains 1 &&
    s.oldHome 1 == some 0 && P s
theorem meets_DualHashSweep :
    (sweepB { flag := true } none_ (fun s => !s.hasState 0 1) && sweepB {} none_ (fun s => !s.hasState 0 1 && !s.revoked 0) &&
      sweepB { flag := true } (reduces 1) (fun s => s.hasState 0 1 && (s.rline? 0 1).isSome &&
        (s.homeSlice 64).any fun n => s.roomAt 0 n 1)) = true := by decide +kernel
/-- A host stage with one page, at entry 0x10_0000, in a group that a resize moves. -/
def staged : Prep := oping { op0 with kind := .resize, groups := [(0, 1)] } ∘ words 0x8_0000 [0xC_0001] ∘ words 0xC_0000 [0x10_0001] ∘
  words 0x10_0000 [0x14_0003] ∘ fun s => s.setPr 0 0x200B 0x8_0001
/-- A host stage whose first entry is a leaf of 8 GiB. -/
def huge : Prep := oping { op0 with kind := .resize, groups := [(0, 1)] } ∘ words 0x8_0000 [0xC_0001] ∘
  words 0xC_0000 [3] ∘ fun s => s.setPr 0 0x200B 0x8_0001
theorem meets_PageMigrate :
    (seen { idx := 2, addr := 0x10_0000 } staged (fun s => (s.ops.get? 2).any fun o =>
      ((s.hostLeaves o.p).find? (fun l => l.1 == s.ev.addr)).any fun l => l.2.2 == 2 ^ 18 &&
        (o.groups.find? (fun q => leafIn q.1 l)).isSome &&
          let f : Frame := ⟨pteAddr l.2.1, shiftGroup 0 1 (pteAddr l.2.1), 2 ^ 18⟩
          s.frameQuiet o.p f && s.frameRoom f) &&
      seen { idx := 2, addr := 0xC_0000 } huge (fun s => (s.ops.get? 2).any fun o =>
        ((s.hostLeaves o.p).find? (fun l => l.1 == s.ev.addr)).any fun l => l.2.2 == 2 ^ 33)) = true := by decide +kernel
/-! ## The module, the domain, the host -/

theorem meets_ModuleManagement :
    (seen { addr := 7 } (fun s => { s with retiring := [(7, [1])] }) (fun s => decide (32 * s.ev.addr < localTop) &&
        (s.retiring.get? s.ev.addr).isSome && decide (s.spares.get 0 (groupOf (7 * pageBytes)) < 31)) &&
      ([(false, false), (true, false), (false, true), (true, true)] : List (Bool × Bool)).all (fun (slice, gone) =>
        seen { flag := slice, core := 3, slice := 3 } (fun s => if gone then mg (fun m => { m with
            failedCores := 8
            failedSlices := 8 }) s else s) fun s => decide (s.ev.core < 48) && decide (s.ev.slice < 96) &&
          s.mgmt.failedCores.getLsbD s.ev.core == gone && s.mgmt.failedSlices.getLsbD s.ev.slice == gone) &&
      seen {} none_ (fun s => (s.residents s.ev.core).length == 1) &&
      seen { port := 1 } (mg fun m => { m with ready := 4 }) (fun s => s.portReady 1 && !s.mgmt.held) &&
      seen { port := 1 } (mg fun m => { m with ready := 4, held := true }) (fun s => s.portReady 1 && s.mgmt.held &&
        s.mgmt.holder != 1) &&
      seen {} (mg fun m => { m with held := true }) (fun s => s.mgmt.held && s.mgmt.holder == s.ev.port && s.manages) &&
      seen { flag := true } none_ (fun s => !s.mgmt.held) &&
      pwrctlOk 0x0000_00C8_0000_0BB8 && seen {} (fun s => { s with now := 1000 }) (fun s => decide (1000 * (s.mgmt.ticks + 1) ≤ s.now)) &&
      ([false, true] : List Bool).all (fun on => seen {} (mg fun m => { m with fwgov := on }) fun s => s.mgmt.fwgov == on) &&
      seen {} (mg fun m => { m with held := true, ready := 2 ^ 40 }) (fun s => s.manages && s.mgmt.ready.getLsbD 40) &&
      seen {} (mg fun m => { m with signing := some [] }) (fun s => s.mgmt.signing.isSome) &&
      seen { idx := 4 } (mg fun m => { m with ready := 1 }) (fun s => decide (s.ev.idx ≤ 40) && s.ev.idx != 3 &&
        s.mgmt.ready.getLsbD 0)) = true := by decide +kernel

def winRec : WinRec := ⟨5, 9, 0, 0, 0, .device, 0, rec0⟩
def windowed (k : Option W32) : Prep := fun s => (linked s).setWindow 0 1 ⟨6, [winRec], 0, k, 0⟩
def domain : Prep := fun s => ((linked s).setPr 0 0x2019 9).setPr 0 0x2003 100
theorem meets_RecordsOfTheDomain :
    (([false, true] : List Bool).all (fun full => seen { dev := 1, domid := 9, words := rec0 }
        ((fun s => if full then s.modPart 0 fun p => { p with frozen := true } else s) ∘ domain) fun s =>
          s.linkReady && lo32 s.ev.val == (s.inboundOf 1 0).next && (s.partOfDomid 9).any fun p => match s.remoteFate p rec0 with
            | .enters _ => !full
            | .waits => full
            | .never => false) &&
      seen { dev := 1, domid := 8, words := rec0 } domain (fun s => s.linkReady && lo32 s.ev.val == (s.inboundOf 1 0).next &&
        (s.partOfDomid 8).isNone) &&
      seen { dev := 1, val := 5 } (windowed none) (fun s => let w := (s.die 0).window 1
        s.linkReady && (w.recs.any fun k => seqLe k.seq (lo32 s.ev.val)) && w.resend.isNone &&
          (w.recs.find? fun k => k.seq == lo32 s.ev.val).isSome) &&
      seen { dev := 1, val := 5, flag := true } (windowed none) (fun s => let w := (s.die 0).window 1
        (w.recs.find? fun k => k.seq == lo32 s.ev.val).any fun r => decide (r.deadline ≤ s.now)) &&
      seen { dev := 1 } (windowed (some 5)) (fun s => let w := (s.die 0).window 1
        w.resend.isSome && decide (w.since + 1000 * w.backoff ≤ s.now))) = true := by decide +kernel
def peer : Nat := 2 ^ 50 + 2 ^ 40
def regionP : VRegion := { region3 with dbase := peer, recs := [] }
def remote : Prep := linked ∘ mr 0x32 0x0002_0000 ∘ fun s => (s.setPr 0 0x2019 9).modPart 0 fun p => { p with
  regions := [(3, regionP)]
  stagger := some 0 }
theorem meets_DomainTraffic :
    (seen { domid := 9, idx := 3, addr := peer / 64, val := 4, bytes := [1] } remote (fun s => s.linkReady &&
        s.partOfDomid s.ev.domid == some 0 && (s.regionAway 0 3).isSome &&
        (cells (64 * s.ev.addr) (s.ev.bytes.take 64)).all (fun k => !((s.region 0 3).exist s.ev.addr 4).getLsbD (k.1 % 64)) &&
        !s.ev.bytes.isEmpty) &&
      seen { domid := 9, idx := 3, dev := 1, val := 4 } remote (fun s => s.partOfDomid s.ev.domid == some 0 &&
        s.regionAway 0 s.ev.idx == some s.ev.dev) &&
      seen { domid := 9, val := 7 } domain (fun s => s.partOfDomid 9 == some 0 && decide ((s.mr 0x33).toNat < 7 + s.preg 0 28)) &&
      seen {} remote (fun s => (s.part 0).stagger.any fun n => decide (n ≤ (s.mr 0x33).toNat)) &&
      seen { addr := 0x9_0000, op := .read 4 } linked (fun s => s.linkReady && decide (s.ev.addr + 4 ≤ localTop) &&
        let s' := s.reachLines (s.ownerOf s.ev.addr) (s.linesAt (bytesAt s.ev.addr 4))
        (bytesAt s.ev.addr 4).all fun a => !s'.poisoned a) &&
      seen { addr := 0x9_0000, op := .write [1, 2] } linked (fun s => s.linkReady && decide (s.ev.addr + 2 ≤ localTop) &&
        !s.writeHeld (s.ownerOf s.ev.addr) (bytesAt s.ev.addr 2)) &&
      evMeets (.load dst2 [{ acc4 with pas := [peer] }] none []) remote (fun s _ p => (p.firstOn s.isPeer).isSome) &&
      seen {} none_ (fun s => (s.team? 0).any fun t => s.ev.seq == t.nseq && t.pend.isEmpty)) = true := by
  decide +kernel
/-- Port 0, die 0 and stack 0 are there. -/
def hosted : Prep := mg fun m => { m with ready := 0x112 }
def inMem (s : State) (pas : Option (List Nat)) : Bool :=
  pas.any fun l => s.hostOpen l && !s.writeHeld 0 l && l.all fun a => s.space a == .here
def poisonedAt (a : Nat) : Prep := fun s => { s with poison := s.poison.set 0 (a / 32) 1 }
theorem meets_HostAccesses :
    (seen { addr := 0x9_0000, idx := 4, bytes := [1, 2, 3, 4] } hosted (fun s => s.portReady 0 &&
        inMem s (s.inboundPas 0 s.ev.addr 4 true) && inMem s (s.inboundPas 0 s.ev.addr 4 false) &&
        (s.inboundPas 0 s.ev.addr 4 false).any fun l => l.all fun a => !s.poisoned a) &&
      seen { part := 1, flag := true, addr := 16, bytes := [1] } hosted (fun s => s.portReady 0 && s.ev.part != 0 &&
        (cells s.ev.addr s.ev.bytes).all fun k => decide (4 ≤ k.1)) &&
      ([0, 1] : List Nat).all (fun p => seen { part := p, flag := true, addr := 8, idx := 4 } hosted fun s =>
        (span s.ev.addr s.ev.idx).all fun k => decide (8 ≤ k)) &&
      seen { addr := 2 ^ 55, idx := 4 } hosted (fun s => s.portReady 0 && (s.inboundPas 0 s.ev.addr 4 false).isNone) &&
      seen { addr := 0x9_0000, idx := 4 } (poisonedAt 0x9_0000 ∘ hosted) (fun s => (s.inboundPas 0 s.ev.addr 4 false).any fun l =>
        s.hostOpen l && l.any s.poisoned) &&
      seen { addr := 0x9_0000, op := .atomic .add false .i32 1 0 } hosted (fun s => s.portReady 0 && pcieAtomic .add false .i32 &&
        (s.inboundPas 0 s.ev.addr 4 true).any fun l => l.head?.any fun pa => s.space pa == .here && (s.homeSlice pa).isSome &&
          s.ev.addr % 4 == 0 && ((bytesAt pa 4).all fun a => !s.poisoned a) && !s.writeHeld 0 (bytesAt pa 4))) = true := by
  decide +kernel
def ringIn : IRing := ⟨0x8_0000, 0x9_0000, 0, 0, false, []⟩
def ingress (w0 : W64) : Prep := (fun s => s.setPr 0 0x2003 100) ∘ words 0x9_0000 [w0] ∘ fun s =>
  s.modPart 0 fun p => { p with rings := [(2, ringIn)] }
/-- The state in which a slot's record is looked at. -/
def seenBy (s : State) (w : List W32) : State := s.dropFarPeers (s.recvDie 0 w)
def control (op : Nat) : Prep := fun s => s.modPart 0 fun p => { p with ctrl := [⟨op, if op = 1 then 1 else 0, 0xA_0000, 0⟩] }
/-- A graph object at 0xA_0000 with one node and one region. -/
def object : Prep := words 0xA_0000 [1, 0xB_0000, 0xC_0000, 0, 0xFFFF_FFFF] ∘
  words 0xB_0000 [BitVec.ofNat 64 placeBase, 0x0000_0004_0000_0020, 0x0000_0005_0000_0000] ∘
  words 0xC_0000 [BitVec.ofNat 64 placeBase, 0x1000, BitVec.ofNat 64 placeMap]
theorem meets_HostAndIngress :
    (seen { idx := 2 } (ingress 0) (fun s => !(s.part 0).frozen && !(s.part 0).freezing && (s.slotWords 0 ringIn).any fun w =>
        recWord w 2 == 0 && (seenBy s w).ringCause 0 w == 0 && !(seenBy s w).ringShort 0 w) &&
      seen { idx := 2 } (ingress 0x2000_0000) (fun s => (s.slotWords 0 ringIn).any fun w => recWord w 2 == 0 &&
        (seenBy s w).ringCause 0 w != 0) &&
      seen {} (control 1) (fun s => (s.ctrlHead 0 1).any fun (c, s') => (s'.graph? 0 c.gslot).isNone && (s'.loadGraph 0 c.va).isNone) &&
      seen {} (control 2 ∘ fun s => { s with teams := [] }) (fun s => (s.ctrlHead 0 2).any fun (c, s') =>
        (s'.graph? 0 c.gslot).isSome && !s'.graphBusy 0 c.gslot) &&
      seen {} (control 3) (fun s => (s.ctrlHead 0 3).any fun (c, s') => (s'.graph? 0 c.gslot).isSome) &&
      seen {} (modP (fun p => { p with reports := [⟨1, 0, 0, 0, 0, 0⟩], cqSet := true }) ∘ mg fun m => { m with held := true })
        (fun s => s.reportRoom 0)) = true := by decide +kernel
theorem meets_GraphLoad :
    seen {} (object ∘ control 1) (fun s => (s.ctrlHead 0 1).any fun (c, s') => (s'.graph? 0 c.gslot).isNone &&
      (s'.loadGraph 0 c.va).isSome) = true := by decide +kernel
def traced : Prep := fun s => s.modDie 0 fun d => { d with trace := { d.trace with
  fifo := [1, 2]
  capBuf := 0x9_0000
  capLen := 64
  owed := true } }
def holding : Prep := mg fun m => { m with held := true }
def okW (a : SysAns) : Bool :=
  match a with
  | .ok _ => true
  | _ => false
theorem meets_TraceAndHostRegisters :
    (seen {} traced (fun s => let x := (s.die 0).trace
        let n := min x.drain x.fifo.length
        x.owed && n != 0 && !x.dead && ((List.range n).mapM fun i => s.tracePa x (x.bytesWritten + i)).any fun l =>
          s.hostOpen l && decide (l.map s.norm).Nodup) &&
      seen { idx := 0x140, val := 5 } holding (fun s => s.manages && s.mgmt.syswait.isNone && ((sysInfo 0x140).bind (·.rd)).isSome &&
        ((sysInfo 0x140).bind (·.wr)).isSome && !within 0x140 0x0E00 0x0E0B && (s.sysRead 0 0x140).isSome &&
        okW (State.sysWrite { s with mgmt := { s.mgmt with sysdata := 5 } } 0 0x140 true 5)) &&
      seen { idx := 0x140 } holding (fun s => match State.sysWrite { s with mgmt := { s.mgmt with sysdata := 0 } } 0 0x140 true 0 with
        | .fault .. => true
        | _ => false) &&
      seen {} holding (fun s => unitOk .resize s.stage && (shootOf s.ev.val).any fun k => (wd s.stage 0).toNat % k.size == 0 &&
        decide ((wd s.stage 0).toNat < 2 ^ 56)) &&
      seen {} (mg fun m => { m with held := true, stage := [(0, 1)] }) (fun s => unitOk .lend s.stage && unitOk .revoke s.stage)) =
      true := by decide +kernel
/-- A shoot-down through SYSSEL that nothing uses is done at once; one whose dropped entry an access uses stays on its way. -/
def entry5 : Tlb := ⟨0, 0, 2 ^ 18, 0, true, true, true, false, false, 5⟩
theorem meets_sysselPgret :
    (([false, true] : List Bool).all fun busy =>
      let s := holding (if busy then (fun s => s.modCore 0 fun c => { c with tlb := [entry5] })
        (pending (.load dst2 [{ acc4 with va := 0, pas := [0] }] none []) base) else base)
      (shootOf 0).any fun k => let sh := s.shoot k 0
        sh.1.gone sh.2 == !busy) = true := by decide +kernel

/-! ## System registers -/

def wrX (n : Nat) (b : Opnd) : SysWr := ⟨BitVec.ofNat 16 n, .team .none b⟩
theorem meets_SystemRegisters :
    (meets (.sysrd 0x140 .none (.s 4)) none_ (fun s t => ((sysInfo 0x140).any fun k => k.kind != .team) &&
        (s.sysRead t.part 0x140).isSome) &&
      meets (.sysrd 0x10 .none (.s 4)) none_ (fun _ _ => (sysInfo 0x10).any fun k => k.kind == .team) &&
      meets (.sysrd 0x11 .none (.v 2)) &&
      ([0, 4] : List W64).all (fun v => meetsAt (.syswr (wrX 0x10 (.s 2))) (sreg 2 v) fun _ s t =>
        sysValueOk 0x10 (uni s t (.s 2)) == (v == 0)) &&
      meets (.syswr (wrX 0x11 (.v 4 false))) none_ (fun s t => (t.active .none).all fun l => lane32 s t (.v 4 false) l == 0) &&
      meetsAt (.syswr (wrX 0x11 (.v 4 false))) (team fun t => { t with r := t.r.setLane 4 3 0x80 }) (fun _ s t =>
        (t.active .none).find? (fun l => lane32 s t (.v 4 false) l &&& ~~~0x71F#32 != 0) == some 3) &&
      (let s := { holding base with ev := {} }
       s.manages && s.mgmt.syswait.isNone && okW (State.sysWrite { s with mgmt := { s.mgmt with sysdata := 5 } } 0 0x140 true 5)) &&
      meets (.syswr (wrX 0x140 (.s 2))) (sreg 2 1000) (fun s t => okW (s.sysWrite t.part 0x140 (t.level == 2) (uni s t (.s 2)))) &&
      meets (.gptrootWrite (wrX 0x170 (.s 2))) none_ (fun s t => match s.sysWrite t.part 0x170 (t.level == 2) (uni s t (.s 2)) with
        | .held .. => true
        | _ => false) &&
      meets (.syswr (wrX 0x2017 (.s 2))) (sreg 2 1) (fun s t => (uni s t (.s 2)).getLsbD 0 &&
        okW (s.sysWrite t.part 0x2017 (t.level == 2) (uni s t (.s 2)))) &&
      sysValueOk 0x140 1000) = true := by decide +kernel
theorem meets_DbgdataRead :
    meets (.dbgdataRead .none (.s 4)) ((fun s => s.setTeam { placeTeam 0 with id := 1, stat := .stopped 1, slot := 1 }) ∘
      fun s => s.setPr 0 0x111 1) (fun s t => (s.dbgdataRead t.part).isSome) = true := by decide +kernel

/-! ## Privilege, alignment -/

def user : Prep := team fun t => { t with level := 0 }
def refusedFor (i : Instr) : Bool :=
  let s := placed i user
  s.cur.any fun t0 => i.enc.any fun e => t0.r.cl.any fun c => s.runnable t0 && !t0.mustWait t0.icount c.serial (guardAccess e.g).reads &&
    guardUni e.g (t0.arrived c).r && !(t0.arrived c).mustWait t0.icount c.serial (encAccess e none).reads &&
    (s.pcMatch (t0.arrived c)).isNone && (t0.port || !s.portBusy t0 (vectorPort c.hdr)) && decide ((t0.arrived c).level < levelOf i)
theorem meets_PrivilegeChecked :
    (([.tretFix .none, .ckpt { qX with d := .s 4 }, .presize sysA, .srd .clock .none (.s 4), .sysrd 0x140 .none (.s 4),
      .syswr (wrX 0x140 (.s 2))] : List Instr).all refusedFor && (sysInfo 0x140).isSome) = true := by decide +kernel
theorem meets_StackOverflowAndUnlease :
    (meetsAt (.brd (.vec 0 0 false) 0 0) (team (fun t => { t with r := { t.r.setLane 0 3 1 with
        stack := List.replicate 256 entry2 } }) ∘ twoClauses)
        (fun _ s t => brdOk s t && maskOf (t.active (.vec 0 0 false)) != 0 &&
          t.r.mask &&& ~~~maskOf (t.active (.vec 0 0 false)) != 0 && decide (256 ≤ t.r.depth)) &&
      meets (.unlease ⟨.none, .v 0, .s 2, u0, u0, 0⟩) (leaseHere ∘ sreg 2 0x8_0000) (fun s t =>
        (s.part t.part).leases.any (·.base == BitVec.ofNat 64 (va56 (addrOf s t (.s 2) 0)))) &&
      meetsAt (.unlease ⟨.none, .v 0, .s 2, u0, u0, 0⟩) leaseHere (fun _ s t =>
        !(s.part t.part).leases.any (·.base == BitVec.ofNat 64 (va56 (addrOf s t (.s 2) 0))))) = true := by decide +kernel
/-- The address of every lane is odd. -/
def odd : Prep := scratch ∘ sreg 2 1 ∘ team fun t => { t with r := (List.range 32).foldl (fun r l => r.setLane 4 l 1) t.r }
def oddLane (d : Option Dest) (n : Nat) (bad : State → Team → Nat → Bool) (s : State) (t : Team) : Bool :=
  match accessLanes t .none d with
  | l :: _ => !s.targetBad t (bad s t) (addrOf s t (.v 4 false) l) && addrOf s t (.v 4 false) l % n != 0
  | [] => false
theorem meets_MisalignedAccesses :
    (meetsAt (.atom .add .dev .relaxed .i32 v2) odd (fun _ => oddLane (some v2.d) 4 fun s t => s.atomicBad t (hostOffers .add false .i32)) &&
      meetsAt (.atomCas .dev .relaxed .i64 v2) odd (fun _ => oddLane (some v2.d) 8 fun s t => s.atomicBad t (hostOffers .xchg true .i64)) &&
      meetsAt (.red .add .dev .relaxed .n32 redX) odd (fun _ => oddLane none 4 fun s t => s.atomicBad t (hostOffers .add false .n32)) &&
      ([.ldv .b32 .dev true v2, .ldvLatest .b32 .dev true v2] : List Instr).all (fun i =>
        meetsAt i odd fun _ => oddLane (some v2.d) 4 fun s t => s.verBad t false) &&
      ([.stv .b32 stvX, .stvRel .b32 .dev stvX] : List Instr).all (fun i =>
        meetsAt i odd fun _ => oddLane none 4 fun s t => s.verBad t true)) = true := by decide +kernel
theorem meets_MisalignedScratch :
    (([.atoms .add .core .relaxed .i32 v2, .atomsCas .core .relaxed .i32 v2] : List Instr).all (fun i =>
        meetsAt i odd fun _ s t => (accessLanes t .none (some v2.d)).head?.any fun l => scratchOf s t (.v 4 false) l % 4 != 0) &&
      meetsAt (.mfmt fmtX) (arrayed ∘ sreg 2 8) (fun _ s t => t.mtx.isSome && va56 (uni s t (.s 2)).toNat % 64 != 0)) = true := by
  decide +kernel

/-- A block in the memory of another device, which has not answered. -/
def away : Nat := 2 ^ 50 + 2 ^ 40
def unanswered : Prep := mr 0x32 0x0002_0000 ∘ sreg 2 (BitVec.ofNat 64 away) ∘ arrayed ∘
  (team fun t => { t with engines := [eng0], lost := some 0 }) ∘ node0 fun n => { n with
    btab := [BitVec.ofNat 64 (2 ^ 63 + away)] }
def unansweredB (n : Nat) (s : State) (t : Team) : Bool :=
  let q := s.checkRange t.core t.part t.level .load .plain (va56 away) (8 * n)
  decide (va56 away % 64 = 0) && (q.1.watchHit t true false (watched [⟨noLaneN, va56 away, 8 * n, none⟩])).isNone &&
    t.lost == some t.icount && match q.2 with
    | .ok l => (physOf l).findIdx? q.1.isPeer == some 0
    | .error _ => false
theorem meets_UnansweredBlocks :
    (([.mfmt fmtX, .bcp ⟨.none, .v 0, .s 2, .s 3, u0, 0⟩, .presize sysA, .plend sysA, .prevoke sysA] : List Instr).all (fun i =>
        meetsAt i unanswered fun _ s t => unansweredB 8 s t && t.mtx.isSome && uni s t (.s 2) == BitVec.ofNat 64 away &&
          decide ((uni s t (.s 3)).toNat ≤ 3)) &&
      meetsAt (.sgo sgX) unanswered (fun _ s t => unansweredB 16 s t && t.binding s 0 1 == some away && (t.engine 0).isSome)) =
      true := by decide +kernel

end Sys2Proof.Tests
end

section
/-!
Words and their fields: packing and unpacking are inverse (R19), and so are the codes of operands, destinations and guards
(R21).
-/
namespace Sys2Proof

theorem Fields.unpack_pack (f : Fields) : Fields.unpack f.pack = f := by
  cases f
  simp (disch := decide) only [Fields.unpack, Fields.pack, BitVec.extractLsb'_append_eq_of_add_le,
    BitVec.extractLsb'_append_eq_of_le, Fields.mk.injEq]
  refine ⟨?_, ?_, ?_, ?_, ?_, ?_, ?_, ?_, ?_, ?_, ?_, ?_, ?_⟩ <;> exact BitVec.extractLsb'_eq_self

theorem Fields.pack_unpack (w : W64) : (Fields.unpack w).pack = w := by
  unfold Fields.unpack Fields.pack
  simp (disch := rfl) only [BitVec.extractLsb'_append_extractLsb'_eq_extractLsb']
  exact BitVec.extractLsb'_eq_self

theorem Opnd.ofBits_bits (x : Opnd) : Opnd.ofBits x.bits x.last = x := by
  have index (c : BitVec 2) (i : BitVec 6) : (show BitVec 8 from c ++ i).extractLsb' 0 6 = i :=
    BitVec.extractLsb'_append_eq_right
  have cls (c : BitVec 2) (i : BitVec 6) : (show BitVec 8 from c ++ i).extractLsb' 6 2 = c :=
    BitVec.extractLsb'_append_eq_left
  dsimp only at index cls
  cases x <;> simp only [Opnd.ofBits, Opnd.bits, Opnd.last, index, cls] <;> rfl

theorem Dest.ofBits_bits (x : Dest) : Dest.ofBits x.bits = x := by
  have index (c : BitVec 1) (i : BitVec 6) : (show BitVec 7 from c ++ i).extractLsb' 0 6 = i :=
    BitVec.extractLsb'_append_eq_right
  have cls (c : BitVec 1) (i : BitVec 6) : (show BitVec 7 from c ++ i).extractLsb' 6 1 = c :=
    BitVec.extractLsb'_append_eq_left
  dsimp only at index cls
  cases x <;> simp only [Dest.ofBits, Dest.bits, index, cls] <;> rfl

theorem Guard.ofBits_bits (g : Guard) : Guard.ofBits g.bits.1 g.bits.2.1 g.bits.2.2.1 g.bits.2.2.2 = some g := by
  have neg : ∀ n : Bool, (BitVec.ofBool n == 1#1) = n := by decide
  cases g <;> simp [Guard.ofBits, Guard.bits, neg]
end Sys2Proof
end

section
/-!
What the decoder's builder reads from the fields of an encoding (R38, R41, R42): its operands, its MOD code, its control bytes.
-/
namespace Sys2Proof

/-! ## Codes -/

theorem IW.of_code (t : IW) : IW.of (t.code % 8) = some t := by cases t <;> rfl
theorem IS.of_code (t : IS) : IS.of (t.code % 8) = some t := by cases t <;> rfl
theorem BW.of_code (t : BW) : BW.of (t.code % 8) = some t := by cases t <;> rfl
theorem SX.of_code (t : SX) : SX.of (t.code % 8) = some t := by cases t <;> rfl
theorem CV.of_code (t : CV) : CV.of (t.code % 8) = some t := by cases t <;> rfl
theorem RM.of_code (t : RM) : RM.of (t.code % 8) = some t := by cases t <;> rfl
theorem Cmp.of_code (t : Cmp) : Cmp.of (t.code % 8) = some t := by cases t <;> rfl
theorem SZL.of_code (t : SZL) : SZL.of (t.code % 8) = some t := by cases t <;> rfl
theorem SZS.of_code (t : SZS) : SZS.of (t.code % 8) = some t := by cases t <;> rfl
theorem SZV.of_code (t : SZV) : SZV.of (t.code % 8) = some t := by cases t <;> rfl
theorem AT.of_code (t : AT) : AT.of (t.code % 8) = some t := by cases t <;> rfl
theorem PL.of_code (t : PL) : PL.of (t.code % 8) = some t := by cases t <;> rfl
theorem CC.of_code (t : CC) : CC.of (t.code % 8) = some t := by cases t <;> rfl
theorem FN.of_code (t : FN) : FN.of (t.code % 8) = some t := by cases t <;> rfl
theorem SH.of_code (t : SH) : SH.of (t.code % 8) = some t := by cases t <;> rfl
theorem VT.of_code (t : VT) : VT.of (t.code % 8) = some t := by cases t <;> rfl
theorem TO.of_code (t : TO) : TO.of (t.code % 8) = some t := by cases t <;> rfl
theorem MS.of_code (t : MS) : MS.of (t.code % 8) = some t := by cases t <;> rfl

/-! ## The operands of a form -/

/-- The destination that a field names, used or not. -/
def DFld.dest : DFld → Dest
  | .op x _ | .none x | .raw _ x => x
/-- The operand that a field names, used or not. -/
def Fld.opnd : Fld → Opnd
  | .op x _ | .none x | .raw _ x => x
/-- A row that has an operand here (`b`) matches the field: it is no raw byte, and where there is none it is no operand. -/
def Fld.fits (b : Bool) : Fld → Bool
  | .op .. => b
  | .none _ => true
  | .raw .. => !b
/-- The same for D, which one row alone has raw. -/
def DFld.fits (raw : Bool) : DFld → Bool
  | .raw .. => raw
  | _ => !raw

/-- The fields of an encoding as the arguments of the R form. -/
def Enc.args (e : Enc) : RArgs := ⟨e.g, e.d.dest, e.a.opnd, e.b.opnd, e.c.opnd, e.la⟩

theorem DFld.ofBits_dest {f : DFld} {raw : Bool} (hf : f.fits raw = true) (h1 : f.ok1 = true) :
    (if raw = true then .v 0 else Dest.ofBits f.bits) = f.dest := by
  cases f <;> simp_all [DFld.fits, DFld.ok1, DFld.bits, DFld.dest, Dest.ofBits_bits]

theorem Fld.ofBits_opnd {f : Fld} {b : Bool} (hf : f.fits b = true) (h1 : f.ok1 = true) :
    (if b = true then Opnd.ofBits f.bits f.last else Opnd.none) = f.opnd := by
  cases f with
  | op x u => simp_all [Fld.fits, Fld.bits, Fld.last, Fld.opnd, Opnd.ofBits_bits]
  | none x => cases b <;> simp_all [Fld.ok1, Fld.bits, Fld.last, Fld.opnd, Opnd.ofBits_bits]
  | raw n x => simp_all [Fld.fits, Fld.ok1, Fld.opnd]

/-- The fields of `e` are where row `r` of the opcode map has operands. -/
structure Enc.Fits (e : Enc) (r : OpRow) : Prop where
  opc : decide (e.opc < 256) = true
  low : e.low = Option.none
  d : e.d.fits (e.opc == 0x99) = true
  a : e.a.fits (r.opnds.testBit 2) = true
  b : e.b.fits (r.opnds.testBit 1) = true
  c : e.c.fits (r.opnds.testBit 0) = true

theorem Enc.fields_lr {e : Enc} (h : e.low = Option.none) : e.fields.lr.getLsbD 2 = e.a.last ∧
    e.fields.lr.getLsbD 1 = e.b.last ∧ e.fields.lr.getLsbD 0 = e.c.last ∧ e.fields.reu = bit1 e.reu ∧
      e.fields.la.toFin = e.la := by
  have key : ∀ (a b c r : Bool) (l : BitVec 4),
      let low : BitVec 8 := bit1 a ++ (bit1 b ++ (bit1 c ++ (bit1 r ++ l)))
      (low.extractLsb' 5 3).getLsbD 2 = a ∧ (low.extractLsb' 5 3).getLsbD 1 = b ∧ (low.extractLsb' 5 3).getLsbD 0 = c ∧
        low.extractLsb' 4 1 = bit1 r ∧ low.extractLsb' 0 4 = l := by decide
  obtain ⟨h2, h1, h0, hr, hl⟩ := key e.a.last e.b.last e.c.last e.reu (BitVec.ofFin e.la)
  simp only [Enc.fields, h]
  exact ⟨h2, h1, h0, hr, congrArg BitVec.toFin hl⟩

theorem Enc.Fits.rargs {e : Enc} {r : OpRow} (h : e.Fits r) (h1 : e.ok1' = true) :
    e.fields.rargs e.g r (e.opc == 0x99) = e.args := by
  obtain ⟨lr2, lr1, lr0, -, la⟩ := Enc.fields_lr h.low
  simp only [Enc.ok1', Bool.and_eq_true] at h1
  obtain ⟨⟨⟨⟨-, hd⟩, ha⟩, hb⟩, hc⟩ := h1.1
  simp only [Fields.rargs, lr2, lr1, lr0, la, Enc.args]
  exact congr (congr (congr (congr (congrArg _ (DFld.ofBits_dest h.d hd)) (Fld.ofBits_opnd h.a ha))
    (Fld.ofBits_opnd h.b hb)) (Fld.ofBits_opnd h.c hc)) rfl

/-- The instruction that the builder of an opcode's group makes of it. -/
def buildAt (opc md : Nat) (x : RArgs) (f : Fields) : Option Instr :=
  if opc < 0x40 then buildScalar opc md x f
  else if opc < 0x80 then buildVector opc md x f
  else if opc < 0xA0 then buildMemory opc md x f
  else if opc < 0xC0 then buildMatrix opc md x f
  else if opc < 0xE0 then buildRecord opc x f
  else buildSystem opc md x f

theorem build_fields {e : Enc} {r : OpRow} (hr : opRow e.opc = some r) (ho : decide (e.opc < 256) = true) :
    build e.fields = buildAt e.opc (e.md % 8) (e.fields.rargs e.g r (e.opc == 0x99)) e.fields := by
  have opc : e.fields.opc.toNat = e.opc := Nat.mod_eq_of_lt (of_decide_eq_true ho)
  have guard : Guard.ofBits e.fields.gcl e.fields.greg e.fields.gbit e.fields.gneg = some e.g := e.g.ofBits_bits
  simp only [build, opc, hr, guard, buildAt]
  rfl

/-- The decoder's stage 2 and its builder read instruction `i` from the fields of every encoding of it that passes the tests of
stage 5 (R38). -/
def Spelled (i : Instr) : Prop :=
  ∀ e, i.enc = some e → e.ok1' = true → e.fields.stage2 = true ∧ build e.fields = some i

theorem Spelled.of {i : Instr} {e : Enc} {r : OpRow} (he : i.enc = some e) (hr : opRow e.opc = some r)
    (hm : e.ok1' = true → r.mods.testBit (e.md % 8) = true)
    (hb : e.ok1' = true → buildAt e.opc (e.md % 8) e.args e.fields = some i)
    (hf : e.Fits r := by exact ⟨rfl, rfl, rfl, rfl, rfl, rfl⟩) : Spelled i := by
  intro e' he' h1
  obtain rfl : e = e' := Option.some.inj (he.symm.trans he')
  have opc : e.fields.opc.toNat = e.opc := Nat.mod_eq_of_lt (of_decide_eq_true hf.opc)
  exact ⟨by simp only [Fields.stage2, opc, hr]; exact hm h1, by rw [build_fields hr hf.opc, hf.rargs h1, hb h1]⟩

theorem map_of {α β : Type} {o : Option α} {t : α} {k : α → β} (h : o = some t) : o.map k = some (k t) := by rw [h]; rfl
theorem bind_of {α β : Type} {o : Option α} {t : α} {k : α → Option β} (h : o = some t) : o.bind k = k t := by rw [h]; rfl

/-! ## MOD values of the sets (R41) -/

theorem all_mods (n : Nat) : Nat.testBit 0xFF (n % 8) = true := by
  have key : ∀ k < 8, Nat.testBit 0xFF k = true := by decide
  exact key _ (Nat.mod_lt n (by decide))
theorem no_mods : Nat.testBit 0x01 (0 % 8) = true := by decide
theorem BW.mods (t : BW) : Nat.testBit 0x55 (t.code % 8) = true := by cases t <;> decide
theorem IS.mods (t : IS) : Nat.testBit 0x55 (t.code % 8) = true := by cases t <;> decide
theorem SX.mods (t : SX) : Nat.testBit 0x03 (t.code % 8) = true := by cases t <;> decide
theorem RM.mods (t : RM) : Nat.testBit 0x1F (t.code % 8) = true := by cases t <;> decide
theorem SZL.mods (t : SZL) : Nat.testBit 0x7F (t.code % 8) = true := by cases t <;> decide
theorem SZS.mods (t : SZS) : Nat.testBit 0x75 (t.code % 8) = true := by cases t <;> decide
theorem SZV.mods (t : SZV) : Nat.testBit 0x70 (t.code % 8) = true := by cases t <;> decide
theorem PL.mods (t : PL) : Nat.testBit 0x07 (t.code % 8) = true := by cases t <;> decide
theorem CC.mods (t : CC) : Nat.testBit 0x07 (t.code % 8) = true := by cases t <;> decide
theorem FN.mods (t : FN) : Nat.testBit 0x07 (t.code % 8) = true := by cases t <;> decide
theorem SH.mods (t : SH) : Nat.testBit 0x0F (t.code % 8) = true := by cases t <;> decide
theorem VT.mods (t : VT) : Nat.testBit 0x07 (t.code % 8) = true := by cases t <;> decide
theorem MS.mods (t : MS) : Nat.testBit 0x07 (t.code % 8) = true := by cases t <;> decide
theorem flag_mods (b : Bool) : Nat.testBit 0x03 ((if b then 1 else 0) % 8) = true := by cases b <;> decide
theorem Cmp.mods {t : Cmp} (h : t.code < 6) : Nat.testBit 0x3F (t.code % 8) = true := by
  revert h; cases t <;> decide
theorem AT.mods_red {t : AT} (h : t ≠ .xchg ∧ t ≠ .incwrap) : Nat.testBit 0x3F (t.code % 8) = true := by
  revert h; cases t <;> decide
theorem SZV.mods_latest {t : SZV} (h : t ≠ .b128) : Nat.testBit 0x30 (t.code % 8) = true := by
  revert h; cases t <;> decide

/-! ## Control bytes (R42) -/

/-- A byte of two fields, the lower one below `k`: its upper field. -/
theorem byte_div {k a b : Nat} (hb : b < k) (h : k * a + b < 256) : (BitVec.ofNat 8 (k * a + b)).toNat / k = a := by
  rw [BitVec.toNat_ofNat, Nat.mod_eq_of_lt h, Nat.mul_add_div (by omega), Nat.div_eq_of_lt hb, Nat.add_zero]
theorem byte_mod {k a b : Nat} (hb : b < k) (h : k * a + b < 256) : (BitVec.ofNat 8 (k * a + b)).toNat % k = b := by
  rw [BitVec.toNat_ofNat, Nat.mod_eq_of_lt h, Nat.mul_add_mod, Nat.mod_eq_of_lt hb]
theorem lowBits_byte {n a : Nat} (b : Fin (2 ^ n)) (h : 2 ^ n * a + b.val < 256) :
    lowBits n (BitVec.ofNat 8 (2 ^ n * a + b.val)) = b := by
  apply Fin.ext
  show ((BitVec.ofNat 8 (2 ^ n * a + b.val)).extractLsb' 0 n).toNat = b.val
  rw [BitVec.extractLsb'_toNat, Nat.shiftRight_zero, byte_mod b.isLt h]

theorem ScmpTy.code_lt (t : ScmpTy) : t.code < 4 := by cases t <;> decide
theorem IW.code_lt (t : IW) : t.code < 8 := by cases t <;> decide
theorem FcmpTy.code_lt (t : FcmpTy) : t.code < 3 := by cases t <;> decide
theorem Fmt.code_lt (t : Fmt) : t.code < 16 := by cases t <;> decide
theorem ScmpTy.of_code (t : ScmpTy) : ScmpTy.of t.code = some t := by cases t <;> rfl
theorem FcmpTy.of_code (t : FcmpTy) : FcmpTy.of t.code = some t := by cases t <;> rfl
theorem Fmt.of_code (t : Fmt) : Fmt.of t.code = some t := by cases t <;> rfl

theorem ScmpTy.of_byte (t : ScmpTy) (b : Fin 64) :
    ScmpTy.of ((BitVec.ofNat 8 (64 * t.code + b.val)).toNat / 64) = some t := by
  rw [byte_div b.isLt (by have := t.code_lt; omega), t.of_code]
theorem IW.of_byte (t : IW) (b : Fin 32) : IW.of ((BitVec.ofNat 8 (32 * t.code + b.val)).toNat / 32) = some t := by
  rw [byte_div b.isLt (by have := t.code_lt; omega)]; cases t <;> rfl
theorem FcmpTy.of_byte (t : FcmpTy) (b : Fin 32) :
    FcmpTy.of ((BitVec.ofNat 8 (32 * t.code + b.val)).toNat / 32) = some t := by
  rw [byte_div b.isLt (by have := t.code_lt; omega), t.of_code]
theorem Fmt.of_byte (d s : Fmt) : Fmt.of ((BitVec.ofNat 8 (16 * d.code + s.code)).toNat / 16) = some d ∧
    Fmt.of ((BitVec.ofNat 8 (16 * d.code + s.code)).toNat % 16) = some s := by
  have hd := d.code_lt
  have hs := s.code_lt
  rw [byte_div hs (by omega), byte_mod hs (by omega)]
  exact ⟨d.of_code, s.of_code⟩
theorem Fmt.of_byte1 (f : Fmt) : Fmt.of (BitVec.ofNat 8 f.code).toNat = some f := by cases f <;> rfl
theorem SReg.of_byte (r : SReg) : SReg.of (BitVec.ofNat 8 r.code).toNat = some r := by cases r <;> rfl
theorem atomCodes_byte (sc : Scope) (o : Order) (t : AtomTy) :
    atomCodes (BitVec.ofNat 8 (atomByte sc o t)) = some (sc, o, t) := by
  cases sc <;> cases o <;> cases t <;> rfl
theorem Scope.of_versionByte (sc : Scope) (acq : Bool) :
    Scope.of ((BitVec.ofNat 8 (32 * sc.code + if acq then 16 else 0)).toNat / 32) = some sc ∧
      (BitVec.ofNat 8 (32 * sc.code + if acq then 16 else 0)).getLsbD 4 = acq := by
  cases sc <;> cases acq <;> decide
theorem Scope.of_byte (sc : Scope) : Scope.of ((BitVec.ofNat 8 (32 * sc.code)).toNat / 32) = some sc := by
  cases sc <;> rfl
theorem Scope.of_dest (sc : Scope) : Scope.of (BitVec.ofNat 7 sc.code).toNat = some sc := by cases sc <;> rfl
/-- A scope in bits 7:5 above an offset below 32 (R25). -/
theorem Scope.of_offset (sc : Scope) (o : BitVec 8) (h : o.toNat < 32) :
    Scope.of ((BitVec.ofNat 8 (32 * sc.code + o.toNat)).toNat / 32) = some sc ∧
      BitVec.ofNat 8 (32 * sc.code + o.toNat) &&& 0x1F#8 = o := by
  have hs : sc.code < 6 := by cases sc <;> decide
  have hb : 32 * sc.code + o.toNat < 256 := by omega
  refine ⟨by rw [byte_div h hb]; cases sc <;> rfl, BitVec.eq_of_toNat_eq ?_⟩
  rw [BitVec.toNat_and, show (0x1F#8).toNat = 2 ^ 5 - 1 from rfl, Nat.and_two_pow_sub_one_eq_mod]
  exact byte_mod h hb

/-! ## The arguments of the other forms -/

theorem bytes_append {n m : Nat} (x : BitVec (n + m)) : x.extractLsb' m n ++ x.extractLsb' 0 m = x :=
  BitVec.extractLsb'_append_extractLsb'
theorem word_bytes (x : BitVec 16) :
    BitVec.ofNat 8 (x.extractLsb' 8 8).toNat ++ BitVec.ofNat 8 (x.extractLsb' 0 8).toNat = x := by
  rw [BitVec.ofNat_toNat, BitVec.ofNat_toNat, BitVec.setWidth_eq, BitVec.setWidth_eq]
  exact bytes_append (n := 8) (m := 8) x
theorem RArgs.toI_bytes (x : IArgs) (b c : Opnd) (la : Fin 16) : (RArgs.mk x.g x.d x.a b c la).toI
    (BitVec.ofNat 8 (x.imm.extractLsb' 8 8).toNat ++ BitVec.ofNat 8 (x.imm.extractLsb' 0 8).toNat) = x := by
  rw [word_bytes]; rfl
theorem RArgs.toM_byte (x : MArgs) (c : Opnd) :
    (RArgs.mk x.g x.d x.a x.b c x.la).toM (BitVec.ofNat 8 x.off.toNat) = x := by
  rw [BitVec.ofNat_toNat, BitVec.setWidth_eq]; rfl
end Sys2Proof
end

section
/-!
Every instruction is built again from the fields that spell it: O1 and O2.
-/
namespace Sys2Proof

/-- An instruction with a MOD code. -/
theorem Spelled.coded {α : Type} {K : α → RArgs → Instr} (t : α) (x : RArgs) {e : Enc} {r : OpRow} {o : Option α}
    (he : (K t x).enc = some e) (hr : opRow e.opc = some r) (hm : r.mods.testBit (e.md % 8) = true) (ho : o = some t)
    (hx : e.args = x) (hb : buildAt e.opc (e.md % 8) e.args e.fields = o.map (K · e.args))
    (hf : e.Fits r := by exact ⟨rfl, rfl, rfl, rfl, rfl, rfl⟩) : Spelled (K t x) :=
  .of he hr (fun _ => hm) (fun _ => by rw [hb, ho, hx]; rfl) hf

/-- An instruction of the I form with a MOD code. -/
theorem Spelled.imm {α : Type} {K : α → IArgs → Instr} (t : α) (x : IArgs) {e : Enc} {r : OpRow} {o : Option α}
    (he : (K t x).enc = some e) (hr : opRow e.opc = some r) (hm : r.mods.testBit (e.md % 8) = true) (ho : o = some t)
    (hx : e.args.toI (e.fields.b ++ e.fields.c) = x)
    (hb : buildAt e.opc (e.md % 8) e.args e.fields = o.map (K · (e.args.toI (e.fields.b ++ e.fields.c))))
    (hf : e.Fits r := by exact ⟨rfl, rfl, rfl, rfl, rfl, rfl⟩) : Spelled (K t x) :=
  .of he hr (fun _ => hm) (fun _ => by rw [hb, ho, hx]; rfl) hf

/-- An instruction of the M form with a size code. -/
theorem Spelled.mem {α : Type} {K : α → MArgs → Instr} (t : α) (x : MArgs) {e : Enc} {r : OpRow} {o : Option α}
    (he : (K t x).enc = some e) (hr : opRow e.opc = some r) (hm : r.mods.testBit (e.md % 8) = true) (ho : o = some t)
    (hx : e.args.toM e.fields.c = x)
    (hb : buildAt e.opc (e.md % 8) e.args e.fields = o.map (K · (e.args.toM e.fields.c)))
    (hf : e.Fits r := by exact ⟨rfl, rfl, rfl, rfl, rfl, rfl⟩) : Spelled (K t x) :=
  .of he hr (fun _ => hm) (fun _ => by rw [hb, ho, hx]; rfl) hf

/-- An instruction without a code. -/
theorem Spelled.plain {i : Instr} {e : Enc} {r : OpRow} (he : i.enc = some e) (hr : opRow e.opc = some r)
    (hm : r.mods.testBit (e.md % 8) = true) (hb : buildAt e.opc (e.md % 8) e.args e.fields = some i)
    (hf : e.Fits r := by exact ⟨rfl, rfl, rfl, rfl, rfl, rfl⟩) : Spelled i :=
  .of he hr (fun _ => hm) (fun _ => hb) hf

/-- The tests of an entry of its own, which stage 5 makes last. -/
theorem Enc.ok1_of {e : Enc} (h : e.ok1' = true) : e.ok1 = true := by
  simp only [Enc.ok1', Bool.and_eq_true] at h
  exact h.2

/-- An instruction of the J form, whose low byte is no operand's. -/
theorem Spelled.jump {i : Instr} {e : Enc} {r : OpRow} (he : i.enc = some e) (hr : opRow e.opc = some r)
    (ho : decide (e.opc < 256) = true) (hm : r.mods.testBit (e.md % 8) = true)
    (hb : buildAt e.opc (e.md % 8) (e.fields.rargs e.g r (e.opc == 0x99)) e.fields = some i) : Spelled i := by
  intro e' he' _
  obtain rfl : e = e' := Option.some.inj (he.symm.trans he')
  have opc : e.fields.opc.toNat = e.opc := Nat.mod_eq_of_lt (of_decide_eq_true ho)
  exact ⟨by simp only [Fields.stage2, opc, hr]; exact hm, by rw [build_fields hr ho, hb]⟩

theorem low_bits (x : BitVec 8) : x.extractLsb' 5 3 ++ (x.extractLsb' 4 1 ++ x.extractLsb' 0 4) = x := by
  revert x; decide
theorem disp_bytes (x : BitVec 32) : BitVec.ofNat 8 (x.extractLsb' 24 8).toNat ++ (BitVec.ofNat 8 (x.extractLsb' 16 8).toNat ++
    (BitVec.ofNat 8 (x.extractLsb' 8 8).toNat ++ ((x.extractLsb' 0 8).extractLsb' 5 3 ++
      ((x.extractLsb' 0 8).extractLsb' 4 1 ++ (x.extractLsb' 0 8).extractLsb' 0 4)))) = x := by
  simp only [BitVec.ofNat_toNat, BitVec.setWidth_eq]
  rw [low_bits]
  simp (disch := rfl) only [BitVec.extractLsb'_append_extractLsb'_eq_extractLsb']
  exact BitVec.extractLsb'_eq_self
theorem div_bytes (t j : BitVec 16) :
    BitVec.ofNat 8 ((t ++ j).extractLsb' 24 8).toNat ++ BitVec.ofNat 8 ((t ++ j).extractLsb' 16 8).toNat = t ∧
      BitVec.ofNat 8 ((t ++ j).extractLsb' 8 8).toNat ++ (((t ++ j).extractLsb' 0 8).extractLsb' 5 3 ++
        (((t ++ j).extractLsb' 0 8).extractLsb' 4 1 ++ ((t ++ j).extractLsb' 0 8).extractLsb' 0 4)) = j := by
  simp only [BitVec.ofNat_toNat, BitVec.setWidth_eq]
  rw [low_bits]
  simp (disch := decide) only [BitVec.extractLsb'_append_eq_of_add_le, BitVec.extractLsb'_append_eq_of_le]
  exact ⟨bytes_append (n := 8) (m := 8) t, bytes_append (n := 8) (m := 8) j⟩

theorem Spelled.br (g : Guard) (disp : BitVec 32) : Spelled (.br g disp) :=
  .jump rfl rfl rfl no_mods (congrArg (fun d => some (Instr.br g d)) (disp_bytes disp))
theorem Spelled.brd (g : Guard) (t j : BitVec 16) : Spelled (.brd g t j) :=
  .jump rfl rfl rfl no_mods (congr (congrArg (fun x y => some (Instr.brd g x y)) (div_bytes t j).1) (div_bytes t j).2)
theorem Spelled.call (g : Guard) (d : Dest) (disp : BitVec 32) : Spelled (.call g d disp) :=
  .jump rfl rfl rfl no_mods (congr (congrArg (fun x y => some (Instr.call g x y)) (Dest.ofBits_bits d)) (disp_bytes disp))

theorem Spelled.slit (h : Fin 4) (keep : Bool) (x : IArgs) : Spelled (.slit h keep x) := by
  have half : ∀ (h : Fin 4) (k : Bool), let m := BitVec.ofNat 3 (h.val + if k then 4 else 0)
      (m.extractLsb' 0 2).toFin = h ∧ m.getLsbD 2 = k := by decide
  obtain ⟨hh, hk⟩ := half h keep
  exact .plain rfl rfl (all_mods _)
    (congr (congr (congrArg (fun x y z => some (Instr.slit x y z)) hh) hk) (RArgs.toI_bytes x _ _ _))

/-- Opcodes 0x00-0x38. -/
theorem Spelled.scalar {i : Instr} (hs : i.encScalar.isSome = true) : Spelled i := by
  cases i with
  | nop g | exit g | yield g => exact .plain rfl rfl no_mods rfl
  | smov t x | sand t x | sor t x | sxor t x | snot t x | sshl t x | sshr t x | ssar t x | srot t x | spopc t x | sclz t x =>
    exact .coded t x rfl rfl t.mods t.of_code rfl rfl
  | sadd t x | ssub t x | smul t x | smulh t x | smad t x | smin t x | smax t x | scvt t x =>
    exact .coded t x rfl rfl (all_mods _) t.of_code rfl rfl
  | scmp cond t bit x =>
    exact .of rfl rfl (fun h1 => Cmp.mods (of_decide_eq_true (Enc.ok1_of h1))) fun _ =>
      (bind_of cond.of_code).trans ((map_of (t.of_byte bit)).trans
        (congrArg (fun b => some (Instr.scmp cond t b x)) (lowBits_byte (n := 6) bit (by have := t.code_lt; omega))))
  | sbfe t x => exact .coded t x rfl rfl t.mods t.of_code rfl rfl
  | ssel x | sbfi x | brx x | ret x | callx x => exact .plain rfl rfl no_mods rfl
  | slit h keep x => exact .slit h keep x
  | saddImm t x | smulImm t x | sminImm t x | smaxImm t x =>
    exact .imm t x rfl rfl (all_mods _) t.of_code (RArgs.toI_bytes x _ _ _) rfl
  | sandImm t x | sorImm t x | sxorImm t x | sshlImm t x | sshrImm t x | ssarImm t x | srotImm t x | sbfeImm t x =>
    exact .imm t x rfl rfl t.mods t.of_code (RArgs.toI_bytes x _ _ _) rfl
  | sbfiImm x =>
    exact .plain rfl rfl no_mods
      (congrArg (fun y => some (Instr.sbfiImm y)) (RArgs.toI_bytes x _ _ _))
  | br g disp => exact .br g disp
  | brd g t j => exact .brd g t j
  | call g d disp => exact .call g d disp
  | srd r g d => exact .plain rfl rfl no_mods (map_of r.of_byte)
  | _ => simp [Instr.encScalar] at hs

/-- An instruction whose MOD code is one bit. -/
theorem Spelled.flag (nan : Bool) {K : Bool → Instr} {e : Enc} {r : OpRow} (he : (K nan).enc = some e)
    (hr : opRow e.opc = some r)
    (hm : r.mods.testBit (e.md % 8) = true) (hd : e.fields.md.getLsbD 0 = nan)
    (hb : buildAt e.opc (e.md % 8) e.args e.fields = some (K (e.fields.md.getLsbD 0)))
    (hf : e.Fits r := by exact ⟨rfl, rfl, rfl, rfl, rfl, rfl⟩) : Spelled (K nan) :=
  .plain he hr hm (by rw [hb, hd]) hf
theorem flag_md (b : Bool) : (BitVec.ofNat 3 (if b then 1 else 0)).getLsbD 0 = b := by cases b <;> rfl

theorem lowBits_low {n : Nat} (b : Fin (2 ^ n)) (h : 2 ^ n ≤ 256) : lowBits n (BitVec.ofNat 8 b.val) = b := by
  simpa using lowBits_byte (a := 0) b (by omega)

/-- Opcodes 0x40-0x7B. -/
theorem Spelled.vector {i : Instr} (hv : i.encVector.isSome = true) : Spelled i := by
  cases i with
  | vadd t x | vsub t x | vmul t x | vmulh t x | vmad t x | vmin t x | vmax t x | tred t x | tscan t x =>
    exact .coded t x rfl rfl (all_mods _) t.of_code rfl rfl
  | vand t x | vor t x | vxor t x | vnot t x | vshl t x | vshr t x | vsar t x | vpopc t x | vclz t x | vabs t x | vneg t x
  | vbfe t x | fadd t x | fmul t x | ffma t x | fsqrt t x | hadd2F16 t x | hmul2F16 t x | hfma2F16 t x | hadd2Bf16 t x
  | hmul2Bf16 t x | hfma2Bf16 t x | shfl t x =>
    exact .coded t x rfl rfl t.mods t.of_code rfl rfl
  | vbfi x | vsel x | frcp x | frsq x | fex2 x | flg2 x | fsin x | fcos x | bcast x =>
    exact .plain rfl rfl no_mods rfl
  | vcmp cond t bit x =>
    exact .of rfl rfl (fun h1 => Cmp.mods (of_decide_eq_true (Enc.ok1_of h1))) fun _ =>
      (bind_of cond.of_code).trans ((map_of (t.of_byte bit)).trans
        (congrArg (fun b => some (Instr.vcmp cond t b x)) (lowBits_byte (n := 5) bit (by have := t.code_lt; omega))))
  | fcmp cond t bit x =>
    exact .plain rfl rfl (all_mods _)
      ((bind_of cond.of_code).trans ((map_of (t.of_byte bit)).trans
        (congrArg (fun b => some (Instr.fcmp cond t b x)) (lowBits_byte (n := 5) bit (by have := t.code_lt; omega)))))
  | vaddImm t x | vmulImm t x | vminImm t x | vmaxImm t x =>
    exact .imm t x rfl rfl (all_mods _) t.of_code (RArgs.toI_bytes x _ _ _) rfl
  | vandImm t x | vorImm t x | vxorImm t x | vshlImm t x | vshrImm t x | vsarImm t x =>
    exact .imm t x rfl rfl t.mods t.of_code (RArgs.toI_bytes x _ _ _) rfl
  | fmin nan x => exact .flag (K := (.fmin · x)) nan rfl rfl (flag_mods nan) (flag_md nan) rfl
  | fmax nan x => exact .flag (K := (.fmax · x)) nan rfl rfl (flag_mods nan) (flag_md nan) rfl
  | fclass f x => exact .plain rfl rfl no_mods (map_of f.of_byte1)
  | cvt rm dst src x | cvtNosat rm dst src x =>
    exact .plain rfl rfl rm.mods
      ((bind_of rm.of_code).trans ((bind_of (dst.of_byte src).1).trans (map_of (dst.of_byte src).2)))
  | ballot bit x =>
    exact .plain rfl rfl no_mods (congrArg (fun b => some (Instr.ballot b x)) (lowBits_low (n := 5) bit (by decide)))
  | vote op dbit bit x =>
    have hd : lowBits 6 (BitVec.ofNat 8 dbit.val) = dbit := lowBits_low (n := 6) dbit (by decide)
    have hb : lowBits 5 (BitVec.ofNat 8 bit.val) = bit := lowBits_low (n := 5) bit (by decide)
    refine .plain rfl rfl op.mods ((map_of op.of_code).trans ?_)
    show some (Instr.vote op (lowBits 6 (BitVec.ofNat 8 dbit.val)) (lowBits 5 (BitVec.ofNat 8 bit.val)) x) = _
    rw [hd, hb]
  | _ => simp [Instr.encVector] at hv

theorem tag_md (n : Fin 8) : (BitVec.ofNat 3 n.val).toFin = n := by revert n; decide

/-- Opcodes 0x80-0x99. -/
theorem Spelled.memory {i : Instr} (hm : i.encMemory.isSome = true) : Spelled i := by
  cases i with
  | ld t x | st t x | lds t x | sts t x => exact .mem t x rfl rfl t.mods t.of_code (RArgs.toM_byte x _) rfl
  | pref t x => exact .mem t x rfl rfl t.mods t.of_code (RArgs.toM_byte x _) rfl
  | ldAcq t sc x =>
    refine .of rfl rfl (fun _ => t.mods) fun h1 => ?_
    obtain ⟨hs, ho⟩ := sc.of_offset x.off (of_decide_eq_true (Enc.ok1_of h1))
    exact (bind_of t.of_code).trans ((map_of hs).trans
      (congrArg (fun o => some (Instr.ldAcq t sc ⟨x.g, x.d, x.a, x.b, o, x.la⟩)) ho))
  | stRel t sc x =>
    refine .of rfl rfl (fun _ => t.mods) fun h1 => ?_
    obtain ⟨hs, ho⟩ := sc.of_offset x.off (of_decide_eq_true (Enc.ok1_of h1))
    exact (bind_of t.of_code).trans ((map_of hs).trans
      (congrArg (fun o => some (Instr.stRel t sc ⟨x.g, x.d, x.a, x.b, o, x.la⟩)) ho))
  | atom op sc o t x | atoms op sc o t x =>
    exact .plain rfl rfl (all_mods _) ((bind_of op.of_code).trans (map_of (atomCodes_byte sc o t)))
  | atomCas sc o t x | atomsCas sc o t x => exact .plain rfl rfl no_mods (map_of (atomCodes_byte sc o t))
  | red op sc o t x =>
    refine .of rfl rfl (fun h1 => AT.mods_red ?_) fun _ => (bind_of op.of_code).trans (map_of (atomCodes_byte sc o t))
    have h := Enc.ok1_of h1
    simp only [Bool.and_eq_true, bne_iff_ne] at h
    exact ⟨h.1.2, h.2⟩
  | rdo x | rdoset x | vflr x | vqry x | lease x | unlease x => exact .plain rfl rfl no_mods rfl
  | ldv t sc acq x =>
    exact .plain rfl rfl t.mods ((bind_of t.of_code).trans ((map_of (sc.of_versionByte acq).1).trans
      (congrArg (fun a => some (Instr.ldv t sc a x)) (sc.of_versionByte acq).2)))
  | ldvLatest t sc acq x =>
    exact .of rfl rfl (fun h1 => SZV.mods_latest (bne_iff_ne.1 (Enc.ok1_of h1))) fun _ =>
      (bind_of t.of_code).trans ((map_of (sc.of_versionByte acq).1).trans
        (congrArg (fun a => some (Instr.ldvLatest t sc a x)) (sc.of_versionByte acq).2))
  | stv t x | cctl t x => exact .coded t x rfl rfl t.mods t.of_code rfl rfl
  | stvRel t sc x => exact .plain rfl rfl t.mods ((bind_of t.of_code).trans (map_of sc.of_dest))
  | acp tag x => exact .plain rfl rfl (all_mods _) (congrArg (fun n => some (Instr.acp n x)) (tag_md tag))
  | acpw tag g => exact .plain rfl rfl (all_mods _) (congrArg (fun n => some (Instr.acpw n g)) (tag_md tag))
  | fence op sc g => exact .plain rfl rfl op.kind.mods ((bind_of op.kind.of_code).trans (map_of sc.of_byte))
  | _ => simp [Instr.encMemory] at hm

/-- The arguments of the X form (R26). -/
theorem Enc.toX_fields {e : Enc} (x : XArgs) (hl : e.low = Option.none) (hg : e.g = x.g) (hd : e.d.dest = x.d)
    (ha : e.a.opnd = x.a) (hla : e.la = x.la) (hb : e.fields.b = BitVec.ofNat 8 x.bnd.val)
    (hc : e.fields.c = BitVec.ofNat 8 (64 * x.acc.val + x.xo.val)) (hr : e.reu = x.reu) :
    e.args.toX e.fields = x := by
  have bnd : (BitVec.ofNat 8 x.bnd.val).toFin = x.bnd := Fin.ext (Nat.mod_eq_of_lt x.bnd.isLt)
  have acc : ∀ (a : Fin 4) (o : Fin 64), let c := BitVec.ofNat 8 (64 * a.val + o.val)
      (c.extractLsb' 6 2).toFin = a ∧ (c.extractLsb' 0 6).toFin = o := by decide
  have reu : ∀ b : Bool, (bit1 b == 1#1) = b := by decide
  obtain ⟨-, -, -, hreu, -⟩ := Enc.fields_lr hl
  simp only [RArgs.toX, hb, hc, hreu, hr, bnd, reu, Enc.args, hg, hd, ha, hla, (acc x.acc x.xo).1, (acc x.acc x.xo).2]

theorem Instr.enc_mfmt (x : XArgs) : (Instr.mfmt x).enc = some (if x.a = Opnd.none
    then encX 0xA0 0 x (.none x.d) (.none x.a) true false 0 false
    else encX 0xA0 0 x (.none x.d) (.op x.a .sreg) false false 0 false) := by
  by_cases h : x.a = Opnd.none <;>
    simp [Instr.enc, Instr.encScalar, Instr.encVector, Instr.encMemory, Instr.encMatrix, h]

theorem Spelled.mfmt (x : XArgs) : Spelled (.mfmt x) := by
  have he := Instr.enc_mfmt x
  split at he
  · exact .plain he rfl no_mods (congrArg (fun y => some (Instr.mfmt y)) (Enc.toX_fields x rfl rfl rfl rfl rfl rfl rfl rfl))
  · exact .plain he rfl no_mods (congrArg (fun y => some (Instr.mfmt y)) (Enc.toX_fields x rfl rfl rfl rfl rfl rfl rfl rfl))

/-- An instruction of the X form without a code. -/
theorem Spelled.xform {K : XArgs → Instr} (x : XArgs) {e : Enc} {r : OpRow} (he : (K x).enc = some e)
    (hr : opRow e.opc = some r)
    (hm : r.mods.testBit (e.md % 8) = true) (hx : e.args.toX e.fields = x)
    (hb : buildAt e.opc (e.md % 8) e.args e.fields = some (K (e.args.toX e.fields)))
    (hf : e.Fits r := by exact ⟨rfl, rfl, rfl, rfl, rfl, rfl⟩) : Spelled (K x) :=
  .plain he hr hm (by rw [hb, hx]) hf

/-- Opcodes 0xA0-0xB4. -/
theorem Spelled.matrix {i : Instr} (hx : i.encMatrix.isSome = true) : Spelled i := by
  cases i with
  | mfmt x => exact .mfmt x
  | mma set x =>
    exact .plain rfl rfl (flag_mods set) (congr (congrArg (fun b y => some (Instr.mma b y)) (flag_md set))
      (Enc.toX_fields x rfl rfl rfl rfl rfl rfl rfl rfl))
  | mloop set x =>
    exact .plain rfl rfl (flag_mods set) (congr (congrArg (fun b y => some (Instr.mloop b y)) (flag_md set))
      (Enc.toX_fields x rfl rfl rfl rfl rfl rfl rfl rfl))
  | mst f x =>
    exact .plain rfl rfl f.mods ((map_of f.of_code).trans
      (congrArg (fun y => some (Instr.mst f y)) (Enc.toX_fields x rfl rfl rfl rfl rfl rfl rfl rfl)))
  | mzero x | mld x | sgo x | sstop x | sqry x =>
    exact .xform x rfl rfl no_mods (Enc.toX_fields x rfl rfl rfl rfl rfl rfl rfl rfl) rfl
  | mwait g | qfence x | bcp x => exact .plain rfl rfl no_mods rfl
  | _ => simp [Instr.encMatrix] at hx

/-- The edge and length of an `emitx` (R42). -/
theorem emitx_byte (len : Fin 16) (edge : Fin 8) : lowBits 4 (BitVec.ofNat 8 (16 * edge.val + len.val)) = len ∧
    ((BitVec.ofNat 8 (16 * edge.val + len.val)).extractLsb' 4 3).toFin = edge := by
  revert len edge; decide

/-- Opcodes 0xC0-0xD5. -/
theorem Spelled.record {i : Instr} (hr : i.encRecord.isSome = true) : Spelled i := by
  cases i with
  | qpop q x => exact .plain rfl rfl no_mods (congrArg (fun k => some (Instr.qpop k x)) (lowBits_low (n := 5) q (by decide)))
  | qpush q x => exact .plain rfl rfl no_mods (congrArg (fun k => some (Instr.qpush k x)) (lowBits_low (n := 5) q (by decide)))
  | qrel q x => exact .plain rfl rfl no_mods (congrArg (fun k => some (Instr.qrel k x)) (lowBits_low (n := 5) q (by decide)))
  | qstat q x => exact .plain rfl rfl no_mods (congrArg (fun k => some (Instr.qstat k x)) (lowBits_low (n := 5) q (by decide)))
  | qtry q x => exact .plain rfl rfl no_mods (congrArg (fun k => some (Instr.qtry k x)) (lowBits_low (n := 5) q (by decide)))
  | aset x | aadd x | await x | aqry x | rrd x | rlen x => exact .plain rfl rfl no_mods rfl
  | emit edge x => exact .plain rfl rfl (all_mods _) (congrArg (fun n => some (Instr.emit n x)) (tag_md edge))
  | emitTeam edge x => exact .plain rfl rfl (all_mods _) (congrArg (fun n => some (Instr.emitTeam n x)) (tag_md edge))
  | emitx len edge x =>
    exact .plain rfl rfl no_mods
      (congr (congrArg (fun l n => some (Instr.emitx l n x)) (emitx_byte len edge).1) (emitx_byte len edge).2)
  | emitxTeam len edge x =>
    exact .plain rfl rfl no_mods
      (congr (congrArg (fun l n => some (Instr.emitxTeam l n x)) (emitx_byte len edge).1) (emitx_byte len edge).2)
  | _ => simp [Instr.encRecord] at hr

/-- The register number of a `sysrd` or `syswr` in the bytes B and C. -/
theorem sys_bytes (n : BitVec 16) : BitVec.ofNat 8 (sysB n) ++ BitVec.ofNat 8 (sysC n) = n := word_bytes n

theorem Spelled.sysrd (n : BitVec 16) (g : Guard) (d : Dest) : Spelled (.sysrd n g d) := by
  refine .of rfl rfl (fun _ => no_mods) fun h1 => ?_
  have h := Enc.ok1_of h1
  simp only [encSysrd, Bool.and_eq_true, bne_iff_ne] at h
  show (if BitVec.ofNat 8 (sysB n) ++ BitVec.ofNat 8 (sysC n) = 0x0113#16 then some (Instr.dbgdataRead g d)
    else some (.sysrd (BitVec.ofNat 8 (sysB n) ++ BitVec.ofNat 8 (sysC n)) g d)) = _
  rw [sys_bytes, if_neg h.2]

/-- A `syswr` is read as the write that has its register's row (R222). -/
theorem Spelled.syswr {i : Instr} {w : SysWr} {row : SysRow} (he : i.enc = encSyswr w row)
    (hb : sysRow w.n.toNat = row → buildSyswr w.n w = i) : Spelled i := by
  obtain ⟨n, ⟨g, a⟩ | ⟨p, v⟩⟩ := w
  · refine .of he rfl (fun _ => no_mods) fun h1 => ?_
    have h := Enc.ok1_of h1
    simp only [Bool.and_eq_true, beq_iff_eq] at h
    show some (buildSyswr (BitVec.ofNat 8 (sysB n) ++ BitVec.ofNat 8 (sysC n))
      ⟨BitVec.ofNat 8 (sysB n) ++ BitVec.ofNat 8 (sysC n), .team g a⟩) = some i
    rw [sys_bytes, hb h.2]
  · intro e he'
    rw [he] at he'
    cases he'

theorem tret_mods (m : Fin 4) : Nat.testBit 0x0F (m.val % 8) = true := by revert m; decide
theorem number_byte (n : BitVec 8) : BitVec.ofNat 8 n.toNat = n := by rw [BitVec.ofNat_toNat, BitVec.setWidth_eq]

/-- Opcodes 0xE0-0xEB. -/
theorem Spelled.system (i : Instr) (hs : i.encScalar = none) (hv : i.encVector = none) (hm : i.encMemory = none)
    (hx : i.encMatrix = none) (hr : i.encRecord = none) : Spelled i := by
  cases i with
  | trap n g => exact .plain rfl rfl no_mods (congrArg (fun k => some (Instr.trap k g)) (number_byte n))
  | bkpt n g => exact .plain rfl rfl no_mods (congrArg (fun k => some (Instr.bkpt k g)) (number_byte n))
  | tretFix g => exact .plain rfl rfl (tret_mods 0) rfl
  | tretSkip g => exact .plain rfl rfl (tret_mods 1) rfl
  | tretRetry g => exact .plain rfl rfl (tret_mods 2) rfl
  | tretKill g => exact .plain rfl rfl (tret_mods 3) rfl
  | sysrd n g d => exact .sysrd n g d
  | dbgdataRead g d => exact .plain rfl rfl no_mods (if_pos (sys_bytes 0x0113#16))
  | ckpt x | tmark x | ringrst x | presize x | plend x | prevoke x | pgret x => exact .plain rfl rfl no_mods rfl
  | syswr w | gptrootWrite w | hptrootWrite w | scrsplitWrite w | domcfgWrite w | dtimeWrite w | gtoffWrite w | modeWrite w
  | saferstWrite w | profctlWrite w | pmselWrite w | trcctlWrite w | dbgdataWrite w =>
    exact .syswr rfl fun h => by simp only [buildSyswr, h]
  | _ =>
    intro e he
    simp_all [Instr.enc, Instr.encScalar, Instr.encVector, Instr.encMemory, Instr.encMatrix, Instr.encRecord, Instr.encSystem]

/-- Every instruction is spelled by its encoding. -/
theorem spelled (i : Instr) : Spelled i := by
  cases hs : i.encScalar with
  | some e => exact .scalar (by rw [hs]; rfl)
  | none =>
  cases hv : i.encVector with
  | some e => exact .vector (by rw [hv]; rfl)
  | none =>
  cases hm : i.encMemory with
  | some e => exact .memory (by rw [hm]; rfl)
  | none =>
  cases hx : i.encMatrix with
  | some e => exact .matrix (by rw [hx]; rfl)
  | none =>
  cases hr : i.encRecord with
  | some e => exact .record (by rw [hr]; rfl)
  | none => exact .system i hs hv hm hx hr

/-- A row that a written value picks out has no word. -/
theorem Instr.enc_of_valueRow {i : Instr} (h : i.valueRow.isSome = true) : i.enc = none := by
  cases i with
  | vrcmdCreate w | vrcmdDestroy w | ringcbEnable w | ringcbDisable w | pctlFreeze w | pctlThaw w | pctlReset w
  | dbgrunResume w | dbgrunStep w | dbgrunSkip w | dbgrunKill w | dbgrunHalt w | rplctlLog w | rplctlGo w => rfl
  | _ => simp [Instr.valueRow] at h

theorem Instr.wf_of_enc {i : Instr} {e : Enc} (he : i.enc = some e) : i.wf = (e.ok1' && e.ok3') := by
  cases hv : i.valueRow with
  | none => simp only [Instr.wf, hv, he]
  | some r =>
    rw [Instr.enc_of_valueRow (by rw [hv]; rfl)] at he
    cases he

/-- What the decoder accepts: the fields of an encoding that passes its tests, and of the instruction it builds. -/
theorem Fields.stage56_ok {f : Fields} {i : Instr} (h : f.stage56 = .ok i) :
    ∃ e, i.enc = some e ∧ e.fields = f ∧ e.ok1' = true ∧ e.ok3' = true := by
  unfold Fields.stage56 at h
  split at h
  · cases h
  next j hb =>
  split at h
  · cases h
  next e he =>
  by_cases h1 : e.fields = f ∧ e.ok1' = true
  · rw [if_pos h1] at h
    by_cases h3 : e.ok3' = true
    · rw [if_pos h3] at h
      obtain rfl := Except.ok.inj h
      exact ⟨e, he, h1.1, h1.2, h3⟩
    · rw [if_neg h3] at h
      cases h
  · rw [if_neg h1] at h
    cases h

end Sys2Proof

/-- Settles O1: the encoder's fields unpack to themselves, and every instruction is built again from the fields that spell it. -/
theorem decodeOfEncode : Obligations.DecodeOfEncode := by
  unfold Obligations.DecodeOfEncode
  intro i w hwf hw
  obtain ⟨e, he, rfl⟩ := Option.map_eq_some_iff.1 hw
  rw [Sys2Proof.Instr.wf_of_enc he, Bool.and_eq_true] at hwf
  obtain ⟨h1, h3⟩ := hwf
  obtain ⟨h2, hb⟩ := Sys2Proof.spelled i e he h1
  simp only [Sys2Proof.decodeWord, Sys2Proof.Fields.unpack_pack, h2, if_true, Sys2Proof.Fields.stage56, hb, he, h1, h3, and_self]

/-- Settles O2: the decoder accepts a word only where the encoding of the instruction it builds has the word's own fields. -/
theorem encodeOfDecode : Obligations.EncodeOfDecode := by
  unfold Obligations.EncodeOfDecode
  intro i w h
  simp only [Sys2Proof.decodeWord] at h
  split at h
  · obtain ⟨e, he, hf, h1, h3⟩ := Sys2Proof.Fields.stage56_ok h
    exact ⟨by simp only [Sys2Proof.encode, he, Option.map_some, hf, Sys2Proof.Fields.pack_unpack],
      by rw [Sys2Proof.Instr.wf_of_enc he, h1, h3]; rfl⟩
  · cases h
end

section
/-! PROOF. Obligations O3 and O4: words that the manual writes out, and what one step runs. -/

/-- Settles O3: the decoder evaluated at each of the eleven words. -/
theorem wordsOfTheManual : Obligations.WordsOfTheManual := by
  unfold Obligations.WordsOfTheManual
  refine ⟨?_, ?_, ?_, ?_, ?_, ?_, ?_, ?_, ?_, ?_, ?_⟩ <;> rfl

namespace Sys2Proof.Machine

/-- A team inside a clause is met at the word of its clause at its PC. -/
theorem State.fetched_of_clause {s : State} {t : Team} {c : Clause} (hc : s.cur = some t) (hcl : t.r.cl = some c) :
    s.fetched = .word (decodeWord (c.words.getD (c.at t.r.pc) 0)) := by
  simp only [State.fetched, hc, hcl, Team.word]

/-- Inside a clause whose word decodes, an issue runs the instruction of the word. -/
theorem issueStep_of_clause {s : State} {t : Team} {c : Clause} {i : Instr} (hc : s.switched.cur = some t)
    (hcl : t.r.cl = some c) (hi : decodeWord (c.words.getD (c.at t.r.pc) 0) = .ok i) :
    issueStep s = exec i s.switched := by
  simp only [issueStep, State.fetched_of_clause hc hcl, hi]

/-- What `other` finds is another ready team of the same slot. -/
theorem State.other_spec {s : State} {t u : Team} (h : s.other t = some u) :
    u.id ≠ t.id ∧ u.core = t.core ∧ u.slot = t.slot ∧ s.ready u = true := by
  have hp := List.find?_some h
  simpa only [Bool.and_eq_true, bne_iff_ne, ne_eq, beq_iff_eq, and_assoc] using hp

end Sys2Proof.Machine

open Sys2Proof Sys2Proof.Machine in
/-- Settles O4: the fetch reads the clause's word, and the switch is the one that `other` finds. -/
theorem stepRunsDecoded : Obligations.StepRunsDecoded := by
  unfold Obligations.StepRunsDecoded
  refine ⟨?_, ?_, ?_, ?_⟩
  · intro s t c i ha hs hc hcl hi
    simp only [step, ha, hs, Bool.false_eq_true, if_false, issueStep_of_clause hc hcl hi]
  · intro s t hc hy
    simp [State.switched, hc, hy]
  · intro s t u hc hy hu
    refine ⟨?_, State.other_spec hu⟩
    simp [State.switched, hc, hy, hu]
  · intro s i e r ha hi
    simp only [step, ha, eventStep, hi, if_true]
end

section
/-! PROOF. Obligation O10: scalar arithmetic in the terms of bit vectors (R85, R88). -/
namespace Sys2Proof.Machine

/-- The signed reading of the low `w` bits is that of a word cut to `w` bits. -/
theorem lowS_eq_toInt (w : Nat) (hw : w = 64 ∨ w = 32 ∨ w = 16 ∨ w = 8) (x : W64) : lowS w x = (x.setWidth w).toInt := by
  rcases hw with rfl | rfl | rfl | rfl <;>
    simp only [lowS, lowU, BitVec.toInt_eq_toNat_cond, BitVec.toNat_setWidth, Nat.reducePow, Nat.reduceSub, Int.reducePow] <;>
    omega

/-- Keeping the low `w` bits with their sign is an extension of a word cut to `w` bits. -/
theorem keepS_eq_signExtend (w : Nat) (hw : w = 64 ∨ w = 32 ∨ w = 16 ∨ w = 8) (v : Nat) :
    keepS w v = ((BitVec.ofNat 64 v).setWidth w).signExtend 64 := by
  rw [keepS, lowS_eq_toInt w hw]; rfl

/-- The low bits of a remainder by a power of two are those of the number. -/
theorem setWidth_ofNat_emod (w : Nat) (hw : w = 64 ∨ w = 32 ∨ w = 16 ∨ w = 8) (v : Int) :
    (BitVec.ofNat 64 (v % 2 ^ w).toNat).setWidth w = (BitVec.ofInt 64 v).setWidth w := by
  apply BitVec.eq_of_toNat_eq
  rcases hw with rfl | rfl | rfl | rfl <;>
    simp only [BitVec.toNat_setWidth, BitVec.toNat_ofNat, BitVec.toNat_ofInt, Nat.reducePow, Int.reducePow] <;> omega

/-- The number that `iVal` reads is the one that `value` names. -/
theorem iVal_eq_value (t : IW) (x : W64) : iVal t x = value t x := by
  cases t
  case i64 | i32 | i16 | i8 =>
    simp [iVal, value, narrow, iwSigned, iwBits, lowS_eq_toInt, BitVec.toInt_signExtend_of_le]
  case n64 =>
    simp only [iVal, value, narrow, iwSigned, iwBits, lowU, Bool.false_eq_true, if_false]
    omega
  case n32 | n16 | n8 =>
    simp only [iVal, value, narrow, iwSigned, iwBits, lowU, Bool.false_eq_true, if_false, BitVec.toNat_setWidth]
    omega

/-- A result brought to its type (R85) is its low bits, extended again. -/
theorem iRes_eq_narrow (t : IW) (v : Int) : iRes t v = narrow t (BitVec.ofInt 64 v) := by
  cases t
  case i64 =>
    simp only [iRes, narrow, iwSigned, iwBits, if_true, keepS_eq_signExtend 64 (by simp), setWidth_ofNat_emod 64 (by simp)]
    simp
  case i32 | i16 | i8 =>
    simp only [iRes, narrow, iwSigned, iwBits, if_true]
    rw [keepS_eq_signExtend _ (by simp), setWidth_ofNat_emod _ (by simp)]
  case n64 | n32 | n16 | n8 =>
    apply BitVec.eq_of_toNat_eq
    simp only [iRes, narrow, iwSigned, iwBits, keepU, Bool.false_eq_true, if_false, BitVec.toNat_setWidth, BitVec.toNat_ofNat,
      BitVec.toNat_ofInt]
    omega

/-- What a type keeps of a number depends on its low bits only. -/
theorem narrow_ofInt_congr {t : IW} {u v : Int} (h : u % 2 ^ iwBits t = v % 2 ^ iwBits t) :
    narrow t (BitVec.ofInt 64 u) = narrow t (BitVec.ofInt 64 v) := by
  rw [← iRes_eq_narrow, ← iRes_eq_narrow, iRes, iRes, h]

/-- A value and the word it is read from agree in the low bits. -/
theorem iVal_emod (t : IW) (x : W64) : iVal t x % 2 ^ iwBits t = x.toInt % 2 ^ iwBits t := by
  rw [BitVec.toInt_eq_toNat_cond]
  cases t <;> simp only [iVal, iwSigned, iwBits, lowS, lowU, Bool.false_eq_true, if_true, if_false, Nat.reducePow,
    Nat.reduceSub, Int.reducePow] <;> omega

theorem iAdd_eq (t : IW) (x y : W64) : iAdd t x y = narrow t (x + y) := by
  have h : (iVal t x + iVal t y) % 2 ^ iwBits t = (x.toInt + y.toInt) % 2 ^ iwBits t := by
    rw [Int.add_emod, iVal_emod t x, iVal_emod t y, ← Int.add_emod]
  rw [iAdd, iRes_eq_narrow, narrow_ofInt_congr h, BitVec.ofInt_add, BitVec.ofInt_toInt, BitVec.ofInt_toInt]
theorem iMul_eq (t : IW) (x y : W64) : iMul t x y = narrow t (x * y) := by
  have h : (iVal t x * iVal t y) % 2 ^ iwBits t = (x.toInt * y.toInt) % 2 ^ iwBits t := by
    rw [Int.mul_emod, iVal_emod t x, iVal_emod t y, ← Int.mul_emod]
  rw [iMul, iRes_eq_narrow, narrow_ofInt_congr h, BitVec.ofInt_mul, BitVec.ofInt_toInt, BitVec.ofInt_toInt]
theorem iSub_eq (t : IW) (x y : W64) : iSub t x y = narrow t (x - y) := by
  have h : (iVal t x - iVal t y) % 2 ^ iwBits t = (x.toInt - y.toInt) % 2 ^ iwBits t := by
    rw [Int.sub_emod, iVal_emod t x, iVal_emod t y, ← Int.sub_emod]
  rw [iSub, iRes_eq_narrow, narrow_ofInt_congr h, Int.sub_eq_add_neg, BitVec.ofInt_add, BitVec.ofInt_neg,
    BitVec.ofInt_toInt, BitVec.ofInt_toInt, BitVec.sub_eq_add_neg]
theorem iMad_eq (t : IW) (x y z : W64) : iMad t x y z = narrow t (x * y + z) := by
  have h : (iVal t x * iVal t y + iVal t z) % 2 ^ iwBits t = (x.toInt * y.toInt + z.toInt) % 2 ^ iwBits t := by
    rw [Int.add_emod, Int.mul_emod, iVal_emod t x, iVal_emod t y, iVal_emod t z, ← Int.mul_emod, ← Int.add_emod]
  rw [iMad, iRes_eq_narrow, narrow_ofInt_congr h, BitVec.ofInt_add, BitVec.ofInt_mul, BitVec.ofInt_toInt, BitVec.ofInt_toInt,
    BitVec.ofInt_toInt]
theorem iMulh_eq (t : IW) (x y : W64) :
    iMulh t x y = narrow t (BitVec.ofInt 64 (value t x * value t y / 2 ^ iwBits t)) := by
  rw [iMulh, iRes_eq_narrow, iVal_eq_value, iVal_eq_value]
/-- A value that is kept again in its own type. -/
theorem iRes_iVal (t : IW) (x : W64) : iRes t (iVal t x) = narrow t x := by
  rw [iRes_eq_narrow, narrow_ofInt_congr (iVal_emod t x), BitVec.ofInt_toInt]
theorem iMin_eq (t : IW) (x y : W64) : iMin t x y = narrow t (if value t x ≤ value t y then x else y) := by
  rw [iMin, Int.min_def, iVal_eq_value t x, iVal_eq_value t y]
  split <;> rw [← iVal_eq_value, iRes_iVal]
theorem iMax_eq (t : IW) (x y : W64) : iMax t x y = narrow t (if value t x ≤ value t y then y else x) := by
  rw [iMax, Int.max_def, iVal_eq_value t x, iVal_eq_value t y]
  split <;> rw [← iVal_eq_value, iRes_iVal]

/-- One bit of a word is set, the others kept. -/
theorem putBit_eq (x : W64) (b : Nat) (v : Bool) :
    putBit x b v = if v then (x &&& ~~~(1#64 <<< b)) ||| 1#64 <<< b else x &&& ~~~(1#64 <<< b) := by
  cases v <;> simp [putBit]

end Sys2Proof.Machine

open Sys2Proof Sys2Proof.Machine in
/-- Settles O10: each instruction's value is the one that its type keeps of the bit vectors' own arithmetic. -/
theorem scalarArithmetic : Obligations.ScalarArithmetic := by
  unfold Obligations.ScalarArithmetic
  intro ty x y k ct b
  refine ⟨?_, ?_, ?_, ?_, ?_, ?_, ?_, ?_, ?_, ?_, ?_, ?_, ?_⟩ <;>
    refine Completes.of_ok (fun _ => rfl) fun s t _ => ?_
  · simp only [scal2, iAdd_eq]; rfl
  · simp only [scal2, iSub_eq]; rfl
  · simp only [scal2, iMul_eq]; rfl
  · simp only [scal2, iMulh_eq]; rfl
  · simp only [scal3, iMad_eq]; rfl
  · simp only [scalI, iAdd_eq]; rfl
  · simp only [scalI, iMul_eq]; rfl
  · simp only [scal2, iMin_eq]; rfl
  · simp only [scal2, iMax_eq]; rfl
  · simp only [scalI, iMin_eq]; rfl
  · simp only [scalI, iMax_eq]; rfl
  · simp only [scmpEff, putBit_eq, iVal_eq_value]; rfl
  · rfl
end

section
/-! PROOF. Obligations O20 and O9: control transfers, and what the start and the end of an instruction do. -/

open Sys2Proof Sys2Proof.Machine in
/-- Settles O20: each of the five answers with its target, and the link is the next clause's address. -/
theorem controlTransfers : Obligations.ControlTransfers := by
  unfold Obligations.ControlTransfers
  intro g d disp x
  refine ⟨?_, ?_, ?_, ?_, ?_⟩ <;> exact Transfers.of_goto (fun _ => rfl) fun _ _ _ => rfl

namespace Sys2Proof.Machine

/-! ## The account of an issue (R409) -/

theorem State.addPasses_counts (s : State) (t : Team) (l : List Pass) : OnlyCounts s (s.addPasses t l) := .modCore _ _ _
theorem State.lccPasses_counts (s : State) (t : Team) (ws act : List Nat) (clk : Nat) :
    OnlyCounts s (s.lccPasses t ws act clk) := s.addPasses_counts t _
theorem State.lccActive_counts (s : State) (t : Team) (clk : Nat) : OnlyCounts s (s.lccActive t clk) :=
  s.addPasses_counts t _

/-- The account of an issue moves counters and the passes of the core alone. -/
theorem State.account_counts (s : State) (t : Team) (e : Enc) (on : Bool) : OnlyCounts s (s.account t e on) := by
  unfold State.account
  split
  · exact .refl s
  · split
    · exact .refl s
    · split
      · exact (OnlyCounts.countEvent s _ _ _ _).trans (State.lccPasses_counts _ _ _ _ _)
      · split
        · dsimp only
          split
          · exact (State.lccPasses_counts _ _ _ _ _).trans (State.lccActive_counts _ _ _)
          · exact State.lccPasses_counts _ _ _ _ _
        · exact s.lccActive_counts t 1

/-! ## The team in which an effect starts -/

@[simp] theorem Team.noteUndo_id (t : Team) (e : Enc) (a : Access) : (t.noteUndo e a).id = t.id := by
  simp only [Team.noteUndo]
  split
  · exact t.displace_id _ _
  · rfl

/-- The team as its instruction's effect finds it: undo kept, overtaken results dropped, last-read registers released. -/
def Team.startedAs (t : Team) (e : Enc) (a : Access) : Team :=
  { (t.noteUndo e a).overtake t.icount (killsOf t e a) with r := t.r.releaseAll a.lr }

theorem Team.startedAs_id (t : Team) (e : Enc) (a : Access) : (t.startedAs e a).id = t.id := t.noteUndo_id e a
theorem Team.startedAs_r (t : Team) (e : Enc) (a : Access) : (t.startedAs e a).r = t.r.releaseAll a.lr := rfl

theorem State.prepare_eq (s : State) (t : Team) (e : Enc) (a : Access) :
    s.prepare t e a = (s.setTeam (t.startedAs e a)).account t e true := rfl

theorem State.prepare_counts (s : State) (t : Team) (e : Enc) (a : Access) :
    OnlyCounts (s.setTeam (t.startedAs e a)) (s.prepare t e a) := State.account_counts _ _ _ _

theorem State.team?_prepare (s : State) (t : Team) (e : Enc) (a : Access) :
    (s.prepare t e a).team? t.id = some (t.startedAs e a) := by
  have h := State.team?_setTeam_same s (t.startedAs e a)
  rw [t.startedAs_id] at h
  rw [State.team?, (s.prepare_counts t e a).teams]
  exact h

/-! ## Registers released -/

/-- A table of which only the keys that `f` names are kept. -/
theorem Table.get?_filter_key {α : Type} (t : Table α) (f : Nat → Bool) (k : Nat) :
    Table.get? (t.filter fun x => f x.1) k = if f k then t.get? k else none := by
  induction t with
  | nil => simp
  | cons x r ih =>
    obtain ⟨a, v⟩ := x
    by_cases hf : f a = true <;> by_cases ha : a = k
    · subst ha; simp [Table.get?, hf]
    · simp [Table.get?, hf, ha, ih]
    · subst ha; simp [hf, ih]
    · simp [Table.get?, hf, ha, ih]

/-- Past an instruction that is not its clause's last, the team has retired it and stands at the next word. -/
theorem State.team?_advance {s : State} {t u : Team} (hl : t.isLast = false) (hu : s.team? t.id = some u)
    (hid : u.id = t.id) :
    (s.advance t).team? t.id = some { u.retired with r := { u.r with pc := t.r.pc + 8#64 } } := by
  have hr := State.team?_modTeam_same Team.retired hu hid
  simp only [State.advance, State.moveOn, hl, Bool.false_eq_true, if_false]
  exact State.team?_modTeam_same _ hr hid

theorem vkey_div {n w : Nat} (hw : w < 32) : vkey n w / 32 = n := by unfold vkey; omega

theorem Regs.entry_release (r : Regs) (n k : Nat) {w : Nat} (hw : w < 32) :
    (r.release n).entry k w = if k = n then .none else r.entry k w := by
  have h := Table.get?_filter_key r.v (fun j => j / 32 != n) (vkey k w)
  simp only [Regs.entry, Regs.release, Table.get]
  rw [show (r.v.filter fun x => x.1 / 32 != n) = (r.v.filter fun (x, _) => x / 32 != n) from rfl] at h
  rw [h, vkey_div hw]
  by_cases hk : k = n <;> simp [hk]

/-- Releasing registers empties them in every mask word and leaves the others. -/
theorem Regs.entry_releaseAll (r : Regs) (l : List Nat) (k : Nat) {w : Nat} (hw : w < 32) :
    (r.releaseAll l).entry k w = if k ∈ l then .none else r.entry k w := by
  induction l generalizing r with
  | nil => simp [Regs.releaseAll]
  | cons n l ih =>
    rw [Regs.releaseAll, ih, Regs.entry_release r n k hw]
    by_cases hn : k = n <;> by_cases hl : k ∈ l <;> simp [hn, hl]

/-- A release changes the entries of vector registers alone. -/
theorem Regs.releaseAll_with_v (r : Regs) (l : List Nat) : ∃ v, r.releaseAll l = { r with v := v } := by
  induction l generalizing r with
  | nil => exact ⟨r.v, rfl⟩
  | cons n l ih => exact (ih (r.release n)).imp fun _ h => h

end Sys2Proof.Machine

open Sys2Proof Sys2Proof.Machine in
/-- Settles O9: a word that is not the last leads to the next one; a start releases what is read for the last time. -/
theorem issueBeginsAndEnds : Obligations.IssueBeginsAndEnds := by
  unfold Obligations.IssueBeginsAndEnds
  refine ⟨?_, ?_⟩
  · intro s t u hl hu hid
    exact ⟨_, State.team?_advance hl hu hid, by simp [Team.retired]⟩
  · intro n s1 t e
    have hc := s1.prepare_counts t e (encAccess e (n s1 t))
    obtain ⟨v, hv⟩ := t.r.releaseAll_with_v (encAccess e (n s1 t)).lr
    refine ⟨_, s1.team?_prepare t e _, ?_, ?_, by simp [Team.startedAs_r, hv], by simp [Team.startedAs_r, hv],
      by simp [Team.startedAs_r, hv], by simp [Team.startedAs_r, hv], by simp [Team.startedAs_r, hv],
      fun a => State.memByte_congr hc.mem hc.mregs a⟩
    · intro k w hk
      by_cases hw : w < 32
      · simp [Team.startedAs_r, Regs.entry_releaseAll _ _ _ hw, hk]
      · exact .inr (by omega)
    · intro k w hk hw
      simp [Team.startedAs_r, Regs.entry_releaseAll _ _ _ hw, hk]
end

section
/-! PROOF. Obligation O38: the counters rise at issue and fall when an instruction is performed (R13, R32, R141). -/
namespace Sys2Proof.Machine

theorem Team.cnt_addCnt_same (t : Team) (c : Nat) : (t.addCnt c).cnt c = t.cnt c + 1 := by simp [Team.cnt, Team.addCnt]
theorem Team.cnt_addCnt_ne (t : Team) {c d : Nat} (h : d ≠ c) : (t.addCnt c).cnt d = t.cnt d := by
  simp only [Team.cnt, Team.addCnt, Table.get_set_ne _ _ _ h]
theorem Team.cnt_subCnt_same (t : Team) (c : Nat) : (t.subCnt c).cnt c = t.cnt c - 1 := by simp [Team.cnt, Team.subCnt]
theorem Team.cnt_subCnt_ne (t : Team) {c d : Nat} (h : d ≠ c) : (t.subCnt c).cnt d = t.cnt d := by
  simp only [Team.cnt, Team.subCnt, Table.get_set_ne _ _ _ h]

/-- A release notes its scope in the team alone. -/
theorem Team.released_with_relAt (t : Team) (sc : Option Scope) : ∃ x, t.released sc = { t with relAt := x } := by
  cases sc with
  | none => exact ⟨t.relAt, rfl⟩
  | some sc => exact ⟨_, rfl⟩

/-- What becomes of entry `q` when instruction `seq` is performed with the writes `land`. -/
def Pending.afterPerform (seq : Nat) (land : List RegWrite) (q : Pending) : Option Pending :=
  if q.seq == seq then
    (if q.dsts.isEmpty then none
      else some { q with
        performed := true
        open_ := false
        land := land })
  else some q

/-- The team that performs an instruction which raised a counter. -/
theorem Team.perform_of_ctr {t : Team} {p : Pending} {seq c : Nat} (l : List RegWrite) (hp : t.pendOf seq = some p)
    (hc : p.ctr = some c) :
    t.perform seq l = { t.subCnt c with
      wd := 0
      pend := t.pend.filterMap (Pending.afterPerform seq (if p.banked then l.map (RegWrite.mapRef .bankOut) else l)) } := by
  simp only [Team.perform, hp, hc]; rfl

/-- Where the entries of the instruction name no destination, none of them is left. -/
theorem pendOf_afterPerform_none {ps : List Pending} {seq : Nat} (land : List RegWrite)
    (h : ∀ q ∈ ps, q.seq = seq → q.dsts = []) :
    (ps.filterMap (Pending.afterPerform seq land)).find? (·.seq == seq) = none := by
  rw [List.find?_eq_none]
  intro x hx
  obtain ⟨q, hq, hf⟩ := List.mem_filterMap.1 hx
  by_cases hs : q.seq = seq
  · simp [Pending.afterPerform, hs, h q hq hs] at hf
  · obtain rfl : q = x := by simpa [Pending.afterPerform, hs] using hf
    simpa using hs

/-- Where the only entry of the instruction has a destination, it stays, performed, with its writes. -/
theorem pendOf_afterPerform_some {ps : List Pending} {p : Pending} (land : List RegWrite)
    (hp : ps.find? (·.seq == p.seq) = some p) (hd : p.dsts ≠ []) :
    (ps.filterMap (Pending.afterPerform p.seq land)).find? (·.seq == p.seq) =
      some { p with
        performed := true
        open_ := false
        land := land } := by
  induction ps with
  | nil => simp at hp
  | cons q ps ih =>
    by_cases hs : q.seq = p.seq
    · obtain rfl : q = p := by simpa [hs] using hp
      simp [Pending.afterPerform, hd]
    · have hq : q.afterPerform p.seq land = some q := by simp [Pending.afterPerform, hs]
      rw [List.find?_cons_of_neg (by simpa using hs)] at hp
      rw [List.filterMap_cons_some hq, List.find?_cons_of_neg (by simpa using hs), ih hp]

end Sys2Proof.Machine

open Sys2Proof Sys2Proof.Machine in
/-- Settles O38: the issue adds one entry and one count; performing takes the count, and the entry where nothing lands. -/
theorem countersRiseAndFall : Obligations.CountersRiseAndFall := by
  unfold Obligations.CountersRiseAndFall
  refine ⟨?_, ?_⟩
  · intro s t u la c k open_ done ds l hu hid
    obtain ⟨x, hx⟩ := u.released_with_relAt k.release
    refine ⟨_, _, State.team?_modTeam_same _ hu (by simp [hx, Team.addCnt, hid]), rfl, rfl, rfl, rfl, ?_, ?_, ?_, ?_, ?_⟩
    · simp only [Team.cnt_addCnt_same, hx]; rfl
    · intro d hd
      simp only [Team.cnt_addCnt_ne _ hd, hx]; rfl
    · simp only [Team.addCnt, hx]
    · simp only [Team.addCnt, hx]
    · simp [State.pendAdd]
  · intro t p c l hp huniq hc
    rw [Team.perform_of_ctr l hp hc]
    refine ⟨t.cnt_subCnt_same c, fun d hd => t.cnt_subCnt_ne hd, ?_, ?_, rfl, rfl⟩
    · intro hd
      exact pendOf_afterPerform_none _ fun q hq hs => by rw [huniq q hq hs, hd]
    · intro hd
      exact ⟨_, pendOf_afterPerform_some _ hp hd, rfl, rfl, rfl⟩
end

section
/-! PROOF. Obligation O34: `trap`, `bkpt` and the four returns from the handler (R219, R221, R224). -/
namespace Sys2Proof.Machine

/-- A team that is there stays there when it changes. -/
theorem State.team?_modTeam_isSome (s : State) (k : TeamId) (f : Team → Team) (h : (s.team? k).isSome = true) :
    ((s.modTeam k f).team? k).isSome = true := by
  obtain ⟨u, hu⟩ := Option.isSome_iff_exists.1 h
  rw [State.modTeam_some f hu]
  by_cases he : (f u).id = k
  · rw [← he, State.team?_setTeam_same]; rfl
  · rw [State.team?_setTeam_ne s _ he]; exact h

/-- The state in which a `tret` of mode `md` leaves the handler entered by `f`: issued, with its trace packet. -/
def State.tretDone (s : State) (t : Team) (md : Nat) (f : FaultRec) : State :=
  (s.modTeam t.id Team.retired).traceTrap t 1 md f.pc

theorem State.team?_tretDone (s : State) (t : Team) (md : Nat) (f : FaultRec) (h : (s.team? t.id).isSome = true) :
    (s.tretDone t md f).team? t.id = some (((s.tretDone t md f).team? t.id).getD t) := by
  have hs := s.team?_modTeam_isSome t.id Team.retired h
  have hc : OnlyCounts (s.modTeam t.id Team.retired) (s.tretDone t md f) := State.tracePacket_counts _ _ _ _
  have ht : (s.tretDone t md f).team? t.id = (s.modTeam t.id Team.retired).team? t.id := by
    simp only [State.team?, hc.teams]
  obtain ⟨u, hu⟩ := Option.isSome_iff_exists.1 hs
  rw [ht, hu]; rfl

/-- Inside the handler a `tret` does `k` with the team that has left it. -/
theorem tretEff_inside {md : Nat} {k : State → Team → FaultRec → State} {s : State} {t : Team} {f : FaultRec}
    (hh : t.hnd = true) (hf : t.fault = some f) (ht : (s.team? t.id).isSome = true) :
    tretEff md k s t = .done (k (s.tretDone t md f) (((s.tretDone t md f).team? t.id).getD t).leaveHandler f) := by
  have h := s.team?_tretDone t md f ht
  simp only [tretEff, hh, hf]
  rw [State.tretDone] at h ⊢
  rw [h]; rfl

/-- Outside the handler every `tret` faults. -/
theorem tretEff_outside {md : Nat} {k : State → Team → FaultRec → State} {s : State} {t : Team} (hh : t.hnd = false) :
    tretEff md k s t = .fault 0x0C 0 noLane := by
  simp only [tretEff, hh]

/-- A fault of an instruction of a clause is returned to where the instruction stands. -/
theorem State.resumeAt_of_clause (s : State) (t : Team) {f : FaultRec} {c : Clause} (hc : f.cl = some c)
    (hw : c.words ≠ []) : s.resumeAt t f = s.standAt t c f.pc := by
  simp [State.resumeAt, hc, hw]

/-- An instruction that is not its clause's last is skipped to the next word. -/
theorem State.skipOver_of_clause (s : State) (t : Team) {f : FaultRec} {c : Clause} (hc : f.cl = some c)
    (hn : c.at f.pc + 1 < c.words.length) : s.skipOver t f = s.standAt t c (f.pc + 8#64) := by
  have hw : c.words ≠ [] := by rintro h; simp [h] at hn
  simp [State.skipOver, hc, hw, Nat.not_le.2 hn]

theorem Team.faultAt_with_cmp_none (t : Team) (code : Nat) (a b : W64) :
    { t.faultAt code a b with cmp := none } = t.faultAt code a b := by
  unfold Team.faultAt
  split <;> rfl

/-- A `bkpt` that is not ignored raises its fault, or stops the team for the debugger. -/
theorem exec_bkpt {n : BitVec 8} {g : Guard} {s s1 : State} {t : Team} {e : Enc}
    (h : Issues (.bkpt n g) noRun s s1 t e) (hi : t.cmpIgnore.contains 100 = false) :
    exec (.bkpt n g) s = .next ((s1.setTeam t).debugEvent t 0x70 (n.zeroExtend 64) noLane none) := by
  refine (issueRun_go (eff := bkptEff n) h).trans ?_
  simp only [bkptEff, hi, Bool.false_eq_true, if_false]
  rfl

end Sys2Proof.Machine

open Sys2Proof Sys2Proof.Machine in
/-- Settles O34: each form's answer, inside the handler and outside it. -/
theorem trapsAndReturns : Obligations.TrapsAndReturns := by
  unfold Obligations.TrapsAndReturns
  intro n g f c back left again inside at_ none_ lane
  refine ⟨Faults.of_fault (fun _ => rfl) fun _ _ _ => rfl, ?_, ?_,
    Faults.of_fault (fun _ => rfl) fun _ _ h => tretEff_outside h,
    Faults.of_fault (fun _ => rfl) fun _ _ h => tretEff_outside h,
    Faults.of_fault (fun _ => rfl) fun _ _ h => tretEff_outside h,
    Faults.of_fault (fun _ => rfl) fun _ _ h => tretEff_outside h, ?_, ?_, ?_, ?_⟩
  · intro s s1 t e h hi hd
    rw [exec_bkpt h hi, State.debugEvent, if_neg (by simpa using hd), Team.faultAt_with_cmp_none]
  · intro s s1 t e h hi hd
    rw [exec_bkpt h hi, State.debugEvent, if_pos hd]; rfl
  · refine Ends.of_done (fun _ => rfl) fun s t h => ?_
    obtain ⟨⟨hh, hf, ht⟩, hc, hw⟩ := h
    rw [tretEff_inside hh hf ht, tretRetryK, State.reissue, State.resumeAt_of_clause _ _ hc hw]; rfl
  · refine Ends.of_done (fun _ => rfl) fun s t h => ?_
    obtain ⟨⟨hh, hf, ht⟩, hc, hw⟩ := h
    rw [tretEff_inside hh hf ht, tretFixK, State.reissue, State.resumeAt_of_clause _ _ hc hw]
    simp only [within, Bool.and_eq_true, decide_eq_true_eq]; rfl
  · refine Ends.of_done (fun _ => rfl) fun s t h => ?_
    obtain ⟨⟨hh, hf, ht⟩, hc, hn⟩ := h
    rw [tretEff_inside hh hf ht, tretSkipK, State.skipOver_of_clause _ _ hc hn]; rfl
  · refine Ends.of_done (fun _ => rfl) fun s t h => ?_
    obtain ⟨hh, hf, ht⟩ := h
    rw [tretEff_inside hh hf ht]; rfl
end

section
/-! PROOF. Obligations O7 and O8: what comes before an instruction's own effect. -/
namespace Sys2Proof.Machine

/-- Whatever has an encoding is issued: its execution is `issueRun` of an effect of its own; one that reads a run of
registers needs no level. -/
theorem exec_of_enc {i : Instr} {e : Enc} (he : i.enc = some e) :
    ∃ n eff, (∀ s, exec i s = issueRun n i eff s) ∧ (n = noRun ∨ levelOf i = 0) := by
  cases i with
  | nop g => exact ⟨noRun, fun s _ => .ok s, fun _ => rfl, .inl rfl⟩
  | fsqrt rm x =>
    exact ⟨noRun, fun s t => longEff x (fun l => fsqrtOp (modeAt t rm l) (fopnd s t .f32 x.a l)) s t, fun _ => rfl, .inl rfl⟩
  | mma set x => exact ⟨mulRun 1 x, _, fun _ => rfl, .inr rfl⟩
  | mloop set x => exact ⟨mulRun _ x, _, fun _ => rfl, .inr rfl⟩
  | emit edge x | emitTeam edge x => exact ⟨payloadRun x, _, fun _ => rfl, .inr rfl⟩
  | emitx len edge x | emitxTeam len edge x => exact ⟨fun _ _ => some len.val, _, fun _ => rfl, .inr rfl⟩
  | syswr w | gptrootWrite w | hptrootWrite w | scrsplitWrite w | domcfgWrite w | dtimeWrite w | gtoffWrite w | modeWrite w
  | saferstWrite w | profctlWrite w | pmselWrite w | trcctlWrite w | dbgdataWrite w =>
    obtain ⟨n, b⟩ := w
    cases b with
    | host p v => cases he
    | team g a => exact ⟨noRun, _, fun _ => rfl, .inl rfl⟩
  | vrcmdCreate w | vrcmdDestroy w | ringcbEnable w | ringcbDisable w | pctlFreeze w | pctlThaw w | pctlReset w
  | dbgrunResume w | dbgrunStep w | dbgrunSkip w | dbgrunKill w | dbgrunHalt w | rplctlLog w | rplctlGo w => cases he
  | clauseIssue | faultDeliver | loadDataReturn | storePerformed | atomicPerformed | rdoContributionArrive
  | versionStoreRecord | ldvWake | parkedRetry | floorApply | vflrPerformed | acpPerformed | bcpComplete
  | bcpTranslationFail | arrivalRedirect | matrixEntryPerformed | streamTileComplete | streamEngineFault | emitPerformed
  | teamRetire | teamKill | pgretDone | recordEnqueue | admissionDecision | coalesceTimeout | agingTick | instanceEnd
  | arrivalRetry | gapTimeout | watchdogExpire | leaseExpire | nearCopyExpire | farCopyExpire | recReceive | ackReceive
  | nakReceive | backoffExpire | skipReceive | repltoExpire | vwakeReceive | vflrMsgReceive | staggerReceive
  | staggerHoldEnd | remoteAccessArrive | remoteTimeout | ingressPoll | ctrlLoad | ctrlUnload | ctrlWatch | reportWrite
  | hostWriteInbound | hostReadInbound | hostAtomicInbound | cpsemAcquire | cpsemRelease | controlLinkLoss | cqconsWrite
  | ualinkDegrade | freezeComplete | traceSampleTick | teamStop | replayDone | plendDone | prevokeDone | presizeDone
  | teamMigrate | teamRestore | dualHashSweep | windowClose | pageMigrate | checkpointCut | checkpointCommit | turnEnd
  | turnStart | rollback | safeCheckpointHold | uncorrectableError | pageRetireDone | unitFail | firmwareVerify | attctlSign
  | attestDone | sysselRead | sysselWrite | sysselPresize | sysselPlend | sysselPrevoke | sysselPgret | pwrctlWrite
  | powerTick | fwgovEngage | fwgovRelease | governorWindow | arrayGate | arrayWake | traceDrain | moduleReset
  | safeRestoreDone | partitionClearDone | rootDropDone => cases he
  | _ => exact ⟨noRun, _, fun _ => rfl, .inl rfl⟩

/-- Outside the special and system registers the opcode alone gives the level (R40, R43). -/
theorem levelOf_of_opcode {i : Instr} {e : Enc} (he : i.enc = some e) (h37 : e.opc ≠ 0x37) (hE2 : e.opc ≠ 0xE2)
    (hE3 : e.opc ≠ 0xE3) :
    levelOf i =
      if e.opc = 0xE1 ∨ e.opc = 0xE4 ∨ e.opc = 0xE7 then 1 else if 0xE8 ≤ e.opc ∧ e.opc ≤ 0xEB then 2 else 0 := by
  cases i with
  | srd r g d => cases he; exact absurd rfl h37
  | sysrd n g d => cases he; exact absurd rfl hE2
  | dbgdataRead g d => cases he; exact absurd rfl hE2
  | syswr w | gptrootWrite w | hptrootWrite w | scrsplitWrite w | domcfgWrite w | dtimeWrite w | gtoffWrite w | modeWrite w
  | saferstWrite w | profctlWrite w | pmselWrite w | trcctlWrite w | dbgdataWrite w =>
    obtain ⟨n, b⟩ := w
    cases b with
    | host p v => cases he
    | team g a => cases he; exact absurd rfl hE3
  | mfmt x =>
    rw [Instr.enc_mfmt] at he
    split at he <;> cases he <;> rfl
  | _ => cases he <;> rfl

/-! ## The gate, step by step -/

/-- What has to hold before the guard of an instruction is looked at: the team runs, has or gets its port (R14), and the
guard's register is there (R33). -/
structure State.AtGuard (s : State) (t : Team) (c : Clause) (e : Enc) : Prop where
  clause : t.r.cl = some c
  runs : s.runnable t = true
  port : t.port = true ∨ s.portBusy t (vectorPort c.hdr) = false
  guard : t.mustWait t.icount c.serial (guardAccess e.g).reads = false

variable {s s1 : State} {t t0 : Team} {c : Clause} {i : Instr} {e : Enc} {n : RunOf}

theorem State.AtGuard.free (h : s.AtGuard t c e) : (!t.port && s.portBusy t (vectorPort c.hdr)) = false := by
  rcases h.port with hp | hp <;> simp [hp]

/-- R40: at a level too low the gate answers the fault. -/
theorem State.gate_low (h : s.AtGuard t0 c e) (hg : guardUni e.g (t0.arrived c).r = true)
    (hw : (t0.arrived c).mustWait (t0.arrived c).icount c.serial (encAccess e (n s (t0.arrived c))).reads = false)
    (hm : s.pcMatch (t0.arrived c) = none) (hl : (t0.arrived c).level < levelOf i) :
    s.gate t0 i e n = .fault s (t0.arrived c) 0x06 0 noLane := by
  simp only [State.gate, h.clause, h.runs, h.free, h.guard, hg, hw, hm, hl, Bool.not_true, Bool.or_self, Bool.false_eq_true,
    if_false, if_true]

/-- Where nothing holds the instruction back and its fills are made, it issues. -/
theorem State.gate_go (h : s.AtGuard t0 c e) (hg : guardUni e.g (t0.arrived c).r = true)
    (hw : (t0.arrived c).mustWait (t0.arrived c).icount c.serial (encAccess e (n s (t0.arrived c))).reads = false)
    (hm : s.pcMatch (t0.arrived c) = none) (hl : levelOf i ≤ (t0.arrived c).level)
    (hc : (t0.arrived c).counterFree e = true)
    (hf : s.fills (t0.arrived c) e (encAccess e (n s (t0.arrived c))) = some (s1, t, none))
    (hr : (s1.pr t.part 0x110).getLsbD 0 = false) : s.gate t0 i e n = .go s1 t := by
  simp only [State.gate, h.clause, h.runs, h.free, h.guard, hg, hw, hm, hc, hf, hr, Nat.not_lt.2 hl, Bool.not_true,
    Bool.or_self, Bool.false_eq_true, if_false]

/-- A false guard is found before the registers of the operands are looked at. -/
theorem State.gate_off_of_noRun (h : s.gate t0 i e noRun = .off s1 t) : s.gate t0 i e n = .off s1 t := by
  unfold State.gate at h ⊢
  cases hcl : t0.r.cl with
  | none => simp [hcl] at h
  | some c =>
    simp only [hcl] at h ⊢
    by_cases hw : (!s.runnable t0 || (!t0.port && s.portBusy t0 (vectorPort c.hdr)) ||
        t0.mustWait t0.icount c.serial (guardAccess e.g).reads) = true
    · rw [if_pos hw] at h; cases h
    · by_cases hg : (!guardUni e.g (t0.arrived c).r) = true
      · rw [if_neg hw, if_pos hg] at h ⊢
        exact h
      · rw [if_neg hw, if_neg hg] at h
        exfalso
        repeat' split at h
        all_goals cases h

/-- An instruction whose scalar guard is false leaves its account and the trace of a transfer not taken. -/
theorem issueRun_off {eff : State → Team → Eff} (hc : s.cur = some t0) (he : i.enc = some e)
    (hg : s.gate t0 i e noRun = .off s1 t) (hf : FallsOn s1 t) :
    issueRun n i eff s = .next ((((s1.setTeam t).account t e false).traceNotTaken t e.opc).advance t) := by
  simp only [issueRun, hc, he, State.gate_off_of_noRun hg, State.conclude]
  unfold FallsOn at hf
  split
  · next h => rw [h] at hf; cases hf
  · rfl

/-! ## A team with nothing unperformed -/

section
variable (hp : t.pend = [])
include hp

theorem Team.mustWait_of_pend_nil (k m : Nat) (l : List RegRef) : t.mustWait k m l = false := by
  simp [Team.mustWait, hp]
theorem Team.closed_of_pend_nil : t.closed = true := by simp [Team.closed, hp]
/-- No result lands, and the port is taken. -/
theorem Team.arrived_of_pend_nil (c : Clause) : t.arrived c = { t with port := true } := by
  simp only [Team.arrived, Team.settle, Team.landWhere, hp, List.filter_nil, Team.landAll]
theorem Team.counterFree_of_idle (hw : t.wc = []) (e : Enc) : t.counterFree e = true := by
  simp only [Team.counterFree, Team.closed_of_pend_nil hp, Bool.or_true, Bool.and_true]
  split <;> simp [Team.cnt, hw, Table.get]
end

/-- An entry that no cell of the file calls absent. -/
theorem Regs.entry_ne_absent {r : Regs} (h : r.v.all (fun x => x.2 != .absent) = true) (k w : Nat) :
    (r.entry k w == .absent) = false := by
  have hg : ∀ (v : Table VEnt) (j : Nat), v.all (fun x => x.2 != .absent) = true → v.get .none j ≠ .absent := by
    intro v j hv
    induction v with
    | nil => simp [Table.get]
    | cons x v ih =>
      obtain ⟨a, b⟩ := x
      simp only [List.all_cons, Bool.and_eq_true, bne_iff_ne, ne_eq] at hv
      by_cases ha : a = j
      · simpa [Table.get, Table.get?, ha] using hv.1
      · simpa [Table.get, Table.get?, ha] using ih hv.2
  simpa [Regs.entry] using hg r.v _ h

/-- Without an absent entry, with closed checks and free granules, an instruction has nothing to fill and room to write. -/
theorem State.fills_of_present {a : Access} (hv : t.r.v.all (fun x => x.2 != .absent) = true) (hc : t.closed = true)
    (hg : s.granulesShort t (t.newGranules e [] (writeKeys t e a)) = false) : s.fills t e a = some (s, t, none) := by
  have hk : guardKeys t e = [] := by simp [guardKeys, Regs.entry_ne_absent hv]
  have hf : fillKeys s t e a = [] := by simp [fillKeys, Regs.entry_ne_absent hv]
  have h0 : s.granulesShort t 0 = false := by simp [State.granulesShort]
  simp [State.fills, hk, hf, State.fillAll, State.writeRoom, Team.oldsFull, Team.undoFull, hc, hg, h0]

end Sys2Proof.Machine

open Sys2Proof Sys2Proof.Machine in
/-- Settles O7: no wait, fill or fault of the gate applies; a false guard answers before anything else. -/
theorem issueOrGuardedOff : Obligations.IssueOrGuardedOff := by
  unfold Obligations.IssueOrGuardedOff
  refine ⟨?_, ?_⟩
  · intro s t c i e n u hc he hcl hrun hport hp hwc hg hm hl hv hs hd
    have ha : t.arrived c = u := t.arrived_of_pend_nil hp c
    refine ⟨t, hc, he, State.gate_go ⟨hcl, hrun, hport, t.mustWait_of_pend_nil hp _ _ _⟩ ?_ ?_ ?_ ?_ ?_ ?_ hd⟩ <;>
      rw [ha]
    · exact hg
    · exact u.mustWait_of_pend_nil hp _ _ _
    · exact hm
    · exact hl
    · exact u.counterFree_of_idle hp hwc e
    · exact State.fills_of_present hv (u.closed_of_pend_nil hp) hs
  · intro w i e s s1 t0 t _ he hc hg hf
    obtain ⟨n, eff, hx, -⟩ := exec_of_enc he
    rw [hx, issueRun_off hc he hg hf]

open Sys2Proof Sys2Proof.Machine in
/-- Settles O8: the gate compares the levels before anything of the effect, whatever the instruction. -/
theorem privilegeChecked : Obligations.PrivilegeChecked := by
  unfold Obligations.PrivilegeChecked
  refine ⟨?_, ?_, ?_⟩
  · intro i e s t0 c hc he hcl hrun hport hgm t hg hw hm hl
    obtain ⟨n, eff, hx, hn | hn⟩ := exec_of_enc he
    · subst hn
      have hgate : s.gate t0 i e noRun = .fault s t 0x06 0 noLane :=
        State.gate_low ⟨hcl, hrun, hport, hgm⟩ hg hw hm hl
      rw [hx]
      simp only [issueRun, hc, he, hgate]
    · omega
  · exact fun i e => levelOf_of_opcode
  · intro r n g d a k hk
    refine ⟨?_, ?_, ?_⟩
    · cases r <;> rfl
    · simp [levelOf, hk]
    · simp [levelOf, hk]
end

section
/-! PROOF. Obligation O36: a valid clause starts (R13-R17, R38). -/
namespace Sys2Proof.Machine

/-- A table whose values are changed key by key. -/
theorem Table.get?_map {α β : Type} (t : Table α) (f : α → β) (k : Nat) :
    Table.get? (t.map fun (x : Nat × α) => (x.1, f x.2)) k = (t.get? k).map f := by
  induction t with
  | nil => rfl
  | cons x r ih =>
    obtain ⟨a, v⟩ := x
    by_cases ha : a = k <;> simp [Table.get?, ha, ih]

/-- The switch that other teams of the slot give up leaves a team of the number of `t` as it is. -/
theorem State.team?_clearYld {s : State} {t u : Team} (h : s.team? t.id = some u) (hu : u.id = t.id) :
    (s.clearYld t).team? t.id = some u := by
  have hg := Table.get?_map s.teams
    (fun u => if u.id != t.id && u.core == t.core && u.slot == t.slot then { u with yld := false } else u) t.id.toNat
  rw [show s.teams.get? t.id.toNat = some u from h] at hg
  simpa [State.team?, State.clearYld, hu] using hg

theorem OnlyCounts.team? {s s' : State} (h : OnlyCounts s s') (k : TeamId) : s'.team? k = s.team? k := by
  simp only [State.team?, h.teams]

theorem State.traceDelivery_counts (s : State) (t : Team) : OnlyCounts s (s.traceDelivery t) := by
  unfold State.traceDelivery
  split
  · exact s.tracePacket_counts t _ _
  · exact .refl s

/-- The team that has begun clause `c` at its instruction `k`. -/
def Team.begun (t : Team) (c : Clause) (k : Nat) : Team :=
  { t with
    nclause := t.nclause + 1
    port := k == 0
    yld := false
    trapPkt := none
    r := { t.r with
      cl := some c
      pc := c.h + 8#64 * BitVec.ofNat 64 (k + 1) } }

/-- A clause that begins changes its team, the switches of its slot, and traces. -/
theorem State.startClause_spec (s : State) (t : Team) (c : Clause) (k : Nat) :
    (s.startClause t c k).team? t.id = some (t.begun c k) ∧ (s.startClause t c k).mem = s.mem := by
  have ht : (((s.traceDelivery t).setTeam (t.begun c k)).clearYld t).team? t.id = some (t.begun c k) :=
    State.team?_clearYld (State.team?_setTeam_same _ (t.begun c k)) rfl
  have hm : (((s.traceDelivery t).setTeam (t.begun c k)).clearYld t).mem = s.mem := (s.traceDelivery_counts t).mem
  unfold State.startClause
  dsimp only
  split
  · have hc := State.tracePacket_counts (((s.traceDelivery t).setTeam (t.begun c k)).clearYld t) t c.h
      ⟨5, 0, leBytes 7 c.h.toNat⟩
    exact ⟨(hc.team? t.id).trans ht, hc.mem.trans hm⟩
  · exact ⟨ht, hm⟩

theorem headerReady_of_counters {t : Team} {h : Header}
    (hc : ∀ n < 6, h.wmask.getLsbD n = true → t.cnt n ≤ h.wthr) : headerReady t h = true := by
  simp only [headerReady, List.all_eq_true, List.mem_range, Bool.or_eq_true, Bool.not_eq_true', decide_eq_true_eq]
  intro n hn
  by_cases hw : h.wmask.getLsbD n = true
  · exact .inr (hc n hn hw)
  · exact .inl (by simpa using hw)

/-- A clause that is fetched, valid and startable is started at its first instruction. -/
theorem State.clauseIssue_starts {s s' : State} {t : Team} {h : Option W64} {c : Clause} (hr : s.runnable t = true)
    (hcl : t.r.cl = none) (hf : s.fetchClause t t.r.pc = (s', h, .ok c)) (hv : validate c.hdr c.words = none)
    (hs : s'.startable t c = true) : s.clauseIssue t = s'.startClause t c 0 := by
  have hn : startFault t t.r.pc (h, .ok c) = none := by simp [startFault, hv]
  simp [State.clauseIssue, hr, hcl, hf, hn, hs]

end Sys2Proof.Machine

open Sys2Proof Sys2Proof.Machine in
/-- Settles O36: the fetched clause passes each test of its start, and its start leaves the team's registers. -/
theorem clauseStarts : Obligations.ClauseStarts := by
  unfold Obligations.ClauseStarts
  intro s s' t h c hc hr hcl hf hv hp hw hfirst
  have hs : s'.startable t c = true := by
    simp [State.startable, hp, headerReady_of_counters hw, hfirst]
  obtain ⟨ht, hm⟩ := s'.startClause_spec t c 0
  refine ⟨_, _, ?_, ht, rfl, rfl, rfl, rfl, rfl, rfl, rfl, hm⟩
  show (.next _ : Out) = _
  simp only [hc, State.clauseIssue_starts hr hcl hf hv hs]
end

section
/-! PROOF. Obligation O24: loads and stores at issue (R136-R146). -/
namespace Sys2Proof.Machine

variable {s : State} {t : Team} {k : AccKind} {cl : PClass} {bad : Nat → Bool} {r w : Bool} {reqs : List Req}

/-- Accesses that pass their checks go on with the addresses found. -/
theorem withAccess_of_passes (h : Passes s t k cl bad r w reqs) (f : State → List Acc → Eff) :
    withAccess s t k cl bad r w reqs f = f (passed s t k cl bad reqs).1 (passed s t k cl bad reqs).2 := by
  obtain ⟨hok, hw⟩ := h
  unfold withAccess passed
  split
  · next e => rw [e] at hok; cases hok
  · next e =>
    rw [e] at hw
    simp only [State.watching, hw, e]

theorem withScratch_of_ok {lanes : List Nat} {a : Opnd} {off n al : Nat} {accs : List Acc} (f : List Acc → Eff)
    (h : scratchReqs t al (lanes.map fun l => (l, scratchOf s t a l + off, n)) = .ok accs) :
    withScratch s t lanes a off n al f = f accs := by
  simp only [withScratch, h]

theorem szlSigned_eq (ty : SZL) : szlSigned ty = (ty == .i8 || ty == .i16) := by cases ty <;> rfl

end Sys2Proof.Machine

open Sys2Proof Sys2Proof.Machine in
/-- Settles O24: past its checks each of the six leaves its work behind, a store also in the write buffer. -/
theorem loadsAndStores : Obligations.LoadsAndStores := by
  unfold Obligations.LoadsAndStores
  intro ty tz sc x lq sq lOk sOk dst load store scr
  have hd : (⟨x.d, ty.bytes, szlSigned ty⟩ : Dst) = dst := by rw [szlSigned_eq]
  refine ⟨?_, ?_, ?_, ?_, fun accs => ?_, fun accs => ?_⟩ <;> refine Completes.of_ok (fun _ => rfl) fun s t h => ?_
  · exact (withAccess_of_passes h _).trans (by rw [hd])
  · exact (withAccess_of_passes h _).trans (by rw [hd])
  · exact withAccess_of_passes h _
  · exact withAccess_of_passes h _
  · exact (withScratch_of_ok _ h).trans (by rw [hd])
  · exact withScratch_of_ok _ h
end

section
/-! PROOF. Obligation O58 fails: it speaks of ill-formed instructions too. -/
namespace Sys2Proof.Machine

/-- `smov` with the vector register v3 as D, where R86 wants a scalar one. -/
def smovToVector : Instr := .smov .b64 ⟨.none, .v 3, .k 1, .v 0 false, .v 0 false, 0⟩

/-- The decoder gives it for no word (O2): it is not well formed. -/
theorem smovToVector_not_wf : smovToVector.wf = false := by decide

/-- A state in which an instruction of a team in the middle of its clause issues, as the model places it. -/
def frameState : State := State.reset.placeWord 0

/-- Instruction `i` issues at `s` in the middle of its clause, the team stays as it was but for its registers, and scalar
register `k`, which the encoding does not write, changes. -/
def changesScalar (i : Instr) (k : Nat) (s : State) : Bool :=
  match s.cur, i.enc, exec i s with
  | some t0, some e, .next s' =>
    match s.gate t0 i e noRun with
    | .go _ t => (s'.team? t.id).any fun u => !t.isLast && u.hnd == t.hnd && u.stat == t.stat && u.trap.isNone &&
        !(encAccess e none).ws.contains k && u.r.sget k != t.r.sget k
    | _ => false
  | _, _, _ => false

theorem changesScalar_spec {i : Instr} {k : Nat} {s : State} (h : changesScalar i k s = true) :
    ∃ e s' s1 t u, i.enc = some e ∧ exec i s = .next s' ∧ Issues i noRun s s1 t e ∧ t.isLast = false ∧
      s'.team? t.id = some u ∧ u.hnd = t.hnd ∧ u.stat = t.stat ∧ u.trap = none ∧ k ∉ (encAccess e none).ws ∧
      u.r.sget k ≠ t.r.sget k := by
  unfold changesScalar at h
  split at h
  · next t0 e s' hc he hx =>
    split at h
    · next s1 t hg =>
      cases hu : s'.team? t.id with
      | none => simp [hu] at h
      | some u =>
        simp only [hu, Option.any_some, Bool.and_eq_true, beq_iff_eq, bne_iff_ne, Bool.not_eq_true', List.contains_eq_mem,
          decide_eq_false_iff_not, Option.isNone_iff_eq_none] at h
        obtain ⟨⟨⟨⟨⟨hl, hh⟩, hst⟩, ht⟩, hk⟩, hv⟩ := h
        exact ⟨e, s', s1, t, u, he, hx, ⟨t0, hc, he, hg⟩, hl, hu, hh, hst, ht, hk, hv⟩
    · cases h
  · cases h

theorem smovToVector_changes : changesScalar smovToVector 3 frameState = true := by decide +kernel

end Sys2Proof.Machine

open Sys2Proof Sys2Proof.Machine in
/-- Refutes O58: the statement ranges over ill-formed instructions too. `smov` with D = v3 has an encoding, whose destination
is the vector register v3, but its effect (R88) writes s3, which is therefore not among the registers it names. -/
theorem not_registerInstructionFrame : ¬ Obligations.RegisterInstructionFrame := by
  unfold Obligations.RegisterInstructionFrame
  intro h
  obtain ⟨e, s', s1, t, u, he, hx, hi, hl, hu, hh, hst, ht, hk, hv⟩ := changesScalar_spec smovToVector_changes
  have ho : e.opc < 0x30 := by cases he; decide
  obtain ⟨-, -, -, -, -, -, -, hown⟩ := h smovToVector e frameState s' he (.inl ho) hx
  exact hv ((hown s1 t u hi hl hu hh hst ht).1 3 hk)
end

section
/-! PROOF. Obligation O16: `.f32` arithmetic and comparison of each lane, with its flags (R66, R121-R123). -/
namespace Sys2Proof.Machine

/-! ## Two changes of one team in turn -/

theorem Table.del_eq_self {α : Type} {t : Table α} {k : Nat} (h : t.get? k = none) : t.del k = t := by
  induction t with
  | nil => rfl
  | cons x r ih =>
    obtain ⟨a, v⟩ := x
    by_cases ha : a = k
    · simp [Table.get?, ha] at h
    · simp only [Table.get?, ha, if_false] at h
      simp [Table.del, ha, ih h]

theorem Table.del_ins_same {α : Type} (t : Table α) (k : Nat) (v : α) : (t.ins k v).del k = t.del k := by
  induction t with
  | nil => simp [Table.ins, Table.del]
  | cons x r ih =>
    obtain ⟨a, w⟩ := x
    by_cases hl : k < a <;> simp [Table.ins, Table.del, hl, ih]

/-- Of two writes to one key the second stands. -/
@[simp] theorem Table.put_put_same {α : Type} (t : Table α) (k : Nat) (v w : α) : (t.put k v).put k w = t.put k w := by
  simp only [Table.put, Table.del_ins_same, Table.del_eq_self (t.get?_del_same k)]

theorem State.setTeam_setTeam_same (s : State) {t u : Team} (h : u.id = t.id) : (s.setTeam t).setTeam u = s.setTeam u := by
  simp [State.setTeam, h]

/-- Two changes of a team that keep its number are one. -/
theorem State.modTeam_modTeam {s : State} {k : TeamId} {u : Team} {f g : Team → Team} (h : s.team? k = some u)
    (hf : (f u).id = k) (hg : (g (f u)).id = k) : (s.modTeam k f).modTeam k g = s.modTeam k fun x => g (f x) := by
  rw [State.modTeam_some g (State.team?_modTeam_same f h hf), State.modTeam_some f h, State.modTeam_some _ h,
    State.setTeam_setTeam_same s (hg.trans hf.symm)]

@[simp] theorem Team.apply_id (t : Team) (ws : List RegWrite) : (t.apply ws).id = t.id := rfl
@[simp] theorem Team.raises_id (t : Team) (l : List (Nat × W32)) : (t.raises l).id = t.id := by
  induction l generalizing t with
  | nil => rfl
  | cons x l ih => exact ih _

/-! ## Results with flags -/

/-- A completion that uses that the team stands in the state from which the effect starts. -/
theorem Completes.of_ok_team {i : Instr} {n : RunOf} {eff : State → Team → Eff} {P : State → Team → Prop}
    {f : State → Team → State} (hx : ∀ s, exec i s = issueRun n i eff s)
    (hr : ∀ s t u, P s t → s.team? t.id = some u → u.id = t.id → eff s t = .ok (f s t)) : Completes i n P f := by
  intro s s1 t e h hf hp
  rw [hx, issueRun_ok h hf (hr _ _ _ hp (s1.team?_prepare t e _) (t.startedAs_id e _))]

theorem lo32_ofNat (v : Nat) : lo32 (BitVec.ofNat 64 v) = BitVec.ofNat 32 v := by
  apply BitVec.eq_of_toNat_eq
  simp only [lo32, BitVec.extractLsb'_toNat, BitVec.toNat_ofNat, Nat.shiftRight_zero]
  omega

/-- A narrow result writes the low half of its value to one register of each lane. -/
theorem laneWrites_narrow (ls : List Nat) (d : Nat) (f : Nat → W64) :
    (ls.flatMap fun l => laneWrites false d l (f l)) = ls.map fun l => .v d l (lo32 (f l)) :=
  List.map_eq_flatMap.symm

variable {s : State} {t u : Team}

/-- Results in the participating lanes, then the flags of these lanes, are one change of the team. -/
theorem raiseLanes_putLanes (hu : s.team? t.id = some u) (hid : u.id = t.id) (g : Guard) (d : Dest) (f : Nat → W64)
    (h : Nat → W32) :
    raiseLanes (putLanes s t g false d f) t (t.active g) h = s.modTeam t.id fun u =>
      (u.apply ((t.active g).map fun l => .v (destIndex d) l (lo32 (f l)))).raises ((t.active g).map fun l => (l, h l)) := by
  rw [raiseLanes, putLanes, State.modTeam_modTeam hu (by simp [hid]) (by simp [hid])]
  simp only [laneWrites_narrow]

theorem vecFlt_eq_ok (hu : s.team? t.id = some u) (hid : u.id = t.id) (g : Guard) (d : Dest) (f : Nat → Nat × W32) :
    vecFlt s t g d f =
      .ok (raiseLanes (putLanes s t g false d fun l => BitVec.ofNat 64 (f l).1) t (t.active g) fun l => (f l).2) := by
  simp only [vecFlt, raiseLanes_putLanes hu hid, lo32_ofNat]

theorem bitEff_eq_ok (hu : s.team? t.id = some u) (hid : u.id = t.id) (g : Guard) (d : Dest) (b : Nat) (f : Nat → Bool)
    (h : Nat → W32) :
    bitEff g d b f h s t = .ok (raiseLanes
      (putLanes s t g false d fun l => putBit ((t.r.lane (destIndex d) l).setWidth 64) b (f l)) t (t.active g) h) := by
  rw [raiseLanes_putLanes hu hid]; rfl

/-- An instruction whose effect is `vecFlt` completes with a value and flags in each participating lane. -/
theorem Completes.of_vecFlt {i : Instr} {g : Guard} {d : Dest} {f : State → Team → Nat → Nat × W32}
    (hx : ∀ s, exec i s = issue i (fun s t => vecFlt s t g d (f s t)) s) :
    Completes i noRun always fun s t =>
      raiseLanes (putLanes s t g false d fun l => BitVec.ofNat 64 (f s t l).1) t (t.active g) fun l => (f s t l).2 :=
  .of_ok_team hx fun s t _ _ hu hid => vecFlt_eq_ok hu hid g d (f s t)

end Sys2Proof.Machine

open Sys2Proof Sys2Proof.Machine in
/-- Settles O16: the first five leave a value and flags in each lane, `fcmp` one bit of the destination and flags. -/
theorem floatArithmetic : Obligations.FloatArithmetic := by
  unfold Obligations.FloatArithmetic
  intro rm nan k ft b x F res
  refine ⟨?fadd, ?fmul, ?ffma, ?fmin, ?fmax, ?fcmp⟩
  case fadd | fmul | ffma | fmin | fmax => exact Completes.of_vecFlt fun _ => rfl
  case fcmp => exact Completes.of_ok_team (fun _ => rfl) fun _ _ _ _ hu hid => bitEff_eq_ok hu hid x.g x.d b.val _ _
end

section
/-! PROOF. Obligation O11: scalar moves, logic, shifts and rotates in the terms of bit vectors (R88, R89). -/
namespace Sys2Proof.Machine

theorem bwBits_pos (ty : BW) : 0 < bwBits ty := by cases ty <;> decide
theorem bwBits_le (ty : BW) : bwBits ty ≤ 64 := by cases ty <;> decide

/-! ## The untyped widths as one family -/

theorem cutSigned_eq (ty : BW) (v : W64) : cutSigned ty v = (v.setWidth (bwBits ty)).signExtend 64 := by
  cases ty <;> simp [cutSigned, bwBits]
theorem rotated_eq (ty : BW) (v : W64) (n : Nat) :
    rotated ty v n = ((v.setWidth (bwBits ty)).rotateLeft n).setWidth 64 := by
  cases ty <;> simp [rotated, bwBits]

theorem cut_toNat (ty : BW) (v : W64) : (cut ty v).toNat = lowU (bwBits ty) v := by
  cases ty <;> simp only [cut, bwBits, lowU, BitVec.toNat_setWidth] <;> omega

/-- What a width keeps of a number's low 64 bits. -/
theorem keepU_eq_cut (ty : BW) (n : Nat) : keepU (bwBits ty) n = cut ty (BitVec.ofNat 64 n) := by
  apply BitVec.eq_of_toNat_eq
  rw [cut_toNat]
  cases ty <;> simp only [keepU, bwBits, lowU, BitVec.toNat_ofNat] <;> omega

/-- A width keeps of a word its low bits. -/
theorem keepU_toNat (ty : BW) (v : W64) : keepU (bwBits ty) v.toNat = cut ty v := by
  rw [keepU_eq_cut, BitVec.ofNat_toNat, BitVec.setWidth_eq]

/-! ## Shifts and the rotate -/

theorem bShl_eq (ty : BW) (v : W64) (n : Nat) : bShl ty v n = if n < bwBits ty then cut ty (v <<< n) else 0 := by
  have h : keepU (bwBits ty) (lowU (bwBits ty) v * 2 ^ n) = cut ty (v <<< n) := by
    rw [← keepU_toNat, BitVec.toNat_shiftLeft, Nat.shiftLeft_eq, keepU, keepU, lowU, Nat.mod_mul_mod,
      Nat.mod_mod_of_dvd _ (Nat.pow_dvd_pow 2 (bwBits_le ty))]
  rw [bShl, h]

theorem bShr_eq (ty : BW) (v : W64) (n : Nat) : bShr ty v n = if n < bwBits ty then cut ty v >>> n else 0 := by
  have h : keepU (bwBits ty) (lowU (bwBits ty) v / 2 ^ n) = cut ty v >>> n := by
    apply BitVec.eq_of_toNat_eq
    have hlt : lowU (bwBits ty) v / 2 ^ n < 2 ^ bwBits ty :=
      Nat.lt_of_le_of_lt (Nat.div_le_self _ _) (Nat.mod_lt _ (Nat.two_pow_pos _))
    rw [BitVec.toNat_ushiftRight, cut_toNat, Nat.shiftRight_eq_div_pow, keepU, Nat.mod_eq_of_lt hlt, BitVec.toNat_ofNat,
      Nat.mod_eq_of_lt (Nat.lt_of_lt_of_le hlt (Nat.pow_le_pow_right (by decide) (bwBits_le ty)))]
  rw [bShr, h]

theorem cutSigned_toInt (ty : BW) (v : W64) : (cutSigned ty v).toInt = lowS (bwBits ty) v := by
  rw [cutSigned_eq, BitVec.toInt_signExtend_of_le (bwBits_le ty), lowS_eq_toInt]
  cases ty <;> simp [bwBits]

/-- An arithmetic shift divides by a power of two, rounding down. -/
theorem sshiftRight_eq_ofInt (v : W64) (k : Nat) : v.sshiftRight k = BitVec.ofInt 64 (v.toInt / 2 ^ k) := by
  rw [BitVec.sshiftRight, Int.shiftRight_eq_div_pow]
  norm_cast

theorem bSar_eq (ty : BW) (v : W64) (n : Nat) :
    bSar ty v n = cut ty ((cutSigned ty v).sshiftRight (min n (bwBits ty))) := by
  rw [bSar, keepU_toNat, sshiftRight_eq_ofInt, cutSigned_toInt]

/-- A rotation as a number: the part shifted up and the part that comes in below. -/
theorem toNat_rotateLeft_add {w : Nat} (hw : 0 < w) (v : BitVec w) (n : Nat) :
    (v.rotateLeft n).toNat = (v.toNat * 2 ^ (n % w) + v.toNat / 2 ^ (w - n % w)) % 2 ^ w := by
  rw [BitVec.toNat_rotateLeft]
  have hk : n % w < w := Nat.mod_lt _ hw
  generalize n % w = k at hk ⊢
  have hp : 2 ^ (w - k) * 2 ^ k = 2 ^ w := by rw [← Nat.pow_add, Nat.sub_add_cancel (Nat.le_of_lt hk)]
  have hlow : v.toNat / 2 ^ (w - k) < 2 ^ k := Nat.div_lt_of_lt_mul (hp ▸ v.isLt)
  have hup : v.toNat * 2 ^ k % 2 ^ w = v.toNat % 2 ^ (w - k) * 2 ^ k := by rw [← hp, Nat.mul_mod_mul_right]
  have hor : v.toNat * 2 ^ k % 2 ^ w ||| v.toNat / 2 ^ (w - k) = v.toNat * 2 ^ k % 2 ^ w + v.toNat / 2 ^ (w - k) := by
    rw [hup, ← Nat.shiftLeft_eq, Nat.shiftLeft_add_eq_or_of_lt hlow]
  have hlt : v.toNat * 2 ^ k % 2 ^ w ||| v.toNat / 2 ^ (w - k) < 2 ^ w :=
    Nat.or_lt_two_pow (Nat.mod_lt _ (Nat.two_pow_pos w)) (Nat.lt_of_le_of_lt (Nat.div_le_self _ _) v.isLt)
  rw [Nat.shiftLeft_eq, Nat.shiftRight_eq_div_pow, ← Nat.mod_eq_of_lt hlt, hor, Nat.mod_add_mod]

theorem bRot_eq (ty : BW) (v : W64) (n : Nat) : bRot ty v n = rotated ty v n := by
  have hv : lowU (bwBits ty) v = (v.setWidth (bwBits ty)).toNat := (BitVec.toNat_setWidth _ _).symm
  apply BitVec.eq_of_toNat_eq
  rw [rotated_eq, BitVec.toNat_setWidth, toNat_rotateLeft_add (bwBits_pos ty), bRot, hv, keepU, BitVec.toNat_ofNat]

end Sys2Proof.Machine

open Sys2Proof Sys2Proof.Machine in
/-- Settles O11: each value is what its width keeps of the bit vectors' own operation. -/
theorem scalarLogicAndShifts : Obligations.ScalarLogicAndShifts := by
  unfold Obligations.ScalarLogicAndShifts
  intro ty x y
  refine ⟨?smov, ?sand, ?sor, ?sxor, ?snot, ?sandImm, ?sorImm, ?sxorImm, ?sshl, ?sshr, ?ssar, ?srot, ?sshlImm, ?sshrImm,
    ?ssarImm, ?srotImm, rfl⟩ <;> refine Completes.of_ok (fun _ => rfl) fun s t _ => ?_
  case smov | snot => simp only [scal1, bMov, bNot, keepU_toNat]; rfl
  case sand | sor | sxor => simp only [scal2, bAnd, bOr, bXor, keepU_toNat]; rfl
  case sandImm | sorImm | sxorImm => simp only [scalI, bAnd, bOr, bXor, keepU_toNat]; rfl
  case sshl | sshr | ssar | srot => simp only [scal2, bShl_eq, bShr_eq, bSar_eq, bRot_eq]; rfl
  case sshlImm | sshrImm | ssarImm | srotImm => simp only [scalI, bShl_eq, bShr_eq, bSar_eq, bRot_eq]; rfl
end

section
/-! PROOF. Obligation O12: counts, bit fields and literal loads, bit by bit (R90, R93, R95, R118). -/
namespace Sys2Proof.Machine

theorem lowU_testBit (w : Nat) (v : W64) (k : Nat) : (lowU w v).testBit k = (decide (k < w) && v.getLsbD k) := by
  rw [lowU, Nat.testBit_mod_two_pow, BitVec.testBit_toNat]

/-! ## Counts -/

theorem onesIn_eq_length (n k : Nat) : onesIn n k = ((List.range k).filter n.testBit).length := by
  induction k with
  | zero => rfl
  | succ k ih => by_cases h : n.testBit k <;> simp [onesIn, List.range_succ, List.filter_append, h, ih, Nat.add_comm]

theorem setBits_eq (ty : BW) (v : W64) : setBits ty v = (List.range (bwBits ty)).filter (lowU (bwBits ty) v).testBit :=
  List.filter_congr fun k hk => by rw [lowU_testBit, decide_eq_true (List.mem_range.1 hk), Bool.true_and]

theorem bPopc_eq (ty : BW) (v : W64) : bPopc ty v = BitVec.ofNat 64 (setBits ty v).length := by
  rw [bPopc, onesIn_eq_length, setBits_eq]

/-- The highest of the set bits below `w` of a number below 2^w. -/
theorem getLast?_setBits (w : Nat) {n : Nat} (h : n < 2 ^ w) :
    ((List.range w).filter n.testBit).getLast? = if n = 0 then none else some n.log2 := by
  induction w with
  | zero => simp [show n = 0 by omega]
  | succ w ih =>
    rw [List.range_succ, List.filter_append]
    by_cases hb : n < 2 ^ w
    · simp [Nat.testBit_lt_two_pow hb, ih hb]
    · have hn : n ≠ 0 := fun h0 => hb (h0 ▸ Nat.two_pow_pos w)
      have hl : n.log2 = w := (Nat.log2_eq_iff hn).2 ⟨Nat.le_of_not_lt hb, h⟩
      have ht : n.testBit w = true := hl ▸ Nat.testBit_log2 hn
      simp [ht, hn, hl]

theorem bClz_eq (ty : BW) (v : W64) :
    bClz ty v = BitVec.ofNat 64 (bwBits ty - (((setBits ty v).getLast?.map (· + 1)).getD 0)) := by
  have hv : lowU (bwBits ty) v < 2 ^ bwBits ty := Nat.mod_lt _ (Nat.two_pow_pos _)
  rw [bClz, setBits_eq, getLast?_setBits _ hv]
  by_cases h0 : lowU (bwBits ty) v = 0
  · simp [h0]
  · simp [h0, Nat.sub_sub, Nat.add_comm]

/-! ## Bit fields -/

theorem fieldLen_eq (w p n : Nat) : fieldLen w p n = if p < w then min n (w - p) else 0 := by
  unfold fieldLen
  split <;> split <;> omega

theorem fieldLen_le (w p n : Nat) : p + fieldLen w p n ≤ w ∨ fieldLen w p n = 0 := by
  rw [fieldLen_eq]
  split <;> omega

/-- The signed reading of the low `m` bits, at every width. -/
theorem lowS_eq_toInt_setWidth {m : Nat} (hm : 0 < m) (v : W64) : lowS m v = (v.setWidth m).toInt := by
  obtain ⟨k, rfl⟩ : ∃ k, m = k + 1 := ⟨m - 1, by omega⟩
  rw [lowS, lowU, BitVec.toInt_eq_toNat_cond, BitVec.toNat_setWidth, Nat.add_sub_cancel]
  have h : v.toNat % 2 ^ (k + 1) < 2 ^ k ↔ 2 * (v.toNat % 2 ^ (k + 1)) < 2 ^ (k + 1) := by omega
  simp only [h, Int.natCast_pow, Int.cast_ofNat_Int]

theorem keepU_getLsbD (m f k : Nat) : (keepU m f).getLsbD k = (decide (k < 64) && (decide (k < m) && f.testBit k)) := by
  rw [keepU, BitVec.getLsbD_ofNat, Nat.testBit_mod_two_pow]

/-- A sign extension repeats the top bit that is kept. -/
theorem keepS_getLsbD {m : Nat} (h0 : 0 < m) (hm : m ≤ 64) (f k : Nat) :
    (keepS m f).getLsbD k = (decide (k < 64) && f.testBit (min k (m - 1))) := by
  rw [keepS, lowS_eq_toInt_setWidth h0]
  show (((BitVec.ofNat 64 f).setWidth m).signExtend 64).getLsbD k = _
  rw [BitVec.getLsbD_signExtend, BitVec.msb_eq_getLsbD_last]
  simp only [BitVec.getLsbD_setWidth, BitVec.getLsbD_ofNat]
  by_cases hk : k < m
  · simp [hk, show min k (m - 1) = k by omega, show k < 64 by omega]
  · simp [hk, show m - 1 < m by omega, show m - 1 < 64 by omega, show min k (m - 1) = m - 1 by omega]

/-- The number that a field of `m` bits at `p` holds, bit by bit. -/
theorem field_testBit {w p m : Nat} (h : p + m ≤ w) (a : W64) (k : Nat) :
    (lowU w a / 2 ^ p % 2 ^ m).testBit k = (decide (k < m) && a.getLsbD (p + k)) := by
  rw [Nat.testBit_mod_two_pow, Nat.testBit_div_two_pow, lowU_testBit, Nat.add_comm k p]
  by_cases hk : k < m
  · simp [hk, show p + k < w by omega]
  · simp [hk]

/-- R93, R118: an extracted field, its length cut at the top of the word. -/
theorem bfe_n_getLsbD {w : Nat} (hw : w ≤ 64) (a : W64) (p n k : Nat) :
    (bfe w .n a p n).getLsbD k = (decide (k < fieldLen w p n) && a.getLsbD (p + k)) := by
  unfold bfe
  by_cases h0 : fieldLen w p n = 0
  · simp [h0]
  · have h : p + fieldLen w p n ≤ w := (fieldLen_le w p n).resolve_right h0
    simp only [h0, if_false, keepU_getLsbD, field_testBit h]
    by_cases hk : k < fieldLen w p n
    · simp [hk, show k < 64 by omega]
    · simp [hk]

/-- The same, its top bit repeated up to the word's width. -/
theorem bfe_i_getLsbD {w : Nat} (hw : w ≤ 64) (a : W64) (p n k : Nat) :
    (bfe w .i a p n).getLsbD k =
      (decide (0 < fieldLen w p n) && decide (k < w) && a.getLsbD (p + min k (fieldLen w p n - 1))) := by
  unfold bfe
  by_cases h0 : fieldLen w p n = 0
  · simp [h0]
  · have h : p + fieldLen w p n ≤ w := (fieldLen_le w p n).resolve_right h0
    have hpos : 0 < fieldLen w p n := by omega
    simp only [h0, if_false, keepU_getLsbD, BitVec.testBit_toNat, keepS_getLsbD hpos (show fieldLen w p n ≤ 64 by omega),
      field_testBit h, show min k (fieldLen w p n - 1) < fieldLen w p n by omega, hpos]
    by_cases hk : k < w
    · simp [hk, show k < 64 by omega]
    · simp [hk]

/-- R93, R118: an inserted field, the other bits kept. -/
theorem bfi_getLsbD (w : Nat) (d a : W64) (p n : Nat) {k : Nat} (hk : k < 64) :
    (bfi w d a p n).getLsbD k = if p ≤ k ∧ k < p + fieldLen w p n then a.getLsbD (k - p) else d.getLsbD k := by
  unfold bfi
  by_cases h0 : fieldLen w p n = 0
  · simp [h0, show ¬ (p ≤ k ∧ k < p) by omega]
  · simp only [h0, if_false, BitVec.getLsbD_or, BitVec.getLsbD_and, BitVec.getLsbD_not, BitVec.getLsbD_ofNat,
      Nat.testBit_mul_two_pow, Nat.testBit_two_pow_sub_one, lowU_testBit, hk, decide_true, Bool.true_and]
    by_cases hp : p ≤ k <;> by_cases hm : k - p < fieldLen w p n
    · simp [hp, hm, show k < p + fieldLen w p n by omega]
    · simp [hp, hm, show ¬ k < p + fieldLen w p n by omega]
    · simp [hp]
    · simp [hp]

theorem ofNat_mul_two_pow (w n p : Nat) : BitVec.ofNat w (n * 2 ^ p) = BitVec.ofNat w n <<< p := by
  apply BitVec.eq_of_toNat_eq
  rw [BitVec.toNat_shiftLeft, BitVec.toNat_ofNat, BitVec.toNat_ofNat, Nat.shiftLeft_eq, Nat.mod_mul_mod]

/-- R95: a literal load inserts sixteen bits. -/
theorem bfi_literal (d : W64) (i : BitVec 16) (h : Fin 4) :
    bfi 64 d (i.zeroExtend 64) (16 * h.val) 16 =
      (d &&& ~~~(0xFFFF#64 <<< (16 * h.val))) ||| (i.setWidth 64 <<< (16 * h.val)) := by
  have hl : fieldLen 64 (16 * h.val) 16 = 16 := by rw [fieldLen_eq]; split <;> omega
  have hi : lowU 16 (i.zeroExtend 64) = i.toNat := by
    simp only [lowU, BitVec.truncate_eq_setWidth, BitVec.toNat_setWidth]
    omega
  simp only [bfi, hl, hi, ofNat_mul_two_pow, Nat.reducePow, Nat.reduceSub,
    show (16 : Nat) ≠ 0 by decide, if_false, BitVec.ofNat_toNat]

end Sys2Proof.Machine

open Sys2Proof Sys2Proof.Machine in
/-- Settles O12: each instruction writes a count or field, and the fields are read bit by bit. -/
theorem scalarBits : Obligations.ScalarBits := by
  unfold Obligations.ScalarBits
  refine ⟨?_, ?_⟩
  · intro ty sx h keep x y
    refine ⟨?spopc, ?sclz, ?sbfe, ?sbfi, ?sbfeImm, ?sbfiImm, ?slit⟩ <;>
      refine Completes.of_ok (fun _ => rfl) fun s t _ => ?_
    case spopc => simp only [scal1, bPopc_eq]; rfl
    case sclz => simp only [scal1, bClz_eq]; rfl
    case sbfe | sbfi | sbfeImm | sbfiImm => rfl
    case slit => simp only [slitEff, bfi_literal]; rfl
  · intro w a d p n k hw hk m
    have hm : m = fieldLen w p n := (fieldLen_eq w p n).symm
    have hle : w ≤ 64 := by omega
    rw [hm]
    exact ⟨bfe_n_getLsbD hle a p n k, bfe_i_getLsbD hle a p n k, bfi_getLsbD w d a p n hk⟩
end

section
/-! PROOF. Obligation O13: `nop`, `yield`, the special registers and `scvt` (R94, R100, R107, R108, R372). -/
namespace Sys2Proof.Machine

variable {r : SReg} {g : Guard} {d : Dest} {s : State} {t : Team}

/-- Values of lanes, cut to 32 bits, go to the participating lanes. -/
theorem putLanes_narrow (s : State) (t : Team) (g : Guard) (d : Dest) (f : Nat → W64) :
    putLanes s t g false d f =
      s.modTeam t.id fun u => u.apply ((t.active g).map fun l => .v (destIndex d) l (lo32 (f l))) := by
  simp only [putLanes, laneWrites_narrow]

theorem lo32_setWidth (v : W32) : lo32 (v.setWidth 64) = v := by
  apply BitVec.eq_of_toNat_eq
  simp only [lo32, BitVec.extractLsb'_toNat, BitVec.toNat_setWidth, Nat.shiftRight_zero]
  omega

theorem srdEff_lane : srdEff .lane g d s t = .ok (putLanes s t g false d fun l => BitVec.ofNat 64 l) := by
  simp only [srdEff, putLanes_narrow, lo32_ofNat]

theorem srdEff_fflags : srdEff .fflags g d s t = .ok (putLanes s t g false d fun l => (t.r.fflag l).setWidth 64) := by
  simp only [srdEff, putLanes_narrow, lo32_setWidth]

/-- A special register that is one value goes to a scalar register. -/
theorem srdEff_value (hl : r ≠ .lane) (hf : r ≠ .fflags) (hm : r ≠ .mask) (ht : r ≠ .gtime) :
    srdEff r g d s t = .ok (putScalar s t d (srValue s t r)) := by
  cases r with
  | lane => exact absurd rfl hl
  | fflags => exact absurd rfl hf
  | mask => exact absurd rfl hm
  | gtime => exact absurd rfl ht
  | _ => rfl

end Sys2Proof.Machine

open Sys2Proof Sys2Proof.Machine in
/-- Settles O13: registers of lanes, of the team and of the partition are read each in its place; sr.gtime is also noted. -/
theorem scalarOthers : Obligations.ScalarOthers := by
  unfold Obligations.ScalarOthers
  intro g r d c x
  refine ⟨?nop, ?yield, ?lane, ?fflags, ?mask, ?gtime, ?value, ?scvt⟩
  case nop | yield | mask | gtime | scvt => exact Completes.of_ok (fun _ => rfl) fun _ _ _ => rfl
  case lane => exact Completes.of_ok (fun _ => rfl) fun _ _ _ => srdEff_lane
  case fflags => exact Completes.of_ok (fun _ => rfl) fun _ _ _ => srdEff_fflags
  case value => exact fun hl hf hm ht => Completes.of_ok (fun _ => rfl) fun _ _ _ => srdEff_value hl hf hm ht
end

section
/-! PROOF. Obligations O22 and O23: a diverging branch, its stack overflow, and `unlease` (R102, R105, R174). -/
namespace Sys2Proof.Machine

/-- The address that a `brd` names by one of its displacements (R27). -/
abbrev Team.near (t : Team) (d : BitVec 16) : W64 := t.disp (d.signExtend 64)

/-- Both places that a `brd` names may be entered, and JOIN has RCV (R102). -/
structure State.BrdPlaces (s : State) (t : Team) (target join : BitVec 16) : Prop where
  target_ok : (s.checkTarget t (t.near target)).2 = none
  join_ok : ((s.checkTarget t (t.near target)).1.joinOk t (t.near join)).2 = none

/-- The state in which a `brd` with good places parts the lanes: checked and traced. -/
def State.brdTraced (s : State) (t : Team) (g : Guard) (target join : BitVec 16) : State :=
  ((s.checkTarget t (t.near target)).1.joinOk t (t.near join)).1.tracePacket t t.r.pc
    ⟨2, 0, divFields t (maskOf (t.active g))⟩

/-- The lanes that a `brd` leaves behind. -/
def Team.staying (t : Team) (g : Guard) : LaneMask := t.r.mask &&& ~~~maskOf (t.active g)

/-- The state and the team after the push of a `brd` that is traced in `s` and whose fall-through is good. -/
def State.brdPushed (s : State) (t : Team) (g : Guard) (join : BitVec 16) : State × Team :=
  let n := (s.checkTarget t t.nextClause).1
  n.push ((n.team? t.id).getD t) ⟨t.r.mask, t.staying g, t.nextClause, t.near join⟩

section
variable {s : State} {t : Team} {target join : BitVec 16} (h : s.BrdPlaces t target join)
include h

theorem State.BrdPlaces.checked (g : Guard) :
    ∃ s1 s2, s.checkTarget t (t.near target) = (s1, none) ∧ s1.joinOk t (t.near join) = (s2, none) ∧
      s2.tracePacket t t.r.pc ⟨2, 0, divFields t (maskOf (t.active g))⟩ = s.brdTraced t g target join :=
  ⟨_, _, Prod.ext rfl h.target_ok, Prod.ext rfl h.join_ok, rfl⟩

variable {g : Guard}

/-- All lanes take it. -/
theorem brdEff_all_take (hr : t.staying g = 0) :
    brdEff g target join s t = .goto (s.brdTraced t g target join) (t.near target) := by
  obtain ⟨s1, s2, ha, hb, hf⟩ := h.checked g
  rw [Team.staying] at hr
  simp only [brdEff, ha, hb, hf, hr, if_true]

/-- No lane takes it. -/
theorem brdEff_none_take (hr : t.staying g ≠ 0) (ht : maskOf (t.active g) = 0) :
    brdEff g target join s t = .ok (s.brdTraced t g target join) := by
  obtain ⟨s1, s2, ha, hb, hf⟩ := h.checked g
  rw [Team.staying, ht] at hr
  rw [ht] at hf
  simp only [brdEff, ha, hb, ht, hf, hr, if_true, if_false]

/-- The lanes part, and the stack is full (R105). -/
theorem brdEff_stack_full (hr : t.staying g ≠ 0) (ht : maskOf (t.active g) ≠ 0) (hd : 256 ≤ t.r.depth) :
    brdEff g target join s t = .fault 0x07 0 noLane := by
  obtain ⟨s1, s2, ha, hb, -⟩ := h.checked g
  rw [Team.staying] at hr
  simp only [brdEff, ha, hb, hr, ht, hd, if_true, if_false]

/-- The lanes part, and the entry has its place (R104). -/
theorem brdEff_push (hr : t.staying g ≠ 0) (ht : maskOf (t.active g) ≠ 0) (hd : t.r.depth < 256)
    (hs : t.r.spills = false ∨ t.closed = true)
    (hn : ((s.brdTraced t g target join).checkTarget t t.nextClause).2 = none)
    (hu : (((s.brdTraced t g target join).checkTarget t t.nextClause).1.team? t.id).isSome = true) :
    let q := (s.brdTraced t g target join).brdPushed t g join
    brdEff g target join s t =
      .goto (q.1.setTeam { q.2 with r := { q.2.r with mask := maskOf (t.active g) } }) (t.near target) := by
  obtain ⟨s1, s2, ha, hb, hf⟩ := h.checked g
  obtain ⟨u, hu⟩ := Option.isSome_iff_exists.1 hu
  obtain ⟨s3, hc⟩ : ∃ s3, (s.brdTraced t g target join).checkTarget t t.nextClause = (s3, none) := ⟨_, Prod.ext rfl hn⟩
  have hw : (t.r.spills && !t.closed) = false := by rcases hs with hs | hs <;> simp [hs]
  rw [Team.staying] at hr
  rw [hc] at hu
  simp only [brdEff, State.brdPushed, Team.staying, ha, hb, hf, hr, ht, hw, hc, hu, Nat.not_le.2 hd, if_false,
    Bool.false_eq_true, Option.getD_some]
end

/-- The virtual address of the lease that `unlease` names. -/
def unleaseBase (x : RArgs) (s : State) (t : Team) : W64 := BitVec.ofNat 64 (va56 (addrOf s t x.a 0))

theorem unleaseEff_of_lease {s : State} {t : Team} {x : RArgs}
    (h : (s.part t.part).leases.any (·.base == unleaseBase x s t) = true) :
    unleaseEff x s t = .ok (s.modPart t.part fun p => { p with
      leases := p.leases.filter (·.base != unleaseBase x s t) }) := if_pos h

theorem unleaseEff_of_no_lease {s : State} {t : Team} {x : RArgs}
    (h : (s.part t.part).leases.any (·.base == unleaseBase x s t) = false) :
    unleaseEff x s t = .fault 0x14 (unleaseBase x s t) noLane := if_neg (Bool.eq_false_iff.1 h)

end Sys2Proof.Machine

open Sys2Proof Sys2Proof.Machine in
/-- Settles O22: all lanes take it, none does, or they part with room on the stack. -/
theorem divergingBranch : Obligations.DivergingBranch := by
  unfold Obligations.DivergingBranch
  intro g target join tgt j taken rest a b ok f n live pushed
  refine ⟨?all, ?none, ?part⟩
  case all => exact Transfers.of_goto (fun _ => rfl) fun s t ⟨⟨ha, hb⟩, hr⟩ => brdEff_all_take ⟨ha, hb⟩ hr
  case none => exact Completes.of_ok (fun _ => rfl) fun s t ⟨⟨ha, hb⟩, hr, ht⟩ => brdEff_none_take ⟨ha, hb⟩ hr ht
  case part =>
    exact Transfers.of_goto (fun _ => rfl) fun s t ⟨⟨ha, hb⟩, hr, ht, hd, hs, hn, hu⟩ =>
      brdEff_push ⟨ha, hb⟩ hr ht hd hs hn hu

open Sys2Proof Sys2Proof.Machine in
/-- Settles O23: a `brd` whose lanes part asks for the depth before it pushes; `unlease` asks for the lease. -/
theorem stackOverflowAndUnlease : Obligations.StackOverflowAndUnlease := by
  unfold Obligations.StackOverflowAndUnlease
  intro g target join x tgt j a base
  refine ⟨?full, ?lease, ?no_lease⟩
  case full =>
    exact Faults.of_fault (fun _ => rfl) fun s t ⟨ha, hb, hr, ht, hd⟩ => brdEff_stack_full ⟨ha, hb⟩ hr ht hd
  case lease => exact Completes.of_ok (fun _ => rfl) fun s t h => unleaseEff_of_lease h
  case no_lease => exact Faults.of_fault (fun _ => rfl) fun s t h => unleaseEff_of_no_lease h
end

section
/-! PROOF. Obligation O21: what `exit` leaves running (R99, R104, R105). -/
namespace Sys2Proof.Machine

/-! ## The team in which an effect starts -/

/-- Team `t` stands in `s`, with the registers of `t` but for the vector registers. -/
def State.Stands (s : State) (t : Team) : Prop := ∃ u v, s.team? t.id = some u ∧ u.r = { t.r with v := v }

theorem started_stands (n : RunOf) (s1 : State) (t : Team) (e : Enc) : (started n s1 t e).Stands t := by
  obtain ⟨v, hv⟩ := t.r.releaseAll_with_v (encAccess e (n s1 t)).lr
  exact ⟨_, v, s1.team?_prepare t e _, (t.startedAs_r e _).trans hv⟩

section
variable {i : Instr} {n : RunOf} {P : State → Team → Prop}

/-- An effect may use that its team stands in the state from which it starts. -/
theorem Ends.of_stands {f : State → Team → State} (h : Ends i (fun s t => P s t ∧ s.Stands t) f) : Ends i P f :=
  fun s s1 t e hi hp => h s s1 t e hi ⟨hp, started_stands noRun s1 t e⟩

theorem Faults.of_stands {c : Nat} {a b : State → Team → W64} (h : Faults i n (fun s t => P s t ∧ s.Stands t) c a b) :
    Faults i n P c a b :=
  fun s s1 t e hi hp => h s s1 t e hi ⟨hp, started_stands n s1 t e⟩
end

/-! ## Steps of the loop of `exit` -/

section
variable {s : State} {t : Team} {n : Nat}

theorem State.fill_of_entries {e : REntry} {rest : List REntry} (hs : t.r.stack = e :: rest) : s.fill t = (t, false) := by
  simp [State.fill, Team.slotDry, hs]

/-- The loop looks at a team after its fill. -/
theorem exitLoop_congr_fill {u : Team} (h : s.fill t = s.fill u) : exitLoop s t (n + 1) = exitLoop s u (n + 1) := by
  simp only [exitLoop, h]

theorem exitLoop_of_empty (hs : t.r.stack = []) (hb : t.r.blocks = 0) : exitLoop s t (n + 1) = (t, none, false) := by
  have hf : s.fill t = (t, false) := by simp [State.fill, Team.slotDry, hb]
  simp only [exitLoop, hf, hs]

section
variable {e : REntry} {rest : List REntry} (hs : t.r.stack = e :: rest)
include hs

/-- Lanes wait at the other side of the top entry. -/
theorem exitLoop_other_side (hp : e.pmask ≠ 0) :
    exitLoop s t (n + 1) = ({ t with r := { t.r with
      mask := e.pmask
      stack := { e with pmask := 0 } :: rest } }, some e.ppc, false) := by
  simp only [exitLoop, State.fill_of_entries hs, hs, bne_iff_ne.2 hp, if_true]

/-- None does, but lanes go on at its join. -/
theorem exitLoop_join (hp : e.pmask = 0) (hr : e.rmask ≠ 0) :
    exitLoop s t (n + 1) = ({ t with r := { t.r with
      mask := e.rmask
      stack := rest } }, some e.rc, false) := by
  simp only [exitLoop, State.fill_of_entries hs, hs, hp, bne_self_eq_false, bne_iff_ne.2 hr, Bool.false_eq_true, if_false,
    if_true]

/-- No lane of the top entry is left. -/
theorem exitLoop_pop (hp : e.pmask = 0) (hr : e.rmask = 0) :
    exitLoop s t (n + 1) = exitLoop s { t with r := { t.r with stack := rest } } n := by
  simp only [exitLoop, State.fill_of_entries hs, hs, hp, hr, bne_self_eq_false, Bool.false_eq_true, if_false]
end

section
variable {b : Nat} (hs : t.r.stack = []) (hb : t.r.blocks = b + 1)
include hs hb

theorem Team.slotDry_of_block : t.slotDry = true := by simp [Team.slotDry, hs, hb]

/-- The newest block of the spill area comes into the slot (R104). -/
theorem exitLoop_fill (hk : ∀ k < 68, s.poisoned (s.spillBase t b + 32 * k) = false) :
    exitLoop s t (n + 1) = exitLoop s { t with
      r := { t.r with
        stack := ((List.range 8).map fun j => s.readEntry (s.spillBase t b + 272 * j)).reverse
        blocks := b
        due := 0 }
      fills := t.fills + 1 } (n + 1) := by
  have hp : ((List.range 68).any fun k => s.poisoned (s.spillBase t b + 32 * k)) = false := by
    simpa only [List.any_eq_false, List.mem_range, Bool.not_eq_true] using hk
  apply exitLoop_congr_fill
  obtain ⟨e, rest, he⟩ := List.exists_cons_of_ne_nil
    (show ((List.range 8).map fun j => s.readEntry (s.spillBase t b + 272 * j)).reverse ≠ [] by simp)
  refine Eq.trans ?_ (Eq.symm (State.fill_of_entries he))
  simp only [State.fill, Team.slotDry_of_block hs hb, hb, Nat.add_sub_cancel, hp, Bool.false_eq_true, if_true, if_false]

/-- The fill meets poison. -/
theorem exitLoop_poison (hk : ∃ k < 68, s.poisoned (s.spillBase t b + 32 * k) = true) :
    exitLoop s t (n + 1) = ({ t with r := { t.r with due := t.r.blocks } }, none, true) := by
  have hp : ((List.range 68).any fun k => s.poisoned (s.spillBase t b + 32 * k)) = true := by
    simpa only [List.any_eq_true, List.mem_range] using hk
  have hf : s.fill t = ({ t with r := { t.r with due := t.r.blocks } }, true) := by
    simp only [State.fill, Team.slotDry_of_block hs hb, hb, Nat.add_sub_cancel, hp, if_true]
  simp only [exitLoop, hf]
end
end

/-- The loop goes the way that `Pops` describes, and has steps left where that ends. -/
theorem exitLoop_of_pops {s : State} {t v : Team} (h : Pops s t v) (n : Nat) (hn : t.r.depth ≤ n) :
    ∃ m, exitLoop s t (n + 1) = exitLoop s v (m + 1) := by
  induction h generalizing n with
  | done t => exact ⟨n, rfl⟩
  | pop t u e rest hs hp hr _ ih =>
    obtain ⟨k, rfl⟩ : ∃ k, n = k + 1 := ⟨n - 1, by simp [Regs.depth, hs] at hn; omega⟩
    obtain ⟨m, hm⟩ := ih k (by simp [Regs.depth, hs] at hn ⊢; omega)
    exact ⟨m, (exitLoop_pop hs hp hr).trans hm⟩
  | fill t u b hs hb hk _ ih =>
    obtain ⟨m, hm⟩ := ih n (by simp [Regs.depth, hs, hb] at hn ⊢; omega)
    exact ⟨m, (exitLoop_fill hs hb hk).trans hm⟩

/-! ## The answer of `exit` -/

/-- What the outcome of the loop becomes. -/
def exitAnswer (g : Guard) (s : State) (t : Team) : Team × Option W64 × Bool → Eff
  | (_, _, true) => .fault 0x40 0 noLane
  | (u, none, false) => .leave (s.setTeam { u with
      r := { u.r with mask := 0 }
      stat := .retiring })
  | (u, some h, false) => .leave ((s.traceTaken t g).arrive u h)

/-- The team that stands in `s`, with mask `m` and stack `k`. -/
def State.exiting (s : State) (t : Team) (m : LaneMask) (k : List REntry) : Team :=
  let u := (s.team? t.id).getD t
  { u with r := { u.r with
    mask := m
    stack := k } }

/-- Where no earlier check is open, or no entry is spilled, `exit` runs its loop over the entries without the team's lanes. -/
theorem exitEff_eq {g : Guard} {s : State} {t : Team} (hst : s.Stands t) (hc : t.r.blocks = 0 ∨ t.closed = true) :
    let u := s.exiting t t.r.mask (t.r.stack.map (REntry.without t.r.mask))
    exitEff g s t = exitAnswer g (s.clearSpilled t t.r.mask) t (exitLoop (s.clearSpilled t t.r.mask) u u.steps) := by
  obtain ⟨w, v, hw, hr⟩ := hst
  have hwait : ¬ (0 < t.r.blocks ∧ (!t.closed) = true) := by
    rintro ⟨hb, ho⟩
    rcases hc with hc | hc
    · omega
    · simp [hc] at ho
  have hm : w.r.mask = t.r.mask := by rw [hr]
  have he : s.exiting t t.r.mask (t.r.stack.map (REntry.without t.r.mask)) =
      { w with r := { w.r with stack := t.r.stack.map (REntry.without t.r.mask) } } := by
    simp only [State.exiting, hw, Option.getD_some, ← hm]
  simp only [he, exitEff, hw, if_neg hwait]
  rfl

/-- `v` is what `exit` has left of the team when it has popped the entries of which no lane remains. -/
def State.ExitLeaves (s : State) (t v : Team) : Prop :=
  (t.r.blocks = 0 ∨ t.closed = true) ∧
    Pops (s.clearSpilled t t.r.mask) (s.exiting t t.r.mask (t.r.stack.map (REntry.without t.r.mask))) v

/-- Where the top entry has lanes left, or there is none, nothing is popped. -/
theorem State.ExitLeaves.unpopped {s : State} {t : Team} (hc : t.r.blocks = 0 ∨ t.closed = true) :
    s.ExitLeaves t (s.exiting t t.r.mask (t.r.stack.map (REntry.without t.r.mask))) := ⟨hc, .done _⟩

theorem State.Stands.exiting_blocks {s : State} {t : Team} (h : s.Stands t) {m : LaneMask} {k : List REntry} :
    (s.exiting t m k).r.blocks = t.r.blocks := by
  obtain ⟨u, v, hu, hr⟩ := h
  simp only [State.exiting, hu, Option.getD_some, hr]

/-- Without a block in the spill area nothing is taken out of it. -/
theorem State.clearSpilled_of_no_block {s : State} {t : Team} {x : LaneMask} (h : t.r.blocks = 0) :
    s.clearSpilled t x = s := by
  simp [State.clearSpilled, h]

/-- The spill area stands where it stood. -/
theorem State.spillBase_clearSpilled (s : State) (t u : Team) (x : LaneMask) (b : Nat) :
    (s.clearSpilled t x).spillBase u b = s.spillBase u b := by
  obtain ⟨m, hm⟩ := s.clearSpilled_only t x
  rw [hm]
  rfl

/-- `exit` answers what its loop makes of what it has left. -/
theorem exitEff_of_leaves {g : Guard} {s : State} {t v : Team} (hst : s.Stands t) (h : s.ExitLeaves t v) :
    ∃ m, exitEff g s t = exitAnswer g (s.clearSpilled t t.r.mask) t (exitLoop (s.clearSpilled t t.r.mask) v (m + 1)) := by
  obtain ⟨m, hm⟩ := exitLoop_of_pops h.2
    (3 * (s.exiting t t.r.mask (t.r.stack.map (REntry.without t.r.mask))).r.depth) (by omega)
  exact ⟨m, (exitEff_eq hst h.1).trans (congrArg _ hm)⟩

/-! ## The four ends of the loop -/

section
variable {g : Guard} {s : State} {t v : Team} (hst : s.Stands t) (h : s.ExitLeaves t v)
include hst h

theorem exitEff_retires (hs : v.r.stack = []) (hb : v.r.blocks = 0) :
    exitEff g s t = .leave ((s.clearSpilled t t.r.mask).setTeam { v with
      r := { v.r with mask := 0 }
      stat := .retiring }) := by
  obtain ⟨m, hm⟩ := exitEff_of_leaves hst h
  rw [hm, exitLoop_of_empty hs hb, exitAnswer]

theorem exitEff_poisoned {b : Nat} (hs : v.r.stack = []) (hb : v.r.blocks = b + 1)
    (hk : ∃ k < 68, (s.clearSpilled t t.r.mask).poisoned (s.spillBase v b + 32 * k) = true) :
    exitEff g s t = .fault 0x40 0 noLane := by
  obtain ⟨m, hm⟩ := exitEff_of_leaves hst h
  rw [hm, exitLoop_poison hs hb (by rwa [State.spillBase_clearSpilled]), exitAnswer]

variable {e : REntry} {rest : List REntry} (hs : v.r.stack = e :: rest)
include hs

theorem exitEff_other_side (hp : e.pmask ≠ 0) :
    exitEff g s t = .leave (((s.clearSpilled t t.r.mask).traceTaken t g).arrive { v with r := { v.r with
      mask := e.pmask
      stack := { e with pmask := 0 } :: rest } } e.ppc) := by
  obtain ⟨m, hm⟩ := exitEff_of_leaves hst h
  rw [hm, exitLoop_other_side hs hp, exitAnswer]

theorem exitEff_join (hp : e.pmask = 0) (hr : e.rmask ≠ 0) :
    exitEff g s t = .leave (((s.clearSpilled t t.r.mask).traceTaken t g).arrive { v with r := { v.r with
      mask := e.rmask
      stack := rest } } e.rc) := by
  obtain ⟨m, hm⟩ := exitEff_of_leaves hst h
  rw [hm, exitLoop_join hs hp hr, exitAnswer]
end

end Sys2Proof.Machine

open Sys2Proof Sys2Proof.Machine in
/-- Settles O21: `exit` answers what its loop makes of the entries that are left; the first clauses are those without a pop. -/
theorem exitOutcomes : Obligations.ExitOutcomes := by
  unfold Obligations.ExitOutcomes
  intro g e rest v b without live left goes
  refine ⟨?retired, ?other, ?join, ?pops_retired, ?pops_other, ?pops_join, ?poison⟩
  case retired =>
    refine .of_stands (.of_leave (fun _ => rfl) fun s t ⟨⟨hs, hb⟩, hst⟩ => ?_)
    have hl := exitEff_retires (g := g) hst (.unpopped (.inl hb)) (congrArg (List.map _) hs) (hst.exiting_blocks.trans hb)
    rw [hl, State.clearSpilled_of_no_block hb, hs]
    rfl
  case other =>
    refine .of_stands (.of_leave (fun _ => rfl) fun s t ⟨⟨hc, hs, hp⟩, hst⟩ => ?_)
    exact exitEff_other_side hst (.unpopped hc) (congrArg (List.map _) hs) hp
  case join =>
    refine .of_stands (.of_leave (fun _ => rfl) fun s t ⟨⟨hc, hs, hp, hr⟩, hst⟩ => ?_)
    exact exitEff_join hst (.unpopped hc) (congrArg (List.map _) hs) hp hr
  case pops_retired =>
    exact .of_stands (.of_leave (fun _ => rfl) fun s t ⟨⟨h, hs, hb⟩, hst⟩ => exitEff_retires hst h hs hb)
  case pops_other =>
    exact .of_stands (.of_leave (fun _ => rfl) fun s t ⟨⟨h, hs, hp⟩, hst⟩ => exitEff_other_side hst h hs hp)
  case pops_join =>
    exact .of_stands (.of_leave (fun _ => rfl) fun s t ⟨⟨h, hs, hp, hr⟩, hst⟩ => exitEff_join hst h hs hp hr)
  case poison =>
    exact .of_stands (.of_fault (fun _ => rfl) fun s t ⟨⟨h, hs, hb, hk⟩, hst⟩ => exitEff_poisoned hst h hs hb hk)
end

section
/-! PROOF. Obligations O14 and O15: lane arithmetic, logic, shifts, counts and bit fields (R115-R120). -/
namespace Sys2Proof.Machine

/-! ## Sign and selection -/

theorem iRes_neg_iVal (t : IW) (x : W64) : iRes t (-iVal t x) = narrow t (-x) := by
  have h : (0 - iVal t x) % 2 ^ iwBits t = (0 - x.toInt) % 2 ^ iwBits t := by
    rw [Int.sub_emod, iVal_emod t x, ← Int.sub_emod]
  rw [Int.zero_sub, Int.zero_sub] at h
  rw [iRes_eq_narrow, narrow_ofInt_congr h, BitVec.ofInt_neg, BitVec.ofInt_toInt]

theorem iNeg_eq (st : IS) (x : W64) : iNeg st x = narrow (isToIW st) (-x) := iRes_neg_iVal _ x

theorem iAbs_eq (st : IS) (x : W64) :
    iAbs st x = narrow (isToIW st) (if value (isToIW st) x < 0 then -x else x) := by
  rw [iAbs, ← iVal_eq_value]
  split
  · next h => rw [Int.ofNat_natAbs_of_nonpos (Int.le_of_lt h), iRes_neg_iVal]
  · next h => rw [Int.natAbs_of_nonneg (Int.not_lt.1 h), iRes_iVal]

/-- The low 32 bits of an operand are zero as a number exactly where they are as a word. -/
theorem lowU_32_eq_zero_iff (v : W64) : lowU 32 v = 0 ↔ lo32 v = 0 := by
  rw [← BitVec.toNat_inj]
  simp [lowU, lo32, BitVec.extractLsb'_toNat]

/-! ## A bit of each lane -/

theorem Team.raises_zero (t : Team) (ls : List Nat) : t.raises (ls.map fun l => (l, 0)) = t := by
  induction ls generalizing t with
  | nil => rfl
  | cons l ls ih => exact ih t

/-- A comparison that raises no flag writes its bit in each participating lane. -/
theorem bitEff_eq_putLanes (g : Guard) (d : Dest) (b : Nat) (f : Nat → Bool) (s : State) (t : Team) :
    bitEff g d b f (fun _ => 0) s t =
      .ok (putLanes s t g false d fun l => putBit ((t.r.lane (destIndex d) l).setWidth 64) b (f l)) := by
  simp only [bitEff, Team.raises_zero, putLanes_narrow, BitVec.truncate_eq_setWidth]

end Sys2Proof.Machine

open Sys2Proof Sys2Proof.Machine in
/-- Settles O14: each lane's value is the one that the type keeps of the bit vectors' own arithmetic. -/
theorem vectorArithmetic : Obligations.VectorArithmetic := by
  unfold Obligations.VectorArithmetic
  intro ty st k b x y A B
  refine ⟨?vadd, ?vsub, ?vmul, ?vmulh, ?vmad, ?vabs, ?vneg, ?vaddImm, ?vmulImm, ?vmin, ?vmax, ?vminImm, ?vmaxImm, ?vsel,
    rfl, ?vcmp⟩ <;> refine Completes.of_ok (fun _ => rfl) fun s t _ => ?_
  case vadd | vsub | vmul | vmulh | vmin | vmax =>
    simp only [vec2, iAdd_eq, iSub_eq, iMul_eq, iMulh_eq, iMin_eq, iMax_eq]; rfl
  case vmad => simp only [vec3, iMad_eq]; rfl
  case vabs | vneg => simp only [vec1, iAbs_eq, iNeg_eq]; rfl
  case vaddImm | vmulImm | vminImm | vmaxImm => simp only [vecI, iAdd_eq, iMul_eq, iMin_eq, iMax_eq]; rfl
  case vsel => simp only [vec3, lowU_32_eq_zero_iff]; rfl
  case vcmp => simp only [vcmpEff, bitEff_eq_putLanes, putBit_eq, iVal_eq_value]; rfl

open Sys2Proof Sys2Proof.Machine in
/-- Settles O15: each lane's value is what the width keeps of the bit vectors' own operation, or a count or a field of it. -/
theorem vectorLogicShiftsAndBits : Obligations.VectorLogicShiftsAndBits := by
  unfold Obligations.VectorLogicShiftsAndBits
  refine ⟨?words, ?counts⟩
  case words =>
    intro ty x y A N
    refine ⟨?vand, ?vor, ?vxor, ?vnot, ?vshl, ?vshr, ?vsar, ?vandImm, ?vorImm, ?vxorImm, ?vshlImm, ?vshrImm, ?vsarImm⟩ <;>
      refine Completes.of_ok (fun _ => rfl) fun s t _ => ?_
    case vand | vor | vxor => simp only [vec2, bAnd, bOr, bXor, keepU_toNat]; rfl
    case vnot => simp only [vec1, bNot, keepU_toNat]; rfl
    case vshl | vshr | vsar => simp only [vec2, bShl_eq, bShr_eq, bSar_eq]; rfl
    case vandImm | vorImm | vxorImm => simp only [vecI, bAnd, bOr, bXor, keepU_toNat]; rfl
    case vshlImm | vshrImm | vsarImm => simp only [vecI, bShl_eq, bShr_eq, bSar_eq]; rfl
  case counts =>
    intro ty sx x A B
    refine ⟨?vpopc, ?vclz, ?vbfe, ?vbfi⟩ <;> refine Completes.of_ok (fun _ => rfl) fun s t _ => ?_
    case vpopc | vclz => simp only [vecCount, bPopc_eq, bClz_eq]; rfl
    case vbfe | vbfi => rfl
end

section
/-! PROOF. Obligations O17 and O18: functions, classes, conversions and packed arithmetic of each lane (R124-R127). -/
namespace Sys2Proof.Machine

/-- A result without lookahead stands at once (R31): flags first, then the values. -/
theorem longEff_eq_ok {x : RArgs} (hl : x.la = 0) (f : Nat → Nat × W32) (s : State) (t : Team) :
    longEff x f s t = .ok (putLanes (raiseLanes s t (t.active x.g) fun l => (f l).2) t x.g false x.d fun l =>
      BitVec.ofNat 64 (f l).1) := by
  have h0 : x.la.val = 0 := congrArg Fin.val hl
  simp only [longEff, State.resultWrites, h0, if_true, putLanes_narrow, lo32_ofNat, raiseLanes]

/-- An instruction whose effect is `longEff` completes, without lookahead, with a value and flags in each participating lane. -/
theorem Completes.of_longEff {i : Instr} {x : RArgs} {f : State → Team → Nat → Nat × W32} (hl : x.la = 0)
    (hx : ∀ s, exec i s = issue i (fun s t => longEff x (f s t) s t) s) :
    Completes i noRun always fun s t =>
      putLanes (raiseLanes s t (t.active x.g) fun l => (f s t l).2) t x.g false x.d fun l => BitVec.ofNat 64 (f s t l).1 :=
  .of_ok hx fun s t _ => longEff_eq_ok hl (f s t) s t

variable {s : State} {t u : Team}

/-- Results of either width in the participating lanes, then the flags of these lanes, are one change of the team. -/
theorem raiseLanes_putLanes_wide (hu : s.team? t.id = some u) (hid : u.id = t.id) (g : Guard) (wide : Bool) (d : Dest)
    (f : Nat → W64) (h : Nat → W32) :
    raiseLanes (putLanes s t g wide d f) t (t.active g) h = s.modTeam t.id fun u =>
      (u.apply ((t.active g).flatMap fun l => laneWrites wide (destIndex d) l (f l))).raises
        ((t.active g).map fun l => (l, h l)) := by
  rw [raiseLanes, putLanes, State.modTeam_modTeam hu (by simp [hid]) (by simp [hid])]

/-- The value and the flags that `cvt`, or with `no` `cvt.nosat`, gives in lane `l` (R126). -/
def converted (no : Bool) (rm : RM) (dst src : Fmt) (x : RArgs) (s : State) (t : Team) (l : Nat) : W64 × W32 :=
  convert no (modeAt t rm l) dst src (opnd s t (srcTy src) x.a l).toNat

theorem cvtEff_eq_ok (hu : s.team? t.id = some u) (hid : u.id = t.id) (no : Bool) (rm : RM) (dst src : Fmt) (x : RArgs) :
    cvtEff no rm dst src x s t =
      .ok (raiseLanes (putLanes s t x.g (dst.regs == 2) x.d fun l => (converted no rm dst src x s t l).1) t (t.active x.g)
        fun l => (converted no rm dst src x s t l).2) := by
  rw [raiseLanes_putLanes_wide hu hid]; rfl

/-! ## Packed elements -/

/-- Two elements of each lane, computed apart, with the flags of both. -/
def packedRes (x : RArgs) (f : State → Team → Nat → Nat → Nat × W32) (s : State) (t : Team) : State :=
  raiseLanes (putLanes s t x.g false x.d fun l =>
    BitVec.ofNat 64 ((f s t l 0).1 % 2 ^ 16 + (f s t l 1).1 % 2 ^ 16 * 2 ^ 16)) t (t.active x.g) fun l =>
      (f s t l 0).2 ||| (f s t l 1).2

variable {i : Instr} {rm : RM} {x : RArgs}

/-- The pair of elements is one value of the lane. -/
theorem Completes.of_packed (f : State → Team → Nat → Nat → Nat × W32)
    (hx : ∀ s, exec i s = issue i (fun s t => vecFlt s t x.g x.d fun l => packed (f s t l)) s) :
    Completes i noRun always (packedRes x f) := by
  have h := Completes.of_vecFlt hx
  simp only [packed] at h
  exact h

theorem Completes.of_pack2 (fm : Fmt) (f : Rmode → Nat → Nat → Nat × W32)
    (hx : ∀ s, exec i s = issue i (pack2 fm rm x f) s) :
    Completes i noRun always (packedRes x fun s t l e =>
      f (modeAt t rm l) (half (popnd s t fm x.a l) e) (half (popnd s t fm x.b l) e)) := .of_packed _ hx

theorem Completes.of_pack3 (fm : Fmt) (f : Rmode → Nat → Nat → Nat → Nat × W32)
    (hx : ∀ s, exec i s = issue i (pack3 fm rm x f) s) :
    Completes i noRun always (packedRes x fun s t l e =>
      f (modeAt t rm l) (half (popnd s t fm x.a l) e) (half (popnd s t fm x.b l) e) (half (popnd s t fm x.c l) e)) :=
  .of_packed _ hx

end Sys2Proof.Machine

open Sys2Proof Sys2Proof.Machine in
/-- Settles O17: a value and flags in each lane; `fclass` raises none. -/
theorem floatFunctions : Obligations.FloatFunctions := by
  unfold Obligations.FloatFunctions
  intro rm f dst src x hl F res conv
  refine ⟨?frcp, ?frsq, ?fsqrt, ?fex2, ?flg2, ?fsin, ?fcos, ?fclass, ?cvt, ?cvtNosat⟩
  case frcp | frsq | fsqrt | fex2 | flg2 | fsin | fcos => exact Completes.of_longEff hl fun _ => rfl
  case fclass => exact Completes.of_ok (fun _ => rfl) fun _ _ _ => rfl
  case cvt => exact Completes.of_ok_team (fun _ => rfl) fun _ _ _ _ hu hid => cvtEff_eq_ok hu hid false rm dst src x
  case cvtNosat => exact Completes.of_ok_team (fun _ => rfl) fun _ _ _ _ hu hid => cvtEff_eq_ok hu hid true rm dst src x

open Sys2Proof Sys2Proof.Machine in
/-- Settles O18: the pair of elements is one value of the lane, with the flags of both. -/
theorem packedArithmetic : Obligations.PackedArithmetic := by
  unfold Obligations.PackedArithmetic
  intro rm x P res
  refine ⟨?hadd2F16, ?hmul2F16, ?hfma2F16, ?hadd2Bf16, ?hmul2Bf16, ?hfma2Bf16⟩
  case hadd2F16 | hmul2F16 => exact Completes.of_pack2 .f16 _ fun _ => rfl
  case hfma2F16 => exact Completes.of_pack3 .f16 _ fun _ => rfl
  case hadd2Bf16 | hmul2Bf16 => exact Completes.of_pack2 .bf16 _ fun _ => rfl
  case hfma2Bf16 => exact Completes.of_pack3 .bf16 _ fun _ => rfl
end

section
/-! PROOF. Obligation O19: exchanges, broadcasts, ballots, votes, reductions and scans (R129-R134). -/
namespace Sys2Proof.Machine

variable {s : State} {t : Team} {x : RArgs}

/-! ## Participating lanes -/

theorem Team.lt_of_mem_active {g : Guard} {l : Nat} (h : l ∈ t.active g) : l < t.w :=
  List.mem_range.1 (List.mem_filter.1 (List.mem_filter.1 h).1).1

/-- Only the values of the participating lanes are written. -/
theorem putLanes_congr {g : Guard} {wide : Bool} {d : Dest} {f h : Nat → W64} (hf : ∀ l ∈ t.active g, f l = h l) :
    putLanes s t g wide d f = putLanes s t g wide d h := by
  have hw : ((t.active g).flatMap fun l => laneWrites wide (destIndex d) l (f l)) =
      (t.active g).flatMap fun l => laneWrites wide (destIndex d) l (h l) := by
    rw [List.flatMap_def, List.flatMap_def]
    exact congrArg List.flatten (List.map_congr_left fun l hl => by rw [hf l hl])
  simp only [putLanes, hw]

/-! ## Exchanges -/

/-- The lane that `shfl` names, which may be outside the team (R129). -/
def shflLane (op : SH) (l n : Nat) : Int :=
  match op with
  | .idx => n
  | .xor => (l ^^^ n : Nat)
  | .up => (l : Int) - n
  | .down => l + n

theorem shflSrc_eq_some_iff (op : SH) {w l : Nat} (hl : l < w) (n k : Nat) :
    shflSrc op w l n = some k ↔ shflLane op l n = k ∧ k < w := by
  cases op <;> simp only [shflSrc, shflLane, Option.ite_none_right_eq_some, Option.some.injEq]
  case xor => generalize l ^^^ n = m; omega
  case idx | up | down => omega

/-- A lane of the team takes from the lane named where that is in the team, and from itself otherwise. -/
theorem shflSrc_getD (op : SH) {w l : Nat} (hl : l < w) (n : Nat) :
    (shflSrc op w l n).getD l = if 0 ≤ shflLane op l n ∧ shflLane op l n < w then (shflLane op l n).toNat else l := by
  split
  · next h => rw [(shflSrc_eq_some_iff op hl n (shflLane op l n).toNat).2 (by omega), Option.getD_some]
  · next h =>
    have hn : shflSrc op w l n = none := Option.eq_none_iff_forall_ne_some.2 fun k hk => by
      have := (shflSrc_eq_some_iff op hl n k).1 hk
      omega
    rw [hn, Option.getD_none]

theorem shflEff_eq_ok (op : SH) : shflEff op x s t = .ok (putLanes s t x.g false x.d fun l =>
    let from_ := shflLane op l (lane32 s t x.b l).toNat
    opnd s t (.int false) x.a (if 0 ≤ from_ ∧ from_ < t.w then from_.toNat else l)) :=
  congrArg Eff.ok (putLanes_congr fun l hl => by rw [shflSrc_getD op (Team.lt_of_mem_active hl)])

/-! ## Results in scalar or in vector registers -/

/-- A value of the team goes to a scalar register, or to each participating lane. -/
theorem result_eq_ok (v : W64) :
    (if x.d.isS then scalarRes s t x.d v else vecRes s t x.g false x.d fun _ => v) =
      .ok (if x.d.isS then putScalar s t x.d v else putLanes s t x.g false x.d fun _ => v) :=
  (apply_ite Eff.ok _ _ _).symm

theorem bcastEff_eq_ok : bcastEff x s t = .ok (
    let n := (uni s t x.b).toNat
    let v : W64 := if n < t.w then opnd s t (.int false) x.a n else 0
    if x.d.isS then putScalar s t x.d v else putLanes s t x.g false x.d fun _ => v) := result_eq_ok _

theorem tredEff_eq_ok (op : TO) : tredEff op x s t = .ok (
    let who := if x.d.isS then t.liveLanes else t.active x.g
    let v := tree op (log2up t.w) (contributions op x s t who)
    let s := raiseLanes s t who fun _ => v.2
    if x.d.isS then putScalar s t x.d (BitVec.ofNat 64 v.1)
    else putLanes s t x.g false x.d fun _ => BitVec.ofNat 64 v.1) := result_eq_ok _

end Sys2Proof.Machine

open Sys2Proof Sys2Proof.Machine in
/-- Settles O19: an exchange reads the lane named where the team has it; the others write the value of their rule as it stands. -/
theorem teamWideInstructions : Obligations.TeamWideInstructions := by
  unfold Obligations.TeamWideInstructions
  intro sh vt to_ b db x set
  refine ⟨?shfl, ?bcast, ?ballot, ?vote, ?tred, ?tscan⟩ <;> refine Completes.of_ok (fun _ => rfl) fun s t _ => ?_
  case shfl => rw [shflEff_eq_ok]; cases sh <;> rfl
  case bcast => exact bcastEff_eq_ok
  case ballot | tscan => rfl
  case vote => cases vt <;> rfl
  case tred => exact tredEff_eq_ok to_
end

section
/-! PROOF. Obligation O29: the matrix instructions join the array queue, and `mwait` drains it (R178-R192, R386). -/
namespace Sys2Proof.Machine

/-! ## A block read at issue -/

section
variable {s : State} {t : Team} {va n : Nat} {first : State → List W64 → Option Eff} {k : State → List W64 → Eff}

/-- A block that can be read, and whose words lead to no fault of their own, gives its words. -/
theorem withBlockAnd_of_reads (h : BlockReads s t va n) (hf : first (blockOf s t va n).1 (blockOf s t va n).2 = none) :
    withBlockAnd first s t va n 64 k = k (blockOf s t va n).1 (blockOf s t va n).2 := by
  unfold BlockReads at h
  unfold blockOf at hf ⊢
  unfold withBlockAnd
  dsimp only
  generalize s.checkRange t.core t.part t.level .load .plain (va56 va) (8 * n) = q at h hf ⊢
  obtain ⟨s', b | l⟩ := q
  · exact h.2.2.elim
  · obtain ⟨ha, hw, hl, ho, hp⟩ := h
    have lost : (if t.lost = some t.icount then (physOf l).findIdx? s'.isPeer else none) = none := by
      simpa using hl
    have words : first s' (s'.wordsAt t.part n (physOf l)) = none := hf
    simp only [ha, lost, words, State.watching, hw, ho, hp, ne_eq, not_true_eq_false, if_false, ite_self, Bool.not_true,
      Bool.false_eq_true]
    rfl

theorem withBlock_of_reads (h : BlockReads s t va n) :
    withBlock s t va n 64 k = k (blockOf s t va n).1 (blockOf s t va n).2 := withBlockAnd_of_reads h rfl

/-- A block whose byte `i` another device has not answered is fault 0x18 (R386). -/
theorem withBlockAnd_of_unanswered {i : Nat} (h : BlockUnanswered s t va n i) :
    withBlockAnd first s t va n 64 k = .fault 0x18 (BitVec.ofNat 64 (va56 va + i)) noLane := by
  unfold BlockUnanswered at h
  unfold withBlockAnd
  dsimp only
  generalize s.checkRange t.core t.part t.level .load .plain (va56 va) (8 * n) = q at h ⊢
  obtain ⟨ha, hw, hi, hl⟩ := h
  obtain ⟨s', b | l⟩ := q
  · exact hl.elim
  · have lost : (if t.lost = some t.icount then (physOf l).findIdx? s'.isPeer else none) = some i := (if_pos hi).trans hl
    simp [ha, lost, State.watching, hw]
end

/-! ## The effects past their checks -/

section
variable {s : State} {t : Team} {x : XArgs} {m : Matrix}

/-- A matrix instruction of a team that holds an array goes on. -/
theorem withArray_of_isSome {k : Eff} (h : t.mtx.isSome = true) : (withArray t fun _ => k) = k := by
  obtain ⟨m, hm⟩ := Option.isSome_iff_exists.1 h
  simp only [withArray, hm]

theorem withArray_of_some {k : Matrix → Eff} (h : t.mtx = some m) : withArray t k = k m := by
  simp only [withArray, h]

/-- The address of the format block that `mfmt` names: in A, or bound. -/
def mfmtVa (x : XArgs) (s : State) (t : Team) : Option Nat :=
  if x.a = Opnd.none then t.binding s x.bnd.val 0 else some (uni s t x.a).toNat

theorem mfmtEff_eq {a : Nat} (h : t.mtx.isSome = true) (ha : mfmtVa x s t = some a) :
    mfmtEff x s t = withBlock s t a 8 64 fun s w =>
      if fmtOk w then .ok (s.enqueue t (.fmt w) false id) else .fault 0x08 (BitVec.ofNat 64 (va56 a)) noLane := by
  unfold mfmtEff
  rw [withArray_of_isSome h]
  unfold mfmtVa at ha
  split at ha
  · next hn => simp only [hn, if_true, ha]
  · next hn =>
    obtain rfl := Option.some.inj ha
    simp only [hn, if_false]

/-- The checks of `mld` and `mst` on a bank of elements of `e` bytes (R191). -/
structure BankFits (e : Nat) (s : State) (t : Team) (x : XArgs) : Prop where
  array : t.mtx.isSome = true
  high : bitsOf (uni s t x.a) 63 48 = 0
  off_aligned : bitsOf (uni s t x.a) 31 0 % 16 = 0
  stride_aligned : rowStride (bitsOf (uni s t x.a) 47 32) e % 16 = 0
  stride_le : 64 * e ≤ rowStride (bitsOf (uni s t x.a) 47 32) e
  inside : bitsOf (uni s t x.a) 31 0 + 63 * rowStride (bitsOf (uni s t x.a) 47 32) e + 64 * e ≤ t.scrS

theorem withBank_of_fits {e : Nat} {k : Nat → Nat → Eff} (h : BankFits e s t x) :
    withBank s t x e k = k (bitsOf (uni s t x.a) 31 0) (bitsOf (uni s t x.a) 47 32) := by
  obtain ⟨array, high, off, stride, le, inside⟩ := h
  unfold withBank
  rw [withArray_of_isSome array]
  simp only [high, off, stride, Nat.not_lt.2 le, Nat.not_lt.2 inside, ne_eq, not_true_eq_false, or_self, if_false]

theorem mstWidth_eq (f : MS) : mstWidth f = if f = .f32 then 4 else 2 := by cases f <;> rfl

/-- A multiply whose checks pass joins the queue; without REU it leaves its rows in the latch. -/
theorem mulEff_of_array {set : Bool} {n : Nat} (hm : t.mtx = some m) (hf : mulFault t m x n = none) :
    mulEff set n x s t =
      let regs := n * kRegs m.pendingFmt
      let rows := if x.reu then (m.latch.map (·.rows)).getD [] else collect t x.a.index regs
      .ok (s.enqueue t (.mul set x.acc.val n ((t.r.sget (destIndex x.d)).toNat % 2 ^ 32) rows m.pendingFmt) x.reu fun q =>
        if x.reu then q else { q with latch := some ⟨x.a.index, fmtA m.pendingFmt, regs, rows⟩ }) := by
  unfold mulEff
  rw [withArray_of_some hm]
  simp only [hf]

/-- `mwait` at an empty queue hands the flags of the four banks to the live lanes (R192). -/
theorem mwaitEff_of_empty (hm : t.mtx = some m) (hq : m.queue = []) :
    mwaitEff s t = .ok ((s.modTeam t.id fun u =>
      { u.raises (t.liveLanes.map (·, m.flags.get 0 0 ||| m.flags.get 0 1 ||| m.flags.get 0 2 ||| m.flags.get 0 3)) with
        mtx := some { m with flags := [] } }).wakeArr t) := by
  have flags : (List.range 4).foldl (fun g c => g ||| m.flags.get 0 c) 0 =
      m.flags.get 0 0 ||| m.flags.get 0 1 ||| m.flags.get 0 2 ||| m.flags.get 0 3 := by
    simp [List.range_succ]
  unfold mwaitEff
  rw [withArray_of_some hm]
  simp only [hq, flags, List.isEmpty_nil, Bool.not_true, Bool.false_eq_true, if_false]
end

end Sys2Proof.Machine

open Sys2Proof Sys2Proof.Machine in
/-- Settles O29: past its checks each of them appends its entry, and `mwait` finds the queue empty. -/
theorem matrixInstructions : Obligations.MatrixInstructions := by
  unfold Obligations.MatrixInstructions
  intro set f g x m va off rs fits mul ready
  have bank {e : Nat} {s : State} {t : Team} (h : fits e s t) : BankFits e s t x := by
    obtain ⟨array, high, aligned, stride, le, inside⟩ := h
    exact ⟨array, high, aligned, stride, le, inside⟩
  refine ⟨fun a => ?mfmt, fun a i => ?unanswered, ?mma, ?mloop, ?mzero, ?mld, ?mst, ?mwait⟩
  case mfmt =>
    refine Completes.of_ok (fun _ => rfl) fun s t ⟨hm, ha, hb, hok⟩ => ?_
    rw [mfmtEff_eq hm ha, withBlock_of_reads hb, if_pos hok]
  case unanswered =>
    refine Faults.of_fault (fun _ => rfl) fun s t ⟨hm, ha, hb⟩ => ?_
    exact (mfmtEff_eq hm ha).trans (withBlockAnd_of_unanswered hb)
  case mma | mloop => exact Completes.of_ok (fun _ => rfl) fun s t ⟨hm, hf⟩ => mulEff_of_array hm hf
  case mzero => exact Completes.of_ok (fun _ => rfl) fun s t hm => withArray_of_isSome hm
  case mld => exact Completes.of_ok (fun _ => rfl) fun s t h => withBank_of_fits (bank h)
  case mst =>
    refine Completes.of_ok (fun _ => rfl) fun s t h => ?_
    exact withBank_of_fits (by rw [mstWidth_eq]; exact bank h)
  case mwait => exact Completes.of_ok (fun _ => rfl) fun s t ⟨hm, hq⟩ => mwaitEff_of_empty hm hq
end

section
/-! PROOF. Obligation O45: the tiles of a stream engine move, or fault it (R194-R197, R310-R312). -/
namespace Sys2Proof.Machine

/-- Work behind `n` cuts depends on what it does in the state that counts them. -/
theorem State.asOld_congr {s : State} {n : Nat} {f g : State → State} (h : f { s with back := n } = g { s with back := n }) :
    s.asOld n f = s.asOld n g := by
  simp only [State.asOld, h]

/-- What moves of byte `i` of the tile in flight as `f` at place `j`: it is read, or, of the oldest tile, written once read. -/
def State.tilePart (q : State) (u : Team) (f : Flight) (j i : Nat) : State × Flight :=
  if j ≠ 0 ∨ (f.got.get? i).isNone then (q, q.fetchFlight u f [i])
  else if q.flightHeld u.part f then (q, f) else q.landFlight u f [i]

theorem State.tilePart_read (q : State) (u : Team) {f : Flight} {j i : Nat} (h : j ≠ 0 ∨ f.got.get? i = none) :
    q.tilePart u f j i = (q, q.fetchFlight u f [i]) :=
  if_pos (h.imp_right fun h => by rw [h]; rfl)

theorem State.tilePart_write {q : State} {u : Team} {f : Flight} {i : Nat} (hi : f.got.get? i ≠ none)
    (hf : q.flightHeld u.part f = false) : q.tilePart u f 0 i = q.landFlight u f [i] := by
  rw [State.tilePart, if_neg (by simpa using hi), if_neg (Bool.eq_false_iff.1 hf)]

section
variable {s s' : State} {t : TeamId} {k j i : Nat} {u : Team} {e : Engine} {r : Run} {f : Flight}
  (hw : s.working t k = some (u, e, r))
include hw

/-- The oldest tile completes, once no write of its partition waits. -/
theorem State.tileComplete_of_goes (ht : s.tileAt u e 0 = (s', .goes f)) (ho : s'.oldTile u k 0 e = 0)
    (hf : State.flightHeld { s' with back := 0 } u.part f = false) :
    s.tileComplete t k = s'.asOld 0 fun q => q.finishTile u k r f := by
  simp only [State.tileComplete, hw, ht, ho]
  exact State.asOld_congr (if_neg (Bool.eq_false_iff.1 hf))

/-- Byte `i` of the tile at place `j` moves. -/
theorem State.tileStep_of_goes (hj : j < 8) (hl : j ≤ e.fly.length) (hs : e.st = .stopping → j < e.fly.length)
    (ht : s.tileAt u e j = (s', .goes f)) (ho : s'.oldTile u k j e = 0) :
    s.tileStep t k j i = s'.asOld 0 fun q =>
      (q.tilePart u f j i).1.modWork u.part t fun v => v.setFlight k j (q.tilePart u f j i).2 := by
  have open_ : ¬ (8 ≤ j ∨ e.fly.length < j ∨ (e.st = .stopping ∧ j = e.fly.length)) := by
    rintro (h | h | ⟨h, h'⟩)
    · omega
    · omega
    · have := hs h; omega
  simp only [State.tileStep, hw, if_neg open_, ht, ho]
  rfl

/-- The oldest tile fails the engine. -/
theorem State.engineFails_of_fails {code info : Nat} {b : Bool} (ht : s.tileNext u e 0 = (s', .fails code info))
    (ho : s'.oldTile u k 0 e = 0) :
    s.engineFails t k b = s'.asOld 0 fun q => q.modWork u.part t fun v => v.tileFails k code info := by
  simp only [State.engineFails, hw, ht, ho]

/-- Another device has not answered the oldest tile, of which nothing is written (R386). -/
theorem State.engineFails_of_unanswered {va : Nat} (ht : s.tileNext u e 0 = (s', .goes f)) (hp : f.put = [])
    (hv : f.firstOn s'.isPeer = some va) (ho : s'.oldTile u k 0 e = 0) :
    s.engineFails t k true = s'.asOld 0 fun q => q.modWork u.part t fun v => v.tileFails k 0x18 va := by
  simp only [State.engineFails, hw, ht, hp, hv, ho, List.isEmpty_nil, Bool.and_self]
end

/-- What fails for itself fails before its memory is asked for. -/
theorem State.tileNext_of_tileAt_fails {s s' : State} {u : Team} {e : Engine} {j code info : Nat}
    (h : s.tileAt u e j = (s', .fails code info)) : s.tileNext u e j = (s', .fails code info) := by
  unfold State.tileAt at h
  split at h
  · split at h <;> cases h
  · exact h

theorem execStreamTileComplete_whole {s : State} (h : s.ev.flag = false) :
    exec .streamTileComplete s = .next (s.tileComplete s.ev.team s.ev.eng) :=
  congrArg Host.Outcome.next (if_neg (Bool.eq_false_iff.1 h))

theorem execStreamTileComplete_part {s : State} (h : s.ev.flag = true) :
    exec .streamTileComplete s = .next (s.tileStep s.ev.team s.ev.eng s.ev.idx s.ev.addr) :=
  congrArg Host.Outcome.next (if_pos h)

end Sys2Proof.Machine

open Sys2Proof Sys2Proof.Machine in
/-- Settles O45: the event's tile goes, of the oldest also its writes, or its engine takes the fault. -/
theorem tilesArePerformed : Obligations.TilesArePerformed := by
  unfold Obligations.TilesArePerformed
  intro s s' u e r hw
  dsimp only
  refine ⟨fun f hflag ht ho hf => ?complete, fun f hflag ⟨hj, hl, hs, ht, ho⟩ hread => ?read,
    fun f hflag ⟨hj, hl, hs, ht, ho⟩ hz hgot hf => ?write, fun code info ht ho => ?fails, fun f va hflag ht hp hv ho => ?lost⟩
  case complete => rw [execStreamTileComplete_whole hflag, State.tileComplete_of_goes hw ht ho hf]; rfl
  case read =>
    rw [execStreamTileComplete_part hflag, State.tileStep_of_goes hw hj hl hs ht ho]
    simp only [State.tilePart_read _ u hread]
  case write =>
    rw [execStreamTileComplete_part hflag, State.tileStep_of_goes hw hj hl hs ht ho]
    refine congrArg Host.Outcome.next (State.asOld_congr ?_)
    simp only [hz, State.tilePart_write hgot hf]
  case fails => exact congrArg Host.Outcome.next (State.engineFails_of_fails hw (State.tileNext_of_tileAt_fails ht) ho)
  case lost =>
    refine congrArg Host.Outcome.next ?_
    rw [hflag]
    exact State.engineFails_of_unanswered hw ht hp hv ho
end

section
/-! PROOF. Obligation O37: retirement, killing, delivery, the watchdog and stopping of a team (R199, R218, R220, R276, R400). -/
namespace Sys2Proof.Machine

/-! ## What leaves the teams -/

/-- What no step of a fold changes, the fold does not change. -/
theorem foldl_keeps {α β : Type} (g : State → β) {f : State → α → State} (h : ∀ s a, g (f s a) = g s) (l : List α) (s : State) :
    g (l.foldl f s) = g s := by
  induction l generalizing s with
  | nil => rfl
  | cons a l ih => exact (ih _).trans (h s a)

@[simp] theorem State.noteSafe_teams (s : State) (p pa : Nat) (b : Byte) : (s.noteSafe p pa b).teams = s.teams := by
  unfold State.noteSafe; dsimp only; split <;> rfl
@[simp] theorem State.dropHere_teams (s : State) (pa : Nat) : (s.dropHere pa).teams = s.teams := by
  unfold State.dropHere; split <;> rfl
@[simp] theorem State.writePhys_teams (s : State) (pa : Nat) (l : List Byte) : (s.writePhys pa l).teams = s.teams := by
  induction l generalizing s pa with
  | nil => rfl
  | cons b l ih => rw [State.writePhys, ih]; simp
@[simp] theorem State.writeVirt_teams (s : State) (p va : Nat) (l : List Byte) : (s.writeVirt p va l).teams = s.teams := by
  unfold State.writeVirt; split <;> simp
@[simp] theorem State.noteNode_teams (s : State) (p g n : Nat) : (s.noteNode p g n).teams = s.teams := by
  unfold State.noteNode
  split
  · split <;> simp
  · rfl
@[simp] theorem State.report_teams (s : State) (p : Nat) (r : Report) : (s.report p r).teams = s.teams := by
  unfold State.report; dsimp only; split
  · rfl
  · split <;> rfl
@[simp] theorem State.modGraph_teams (s : State) (p g : Nat) (f : Graph → Graph) : (s.modGraph p g f).teams = s.teams := by
  unfold State.modGraph; split <;> rfl
@[simp] theorem State.endInstance_teams (s : State) (p g : Nat) : (s.endInstance p g).teams = s.teams := by
  unfold State.endInstance
  split
  · split
    · rw [State.modGraph_teams, foldl_keeps State.teams fun _ _ => State.report_teams _ _ _,
        foldl_keeps State.teams fun _ _ => State.noteNode_teams _ _ _ _]
    · rfl
  · rfl

@[simp] theorem State.refresh_teams (s : State) (p : Nat) : (s.refresh p).teams = s.teams := rfl
@[simp] theorem State.freePlaces_teams (s : State) (t : TeamId) (f : Nat → Bool) : (s.freePlaces t f).teams = s.teams := rfl

/-- A team that ends is gone. -/
theorem State.team?_endTeam (s : State) (t : Team) : (s.endTeam t).team? t.id = none := by
  have gone := State.team?_dropTeam_same ((s.traceUni t 2).keepBlock t) t.id
  unfold State.endTeam
  rw [State.team?] at gone ⊢
  rwa [State.endInstance_teams, State.refresh_teams, State.freePlaces_teams]

/-! ## The runs that end with a team -/

theorem Team.subCnts_same (t : Team) (n : Nat) : ∃ w d, t.subCnts n = { t with wc := w, wd := d } := by
  induction n generalizing t with
  | zero => exact ⟨t.wc, t.wd, rfl⟩
  | succ n ih =>
    obtain ⟨w, d, h⟩ := ih { t.subCnt 4 with wd := 0 }
    exact ⟨w, d, h⟩

/-- The end of an engine's runs changes its team's engines, counters and watchdog count alone. -/
theorem Team.endRuns_same (t : Team) (cut : Bool) (k : Nat) :
    ∃ es w d, t.endRuns cut k = { t with engines := es, wc := w, wd := d } := by
  unfold Team.endRuns
  split
  · exact ⟨t.engines, t.wc, t.wd, rfl⟩
  · next e _ =>
    obtain ⟨w, d, h⟩ := (t.setEngine k (e.endRuns cut)).subCnts_same ((e.runs.length - 4) - ((e.endRuns cut).runs.length - 4))
    obtain ⟨w', d', h'⟩ := ({ t.setEngine k (e.endRuns cut) with wc := w, wd := d } : Team).subCnts_same
      (e.stops - (e.endRuns cut).stops)
    exact ⟨_, w', d', by dsimp only; rw [h, h']; rfl⟩

theorem Team.endAllRuns_same (t : Team) (cut : Bool) :
    ∃ es w d, t.endAllRuns cut = { t with engines := es, wc := w, wd := d } := by
  unfold Team.endAllRuns
  generalize List.range t.engines.length = l
  induction l generalizing t with
  | nil => exact ⟨t.engines, t.wc, t.wd, rfl⟩
  | cons k l ih =>
    obtain ⟨es, w, d, h⟩ := t.endRuns_same cut k
    obtain ⟨es', w', d', h'⟩ := ih (t.endRuns cut k)
    exact ⟨es', w', d', by rw [List.foldl_cons, h', h]⟩

section
variable {s : State} {t : Team}

/-- A retiring team with nothing left to do ends. -/
theorem State.teamRetire_of_finished (ht : s.team? s.ev.team = some t) (hs : t.stat = .retiring)
    (hf : (t.endAllRuns false).finished = true) (hw : s.wclean t = true) :
    s.teamRetire = (s.setTeam (t.endAllRuns false)).endTeam (t.endAllRuns false) := by
  have clean : (s.setTeam (t.endAllRuns false)).wclean (t.endAllRuns false) = true := by
    obtain ⟨es, w, d, h⟩ := t.endAllRuns_same false
    rw [h]; exact hw
  simp [State.teamRetire, ht, hs, hf, clean]

/-! ## A team with nothing unperformed -/

section
variable (hp : t.pend = [])
include hp

theorem Team.with_pend_nil : { t with pend := [] } = t := by rw [← hp]

theorem Team.landWhere_of_pend_nil (f : Pending → Bool) : t.landWhere f = t := by
  simp only [Team.landWhere, hp, List.filter_nil, Team.landAll]
  exact Team.with_pend_nil hp

theorem State.dropBlocked_of_pend_nil (s : State) : s.dropBlocked t = (s.freePlaces t.id fun _ => false, t) := by
  simp only [State.dropBlocked, hp, List.filter_nil, List.any_nil, Team.uncount]
  exact congrArg _ (Team.with_pend_nil hp)

/-- A killed team with nothing left to do ends, what it leaves at the error edge apart (R220). -/
theorem State.teamKill_of_finished {code : Nat} (ht : s.team? s.ev.team = some t) (hs : t.stat = .killing code)
    (hf : (t.endAllRuns true).finished = true) (hw : s.wclean t = true) :
    ∃ s', s.teamKill = State.endTeam s' (t.endAllRuns true) := by
  obtain ⟨es, w, d, h⟩ := t.endAllRuns_same true
  have none_left : (t.endAllRuns true).pend = [] := by rw [h]; exact hp
  have clean : s.wclean (t.endAllRuns true) = true := by rw [h]; exact hw
  simp only [State.teamKill, ht, hs, State.dropBlocked_of_pend_nil none_left, hf, Bool.true_and]
  exact ⟨_, if_pos clean⟩

/-- The watchdog's fault falls on the next instruction. -/
theorem State.watchdogFault_of_pend_nil (s : State) : s.watchdogFault t = s.raise t (t.faultAt 0x60 0 noLane) := by
  simp only [State.watchdogFault, hp, List.find?_nil]
end

/-! ## Faults that waited, and the watchdog -/

theorem State.faultDeliver_of_deliverable {f : FaultRec} (ht : s.team? s.ev.team = some t) (hf : t.trap = some f)
    (hd : t.deliverable = true) (hs : t.stat = .running) : s.faultDeliver = s.takeFault t (s.gapNow t f) := by
  simp [State.faultDeliver, ht, hf, hd, hs]

theorem State.watchdogDue_of_running (hs : t.stat = .running) (ht : t.trap = none) (hw : s.preg t.part 0 ≤ t.wd) :
    s.watchdogDue t = true := by
  simp [State.watchdogDue, hs, ht, hw]

/-! ## A team that stops -/

/-- What stands in the place of a register entry once its granule is saved (R242). -/
def VEnt.saved : VEnt → VEnt
  | .mapped _ => .absent
  | x => x

theorem VEnt.saved_eq_absent_iff (e : VEnt) : e.saved = .absent ↔ e ≠ .none := by cases e <;> simp [VEnt.saved]

/-- Team `t` off its slot, its register entries `v` (R242). -/
def Team.offSlot (t : Team) (v : Table VEnt) : Team :=
  { t with
    port := false
    sbuf := []
    olds := []
    r := { t.r with v := v } }

theorem State.saveGranules_team (s : State) (t : Team) :
    (s.saveGranules t).2 = t.offSlot (t.r.v.map fun x => (x.1, x.2.saved)) := by
  refine congrArg t.offSlot (List.map_congr_left fun ⟨k, e⟩ _ => ?_)
  cases e <;> rfl

/-- The saved entries are absent, the others hold nothing still. -/
theorem Regs.entry_saved_iff (r : Regs) (k g : Nat) :
    Regs.entry { r with v := r.v.map fun x => (x.1, x.2.saved) } k g = .absent ↔ r.entry k g ≠ .none := by
  rw [← VEnt.saved_eq_absent_iff]
  simp only [Regs.entry, Table.get, Table.get?_map]
  cases r.v.get? (vkey k g) <;> rfl

/-- A team at rest with nothing unperformed stops as its request says, its granules saved. -/
theorem State.teamStop_of_atRest {code : Nat} (ht : s.team? s.ev.team = some t) (hs : t.stat = .running)
    (hq : t.stopReq = some code) (hc : code ≠ 0x80) (hp : t.pend = []) (hr : s.atRest t = true) :
    ∃ s', s.teamStop = State.setTeam s' { (s.saveGranules t).2 with
      stat := .stopped code
      stopReq := none
      stopRec := none
      trap := none
      step := false } := by
  simp only [State.teamStop, ht, hq, hs, if_neg hc, hr, if_true, Team.landWhere_of_pend_nil hp]
  exact ⟨_, rfl⟩
end

end Sys2Proof.Machine

open Sys2Proof Sys2Proof.Machine in
/-- Settles O37: each of the five events finds its team as it asks, and ends it, faults it or stops it. -/
theorem teamsEnd : Obligations.TeamsEnd := by
  unfold Obligations.TeamsEnd
  intro s t f code ht _
  refine ⟨fun hs hf hw => ?retire, fun hs hp hf hw => ?kill, fun hf hd hs => ⟨?deliver, fun hg => ?no_gap⟩,
    fun hs htr hw hp => ?watchdog, fun hs hq hc hp hr => ?stop⟩
  case retire =>
    have gone := State.team?_endTeam (s.setTeam (t.endAllRuns false)) (t.endAllRuns false)
    obtain ⟨es, w, d, h⟩ := t.endAllRuns_same false
    rw [← State.teamRetire_of_finished ht hs hf hw, h] at gone
    exact ⟨_, rfl, gone⟩
  case kill =>
    obtain ⟨s', hk⟩ := State.teamKill_of_finished hp ht hs hf hw
    have gone := State.team?_endTeam s' (t.endAllRuns true)
    obtain ⟨es, w, d, h⟩ := t.endAllRuns_same true
    rw [← hk, h] at gone
    exact ⟨_, rfl, gone⟩
  case deliver => exact congrArg Host.Outcome.next (State.faultDeliver_of_deliverable ht hf hd hs)
  case no_gap => exact if_neg hg
  case watchdog =>
    refine congrArg Host.Outcome.next ?_
    simp only [State.watchdogExpire, ht, State.watchdogDue_of_running hs htr hw, if_true, State.watchdogFault_of_pend_nil hp]
  case stop =>
    obtain ⟨s', h⟩ := State.teamStop_of_atRest ht hs hq hc hp hr
    rw [State.saveGranules_team] at h
    exact ⟨_, _, congrArg Host.Outcome.next h, State.team?_setTeam_same s' _, rfl, rfl, rfl, rfl, t.r.entry_saved_iff⟩
end

section
/-! PROOF. Obligation O49: array queues, gating, governor windows and the end of a replay (R189, R317-R320, R416-R418). -/
namespace Sys2Proof.Machine

/-! ## Arrays read after a write -/

theorem State.arr_congr {s s' : State} (h : s'.cores = s.cores) (c k : Nat) : s'.arr c k = s.arr c k := by
  simp only [State.arr, State.core, h]

@[simp] theorem State.arr_setArr_same (s : State) (c k : Nat) (a : Arr) : (s.setArr c k a).arr c k = a := by
  simp [State.arr, State.setArr, State.modCore]

theorem State.arr_setArr_ne (s : State) {c k c' k' : Nat} (a : Arr) (h : ¬ (c' = c ∧ k' = k)) :
    (s.setArr c k a).arr c' k' = s.arr c' k' := by
  by_cases hc : c' = c
  · subst hc
    simp only [State.arr, State.setArr, State.modCore, State.core_setCore_same]
    exact Table.get_set_ne _ _ _ fun hk => h ⟨rfl, hk⟩
  · simp only [State.arr, State.setArr, State.modCore, State.core_setCore_ne _ _ hc]

/-! ## The head entry -/

/-- Where no limit stands, every K-step starts. -/
theorem kStarts_none (c n used : Nat) : kStarts none c n used = (n, used + n * c) := by
  induction n generalizing used with
  | zero => simp [kStarts]
  | succ n ih => simp [kStarts, ih, Nat.succ_mul]; omega

section
variable {s : State} {t : Team} {m : Matrix} {e : MEntry} {r : List MEntry} {id : TeamId}
  (ht : s.team? id = some t) (hm : t.mtx = some m) (hq : m.queue = e :: r) (hs : t.stat ≠ .saved)
  (hb : (s.arr t.core t.slot).blocked = none)
include ht hm hq hs hb

/-- An entry all of whose K-steps the window lets start is performed. -/
theorem State.matrixEntry_of_starts {used : Nat} (hw : e.op.stores = false ∨ s.writeHeld t.part [] = false)
    (hg : (s.arr t.core t.slot).gated = false ∨ e.op.datapath = false)
    (hk : (if s.govOn (dieOfCore t.core) then kStarts (s.govLimit (dieOfCore t.core)) e.op.clocks (e.op.steps - e.started)
      (s.arr t.core t.slot).used else (e.op.steps - e.started, (s.arr t.core t.slot).used)) = (e.op.steps - e.started, used)) :
    s.matrixEntry id = (s.setArr t.core t.slot { s.arr t.core t.slot with
      used := used
      blocked := none }).entryDone t m e := by
  have runs : ¬ (t.stat = .saved ∨ ((s.arr t.core t.slot).gated = true ∧ e.op.datapath = true) ∨
      (s.arr t.core t.slot).blocked.isSome = true ∨ (e.op.stores = true ∧ s.writeHeld t.part [] = true)) := by
    rintro (h | ⟨h, h'⟩ | h | ⟨h, h'⟩)
    · exact hs h
    · simp [h, h'] at hg
    · simp [hb] at h
    · simp [h, h'] at hw
  simp only [State.matrixEntry, ht, hm, hq, if_neg runs, hk, Nat.lt_irrefl, if_false]
end

/-! ## A byte of a K-step -/

theorem State.with_back_zero {s : State} (h : s.back = 0) : { s with back := 0 } = s := by rw [← h]

/-- Work of a team before no cut changes the team. -/
theorem State.asOld_modWork_front {s : State} (h : s.back = 0) (p : Nat) (k : TeamId) (f : Team → Team) :
    (s.asOld 0 fun q => q.modWork p k f) = s.modTeam k f := by
  simp only [State.asOld, State.with_back_zero h, State.modWork, if_true]
  exact State.with_back_zero (by simp [h])

theorem Team.entryReads_of_mul {t : Team} {m : Matrix} {e : MEntry} {r : List MEntry} {set : Bool} {b n boff k a : Nat}
    {rows : Table Byte} {w : List W64} (hm : t.mtx = some m) (hq : m.queue = e :: r) (ho : e.op = .mul set b n boff rows w)
    (hk : k < n) (ha : a ∈ kAddrs w boff k) :
    t.entryReads k a = { t with mtx := some { m with
      queue := { e with got := e.got.put (2 ^ 32 * k + a) (t.kByte e.got k a) } :: r } } := by
  have named : k < n ∧ (kAddrs w boff k).contains a = true := ⟨hk, by simpa using ha⟩
  simp only [Team.entryReads, hm, hq, MEntry.reads, ho, if_pos named]

/-- A byte of scratch may be read for the head entry of an array that is awake and not held back. -/
theorem State.matrixRead_at_head {s : State} {t : Team} {id : TeamId} {k a : Nat} (ht : s.team? id = some t)
    (hs : t.stat ≠ .saved) (hg : (s.arr t.core t.slot).gated = false) (hb : (s.arr t.core t.slot).blocked = none)
    (ho : s.oldEntry t = 0) : s.matrixRead id k a = s.asOld 0 fun q => q.modWork t.part id fun u => u.entryReads k a := by
  simp [State.matrixRead, ht, hs, hg, hb, ho]

/-! ## Gating (R318) -/

theorem State.arrayGate_of_idle {s : State} {c k : Nat} (ha : (s.arr c k).gated = false) (hf : s.mgmt.filler = false)
    (hg : (s.mr 0x190).toNat ≠ 0) (hi : ((s.arrTeam c k).all fun t => t.arrayQuiet) = true)
    (hn : max (max (s.arr c k).idleSince s.mgmt.fillEnd) (s.mr gateKey).toNat + 1000 * (s.mr 0x190).toNat ≤ s.now) :
    s.arrayGate c k = s.setArr c k { s.arr c k with
      gated := true
      waking := false } := by
  have hg' : ((s.mr 0x190).toNat != 0) = true := bne_iff_ne.2 hg
  simp only [State.arrayGate, ha, hf, hg', hi, hn, Bool.not_false, Bool.and_self, decide_true, if_true]

theorem State.arrayWake_of_waking {s : State} {c k : Nat} (ha : (s.arr c k).gated = true) (hw : (s.arr c k).waking = true) :
    s.arrayWake c k = s.setArr c k { s.arr c k with
      gated := false
      waking := false
      idleSince := s.now } := by
  simp only [State.arrayWake, ha, hw, Bool.and_self, if_true]

/-! ## Windows of the governor (R320) -/

@[simp] theorem State.countEvent_cores (s : State) (p d e n : Nat) : (s.countEvent p d e n).cores = s.cores := by
  have counts (l : List Nat) (s : State) : (l.foldl (fun s k =>
      let sel := s.pr p (0x500 + k)
      if bitsOf sel 15 0 = e ∧ !sel.getLsbD 63 then s.bump p (0x508 + k) n else s) s).cores = s.cores :=
    foldl_keeps State.cores (fun s k => by dsimp only; split <;> rfl) l s
  unfold State.countEvent
  split
  · rfl
  · dsimp only
    split <;> exact counts _ s

/-- An array at the beginning of a window: nothing used, nothing waiting. -/
def State.ArrFresh (s : State) (c k : Nat) : Prop := (s.arr c k).used = 0 ∧ (s.arr c k).blocked = none

theorem State.windowArr_cores (s : State) (c k : Nat) :
    (s.windowArr c k).cores = (s.setArr c k { s.arr c k with used := 0, blocked := none }).cores := by
  unfold State.windowArr
  dsimp only
  split
  · rw [State.countEvent_cores, State.bump_cores]
  · rfl

theorem State.windowArr_mregs (s : State) (c k : Nat) : (s.windowArr c k).mregs = s.mregs := by
  unfold State.windowArr
  dsimp only
  split
  · rw [(OnlyCounts.countEvent _ _ _ _ _).mregs]; rfl
  · rfl

theorem State.arrFresh_windowArr_same (s : State) (c k : Nat) : (s.windowArr c k).ArrFresh c k := by
  rw [State.ArrFresh, State.arr_congr (s.windowArr_cores c k), State.arr_setArr_same]
  exact ⟨rfl, rfl⟩

theorem State.ArrFresh.windowArr {s : State} {c k : Nat} (h : s.ArrFresh c k) (c' k' : Nat) :
    (s.windowArr c' k').ArrFresh c k := by
  by_cases he : c = c' ∧ k = k'
  · obtain ⟨rfl, rfl⟩ := he
    exact s.arrFresh_windowArr_same c k
  · rwa [State.ArrFresh, State.arr_congr (s.windowArr_cores c' k'), State.arr_setArr_ne s _ he]

/-- What a step of a fold brings about for its element and no other step undoes holds of all elements after the fold. -/
theorem foldl_reaches {α : Type} {f : State → α → State} {P : α → State → Prop} (same : ∀ s a, P a (f s a))
    (kept : ∀ s a b, P a s → P a (f s b)) (l : List α) (s : State) : ∀ a ∈ l, P a (l.foldl f s) := by
  induction l generalizing s with
  | nil => simp
  | cons b l ih =>
    intro a ha
    obtain rfl | ha := List.mem_cons.1 ha
    · exact List.foldlRecOn l f (same s a) fun q hq x _ => kept q a x hq
    · exact ih _ a ha

/-- A window begins for the arrays of core `c`. -/
def State.windowCore (s : State) (c : Nat) : State := (List.range 8).foldl (fun s k => s.windowArr c k) s

/-- A window begins for the arrays of die `d`. -/
def State.windowDie (s : State) (d : Nat) : State := (List.range 12).foldl (fun s j => s.windowCore (12 * d + j)) s

theorem State.governorWindow_eq (s : State) (d : Nat) :
    s.governorWindow d = (s.windowDie d).setMr (govKey d) ((s.windowDie d).mr (0x198 + d)) := rfl

theorem State.windowCore_mregs (s : State) (c : Nat) : (s.windowCore c).mregs = s.mregs :=
  foldl_keeps State.mregs (fun s k => s.windowArr_mregs c k) _ s

theorem State.arrFresh_windowCore_same (s : State) (c : Nat) : ∀ k < 8, (s.windowCore c).ArrFresh c k := fun k hk =>
  foldl_reaches (P := fun k s => s.ArrFresh c k) (fun s k => s.arrFresh_windowArr_same c k) (fun _ _ b h => h.windowArr c b) _ s k
    (List.mem_range.2 hk)

theorem State.ArrFresh.windowCore {s : State} {c k : Nat} (h : s.ArrFresh c k) (c' : Nat) : (s.windowCore c').ArrFresh c k :=
  List.foldlRecOn (motive := fun q => State.ArrFresh q c k) (List.range 8) (fun s k => s.windowArr c' k) h
    fun _ hq k' _ => hq.windowArr c' k'

theorem State.windowDie_mregs (s : State) (d : Nat) : (s.windowDie d).mregs = s.mregs :=
  foldl_keeps State.mregs (fun s j => s.windowCore_mregs (12 * d + j)) _ s

theorem State.arrFresh_windowDie (s : State) (d : Nat) : ∀ j < 12, ∀ k < 8, (s.windowDie d).ArrFresh (12 * d + j) k :=
  fun j hj => foldl_reaches (P := fun j s => ∀ k < 8, State.ArrFresh s (12 * d + j) k)
    (fun s j => s.arrFresh_windowCore_same (12 * d + j)) (fun _ _ b h k hk => (h k hk).windowCore (12 * d + b)) _ s j
    (List.mem_range.2 hj)

/-- The governor's window finds GOVCTL as it stands, and leaves every array of the die fresh. -/
theorem State.governorWindow_spec (s : State) (d : Nat) : (s.governorWindow d).mr (govKey d) = s.mr (0x198 + d) ∧
    ∀ j < 12, ∀ k < 8, (s.governorWindow d).ArrFresh (12 * d + j) k := by
  rw [State.governorWindow_eq]
  constructor
  · rw [State.mr_setMr_same]
    simp only [State.mr, State.windowDie_mregs]
  · intro j hj k hk
    rw [State.ArrFresh, State.arr_congr (State.setMr_cores _ _ _)]
    exact s.arrFresh_windowDie d j hj k hk

/-! ## The end of a replay (R418) -/

@[simp] theorem State.sendSup_dies (s : State) (p : Nat) (l : List W32) : (s.sendSup p l).dies = s.dies := by
  unfold State.sendSup State.sendDev
  dsimp only
  split <;> rfl

@[simp] theorem State.haltNotice_dies (s : State) (d kind : Nat) : (s.haltNotice d kind).dies = s.dies :=
  foldl_keeps State.dies (fun s p => by split <;> simp) _ s

theorem State.rpl_haltNotice (s : State) (d kind e : Nat) : (s.haltNotice d kind).rpl e = s.rpl e := by
  simp only [State.rpl, State.die, State.haltNotice_dies]

@[simp] theorem State.rpl_modRpl_same (s : State) (d : Nat) (f : Replay → Replay) : (s.modRpl d f).rpl d = f (s.rpl d) := by
  simp [State.rpl, State.modRpl, State.modDie]

theorem rplStat_state {n : Nat} (h : n < 16) (e u : Nat) : bitsOf (rplStat n e u) 63 60 = n := by
  have hn : n * 2 ^ 60 + e % 2 ^ 28 * 2 ^ 32 + u % 2 ^ 16 * 2 ^ 16 < 2 ^ 64 := by omega
  simp only [bitsOf, rplStat, BitVec.toNat_ofNat, Nat.mod_eq_of_lt hn]
  omega

/-- How a replay can end: done, a difference, a malformed entry. -/
def Rerun.Ended (x : Rerun) : Prop := x.state = 4 ∨ x.state = 5 ∨ x.state = 6

theorem rerunArray_ended (fuel k : Nat) (team : TeamId) (m : Matrix) (l : List Byte) : (rerunArray fuel k team m l).Ended := by
  induction fuel generalizing k team m l with
  | zero => exact .inl rfl
  | succ n ih =>
    unfold rerunArray
    split
    · exact .inr (.inr rfl)
    · split
      · exact .inr (.inr rfl)
      · dsimp only
        split
        · exact .inr (.inl rfl)
        · split
          · exact ih _ _ _ _
          · exact .inr (.inl rfl)

theorem rerunCopy_ended (fuel k : Nat) (l : List Byte) : (rerunCopy fuel k l).Ended := by
  induction fuel generalizing k l with
  | zero => exact .inl rfl
  | succ n ih =>
    unfold rerunCopy
    split
    · exact .inr (.inr rfl)
    · split
      · split
        · exact ih _ _
        · dsimp only
          split
          · exact .inr (.inl rfl)
          · exact ih _ _
      · exact .inr (.inr rfl)

theorem Rerun.Ended.state_ne {x : Rerun} (h : x.Ended) : x.state ≠ 3 := by
  rcases h with h | h | h <;> simp [h]

/-- RPLSTAT at the end of a replay. -/
def Rerun.stat (x : Rerun) : W64 := if x.state = 5 then rplStat 5 x.entry x.unit else rplStat x.state 0 0

theorem Rerun.Ended.stat_state {x : Rerun} (h : x.Ended) : bitsOf x.stat 63 60 = x.state := by
  unfold Rerun.stat
  split
  · next h5 => rw [rplStat_state (by decide), h5]
  · exact rplStat_state (by rcases h with h | h | h <;> simp [h]) 0 0

/-- A replay that ends leaves its unit with an end's state, its cores going. -/
theorem State.replayDone_rpl {s : State} {d : Nat} (h : (s.rpl d).state = 3) : ∃ (x : Rerun) (y : Replay), x.Ended ∧
    (s.replayDone d).rpl d = { y with stat := x.stat, halted := false } := by
  unfold State.replayDone
  simp only [h, ne_eq, not_true_eq_false, if_false, State.rpl_haltNotice, State.rpl_modRpl_same]
  refine ⟨_, _, ?_, rfl⟩
  split
  · split <;> exact rerunArray_ended ..
  · exact rerunCopy_ended ..

end Sys2Proof.Machine

open Sys2Proof Sys2Proof.Machine in
/-- Settles O49: each of the five events on an array, a die's governor or its replay unit. -/
theorem arraysRun : Obligations.ArraysRun := by
  unfold Obligations.ArraysRun
  intro s t m e r
  dsimp only
  refine ⟨fun hf hw ht hm hq hs hg hl hb ha => ?limited, fun hf hw ht hm hq hs hg hb ha => ?free,
    fun set b n boff rows w hf ht hid hm hq hs ha hb ho hz hop hk hr => ?read, fun ha hf hg hi hn => ?gate, fun ha hw => ?wake,
    fun _ => ?window, fun h => ?replay⟩
  case limited =>
    refine congrArg Host.Outcome.next ?_
    rw [if_neg (by simp [hf])]
    exact State.matrixEntry_of_starts ht hm hq hs hb hw (.inl ha) (by rw [if_pos hg, hl, kStarts_none])
  case free =>
    refine congrArg Host.Outcome.next ?_
    rw [if_neg (by simp [hf])]
    exact State.matrixEntry_of_starts ht hm hq hs hb hw ha (if_neg (by simp [hg]))
  case read =>
    refine congrArg Host.Outcome.next ?_
    rw [if_pos hf, ← hid, State.matrixRead_at_head (hid ▸ ht) hs ha hb ho, State.asOld_modWork_front hz,
      State.modTeam_some _ (hid ▸ ht), State.modTeam_some _ (hid ▸ ht), Team.entryReads_of_mul hm hq hop hk hr]
  case gate =>
    refine ⟨_, rfl, ?_⟩
    rw [State.arrayGate_of_idle ha hf hg hi hn, State.arr_setArr_same]
    exact ⟨rfl, rfl⟩
  case wake =>
    refine ⟨_, rfl, ?_⟩
    rw [State.arrayWake_of_waking ha hw, State.arr_setArr_same]
    exact ⟨rfl, rfl⟩
  case window => exact ⟨_, rfl, s.governorWindow_spec s.ev.die⟩
  case replay =>
    obtain ⟨x, y, hx, hy⟩ := State.replayDone_rpl h
    refine ⟨_, rfl, ?_⟩
    rw [hy]
    exact ⟨rfl, fun h3 => hx.state_ne (hx.stat_state.symm.trans h3)⟩
end

section
/-! PROOF. Obligation O47: admission, queue states, aging and INSTANCE_END (R252, R261-R269, R382, R390). -/
namespace Sys2Proof.Machine

/-- A table whose values are changed as their keys say. -/
theorem Table.get?_mapKey {α β : Type} (t : Table α) (f : Nat → α → β) (k : Nat) :
    Table.get? (t.map fun (x : Nat × α) => (x.1, f x.1 x.2)) k = (t.get? k).map (f k) := by
  induction t with
  | nil => rfl
  | cons x r ih =>
    obtain ⟨a, v⟩ := x
    by_cases ha : a = k
    · simp [Table.get?, ha]
    · simp [Table.get?, ha, ih]

@[simp] theorem State.part_modPart_same (s : State) (p : Nat) (f : Partition → Partition) :
    (s.modPart p f).part p = f (s.part p) := State.part_setPart_same s p _

/-! ## Decisions (R265-R269) -/

section
variable {s : State} {p g n : Nat} {y : Node} {x : Graph}

theorem State.decideFor_of_place {r : QRec} {q : List QRec} {c k ctx : Nat} (hg : s.graph? p g = some x) (hq : y.q = r :: q)
    (hc : s.freeCtx p = some ctx) (hb : s.serialBusy p = false)
    (hp : s.choosePlace (y.need p (y.taken.map (s.recWords p))) (s.candidates p (some (g, n))) (recAff (s.recWords p r)) =
      some (c, k)) : s.decideFor p g n y = s.launch p g n x y c k ctx := by
  simp [State.decideFor, hg, hq, hc, hb, hp]

theorem State.admission_of_turn {d left : Nat} (hp : s.nextPart d = some (p, left))
    (hn : (s.modDie d fun z => { z with
        roundPart := p
        roundLeft := left }).nextQueue d p = some (g, n, y)) :
    s.admission d =
      let s0 := s.modDie d fun z => { z with
        roundPart := p
        roundLeft := left }
      (if y.level = 7 then s0.modDie d fun z => { z with last7 := z.last7.put p (g, n) } else s0).decideFor p g n y := by
  simp only [State.admission, hp, hn]

end

/-! ## Queue states (R262, R263) -/

/-- Graph `g` of partition `p` with its queues under the rules as they stand. -/
def State.ruled (s : State) (p g : Nat) (x : Graph) : Graph :=
  { x with nodes := x.nodes.map fun z => (z.1, z.2.toState (s.stateOf p g x z.1 z.2)) }

theorem State.graph?_refresh (s : State) (p g : Nat) : (s.refresh p).graph? p g = (s.graph? p g).map (s.ruled p g) := by
  rw [State.graph?, State.refresh, State.part_modPart_same]
  exact Table.get?_mapKey (s.part p).graphs (s.ruled p) g

theorem State.ruled_nodes (s : State) (p g : Nat) (x : Graph) (n : Nat) :
    (s.ruled p g x).nodes.get? n = (x.nodes.get? n).map fun z => z.toState (s.stateOf p g x n z) :=
  Table.get?_mapKey x.nodes (fun n z => z.toState (s.stateOf p g x n z)) n

section
variable {s : State} {p g n : Nat} {x : Graph} {y : Node}

theorem State.launchable_iff {r : QRec} (h : y.q.head? = some r) : s.launchable p g x n y = true ↔
    s.drainedUp p g x n = true ∨
      (y.gall = false ∧ (y.perTeam = true ∨ y.width ≤ y.q.length ∨ r.at_ + 100 * y.coal ≤ s.now)) := by
  obtain ⟨q, hq⟩ := List.head?_eq_some_iff.1 h
  cases hg : y.gall <;> simp [State.launchable, hq, hg, or_comm, or_left_comm]

variable (hf : (s.part p).frozen = false) (hz : (s.part p).freezing = false)
include hf hz

theorem State.stateOf_of_empty (h : y.q = []) : s.stateOf p g x n y = .empty := by
  simp [State.stateOf, hf, hz, h]

theorem State.stateOf_of_head {r : QRec} (h : y.q.head? = some r) :
    s.stateOf p g x n y = if s.launchable p g x n y then .ready else .gather := by
  obtain ⟨q, hq⟩ := List.head?_eq_some_iff.1 h
  simp [State.stateOf, hf, hz, hq]

end

/-! ## Aging (R268, R390) -/

/-- Graph `x` at a tick of die `d`. -/
def Graph.aged (x : Graph) (d : Nat) : Graph :=
  { x with nodes := x.nodes.map fun z => (z.1, if z.2.home == d then z.2.age else z.2) }

theorem Graph.aged_nodes (x : Graph) (d n : Nat) :
    (x.aged d).nodes.get? n = (x.nodes.get? n).map fun z => if z.home == d then z.age else z :=
  Table.get?_map x.nodes (fun z => if z.home == d then z.age else z) n

theorem State.graphs_agingTick {s : State} {d p : Nat} (hd : s.nextTick d p ≤ s.now) (hs : s.staggered p = false) (g : Nat) :
    ((s.agingTick d p).part p).graphs.get? g = ((s.part p).graphs.get? g).map (·.aged d) := by
  unfold State.agingTick
  rw [if_neg (Nat.not_lt.2 hd)]
  dsimp only
  rw [if_neg (by rw [Bool.not_eq_true]; exact hs), State.part_modPart_same]
  exact Table.get?_map (s.part p).graphs (·.aged d) g

theorem Node.age_of_ready {y : Node} (h : y.st = .ready) :
    y.age.full = true ∧ y.age.level = if y.full then min 7 (y.level + 1) else y.level := by
  rw [Node.age, if_pos h]
  exact ⟨rfl, rfl⟩

/-! ## What a status word leaves unchanged of a partition (R250) -/

/-- A partition but for its checkpoints whose memory the safe tier takes. -/
def Partition.offSafe (x : Partition) : Partition := { x with
  cuts := []
  safeRun := none }
/-- Partition `q` but for those checkpoints. -/
def State.offSafe (s : State) (q : Nat) : Partition := (s.part q).offSafe

theorem Partition.takeFrame_offSafe (x : Partition) (n : Nat) (f : SafeCopy → SafeCopy) :
    (x.takeFrame n f).offSafe = x.offSafe := rfl
theorem Partition.modCuts_offSafe (x : Partition) (n : Nat) (f : Snap → Snap) : (x.modCuts n f).offSafe = x.offSafe := rfl

theorem State.part_of_offSafe {s s' : State} {q : Nat} (h : s'.offSafe q = s.offSafe q) :
    (s'.part q).graphs = (s.part q).graphs ∧ (s'.part q).reports = (s.part q).reports ∧ (s'.part q).regs = (s.part q).regs := by
  simp only [State.offSafe, Partition.offSafe, Partition.mk.injEq] at h
  simp only [h, and_self]

theorem State.noteSafe_offSafe (s : State) (p pa : Nat) (b : Byte) (q : Nat) : (s.noteSafe p pa b).offSafe q = s.offSafe q := by
  unfold State.noteSafe
  dsimp only
  split
  · rfl
  · by_cases h : q = p
    · subst h
      rw [State.offSafe, State.part_setPart_same, Partition.modCuts_offSafe, Partition.takeFrame_offSafe, State.offSafe]
    · rw [State.offSafe, State.part_setPart_ne _ _ h, State.offSafe]

theorem State.dropHere_part (s : State) (pa q : Nat) : (s.dropHere pa).part q = s.part q := by
  unfold State.dropHere
  split <;> rfl

theorem State.writePhys_offSafe (s : State) (pa : Nat) (l : List Byte) (q : Nat) :
    (s.writePhys pa l).offSafe q = s.offSafe q := by
  induction l generalizing s pa with
  | nil => rfl
  | cons b l ih =>
    rw [State.writePhys, ih, State.offSafe, State.dropHere_part]
    exact s.noteSafe_offSafe _ pa b q

theorem State.noteNode_offSafe (s : State) (p g n q : Nat) : (s.noteNode p g n).offSafe q = s.offSafe q := by
  unfold State.noteNode State.writeVirt
  split
  · split
    · split
      · exact State.writePhys_offSafe _ _ _ q
      · rfl
    · rfl
  · rfl

/-! ## Reports (R382) -/

theorem State.turned_congr {s s' : State} {p : Nat} (h : ∀ k, s'.pr p k = s.pr p k) : s'.turned p = s.turned p := by
  simp only [State.turned, State.preg, h]

theorem State.report_of_room {s : State} {p : Nat} (ht : s.turned p = false) (hr : (s.part p).reports.length < 64)
    (r : Report) : s.report p r =
      s.setPart p { s.part p with reports := (s.part p).reports ++ [{ r with lost := s.pr p 0x150 }] } := by
  simp [State.report, ht, hr]

/-- Reports for which the Mill has room follow those that wait. -/
theorem State.part_reports {s : State} {p : Nat} (ht : s.turned p = false) (l : List Report)
    (hl : (s.part p).reports.length + l.length ≤ 64) : (l.foldl (fun s r => s.report p r) s).part p =
      { s.part p with reports := (s.part p).reports ++ l.map fun r => { r with lost := s.pr p 0x150 } } := by
  induction l generalizing s with
  | nil => simp
  | cons r l ih =>
    rw [List.length_cons] at hl
    have step := State.report_of_room ht (by omega) r
    have part : (s.report p r).part p =
        { s.part p with reports := (s.part p).reports ++ [{ r with lost := s.pr p 0x150 }] } := by
      rw [step, State.part_setPart_same]
    have regs (k : Nat) : (s.report p r).pr p k = s.pr p k := by simp only [State.pr, part]
    rw [List.foldl_cons, ih ((State.turned_congr regs).trans ht)
      (by rw [part, List.length_append, List.length_singleton]; omega), part, regs]
    simp

/-! ## INSTANCE_END (R252) -/

section
variable {s : State} {p g : Nat} {x : Graph}

theorem State.part_modGraph {f : Graph → Graph} (h : s.graph? p g = some x) :
    (s.modGraph p g f).part p = { s.part p with graphs := (s.part p).graphs.put g (f x) } := by
  rw [State.modGraph, h]
  exact State.part_modPart_same s p _

/-- Graph `x` after INSTANCE_END. -/
def Graph.ended (x : Graph) : Graph := { x with
  inst := x.inst + 1
  active := false
  watch := [] }

theorem State.endInstance_of_going (h : s.graph? p g = some x) (hb : x.active = false ∨ s.graphBusy p g = true) :
    s.endInstance p g = s := by
  have off : (x.active && !s.graphBusy p g) = false := by
    rcases hb with ha | hb
    · rw [ha]; rfl
    · rw [hb, Bool.not_true, Bool.and_false]
  rw [State.endInstance, h]
  exact if_neg (by rw [off]; exact Bool.false_ne_true)

/-- The status words of graph slot `g`, all written before the completion is reported. -/
def State.noteGraph (s : State) (p g : Nat) (x : Graph) : State :=
  x.nodes.foldl (fun s n => s.noteNode p g n.1) s

theorem State.noteGraph_offSafe (s : State) (p g : Nat) (x : Graph) (q : Nat) : (s.noteGraph p g x).offSafe q = s.offSafe q :=
  foldl_keeps (·.offSafe q) (fun s (n : Nat × Node) => s.noteNode_offSafe p g n.1 q) x.nodes s

/-- The reports that answer the watches of graph slot `g`. -/
def Graph.answers (x : Graph) (g : Nat) : List Report := x.watch.map fun tag => ⟨3, 0, g, x.inst, tag, 0⟩

theorem State.endInstance_of_idle (h : s.graph? p g = some x) (ha : x.active = true) (hb : s.graphBusy p g = false) :
    s.endInstance p g = ((x.answers g).foldl (fun s r => s.report p r) (s.noteGraph p g x)).modGraph p g Graph.ended := by
  rw [State.endInstance, h, Graph.answers, List.foldl_map]
  exact if_pos (by rw [ha, hb]; rfl)

/-- INSTANCE_END of an idle graph is seen in that graph and in the reports that wait. -/
theorem State.part_endInstance (h : s.graph? p g = some x) (ha : x.active = true) (hb : s.graphBusy p g = false)
    (ht : s.turned p = false) (hr : (s.part p).reports.length + x.watch.length ≤ 64) :
    ((s.endInstance p g).part p).graphs = (s.part p).graphs.put g x.ended ∧
      ((s.endInstance p g).part p).reports =
        (s.part p).reports ++ (x.answers g).map fun r => { r with lost := s.pr p 0x150 } := by
  obtain ⟨graphs, reports, hregs⟩ := State.part_of_offSafe (s.noteGraph_offSafe p g x p)
  have regs (k : Nat) : (s.noteGraph p g x).pr p k = s.pr p k := by simp only [State.pr, hregs]
  have answered := State.part_reports ((State.turned_congr regs).trans ht) (x.answers g)
    (by rw [reports, Graph.answers, List.length_map]; exact hr)
  have stands : ((x.answers g).foldl (fun s r => s.report p r) (s.noteGraph p g x)).graph? p g = some x := by
    rw [State.graph?, answered]
    exact (congrArg (Table.get? · g) graphs).trans h
  rw [State.endInstance_of_idle h ha hb, State.part_modGraph stands, answered, graphs, reports, regs]
  exact ⟨rfl, rfl⟩

end
end Sys2Proof.Machine

open Sys2Proof Sys2Proof.Machine in
/-- Settles O47: the decision launches the first queue in order, which has a place; a refresh gives each queue the state of its
rule; a tick ages each node of its die; an idle graph's watches are answered one by one while the Mill has room. -/
theorem millDecides : Obligations.MillDecides := by
  intro s p left g n k ctx c y x r q
  refine ⟨fun hp hq hn hg hc hb hk => ?admission, ⟨_, rfl, rfl, rfl, fun gr nd hf hz hg hn => ?queue⟩,
    fun hd hs gr nd hg hn hr hh => ⟨_, rfl, ?aging⟩,
    fun gr hg => ⟨fun ha hb ht hl => ⟨_, gr.ended, rfl, ?ends⟩, fun hb => congrArg Host.Outcome.next ?goesOn⟩⟩
  case admission =>
    exact congrArg Host.Outcome.next ((State.admission_of_turn hp hn).trans (State.decideFor_of_place hg hq hc hb hk))
  case queue =>
    refine ⟨_, _, (State.graph?_refresh s _ g).trans (congrArg _ hg), (State.ruled_nodes s _ g gr n).trans (congrArg _ hn), rfl,
      State.stateOf_of_empty hf hz, fun r hr => ?_, ?_⟩
    · refine (State.stateOf_of_head hf hz hr).trans ?_
      simp only [State.launchable_iff hr]
    · simp [Node.toState]
  case aging =>
    refine ⟨gr.aged s.ev.die, nd.age, ?_, ?_, Node.age_of_ready hr⟩
    · rw [State.graphs_agingTick hd hs, hg]; rfl
    · rw [Graph.aged_nodes, hn, Option.map_some, if_pos (beq_iff_eq.2 hh)]
  case ends =>
    obtain ⟨graphs, reports⟩ := State.part_endInstance hg ha hb ht hl
    refine ⟨?_, rfl, rfl, rfl, ?_⟩
    · rw [State.graph?, graphs, Table.get?_put_same]
    · rw [reports, Graph.answers, List.map_map]; rfl
  case goesOn => exact State.endInstance_of_going hg hb
end

section
/-! PROOF. What stands through accesses, line moves, version loads and faults, for obligations O52 and O55. -/
namespace Sys2Proof.Machine

/-- What belongs to the module as a whole: the management window, the module registers, who owns and who holds each unit. No
access, no move of a line and no fault of a team changes it. -/
def State.fixed (s : State) : Mgmt × Table W64 × Table Nat × Table Nat × Table Nat × Table Nat × Table Nat :=
  (s.mgmt, s.mregs, s.coreOwner, s.coreHolder, s.sliceOwner, s.sliceHolder, s.groupOwner)
/-- The reduction lines of each slice. -/
def State.rlines (s : State) (l : Nat) : Table RLine := (s.slice l).lines
/-- What a line's way to another slice leaves, its own reduction state apart. -/
def State.kept (s : State) := (s.fixed, s.rlines)

section
variable {s s' : State}

theorem State.fixed_of_kept (h : s'.kept = s.kept) : s'.fixed = s.fixed := congrArg Prod.fst h
theorem State.rline?_of_kept (h : s'.kept = s.kept) (l k : Nat) : s'.rline? l k = s.rline? l k :=
  congrArg (Table.get? · k) (congrFun (congrArg Prod.snd h) l)
theorem State.mgmt_of_fixed (h : s'.fixed = s.fixed) : s'.mgmt = s.mgmt := congrArg (·.1) h
theorem State.mregs_of_fixed (h : s'.fixed = s.fixed) : s'.mregs = s.mregs := congrArg (·.2.1) h
end

/-! ## Slices whose reduction lines stand -/

theorem State.modSlice_kept (s : State) (l : Nat) {f : Slice → Slice} (h : ∀ x, (f x).lines = x.lines) :
    (s.modSlice l f).kept = s.kept := by
  refine Prod.ext rfl (funext fun k => ?_)
  by_cases hk : k = l
  · subst hk
    exact (congrArg Slice.lines (State.slice_setSlice_same s k _)).trans (h _)
  · exact congrArg Slice.lines (State.slice_setSlice_ne s _ hk)

/-- Every slice changes as its number says, its reduction lines apart. -/
theorem State.mapSlices_kept (s : State) {f : Nat → Slice → Slice} (h : ∀ l x, (f l x).lines = x.lines) :
    ({ s with slices := s.slices.map fun x => (x.1, f x.1 x.2) } : State).kept = s.kept := by
  refine Prod.ext rfl (funext fun k => ?_)
  change (Table.get (s.slices.map _) Slice.reset k).lines = (Table.get s.slices Slice.reset k).lines
  rw [Table.get, Table.get?_mapKey, Table.get]
  cases s.slices.get? k with
  | none => rfl
  | some x => exact h k x

@[simp] theorem State.dropCached_kept (s : State) (l k : Nat) : (s.dropCached l k).kept = s.kept :=
  s.modSlice_kept l fun _ => rfl
@[simp] theorem State.freePlaces_kept (s : State) (t : TeamId) (f : Nat → Bool) : (s.freePlaces t f).kept = s.kept :=
  s.mapSlices_kept (f := fun _ x => { x with waits := x.waits.filter fun w => !(w.dev.isNone && w.team == t && f w.seq) })
    fun _ _ => rfl
@[simp] theorem State.takeOut_kept (s : State) (f : WaitPlace → Bool) : (s.takeOut f).1.kept = s.kept :=
  s.mapSlices_kept (f := fun _ x => { x with waits := x.waits.filter fun w => !f w }) fun _ _ => rfl

/-! ## Writes of memory -/

@[simp] theorem State.modPart_kept (s : State) (p : Nat) (f : Partition → Partition) : (s.modPart p f).kept = s.kept := rfl
@[simp] theorem State.setTeam_kept (s : State) (t : Team) : (s.setTeam t).kept = s.kept := rfl
@[simp] theorem State.modTeam_kept (s : State) (t : TeamId) (f : Team → Team) : (s.modTeam t f).kept = s.kept := by
  unfold State.modTeam; split <;> rfl
@[simp] theorem State.noteUndo_kept (s : State) (p pa : Nat) (b : Byte) : (s.noteUndo p pa b).kept = s.kept := by
  unfold State.noteUndo; dsimp only; split <;> rfl
@[simp] theorem State.noteSafe_kept (s : State) (p pa : Nat) (b : Byte) : (s.noteSafe p pa b).kept = s.kept := by
  unfold State.noteSafe; dsimp only; split <;> rfl
@[simp] theorem State.dropHere_kept (s : State) (pa : Nat) : (s.dropHere pa).kept = s.kept := by
  unfold State.dropHere; split <;> rfl

@[simp] theorem State.storeByte_kept (s : State) (p pa : Nat) (b : Byte) : (s.storeByte p pa b).kept = s.kept := by
  rw [State.storeByte, State.dropHere_kept]
  exact (State.noteSafe_kept _ p pa b).trans (s.noteUndo_kept p pa b)
@[simp] theorem State.storeBytes_kept (s : State) (p : Nat) (l : List (Nat × Byte)) : (s.storeBytes p l).kept = s.kept := by
  induction l generalizing s with
  | nil => rfl
  | cons x l ih => exact (ih _).trans (s.storeByte_kept p x.1 x.2)
@[simp] theorem State.writePhys_kept (s : State) (pa : Nat) (l : List Byte) : (s.writePhys pa l).kept = s.kept := by
  induction l generalizing s pa with
  | nil => rfl
  | cons b l ih =>
    rw [State.writePhys, ih, State.dropHere_kept]
    exact s.noteSafe_kept _ pa b
@[simp] theorem State.writeVirt_kept (s : State) (p va : Nat) (l : List Byte) : (s.writeVirt p va l).kept = s.kept := by
  unfold State.writeVirt; split
  · exact s.writePhys_kept _ l
  · rfl
@[simp] theorem State.noteNode_kept (s : State) (p g n : Nat) : (s.noteNode p g n).kept = s.kept := by
  unfold State.noteNode
  split
  · split
    · exact s.writeVirt_kept p _ _
    · rfl
  · rfl

/-! ## Regions and messages -/

@[simp] theorem State.sends_kept (s : State) (l : List Msg) : (s.sends l).kept = s.kept := by
  unfold State.sends; split <;> rfl
@[simp] theorem State.say_kept (s : State) (m : Msg) : (s.say m).kept = s.kept := s.sends_kept [m]
@[simp] theorem State.setRegion_kept (s : State) (p r : Nat) (x : VRegion) : (s.setRegion p r x).kept = s.kept := by
  unfold State.setRegion; split <;> rfl
@[simp] theorem State.noteRegion_kept (s : State) (p r : Nat) (live : Bool) : (s.noteRegion p r live).kept = s.kept := by
  unfold State.noteRegion; dsimp only; split
  · rfl
  · exact s.writeVirt_kept p _ _
@[simp] theorem State.reclaim_kept (s : State) (p r : Nat) (f : W32) (g : Nat) : (s.reclaim p r f g).kept = s.kept := by
  unfold State.reclaim; dsimp only
  rw [State.setRegion_kept]
  split <;> simp

/-! ## The move of a line -/

@[simp] theorem State.evictLine_kept (s : State) (k : Nat) : (s.evictLine k).kept = s.kept := by
  refine foldl_keeps State.kept (fun s p => ?_) _ s
  dsimp only
  split
  · exact foldl_keeps State.kept (fun s (x : Nat × Nat) => (State.noteNode_kept _ p x.1 x.2).trans (s.modPart_kept p _)) _ s
  · rfl
@[simp] theorem State.putCached_kept (s : State) (l k : Nat) : (s.putCached l k).kept = s.kept := by
  unfold State.putCached; dsimp only; split
  · next v _ =>
    exact (State.modSlice_kept _ l (f := fun x => { x with cached := k :: (s.slice l).cached.erase v }) fun _ => rfl).trans
      (s.evictLine_kept v)
  · exact s.modSlice_kept l (f := fun x => { x with cached := k :: (s.slice l).cached }) fun _ => rfl
@[simp] theorem State.moveCached_kept (s : State) (o n k : Nat) : (s.moveCached o n k).kept = s.kept :=
  (State.putCached_kept _ n k).trans (s.dropCached_kept o k)
@[simp] theorem State.landGranule_kept (s : State) (o n g : Nat) : (s.landGranule o n g).kept = s.kept := by
  refine foldl_keeps State.kept (fun s x => ?_) _ s
  dsimp only
  split <;> simp
@[simp] theorem State.park_kept (s : State) (t : Team) (seq : Nat) (dst : Dst) (accs : List VAcc) (acq : Option Scope) :
    (s.park t seq dst accs acq).kept = s.kept := by
  have filters (s : State) : (accs.foldl (fun s a => s.modSlice (s.vHome a) fun x =>
      { x with filter := x.filter ||| (1#256 <<< (a.gran s % 256)) }) s).kept = s.kept :=
    foldl_keeps State.kept (fun s a => s.modSlice_kept _ (by intro; rfl)) accs s
  have start (f : Team → Team) : ({ (s.freePlaces t.id (· == seq)).modTeam t.id f with nparks := s.nparks + 1 } : State).kept =
      s.kept := (State.modTeam_kept _ t.id f).trans (s.freePlaces_kept t.id _)
  unfold State.park
  cases accs with
  | nil => exact (filters _).trans (start _)
  | cons a r =>
    rw [State.noteRegion_kept, State.setRegion_kept]
    exact (filters _).trans (start _)
@[simp] theorem State.parkBlocked_kept (s : State) (id : TeamId) (seq : Nat) : (s.parkBlocked id seq).kept = s.kept := by
  unfold State.parkBlocked
  split
  · rfl
  · split
    · exact s.park_kept _ seq _ _ _
    · rfl
@[simp] theorem State.unblock_kept (s : State) (id : TeamId) (seq : Nat) : (s.unblock id seq).kept = s.kept :=
  (State.modTeam_kept _ id _).trans (s.freePlaces_kept id _)
@[simp] theorem State.denyForeign_kept (s : State) (d code : Nat) (id : TeamId) (seq : Nat) :
    (s.denyForeign d code id seq).kept = s.kept :=
  (State.say_kept _ _).trans (s.mapSlices_kept (f := fun _ x => { x with waits := x.waits.filter fun w =>
    !(w.dev == some d && w.team == id && w.seq == seq) }) fun _ _ => rfl)
@[simp] theorem State.movePlaces_kept (s : State) (lost : List WaitPlace) (l : List (Nat × WaitPlace)) :
    (s.movePlaces lost l).kept = s.kept := by
  induction l generalizing s lost with
  | nil => rfl
  | cons x l ih =>
    unfold State.movePlaces
    dsimp only
    split
    · exact ih s lost
    · split
      · exact (ih _ lost).trans (s.modSlice_kept x.1 fun _ => rfl)
      · rw [ih]
        split
        · exact s.denyForeign_kept _ _ _ _
        · split <;> simp

/-- A line that moves, with the reduction state that its old home holds of it. -/
def State.passRline (s : State) (o n k : Nat) : State :=
  match s.rline? o k with
  | some x => (s.dropRline o k).setRline n k x
  | none => s

/-- The move of a line, as far as it is seen in the reduction lines. -/
theorem State.moveLine_kept {s : State} {k o n : Nat} (ho : s.oldHome k = some o) (hn : s.homeSlice (64 * k) = some n)
    (hr : s.roomAt o n k = true) : ∃ s1 : State, s1.kept = s.kept ∧ (s.moveLine k).kept = (s1.passRline o n k).kept := by
  let s0 : State := { s with wins := s.wins.map fun x => (x.1, { x.2 with grans := x.2.grans.filter (·.1 != k) }) }
  refine ⟨if (s0.slice o).cached.contains k then s0.moveCached o n k else s0, ?_, ?_⟩
  · split
    · exact (s0.moveCached_kept o n k).trans rfl
    · rfl
  · simp only [State.moveLine, ho, hn, hr, Bool.not_true, Bool.false_eq_true, if_false, State.movePlaces_kept,
      State.landGranule_kept, State.takeOut_kept]
    rfl

@[simp] theorem State.passRline_fixed (s : State) (o n k : Nat) : (s.passRline o n k).fixed = s.fixed := by
  unfold State.passRline; split <;> rfl
@[simp] theorem State.moveLine_fixed (s : State) (k : Nat) : (s.moveLine k).fixed = s.fixed := by
  cases ho : s.oldHome k with
  | none => simp only [State.moveLine, ho]
  | some o =>
    cases hn : s.homeSlice (64 * k) with
    | none => simp only [State.moveLine, ho, hn]
    | some n =>
      cases hr : s.roomAt o n k with
      | false => simp only [State.moveLine, ho, hn, hr, Bool.not_false, if_true]
      | true =>
        obtain ⟨s1, h1, h⟩ := State.moveLine_kept ho hn hr
        exact (State.fixed_of_kept h).trans ((s1.passRline_fixed o n k).trans (State.fixed_of_kept h1))

/-! ## Accesses at the home -/

@[simp] theorem State.countEvent_fixed (s : State) (p d e n : Nat) : (s.countEvent p d e n).fixed = s.fixed := by
  have counters : ∀ s : State, ((List.range 8).foldl (fun s k =>
      let sel := s.pr p (0x500 + k)
      if bitsOf sel 15 0 = e ∧ !sel.getLsbD 63 then s.bump p (0x508 + k) n else s) s).fixed = s.fixed :=
    foldl_keeps State.fixed (fun s k => by dsimp only; split <;> rfl) _
  unfold State.countEvent
  split
  · rfl
  · dsimp only
    split <;> exact counters s
@[simp] theorem State.reach_fixed (s : State) (p k : Nat) : (s.reach p k).fixed = s.fixed := by
  unfold State.reach
  split
  · dsimp only
    split
    · next l _ =>
      split
      · exact s.moveLine_fixed k
      · rw [State.countEvent_fixed]
        exact (State.fixed_of_kept (State.putCached_kept _ l k)).trans (s.moveLine_fixed k)
    · exact s.moveLine_fixed k
  · rfl
@[simp] theorem State.reachLines_fixed (s : State) (p : Nat) (l : List Nat) : (s.reachLines p l).fixed = s.fixed := by
  induction l generalizing s with
  | nil => rfl
  | cons k l ih => exact (ih _).trans (s.reach_fixed p k)

/-! ## Translation, code checks and faults -/

@[simp] theorem State.tracePacket_fixed (s : State) (t : Team) (pc : W64) (p : Pkt) :
    (s.tracePacket t pc p).fixed = s.fixed := by
  unfold State.tracePacket; dsimp only; split <;> rfl
@[simp] theorem State.sendSup_fixed (s : State) (p : Nat) (l : List W32) : (s.sendSup p l).fixed = s.fixed := by
  unfold State.sendSup; dsimp only; split <;> rfl
@[simp] theorem State.walkDie_fixed (s : State) (d p va : Nat) : (s.walkDie d p va).1.fixed = s.fixed := by
  have hc := s.countEvent_fixed p d 0x009 1
  unfold State.walkDie
  generalize s.countEvent p d 0x009 1 = u at hc
  dsimp only
  split <;> exact hc
@[simp] theorem State.lookupDie_fixed (s : State) (d p va : Nat) : (s.lookupDie d p va).1.fixed = s.fixed := by
  unfold State.lookupDie; split
  · rfl
  · exact s.walkDie_fixed d p va
@[simp] theorem State.lookup_fixed (s : State) (c p va : Nat) : (s.lookup c p va).1.fixed = s.fixed := by
  unfold State.lookup; split
  · rfl
  · have hw := (State.lookupDie_fixed (s.countEvent p (dieOfCore c) 0x008 1) (dieOfCore c) p va).trans
      (s.countEvent_fixed p (dieOfCore c) 0x008 1)
    dsimp only
    split
    · next h => rwa [h] at hw
    · next h => rw [h] at hw; exact hw
@[simp] theorem State.xlate_fixed (s : State) (c p : Nat) (l : List (Nat × Nat)) : (s.xlate c p l).1.fixed = s.fixed := by
  induction l generalizing s with
  | nil => rfl
  | cons x l ih =>
    have hl := s.lookup_fixed c p x.1
    simp only [State.xlate]
    split
    · next h => rwa [h] at hl
    · next s1 _ h =>
      rw [h] at hl
      have hx := ih s1
      split
      · next h' => rw [h'] at hx; exact hx.trans hl
      · next h' => rw [h'] at hx; exact hx.trans hl
@[simp] theorem State.checkRange_fixed (s : State) (c p level : Nat) (k : AccKind) (cl : PClass) (va n : Nat) :
    (s.checkRange c p level k cl va n).1.fixed = s.fixed := by
  have hx := s.xlate_fixed c p (rangePieces va n)
  unfold State.checkRange
  split
  · next h => rwa [h] at hx
  · next h =>
    rw [h] at hx
    split
    · exact hx
    · split <;> exact hx
@[simp] theorem State.fetchWord_fixed (s : State) (t : Team) (va : W64) : (s.fetchWord t va).1.fixed = s.fixed := by
  have hx := s.checkRange_fixed t.core t.part t.level .fetch .plain va.toNat 8
  unfold State.fetchWord
  split
  · next h => rwa [h] at hx
  · next h =>
    rw [h] at hx
    dsimp only
    split <;> exact hx
@[simp] theorem State.rcvAt_fixed (s : State) (t : Team) (h : W64) : (s.rcvAt t h).1.fixed = s.fixed := by
  have hf := s.fetchWord_fixed t h
  unfold State.rcvAt
  split
  · next e => rwa [e] at hf
  · next e => rwa [e] at hf
@[simp] theorem State.mapBit_fixed (s : State) (t : Team) (g : Region3) (a : W64) : (s.mapBit t g a).1.fixed = s.fixed := by
  have hl := s.lookup_fixed t.core t.part (va56 (g.map.toNat + (a.toNat - g.base.toNat) / 8 / 8))
  unfold State.mapBit
  dsimp only
  split
  · next h => rwa [h] at hl
  · next h =>
    rw [h] at hl
    split <;> exact hl
@[simp] theorem State.arriveFrom_fixed (s : State) (t : Team) (h : W64) (n : Nat) :
    (s.arriveFrom t h n).1.fixed = s.fixed := by
  induction n generalizing s t h with
  | zero => rfl
  | succ n ih =>
    simp only [State.arriveFrom]
    split
    · rfl
    · next u _ =>
      split
      · rfl
      · split
        · have hr := s.rcvAt_fixed u h
          split
          · next e => rwa [e] at hr
          · next e =>
            rw [e] at hr
            split <;> exact (ih _ _ _).trans hr
        · rfl

@[simp] theorem State.doubleFault_fixed (s : State) (t : Team) (f : FaultRec) : (s.doubleFault t f).fixed = s.fixed :=
  (State.sendSup_fixed _ _ _).trans (State.tracePacket_fixed _ _ _ _)
@[simp] theorem State.enterHandler_fixed (s : State) (t : Team) (f : FaultRec) (vec : W64) :
    (s.enterHandler t f vec).fixed = s.fixed := by
  have ha := s.arriveFrom_fixed (t.inHandler f) vec (t.inHandler f).steps
  unfold State.enterHandler
  split
  next s1 u bad e =>
  rw [e] at ha
  cases bad with
  | false => exact ha
  | true => exact (State.doubleFault_fixed _ u _).trans ha
@[simp] theorem State.deliver_fixed (s : State) (t : Team) (f : FaultRec) : (s.deliver t f).fixed = s.fixed := by
  unfold State.deliver
  dsimp only
  split
  · exact s.doubleFault_fixed t f
  · split
    · have hm := s.mapBit_fixed t (s.vector t).2 (s.vector t).1
      split
      · next e => rw [e] at hm; exact (State.enterHandler_fixed _ _ _ _).trans hm
      · next e => rw [e] at hm; exact (State.doubleFault_fixed _ _ _).trans hm
    · exact s.doubleFault_fixed t f
@[simp] theorem State.raise_fixed (s : State) (t : Team) (f : FaultRec) : (s.raise t f).fixed = s.fixed := by
  unfold State.raise; split
  · exact s.deliver_fixed _ f
  · rfl
@[simp] theorem State.performFault_fixed (s : State) (t : Team) (p : Pending) (f : Fail) :
    (s.performFault t p f).fixed = s.fixed := State.raise_fixed _ _ _

/-! ## Version loads that try again, and floors -/

theorem State.lostLoad_fixed {s s' : State} {t : Team} {p : Pending} {a : Acc} (h : s.lostLoad t p a = some s') :
    s'.fixed = s.fixed := by
  unfold State.lostLoad at h
  dsimp only at h
  split at h
  · cases h
  · cases h
    exact State.raise_fixed _ _ _
theorem State.vStop_fixed {s s' : State} {t : Team} {p : Pending} {a : VAcc} (h : s.vStop t p a = some s') :
    s'.fixed = s.fixed := by
  obtain h | ⟨-, h⟩ := Option.or_eq_some_iff.1 h
  · unfold State.vLost at h
    split at h
    · exact State.lostLoad_fixed h
    · cases h
  · obtain ⟨f, -, rfl⟩ := Option.map_eq_some_iff.1 h
    exact s.performFault_fixed t p f
@[simp] theorem State.acquire_fixed (s : State) (t : Team) (sc : Scope) : (s.acquire t sc).fixed = s.fixed := by
  unfold State.acquire; dsimp only
  split <;> split <;> rfl
@[simp] theorem State.vDeliver_fixed (s : State) (t : Team) (p : Pending) (dst : Dst) (accs : List VAcc) (acq : Option Scope)
    (f : VAcc → List Byte) : (s.vDeliver t p dst accs acq f).fixed = s.fixed := by
  refine (State.fixed_of_kept (State.modTeam_kept _ t.id _)).trans ?_
  unfold State.vAcquire
  split
  · split
    · rfl
    · exact s.acquire_fixed t _
  · rfl
@[simp] theorem State.putNear_fixed (s : State) (t : Team) (c : LineCopy) : (s.putNear t c).fixed = s.fixed := rfl
@[simp] theorem State.putFar_fixed (s : State) (d : Nat) (c : LineCopy) : (s.putFar d c).fixed = s.fixed := rfl
@[simp] theorem State.fillVersions_fixed (s : State) (t : Team) (l : List VAcc) : (s.fillVersions t l).fixed = s.fixed := by
  induction l generalizing s with
  | nil => rfl
  | cons a l ih =>
    unfold State.fillVersions
    dsimp only
    split
    · rw [ih]
      split
      · exact (State.putFar_fixed _ _ _).trans (s.putNear_fixed t _)
      · exact s.putNear_fixed t _
    · exact ih s
@[simp] theorem State.takePlaces_fixed (s : State) (l : List (Nat × WaitPlace)) : (s.takePlaces l).fixed = s.fixed := by
  induction l generalizing s with
  | nil => rfl
  | cons x l ih => exact ih _
@[simp] theorem State.tryVersion_fixed (s : State) (t : Team) (p : Pending) (dst : Dst) (accs : List VAcc) (acq : Option Scope)
    (parked : Bool) : (s.tryVersion t p dst accs acq parked).fixed = s.fixed := by
  have reached : ((s.freePlaces t.id (· == p.seq)).reachLines t.part
      (accs.map (·.gran (s.freePlaces t.id (· == p.seq)))).eraseDups).fixed = s.fixed := State.reachLines_fixed _ _ _
  unfold State.tryVersion
  dsimp only
  split
  · next h =>
    obtain ⟨a, -, ha⟩ := List.exists_of_findSome?_eq_some h
    exact (State.vStop_fixed ha).trans reached
  · split
    · exact (State.vDeliver_fixed _ _ _ _ _ _ _).trans ((State.fillVersions_fixed _ _ _).trans reached)
    · split
      · exact ((State.fixed_of_kept (State.modTeam_kept _ _ _)).trans (State.takePlaces_fixed _ _)).trans reached
      · split
        · exact reached
        · exact (State.fixed_of_kept (State.park_kept _ _ _ _ _ _)).trans reached
@[simp] theorem State.retry_fixed (s : State) (id : TeamId) (seq : Nat) : (s.retry id seq).fixed = s.fixed := by
  unfold State.retry
  split
  · rfl
  · split
    · rfl
    · split
      · dsimp only
        split
        · exact s.tryVersion_fixed _ _ _ _ _ _
        · rfl
      · rfl
@[simp] theorem State.retryParked_fixed (s : State) (f : Team → List VAcc → Bool) : (s.retryParked f).fixed = s.fixed :=
  foldl_keeps State.fixed (fun s (x : Nat × TeamId × Nat) => s.retry_fixed x.2.1 x.2.2) _ s
@[simp] theorem State.releaseBelow_fixed (s : State) (p r : Nat) (f : W32) (l : Nat) :
    (s.releaseBelow p r f l).fixed = s.fixed :=
  (foldl_keeps State.fixed (fun s (x : TeamId × Nat) => s.retry_fixed x.1 x.2) _ _).trans
    (State.fixed_of_kept ((State.sends_kept _ _).trans (s.modSlice_kept l (by intro; rfl))))
@[simp] theorem State.tellHolders_fixed (s : State) (p r : Nat) (f : W32) (l : Nat) : (s.tellHolders p r f l).fixed = s.fixed :=
  State.fixed_of_kept ((State.sends_kept _ _).trans (s.setRegion_kept p r _))
@[simp] theorem State.takeFloor_fixed (s : State) (p r : Nat) (f : W32) (l : Nat) : (s.takeFloor p r f l).fixed = s.fixed := by
  unfold State.takeFloor
  dsimp only
  split
  · rfl
  · rw [State.retryParked_fixed, State.tellHolders_fixed, State.releaseBelow_fixed,
      State.fixed_of_kept (State.noteRegion_kept _ _ _ _),
      foldl_keeps State.fixed fun s g => State.fixed_of_kept (s.reclaim_kept p r f g)]
    exact State.fixed_of_kept (s.setRegion_kept p r _)

end Sys2Proof.Machine
end

section
/-! PROOF. Obligation O52: units, lines, windows and leaves on the move, shoot-downs (R290, R348-R357). -/
namespace Sys2Proof.Machine

/-! ## Who owns and holds the units -/

/-- The owners and holders of cores, slices and groups. -/
def State.owners (s : State) := s.fixed.2.2
theorem State.owners_of_fixed {s s' : State} (h : s'.fixed = s.fixed) : s'.owners = s.owners := congrArg (·.2.2) h

section
variable {s s' : State} (h : s'.owners = s.owners)
include h

theorem State.coreOwnerOf_of_owners (c : Nat) : s'.coreOwnerOf c = s.coreOwnerOf c := congrArg (fun x => x.1.get 0 c) h
theorem State.coreHolderOf_of_owners (c : Nat) : s'.coreHolderOf c = s.coreHolderOf c := congrArg (fun x => x.2.1.get 0 c) h
theorem State.sliceOwnerOf_of_owners (l : Nat) : s'.sliceOwnerOf l = s.sliceOwnerOf l := congrArg (fun x => x.2.2.1.get 0 l) h
theorem State.sliceHolderOf_of_owners (l : Nat) : s'.sliceHolderOf l = s.sliceHolderOf l :=
  congrArg (fun x => x.2.2.2.1.get 0 l) h
theorem State.groupOwnerOf_of_owners (g : Nat) : s'.groupOwnerOf g = s.groupOwnerOf g := congrArg (fun x => x.2.2.2.2.get 0 g) h
end

/-- Each unit of a list goes to `v`, and the others stay. -/
theorem get_setAll (t : Table Nat) (v : Nat) (l : List Nat) (k : Nat) :
    (setAll t v l).get 0 k = if k ∈ l then v else t.get 0 k := by
  induction l generalizing t with
  | nil => simp [setAll]
  | cons a l ih =>
    rw [setAll, ih]
    by_cases ha : k = a
    · subst ha; simp
    · simp [ha, Table.get_set_ne _ _ _ ha]

/-! ## Units that pass -/

theorem State.seedFloors_fixed (s : State) (p : Nat) (old new_ : List Nat) : (s.seedFloors p old new_).fixed = s.fixed :=
  foldl_keeps State.fixed (fun s _ => foldl_keeps State.fixed (fun s l => s.takeFloor_fixed _ _ _ l) new_ s) _ s

theorem State.openWindows_fixed (s : State) (p : Nat) (old : Nat → List Nat) : (s.openWindows p old).fixed = s.fixed := by
  refine foldl_keeps State.fixed (fun s d => ?_) _ s
  dsimp only
  split
  · rfl
  · rw [State.seedFloors_fixed]
    split
    · rfl
    · split <;> rfl

/-- The state once the units of operation `o` that are empty are `q`'s. -/
def State.passed (s : State) (o : UnitOp) (q : Nat) (owned : Bool) : State := { s with
  coreOwner := if owned then setAll s.coreOwner q (s.coresOut o) else s.coreOwner
  coreHolder := setAll s.coreHolder q (s.coresOut o)
  sliceOwner := if owned then setAll s.sliceOwner q (s.slicesOut o q) else s.sliceOwner
  sliceHolder := setAll s.sliceHolder q (s.slicesOut o q) }

theorem State.trimFar_fixed (s : State) (p : Nat) : (s.trimFar p).fixed = s.fixed := rfl
theorem State.refresh_fixed (s : State) (p : Nat) : (s.refresh p).fixed = s.fixed := rfl
theorem State.passUnits_owners (s : State) (i : Nat) (o : UnitOp) (q : Nat) (owned : Bool) :
    (s.passUnits i o q owned).owners = (s.passed o q owned).owners := by
  simp only [State.passUnits, State.owners, State.refresh_fixed, State.trimFar_fixed, State.openWindows_fixed]
  rfl

section
variable {s s' : State} {o : UnitOp} {q : Nat}

theorem State.mem_coresOut_iff {c : Nat} : c ∈ s.coresOut o ↔ c ∈ bitList 48 o.outCores ∧ s.residents c = [] ∧
    (s.core c).wbuf = [] := by
  simp [State.coresOut]
theorem State.mem_slicesOut_iff {l : Nat} : l ∈ s.slicesOut o q ↔ l ∈ bitList 96 o.outSlices ∧
    s.windowedOn o.p (dieOfSlice l) = false ∧ s.windowedOn q (dieOfSlice l) = false := by
  simp [State.slicesOut]

/-- Where units have passed, each core with nothing left on it and each slice that is swept has its new holder. -/
theorem State.holders_of_passed {owned : Bool} (h : s'.owners = (s.passed o q owned).owners) :
    (∀ c ∈ s.coresOut o, s'.coreHolderOf c = q) ∧ ∀ l ∈ s.slicesOut o q, s'.sliceHolderOf l = q := by
  refine ⟨fun c hc => ?_, fun l hl => ?_⟩
  · rw [State.coreHolderOf_of_owners h]
    exact (get_setAll s.coreHolder q _ c).trans (if_pos hc)
  · rw [State.sliceHolderOf_of_owners h]
    exact (get_setAll s.sliceHolder q _ l).trans (if_pos hl)
/-- And its new owner, where units pass for good. -/
theorem State.owners_of_passed (h : s'.owners = (s.passed o q true).owners) :
    (∀ c ∈ s.coresOut o, s'.coreOwnerOf c = q) ∧ ∀ l ∈ s.slicesOut o q, s'.sliceOwnerOf l = q := by
  refine ⟨fun c hc => ?_, fun l hl => ?_⟩
  · rw [State.coreOwnerOf_of_owners h]
    exact (get_setAll s.coreOwner q _ c).trans (if_pos hc)
  · rw [State.sliceOwnerOf_of_owners h]
    exact (get_setAll s.sliceOwner q _ l).trans (if_pos hl)
end

/-! ## Operations that end -/

theorem State.unitRecord_fixed (s : State) (p cause : Nat) : (s.unitRecord p cause).fixed = s.fixed := by
  refine (State.sendSup_fixed _ p _).trans (foldl_keeps State.fixed (fun s x => ?_) _ s)
  dsimp only
  split <;> rfl
theorem State.putWord7_owners (s : State) (at_ : Option (Nat × W64)) (v : W64) : (s.putWord7 at_ v).owners = s.owners := by
  unfold State.putWord7
  split
  · exact State.owners_of_fixed (State.fixed_of_kept (s.writeVirt_kept _ _ _))
  · rfl
theorem State.opEnd_owners (s : State) (i : Nat) (o : UnitOp) (cause : Nat) (ps : List Nat) :
    (s.opEnd i o cause ps).owners = s.owners :=
  (State.owners_of_fixed (foldl_keeps State.fixed (fun s p => s.unitRecord_fixed p cause) ps _)).trans
    (State.putWord7_owners _ _ _)
theorem State.failEnd_owners (s : State) (i : Nat) (o : UnitOp) : (s.failEnd i o).owners = s.owners :=
  State.owners_of_fixed (foldl_keeps State.fixed (fun s p => s.unitRecord_fixed p 3) _ _)

section
variable {s : State} {i : Nat} {o : UnitOp} (ho : s.ops.get? i = some o)
include ho

theorem State.revokeDone_owners_of_revoke (hk : o.kind = .revoke) :
    (s.revokeDone i).owners = (s.passed o o.src false).owners := by
  rw [← s.passUnits_owners i]
  simp only [State.revokeDone, ho, hk, true_or, if_true, reduceCtorEq, if_false]
  split
  · split
    · split
      · exact State.failEnd_owners _ _ _
      · exact State.opEnd_owners _ _ _ _ _
    · rfl
  · rfl
theorem State.revokeDone_owners_of_fail (hk : o.kind = .fail) : (s.revokeDone i).owners = (s.passed o 0 true).owners := by
  rw [← s.passUnits_owners i]
  simp only [State.revokeDone, ho, hk, or_true, if_true]
  split
  · split
    · split
      · exact State.failEnd_owners _ _ _
      · exact State.opEnd_owners _ _ _ _ _
    · rfl
  · rfl

/-- The state once the groups that the resize `o` leaves, and out of which every leaf has moved, are partition 0's. -/
def State.groupsPassed (s : State) (o : UnitOp) : State :=
  { (s.scrubGroups (s.groupsOut o)).forgetGroups (s.groupsOut o) with groupOwner := setAll s.groupOwner 0 (s.groupsOut o) }

theorem State.resizeDone_owners (hk : o.kind = .resize) :
    (s.resizeDone i).owners = ((s.groupsPassed o).passed o 0 true).owners := by
  rw [← State.passUnits_owners _ i]
  simp only [State.resizeDone, ho, hk, if_true]
  split
  · split
    · exact State.opEnd_owners _ _ _ _ _
    · rfl
  · rfl
end

section
variable {s : State} {i : Nat} {o : UnitOp}

theorem State.lendDone_of_closed (ho : s.ops.get? i = some o) (hk : o.kind = .lend) (hp : s.windowed o.p = false)
    (hq : s.windowed o.src = false) : s.lendDone i = s.opEnd i o 1 (s.members [o.p, o.src]) := by
  simp [State.lendDone, ho, hk, hp, hq]

theorem State.windowedOn_groupsPassed (p d : Nat) : (s.groupsPassed o).windowedOn p d = s.windowedOn p d := by
  simp only [State.windowedOn, State.groupsPassed, State.forgetGroups, State.scrubGroups, List.any_map]
  rfl
theorem State.slicesOut_groupsPassed (q : Nat) : (s.groupsPassed o).slicesOut o q = s.slicesOut o q := by
  simp only [State.slicesOut, State.windowedOn_groupsPassed]
/-- Each group whose last leaf has moved is partition 0's. -/
theorem State.groupOwnerOf_resizeDone (ho : s.ops.get? i = some o) (hk : o.kind = .resize) {g : Nat} (hg : g ∈ s.groupsOut o) :
    (s.resizeDone i).groupOwnerOf g = 0 := by
  rw [State.groupOwnerOf_of_owners (State.resizeDone_owners ho hk)]
  exact (get_setAll s.groupOwner 0 _ g).trans (if_pos hg)
theorem State.mem_groupsOut_iff {g : Nat} : g ∈ s.groupsOut o ↔
    g ∈ without (s.ownGroups o.p) (bitList 128 (UnitBlock.groups o.words)) ∧
      (s.hostLeaves o.p).any (leafIn g) = false := by
  simp only [State.groupsOut, List.mem_filter, Bool.not_eq_true']
end

/-! ## The sweep of a window -/

section
variable {s : State} {k l : Nat}

theorem State.ne_homeSlice_of_oldHome (h : s.oldHome k = some l) : some l ≠ s.homeSlice (64 * k) := by
  have mem := List.mem_of_head? h
  obtain ⟨w, -, hw⟩ := List.mem_flatMap.1 mem
  dsimp only at hw
  split at hw
  · exact bne_iff_ne.1 (List.mem_filter.1 hw).2
  · cases hw

/-- The sweep takes a line out of the slice, or moves it. -/
theorem State.sweepLine_of_oldHome (h : s.oldHome k = some l) (clean : Bool) : s.sweepLine k clean =
    if (clean = true ∨ s.revoked l = true ∨ s.homeSlice (64 * k) = none) ∧ s.hasState l k = false then
      (s.evictLine k).dropCached l k
    else s.moveLine k := by
  simp only [State.sweepLine, h, Bool.and_eq_true, Bool.or_eq_true, Option.isNone_iff_eq_none, Bool.not_eq_true', or_assoc]

theorem State.hasState_of_rline {x : RLine} (h : s.rline? l k = some x) : s.hasState l k = true := by
  simp [State.hasState, h]

/-- The reduction state moves with its line. -/
theorem State.rline?_moveLine {n : Nat} {x : RLine} (ho : s.oldHome k = some l) (hn : s.homeSlice (64 * k) = some n)
    (hr : s.roomAt l n k = true) (hx : s.rline? l k = some x) :
    (s.moveLine k).rline? n k = some x ∧ (s.moveLine k).rline? l k = none := by
  obtain ⟨s1, h1, h⟩ := State.moveLine_kept ho hn hr
  have hne : l ≠ n := fun e => State.ne_homeSlice_of_oldHome ho (e ▸ hn.symm)
  have moved : s1.passRline l n k = (s1.dropRline l k).setRline n k x := by
    rw [State.passRline, State.rline?_of_kept h1, hx]
  rw [State.rline?_of_kept h, State.rline?_of_kept h, moved]
  constructor
  · simp [State.rline?, State.setRline, State.modSlice]
  · simp [State.rline?, State.setRline, State.dropRline, State.modSlice, State.slice_setSlice_ne _ _ hne, Table.get?_del_same]

theorem execDualHashSweep_of_left {w : DWin} (hw : s.wins.get? s.ev.idx = some w)
    (hl : (s.leftIn w).contains s.ev.addr = true) : execDualHashSweep s = .next (s.sweepLine s.ev.addr s.ev.flag) := by
  simp only [execDualHashSweep, hw, hl, if_true]

theorem State.windowClose_of_empty {i : Nat} {w : DWin} (hw : s.wins.get? i = some w) (hl : s.leftIn w = []) :
    s.windowClose i = { s with wins := s.wins.del i } := by
  simp only [State.windowClose, hw, hl, List.isEmpty_nil, if_true]
end

/-! ## Leaves of the host stage -/

section
variable {s : State} {i a g h size : Nat} {o : UnitOp} {at_ : Nat} {e : W64}

theorem State.pageMigrate_of_large (ho : s.ops.get? i = some o)
    (hl : (s.hostLeaves o.p).find? (fun l => l.1 == at_) = some (a, e, size)) (hs : size ≠ 2 ^ 18) : s.pageMigrate i at_ = s := by
  simp only [State.pageMigrate, ho, hl]
  split
  · rfl
  · exact if_pos (.inl hs)

theorem State.mem_pageMigrate (ho : s.ops.get? i = some o)
    (hl : (s.hostLeaves o.p).find? (fun l => l.1 == at_) = some (a, e, 2 ^ 18))
    (hg : o.groups.find? (fun q => leafIn q.1 (a, e, 2 ^ 18)) = some (g, h))
    (hq : s.frameQuiet o.p ⟨pteAddr e, shiftGroup g h (pteAddr e), 2 ^ 18⟩ = true)
    (hr : s.frameRoom ⟨pteAddr e, shiftGroup g h (pteAddr e), 2 ^ 18⟩ = true) :
    (s.pageMigrate i at_).mem = ((s.moveFrame o.p ⟨pteAddr e, shiftGroup g h (pteAddr e), 2 ^ 18⟩).writePhys a
      (le8 (BitVec.ofNat 64 (e.toNat - pteAddr e + shiftGroup g h (pteAddr e))))).mem := by
  simp only [State.pageMigrate, ho, hl, hg, hq, hr, ne_eq, not_true, Bool.not_true, Bool.false_eq_true, or_self, if_false]
  rfl

theorem not_all_eq_false {α : Type} {p : α → Bool} {l : List α} (h : ∀ x ∈ l, p x = true) : (!l.all p) = false := by
  rw [List.all_eq_true.2 h]; rfl

/-- A leaf of 8 GiB in a group that the partition is to leave refuses its resize. -/
theorem State.resizeWhy_of_large {w : List W64}
    (hc : ∀ c ∈ without (bitList 48 (UnitBlock.cores w)) (s.ownCores (UnitBlock.p w)),
      s.coreOwnerOf c = 0 ∧ s.coreHolderOf c = 0 ∧ s.coreReady c = true)
    (hs : ∀ l ∈ without (bitList 96 (UnitBlock.slices w)) (s.ownSlices (UnitBlock.p w)),
      s.sliceOwnerOf l = 0 ∧ s.sliceHolderOf l = 0 ∧ s.sliceReady l = true)
    (hg : ∀ g ∈ without (bitList 128 (UnitBlock.groups w)) (s.ownGroups (UnitBlock.p w)),
      s.groupOwnerOf g = 0 ∧ s.groupReady g = true)
    (hl : ∃ l ∈ s.hostLeaves (UnitBlock.p w), l.2.2 = 2 ^ 33 ∧
      ∃ g ∈ without (s.ownGroups (UnitBlock.p w)) (bitList 128 (UnitBlock.groups w)), leafIn g l = true) :
    s.resizeWhy w = 2 := by
  obtain ⟨l, hl, size, g, hg', leaf⟩ := hl
  have large : ((s.hostLeaves (UnitBlock.p w)).any fun l => l.2.2 == 2 ^ 33 &&
      (without (s.ownGroups (UnitBlock.p w)) (bitList 128 (UnitBlock.groups w))).any (leafIn · l)) = true :=
    List.any_eq_true.2 ⟨l, hl, by rw [size, List.any_eq_true.2 ⟨g, hg', leaf⟩]; rfl⟩
  unfold State.resizeWhy
  dsimp only
  rw [if_neg, if_pos]
  · rw [large, Bool.or_true, Bool.true_or]
  · rw [not_all_eq_false fun c hx => by simp [hc c hx], not_all_eq_false fun l hx => by simp [hs l hx],
      not_all_eq_false fun g hx => by simp [hg g hx]]
    exact Bool.false_ne_true
end

/-! ## Shoot-downs -/

section
variable {s : State} {t : Team} {id : TeamId} {ws : List (TeamId × Nat)}

theorem State.hostHoldEnd_of_gone (hw : s.mgmt.syswait = some (.pgret ws)) (hg : s.gone ws = true) :
    s.hostHoldEnd = { s with mgmt := { s.mgmt with
      syswait := none
      syssel := s.mgmt.syssel &&& ~~~(1#64 <<< 63) } } := by
  simp only [State.hostHoldEnd, hw, hg, if_true]
theorem State.pgretDone_of_gone (ht : s.team? id = some t) (hh : t.holdOn = some (.pgret ws)) (hg : s.gone ws = true) :
    s.pgretDone id = (s.setTeam { t with holdOn := none }).moveOn t := by
  simp only [State.pgretDone, ht, hh, hg, if_true, State.endHold]
theorem State.rootDropDone_of_gone (ht : s.team? id = some t) (hh : t.holdOn = some (.rootDrop ws)) (hg : s.gone ws = true) :
    s.rootDropDone id = (s.setTeam { t with holdOn := none }).moveOn t := by
  simp only [State.rootDropDone, ht, hh, hg, if_true, State.endHold]
end

end Sys2Proof.Machine

open Sys2Proof Sys2Proof.Machine in
/-- Settles O52: units, groups, lines and leaves go where their operation sends them once nothing is left on them, and a hold
ends once nothing uses what was dropped. -/
theorem unitsMove : Obligations.UnitsMove := by
  intro s o w t ws i
  refine ⟨fun ho hk hp hq => congrArg Host.Outcome.next (State.lendDone_of_closed ho hk hp hq),
    fun ho hk => ⟨_, rfl, ?revoke⟩, fun ho hk => ⟨_, rfl, ?fail⟩, fun ho hk => ⟨_, rfl, ?resize⟩, fun l hw hl ho => ?sweep,
    fun hw hl => ⟨_, rfl, ?close⟩, fun a e size g h ho hl hg hs hq hr => ⟨_, rfl, ?migrate⟩,
    fun a e size ho hl hs => congrArg Host.Outcome.next (State.pageMigrate_of_large ho hl hs),
    fun bw at_ hc hs hg hl => ?refused, fun hf hw hg => ?host, fun hf ht hh hg => ?pgret,
    fun hf ht hh hg => ?root⟩
  case revoke =>
    obtain ⟨cores, slices⟩ := State.holders_of_passed (State.revokeDone_owners_of_revoke ho hk)
    exact ⟨fun c hc he => cores c (State.mem_coresOut_iff.2 ⟨hc, he⟩),
      fun l hl hw => slices l (State.mem_slicesOut_iff.2 ⟨hl, hw⟩)⟩
  case fail =>
    have passed := State.revokeDone_owners_of_fail ho hk
    obtain ⟨cores, slices⟩ := State.holders_of_passed passed
    obtain ⟨coresFor, slicesFor⟩ := State.owners_of_passed passed
    exact ⟨fun c hc he => have out := State.mem_coresOut_iff.2 ⟨hc, he⟩; ⟨coresFor c out, cores c out⟩,
      fun l hl hw => have out := State.mem_slicesOut_iff.2 ⟨hl, hw⟩; ⟨slicesFor l out, slices l out⟩⟩
  case resize =>
    have passed := State.resizeDone_owners ho hk
    obtain ⟨cores, slices⟩ := State.holders_of_passed passed
    obtain ⟨coresFor, slicesFor⟩ := State.owners_of_passed passed
    rw [State.slicesOut_groupsPassed] at slices slicesFor
    exact ⟨fun c hc he => have out := State.mem_coresOut_iff.2 ⟨hc, he⟩; ⟨coresFor c out, cores c out⟩,
      fun l hl hw => have out := State.mem_slicesOut_iff.2 ⟨hl, hw⟩; ⟨slicesFor l out, slices l out⟩,
      fun g hg hl => State.groupOwnerOf_resizeDone ho hk (State.mem_groupsOut_iff.2 ⟨hg, hl⟩)⟩
  case sweep =>
    have swept : exec .dualHashSweep s = .next _ :=
      (execDualHashSweep_of_left hw hl).trans (congrArg Host.Outcome.next (State.sweepLine_of_oldHome ho s.ev.flag))
    refine ⟨fun hg => swept.trans (congrArg Host.Outcome.next (if_pos hg)),
      fun hg => swept.trans (congrArg Host.Outcome.next (if_neg hg)), fun n x hn hr hx => ⟨_, swept, ?_⟩⟩
    rw [if_neg fun hg => by rw [State.hasState_of_rline hx] at hg; exact absurd hg.2 (by decide)]
    exact State.rline?_moveLine ho hn hr hx
  case close =>
    rw [State.windowClose_of_empty hw hl]
    exact ⟨Table.get?_del_same _ _, rfl, rfl⟩
  case migrate =>
    subst hs
    exact State.mem_pageMigrate ho hl hg hq hr
  case refused =>
    have why : s.resizeWhy bw = 2 := State.resizeWhy_of_large hc hs hg hl
    simp [State.unitOp, why]
  case host =>
    exact congrArg Host.Outcome.next ((if_pos hf).trans (State.hostHoldEnd_of_gone hw hg))
  case pgret =>
    exact congrArg Host.Outcome.next ((if_neg (by simp [hf])).trans (State.pgretDone_of_gone ht hh hg))
  case root =>
    exact congrArg Host.Outcome.next ((if_neg (by simp [hf])).trans (State.rootDropDone_of_gone ht hh hg))
end

section
/-! PROOF. Obligation O55: accesses of the host, ingress rings, control records, reports (R281, R373-R383, R420). -/
namespace Sys2Proof.Machine

theorem State.space_congr {s s' : State} (h : s'.mregs = s.mregs) (a : Nat) : s'.space a = s.space a := by
  have size : s'.dsize = s.dsize := by rw [State.dsize, State.mr, h, State.dsize, State.mr]
  have number : s'.devn = s.devn := by rw [State.devn, State.mr, h, State.devn, State.mr]
  unfold State.space
  rw [size, number]

/-! ## Physical bytes of an access -/

theorem length_of_mapM_eq_some {α β : Type} {f : α → Option β} {l : List α} {r : List β} (h : l.mapM f = some r) :
    r.length = l.length := by
  induction l generalizing r with
  | nil => cases h; rfl
  | cons a l ih =>
    rw [List.mapM_cons] at h
    obtain ⟨b, -, h⟩ := Option.bind_eq_some_iff.1 h
    obtain ⟨q, hq, h⟩ := Option.bind_eq_some_iff.1 h
    cases h
    rw [List.length_cons, ih hq, List.length_cons]

section
variable {s : State} {p a n : Nat} {w : Bool} {pas : List Nat}

theorem State.length_inboundPas (h : s.inboundPas p a n w = some pas) : pas.length = n :=
  (length_of_mapM_eq_some h).trans (by simp [bytesAt])

variable (hh : ∀ x ∈ pas, s.space x = .here)
include hh

/-- Bytes that all stand in this device's memory name no register, -/
theorem State.filter_regs_of_here : pas.filter (fun x => s.space x == .regs) = [] :=
  List.filter_eq_nil_iff.2 fun x hx => by rw [hh x hx]; decide
/-- and all are of memory. -/
theorem State.filter_mem_of_here : pas.filter (fun x => s.space x != .regs) = pas :=
  List.filter_eq_self.2 fun x hx => by rw [hh x hx]; rfl
end

/-! ## Reads and writes of BAR2 -/

section
variable {s : State} {port p a n : Nat} {pas : List Nat} (hp : s.portReady port = true) (hq : p ≤ 16)
include hp hq

theorem State.port_open : (!s.portReady port || decide (16 < p)) = false := by
  simp [hp, hq]
theorem State.port_carries : (s.portReady port && decide (p ≤ 16)) = true := by
  simp [hp, hq]

theorem State.hostWriteIn_of_here {data : List Byte} (hi : s.inboundPas p a data.length true = some pas)
    (ho : s.hostOpen pas = true) (hw : s.writeHeld p pas = false) (hh : ∀ x ∈ pas, s.space x = .here) :
    s.hostWriteIn port p a data = (s.reachLines p (s.linesAt pas)).storeBytes p (pas.zip data) := by
  have len : pas.length = data.length := State.length_inboundPas hi
  have here (x) (hx : x ∈ pas.zip data) : s.space x.1 = .here := hh _ (List.of_mem_zip hx).1
  have regs : (pas.zip data).filter (fun x => s.space x.1 == .regs) = [] :=
    List.filter_eq_nil_iff.2 fun x hx => by rw [here x hx]; decide
  have mem : (pas.zip data).filter (fun x => s.space x.1 != .regs) = pas.zip data :=
    List.filter_eq_self.2 fun x hx => by rw [here x hx]; rfl
  simp only [State.hostWriteIn, State.port_open hp hq, hi, ho, hw, regs, mem, List.map_fst_zip (Nat.le_of_eq len)]
  rfl

theorem State.hostReadIn_of_here (hi : s.inboundPas p a n false = some pas) (ho : s.hostOpen pas = true)
    (hb : pas.any s.poisoned = false) (hh : ∀ x ∈ pas, s.space x = .here) :
    s.hostReadIn port p a n =
      (s.reachLines p (s.linesAt pas)).complete (pas.map (s.reachLines p (s.linesAt pas)).memByte) := by
  have bytes : (pas.map fun x => if (s.reachLines p (s.linesAt pas)).space x == .regs then
      (s.reachLines p (s.linesAt pas)).mgmtByte ((s.reachLines p (s.linesAt pas)).mgmt.holder == port) (x % 2 ^ 50)
      else (s.reachLines p (s.linesAt pas)).memByte x) = pas.map (s.reachLines p (s.linesAt pas)).memByte :=
    List.map_congr_left fun x hx => by
      rw [State.space_congr (State.mregs_of_fixed (s.reachLines_fixed p _)), hh x hx]
      rfl
  rw [← bytes]
  simp only [State.hostReadIn, State.port_open hp hq, hi, ho, hb, State.filter_regs_of_here hh, State.filter_mem_of_here hh]
  rfl

theorem State.hostReadIn_of_unsupported (h : s.inboundPas p a n false = none ∨
    (s.inboundPas p a n false = some pas ∧ s.hostOpen pas = true ∧ pas.any s.poisoned = true)) :
    s.hostReadIn port p a n = s.complete [] := by
  obtain hi | ⟨hi, ho, hb⟩ := h
  · simp [State.hostReadIn, State.port_open hp hq, hi]
  · simp [State.hostReadIn, State.port_open hp hq, hi, ho, hb]

theorem State.hostAtomicIn_of_here {op : AT} {cas : Bool} {ty : AtomTy} {b k : W64} {pa : Nat}
    (hi : s.inboundPas p a (atBytes ty) true = some (pa :: pas)) (hc : pcieAtomic op cas ty = true) (ha : a % atBytes ty = 0)
    (hh : s.space pa = .here) (hs : (s.homeSlice pa).isSome = true) (hb : (bytesAt pa (atBytes ty)).any s.poisoned = false)
    (hw : s.writeHeld p (bytesAt pa (atBytes ty)) = false) : s.hostAtomicIn port p a (.atomic op cas ty b k) =
      let x := (s.reachLines p (s.linesAt (bytesAt pa (atBytes ty)))).atomicAt p pa op cas ty b k
      x.1.complete x.2 := by
  simp only [State.hostAtomicIn, State.port_open hp hq, hi, hc, ha, hh, hs, hb, hw]
  rfl
end

/-! ## The windows of BAR0 (R420) -/

section
variable {s : State} {port p : Nat}

theorem State.barWrite_of_above {l : List (Nat × Byte)} (hp : p ≠ 0) (h : ∀ x ∈ l, 4 ≤ x.1) : s.barWrite port p l = s := by
  have none_low : (l.any fun x => decide (x.1 < 4)) = false :=
    List.any_eq_false.2 fun x hx => by simpa using h x hx
  rw [State.barWrite, if_neg hp]
  exact if_neg (by rw [none_low]; exact Bool.false_ne_true)

/-- A read that is none of CPSEM completes with the bytes of the function's window. -/
theorem State.barRead_of_above {l : List Nat} (h : p = 0 → ∀ k ∈ l, 8 ≤ k) : s.barRead port p l =
    { s.complete (l.map fun k => if p = 0 then s.mgmtByte (s.mgmt.holder == port) k else s.vfByte p k) with
      free := s.free + 1 } := by
  have window : (if p = 0 then s.windowRead port l else s) = s := by
    split
    · next hp =>
      exact if_neg fun hl => by
        obtain ⟨k, hk, low⟩ := List.any_eq_true.1 hl
        exact absurd (of_decide_eq_true low) (Nat.not_lt.2 (h hp k hk))
    · rfl
  simp only [State.barRead, window]

/-- The mask of CQCONS in its register spares bits 47:16 alone. -/
theorem cqconsMask_bit : ∀ i < 64, (~~~(0x0000_FFFF_FFFF_0000#64)).getLsbD i = !(decide (16 ≤ i) && decide (i < 48)) := by
  decide

/-- CQCONS takes its value, -/
theorem cqcons_field (c : W64) (v : W32) :
    ((c &&& ~~~(0x0000_FFFF_FFFF_0000#64)) ||| (v.zeroExtend 64 <<< 16)).extractLsb' 16 32 = v := by
  refine BitVec.eq_of_getLsbD_eq fun i hi => ?_
  have inside : 16 + i < 64 ∧ 16 + i < 48 := by omega
  rw [BitVec.getLsbD_extractLsb', BitVec.getLsbD_or, BitVec.getLsbD_and, cqconsMask_bit _ inside.1, BitVec.getLsbD_shiftLeft,
    BitVec.getLsbD_setWidth]
  have : i < 64 := by omega
  simp [hi, inside, this]
/-- and what stands below it stays. -/
theorem cqcons_below (c : W64) (v : W32) :
    ((c &&& ~~~(0x0000_FFFF_FFFF_0000#64)) ||| (v.zeroExtend 64 <<< 16)).extractLsb' 0 16 = c.extractLsb' 0 16 := by
  refine BitVec.eq_of_getLsbD_eq fun i hi => ?_
  have below : 0 + i < 64 ∧ ¬ 16 ≤ 0 + i ∧ 0 + i < 16 := by omega
  rw [BitVec.getLsbD_extractLsb', BitVec.getLsbD_or, BitVec.getLsbD_and, cqconsMask_bit _ below.1, BitVec.getLsbD_shiftLeft,
    BitVec.getLsbD_extractLsb']
  simp only [below, decide_true, decide_false, Bool.false_and, Bool.not_false, Bool.and_true, Bool.not_true, Bool.and_false,
    Bool.or_false]
end

/-! ## Ingress rings (R373, R374) -/

section
variable {s : State} {p r : Nat} {g : IRing} {w : List W32}

/-- A ring of a running partition, with its next slot. -/
structure RingPolled (s : State) (p r : Nat) (g : IRing) (w : List W32) : Prop where
  ring : (s.part p).rings.get? r = some g
  sound : g.err = false
  running : (s.part p).frozen = false ∧ (s.part p).freezing = false
  slot : s.slotWords p g = some w
  turn : recWord w 2 = g.rdidx

theorem State.ingressPoll_of_polled (h : RingPolled s p r g w) : s.ingressPoll p r =
    let seen := s.dropFarPeers (s.recvDie p w)
    if seen.ringCause p w ≠ 0 then seen.ringFail p r g (seen.ringCause p w) w
    else if seen.ringShort p w then seen
    else (seen.inputRecord p w).ringTo p r g (g.rdidx + 1) := by
  obtain ⟨ring, sound, ⟨frozen, freezing⟩, slot, turn⟩ := h
  simp only [State.ingressPoll, ring, sound, frozen, freezing, slot, turn, Bool.or_self, Bool.false_eq_true, ne_eq,
    not_true, if_false]

theorem State.rings_ringFail (s : State) (p r : Nat) (g : IRing) (cause : Nat) (w : List W32) :
    ((s.ringFail p r g cause w).part p).rings.get? r = some { g with err := true } := by
  rw [State.ringFail, State.part_modPart_same]
  exact Table.get?_put_same _ r _
end

/-! ## Control records (R381) -/

section
variable {s s' : State} {p : Nat} {c : Ctrl} {x : Graph}

theorem State.graph?_report (s : State) (p : Nat) (r : Report) (q g : Nat) : (s.report p r).graph? q g = s.graph? q g := by
  by_cases hq : q = p
  · subst hq
    unfold State.report
    dsimp only
    split
    · rw [State.graph?, State.part_setPart_same]; rfl
    · split
      · rw [State.graph?, State.part_setPart_same]; rfl
      · rw [State.graph?, State.bump, State.setPr, State.part_modPart_same]; rfl
  · unfold State.report
    dsimp only
    split
    · rw [State.graph?, State.part_setPart_ne _ _ hq]; rfl
    · split
      · rw [State.graph?, State.part_setPart_ne _ _ hq]; rfl
      · rw [State.graph?, State.bump, State.setPr, State.modPart, State.part_setPart_ne _ _ hq]; rfl

theorem State.ctrlLoad_of_loads (hc : s.ctrlHead p 1 = some (c, s')) (hg : s'.graph? p c.gslot = none)
    (hl : s'.loadGraph p c.va = some x) : s.ctrlLoad p =
      (s'.modPart p fun y => { y with graphs := y.graphs.put c.gslot x }).report p ⟨1, 0, c.gslot, 0, c.tag, 0⟩ := by
  simp only [State.ctrlLoad, hc, hg, hl]
theorem State.ctrlLoad_of_refused (hc : s.ctrlHead p 1 = some (c, s')) (hg : s'.graph? p c.gslot = none)
    (hl : s'.loadGraph p c.va = none) : s.ctrlLoad p = s'.report p ⟨1, 1, c.gslot, 0, c.tag, 0⟩ := by
  simp only [State.ctrlLoad, hc, hg, hl]
/-- An idle graph that is unloaded is gone. -/
theorem State.graph?_ctrlUnload (hc : s.ctrlHead p 2 = some (c, s')) (hg : s'.graph? p c.gslot = some x)
    (hb : s'.graphBusy p c.gslot = false) : (s.ctrlUnload p).graph? p c.gslot = none := by
  simp only [State.ctrlUnload, hc, hg, hb, Bool.false_eq_true, if_false]
  rw [State.graph?_report, State.graph?, State.part_modPart_same]
  exact Table.get?_del_same _ _
theorem State.ctrlWatch_of_loaded (hc : s.ctrlHead p 3 = some (c, s')) (hg : (s'.graph? p c.gslot).isSome = true) :
    s.ctrlWatch p = (s'.endInstance p c.gslot).modGraph p c.gslot fun y => { y with watch := y.watch ++ [c.tag] } := by
  obtain ⟨x, hx⟩ := Option.isSome_iff_exists.1 hg
  simp only [State.ctrlWatch, hc, hx]
end

/-! ## Reports (R382) -/

section
variable {s : State} {p : Nat} {r : Report} {rs : List Report}

theorem State.writeVirt_offSafe (s : State) (p va : Nat) (l : List Byte) (q : Nat) :
    (s.writeVirt p va l).offSafe q = s.offSafe q := by
  unfold State.writeVirt
  split
  · exact s.writePhys_offSafe _ l q
  · rfl

/-- The oldest report goes to the queue, and its vector is raised on the port that holds the control plane. -/
theorem State.reportWrite_of_room (h : (s.part p).reports = r :: rs) (hr : s.reportRoom p = true) :
    ((s.reportWrite p).part p).reports = rs ∧ ((s.reportWrite p).part p).cqNext = ((s.part p).cqNext + 1) % 2 ^ 32 ∧
      (s.reportWrite p).mgmt.msixSent = s.mgmt.msixSent ++ [(p, 0)] := by
  let s1 := s.setPart p { s.part p with
    reports := rs
    cqNext := ((s.part p).cqNext + 1) % 2 ^ 32 }
  obtain ⟨va, l, written⟩ : ∃ va l, s.reportWrite p = (s1.writeVirt p va l).raiseMsix p 0 := by
    simp only [State.reportWrite, h, hr, Bool.not_true, Bool.false_eq_true, if_false]
    exact ⟨_, _, rfl⟩
  have part : (s1.writeVirt p va l).offSafe p = Partition.offSafe { s.part p with
      reports := rs
      cqNext := ((s.part p).cqNext + 1) % 2 ^ 32 } := by
    rw [State.writeVirt_offSafe, State.offSafe, State.part_setPart_same]
  have held : s.mgmt.held = true := by
    simp only [State.reportRoom, Bool.and_eq_true] at hr
    exact hr.1.2
  have mgmt : (s1.writeVirt p va l).mgmt = s.mgmt := State.mgmt_of_fixed (State.fixed_of_kept (s1.writeVirt_kept p va l))
  rw [written]
  refine ⟨congrArg Partition.reports part, congrArg Partition.cqNext part, ?_⟩
  simp only [State.raiseMsix, mgmt, held, if_true]
end

end Sys2Proof.Machine

open Sys2Proof Sys2Proof.Machine in
/-- Settles O55: the bytes of an access go through the host stage, and are read or written where they stand; rings, control
records and reports take the branch of their rule. -/
theorem hostAndIngress : Obligations.HostAndIngress := by
  intro s s' g w c x r rs pas e p port
  refine ⟨fun hp hf hi ho hw hh => ?write, fun hp hf h0 hk => ?window, fun hp hf hi ho hh hb => ?read,
    fun hp hf hi => ?unsupported, fun hp hf hk => ?readWindow, fun pa op cas ty b k hp he hi hc ha hh hs hb hw => ?atomic,
    fun hr he hz hy hs ht hc hn => ?taken, fun hr he hz hy hs ht hc => ⟨_, rfl, ?bad⟩,
    fun hc hg hl => congrArg Host.Outcome.next (State.ctrlLoad_of_loads hc hg hl),
    fun hc hg hl => congrArg Host.Outcome.next (State.ctrlLoad_of_refused hc hg hl),
    fun hc hg hb => ⟨_, rfl, State.graph?_ctrlUnload hc hg hb⟩,
    fun hc hg => congrArg Host.Outcome.next (State.ctrlWatch_of_loaded hc hg),
    fun hr hq => ⟨_, rfl, State.reportWrite_of_room hr hq⟩, fun hp => ⟨_, congrArg Host.Outcome.next (if_pos hp), ?cqcons⟩⟩
  case write =>
    exact congrArg Host.Outcome.next
      ((if_neg (ne_true_of_eq_false hf)).trans (State.hostWriteIn_of_here hp.1 hp.2 hi ho hw hh))
  case window =>
    exact congrArg Host.Outcome.next
      ((if_pos hf).trans ((if_pos (State.port_carries hp.1 hp.2)).trans (State.barWrite_of_above h0 hk)))
  case read =>
    refine ⟨_, congrArg Host.Outcome.next
      ((if_neg (ne_true_of_eq_false hf)).trans (State.hostReadIn_of_here hp.1 hp.2 hi ho hb hh)), ?_, rfl⟩
    exact congrArg (·.hostReads ++ _) (State.mgmt_of_fixed (s.reachLines_fixed p _))
  case unsupported =>
    exact ⟨_, congrArg Host.Outcome.next
      ((if_neg (ne_true_of_eq_false hf)).trans (State.hostReadIn_of_unsupported hp.1 hp.2 hi)), rfl, rfl⟩
  case readWindow =>
    exact ⟨_, congrArg Host.Outcome.next
      ((if_pos hf).trans ((if_pos (State.port_carries hp.1 hp.2)).trans (State.barRead_of_above hk))), rfl, rfl⟩
  case atomic =>
    exact congrArg Host.Outcome.next ((congrArg (s.hostAtomicIn e.port p e.addr) he).trans
      (State.hostAtomicIn_of_here hp.1 hp.2 hi hc ha hh hs hb hw))
  case taken =>
    refine congrArg Host.Outcome.next ((State.ingressPoll_of_polled ⟨hr, he, ⟨hz, hy⟩, hs, ht⟩).trans ?_)
    exact (if_neg (not_not_intro hc)).trans (if_neg (by rw [hn]; exact Bool.false_ne_true))
  case bad =>
    rw [(State.ingressPoll_of_polled ⟨hr, he, ⟨hz, hy⟩, hs, ht⟩).trans (if_pos hc)]
    exact State.rings_ringFail _ p _ g _ w
  case cqcons =>
    refine ⟨?_, ?_, rfl⟩
    · rw [State.cqcons, State.pr_setPr_same]
      exact cqcons_field _ _
    · rw [State.cqcons, State.pr_setPr_same]
      exact cqcons_below _ _
end

section
/-! PROOF. Obligation O51: freezing, the reset, teams that move, redirected arrivals (R340, R350, R351, R365, R368, R369). -/
namespace Sys2Proof.Machine

/-! ## System registers -/

/-- The system registers of the module and of each partition. -/
def State.sysregs (s : State) : Table W64 × (Nat → Table W64) := (s.mregs, fun p => (s.part p).regs)

section
variable {s s' : State}

theorem State.sysregs_ext (hm : s'.mregs = s.mregs) (hp : ∀ p, (s'.part p).regs = (s.part p).regs) : s'.sysregs = s.sysregs :=
  Prod.ext hm (funext hp)
theorem State.mregs_of_sysregs (h : s'.sysregs = s.sysregs) : s'.mregs = s.mregs := congrArg Prod.fst h
theorem State.pr_of_sysregs (h : s'.sysregs = s.sysregs) (p k : Nat) : s'.pr p k = s.pr p k :=
  congrArg (Table.get · _ k) (congrFun (congrArg Prod.snd h) p)
theorem State.gtime_of_sysregs (h : s'.sysregs = s.sysregs) (p : Nat) : s'.gtime p = s.gtime p := by
  simp only [State.gtime, State.mr, State.mregs_of_sysregs h, State.pr_of_sysregs h]
theorem State.ctxBase_of_sysregs (h : s'.sysregs = s.sysregs) (t : Team) : s'.ctxBase t = s.ctxBase t := by
  simp only [State.ctxBase, State.preg, State.pr_of_sysregs h]
end

/-- A partition that changes and keeps its registers. -/
theorem State.sysregs_setPart (s : State) (p : Nat) {x : Partition} (h : x.regs = (s.part p).regs) :
    (s.setPart p x).sysregs = s.sysregs := by
  refine State.sysregs_ext rfl fun q => ?_
  by_cases hq : q = p
  · subst hq; rw [State.part_setPart_same, h]
  · rw [State.part_setPart_ne _ _ hq]

@[simp] theorem State.setTeam_sysregs (s : State) (t : Team) : (s.setTeam t).sysregs = s.sysregs := rfl
@[simp] theorem State.modTeam_sysregs (s : State) (k : TeamId) (f : Team → Team) : (s.modTeam k f).sysregs = s.sysregs := by
  unfold State.modTeam; split <;> rfl
theorem State.traceUni_parts (s : State) (t : Team) (sub : Nat) : (s.traceUni t sub).parts = s.parts := by
  unfold State.traceUni State.tracePacket; dsimp only; split <;> rfl
@[simp] theorem State.traceUni_sysregs (s : State) (t : Team) (sub : Nat) : (s.traceUni t sub).sysregs = s.sysregs := by
  have trace := State.tracePacket_counts s t t.r.pc ⟨3, sub, []⟩
  exact State.sysregs_ext trace.mregs fun p => by rw [State.part, State.traceUni_parts]; rfl
@[simp] theorem State.noteUndo_sysregs (s : State) (p pa : Nat) (b : Byte) : (s.noteUndo p pa b).sysregs = s.sysregs := by
  unfold State.noteUndo
  dsimp only
  split
  · exact s.sysregs_setPart p rfl
  · rfl
@[simp] theorem State.noteSafe_sysregs (s : State) (p pa : Nat) (b : Byte) : (s.noteSafe p pa b).sysregs = s.sysregs := by
  unfold State.noteSafe
  dsimp only
  split
  · rfl
  · exact s.sysregs_setPart p rfl
@[simp] theorem State.dropHere_sysregs (s : State) (pa : Nat) : (s.dropHere pa).sysregs = s.sysregs := by
  unfold State.dropHere; split <;> rfl
@[simp] theorem State.writePhys_sysregs (s : State) (pa : Nat) (l : List Byte) : (s.writePhys pa l).sysregs = s.sysregs := by
  induction l generalizing s pa with
  | nil => rfl
  | cons b l ih =>
    rw [State.writePhys, ih, State.dropHere_sysregs]
    exact s.noteSafe_sysregs _ pa b
@[simp] theorem State.storeByte_sysregs (s : State) (p pa : Nat) (b : Byte) : (s.storeByte p pa b).sysregs = s.sysregs := by
  rw [State.storeByte, State.dropHere_sysregs]
  exact (State.noteSafe_sysregs _ p pa b).trans (s.noteUndo_sysregs p pa b)

/-! ## Bytes that an engine writes to memory -/

@[simp] theorem State.storeByte_teams (s : State) (p pa : Nat) (b : Byte) : (s.storeByte p pa b).teams = s.teams := by
  rw [State.storeByte, State.dropHere_teams]
  refine (State.noteSafe_teams _ p pa b).trans ?_
  unfold State.noteUndo
  dsimp only
  split <;> rfl

/-- No team and no system register has changed from `s` to `s'`. -/
def State.SameTeams (s s' : State) : Prop := s'.teams = s.teams ∧ s'.sysregs = s.sysregs

theorem State.SameTeams.trans {a b c : State} (h : a.SameTeams b) (k : b.SameTeams c) : a.SameTeams c :=
  ⟨k.1.trans h.1, k.2.trans h.2⟩

theorem State.homeStores_sameTeams (s : State) (p : Nat) (l : List (Nat × Byte)) : s.SameTeams (s.homeStores p l) := by
  have one (s : State) (a : Nat) (b : Byte) : s.SameTeams (s.homeStore p a b) := by
    unfold State.homeStore
    dsimp only
    split
    · exact ⟨rfl, s.sysregs_setPart p rfl⟩
    · exact ⟨s.storeByte_teams .., s.storeByte_sysregs ..⟩
  induction l generalizing s with
  | nil => exact ⟨rfl, rfl⟩
  | cons x l ih => exact (one s x.1 x.2).trans (ih _)

theorem State.poisonGranules_sameTeams (s : State) (l : List Nat) : s.SameTeams (s.poisonGranules l) := by
  induction l generalizing s with
  | nil => exact ⟨rfl, rfl⟩
  | cons g l ih => exact State.SameTeams.trans ⟨rfl, rfl⟩ (ih _)

theorem State.dropPeerLines_sameTeams (s : State) (d : Nat) (l : List Nat) : s.SameTeams (s.dropPeerLines d l) := by
  unfold State.dropPeerLines
  dsimp only
  split <;> exact ⟨rfl, rfl⟩

theorem State.engineWrite_sameTeams (s : State) (t : Team) (l : List (Nat × Byte)) (bad : List Nat) :
    s.SameTeams (s.engineWrite t l bad) := by
  unfold State.engineWrite
  refine State.SameTeams.trans ?_ (State.poisonGranules_sameTeams _ _)
  refine State.SameTeams.trans ?_ (State.dropPeerLines_sameTeams _ _ _)
  exact State.SameTeams.trans ⟨rfl, rfl⟩ (State.homeStores_sameTeams _ _ _)

/-! ## What a tile leaves of its team -/

/-- A team but for what its engines change of it: scratch, rings, engines, counters. -/
def Team.still (t : Team) : Team := { t with
  scr := []
  scrWritten := []
  scrPoison := []
  touched := []
  touched0 := []
  rings := []
  engines := []
  wc := []
  wd := 0 }

theorem Team.still_fields {u t : Team} (h : u.still = t.still) :
    u.id = t.id ∧ u.stat = t.stat ∧ u.was = t.was ∧ u.migr = t.migr ∧ u.pend = t.pend ∧ u.r = t.r := by
  simp only [Team.still, Team.mk.injEq] at h
  simp only [h, and_self]

@[simp] theorem Team.scrPuts_still (t : Team) (off : Nat) (l : List Byte) : (t.scrPuts off l).still = t.still := by
  induction l generalizing t off with
  | nil => rfl
  | cons b l ih => exact ih (t.scrPut off b) (off + 1)
@[simp] theorem Team.engineArrive_still (t : Team) (off n : Nat) : (t.engineArrive off n).still = t.still :=
  t.scrPuts_still off _
@[simp] theorem Team.setRing_still (t : Team) (r : Ring) : (t.setRing r).still = t.still := Team.scrPuts_still _ _ _
@[simp] theorem Team.poisonAll_still (t : Team) (l : List Nat) : (t.poisonAll l).still = t.still := by
  induction l generalizing t with
  | nil => rfl
  | cons g l ih => exact ih (t.scrPoisonGr g)
@[simp] theorem Team.engineScratch_still (t : Team) (l : List (Nat × Byte)) (bad : List Nat) :
    (t.engineScratch l bad).still = t.still := by
  refine (Team.poisonAll_still _ _).trans ?_
  induction l generalizing t with
  | nil => rfl
  | cons x l ih => exact ih (t.scrPut x.1 x.2)
@[simp] theorem Team.setEngine_still (t : Team) (k : Nat) (e : Engine) : (t.setEngine k e).still = t.still := rfl
@[simp] theorem Team.subCnts_still (t : Team) (n : Nat) : (t.subCnts n).still = t.still := by
  obtain ⟨w, d, h⟩ := t.subCnts_same n
  rw [h]; rfl
@[simp] theorem Team.endRun_still (t : Team) (k : Nat) (e : Engine) : (t.endRun k e).still = t.still :=
  Team.subCnts_still _ _
@[simp] theorem Team.tileDone_still (t : Team) (k : Nat) : (t.tileDone k).still = t.still := by
  unfold Team.tileDone
  split
  · rfl
  · split
    · rfl
    · dsimp only
      split
      · exact t.endRun_still k _
      · exact t.setEngine_still k _
/-- Work of an epoch before the present one. -/
theorem Team.oldTouch_still {f : Team → Team} (hf : ∀ u, (f u).still = u.still) (e : Nat) (u : Team) :
    (oldTouch e f u).still = u.still := hf { u with touched := [] }

/-! ## The tiles in progress complete (R313) -/

/-- Since team `t` was set in state `s`, its engines alone have been at work. -/
structure State.TilesMoved (s : State) (t : Team) (s' : State) : Prop where
  sysregs : s'.sysregs = s.sysregs
  others : ∀ j, j ≠ t.id → s'.team? j = s.team? j
  team : ∃ u, s'.team? t.id = some u ∧ u.still = t.still

section
variable {s a b : State} {t : Team}

theorem State.tilesMoved_setTeam (s : State) (t : Team) : s.TilesMoved t (s.setTeam t) :=
  ⟨rfl, fun _ h => s.team?_setTeam_ne t h.symm, t, s.team?_setTeam_same t, rfl⟩

theorem State.TilesMoved.sameTeams (h : s.TilesMoved t a) (k : a.SameTeams b) : s.TilesMoved t b := by
  have team (j : TeamId) : b.team? j = a.team? j := by simp only [State.team?, k.1]
  exact ⟨k.2.trans h.sysregs, fun j hj => (team j).trans (h.others j hj), by rw [team]; exact h.team⟩

theorem State.TilesMoved.modTeam (h : s.TilesMoved t a) {f : Team → Team} (hf : ∀ u, (f u).still = u.still) :
    s.TilesMoved t (a.modTeam t.id f) := by
  obtain ⟨u, hu, hs⟩ := h.team
  have fid : (f u).id = t.id := (Team.still_fields ((hf u).trans hs)).1
  refine ⟨(a.modTeam_sysregs _ f).trans h.sysregs, fun j hj => ?_, f u, State.team?_modTeam_same f hu fid, (hf u).trans hs⟩
  rw [State.modTeam_some f hu, State.team?_setTeam_ne _ _ (by rw [fid]; exact hj.symm), h.others j hj]

theorem State.modCutTeam_sameTeams (s : State) (n p : Nat) (k : TeamId) (f : Team → Team) :
    s.SameTeams (s.modCutTeam n p k f) := ⟨rfl, s.sysregs_setPart p rfl⟩

theorem State.TilesMoved.modWork (h : s.TilesMoved t a) (p : Nat) {f : Team → Team} (hf : ∀ u, (f u).still = u.still) :
    s.TilesMoved t (a.modWork p t.id f) := by
  unfold State.modWork
  split
  · exact h.modTeam hf
  · exact (h.modTeam (Team.oldTouch_still hf _)).sameTeams (State.modCutTeam_sameTeams ..)

theorem State.TilesMoved.arriveAdd (h : s.TilesMoved t a) (off n : Nat) : s.TilesMoved t (a.arriveAdd t.id off n) := by
  unfold State.arriveAdd
  split
  · exact h
  · next u _ =>
    split
    · refine h.sameTeams (State.SameTeams.trans ?_ (State.modCutTeam_sameTeams ..))
      exact ⟨rfl, a.sysregs_setPart u.part rfl⟩
    · exact h.modWork u.part fun v => v.engineArrive_still off n

theorem State.TilesMoved.landFlight (h : s.TilesMoved t a) {u : Team} (hu : u.id = t.id) (f : Flight) (is : List Nat) :
    s.TilesMoved t (a.landFlight u f is).1 := by
  unfold State.landFlight
  dsimp only
  split
  · rw [hu]; exact h.modWork _ fun v => v.engineScratch_still _ _
  · exact h.sameTeams (a.engineWrite_sameTeams u _ _)

theorem State.TilesMoved.moveTile (h : s.TilesMoved t a) {u : Team} (hu : u.id = t.id) (r : Run) (f : Flight) :
    s.TilesMoved t (a.moveTile u r f) := by
  have landed : s.TilesMoved t (a.endFlight u f).1 := h.landFlight hu _ _
  unfold State.moveTile
  rw [hu]
  dsimp only
  have ringed {b : State} (hb : s.TilesMoved t b) : s.TilesMoved t (if Lay.rng r.words then b.modWork u.part t.id fun v =>
      match v.ring? (Lay.ring r.words) with
      | some q => v.setRing (if Lay.drain r.words then { q with head := q.head + 1 } else { q with tail := q.tail + 1 })
      | none => v else b) := by
    split
    · refine hb.modWork u.part fun v => ?_
      split
      · exact v.setRing_still _
      · rfl
    · exact hb
  split
  · exact (ringed landed).arriveAdd _ _
  · exact ringed landed

theorem State.TilesMoved.drainEngine (h : s.TilesMoved t a) (k : Nat) : s.TilesMoved t (a.drainEngine t.id k) := by
  obtain ⟨u, hu, hs⟩ := h.team
  have uid : u.id = t.id := (Team.still_fields hs).1
  unfold State.drainEngine
  simp only [hu]
  split
  · exact h
  · next e _ =>
    split
    · next r f _ _ _ =>
      have old : s.TilesMoved t { a with back := a.oldTile u k 0 e } := h.sameTeams ⟨rfl, rfl⟩
      have done : s.TilesMoved t (a.asOld (a.oldTile u k 0 e) fun q => q.finishTile u k r f) := by
        refine State.TilesMoved.sameTeams (a := State.finishTile _ u k r f) ?_ ⟨rfl, rfl⟩
        unfold State.finishTile
        rw [uid]
        exact (old.moveTile uid r f).modWork u.part fun v => v.tileDone_still k
      refine done.modTeam fun v => ?_
      split
      · exact v.setEngine_still k _
      · rfl
    · exact h

/-- Draining a team leaves the others, and of the team what its engines do not change. -/
theorem State.drainTiles_moved (s : State) (t : Team) : s.TilesMoved t (s.drainTiles t).1 ∧
    (s.drainTiles t).1.team? t.id = some (s.drainTiles t).2 ∧ (s.drainTiles t).2.still = t.still := by
  have moved : s.TilesMoved t (s.drainTiles t).1 :=
    List.foldlRecOn (motive := s.TilesMoved t) _ _ (s.tilesMoved_setTeam t) fun _ h k _ => h.drainEngine k
  obtain ⟨u, hu, hs⟩ := moved.team
  have drained : (s.drainTiles t).2 = u := congrArg (Option.getD · t) hu
  rw [drained]
  exact ⟨moved, hu, hs⟩

/-- Engines without a tile in flight have nothing to complete. -/
theorem State.drainTiles_of_empty (h : ∀ e ∈ t.engines, e.fly = []) : s.drainTiles t = (s.setTeam t, t) := by
  have engine (k : Nat) : (s.setTeam t).drainEngine t.id k = s.setTeam t := by
    unfold State.drainEngine
    simp only [State.team?_setTeam_same, Team.engine]
    split
    · rfl
    · next e he =>
      rw [h e (List.mem_of_getElem? he)]
      split
      · next heq => cases heq
      · rfl
  unfold State.drainTiles
  have all : (List.range t.engines.length).foldl (fun s k => s.drainEngine t.id k) (s.setTeam t) = s.setTeam t :=
    List.foldlRecOn (motive := (· = s.setTeam t)) _ _ rfl fun q hq k _ => by rw [hq, engine]
  rw [all]
  simp only [State.team?_setTeam_same, Option.getD_some]
end

/-! ## Granules that are saved (R242) -/

/-- The granule of a register entry goes to its place in the save area at `base`. -/
def State.saveEntry (base : Nat) (s : State) (x : Nat × VEnt) : State :=
  match x.2 with
  | .mapped g => s.writePhys (base + 128 * x.1) (leBytes 128 g.toNat)
  | _ => s

theorem State.saveGranules_state (s : State) (t : Team) :
    (s.saveGranules t).1 = t.r.v.foldl (State.saveEntry (s.ctxBase t + 0x1_0000)) s := rfl

theorem State.saveEntry_sameTeams (base : Nat) (s : State) (x : Nat × VEnt) : s.SameTeams (s.saveEntry base x) := by
  unfold State.saveEntry
  split
  · exact ⟨State.writePhys_teams _ _ _, State.writePhys_sysregs _ _ _⟩
  · exact ⟨rfl, rfl⟩

theorem State.saveGranules_sameTeams (s : State) (t : Team) : s.SameTeams (s.saveGranules t).1 := by
  rw [State.saveGranules_state]
  exact ⟨foldl_keeps State.teams (fun s x => (s.saveEntry_sameTeams _ x).1) _ s,
    foldl_keeps State.sysregs (fun s x => (s.saveEntry_sameTeams _ x).2) _ s⟩

theorem length_leBytes (n x : Nat) : (leBytes n x).length = n := by
  induction n generalizing x with
  | zero => rfl
  | succ n ih => rw [leBytes, List.length_cons, ih]

theorem getElem?_leBytes {n i : Nat} (h : i < n) (x : Nat) : (leBytes n x)[i]? = some (BitVec.ofNat 8 (x / 256 ^ i)) := by
  induction n generalizing x i with
  | zero => omega
  | succ n ih =>
    cases i with
    | zero => simp [leBytes]
    | succ i => rw [leBytes, List.getElem?_cons_succ, ih (by omega), Nat.div_div_eq_div_mul, Nat.pow_succ']

/-- Byte `i` of a granule. -/
theorem granule_byte (g : BitVec 1024) {i : Nat} (h : i < 128) : (leBytes 128 g.toNat)[i]? = some (g.extractLsb' (8 * i) 8) := by
  rw [getElem?_leBytes h]
  refine congrArg some (BitVec.eq_of_toNat_eq ?_)
  rw [BitVec.toNat_ofNat, BitVec.extractLsb'_toNat, Nat.shiftRight_eq_div_pow, Nat.pow_mul]

/-- A byte that the device has written stands in memory. -/
theorem State.memByte_writePhys_same (s : State) (pa : Nat) {l : List Byte} (hn : ∀ i < l.length, s.norm (pa + i) = pa + i)
    {i : Nat} {b : Byte} (hi : l[i]? = some b) : (s.writePhys pa l).memByte (pa + i) = b := by
  induction l generalizing s pa i with
  | nil => cases hi
  | cons c l ih =>
    obtain ⟨s1, written, mem, regs⟩ := s.writePhys_cons pa c l
    have norm (a : Nat) : s1.norm a = s.norm a := State.norm_congr regs a
    have later (j : Nat) (hj : j < l.length) : s1.norm (pa + 1 + j) = pa + 1 + j := by
      rw [norm, Nat.add_assoc, Nat.add_comm 1 j]
      exact hn (j + 1) (by simpa using hj)
    rw [written]
    cases i with
    | zero =>
      have first : s.norm pa = pa := hn 0 (by simp)
      obtain rfl : c = b := by simpa using hi
      rw [State.memByte_writePhys_ne]
      · rw [Nat.add_zero, State.memByte, norm, mem]
        exact Table.get_set_same _ _ _ _
      · intro j hj
        rw [later j hj, norm, Nat.add_zero, first]
        omega
    | succ i =>
      rw [← Nat.add_assoc, Nat.add_right_comm]
      exact ih s1 (pa + 1) later (by simpa using hi)

section
variable {s : State} {base : Nat}

/-- Saving an entry leaves the places of the others. -/
theorem State.memByte_saveEntry_ne {x : Nat × VEnt} {k i : Nat} (hk : k ≠ x.1) (hi : i < 128)
    (hn : s.norm (base + 128 * k + i) = base + 128 * k + i)
    (hx : ∀ j < 128, s.norm (base + 128 * x.1 + j) = base + 128 * x.1 + j) :
    (s.saveEntry base x).memByte (base + 128 * k + i) = s.memByte (base + 128 * k + i) := by
  unfold State.saveEntry
  split
  · refine State.memByte_writePhys_ne _ _ _ fun j hj => ?_
    rw [length_leBytes] at hj
    rw [hn, hx j hj]
    omega
  · rfl

theorem State.norm_saveEntry (s : State) (x : Nat × VEnt) (a : Nat) : (s.saveEntry base x).norm a = s.norm a :=
  State.norm_congr (State.mregs_of_sysregs (s.saveEntry_sameTeams base x).2) a

theorem State.memByte_saveEntries_ne {v : Table VEnt} {k i : Nat} (hk : k ∉ v.map (·.1)) (hi : i < 128)
    (hn : s.norm (base + 128 * k + i) = base + 128 * k + i)
    (hv : ∀ x ∈ v, ∀ j < 128, s.norm (base + 128 * x.1 + j) = base + 128 * x.1 + j) :
    (v.foldl (State.saveEntry base) s).memByte (base + 128 * k + i) = s.memByte (base + 128 * k + i) := by
  induction v generalizing s with
  | nil => rfl
  | cons x v ih =>
    obtain ⟨other, hk⟩ := not_or.1 (fun h => hk (List.mem_cons.2 h))
    rw [List.foldl_cons, ih hk]
    · exact State.memByte_saveEntry_ne other hi hn (hv x List.mem_cons_self)
    · rw [State.norm_saveEntry, hn]
    · intro y hy j hj
      rw [State.norm_saveEntry]
      exact hv y (List.mem_cons_of_mem _ hy) j hj

/-- Once the entries of `v` are saved, each granule stands in its own place. -/
theorem State.memByte_saveEntries {v : Table VEnt} (hk : (v.map (·.1)).Nodup)
    (hv : ∀ x ∈ v, ∀ j < 128, s.norm (base + 128 * x.1 + j) = base + 128 * x.1 + j) {k : Nat} {g : BitVec 1024}
    (hg : (k, VEnt.mapped g) ∈ v) {i : Nat} (hi : i < 128) :
    (v.foldl (State.saveEntry base) s).memByte (base + 128 * k + i) = g.extractLsb' (8 * i) 8 := by
  induction v generalizing s with
  | nil => cases hg
  | cons x v ih =>
    obtain ⟨fresh, hk⟩ := List.nodup_cons.1 hk
    have rest : ∀ y ∈ v, ∀ j < 128, (s.saveEntry base x).norm (base + 128 * y.1 + j) = base + 128 * y.1 + j := by
      intro y hy j hj
      rw [State.norm_saveEntry]
      exact hv y (List.mem_cons_of_mem _ hy) j hj
    rw [List.foldl_cons]
    obtain rfl | hg := List.mem_cons.1 hg
    · have own := hv _ List.mem_cons_self
      rw [State.memByte_saveEntries_ne fresh hi (by rw [State.norm_saveEntry]; exact own i hi) rest]
      exact s.memByte_writePhys_same _ (by rw [length_leBytes]; exact own) (granule_byte g hi)
    · exact ih hk rest hg
end

/-! ## Save points (R350) -/

theorem Team.uncount_same (t : Team) (l : List Pending) : ∃ w g, t.uncount l = { t with wc := w, tg := g } := by
  induction l generalizing t with
  | nil => exact ⟨t.wc, t.tg, rfl⟩
  | cons p l ih =>
    obtain ⟨w, g, h⟩ : ∃ w g, t.uncount (p :: l) = ({ t with wc := w, tg := g } : Team).uncount l := by
      simp only [Team.uncount]
      cases p.performed <;> cases p.ctr <;> cases p.kind <;> exact ⟨_, _, rfl⟩
    obtain ⟨w', g', h'⟩ := ih { t with wc := w, tg := g }
    exact ⟨w', g', by rw [h, h']⟩

/-- At its save point a team is the one it was, and saved only if it was saved. -/
theorem State.toSavePoint_team (s : State) (t : Team) :
    (s.toSavePoint t).2.id = t.id ∧ ((s.toSavePoint t).2.stat = .saved → t.stat = .saved) := by
  unfold State.toSavePoint
  dsimp only
  split
  · next p _ =>
    obtain ⟨w, g, h⟩ := t.uncount_same (t.pend.filter fun q => decide (p.num ≤ q.num))
    simp only [State.cancelFrom, h, true_and]
    intro hs
    split at hs
    · cases hs
    · exact hs
  · exact ⟨rfl, id⟩

theorem State.toSavePoint_sysregs (s : State) (t : Team) : (s.toSavePoint t).1.sysregs = s.sysregs := by
  unfold State.toSavePoint
  dsimp only
  split <;> rfl

theorem State.toSavePoints_sysregs (s : State) (p : Nat) : (s.toSavePoints p).sysregs = s.sysregs := by
  refine foldl_keeps State.sysregs (fun s x => ?_) s.teams s
  dsimp only
  split
  · exact s.toSavePoint_sysregs x.2
  · rfl

/-! ## Teams saved, and left on their slots (R242, R351, R369) -/

theorem Team.landWhere_same (t : Team) (f : Pending → Bool) :
    ∃ r ps os, t.landWhere f = { t with r := r, pend := ps, olds := os } := by
  have all (l : List Pending) (t : Team) : ∃ r ps os, t.landAll l = { t with r := r, pend := ps, olds := os } := by
    induction l generalizing t with
    | nil => exact ⟨t.r, t.pend, t.olds, rfl⟩
    | cons p l ih =>
      obtain ⟨os, h⟩ : ∃ os, t.displace p.num p.keys = { t with olds := os } := by
        unfold Team.displace
        split
        · exact ⟨_, rfl⟩
        · exact ⟨t.olds, rfl⟩
      obtain ⟨r', ps', os', h'⟩ := ih (t.landOne p)
      exact ⟨r', ps', os', by rw [Team.landAll, h', Team.landOne, h]⟩
  obtain ⟨r, ps, os, h⟩ := all (t.pend.filter fun p => p.performed && f p) t
  exact ⟨r, _, os, by rw [Team.landWhere, h]⟩

/-- A team whose results have landed and whose granules are saved. -/
def Team.savedOff (t : Team) : Team :=
  (t.landWhere fun _ => true).offSlot ((t.landWhere fun _ => true).r.v.map fun x => (x.1, x.2.saved))

theorem Team.savedOff_fields (t : Team) :
    t.savedOff.id = t.id ∧ t.savedOff.stat = t.stat ∧ t.savedOff.was = t.was ∧ t.savedOff.migr = t.migr := by
  obtain ⟨r, ps, os, h⟩ := t.landWhere_same fun _ => true
  rw [Team.savedOff, h]
  exact ⟨rfl, rfl, rfl, rfl⟩

/-- With nothing unperformed it keeps its PC and scalars, and every entry with a granule is absent. -/
theorem Team.savedOff_regs {t : Team} (hp : t.pend = []) : t.savedOff.r.pc = t.r.pc ∧ t.savedOff.r.s = t.r.s ∧
    ∀ k g, t.savedOff.r.entry k g = .absent ↔ t.r.entry k g ≠ .none := by
  rw [Team.savedOff, Team.landWhere_of_pend_nil hp]
  exact ⟨rfl, rfl, t.r.entry_saved_iff⟩

/-- A team that goes off its core is saved, as what it was. -/
theorem State.parkTeam_team (s : State) (t : Team) : ∃ v, (s.parkTeam t).team? t.id = some v ∧ v.stat = .saved ∧
    v.migr = t.migr ∧ v.was = (if t.stat = .saved then t.was else t.stat) ∧
    (t.pend = [] → v.r.pc = t.r.pc ∧ v.r.s = t.r.s) := by
  obtain ⟨-, -, still⟩ := s.drainTiles_moved t
  obtain ⟨id, stat, was, migr, pend, r⟩ := Team.still_fields still
  let w := (s.drainTiles t).2
  obtain ⟨id', stat', was', migr'⟩ := w.savedOff_fields
  let v : Team := { w.savedOff with
    was := if w.savedOff.stat = .saved then w.savedOff.was else w.savedOff.stat
    stat := .saved }
  have parked : ∃ q : State, s.parkTeam t = q.setTeam v := by
    unfold State.parkTeam State.saveTeam
    dsimp only
    rw [State.saveGranules_team]
    exact ⟨_, rfl⟩
  obtain ⟨q, hq⟩ := parked
  have vid : v.id = t.id := id'.trans id
  refine ⟨v, by rw [hq, ← vid, State.team?_setTeam_same], rfl, migr'.trans migr, ?_, fun hp => ?_⟩
  · show (if w.savedOff.stat = .saved then w.savedOff.was else w.savedOff.stat) = _
    rw [stat', was', stat, was]
  · obtain ⟨pc, scal, -⟩ := Team.savedOff_regs (pend.trans hp)
    exact ⟨pc.trans (congrArg Regs.pc r), scal.trans (congrArg Regs.s r)⟩

/-- Team `t` at rest on its slot: its tiles complete, its granules in the save area. -/
def State.restInPlace (s : State) (t : Team) : State :=
  let d := (s.traceUni t 3).drainTiles t
  (d.1.saveGranules (d.2.landWhere fun _ => true)).1.setTeam d.2.savedOff

theorem State.freezeTeam_of_running {s : State} {t : Team} (h : t.stat = .running) : s.freezeTeam t = s.restInPlace t := by
  simp only [State.freezeTeam, h, State.restInPlace, Team.savedOff, State.saveGranules_team]

theorem State.freezeTeam_cases (s : State) (t : Team) : s.freezeTeam t = s ∨ s.freezeTeam t = s.restInPlace t := by
  unfold State.freezeTeam
  split
  · exact .inl rfl
  · exact .inl rfl
  · right
    simp only [State.restInPlace, Team.savedOff, State.saveGranules_team]

/-- A team that comes to rest on its slot changes no system register and no other team. -/
theorem State.restInPlace_others (s : State) (t : Team) : (s.restInPlace t).sysregs = s.sysregs ∧
    ∀ j, j ≠ t.id → (s.restInPlace t).team? j = s.team? j := by
  have trace := State.tracePacket_counts s t t.r.pc ⟨3, 3, []⟩
  obtain ⟨moved, -, still⟩ := (s.traceUni t 3).drainTiles_moved t
  obtain ⟨teams, regs⟩ := State.saveGranules_sameTeams ((s.traceUni t 3).drainTiles t).1
    (((s.traceUni t 3).drainTiles t).2.landWhere fun _ => true)
  have id : ((s.traceUni t 3).drainTiles t).2.savedOff.id = t.id :=
    (Team.savedOff_fields _).1.trans (Team.still_fields still).1
  refine ⟨regs.trans (moved.sysregs.trans (s.traceUni_sysregs t 3)), fun j hj => ?_⟩
  rw [State.restInPlace, State.team?_setTeam_ne _ _ (by rw [id]; exact hj.symm), State.team?, teams]
  refine (moved.others j hj).trans ?_
  simp only [State.team?, State.traceUni, trace.teams]

theorem State.freezeTeam_others (s : State) (t : Team) : (s.freezeTeam t).sysregs = s.sysregs ∧
    ∀ j, j ≠ t.id → (s.freezeTeam t).team? j = s.team? j := by
  obtain h | h := s.freezeTeam_cases t
  · rw [h]; exact ⟨rfl, fun _ _ => rfl⟩
  · rw [h]; exact s.restInPlace_others t

/-- In state `s` team `t` stays on its slot where it stood, and its granules are saved. -/
def State.Rests (s : State) (t : Team) : Prop :=
  ∃ v, s.team? t.id = some v ∧ v.stat = .running ∧ v.r.pc = t.r.pc ∧ v.r.s = t.r.s ∧
    ∀ k g, v.r.entry k g = .absent ↔ t.r.entry k g ≠ .none

theorem State.rests_freezeTeam (s : State) {t : Team} (hs : t.stat = .running) (hp : t.pend = []) :
    (s.freezeTeam t).Rests t := by
  rw [State.freezeTeam_of_running hs]
  obtain ⟨-, -, still⟩ := (s.traceUni t 3).drainTiles_moved t
  obtain ⟨id, stat, -, -, pend, r⟩ := Team.still_fields still
  obtain ⟨id', stat', -, -⟩ := ((s.traceUni t 3).drainTiles t).2.savedOff_fields
  have regs := Team.savedOff_regs (pend.trans hp)
  rw [r] at regs
  exact ⟨_, by rw [← id, ← id']; exact State.team?_setTeam_same _ _, stat'.trans (stat.trans hs), regs⟩

/-! ## The freeze (R368, R369) -/

/-- Each team of partition `p` comes to rest. -/
def State.freezeTeams (s : State) (p : Nat) : State :=
  s.teams.foldl (fun s (x : Nat × Team) => if x.2.part == p then s.freezeTeam x.2 else s) s

/-- Partition `p` is frozen, its time and losses as they stand. -/
def State.setFrozen (s : State) (p : Nat) : State :=
  (s.modPart p fun x => { x with
    freezing := false
    frozen := true
    gtFrz := s.gtime p
    lostFrz := s.pr p 0x150 }).refresh p

section
variable {s : State} {p : Nat} {t : Team}

theorem State.freezeComplete_of_atRest (hf : (s.part p).freezing = true)
    (hr : ((s.toSavePoints p).teams.all fun (_, x) => x.part != p || x.stat == .saved || (s.toSavePoints p).atRest x) = true) :
    s.freezeComplete p = ((s.toSavePoints p).freezeTeams p).setFrozen p := by
  unfold State.freezeComplete
  rw [if_neg (by simp [hf])]
  exact if_pos hr

theorem State.freezeTeams_sysregs (s : State) (p : Nat) : (s.freezeTeams p).sysregs = s.sysregs := by
  refine foldl_keeps State.sysregs (fun s x => ?_) s.teams s
  split
  · exact (s.freezeTeam_others x.2).1
  · rfl

theorem State.part_setFrozen (s : State) (p : Nat) : ((s.setFrozen p).part p).frozen = true ∧
    ((s.setFrozen p).part p).freezing = false ∧ ((s.setFrozen p).part p).gtFrz = s.gtime p := by
  simp only [State.setFrozen, State.refresh, State.part_modPart_same, and_self]

theorem Table.mem_of_get? {α : Type} {l : Table α} {k : Nat} {x : α} (h : l.get? k = some x) : (k, x) ∈ l := by
  induction l with
  | nil => cases h
  | cons y l ih =>
    obtain ⟨a, z⟩ := y
    by_cases ha : a = k
    · obtain rfl : z = x := by simpa [Table.get?, ha] using h
      exact ha ▸ List.mem_cons_self
    · exact List.mem_cons_of_mem _ (ih (by simpa [Table.get?, ha] using h))

/-- A team that runs with nothing unperformed rests once its partition's teams do: no other team of the table is under its
number. -/
theorem State.rests_freezeTeams (hw : ∀ x ∈ s.teams, s.team? x.2.id = some x.2) (ht : s.team? t.id = some t) (hp : t.part = p)
    (hs : t.stat = .running) (hn : t.pend = []) : (s.freezeTeams p).Rests t := by
  obtain ⟨l, r, teams⟩ := List.append_of_mem (Table.mem_of_get? ht)
  have same (x : Nat × Team) (hx : x ∈ r) (hid : x.2.id = t.id) : x.2 = t := by
    have own := hw x (by rw [teams]; simp [hx])
    rw [hid, ht] at own
    exact (Option.some.inj own).symm
  rw [State.freezeTeams, teams, List.foldl_append, List.foldl_cons]
  refine List.foldlRecOn (motive := fun q => State.Rests q t) r _ ?_ fun q hq x hx => ?_
  · rw [if_pos (by simp [hp])]
    exact State.rests_freezeTeam _ hs hn
  · split
    · by_cases hid : x.2.id = t.id
      · rw [same x hx hid]
        exact q.rests_freezeTeam hs hn
      · obtain ⟨v, hv, stands⟩ := hq
        exact ⟨v, ((q.freezeTeam_others x.2).2 t.id (Ne.symm hid)).trans hv, stands⟩
    · exact hq

/-- The granules of a partition's only team stand in its save area. -/
theorem State.memByte_freezeTeams (ht : s.teams = [(t.id.toNat, t)]) (hp : t.part = p) (hs : t.stat = .running)
    (hn : t.pend = []) (hf : ∀ e ∈ t.engines, e.fly = []) (hv : (t.r.v.map (·.1)).Nodup)
    (ha : ∀ x ∈ t.r.v, ∀ i < 128, s.norm (s.ctxBase t + 0x1_0000 + 128 * x.1 + i) = s.ctxBase t + 0x1_0000 + 128 * x.1 + i)
    {k : Nat} {g : BitVec 1024} (hg : (k, VEnt.mapped g) ∈ t.r.v) {i : Nat} (hi : i < 128) :
    (s.freezeTeams p).memByte (s.ctxBase t + 0x1_0000 + 128 * k + i) = g.extractLsb' (8 * i) 8 := by
  have frozen : s.freezeTeams p = s.restInPlace t := by
    rw [State.freezeTeams, ht, List.foldl_cons, List.foldl_nil, if_pos (by simp [hp]), State.freezeTeam_of_running hs]
  let q := (s.traceUni t 3).setTeam t
  have regs : q.sysregs = s.sysregs := s.traceUni_sysregs t 3
  have base := State.ctxBase_of_sysregs regs t
  have rests : s.restInPlace t = (q.saveGranules t).1.setTeam t.savedOff := by
    simp only [State.restInPlace, State.drainTiles_of_empty hf, Team.landWhere_of_pend_nil hn]
    rfl
  rw [frozen, rests, ← base]
  show (q.saveGranules t).1.memByte _ = _
  rw [State.saveGranules_state]
  refine State.memByte_saveEntries hv (fun x hx j hj => ?_) hg hi
  rw [base, State.norm_congr (State.mregs_of_sysregs regs)]
  exact ha x hx j hj
end

/-! ## The reset (R368) -/

/-- What stands once the frozen partition `p` of state `s` is cleared. -/
structure State.Cleared (s : State) (p : Nat) (u : State) : Prop where
  teams : (u.teams.all fun (_, t) => t.part != p) = true
  graphs : (u.part p).graphs = []
  leases : (u.part p).leases = []
  regions : (u.part p).regions = []
  flying : (u.part p).flying = []
  cuts : (u.part p).cuts = []
  egress : (u.part p).egress = []
  rings : (u.part p).rings = (s.part p).rings
  lost : u.pr p 0x150 = 0
  cleared : (u.part p).cleared = true
  reset : (u.part p).resetReq = false

/-- The last packets of partition `p`'s teams are sent, and the entries of its regions written. -/
def State.clearNoted (s : State) (p : Nat) : State :=
  let s := s.teams.foldl (fun s (_, t) => if t.part == p && t.stat != .saved then s.traceUni t 2 else s) s
  (s.part p).regions.foldl (fun s (r, _) => (s.noteRegion p r false).dropVersions p r fun _ _ => true) s

theorem State.clearNoted_offSafe (s : State) (p q : Nat) : (s.clearNoted p).offSafe q = s.offSafe q := by
  unfold State.clearNoted
  refine (foldl_keeps (State.offSafe · q) (fun s x => ?_) _ _).trans (foldl_keeps (State.offSafe · q) (fun s x => ?_) _ s)
  · show (s.noteRegion p x.1 false).offSafe q = s.offSafe q
    unfold State.noteRegion
    dsimp only
    split
    · rfl
    · exact s.writeVirt_offSafe p _ _ q
  · obtain ⟨k, t⟩ := x
    dsimp only
    split
    · rw [State.offSafe, State.part, State.traceUni_parts]; rfl
    · rfl

theorem State.rings_of_offSafe {s s' : State} {q : Nat} (h : s'.offSafe q = s.offSafe q) :
    (s'.part q).rings = (s.part q).rings := by
  simp only [State.offSafe, Partition.offSafe, Partition.mk.injEq] at h
  simp only [h]

theorem State.rings_capture (s : State) (p : Nat) : ((s.capture p).part p).rings = (s.part p).rings := by
  unfold State.capture
  dsimp only
  rw [State.part_modPart_same]
  dsimp only
  split
  · rfl
  · rw [State.rings_of_offSafe (s.writePhys_offSafe _ _ p)]

/-- The work of partition `p` is off the units, its teams and wait places gone; its own entries stand. -/
def State.swept (s : State) (p : Nat) : State :=
  (State.scrubUnits { (s.clearNoted p).dropWork p with
    teams := ((s.clearNoted p).dropWork p).teams.filter fun (_, t) => t.part != p } p).clearFilters
/-- Its entries are cleared, and LOSTREC. -/
def State.emptied (s : State) (p : Nat) : State := ((s.swept p).setPart p ((s.swept p).part p).cleared').setPr p 0x150 0

theorem State.clearPart_eq (s : State) (p : Nat) : s.clearPart p = (s.emptied p).modPart p fun x => { x with
    committed := if (s.emptied p).turned p then some ((s.emptied p).snapOf p x.epoch (s.emptied p).now false false) else none } :=
  rfl

theorem State.rings_swept (s : State) (p : Nat) : ((s.swept p).part p).rings = (s.part p).rings :=
  State.rings_of_offSafe (s.clearNoted_offSafe p p)

theorem State.teams_swept (s : State) (p : Nat) :
    (s.swept p).teams = ((s.clearNoted p).dropWork p).teams.filter fun (_, t) => t.part != p := rfl

theorem Partition.rings_cleared' (x : Partition) : x.cleared'.rings = x.rings := rfl

theorem State.partitionClear_cleared {s : State} {p : Nat} (hf : (s.part p).frozen = true) (hr : (s.part p).resetReq = true) :
    s.Cleared p (s.partitionClear p) := by
  have clears : s.partitionClear p = ((s.capture p).clearPart p).modPart p fun y => { y with cleared := true } :=
    if_pos (by rw [hf, hr]; rfl)
  let x := (((s.capture p).swept p).part p).cleared'
  obtain ⟨m, part⟩ : ∃ m, (s.partitionClear p).part p = { x with
      regs := x.regs.set (sysReset 0x150) 0x150 0
      committed := m
      cleared := true } := by
    rw [clears, State.clearPart_eq]
    simp only [State.emptied, State.setPr, State.part_modPart_same, State.part_setPart_same]
    exact ⟨_, rfl⟩
  have teams : (s.partitionClear p).teams = ((s.capture p).swept p).teams := by rw [clears]; rfl
  have lost : (s.partitionClear p).pr p 0x150 = 0 := by
    rw [State.pr, part]
    exact Table.get_set_same x.regs (sysReset 0x150) 0x150 0
  have rings : x.rings = (s.part p).rings := by
    rw [Partition.rings_cleared', State.rings_swept, State.rings_capture]
  exact {
    teams := by
      rw [teams, State.teams_swept]
      exact List.all_eq_true.2 fun y hy => (List.mem_filter.1 hy).2
    graphs := congrArg Partition.graphs part
    leases := congrArg Partition.leases part
    regions := congrArg Partition.regions part
    flying := congrArg Partition.flying part
    cuts := congrArg Partition.cuts part
    egress := congrArg Partition.egress part
    rings := (congrArg Partition.rings part).trans rings
    lost := lost
    cleared := congrArg Partition.cleared part
    reset := congrArg Partition.resetReq part }

/-! ## Teams that move (R340, R350, R351) -/

section
variable {s s1 : State} {t t1 : Team} {id : TeamId}

/-- A team on a core that leaves is brought to its save point and marked; at rest and fenced, it goes off the core. -/
theorem State.teamMigrate_of_resting (ht : s.team? id = some t) (hs : t.stat ≠ .saved) (hl : s.coreLeaves t = true)
    (hp : s.toSavePoint t = (s1, t1)) (hr : s1.atRest { t1 with migr := true } = true)
    (hw : s1.fenced { t1 with migr := true } = true) :
    ∃ q : State, s.teamMigrate id = q.parkTeam { t1 with migr := true } := by
  simp only [State.teamMigrate, ht, hs, hl, hp, hr, hw, Bool.not_true, Bool.false_eq_true, or_self, if_false, Bool.and_self,
    if_true]
  exact ⟨_, rfl⟩
theorem State.teamMigrate_of_busy (ht : s.team? id = some t) (hs : t.stat ≠ .saved) (hl : s.coreLeaves t = true)
    (hp : s.toSavePoint t = (s1, t1))
    (hn : s1.atRest { t1 with migr := true } = false ∨ s1.fenced { t1 with migr := true } = false) :
    s.teamMigrate id = s1.setTeam { t1 with migr := true } := by
  have busy := Bool.and_eq_false_iff.2 hn
  simp only [State.teamMigrate, ht, hs, hl, hp, busy, Bool.not_true, Bool.false_eq_true, or_self, if_false]

/-- A team in front of its PC with no fill and no join due: arriving there changes nothing of it. -/
def Team.Standing (t : Team) : Prop :=
  t.pcSet = false ∧ (t.r.cl.isSome = true ∨ t.r.blocks = 0 ∧ ∀ e ∈ t.r.stack.head?, e.rc ≠ t.r.pc)

theorem State.refill_of_no_block (s : State) (h : t.r.blocks = 0) : s.refill t = (t, false) := by
  have wet : t.slotDry = false := by simp [Team.slotDry, h]
  simp [State.refill, State.fill, wet]

theorem State.arrive_of_no_join (s : State) (hc : t.r.cl = none) (hb : t.r.blocks = 0)
    (hj : ∀ e ∈ t.r.stack.head?, e.rc ≠ t.r.pc) : s.arrive t t.r.pc = s.setTeam t := by
  have here : t.at t.r.pc = t := by rw [Team.at, ← hc]
  have arrived : s.arriveFrom t t.r.pc t.steps = (s, t, false) := by
    simp only [Team.steps, State.arriveFrom, s.refill_of_no_block hb, here]
    split
    · rfl
    · next e rest hs =>
      rw [if_neg (hj e (by simp [hs]))]
  simp only [State.arrive, arrived]

/-- A team that is back on its slot is the one that was put there. -/
theorem State.team?_goesOn (s : State) (h : t.stat = .running → t.Standing) : (s.goesOn t).team? t.id = some t := by
  unfold State.goesOn
  split
  · exact s.team?_setTeam_same t
  · next hs =>
    obtain ⟨pc, clause⟩ := h hs
    unfold State.backOnSlot
    rw [if_neg (by simp [pc])]
    split
    · next hc =>
      have none_ : t.r.cl = none := Option.isNone_iff_eq_none.1 hc
      obtain hcl | ⟨hb, hj⟩ := clause
      · simp [none_] at hcl
      · rw [State.arrive_of_no_join _ none_ hb hj, State.team?_setTeam_same]
    · exact State.team?_setTeam_same _ t
  · exact State.team?_setTeam_same _ t

/-- The saved team on place `k` of core `c`, with engines and rings of the new mapping. -/
def Team.placedAt (t : Team) (c k : Nat) (engs rings : List Nat) : Team := { t.remap engs rings with
  core := c
  slot := k
  stat := t.was
  migr := false
  wd := 0 }

theorem State.teamRestore_of_place {c k : Nat} (ht : s.team? id = some t) (hr : s.mayRestore t = true)
    (hc : s.ruleTwo (t.need s) (s.candidates t.part none) = some (c, k)) :
    ∃ (q : State) (engs rings : List Nat), s.teamRestore id = q.goesOn (t.placedAt c k engs rings) := by
  simp only [State.teamRestore, ht, hr, hc, Bool.not_true, Bool.false_eq_true, if_false]
  exact ⟨_, _, _, rfl⟩
end

/-! ## The redirect (R365) -/

section
variable {s : State} {p : Nat} {t : Team} {id : TeamId} {off n : Nat} {r : List (TeamId × Nat × Nat)}

theorem State.arrivalRedirect_of_empty (h : (s.part p).redirect = []) : s.arrivalRedirect p = s := by
  simp only [State.arrivalRedirect, h]
theorem State.arrivalRedirect_of_gone (h : (s.part p).redirect = (id, off, n) :: r) (ht : s.team? id = none) :
    s.arrivalRedirect p = s.modPart p fun x => { x with redirect := r } := by
  have gone : (s.modPart p fun x => { x with redirect := r }).team? id = none := ht
  simp only [State.arrivalRedirect, h, gone]
theorem State.arrivalRedirect_of_team (h : (s.part p).redirect = (id, off, n) :: r) (ht : s.team? id = some t) :
    s.arrivalRedirect p =
      let s' := s.modPart p fun x => { x with redirect := r }
      (s'.setTeam (t.engineArrive off n)).writePhys (s'.imageBase (t.engineArrive off n) + 0x1_8000 + off)
        ((t.engineArrive off n).scrRead off 16) := by
  have there : (s.modPart p fun x => { x with redirect := r }).team? id = some t := ht
  simp only [State.arrivalRedirect, h, there]
end

end Sys2Proof.Machine

open Sys2Proof Sys2Proof.Machine in
/-- Settles O51: what is at rest is frozen, cleared, saved or restored as the rules have it, and redirected additions come in
order. -/
theorem partitionsStopAndMove : Obligations.PartitionsStopAndMove := by
  unfold Obligations.PartitionsStopAndMove
  intro s s1 t t1 off n r p onSlot
  refine ⟨fun hf h1 hr => ?freeze, fun hf hr => ?reset, fun ht hid hs hl hp => ⟨fun hr hw => ?migrate, fun hn => ?waits⟩,
    fun ht hid hr c k hc hw => ?restore, fun h => congrArg Host.Outcome.next (State.arrivalRedirect_of_empty h),
    fun h ht => congrArg Host.Outcome.next (State.arrivalRedirect_of_gone h ht),
    fun h ht => congrArg Host.Outcome.next (State.arrivalRedirect_of_team h ht)⟩
  case freeze =>
    subst h1
    have regs := s.toSavePoints_sysregs p
    obtain ⟨frozen, freezing, time⟩ := ((s.toSavePoints p).freezeTeams p).part_setFrozen p
    refine ⟨_, congrArg Host.Outcome.next (State.freezeComplete_of_atRest hf hr), frozen, freezing, ?_, ?_, ?_⟩
    · rw [time, State.gtime_of_sysregs (State.freezeTeams_sysregs _ p), State.gtime_of_sysregs regs]
    · intro hall ht ⟨part, running, idle⟩
      exact State.rests_freezeTeams hall ht part running idle
    · intro hteams ⟨part, running, idle⟩ hfly hkeys base hnorm k g hg i hi
      have at_ : base = (s.toSavePoints p).ctxBase t + 0x1_0000 := by rw [State.ctxBase_of_sysregs regs]
      rw [at_] at hnorm ⊢
      refine State.memByte_freezeTeams hteams part running idle hfly hkeys (fun x hx j hj => ?_) hg hi
      rw [State.norm_congr (State.mregs_of_sysregs regs)]
      exact hnorm x hx j hj
  case reset =>
    have c := State.partitionClear_cleared hf hr
    exact ⟨_, rfl, c.teams, c.graphs, c.leases, c.regions, c.flying, c.cuts, c.egress, c.rings, c.lost, c.cleared, c.reset⟩
  case migrate =>
    obtain ⟨id, stat⟩ := s.toSavePoint_team t
    rw [hp] at id stat
    obtain ⟨q, parked⟩ := State.teamMigrate_of_resting ht hs hl hp hr hw
    obtain ⟨v, hv, saved, migr, was, regs⟩ := q.parkTeam_team { t1 with migr := true }
    refine ⟨_, v, congrArg Host.Outcome.next parked, by rw [← id]; exact hv, saved, migr, fun _ => ⟨?_, regs⟩⟩
    exact was.trans (if_neg fun h => hs (stat h))
  case waits => exact congrArg Host.Outcome.next (State.teamMigrate_of_busy ht hs hl hp hn)
  case restore =>
    obtain ⟨q, engs, rings, restored⟩ := State.teamRestore_of_place ht hr hc
    have on := q.team?_goesOn (t := t.placedAt c k engs rings) hw
    exact ⟨_, _, congrArg Host.Outcome.next restored, on, rfl, rfl, rfl, rfl, rfl, rfl⟩
end

section
/-! PROOF. Obligation O50 fails: the release of a held version store changes a later cut that the safe tier is taking. -/
namespace Sys2Proof.Machine

/-- A checkpoint of a partition with nothing at work; `mem` is what the safe tier has of its memory (R389). -/
def idleCut (num : Nat) (mem : Option SafeCopy) : Snap := ⟨num, 0, false, [], [], [], [], [], [], [], [], [], mem⟩

/-- The later of the two open cuts: the safe tier has taken no frame of it yet. -/
def safeCut : Snap := idleCut 2 (some ⟨[], [], []⟩)

/-- Partition 0, turned, with a version store of epoch 0 held for region 0, and behind the cut that ends that epoch one more. -/
def versionHeld : State := State.reset.modPart 0 fun x => { x with
  regs := [(0x2006, 1)]
  regions := [(0, { VRegion.empty with
    dbase := 2 ^ 50 + 2 ^ 40
    dlen := 64
    plen := 0x1_0000 })]
  epoch := 2
  committed := some (idleCut 0 none)
  cuts := [idleCut 1 none, safeCut]
  egress := [(0, .version 0 1 [(2 ^ 50 + 2 ^ 40, 7)])] }

/-- The commit notes the recorded version in the region's entry, at 0x20 of frame 0, which the safe tier takes first. -/
theorem frames_of_commit : (((versionHeld.checkpointCommit 0).part 0).cuts.map fun c => c.mem.map (·.frames)) = [some [0]] := by
  decide +kernel

end Sys2Proof.Machine

open Sys2Proof Sys2Proof.Machine in
/-- Refutes O50: a commit is said to leave the later cuts as they are. Where it releases a held version store (R363), the region's
entry in memory is written, and of a later cut whose memory the safe tier is taking (R389) that write's frame is taken first. -/
theorem not_checkpointsAndTurns : ¬ Obligations.CheckpointsAndTurns := by
  unfold Obligations.CheckpointsAndTurns
  intro h
  obtain ⟨-, commits, -⟩ := h versionHeld (idleCut 1 none) [safeCut] 0 none
  obtain ⟨u, hu, -, cuts, -⟩ := commits rfl (by decide +kernel) (by decide +kernel) rfl rfl rfl rfl rfl (fun x hx => nomatch hx)
  obtain rfl : versionHeld.checkpointCommit 0 = u := Host.Outcome.next.inj hu
  have taken := frames_of_commit
  change ((versionHeld.checkpointCommit 0).part 0).cuts = [safeCut] at cuts
  rw [cuts] at taken
  exact absurd taken (by decide)
end

section
/-! PROOF. What stands in the table of unit operations, for obligation O53. -/
namespace Sys2Proof.Machine

/-! ## Writes of memory and regions -/

@[simp] theorem State.noteSafe_ops (s : State) (p pa : Nat) (b : Byte) : (s.noteSafe p pa b).ops = s.ops := by
  unfold State.noteSafe; dsimp only; split <;> rfl
@[simp] theorem State.dropHere_ops (s : State) (pa : Nat) : (s.dropHere pa).ops = s.ops := by
  unfold State.dropHere; split <;> rfl
@[simp] theorem State.storeBytes_ops (s : State) (p : Nat) (l : List (Nat × Byte)) : (s.storeBytes p l).ops = s.ops := by
  induction l generalizing s with
  | nil => rfl
  | cons x l ih =>
    rw [State.storeBytes, ih, State.storeByte, State.dropHere_ops]
    refine (State.noteSafe_ops _ p x.1 x.2).trans ?_
    unfold State.noteUndo; dsimp only; split <;> rfl
@[simp] theorem State.writePhys_ops (s : State) (pa : Nat) (l : List Byte) : (s.writePhys pa l).ops = s.ops := by
  induction l generalizing s pa with
  | nil => rfl
  | cons b l ih =>
    rw [State.writePhys, ih, State.dropHere_ops]
    exact s.noteSafe_ops _ pa b
@[simp] theorem State.writeVirt_ops (s : State) (p va : Nat) (l : List Byte) : (s.writeVirt p va l).ops = s.ops := by
  unfold State.writeVirt; split
  · exact s.writePhys_ops _ l
  · rfl
@[simp] theorem State.noteNode_ops (s : State) (p g n : Nat) : (s.noteNode p g n).ops = s.ops := by
  unfold State.noteNode
  split
  · split <;> simp
  · rfl
@[simp] theorem State.setRegion_ops (s : State) (p r : Nat) (x : VRegion) : (s.setRegion p r x).ops = s.ops := by
  unfold State.setRegion; split <;> rfl
@[simp] theorem State.noteRegion_ops (s : State) (p r : Nat) (live : Bool) : (s.noteRegion p r live).ops = s.ops := by
  unfold State.noteRegion; dsimp only; split
  · rfl
  · exact s.writeVirt_ops p _ _
@[simp] theorem State.reclaim_ops (s : State) (p r : Nat) (f : W32) (g : Nat) : (s.reclaim p r f g).ops = s.ops := by
  unfold State.reclaim; dsimp only
  rw [State.setRegion_ops]
  split <;> simp
@[simp] theorem State.sends_ops (s : State) (l : List Msg) : (s.sends l).ops = s.ops := by
  unfold State.sends; split <;> rfl

/-! ## Translation and faults -/

@[simp] theorem State.countEvent_ops (s : State) (p d e n : Nat) : (s.countEvent p d e n).ops = s.ops := by
  have counters : ∀ s : State, ((List.range 8).foldl (fun s k =>
      let sel := s.pr p (0x500 + k)
      if bitsOf sel 15 0 = e ∧ !sel.getLsbD 63 then s.bump p (0x508 + k) n else s) s).ops = s.ops :=
    foldl_keeps State.ops (fun s k => by dsimp only; split <;> rfl) _
  unfold State.countEvent
  split
  · rfl
  · dsimp only
    split <;> exact counters s
@[simp] theorem State.sendSup_ops (s : State) (p : Nat) (l : List W32) : (s.sendSup p l).ops = s.ops := by
  unfold State.sendSup; dsimp only; split <;> rfl
@[simp] theorem State.lookup_ops (s : State) (c p va : Nat) : (s.lookup c p va).1.ops = s.ops := by
  have walk (s : State) (d : Nat) : (s.walkDie d p va).1.ops = s.ops := by
    unfold State.walkDie
    dsimp only
    split <;> exact s.countEvent_ops p d 0x009 1
  have die (s : State) (d : Nat) : (s.lookupDie d p va).1.ops = s.ops := by
    unfold State.lookupDie
    split
    · rfl
    · exact walk s d
  unfold State.lookup
  split
  · rfl
  · have found := (die (s.countEvent p (dieOfCore c) 0x008 1) (dieOfCore c)).trans (s.countEvent_ops p (dieOfCore c) 0x008 1)
    dsimp only
    split
    · next h => rwa [h] at found
    · next h => rw [h] at found; exact found
@[simp] theorem State.xlate_ops (s : State) (c p : Nat) (l : List (Nat × Nat)) : (s.xlate c p l).1.ops = s.ops := by
  induction l generalizing s with
  | nil => rfl
  | cons x l ih =>
    have first := s.lookup_ops c p x.1
    simp only [State.xlate]
    split
    · next h => rwa [h] at first
    · next s1 _ h =>
      rw [h] at first
      have rest := ih s1
      split <;> next h' => rw [h'] at rest; exact rest.trans first
@[simp] theorem State.rcvAt_ops (s : State) (t : Team) (h : W64) : (s.rcvAt t h).1.ops = s.ops := by
  have range (va n : Nat) : (s.checkRange t.core t.part t.level .fetch .plain va n).1.ops = s.ops := by
    have hx := s.xlate_ops t.core t.part (rangePieces va n)
    unfold State.checkRange
    split
    · next e => rwa [e] at hx
    · next e =>
      rw [e] at hx
      split
      · exact hx
      · split <;> exact hx
  have word : (s.fetchWord t h).1.ops = s.ops := by
    have hx := range h.toNat 8
    unfold State.fetchWord
    split
    · next e => rwa [e] at hx
    · next e =>
      rw [e] at hx
      dsimp only
      split <;> exact hx
  unfold State.rcvAt
  split <;> next e => rwa [e] at word
@[simp] theorem State.mapBit_ops (s : State) (t : Team) (g : Region3) (a : W64) : (s.mapBit t g a).1.ops = s.ops := by
  have hl := s.lookup_ops t.core t.part (va56 (g.map.toNat + (a.toNat - g.base.toNat) / 8 / 8))
  unfold State.mapBit
  dsimp only
  split
  · next h => rwa [h] at hl
  · next h =>
    rw [h] at hl
    split <;> exact hl
@[simp] theorem State.arriveFrom_ops (s : State) (t : Team) (h : W64) (n : Nat) : (s.arriveFrom t h n).1.ops = s.ops := by
  induction n generalizing s t h with
  | zero => rfl
  | succ n ih =>
    simp only [State.arriveFrom]
    split
    · rfl
    · next u _ =>
      split
      · rfl
      · split
        · have hr := s.rcvAt_ops u h
          split
          · next e => rwa [e] at hr
          · next e =>
            rw [e] at hr
            split <;> exact (ih _ _ _).trans hr
        · rfl
@[simp] theorem State.doubleFault_ops (s : State) (t : Team) (f : FaultRec) : (s.doubleFault t f).ops = s.ops := by
  rw [State.doubleFault, State.sendSup_ops]
  unfold State.traceTrap State.tracePacket
  dsimp only
  split <;> rfl
@[simp] theorem State.enterHandler_ops (s : State) (t : Team) (f : FaultRec) (vec : W64) :
    (s.enterHandler t f vec).ops = s.ops := by
  have ha := s.arriveFrom_ops (t.inHandler f) vec (t.inHandler f).steps
  unfold State.enterHandler
  split
  next s1 u bad e =>
  rw [e] at ha
  cases bad with
  | false => exact ha
  | true => exact (State.doubleFault_ops _ u _).trans ha
@[simp] theorem State.raise_ops (s : State) (t : Team) (f : FaultRec) : (s.raise t f).ops = s.ops := by
  have deliver (t : Team) : (s.deliver t f).ops = s.ops := by
    unfold State.deliver
    dsimp only
    split
    · exact s.doubleFault_ops t f
    · split
      · have hm := s.mapBit_ops t (s.vector t).2 (s.vector t).1
        split
        · next e => rw [e] at hm; exact (State.enterHandler_ops _ _ _ _).trans hm
        · next e => rw [e] at hm; exact (State.doubleFault_ops _ _ _).trans hm
      · exact s.doubleFault_ops t f
  unfold State.raise
  split
  · exact deliver _
  · rfl

/-! ## The move of a line -/

@[simp] theorem State.putCached_ops (s : State) (l k : Nat) : (s.putCached l k).ops = s.ops := by
  have evict (v : Nat) : (s.evictLine v).ops = s.ops := by
    refine foldl_keeps State.ops (fun s p => ?_) _ s
    dsimp only
    split
    · exact foldl_keeps State.ops (fun s (x : Nat × Nat) => (State.noteNode_ops _ p x.1 x.2).trans (s.modPart_ops p _)) _ s
    · rfl
  unfold State.putCached; dsimp only; split
  · exact evict _
  · rfl
@[simp] theorem State.landGranule_ops (s : State) (o n g : Nat) : (s.landGranule o n g).ops = s.ops := by
  refine foldl_keeps State.ops (fun s x => ?_) _ s
  dsimp only
  split <;> simp
@[simp] theorem State.park_ops (s : State) (t : Team) (seq : Nat) (dst : Dst) (accs : List VAcc) (acq : Option Scope) :
    (s.park t seq dst accs acq).ops = s.ops := by
  have filters (s : State) : (accs.foldl (fun s a => s.modSlice (s.vHome a) fun x =>
      { x with filter := x.filter ||| (1#256 <<< (a.gran s % 256)) }) s).ops = s.ops :=
    foldl_keeps State.ops (fun s a => s.modSlice_ops _ _) accs s
  unfold State.park
  cases accs with
  | nil => exact State.modTeam_ops _ t.id _
  | cons a r =>
    rw [State.noteRegion_ops, State.setRegion_ops]
    exact (filters _).trans (State.modTeam_ops _ t.id _)
@[simp] theorem State.movePlaces_ops (s : State) (lost : List WaitPlace) (l : List (Nat × WaitPlace)) :
    (s.movePlaces lost l).ops = s.ops := by
  have blocked (s : State) (id : TeamId) (seq : Nat) : (s.parkBlocked id seq).ops = s.ops := by
    unfold State.parkBlocked
    split
    · rfl
    · split
      · exact s.park_ops _ seq _ _ _
      · rfl
  induction l generalizing s lost with
  | nil => rfl
  | cons x l ih =>
    unfold State.movePlaces
    dsimp only
    split
    · exact ih s lost
    · split
      · exact ih _ lost
      · rw [ih]
        split
        · exact State.sends_ops _ _
        · split
          · exact State.modTeam_ops _ _ _
          · exact blocked s _ _
@[simp] theorem State.moveLine_ops (s : State) (k : Nat) : (s.moveLine k).ops = s.ops := by
  unfold State.moveLine
  split
  · split
    · rfl
    · dsimp only
      rw [State.movePlaces_ops, State.landGranule_ops]
      dsimp only [State.takeOut]
      split <;> split <;> simp [State.moveCached, State.dropCached, State.dropRline, State.setRline]
  · rfl

/-! ## Version loads that try again, and floors -/

@[simp] theorem State.reachLines_ops (s : State) (p : Nat) (l : List Nat) : (s.reachLines p l).ops = s.ops := by
  induction l generalizing s with
  | nil => rfl
  | cons k l ih =>
    rw [State.reachLines, ih]
    unfold State.reach
    split
    · dsimp only
      split
      · split <;> simp
      · exact s.moveLine_ops k
    · rfl
theorem State.vStop_ops {s s' : State} {t : Team} {p : Pending} {a : VAcc} (h : s.vStop t p a = some s') : s'.ops = s.ops := by
  obtain h | ⟨-, h⟩ := Option.or_eq_some_iff.1 h
  · unfold State.vLost at h
    split at h
    · unfold State.lostLoad at h
      dsimp only at h
      split at h
      · cases h
      · cases h
        exact State.raise_ops _ _ _
    · cases h
  · obtain ⟨f, -, rfl⟩ := Option.map_eq_some_iff.1 h
    exact State.raise_ops _ _ _
@[simp] theorem State.vDeliver_ops (s : State) (t : Team) (p : Pending) (dst : Dst) (accs : List VAcc) (acq : Option Scope)
    (f : VAcc → List Byte) : (s.vDeliver t p dst accs acq f).ops = s.ops := by
  refine (State.modTeam_ops _ t.id _).trans ?_
  unfold State.vAcquire
  split
  · split
    · rfl
    · unfold State.acquire
      dsimp only
      split <;> split <;> rfl
  · rfl
@[simp] theorem State.fillVersions_ops (s : State) (t : Team) (l : List VAcc) : (s.fillVersions t l).ops = s.ops := by
  induction l generalizing s with
  | nil => rfl
  | cons a l ih =>
    unfold State.fillVersions
    dsimp only
    split
    · rw [ih]
      split <;> rfl
    · exact ih s
@[simp] theorem State.takePlaces_ops (s : State) (l : List (Nat × WaitPlace)) : (s.takePlaces l).ops = s.ops := by
  induction l generalizing s with
  | nil => rfl
  | cons x l ih => exact ih _
@[simp] theorem State.tryVersion_ops (s : State) (t : Team) (p : Pending) (dst : Dst) (accs : List VAcc) (acq : Option Scope)
    (parked : Bool) : (s.tryVersion t p dst accs acq parked).ops = s.ops := by
  have reached : ((s.freePlaces t.id (· == p.seq)).reachLines t.part
      (accs.map (·.gran (s.freePlaces t.id (· == p.seq)))).eraseDups).ops = s.ops := State.reachLines_ops _ _ _
  unfold State.tryVersion
  dsimp only
  split
  · next h =>
    obtain ⟨a, -, ha⟩ := List.exists_of_findSome?_eq_some h
    exact (State.vStop_ops ha).trans reached
  · split
    · exact (State.vDeliver_ops _ _ _ _ _ _ _).trans ((State.fillVersions_ops _ _ _).trans reached)
    · split
      · exact ((State.modTeam_ops _ _ _).trans (State.takePlaces_ops _ _)).trans reached
      · split
        · exact reached
        · exact (State.park_ops _ _ _ _ _ _).trans reached
@[simp] theorem State.retry_ops (s : State) (id : TeamId) (seq : Nat) : (s.retry id seq).ops = s.ops := by
  unfold State.retry
  split
  · rfl
  · split
    · rfl
    · split
      · dsimp only
        split
        · exact s.tryVersion_ops _ _ _ _ _ _
        · rfl
      · rfl
@[simp] theorem State.takeFloor_ops (s : State) (p r : Nat) (f : W32) (l : Nat) : (s.takeFloor p r f l).ops = s.ops := by
  unfold State.takeFloor
  dsimp only
  split
  · rfl
  · refine (foldl_keeps State.ops (fun s (x : Nat × TeamId × Nat) => s.retry_ops x.2.1 x.2.2) _ _).trans ?_
    rw [State.tellHolders, State.sends_ops, State.setRegion_ops]
    refine (foldl_keeps State.ops (fun s (x : TeamId × Nat) => s.retry_ops x.1 x.2) _ _).trans ?_
    rw [State.sends_ops, State.modSlice_ops, State.noteRegion_ops, foldl_keeps State.ops fun s g => s.reclaim_ops p r f g]
    exact s.setRegion_ops p r _
theorem State.openWindows_ops (s : State) (p : Nat) (old : Nat → List Nat) : (s.openWindows p old).ops = s.ops := by
  refine foldl_keeps State.ops (fun s d => ?_) _ s
  dsimp only
  split
  · rfl
  · refine (foldl_keeps State.ops (fun s _ => foldl_keeps State.ops (fun s l => s.takeFloor_ops _ _ _ l) _ s) _ _).trans ?_
    split
    · rfl
    · split <;> rfl

end Sys2Proof.Machine
end

section
/-! PROOF. Obligation O53: damage, failed units, the control plane, power, firmware, attestation, the module reset (R370, R377,
R384, R421-R431). -/
namespace Sys2Proof.Machine

/-- A word with one more bit set. -/
theorem getLsbD_or_bit {w k : Nat} (x : BitVec w) (h : k < w) : (x ||| 1#w <<< k).getLsbD k = true := by
  simp [h]

/-! ## Changes of partitions alone -/

/-- From `s` to `s'` partitions alone have changed. -/
def State.OnlyParts (s s' : State) : Prop := ∃ x, s' = { s with parts := x }

theorem State.OnlyParts.refl (s : State) : s.OnlyParts s := ⟨s.parts, rfl⟩
theorem State.OnlyParts.trans {a b c : State} (h : a.OnlyParts b) (k : b.OnlyParts c) : a.OnlyParts c := by
  obtain ⟨x, rfl⟩ := h
  obtain ⟨y, rfl⟩ := k
  exact ⟨y, rfl⟩
theorem State.onlyParts_setPart (s : State) (p : Nat) (x : Partition) : s.OnlyParts (s.setPart p x) := ⟨_, rfl⟩
theorem State.onlyParts_foldl {α : Type} {f : State → α → State} (h : ∀ (s : State) a, s.OnlyParts (f s a)) (l : List α)
    (s : State) : s.OnlyParts (l.foldl f s) :=
  List.foldlRecOn (motive := s.OnlyParts) l f (.refl s) fun q hq a _ => hq.trans (h q a)

theorem State.onlyParts_sendSup (s : State) (p : Nat) (w : List W32) : s.OnlyParts (s.sendSup p w) := by
  unfold State.sendSup
  dsimp only
  split
  · exact s.onlyParts_setPart p _
  · exact .refl s
theorem State.onlyParts_profNotice (s : State) (p : Nat) (dev : Bool) : s.OnlyParts (s.profNotice p dev) :=
  State.onlyParts_foldl (fun s q => by
    split
    · exact .refl s
    · exact s.onlyParts_sendSup q _) _ s
theorem State.onlyParts_shed (s : State) (us : Nat) : s.OnlyParts (s.shed us) :=
  State.onlyParts_foldl (fun s p => by
    dsimp only
    split
    · exact (s.onlyParts_setPart p _).trans (State.onlyParts_profNotice _ p true)
    · exact .refl s) _ s
theorem State.onlyParts_claim (s : State) (p g n : Nat) : s.OnlyParts (s.claim p g n) := by
  unfold State.claim
  dsimp only
  split
  · exact .refl s
  · split
    · exact s.onlyParts_setPart p _
    · exact .refl s
theorem State.onlyParts_passClaims (s : State) (p : Nat) : s.OnlyParts (s.passClaims p) :=
  (s.onlyParts_setPart p _).trans (State.onlyParts_foldl (fun s (x : Nat × Nat × Nat) => s.onlyParts_claim p x.2.1 x.2.2) _ _)

/-! ## Damage (R370) -/

section
variable {s : State} {g : Nat}

theorem State.damage_of_local (h : 32 * g < localTop) : s.damage g = { s with
    poison := s.poison.set 0 g 0xFFFF_FFFF#32
    retiring := s.retiring.put (frameOf (32 * g)) (g :: (s.retiring.get [] (frameOf (32 * g))).filter (· != g)) } :=
  if_neg (Nat.not_le.2 h)

/-- A frame passes to a spare of its channel group, and its owner has its lost granules to hear of. -/
theorem State.pageRetire_of_spare {lost : List Nat} (h : s.retiring.get? g = some lost)
    (hs : s.spares.get 0 (groupOf (g * pageBytes)) < 31) : ∃ p l, s.pageRetire g = { s with
      retiring := s.retiring.del g
      spares := s.spares.set 0 (groupOf (g * pageBytes)) (s.spares.get 0 (groupOf (g * pageBytes)) + 1)
      lostFirst := s.lostFirst.put g (lost ++ l)
      parts := p } := by
  simp only [State.pageRetire, h]
  rw [if_neg (by omega), if_neg (by omega)]
  obtain ⟨p, hp⟩ := State.onlyParts_sendSup _ _ _
  exact ⟨p, _, hp⟩
end

/-! ## Units that fail (R428) -/

section
variable {s : State} {c l : Nat}

theorem State.get?_failOp (s : State) (p src cs ls : Nat) :
    (s.failOp p src cs ls).ops.get? s.nops = some ⟨.fail, p, src, [], none, s.now, cs, ls, []⟩ := Table.get?_put_same _ _ _

/-- Every team that holds a place on core `c` is being killed with 0x40. -/
def State.killedOn (s : State) (c : Nat) : State := (s.residents c).foldl (fun s t => s.setTeam (t.kill 0x40)) s
/-- Core `c` is marked as failed, and the operation that takes it from its holder begins. -/
def State.coreLost (s : State) (c : Nat) : State :=
  let q := s.killedOn c
  State.failOp { q with mgmt := { q.mgmt with
    failedCores := q.mgmt.failedCores ||| (1#64 <<< c)
    replReq := true } } (s.coreHolderOf c) (q.coreOwnerOf c) (2 ^ c) 0
/-- Slice `l` is marked as failed, and the operation that takes it from its holder begins. -/
def State.sliceLost (s : State) (l : Nat) : State :=
  State.failOp { s with mgmt := { s.mgmt with
    failedSlices := s.mgmt.failedSlices ||| (1#96 <<< l)
    replReq := true } } (s.sliceHolderOf l) (s.sliceOwnerOf l) 0 (2 ^ l)

/-- In state `s` the team of that number is being killed with 0x40. -/
def State.Killed (s : State) (id : TeamId) : Prop := ∃ v, s.team? id = some v ∧ v.stat = .killing 0x40

theorem State.killed_setTeam (s : State) (t : Team) : (s.setTeam (t.kill 0x40)).Killed t.id :=
  ⟨t.kill 0x40, s.team?_setTeam_same _, rfl⟩
theorem State.Killed.setTeam {id : TeamId} (h : s.Killed id) (t : Team) : (s.setTeam (t.kill 0x40)).Killed id := by
  by_cases hid : t.id = id
  · exact hid ▸ s.killed_setTeam t
  · obtain ⟨v, hv, killing⟩ := h
    exact ⟨v, (s.team?_setTeam_ne (t.kill 0x40) hid).trans hv, killing⟩
theorem State.killed_killedOn (s : State) (c : Nat) : ∀ t ∈ s.residents c, (s.killedOn c).Killed t.id :=
  foldl_reaches (P := fun t s => State.Killed s t.id) (fun s t => s.killed_setTeam t) (fun _ _ t h => h.setTeam t) _ s

/-- The kills change the table of teams alone. -/
theorem State.killedOn_eq (s : State) (c : Nat) : ∃ x, s.killedOn c = { s with teams := x } :=
  List.foldlRecOn (motive := fun q : State => ∃ x, q = { s with teams := x }) _ _ ⟨s.teams, rfl⟩ fun q hq t _ => by
    obtain ⟨x, rfl⟩ := hq
    exact ⟨_, rfl⟩

theorem State.coreLost_mgmt (s : State) (c : Nat) : (s.coreLost c).mgmt = { s.mgmt with
    failedCores := s.mgmt.failedCores ||| (1#64 <<< c)
    replReq := true } := by
  obtain ⟨x, hx⟩ := s.killedOn_eq c
  rw [State.coreLost, hx]
  rfl
theorem State.get?_coreLost (s : State) (c : Nat) : (s.coreLost c).ops.get? s.nops =
    some ⟨.fail, s.coreHolderOf c, s.coreOwnerOf c, [], none, s.now, 2 ^ c, 0, []⟩ := by
  obtain ⟨x, hx⟩ := s.killedOn_eq c
  rw [State.coreLost, hx]
  exact State.get?_failOp _ _ _ _ _

theorem State.coreFail_of_sound (h : s.mgmt.failedCores.getLsbD c = false) : (s.coreLost c).OnlyParts (s.coreFail c) := by
  have fails : s.coreFail c = (((s.coreLost c).members [s.coreHolderOf c, (s.coreLost c).coreOwnerOf c]).foldl
      (fun s q => (s.rehome q).passClaims q) (s.coreLost c)) := if_neg (by rw [h]; exact Bool.false_ne_true)
  rw [fails]
  exact State.onlyParts_foldl (fun s q => (s.onlyParts_setPart q _).trans (State.onlyParts_passClaims _ q)) _ _
theorem State.coreFail_of_failed (h : s.mgmt.failedCores.getLsbD c = true) : s.coreFail c = s := if_pos h

theorem State.sliceFail_of_sound (h : s.mgmt.failedSlices.getLsbD l = false) :
    (s.sliceFail l).mgmt = (s.sliceLost l).mgmt ∧ (s.sliceFail l).ops = (s.sliceLost l).ops := by
  have fails : s.sliceFail l = (s.sliceLost l).openWindows (s.sliceHolderOf l) fun d => s.slicesOn (s.sliceHolderOf l) d :=
    if_neg (by rw [h]; exact Bool.false_ne_true)
  rw [fails]
  exact ⟨State.mgmt_of_fixed (State.openWindows_fixed _ _ _), State.openWindows_ops _ _ _⟩
theorem State.sliceFail_of_failed (h : s.mgmt.failedSlices.getLsbD l = true) : s.sliceFail l = s := if_pos h
end

/-! ## The control plane (R377) -/

section
variable {s : State} {k : Nat}

theorem State.cpsemRead_of_free (hr : s.portReady k = true) (h : s.mgmt.held = false) : ∃ a b, s.cpsemRead k =
    { s with mgmt := { s.mgmt with
      held := true
      holder := k
      msixSent := a
      msixPending := b
      hostReads := s.mgmt.hostReads ++ [leBytes 8 3] } } := by
  simp only [State.cpsemRead, State.cpsemTake, hr, h, Bool.not_true, Bool.false_eq_true, if_false, if_true]
  exact ⟨_, _, rfl⟩
theorem State.cpsemRead_of_held (hr : s.portReady k = true) (h : s.mgmt.held = true) (hk : s.mgmt.holder ≠ k) :
    s.cpsemRead k = { s with mgmt := { s.mgmt with hostReads := s.mgmt.hostReads ++ [leBytes 8 1] } } := by
  simp only [State.cpsemRead, State.cpsemTake, hr, h, hk, Bool.not_true, Bool.false_eq_true, if_false, if_true]
theorem State.cpsemFree_of_holder (h : s.mgmt.held = true) (hk : s.mgmt.holder = k) :
    s.cpsemFree k = { s with mgmt := { s.mgmt with held := false } } := if_pos (by simp [h, hk])

theorem State.fabricError_fixed (s : State) (p : Nat) (va : W64) (pa : Nat) : (s.fabricError p va pa).fixed = s.fixed :=
  State.sendSup_fixed _ p _
theorem State.transportFail_fixed (s : State) (t : Team) (p : Pending) (a : Acc) (i pa : Nat) :
    (s.transportFail t p a i pa).fixed = s.fixed := by
  unfold State.transportFail
  dsimp only
  split
  · rw [State.fabricError_fixed, State.fixed_of_kept (State.modTeam_kept _ t.id _)]
    split <;> rfl
  · exact s.performFault_fixed t p _
theorem State.hostFail_fixed (s : State) (id : TeamId) (n : Nat) : (s.hostFail id n).fixed = s.fixed := by
  induction n generalizing s with
  | zero => rfl
  | succ n ih =>
    unfold State.hostFail
    split
    · rfl
    · split
      · rfl
      · split
        · exact (ih _).trans (s.transportFail_fixed _ _ _ _ _)
        · rfl
theorem State.hostTiles_fixed (s : State) (id : TeamId) : (s.hostTiles id).fixed = s.fixed := by
  unfold State.hostTiles
  split
  · rfl
  · refine foldl_keeps State.fixed (fun s j => ?_) _ s
    split
    · split
      · exact State.fixed_of_kept (s.modTeam_kept id _)
      · rfl
    · rfl
theorem State.logAppend_fixed (s : State) (d : Nat) (e : List Byte) : (s.logAppend d e).fixed = s.fixed := by
  unfold State.logAppend
  dsimp only
  split
  · rfl
  · split
    · rfl
    · exact State.fixed_of_kept (s.writePhys_kept _ e)
theorem State.logCopy_fixed (s : State) (d e : Nat) (c : Copy) (status : Nat) : (s.logCopy d e c status).fixed = s.fixed := by
  unfold State.logCopy
  dsimp only
  split
  · exact s.logAppend_fixed d _
  · rfl
theorem State.modWork_fixed (s : State) (p : Nat) (t : TeamId) (f : Team → Team) : (s.modWork p t f).fixed = s.fixed := by
  unfold State.modWork
  split
  · exact State.fixed_of_kept (s.modTeam_kept t f)
  · exact State.fixed_of_kept (s.modTeam_kept t _)
theorem State.copyEnd_fixed (s : State) (d e : Nat) (c : Copy) (status : Nat) : (s.copyEnd d e c status).fixed = s.fixed := by
  unfold State.copyEnd
  dsimp only
  split
  · rfl
  · exact State.modWork_fixed _ _ _ _
theorem State.rowLost_fixed (s : State) (d e : Nat) (f : Nat → Bool) : (s.rowLost d e f).fixed = s.fixed := by
  unfold State.rowLost
  split
  · rfl
  · split
    · rw [State.copyFails, State.copyEnd_fixed]
      exact (State.logCopy_fixed _ _ _ _ _).trans (s.sendSup_fixed _ _)
    · rfl

/-- The holder's link that is lost leaves the control plane to the next port. -/
theorem State.held_linkLoss (h : s.mgmt.held = true) (hk : s.mgmt.holder = k) : (s.linkLoss k).mgmt.held = false := by
  have lost : (s.linkLoss k).fixed = { s with mgmt := { s.mgmt with held := false } }.fixed := by
    rw [State.linkLoss, if_pos (by simp [h, hk])]
    exact (foldl_keeps State.fixed (fun s i => s.rowLost_fixed _ _ _) _ _).trans
      (foldl_keeps State.fixed (fun s (x : Nat × Team) => (State.hostTiles_fixed _ _).trans (s.hostFail_fixed _ _)) _ _)
  rw [State.mgmt_of_fixed lost]
end

/-! ## Power (R421-R424) -/

section
variable {s : State}

theorem State.pwrctlWrite_of_ok (hv : pwrctlOk s.ev.val = true)
    (h : if s.ev.flag = true then s.mgmt.held = false else s.manages = true) :
    execPwrctlWrite s = .next { s with mgmt := { s.mgmt with pwrctl := s.ev.val } } := by
  have may : (if s.ev.flag then !s.mgmt.held else s.manages) = true := by
    cases hf : s.ev.flag <;> simpa [hf] using h
  rw [execPwrctlWrite, if_pos may, State.pwrctl, if_pos hv]

/-- GOVCTL of each of the dies below `n` takes value `v`. -/
theorem State.mr_govWrites (s : State) (v : W64) (n : Nat) :
    ∀ d < n, ((List.range n).foldl (fun q d => q.govWrite d v) s).mr (0x198 + d) = v := fun d hd =>
  foldl_reaches (P := fun d q => State.mr q (0x198 + d) = v) (fun q d => q.mr_setMr_same _ v) (fun q d b h => by
    by_cases hb : d = b
    · subst hb; exact q.mr_setMr_same _ v
    · exact (q.mr_setMr_ne v (by omega)).trans h) _ s d (List.mem_range.2 hd)

theorem State.mr_engage (s : State) : ∀ d < 4, s.engage.mr (0x198 + d) = s.mgmt.fwGovctl := s.mr_govWrites s.mgmt.fwGovctl 4

theorem State.fwgov_disengage (s : State) : s.disengage.mgmt.fwgov = false := rfl
end

/-! ## Firmware and attestation (R426, R429-R431) -/

section
variable {s : State} {k : Nat} {image : List Byte}

theorem State.carry_mgmt (s : State) : s.carry.mgmt = s.mgmt := by
  unfold State.carry; split <;> rfl

theorem State.attestDone_of_signing {r : List Byte} (h : s.mgmt.signing = some r) : s.attestDone = { s with
    mgmt := { s.mgmt with
      attrep := r ++ leBytes 29792 (Config.signature r).toNat
      attctl := 3
      signing := none } } := by
  simp only [State.attestDone, h]

theorem State.firmware_of_bringUp (hk : k ≤ 40) (h3 : k ≠ 3) (h0 : k = 0 ∨ s.mgmt.ready.getLsbD 0 = true) :
    s.firmware k image = if Config.imageVerifies image then
        State.carry { s with mgmt := { s.mgmt.addMeasure image with ready := s.mgmt.ready ||| (1#64 <<< k) } }
      else { s with mgmt := { s.mgmt with replReq := true } } := by
  refine if_neg ?_
  rintro (h | h | ⟨hne, hr⟩)
  · omega
  · exact h3 h
  · rcases h0 with h | h
    · exact hne h
    · rw [h] at hr
      cases hr
end

end Sys2Proof.Machine

open Sys2Proof Sys2Proof.Machine in
/-- Settles O53: each event of the module's management has the result that its rule gives, what it starts in partitions and units
apart. -/
theorem moduleManagement : Obligations.ModuleManagement := by
  unfold Obligations.ModuleManagement
  intro s r
  dsimp only
  refine ⟨fun hg => ?damage, fun lost hl hs => ?retire, fun hf hc hn => ?core, fun hf hl hn => ?slice, fun h => ?again,
    fun hk => ?degrade, fun hr hh => ?take, fun hr hh hk => ?refused, fun hh hk => ?release, fun hh hk => ?lost,
    State.pwrctlWrite_of_ok, fun hd => ?tick, fun hf => ?engage, fun hf => ?disengage, fun hm hr => ?sign, fun hs => ?signed,
    fun hi h3 h0 => ?verify, rfl⟩
  case damage =>
    exact ⟨_, congrArg Host.Outcome.next (State.damage_of_local hg), by simp, ⟨_, Table.get?_put_same _ _ _⟩,
      rfl⟩
  case retire =>
    obtain ⟨p, l, retired⟩ := State.pageRetire_of_spare hl hs
    exact ⟨_, congrArg Host.Outcome.next retired, Table.get?_del_same _ _,
      ⟨_, Table.get?_put_same _ _ _, fun x hx => List.mem_append_left l hx⟩, by simp⟩
  case core =>
    obtain ⟨x, hx⟩ := State.coreFail_of_sound hn
    have fails : execUnitFail s = .next (s.coreFail s.ev.core) := by
      rw [execUnitFail, hf, if_neg Bool.false_ne_true, if_pos hc]
    refine ⟨_, fails, ?_⟩
    rw [hx]
    dsimp only
    rw [State.coreLost_mgmt, State.get?_coreLost]
    exact ⟨getLsbD_or_bit _ (by omega), rfl, ⟨_, rfl, rfl, rfl, rfl⟩, s.killed_killedOn s.ev.core⟩
  case slice =>
    obtain ⟨mgmt, ops⟩ := State.sliceFail_of_sound hn
    have fails : execUnitFail s = .next (s.sliceFail s.ev.slice) := by
      rw [execUnitFail, if_pos hf, if_pos hl]
    refine ⟨_, fails, ?_⟩
    rw [mgmt, ops]
    exact ⟨getLsbD_or_bit _ hl, rfl, _, State.get?_failOp _ _ _ _ _, rfl, rfl, rfl⟩
  case again =>
    refine congrArg Host.Outcome.next ?_
    obtain ⟨hf, hn⟩ | ⟨hf, hn⟩ := h
    · rw [hf, if_neg Bool.false_ne_true, State.coreFail_of_failed hn, ite_self]
    · rw [if_pos hf, State.sliceFail_of_failed hn, ite_self]
  case degrade => exact ⟨_, congrArg Host.Outcome.next (if_pos hk), getLsbD_or_bit _ hk, rfl⟩
  case take =>
    obtain ⟨a, b, read⟩ := State.cpsemRead_of_free hr hh
    exact ⟨_, congrArg Host.Outcome.next read, rfl, rfl, rfl⟩
  case refused => exact ⟨_, congrArg Host.Outcome.next (State.cpsemRead_of_held hr hh hk), rfl, rfl⟩
  case release => exact ⟨_, congrArg Host.Outcome.next (State.cpsemFree_of_holder hh hk), rfl⟩
  case lost => exact ⟨_, rfl, State.held_linkLoss hh hk⟩
  case tick =>
    have due : s.powerTick = s.powerAt (s.mgmt.ticks + 1) := if_neg (Nat.not_lt.2 hd)
    obtain ⟨x, hx⟩ := State.onlyParts_shed _ _
    exact ⟨_, congrArg Host.Outcome.next (due.trans hx), rfl, rfl, rfl, rfl, rfl, rfl⟩
  case engage =>
    have engages : execFwgovEngage s = .next (if (s.powerLost || s.powerOver) = true then s.engage else s) := by
      rw [execFwgovEngage, hf, Bool.not_false, Bool.true_and]
    refine ⟨_, engages, ?_⟩
    by_cases h : (s.powerLost || s.powerOver) = true
    · rw [if_pos h, if_pos h]
      exact ⟨h.symm, s.mr_engage⟩
    · rw [if_neg h, if_neg h]
      exact ⟨hf.trans (Bool.not_eq_true _ ▸ h).symm, rfl⟩
  case disengage =>
    have releases : execFwgovRelease s = .next (if s.powerFine = true then s.disengage else s) := by
      rw [execFwgovRelease, hf, Bool.true_and]
    refine ⟨_, releases, ?_⟩
    cases s.powerFine
    · exact hf
    · exact s.fwgov_disengage
  case sign =>
    have signs : s.sign = { s with mgmt := { s.mgmt with
      attctl := 1
      signing := some s.mgmt.report } } := if_pos hr
    exact ⟨_, congrArg Host.Outcome.next ((if_pos hm).trans signs), rfl, rfl⟩
  case signed => exact ⟨_, congrArg Host.Outcome.next (State.attestDone_of_signing hs), rfl, rfl⟩
  case verify =>
    refine ⟨_, congrArg Host.Outcome.next (State.firmware_of_bringUp hi h3 h0), ?_⟩
    split
    · rw [State.carry_mgmt]
      exact ⟨getLsbD_or_bit _ (by omega), rfl⟩
    · exact ⟨rfl, rfl⟩
end

section
/-!
PROOF. Obligations O6 and O60: what reset leaves (R426).
-/
namespace Sys2Proof.Machine

/-- No register of a partition is listed at reset: each reads its reset value. -/
theorem State.pr_reset (p k : Nat) : State.reset.pr p k = sysReset k := rfl

theorem State.preg_reset (p r : Nat) : State.reset.preg p r = (sysReset (0x2000 + r)).toNat := rfl

/-- No byte is listed at reset: each reads as an unlisted one does. -/
theorem State.memByte_reset (a : Nat) : State.reset.memByte a = 0 := rfl

theorem State.wf_mem_reset : Memory.wf State.reset.mem = true := rfl

end Sys2Proof.Machine

open Sys2Proof Sys2Proof.Machine in
/-- Settles O6: at reset memory lists nothing, which is canonical and reads as zero. -/
theorem memoryCanonicalAtReset : Obligations.MemoryCanonicalAtReset :=
  ⟨State.wf_mem_reset, State.memByte_reset⟩

open Sys2Proof Sys2Proof.Machine in
/-- Settles O60: nothing is listed at reset, so every register, owner, team, graph and byte reads as an unlisted one does. -/
theorem resetState : Obligations.ResetState := by
  unfold Obligations.ResetState
  refine ⟨rfl, rfl, rfl, fun p _ => ?registers, fun _ => ⟨rfl, rfl⟩, fun _ => ⟨rfl, rfl⟩, fun _ => rfl, fun _ => rfl,
    fun _ _ => rfl, rfl, rfl, rfl, State.wf_mem_reset, State.memByte_reset⟩
  case registers =>
    simp only [State.preg_reset, State.pr_reset]
    exact ⟨rfl, rfl, rfl, rfl, rfl, rfl, rfl, rfl, rfl⟩
end

section
/-!
PROOF. Obligation O5: every step keeps the memory list in its canonical form (log 4).

Memory changes in three ways only: a cell is set, cells are set one after another, and cells are filtered out. Each keeps the
canonical form. From there the fact climbs the model: one lemma for each operation that gives a state, named after the operation,
so that the proof for an operation reads as the operation does (`h.modTeam.traceTrap` for a trap traced after a team's change).
-/
namespace Sys2Proof.Machine

/-! ## Canonical memory, and what it means of the model's answers -/

/-- The memory list is in its canonical form (log 4). -/
def Canon (m : List Host.Cell) : Prop := Memory.wf m = true

/-- The state that an effect answers with, if any, has canonical memory; likewise for the answers below. -/
def Eff.Canon : Eff → Prop
  | .ok s | .goto s _ | .leave s | .done s | .hold s | .faultIn s _ _ _ => Machine.Canon s.mem
  | .fault .. | .debug .. | .wait => True

def SysAns.Canon : SysAns → Prop
  | .ok s | .held s _ | .faultIn s _ _ => Machine.Canon s.mem
  | .fault .. => True

def Gate.Canon : Gate → Prop
  | .off s _ | .fault s _ _ _ _ | .go s _ => Machine.Canon s.mem
  | _ => True

def OutCanon : Host.Outcome State Fault Refusal → Prop
  | .next s => Canon s.mem
  | _ => True

def OptCanon : Option State → Prop
  | some s => Canon s.mem
  | none => True

def PairCanon {α : Type} : Option (State × α) → Prop
  | some x => Canon x.1.mem
  | none => True

def EffCanon : Option Eff → Prop
  | some r => r.Canon
  | none => True

def ExcCanon {ε : Type} : Except ε State → Prop
  | .ok s => Canon s.mem
  | .error _ => True

section
variable {s s' : State} {m : List Host.Cell} {α ε : Type} {c : Prop} [Decidable c]

/-! ## The three ways in which memory changes -/

theorem Canon.set {k v} (h : Canon m) : Canon (Table.set m Config.unlisted k v) := Table.wf_set k v h
theorem Canon.setAll {l} (h : Canon m) : Canon (Table.setAll m Config.unlisted l) := Table.wf_setAll h
theorem Canon.filter {f} (h : Canon m) : Canon (m.filter f) := Memory.wf_filter f h
theorem Canon.frame {f : Frame} (h : Canon m) : Canon (f.mem m) := h.filter.setAll
theorem Canon.reset : Canon State.reset.mem := rfl

/-! ## States whose memory is that of another -/

theorem Canon.of_eq (h : Canon s.mem) (e : s'.mem = s.mem) : Canon s'.mem := e ▸ h
theorem Canon.of_parts (h : Canon s.mem) (e : s.OnlyParts s') : Canon s'.mem := by
  obtain ⟨_, rfl⟩ := e
  exact h

/-- A state made of memory and any other fields: what `{ s with … }` is when only fields other than memory change. -/
theorem Canon.update {poison lostFirst retiring spares clock now mregs mgmt coreOwner coreHolder sliceOwner sliceHolder
    groupOwner ops nops wins nwins teams parts dies cores slices inbound outbox unsent free nparks rels back focus stalled ev
    agenda} (h : Canon m) : Canon (State.mk m poison lostFirst retiring spares clock now mregs mgmt coreOwner coreHolder
    sliceOwner sliceHolder groupOwner ops nops wins nwins teams parts dies cores slices inbound outbox unsent free nparks rels
    back focus stalled ev agenda).mem := h

/-! ## Conditionals, folds and options -/

theorem Canon.ite (h : Canon s.mem) (h' : Canon s'.mem) : Canon (if c then s else s').mem := by
  split <;> assumption
theorem Canon.ite_fst {x y : State × α} (h : Canon x.1.mem) (h' : Canon y.1.mem) : Canon (if c then x else y).1.mem := by
  split <;> assumption
theorem Eff.Canon.ite {x y : Eff} (h : x.Canon) (h' : y.Canon) : (if c then x else y).Canon := by
  split <;> assumption
theorem SysAns.Canon.ite {x y : SysAns} (h : x.Canon) (h' : y.Canon) : (if c then x else y).Canon := by
  split <;> assumption
theorem OutCanon.ite {x y : Host.Outcome State Fault Refusal} (h : OutCanon x) (h' : OutCanon y) :
    OutCanon (if c then x else y) := by
  split <;> assumption
theorem OptCanon.ite {x y : Option State} (h : OptCanon x) (h' : OptCanon y) : OptCanon (if c then x else y) := by
  split <;> assumption
theorem PairCanon.ite {x y : Option (State × α)} (h : PairCanon x) (h' : PairCanon y) : PairCanon (if c then x else y) := by
  split <;> assumption
theorem EffCanon.ite {x y : Option Eff} (h : EffCanon x) (h' : EffCanon y) : EffCanon (if c then x else y) := by
  split <;> assumption
theorem ExcCanon.ite {x y : Except ε State} (h : ExcCanon x) (h' : ExcCanon y) : ExcCanon (if c then x else y) := by
  split <;> assumption

theorem Canon.foldl {f : State → α → State} {l : List α} (hf : ∀ s a, Canon s.mem → Canon (f s a).mem) (h : Canon s.mem) :
    Canon (l.foldl f s).mem :=
  List.foldlRecOn (motive := fun s : State => Canon s.mem) l f h fun q hq a _ => hf q a hq

theorem Canon.elim {o : Option α} {f : α → State} (h : Canon s.mem) (hf : ∀ a, Canon (f a).mem) :
    Canon (o.elim s f).mem := by
  cases o with
  | none => exact h
  | some a => exact hf a

theorem OptCanon.or {o p : Option State} (ho : OptCanon o) (hp : OptCanon p) : OptCanon (o.or p) := by
  cases o with
  | none => exact hp
  | some s => exact ho

theorem OptCanon.map {f : α → State} {o : Option α} (hf : ∀ a, Canon (f a).mem) : OptCanon (o.map f) := by
  cases o with
  | none => trivial
  | some a => exact hf a

theorem OptCanon.bind {f : α → Option State} {o : Option α} (hf : ∀ a, OptCanon (f a)) : OptCanon (o.bind f) := by
  cases o with
  | none => trivial
  | some a => exact hf a

theorem OptCanon.findSome? {f : α → Option State} {l : List α} (hf : ∀ a, OptCanon (f a)) : OptCanon (l.findSome? f) := by
  induction l with
  | nil => trivial
  | cons x r ih =>
    rw [List.findSome?_cons]
    have hx := hf x
    split
    · next e => rwa [e] at hx
    · exact ih

theorem SysAns.Canon.of {o : Option State} (h : OptCanon o) : (SysAns.of o).Canon := by
  cases o with
  | none => trivial
  | some s => exact h

/-! ## The state out of an answer that a `match` takes apart -/

theorem Canon.of_fst {x : State × α} {a : α} (e : x = (s', a)) (h : Canon x.1.mem) : Canon s'.mem := by
  rwa [e] at h
theorem OptCanon.some {o : Option State} (h : OptCanon o) (e : o = some s) : Canon s.mem := by
  rwa [e] at h
theorem OptCanon.getD {o : Option State} (h : OptCanon o) (h' : Canon s.mem) : Canon (o.getD s).mem := by
  cases o with
  | none => exact h'
  | some s => exact h
theorem PairCanon.some {a : α} {o : Option (State × α)} (h : PairCanon o) (e : o = Option.some (s, a)) : Canon s.mem := by
  rwa [e] at h
theorem ExcCanon.ok {o : Except ε State} (h : ExcCanon o) (e : o = .ok s) : Canon s.mem := by
  rwa [e] at h
theorem EffCanon.some {o : Option Eff} {r : Eff} (h : EffCanon o) (e : o = Option.some r) : r.Canon := by
  rwa [e] at h
end

section
variable {s s' : State}

/-! ## Parts of the state, counters, memory and trace -/

theorem Canon.setTeam {t} (h : Canon s.mem) : Canon (s.setTeam t).mem := h.update
theorem Canon.dropTeam {t} (h : Canon s.mem) : Canon (s.dropTeam t).mem := h.update
theorem Canon.modTeam {t f} (h : Canon s.mem) : Canon (s.modTeam t f).mem := h.of_eq (s.modTeam_mem t f)
theorem Canon.setPart {p x} (h : Canon s.mem) : Canon (s.setPart p x).mem := h.update
theorem Canon.modPart {p f} (h : Canon s.mem) : Canon (s.modPart p f).mem := h.setPart
theorem Canon.setCore {c x} (h : Canon s.mem) : Canon (s.setCore c x).mem := h.update
theorem Canon.modCore {c f} (h : Canon s.mem) : Canon (s.modCore c f).mem := h.setCore
theorem Canon.setSlice {l x} (h : Canon s.mem) : Canon (s.setSlice l x).mem := h.update
theorem Canon.modSlice {l f} (h : Canon s.mem) : Canon (s.modSlice l f).mem := h.setSlice
theorem Canon.setDie {d x} (h : Canon s.mem) : Canon (s.setDie d x).mem := h.update
theorem Canon.modDie {d f} (h : Canon s.mem) : Canon (s.modDie d f).mem := h.setDie
theorem Canon.modCutTeam {n p t f} (h : Canon s.mem) : Canon (s.modCutTeam n p t f).mem := h.modPart
theorem Canon.modWork {p t f} (h : Canon s.mem) : Canon (s.modWork p t f).mem := .ite h.modTeam h.modTeam.modCutTeam
theorem Canon.asOld {n f} (h : Canon s.mem) (hf : ∀ s, Canon s.mem → Canon (f s).mem) : Canon (s.asOld n f).mem :=
  (hf _ h.update).update
theorem Canon.wait (h : Canon s.mem) : Canon s.wait.mem := h.update
theorem Canon.setPr {p key v} (h : Canon s.mem) : Canon (s.setPr p key v).mem := h.modPart
theorem Canon.setMr {n v} (h : Canon s.mem) : Canon (s.setMr n v).mem := h.update
theorem Canon.bump {p key n} (h : Canon s.mem) : Canon (s.bump p key n).mem := h.setPr
theorem Canon.putByte {pa b} (h : Canon s.mem) : Canon (s.putByte pa b).mem := h.set.update
theorem Canon.setPoison {pa m} (h : Canon s.mem) : Canon (s.setPoison pa m).mem := h.update
theorem Canon.unpoison {pa} (h : Canon s.mem) : Canon (s.unpoison pa).mem := h.setPoison
theorem Canon.noteUndo {p pa b} (h : Canon s.mem) : Canon (s.noteUndo p pa b).mem := h.of_eq (s.noteUndo_mem p pa b)
theorem Canon.noteSafe {p pa b} (h : Canon s.mem) : Canon (s.noteSafe p pa b).mem := h.of_eq (s.noteSafe_mem p pa b)
theorem Canon.dropFar {line} (h : Canon s.mem) : Canon (s.dropFar line).mem := h.update
theorem Canon.dropHere {pa} (h : Canon s.mem) : Canon (s.dropHere pa).mem := h.of_eq (s.dropHere_mem pa)
theorem Canon.storeByte {p pa b} (h : Canon s.mem) : Canon (s.storeByte p pa b).mem :=
  h.noteUndo.noteSafe.putByte.unpoison.dropHere
theorem Canon.storeBytes {p l} (h : Canon s.mem) : Canon (s.storeBytes p l).mem := State.storeBytes_wf p l h
theorem Canon.poisonGranules {l} (h : Canon s.mem) : Canon (s.poisonGranules l).mem := h.of_eq (s.poisonGranules_mem l)
theorem Canon.writePhys {pa l} (h : Canon s.mem) : Canon (s.writePhys pa l).mem := State.writePhys_wf pa l h
theorem Canon.sendDev {p gslot node payload} (h : Canon s.mem) : Canon (s.sendDev p gslot node payload).mem := h.modPart
theorem Canon.sendSup {p l} (h : Canon s.mem) : Canon (s.sendSup p l).mem := h.of_eq (s.sendSup_counts p l).mem
theorem Canon.tracePacket {t pc p} (h : Canon s.mem) : Canon (s.tracePacket t pc p).mem :=
  h.of_eq (s.tracePacket_counts t pc p).mem
theorem Canon.traceTrap {t sub code pc} (h : Canon s.mem) : Canon (s.traceTrap t sub code pc).mem := h.tracePacket
theorem Canon.traceUni {t sub} (h : Canon s.mem) : Canon (s.traceUni t sub).mem := h.tracePacket
theorem Canon.traceInd {t target} (h : Canon s.mem) : Canon (s.traceInd t target).mem := h.tracePacket
theorem Canon.countEvent {p d e n} (h : Canon s.mem) : Canon (s.countEvent p d e n).mem :=
  h.of_eq (OnlyCounts.countEvent s p d e n).mem
theorem Canon.lccAdd {p c b n} (h : Canon s.mem) : Canon (s.lccAdd p c b n).mem := .ite h h.bump
theorem Canon.lccPass {x n} (h : Canon s.mem) : Canon (s.lccPass x n).mem := .foldl (fun _ _ h' => h'.lccAdd) h
theorem Canon.spend {p l c} (h : Canon s.mem) : Canon (State.spend p l c s).1.mem := by
  induction l generalizing c s with
  | nil => exact h
  | cons x r ih =>
    rw [State.spend]
    exact .ite_fst (ih h.lccPass) (ih h)

theorem Canon.slotClocks {p core c slot} (h : Canon s.mem) : Canon (s.slotClocks p core c slot).mem :=
  h.spend.lccAdd.modCore
theorem Canon.profNotice {p dev} (h : Canon s.mem) : Canon (s.profNotice p dev).mem :=
  h.of_parts (s.onlyParts_profNotice p dev)

/-! ## Translation, the home slices, lines on the move -/

theorem Canon.lookupDie {d p va} (h : Canon s.mem) : Canon (s.lookupDie d p va).1.mem :=
  h.of_eq (s.lookupDie_counts d p va).mem
theorem Canon.dropTlb {p f} (h : Canon s.mem) : Canon (s.dropTlb p f).mem := h.update
theorem Canon.xlate {c p l} (h : Canon s.mem) : Canon (s.xlate c p l).1.mem := h.of_eq (s.xlate_counts c p l).mem
theorem Canon.checkRange {c p level k cl va n} (h : Canon s.mem) : Canon (s.checkRange c p level k cl va n).1.mem :=
  h.of_eq (s.checkRange_counts c p level k cl va n).mem
theorem Canon.sends {ms} (h : Canon s.mem) : Canon (s.sends ms).mem := .ite h.update h.update
theorem Canon.say {m} (h : Canon s.mem) : Canon (s.say m).mem := h.sends
theorem Canon.setRegion {p r x} (h : Canon s.mem) : Canon (s.setRegion p r x).mem := .ite h.modPart h
theorem Canon.writeVirt {p va l} (h : Canon s.mem) : Canon (s.writeVirt p va l).mem := State.writeVirt_wf p va l h
theorem Canon.noteRegion {p r live} (h : Canon s.mem) : Canon (s.noteRegion p r live).mem := .ite h h.writeVirt
theorem Canon.reclaim {p r f g} (h : Canon s.mem) : Canon (s.reclaim p r f g).mem := by
  unfold State.reclaim
  dsimp only
  refine .setRegion ?_
  split
  · exact h.storeBytes
  · exact h

theorem Canon.noteNode {p g n} (h : Canon s.mem) : Canon (s.noteNode p g n).mem := by
  unfold State.noteNode
  split
  · split
    · exact h.writeVirt
    · exact h
  · exact h

theorem Canon.evictLine {line} (h : Canon s.mem) : Canon (s.evictLine line).mem := by
  unfold State.evictLine
  refine .foldl (fun s a h' => ?_) h
  dsimp only
  exact .ite (.foldl (fun _ _ h' => h'.modPart.noteNode) h') h'

theorem Canon.putCached {sl line} (h : Canon s.mem) : Canon (s.putCached sl line).mem := by
  unfold State.putCached
  dsimp only
  split
  · exact h.evictLine.modSlice.update
  · exact h.modSlice.update

theorem Canon.dropCached {sl line} (h : Canon s.mem) : Canon (s.dropCached sl line).mem := h.modSlice
theorem Canon.moveCached {o n line} (h : Canon s.mem) : Canon (s.moveCached o n line).mem := h.dropCached.putCached
theorem Canon.setRline {sl line x} (h : Canon s.mem) : Canon (s.setRline sl line x).mem := h.modSlice
theorem Canon.dropRline {sl line} (h : Canon s.mem) : Canon (s.dropRline sl line).mem := h.modSlice
theorem Canon.freePlaces {t f} (h : Canon s.mem) : Canon (s.freePlaces t f).mem := h.update
theorem Canon.park {t seq dst accs acq} (h : Canon s.mem) : Canon (s.park t seq dst accs acq).mem := by
  unfold State.park
  dsimp only
  split
  · exact .noteRegion (.setRegion (.foldl (fun _ _ h' => h'.modSlice) h.freePlaces.modTeam.update))
  · exact .foldl (fun _ _ h' => h'.modSlice) h.freePlaces.modTeam.update

theorem Canon.parkBlocked {id seq} (h : Canon s.mem) : Canon (s.parkBlocked id seq).mem := by
  unfold State.parkBlocked
  split
  · exact h
  split
  · exact h.park
  · exact h

theorem Canon.unblock {id seq} (h : Canon s.mem) : Canon (s.unblock id seq).mem := h.freePlaces.modTeam
theorem Canon.denyForeign {d code id seq} (h : Canon s.mem) : Canon (s.denyForeign d code id seq).mem := h.update.say
theorem Canon.movePlaces {lost l} (h : Canon s.mem) : Canon (s.movePlaces lost l).mem := by
  induction l generalizing s lost with
  | nil => exact h
  | cons x r ih =>
    rw [State.movePlaces]
    split
    · exact ih h
    split
    · exact ih h.modSlice
    · refine ih ?_
      split
      · exact h.denyForeign
      · exact .ite h.unblock h.parkBlocked

theorem Canon.takeOut {f} (h : Canon s.mem) : Canon (s.takeOut f).1.mem := h.update
theorem Canon.landGranule {o n g} (h : Canon s.mem) : Canon (s.landGranule o n g).mem := by
  unfold State.landGranule
  refine .foldl (fun s a h' => ?_) h
  dsimp only
  exact .ite h'.reclaim.noteRegion h'

theorem Canon.moveLine {line} (h : Canon s.mem) : Canon (s.moveLine line).mem := by
  unfold State.moveLine
  split
  · refine .ite h ?_
    extract_lets s1 s2 s3
    have h2 : Canon s2.mem := .ite h.update.moveCached h.update
    refine .movePlaces (.landGranule (.takeOut (s := s3) ?_))
    dsimp only [s3]
    split
    · exact h2.dropRline.setRline
    · exact h2
  · exact h

theorem Canon.moveLines {l} (h : Canon s.mem) : Canon (s.moveLines l).mem := by
  induction l generalizing s with
  | nil => exact h
  | cons x r ih =>
    rw [State.moveLines]
    exact ih h.moveLine

theorem Canon.reach {p line} (h : Canon s.mem) : Canon (s.reach p line).mem := by
  unfold State.reach
  split
  · dsimp only
    split
    · exact .ite h.moveLine h.moveLine.putCached.countEvent
    · exact h.moveLine
  · exact h

theorem Canon.reachLines {p l} (h : Canon s.mem) : Canon (s.reachLines p l).mem := by
  induction l generalizing s with
  | nil => exact h
  | cons x r ih =>
    rw [State.reachLines]
    exact ih h.reach

/-! ## Operands, code addresses, faults -/

theorem Canon.fetchWord {t va} (h : Canon s.mem) : Canon (s.fetchWord t va).1.mem := h.of_eq (s.fetchWord_counts t va).mem
theorem Canon.fetchWords {t va n} (h : Canon s.mem) : Canon (s.fetchWords t va n).1.mem :=
  h.of_eq (s.fetchWords_counts t va n).mem
theorem Canon.checkTarget {t a} (h : Canon s.mem) : Canon (s.checkTarget t a).1.mem :=
  h.of_eq (s.checkTarget_counts t a).mem
theorem Canon.rcvAt {t a} (h : Canon s.mem) : Canon (s.rcvAt t a).1.mem := h.of_eq (s.rcvAt_counts t a).mem
theorem Canon.fetchClause {t a} (h : Canon s.mem) : Canon (s.fetchClause t a).1.mem := by
  unfold State.fetchClause
  split
  · next e => exact of_fst e h.fetchWord
  · next e =>
      have h1 := of_fst e h.fetchWord
      split
      · exact h1
      dsimp only
      split
      · next e' => exact of_fst e' h1.fetchWords
      · next e' =>
          have h2 := of_fst e' h1.fetchWords
          split
          · next e'' => exact of_fst e'' h2.fetchWords
          · next e'' => exact of_fst e'' h2.fetchWords

theorem Canon.clearYld {t} (h : Canon s.mem) : Canon (s.clearYld t).mem := h.update
theorem Canon.traceDelivery {t} (h : Canon s.mem) : Canon (s.traceDelivery t).mem :=
  h.of_eq (s.traceDelivery_counts t).mem
theorem Canon.startClause {t c k} (h : Canon s.mem) : Canon (s.startClause t c k).mem :=
  .ite h.traceDelivery.setTeam.clearYld.tracePacket h.traceDelivery.setTeam.clearYld
theorem Canon.push {t e} (h : Canon s.mem) : Canon (s.push t e).1.mem := .ite_fst h.writePhys h
theorem Canon.takeFault {t f} (h : Canon s.mem) : Canon (s.takeFault t f).mem := h.of_eq (s.takeFault_team t f).mem
theorem Canon.raise {t f} (h : Canon s.mem) : Canon (s.raise t f).mem := h.of_eq (s.raise_team t f).mem
theorem Canon.arrive {t a} (h : Canon s.mem) : Canon (s.arrive t a).mem := h.of_eq (s.arrive_team t a).mem

/-! ## What an instruction goes through before and after its effect -/

theorem Canon.fillAll {t l} (h : Canon s.mem) : Canon (s.fillAll t l).1.mem := by
  induction l generalizing s t with
  | nil => exact h
  | cons x r ih =>
    rw [State.fillAll]
    exact .ite_fst (.ite_fst h (ih h.bump.countEvent)) (ih h)

theorem Canon.debugStop {t code info s62} (h : Canon s.mem) : Canon (s.debugStop t code info s62).mem := h.setTeam
theorem Canon.debugEvent {t code info s62 c} (h : Canon s.mem) : Canon (s.debugEvent t code info s62 c).mem :=
  .ite h.debugStop h.raise
theorem Canon.fills {t e a} (h : Canon s.mem) : PairCanon (s.fills t e a) := by
  unfold State.fills
  dsimp only
  split
  · trivial
  split
  · next e => exact of_fst e h.fillAll
  · next e => exact .ite (of_fst e h.fillAll).fillAll trivial

theorem Canon.gate {t i e n} (h : Canon s.mem) : (s.gate t i e n).Canon := by
  unfold State.gate
  split
  · trivial
  split
  · trivial
  dsimp only
  split
  · exact h
  split
  · trivial
  split
  · trivial
  split
  · exact h
  split
  · trivial
  split
  · trivial
  · next e => exact h.fills.some e
  · next e => split <;> exact h.fills.some e

theorem Canon.account {t e on} (h : Canon s.mem) : Canon (s.account t e on).mem := h.of_eq (s.account_counts t e on).mem
theorem Canon.pendAdd {t la ctr k o performed dsts land} (h : Canon s.mem) :
    Canon (s.pendAdd t la ctr k o performed dsts land).mem :=
  h.modTeam
theorem Canon.resultWrites {t la dsts ws} (h : Canon s.mem) : Canon (s.resultWrites t la dsts ws).mem :=
  .ite h.modTeam h.pendAdd
theorem Canon.yieldAfter {t} (h : Canon s.mem) : Canon (s.yieldAfter t).mem := by
  unfold State.yieldAfter
  split
  · exact .ite h.modTeam h
  · exact h

theorem Canon.moveOn {t} (h : Canon s.mem) : Canon (s.moveOn t).mem := by
  unfold State.moveOn
  split
  · split
    · exact h.arrive.yieldAfter
    · exact h
  · exact h.modTeam

theorem Canon.advance {t} (h : Canon s.mem) : Canon (s.advance t).mem := h.modTeam.moveOn
theorem Canon.prepare {t e a} (h : Canon s.mem) : Canon (s.prepare t e a).mem := h.setTeam.account
theorem Canon.fallsInto {t} (h : Canon s.mem) : Canon (s.fallsInto t).1.mem := h.of_eq (s.fallsInto_counts t).mem
theorem Canon.conclude {t r} (h : Canon s.mem) (hr : r.Canon) : Canon (s.conclude t r).mem := by
  unfold State.conclude
  split
  · exact h.wait
  · exact h.raise
  · exact .raise hr
  · exact h.debugEvent
  · exact .yieldAfter (.modTeam hr)
  · exact hr
  · split
    · next e => exact (of_fst e h.fallsInto).raise
    · exact .modTeam hr
  · split
    · next e => exact (of_fst e h.fallsInto).raise
    · exact .advance hr
  split
  · next e => exact (of_fst e h.checkTarget).raise
  dsimp only
  split
  · exact .yieldAfter (.arrive (.modTeam hr))
  · exact .modTeam hr

theorem Canon.traceNotTaken {t opc} (h : Canon s.mem) : Canon (s.traceNotTaken t opc).mem := .ite h.traceUni h
theorem Canon.issueRun {n i eff} (h : Canon s.mem) (he : ∀ s t, Canon s.mem → (eff s t).Canon) :
    OutCanon (Machine.issueRun n i eff s) := by
  unfold Machine.issueRun
  split
  · next t x _ _ =>
    have hg : (s.gate t i x n).Canon := h.gate
    split
    · exact h.wait
    · next e =>
      rw [e] at hg
      exact .conclude (.setTeam hg) (.traceNotTaken (.account (.setTeam hg)))
    · next e =>
      rw [e] at hg
      exact .raise hg
    · exact h.debugEvent
    · next e =>
      rw [e] at hg
      exact .conclude (.setTeam hg) (he _ _ (.prepare hg))
  · trivial

theorem Canon.issue {i eff} (h : Canon s.mem) (he : ∀ s t, Canon s.mem → (eff s t).Canon) :
    OutCanon (Machine.issue i eff s) :=
  h.issueRun he

/-! ## Scalar, vector and team-wide instructions -/

theorem Canon.scalarRes {t d v} (h : Canon s.mem) : (scalarRes s t d v).Canon := h.modTeam
theorem Canon.scal1 {x f t} (h : Canon s.mem) : (scal1 x f s t).Canon := h.scalarRes
theorem Canon.scal2 {x f t} (h : Canon s.mem) : (scal2 x f s t).Canon := h.scalarRes
theorem Canon.scal3 {x f t} (h : Canon s.mem) : (scal3 x f s t).Canon := h.scalarRes
theorem Canon.scalI {x f t} (h : Canon s.mem) : (scalI x f s t).Canon := h.scalarRes
theorem Canon.scmpEff {cond ty bit x t} (h : Canon s.mem) : (scmpEff cond ty bit x s t).Canon := h.scalarRes
theorem Canon.sbfiEff {x t} (h : Canon s.mem) : (sbfiEff x s t).Canon := h.scalarRes
theorem Canon.scvtEff {c x t} (h : Canon s.mem) : (scvtEff c x s t).Canon := h.scalarRes
theorem Canon.slitEff {a keep x t} (h : Canon s.mem) : (slitEff a keep x s t).Canon := h.scalarRes
theorem Canon.sbfiImmEff {x t} (h : Canon s.mem) : (sbfiImmEff x s t).Canon := h.scalarRes
theorem Canon.yieldEff {t} (h : Canon s.mem) : (yieldEff s t).Canon := h.modTeam
theorem Canon.readTime {p} (h : Canon s.mem) : Canon (s.readTime p).mem := h.setPr
theorem Canon.srdEff {r g d t} (h : Canon s.mem) : (srdEff r g d s t).Canon := by
  unfold Machine.srdEff
  split
  · exact h.readTime.scalarRes
  · exact h.modTeam
  · exact h.modTeam
  · exact h.modTeam
  · exact h.scalarRes

theorem Canon.vecRes {t g wide d f} (h : Canon s.mem) : (vecRes s t g wide d f).Canon := h.modTeam
theorem Canon.vecFlt {t g d f} (h : Canon s.mem) : (vecFlt s t g d f).Canon := h.modTeam
theorem Canon.vec1 {wide x f t} (h : Canon s.mem) : (vec1 wide x f s t).Canon := h.vecRes
theorem Canon.vec2 {wide x f t} (h : Canon s.mem) : (vec2 wide x f s t).Canon := h.vecRes
theorem Canon.vec3 {wide x f t} (h : Canon s.mem) : (vec3 wide x f s t).Canon := h.vecRes
theorem Canon.vecI {wide x f t} (h : Canon s.mem) : (vecI wide x f s t).Canon := h.vecRes
theorem Canon.vecCount {wide x f t} (h : Canon s.mem) : (vecCount wide x f s t).Canon := h.vecRes
theorem Canon.vbfiEff {x t} (h : Canon s.mem) : (vbfiEff x s t).Canon := h.vecRes
theorem Canon.bitEff {g d b f a t} (h : Canon s.mem) : (bitEff g d b f a s t).Canon := h.modTeam
theorem Canon.vcmpEff {cond ty bit x t} (h : Canon s.mem) : (vcmpEff cond ty bit x s t).Canon := h.bitEff
theorem Canon.flt2 {rm x f t} (h : Canon s.mem) : (flt2 rm x f s t).Canon := h.vecFlt
theorem Canon.flt3 {rm x f t} (h : Canon s.mem) : (flt3 rm x f s t).Canon := h.vecFlt
theorem Canon.fcmpEff {cond ty bit x t} (h : Canon s.mem) : (fcmpEff cond ty bit x s t).Canon := h.bitEff
theorem Canon.longEff {x f t} (h : Canon s.mem) : (longEff x f s t).Canon := h.modTeam.resultWrites
theorem Canon.long1 {x f t} (h : Canon s.mem) : (long1 x f s t).Canon := h.longEff
theorem Canon.fclassEff {f x t} (h : Canon s.mem) : (fclassEff f x s t).Canon := h.vecRes
theorem Canon.cvtEff {nosat rm dst src x t} (h : Canon s.mem) : (cvtEff nosat rm dst src x s t).Canon := h.modTeam
theorem Canon.pack2 {fm rm x f t} (h : Canon s.mem) : (pack2 fm rm x f s t).Canon := h.vecFlt
theorem Canon.pack3 {fm rm x f t} (h : Canon s.mem) : (pack3 fm rm x f s t).Canon := h.vecFlt
theorem Canon.shflEff {op x t} (h : Canon s.mem) : (shflEff op x s t).Canon := h.vecRes
theorem Canon.bcastEff {x t} (h : Canon s.mem) : (bcastEff x s t).Canon := .ite h.scalarRes h.vecRes
theorem Canon.ballotEff {bit x t} (h : Canon s.mem) : (ballotEff bit x s t).Canon := h.modTeam
theorem Canon.voteEff {op dbit bit x t} (h : Canon s.mem) : (voteEff op dbit bit x s t).Canon := h.scalarRes
theorem Canon.tredEff {op x t} (h : Canon s.mem) : (tredEff op x s t).Canon := .ite h.modTeam.scalarRes h.modTeam.vecRes
theorem Canon.tscanEff {op x t} (h : Canon s.mem) : (tscanEff op x s t).Canon := h.modTeam.vecRes

/-! ## Accesses of a team -/

theorem Canon.checkReqs {t k cl bad l} (h : Canon s.mem) : Canon (s.checkReqs t k cl bad l).1.mem := by
  induction l generalizing s with
  | nil => exact h
  | cons x r ih =>
    rw [State.checkReqs]
    split
    · exact h
    split
    · exact h
    split
    · next e => exact of_fst e h.checkRange
    · next e =>
        have h1 := of_fst e h.checkRange
        split
        · next e' => exact of_fst e' (ih h1)
        · next e' => exact of_fst e' (ih h1)

theorem Eff.Canon.watching {t reads writes l k} (hk : k.Canon) : (s.watching t reads writes l k).Canon := by
  unfold State.watching
  split
  · trivial
  · exact hk

theorem Canon.putNear {t c} (h : Canon s.mem) : Canon (s.putNear t c).mem := h.modCore.update
theorem Canon.putFar {d c} (h : Canon s.mem) : Canon (s.putFar d c).mem := h.modDie.update
theorem Canon.trimFar {p} (h : Canon s.mem) : Canon (s.trimFar p).mem := h.update
theorem Canon.fillLine {t src line} (h : Canon s.mem) : Canon (s.fillLine t src line).mem := by
  unfold State.fillLine
  split
  · exact h
  dsimp only
  split
  · exact h
  · exact h.putNear
  · exact .ite h.reach.putNear.countEvent.putFar.countEvent h.reach.putNear.countEvent

theorem Canon.fillLines {t src l} (h : Canon s.mem) : Canon (s.fillLines t src l).mem := by
  induction l generalizing s with
  | nil => exact h
  | cons x r ih =>
    rw [State.fillLines]
    exact ih h.fillLine

theorem Canon.noteLoad {t src pas} (h : Canon s.mem) : Canon (s.noteLoad t src pas).mem := h.modCore.fillLines
theorem Canon.dropNear {c} (h : Canon s.mem) : Canon (s.dropNear c).mem := h.modCore
theorem Canon.dropNearLines {c line n} (h : Canon s.mem) : Canon (s.dropNearLines c line n).mem := h.modCore
theorem Canon.dropFarPeers {d} (h : Canon s.mem) : Canon (s.dropFarPeers d).mem := h.modDie
theorem Canon.acquire {t sc} (h : Canon s.mem) : Canon (s.acquire t sc).mem :=
  .ite (.dropFarPeers (.ite h.dropNear h)) (.ite h.dropNear h)
theorem Canon.acquireOf {t sc pas} (h : Canon s.mem) : Canon (s.acquireOf t sc pas).mem := .ite h h.acquire
theorem Canon.noteRelease {pas} (h : Canon s.mem) : Canon (s.noteRelease pas).mem := .ite h h.update
theorem Canon.homeStore {p pa b} (h : Canon s.mem) : Canon (s.homeStore p pa b).mem := .ite h.modPart h.storeByte
theorem Canon.homeStores {p l} (h : Canon s.mem) : Canon (s.homeStores p l).mem := by
  induction l generalizing s with
  | nil => exact h
  | cons x r ih =>
    rw [State.homeStores]
    exact ih h.homeStore

theorem Canon.dropPeerLines {d pas} (h : Canon s.mem) : Canon (s.dropPeerLines d pas).mem := .ite h h.modDie
theorem Canon.patchNear {core bytes} (h : Canon s.mem) : Canon (s.patchNear core bytes).mem := h.modCore
theorem Canon.bufStore {t seq counted rel va bytes} (h : Canon s.mem) :
    Canon (s.bufStore t seq counted rel va bytes).mem :=
  .ite h.modCore.patchNear (.ite h.modCore.noteRelease h.modCore)
theorem Canon.cancelFrom {t num r} (h : Canon s.mem) : Canon (s.cancelFrom t num r).1.mem := h.freePlaces
theorem Canon.performFault {t p f} (h : Canon s.mem) : Canon (s.performFault t p f).mem := by
  unfold State.performFault
  split
  next e => exact (of_fst e h.cancelFrom).raise

theorem Canon.lostLoad {t p a} (h : Canon s.mem) : OptCanon (s.lostLoad t p a) := by
  unfold State.lostLoad
  dsimp only
  split
  · trivial
  · exact h.update.cancelFrom.raise

/-! ## Memory, atomic, async-copy, lease and cache instructions -/

theorem Canon.withAccess {t kind cl bad reads writes l k} (h : Canon s.mem) (hk : ∀ s a, Canon s.mem → (k s a).Canon) :
    (withAccess s t kind cl bad reads writes l k).Canon := by
  unfold Machine.withAccess
  split
  · trivial
  · next e => exact .watching (hk _ _ (of_fst e h.checkReqs))

theorem Canon.ldEff {ty acq x t} (h : Canon s.mem) : (ldEff ty acq x s t).Canon := h.withAccess fun _ _ h' => h'.pendAdd
theorem Canon.stEff {ty rel x t} (h : Canon s.mem) : (stEff ty rel x s t).Canon :=
  h.withAccess fun _ _ h' => Canon.pendAdd (.ite h' h'.bufStore)
theorem Eff.Canon.withScratch {t l a off n al k} (hk : ∀ a, (k a).Canon) : (withScratch s t l a off n al k).Canon := by
  unfold Machine.withScratch
  split
  · trivial
  · exact hk _

theorem Canon.ldsEff {ty x t} (h : Canon s.mem) : (ldsEff ty x s t).Canon := .withScratch fun _ => h.pendAdd
theorem Canon.stsEff {ty x t} (h : Canon s.mem) : (stsEff ty x s t).Canon := .withScratch fun _ => h.pendAdd
theorem Canon.atomEff {op cas sc o ty res x t} (h : Canon s.mem) : (atomEff op cas sc o ty res x s t).Canon :=
  h.withAccess fun _ _ h' => h'.pendAdd
theorem Canon.atomsEff {op cas ty x t} (h : Canon s.mem) : (atomsEff op cas ty x s t).Canon :=
  .withScratch fun _ => h.pendAdd
theorem Canon.acpEff {tag x t} (h : Canon s.mem) : (acpEff tag x s t).Canon :=
  h.withAccess fun _ _ h' => h'.pendAdd.modTeam
theorem Canon.acpwEff {tag t} (h : Canon s.mem) : (acpwEff tag s t).Canon := .ite h trivial
theorem Canon.leaseEff {x t} (h : Canon s.mem) : (leaseEff x s t).Canon := by
  unfold Machine.leaseEff
  dsimp only
  split
  · trivial
  split
  · trivial
  · next e =>
      have h1 := of_fst e h.checkRange
      exact .ite trivial (.ite trivial (.ite trivial (.ite trivial h1.reachLines.modPart)))

theorem Canon.unleaseEff {x t} (h : Canon s.mem) : (unleaseEff x s t).Canon := .ite h.modPart trivial
theorem Canon.prefLine {t va} (h : Canon s.mem) : Canon (s.prefLine t va).1.mem := by
  unfold State.prefLine
  dsimp only
  split
  · next e => exact of_fst e h.checkRange
  · next e => split <;> exact of_fst e h.checkRange

theorem Canon.prefAt {t lv line} (h : Canon s.mem) : Canon (s.prefAt t lv line).mem := by
  unfold State.prefAt
  split
  · exact h.fillLine
  · exact h.reach
  · exact .ite h.reach.putFar h.reach

theorem Canon.prefAll {t lv l} (h : Canon s.mem) : Canon (s.prefAll t lv l).mem := by
  induction l generalizing s with
  | nil => exact h
  | cons x r ih =>
    rw [State.prefAll]
    split
    · next e => exact ih (of_fst e h.prefLine).prefAt
    · next e => exact ih (of_fst e h.prefLine)

theorem Canon.prefEff {lv x t} (h : Canon s.mem) : (prefEff lv x s t).Canon := h.prefAll
theorem Canon.cctlEff {op x t} (h : Canon s.mem) : (cctlEff op x s t).Canon := by
  unfold Machine.cctlEff
  dsimp only
  split
  · trivial
  split
  · trivial
  · next e =>
      have h1 := of_fst e h.xlate
      split
      · trivial
      · exact h1.pendAdd

theorem Canon.fenceEff {op sc t} (h : Canon s.mem) : (fenceEff op sc s t).Canon := by
  refine .ite trivial ?_
  extract_lets s1 s2
  have h1 : Canon s1.mem := .ite h h.acquire
  have h2 : Canon s2.mem := .ite h1 h1.modTeam
  exact Canon.ite h2.modTeam h2

/-! ## The matrix array, scratch rings and arrival words -/

theorem Canon.withBlockAnd {first t va n align k} (h : Canon s.mem) (hf : ∀ s w, EffCanon (first s w))
    (hk : ∀ s w, Canon s.mem → (k s w).Canon) : (withBlockAnd first s t va n align k).Canon := by
  unfold Machine.withBlockAnd
  dsimp only
  split
  · trivial
  split
  · trivial
  · next e =>
    have hs := of_fst e h.checkRange
    split
    · next e' => exact (EffCanon.ite (hf _ _) (show EffCanon none from trivial)).some e'
    refine .watching ?_
    split
    · trivial
    refine .ite trivial ?_
    split
    · trivial
    · exact hk _ _ hs

theorem EffCanon.blockFault {t va n align} : EffCanon (s.blockFault t va n align) := by
  unfold State.blockFault
  dsimp only
  split
  · trivial
  · split <;> trivial

theorem Canon.withBlock {t va n align k} (h : Canon s.mem) (hk : ∀ s w, Canon s.mem → (k s w).Canon) :
    (withBlock s t va n align k).Canon := h.withBlockAnd (fun _ _ => trivial) hk
theorem Canon.wakeArr {t} (h : Canon s.mem) : Canon (s.wakeArr t).mem := h.modCore
theorem Canon.enqueue {t op reuse f} (h : Canon s.mem) : Canon (s.enqueue t op reuse f).mem := h.modTeam.wakeArr
theorem Eff.Canon.withArray {t k} (hk : ∀ m, (k m).Canon) : (withArray t k).Canon := by
  unfold Machine.withArray
  split
  · trivial
  · exact hk _

theorem Canon.mfmtEff {x t} (h : Canon s.mem) : (mfmtEff x s t).Canon := by
  unfold Machine.mfmtEff
  refine .withArray fun _ => ?_
  dsimp only
  split
  · split
    · exact h.withBlock fun _ _ h' => .ite h'.enqueue trivial
    · trivial
  · exact h.withBlock fun _ _ h' => .ite h'.enqueue trivial

theorem Canon.mulEff {set n x t} (h : Canon s.mem) : (mulEff set n x s t).Canon := by
  unfold Machine.mulEff
  refine .withArray fun _ => ?_
  split
  · trivial
  · exact h.enqueue

theorem Canon.mzeroEff {x t} (h : Canon s.mem) : (mzeroEff x s t).Canon := .withArray fun _ => h.enqueue
theorem Eff.Canon.withBank {t x e k} (hk : ∀ a b, (k a b).Canon) : (withBank s t x e k).Canon :=
  .withArray fun _ => .ite trivial (.ite trivial (.ite trivial (hk _ _)))
theorem Canon.mldEff {x t} (h : Canon s.mem) : (mldEff x s t).Canon := .withBank fun _ _ => h.enqueue
theorem Canon.mstEff {f x t} (h : Canon s.mem) : (mstEff f x s t).Canon := .withBank fun _ _ => h.enqueue
theorem Canon.mwaitEff {t} (h : Canon s.mem) : (mwaitEff s t).Canon := .withArray fun _ => .ite trivial h.modTeam.wakeArr
theorem Eff.Canon.withRing {t q k} (hk : ∀ r, (k r).Canon) : (withRing t q k).Canon := by
  unfold Machine.withRing
  split
  · trivial
  · exact .ite trivial (hk _)

theorem Canon.takeSlot {t x r} (h : Canon s.mem) : (takeSlot s t x r).Canon := h.modTeam.resultWrites
theorem Canon.slotEff {drain q x t} (h : Canon s.mem) : (slotEff drain q x s t).Canon := by
  unfold Machine.slotEff
  refine .withRing fun _ => ?_
  split
  · trivial
  split
  · exact h.takeSlot
  split <;> trivial

theorem Canon.qtryEff {q x t} (h : Canon s.mem) : (qtryEff q x s t).Canon :=
  .withRing fun _ => .ite h.takeSlot h.resultWrites
theorem Canon.qstatEff {q x t} (h : Canon s.mem) : (qstatEff q x s t).Canon := .withRing fun _ => h.resultWrites
theorem Canon.qrelEff {q t} (h : Canon s.mem) : (qrelEff q s t).Canon :=
  .withRing fun _ => .ite trivial (.ite trivial h.modTeam)
theorem Canon.asetEff {x t} (h : Canon s.mem) : (asetEff x s t).Canon := by
  unfold Machine.asetEff
  dsimp only
  split
  · trivial
  · exact .ite trivial h.modTeam

theorem Canon.aaddEff {x t} (h : Canon s.mem) : (aaddEff x s t).Canon := by
  unfold Machine.aaddEff
  dsimp only
  split
  · trivial
  split
  · trivial
  split
  · trivial
  · exact h.modTeam

theorem Eff.Canon.withWord {t a k} (hk : ∀ a b, (k a b).Canon) : (withWord s t a k).Canon := by
  unfold Machine.withWord
  dsimp only
  split
  · trivial
  · exact .ite trivial (.ite trivial (hk _ _))

theorem Canon.awaitEff {x t} (h : Canon s.mem) : (awaitEff x s t).Canon := .withWord fun _ _ => .ite h.acquire trivial
theorem Canon.aqryEff {x t} (h : Canon s.mem) : (aqryEff x s t).Canon := .withWord fun _ _ => h.resultWrites

/-! ## Bulk copies -/

theorem Canon.xlateDie {d p l} (h : Canon s.mem) : Canon (s.xlateDie d p l).1.mem := by
  induction l generalizing s with
  | nil => exact h
  | cons x r ih =>
    rw [State.xlateDie]
    split
    · next e => exact of_fst e h.lookupDie
    · next e =>
        have h1 := of_fst e h.lookupDie
        split
        · next e' => exact of_fst e' (ih h1)
        · next e' => exact of_fst e' (ih h1)

theorem Canon.engineCheck {t lvl k ps} (h : Canon s.mem) : Canon (s.engineCheck t lvl k ps).1.mem := by
  unfold State.engineCheck
  split
  · next e => exact of_fst e h.xlateDie
  · next e =>
      have h1 := of_fst e h.xlateDie
      split
      · exact h1
      · split <;> exact h1

theorem Canon.engineSide {t lvl k rs} (h : Canon s.mem) : Canon (s.engineSide t lvl k rs).1.mem := by
  unfold State.engineSide
  split
  · next e => exact of_fst e h.engineCheck
  · next e => exact of_fst e h.engineCheck

theorem Canon.engineWrite {t l bad} (h : Canon s.mem) : Canon (s.engineWrite t l bad).mem :=
  h.modCore.homeStores.dropPeerLines.poisonGranules
theorem Canon.landFlight {t f is} (h : Canon s.mem) : Canon (s.landFlight t f is).1.mem := by
  unfold State.landFlight
  dsimp only
  split
  · exact h.modWork
  · exact h.engineWrite

theorem Canon.endFlight {t f} (h : Canon s.mem) : Canon (s.endFlight t f).1.mem := h.landFlight
theorem Canon.markStale {p f} (h : Canon s.mem) : Canon (s.markStale p f).mem := h.update
theorem Canon.arriveAdd {t off n} (h : Canon s.mem) : Canon (s.arriveAdd t off n).mem := by
  unfold State.arriveAdd
  split
  · exact h
  · exact .ite h.modPart.modCutTeam h.modWork

theorem Canon.rowsBad {t k len at_ l} (h : Canon s.mem) : Canon (s.rowsBad t k len at_ l).1.mem := by
  induction l generalizing s with
  | nil => exact h
  | cons x r ih =>
    rw [State.rowsBad]
    split
    · next e => exact of_fst e h.checkRange
    · next e => exact ih (of_fst e h.checkRange)

theorem Canon.copyBad {t w} (h : Canon s.mem) : Canon (s.copyBad t w).1.mem := by
  unfold State.copyBad
  dsimp only
  split
  · next e => exact of_fst e (.ite_fst h h.rowsBad)
  · next e =>
      have h1 := of_fst e (.ite_fst h h.rowsBad)
      exact .ite_fst h1 h1.rowsBad

theorem Canon.setCopies {d e l} (h : Canon s.mem) : Canon (s.setCopies d e l).mem := h.modDie
theorem EffCanon.copyFault {t w} : EffCanon (copyFault t s w) := by
  unfold Machine.copyFault Option.map
  split
  · split <;> trivial
  · trivial

theorem Canon.bcpEff {x t} (h : Canon s.mem) : (bcpEff x s t).Canon :=
  .ite trivial (h.withBlockAnd (fun _ _ => .copyFault) fun _ _ h' => .ite trivial h'.copyBad.setCopies.modTeam)
theorem Canon.rowStart {t lvl w r} (h : Canon s.mem) : Canon (s.rowStart t lvl w r).1.mem := by
  unfold State.rowStart
  split
  · next e => exact of_fst e (.ite_fst h h.engineSide)
  · next e =>
      have h1 := of_fst e (.ite_fst h h.engineSide)
      split
      · next e' => exact of_fst e' (.ite_fst h1 h1.engineSide)
      · next e' => exact of_fst e' (.ite_fst h1 h1.engineSide)

theorem Canon.rowOf {t c} (h : Canon s.mem) : Canon (s.rowOf t c).1.mem := by
  unfold State.rowOf
  split
  · exact h
  · exact h.rowStart

theorem Canon.addOwed {c} (h : Canon s.mem) : Canon (s.addOwed c).1.mem := .ite_fst h.arriveAdd h
theorem Canon.runRows {c n} (h : Canon s.mem) : Canon (s.runRows c n).1.mem := by
  induction n generalizing s c with
  | zero => exact h
  | succ k ih =>
    rw [State.runRows]
    split
    · exact h
    split
    · exact h
    split
    · next e => exact of_fst e h.rowOf
    · next e =>
        have h1 := of_fst e h.rowOf
        split
        · exact h1
        dsimp only
        exact ih h1.endFlight.addOwed

theorem Canon.rowStep {c what} (h : Canon s.mem) : Canon (s.rowStep c what).1.mem := by
  unfold State.rowStep
  split
  · exact h
  split
  · exact h.addOwed
  split
  · exact h
  · next e =>
      have h1 := of_fst e h.rowOf
      split
      · exact h1
      split
      · exact h1
      split
      · exact h1
      split
      next e' => exact of_fst e' h1.landFlight

theorem Canon.copyDone {d e c} (h : Canon s.mem) : Canon (s.copyDone d e c).mem :=
  .asOld h.setCopies fun _ h' => h'.modWork
theorem Canon.copyEnd {d e c status} (h : Canon s.mem) : Canon (s.copyEnd d e c status).mem :=
  .ite h.setCopies.modPart h.copyDone

/-! ## Stream engines -/

theorem Canon.sgoEff {x t} (h : Canon s.mem) : (sgoEff x s t).Canon := by
  unfold Machine.sgoEff
  extract_lets k
  split
  · trivial
  · trivial
  · extract_lets badRec go
    have hgo {s w} (h : Canon s.mem) : (go s w).Canon := .ite trivial (.ite trivial h.modTeam)
    exact h.withBlockAnd (fun _ _ => .ite .blockFault trivial) fun _ _ h' =>
      .ite (.ite trivial (h'.withBlock fun _ _ h'' => hgo h'')) (hgo h')

theorem Canon.sstopEff {x t} (h : Canon s.mem) : (sstopEff x s t).Canon := by
  unfold Machine.sstopEff
  dsimp only
  split
  · trivial
  · exact h.modTeam

theorem Canon.sqryEff {x t} (h : Canon s.mem) : (sqryEff x s t).Canon := by
  unfold Machine.sqryEff
  split
  · trivial
  · exact h.resultWrites

theorem Canon.qfenceEff {x t} (h : Canon s.mem) : (qfenceEff x s t).Canon := by
  unfold Machine.qfenceEff
  dsimp only
  split
  · trivial
  split
  · split <;> trivial
  · exact .ite h trivial

theorem Canon.tileOf {t r ahead} (h : Canon s.mem) : Canon (s.tileOf t r ahead).1.mem := by
  unfold State.tileOf
  extract_lets w k move
  have hm {off} : Canon (move off).1.mem := by
    dsimp only [move]
    split
    · next e => exact of_fst e h.engineSide
    · next e => exact of_fst e h.engineSide
  refine .ite_fst ?_ hm
  split
  · exact h
  · exact .ite_fst h (.ite_fst (.ite_fst h hm) (.ite_fst h hm))

theorem Canon.tileNext {t e j} (h : Canon s.mem) : Canon (s.tileNext t e j).1.mem := by
  unfold State.tileNext
  split
  · exact h
  split
  · exact h.tileOf
  · exact h

theorem Canon.tileAt {t e j} (h : Canon s.mem) : Canon (s.tileAt t e j).1.mem := by
  unfold State.tileAt
  split
  · next e => exact of_fst e h.tileNext
  · exact h.tileNext

theorem Canon.moveTile {t r f} (h : Canon s.mem) : Canon (s.moveTile t r f).mem :=
  .ite (.arriveAdd (.ite h.endFlight.modWork h.endFlight)) (.ite h.endFlight.modWork h.endFlight)
theorem Canon.finishTile {u k r f} (h : Canon s.mem) : Canon (s.finishTile u k r f).mem := h.moveTile.modWork
theorem Canon.tileComplete {t k} (h : Canon s.mem) : Canon (s.tileComplete t k).mem := by
  unfold State.tileComplete
  split
  · exact h
  split
  · next e => exact .asOld (of_fst e h.tileAt) fun _ h' => .ite h' h'.finishTile
  · exact h
  · exact h

theorem Canon.tileStep {t k j i} (h : Canon s.mem) : Canon (s.tileStep t k j i).mem := by
  unfold State.tileStep
  split
  · exact h
  split
  · exact h
  split
  · next e =>
      have h1 := of_fst e h.tileAt
      refine .asOld h1 fun s h' => ?_
      dsimp only
      exact .modWork (.ite_fst h' (.ite_fst h' h'.landFlight))
  · exact h
  · exact h

theorem Canon.engineFails {t k noAnswer} (h : Canon s.mem) : Canon (s.engineFails t k noAnswer).mem := by
  unfold State.engineFails
  split
  · exact h
  split
  · next e => exact .asOld (of_fst e h.tileNext) fun _ h' => h'.modWork
  · next e =>
      have h1 := of_fst e h.tileNext
      split
      · exact .asOld h1 fun _ h' => h'.modWork
      · exact h1
  · exact h

theorem Canon.drainEngine {t k} (h : Canon s.mem) : Canon (s.drainEngine t k).mem := by
  unfold State.drainEngine
  split
  · exact h
  split
  · exact h
  split
  · exact .modTeam (.asOld h fun _ h' => h'.finishTile)
  · exact h

theorem Canon.drainTiles {t} (h : Canon s.mem) : Canon (s.drainTiles t).1.mem :=
  .foldl (fun _ _ h' => h'.drainEngine) h.setTeam

/-! ## Records and emission -/

theorem Canon.rrdEff {x t} (h : Canon s.mem) : (rrdEff x s t).Canon := by
  unfold Machine.rrdEff
  dsimp only
  split
  · exact .ite trivial (.ite trivial h.resultWrites)
  split
  · trivial
  · exact h.resultWrites

theorem Canon.rlenEff {x t} (h : Canon s.mem) : (rlenEff x s t).Canon := .ite (.ite trivial h.resultWrites) h.resultWrites
theorem Canon.sendEmission {t seq x routed} (h : Canon s.mem) : Canon (s.sendEmission t seq x routed).mem := h.modPart
theorem Canon.emitEff {q team ls la t} (h : Canon s.mem) : (emitEff q team ls la s t).Canon := by
  unfold Machine.emitEff
  split
  · dsimp only
    split
    · trivial
    split
    · trivial
    · exact .ite h (Canon.modTeam (.pendAdd (.foldl (fun _ _ h' => h'.sendEmission) h)))
  · trivial

theorem Canon.emitVEff {edge x t} (h : Canon s.mem) : (emitVEff edge x s t).Canon := .ite trivial h.emitEff
theorem Canon.emitTeamEff {edge x t} (h : Canon s.mem) : (emitTeamEff edge x s t).Canon := .ite trivial h.emitEff
theorem Canon.emitxEff {len edge x t} (h : Canon s.mem) : (emitxEff len edge x s t).Canon := h.emitEff
theorem Canon.emitxTeamEff {len edge x t} (h : Canon s.mem) : (emitxTeamEff len edge x s t).Canon := h.emitEff

/-! ## Ordered reductions -/

theorem Canon.discard {sl n} (h : Canon s.mem) : Canon (s.discard sl n).mem := h.modSlice
theorem Canon.addF32 {p die pa x} (h : Canon s.mem) : Canon (s.addF32 p die pa x).mem :=
  .elim h.reach.storeBytes fun _ => h.reach.storeBytes.dropPeerLines
theorem Canon.applyNext {x n} (h : Canon s.mem) : Canon (applyNext s x n).1.mem := by
  induction n generalizing s x with
  | zero => exact h
  | succ k ih =>
    rw [applyNext]
    split
    · exact h
    split
    · exact h
    · exact ih h.addF32

theorem Canon.settleLine {sl line x} (h : Canon s.mem) : Canon (s.settleLine sl line x).mem := by
  unfold State.settleLine
  split
  next e => exact (of_fst e h.applyNext).setRline

theorem Canon.pendingGap {pa} (h : Canon s.mem) : PairCanon (s.pendingGap pa) := by
  unfold State.pendingGap
  split
  · trivial
  split
  · exact .ite h.setRline trivial
  · trivial

theorem Canon.setLine {t a n} (h : Canon s.mem) : OptCanon (s.setLine t a n) := by
  unfold State.setLine
  split
  · exact h
  dsimp only
  split
  · trivial
  split
  · exact h.dropRline
  split
  · exact .ite trivial h.setRline
  · exact h.discard.settleLine

theorem Canon.setLines {t l} (h : Canon s.mem) : Canon (s.setLines t l).1.mem := by
  induction l generalizing s with
  | nil => exact h
  | cons x r ih =>
    rw [State.setLines]
    split
    · exact h
    · next e => exact ih (h.setLine.some e)

theorem Canon.firstGap {l} (h : Canon s.mem) : PairCanon (s.firstGap l) := by
  induction l with
  | nil => trivial
  | cons x r ih =>
    rw [State.firstGap]
    split
    · split
      · next e => exact e ▸ h.pendingGap
      · exact ih
    · exact ih

theorem Canon.rdosetEff {x t} (h : Canon s.mem) : (rdosetEff x s t).Canon := by
  unfold Machine.rdosetEff
  dsimp only
  split
  · trivial
  · next e =>
      have h1 := of_fst e h.checkReqs
      refine .watching ?_
      split
      · next e' => exact h1.moveLines.firstGap.some e'
      · trivial
      · exact h1.moveLines.setLines

theorem Canon.rdoEff {x t} (h : Canon s.mem) : (rdoEff x s t).Canon := by
  unfold Machine.rdoEff
  dsimp only
  split
  · trivial
  · next e => exact .watching (of_fst e h.checkReqs).pendAdd

theorem Canon.contribute {die again a x idx} (h : Canon s.mem) : OptCanon (s.contribute die again a x idx) := by
  unfold State.contribute
  split
  · exact h
  dsimp only
  split
  · exact h
  split
  · exact h.discard
  · exact .ite h.discard (.ite h.settleLine trivial)

/-! ## Versioned memory -/

theorem Canon.ldvEff {ty sc acq x t} (h : Canon s.mem) : (ldvEff ty sc acq x s t).Canon :=
  h.withAccess fun _ _ h' => h'.pendAdd
theorem Canon.ldvLatestEff {ty sc acq x t} (h : Canon s.mem) : (ldvLatestEff ty sc acq x s t).Canon :=
  h.withAccess fun _ _ h' => h'.pendAdd
theorem Canon.stvEff {ty rel x t} (h : Canon s.mem) : (stvEff ty rel x s t).Canon := h.withAccess fun _ _ h' => h'.pendAdd
theorem Canon.vqryEff {x t} (h : Canon s.mem) : (vqryEff x s t).Canon := h.withAccess fun _ _ h' => h'.pendAdd
theorem Canon.vflrEff {x t} (h : Canon s.mem) : (vflrEff x s t).Canon := h.withAccess fun _ _ h' => h'.pendAdd
theorem Canon.fillVersions {t l} (h : Canon s.mem) : Canon (s.fillVersions t l).mem := by
  induction l generalizing s with
  | nil => exact h
  | cons x r ih =>
    rw [State.fillVersions]
    exact .ite (ih (.ite h.putNear.putFar h.putNear)) (ih h)

theorem Canon.dropVersions {p r f} (h : Canon s.mem) : Canon (s.dropVersions p r f).mem := h.update
theorem Canon.vLost {t p a v} (h : Canon s.mem) : OptCanon (s.vLost t p a v) := .ite h.lostLoad trivial
theorem Canon.vStop {t p a} (h : Canon s.mem) : OptCanon (s.vStop t p a) := .or h.vLost (.map fun _ => h.performFault)
theorem Canon.takePlaces {l} (h : Canon s.mem) : Canon (s.takePlaces l).mem := by
  induction l generalizing s with
  | nil => exact h
  | cons x r ih =>
    rw [State.takePlaces]
    exact ih h.modSlice

theorem Canon.clearFilters (h : Canon s.mem) : Canon s.clearFilters.mem := h.update
theorem Canon.vAcquire {t acq accs f} (h : Canon s.mem) : Canon (s.vAcquire t acq accs f).mem := by
  unfold State.vAcquire
  split
  · exact .ite h h.acquire
  · exact h

theorem Canon.vDeliver {t p dst accs acq bytes} (h : Canon s.mem) : Canon (s.vDeliver t p dst accs acq bytes).mem :=
  h.vAcquire.modTeam.clearFilters
theorem Canon.tryVersion {t p dst accs acq parked} (h : Canon s.mem) :
    Canon (s.tryVersion t p dst accs acq parked).mem := by
  have hr := (h.freePlaces (t := t.id) (f := (· == p.seq))).reachLines (p := t.part)
    (l := (accs.map (·.gran (s.freePlaces t.id (· == p.seq)))).eraseDups)
  unfold State.tryVersion
  dsimp only
  split
  · next e => exact (OptCanon.some (.findSome? fun _ => hr.vStop) e).clearFilters
  · exact .ite hr.fillVersions.vDeliver (.ite hr.takePlaces.modTeam.clearFilters (.ite hr hr.park))

theorem Canon.retry {id seq} (h : Canon s.mem) : Canon (s.retry id seq).mem := by
  unfold State.retry
  split
  · exact h
  split
  · exact h
  split
  · exact .ite h.tryVersion h
  · exact h

theorem Canon.retryParked {f} (h : Canon s.mem) : Canon (s.retryParked f).mem := by
  unfold State.retryParked
  refine .foldl (fun s a h' => ?_) h
  dsimp only
  exact h'.retry

theorem Canon.firstTry {id seq} (h : Canon s.mem) : Canon (s.firstTry id seq).mem := by
  unfold State.firstTry
  split
  · exact h
  split
  · dsimp only
    split
    · exact h.retryParked
    split
    · exact h.retryParked
    split
    · exact .ite h.retryParked.tryVersion h.retryParked
    · exact h.retryParked
  · exact h

theorem Canon.ldvWake (h : Canon s.mem) : Canon s.ldvWake.mem := by
  unfold State.ldvWake
  split
  · split
    · exact .ite h.vDeliver h.firstTry
    · exact h.retry
    · exact h
  · exact h

theorem Canon.retryOn {accs} (h : Canon s.mem) : Canon (s.retryOn accs).mem := h.retryParked
theorem Canon.parkedRetry (h : Canon s.mem) : Canon s.parkedRetry.mem := by
  unfold State.parkedRetry
  split
  · split
    · exact h.retryOn
    · exact h
  · exact h

theorem Canon.latestPerform {t p dst accs acq} (h : Canon s.mem) : Canon (s.latestPerform t p dst accs acq).mem := by
  unfold State.latestPerform
  dsimp only
  split
  · next e =>
    exact OptCanon.some (.findSome? fun _ => .or (.bind fun _ => h.reachLines.vLost) (.map fun _ =>
        h.reachLines.performFault)) e
  · exact h.reachLines.vAcquire.modTeam

theorem Canon.vqryPerform {t p dst accs} (h : Canon s.mem) : Canon (s.vqryPerform t p dst accs).mem :=
  h.reachLines.modTeam
theorem Canon.vStore1 {p rel a bs} (h : Canon s.mem) : ExcCanon (s.vStore1 p rel a bs) := by
  unfold State.vStore1
  dsimp only
  split
  · trivial
  split
  · trivial
  split
  · trivial
  split
  · trivial
  · exact .ite trivial h.setRegion

theorem Canon.vStoreAll {p rel l} (h : Canon s.mem) : ExcCanon (s.vStoreAll p rel l) := by
  induction l generalizing s with
  | nil => exact h
  | cons x r ih =>
    rw [State.vStoreAll]
    split
    · trivial
    · next e => exact ih (h.vStore1.ok e)

theorem Canon.addHolder {p r sl dev} (h : Canon s.mem) : Canon (s.addHolder p r sl dev).mem := h.setRegion
theorem Canon.freeReady (h : Canon s.mem) : Canon s.freeReady.mem := by
  unfold State.freeReady
  dsimp only
  refine .retryParked ?_
  refine .foldl (fun s a h' => ?_) ?_
  · exact h'.retry
  · refine .foldl (fun s a h' => ?_) h.update.sends
    split
    · exact h'.addHolder
    · exact h'

theorem Canon.wakeParked {gs} (h : Canon s.mem) : Canon (s.wakeParked gs).mem := h.retryParked
theorem Canon.holdVersions {p accs} (h : Canon s.mem) : Canon (s.holdVersions p accs).mem := by
  unfold State.holdVersions
  refine .foldl (fun s a h' => ?_) h
  dsimp only
  exact h'.modPart

theorem Canon.stvPerform {t p accs rel} (h : Canon s.mem) : Canon (s.stvPerform t p accs rel).mem := by
  unfold State.stvPerform
  dsimp only
  split
  · exact h.reachLines.performFault
  · next e =>
      exact .modTeam (.wakeParked (.freeReady (.foldl (fun _ _ h' => h'.noteRegion)
          (h.reachLines.vStoreAll.ok e).holdVersions)))

theorem Canon.versionStoreRecord (h : Canon s.mem) : Canon s.versionStoreRecord.mem := by
  unfold State.versionStoreRecord
  split
  · split
    · exact .ite h.stvPerform h
    · exact h
  · exact h

theorem Canon.releaseBelow {p r f sl} (h : Canon s.mem) : Canon (s.releaseBelow p r f sl).mem := by
  unfold State.releaseBelow
  dsimp only
  exact .foldl (fun _ _ h' => h'.retry) h.modSlice.sends

theorem Canon.tellHolders {p r f sl} (h : Canon s.mem) : Canon (s.tellHolders p r f sl).mem := h.setRegion.sends
theorem Canon.takeFloor {p r f sl} (h : Canon s.mem) : Canon (s.takeFloor p r f sl).mem :=
  .ite h (.retryParked (.tellHolders (.releaseBelow (.noteRegion (.foldl (fun _ _ h' => h'.reclaim) h.setRegion)))))
theorem Canon.floorApply (h : Canon s.mem) : Canon s.floorApply.mem := .ite h.takeFloor h
theorem Canon.floorHeld {p r f} (h : Canon s.mem) : Canon (s.floorHeld p r f).mem := h.setRegion.dropVersions.noteRegion
theorem Canon.vflrPerformed (h : Canon s.mem) : Canon s.vflrPerformed.mem := by
  unfold State.vflrPerformed
  split
  · split
    · exact .ite h.floorHeld.modTeam h
    · exact h
  · exact h

theorem Canon.destroyRegion {p r} (h : Canon s.mem) : Canon (s.destroyRegion p r).mem :=
  h.noteRegion.dropVersions.modPart.update
theorem Canon.vrcmd {p v} (h : Canon s.mem) : ExcCanon (s.vrcmd p v) := by
  unfold State.vrcmd
  dsimp only
  split
  · trivial
  split
  · split
    · trivial
    · exact .ite h.modPart.modPart.noteRegion trivial
  · exact .ite (.ite trivial h.destroyRegion) trivial

/-! ## Traps, and a team off its slot -/

theorem Canon.bkptEff {n t} (h : Canon s.mem) : (bkptEff n s t).Canon := .ite h trivial
theorem Canon.tmarkEff {x t} (h : Canon s.mem) : (tmarkEff x s t).Canon := h.tracePacket
theorem Canon.standAt {t c pc} (h : Canon s.mem) : Canon (s.standAt t c pc).mem := h.setTeam
theorem Canon.resumeAt {t f} (h : Canon s.mem) : Canon (s.resumeAt t f).mem := by
  unfold State.resumeAt
  split
  · exact .ite h.arrive h.standAt
  · exact h.arrive

theorem Canon.enter {t f a} (h : Canon s.mem) : Canon (s.enter t f a).mem := by
  unfold State.enter
  split
  · next e => exact (of_fst e h.checkTarget).raise
  · next e => exact (of_fst e h.checkTarget).arrive

theorem Canon.skipFirst {t f} (h : Canon s.mem) : Canon (s.skipFirst t f).mem := by
  unfold State.skipFirst
  dsimp only
  split
  · exact h.fetchClause.raise
  · exact .ite h.fetchClause.enter h.fetchClause.startClause
  · exact h.fetchClause.setTeam

theorem Canon.skipOver {t f} (h : Canon s.mem) : Canon (s.skipOver t f).mem := by
  unfold State.skipOver
  split
  · exact .ite h.skipFirst h.setTeam
  · exact .ite (.ite h.enter h.setTeam) (.ite h.enter h.standAt)

theorem Canon.tretEff {md k t} (h : Canon s.mem) (hk : ∀ s u f, Canon s.mem → Canon (k s u f).mem) :
    (tretEff md k s t).Canon := by
  unfold Machine.tretEff
  split
  · dsimp only
    split
    · exact hk _ _ _ h.modTeam.traceTrap
    · trivial
  · trivial

theorem Canon.reissue {t f} (h : Canon s.mem) : Canon (s.reissue t f).mem := h.resumeAt
theorem Canon.tretRetryK {t f} (h : Canon s.mem) : Canon (tretRetryK s t f).mem := h.reissue
theorem Canon.tretFixK {t f} (h : Canon s.mem) : Canon (tretFixK s t f).mem := .reissue (.ite h.dropTlb h)
theorem Canon.tretSkipK {t f} (h : Canon s.mem) : Canon (tretSkipK s t f).mem := h.skipOver
theorem Canon.tretKillK {t f} (h : Canon s.mem) : Canon (tretKillK s t f).mem := h.setTeam
theorem Canon.faultDeliver (h : Canon s.mem) : Canon s.faultDeliver.mem := by
  unfold State.faultDeliver
  split
  · split
    · exact .ite h.takeFault h
    · exact h
  · exact h

theorem Canon.watchdogFault {t} (h : Canon s.mem) : Canon (s.watchdogFault t).mem := by
  unfold State.watchdogFault
  split
  · split
    next e => exact (of_fst e h.cancelFrom).raise.clearFilters
  · exact h.raise

theorem Canon.watchdogExpire (h : Canon s.mem) : Canon s.watchdogExpire.mem := by
  unfold State.watchdogExpire
  split
  · exact .ite h.watchdogFault h
  · exact h

theorem Canon.watchdogs (h : Canon s.mem) : Canon s.watchdogs.mem := by
  unfold State.watchdogs
  refine .foldl (fun s a h' => ?_) h
  dsimp only
  split
  · exact .ite h'.watchdogFault h'
  · exact h'

theorem Canon.toSavePoint {t} (h : Canon s.mem) : Canon (s.toSavePoint t).1.mem := by
  unfold State.toSavePoint
  dsimp only
  refine .clearFilters ?_
  split
  · exact h.cancelFrom
  · exact h

theorem Canon.saveGranules {t} (h : Canon s.mem) : Canon (s.saveGranules t).1.mem := by
  unfold State.saveGranules
  dsimp only
  refine .foldl (fun s a h' => ?_) h
  split
  · exact h'.writePhys
  · exact h'

theorem Canon.writeImage {t} (h : Canon s.mem) : Canon (s.writeImage t).mem := h.writePhys.writePhys
theorem Canon.saveTeam {t} (h : Canon s.mem) : Canon (s.saveTeam t).1.mem := by
  unfold State.saveTeam
  split
  next e => exact (of_fst e h.saveGranules).writeImage

theorem Canon.resave {t was} (h : Canon s.mem) : Canon (s.resave t was).mem := by
  unfold State.resave
  split
  next e => exact (of_fst e h.saveTeam).setTeam

theorem Canon.stopRecord {t cause} (h : Canon s.mem) : Canon (s.stopRecord t cause).mem := h.sendSup
theorem Canon.teamStop (h : Canon s.mem) : Canon s.teamStop.mem := by
  unfold State.teamStop
  split
  · exact h
  split
  · exact .ite h.traceTrap.stopRecord.setTeam h
  · split
    · next e =>
        have h1 := of_fst e (.ite_fst h.toSavePoint h)
        split
        · split
          next e' => exact (of_fst e' h1.saveGranules).traceTrap.traceUni.stopRecord.setTeam
        · exact h1.setTeam
  · exact h

theorem Canon.traceResume {t act pc} (h : Canon s.mem) : Canon (s.traceResume t act pc).mem := h.tracePacket.traceTrap
theorem Canon.backOnSlot {t} (h : Canon s.mem) : Canon (s.backOnSlot t).mem := by
  unfold State.backOnSlot
  split
  · dsimp only
    split
    · next e => exact (of_fst e h.checkTarget).raise
    · next e => exact (of_fst e h.checkTarget).arrive
  · exact .ite h.arrive h.setTeam

theorem Canon.resumeTeam {t step} (h : Canon s.mem) : Canon (s.resumeTeam t step).mem := h.traceResume.backOnSlot
theorem Canon.resumePast {t} (h : Canon s.mem) : Canon (s.resumePast t).mem := h.traceResume.skipOver
theorem Canon.resumeSaved {t cause act} (h : Canon s.mem) : Canon (s.resumeSaved t cause act).mem := by
  unfold State.resumeSaved
  dsimp only
  split
  · split
    · exact h.traceTrap.skipOver.resave
    · exact h.traceTrap.skipOver
  · exact h.traceTrap.setTeam
  · exact h.traceTrap.setTeam

theorem Canon.dbgrun {p v} (h : Canon s.mem) : OptCanon (s.dbgrun p v) := by
  unfold State.dbgrun
  split
  · trivial
  split
  · trivial
  split
  · trivial
  split
  · exact h
  · exact Canon.ite h.setTeam h
  · trivial
  split
  · trivial
  split
  · exact h.resumeSaved
  split
  · exact h.resumeTeam
  · exact h.resumeTeam
  · exact h.resumePast
  · exact h.traceResume.setTeam

theorem Canon.dbgWrite {t img off v} (h : Canon s.mem) : OptCanon (s.dbgWrite t img off v) :=
  .ite (.ite h.setTeam (.ite (Canon.ite h.setTeam h) trivial)) (.ite h.setTeam (.ite h.setTeam (.ite h.setTeam (.ite
      h.writePhys.setTeam trivial))))
theorem Canon.dbgStep {p off} (h : Canon s.mem) : Canon (s.dbgStep p off).mem := h.setPr
theorem Canon.dbgdataRead {p} (h : Canon s.mem) : PairCanon (s.dbgdataRead p) := by
  unfold State.dbgdataRead Option.map
  split
  · change Canon _
    split
    exact h.dbgStep
  · trivial

theorem Canon.dbgdataWrite {p v} (h : Canon s.mem) : OptCanon (s.dbgdataWrite p v) := by
  unfold State.dbgdataWrite
  split
  · trivial
  · unfold Option.map
    split
    · next e =>
        change Canon _
        refine .dbgStep ?_
        split
        · exact .ite (h.dbgWrite.some e).writeImage (h.dbgWrite.some e)
        · exact h.dbgWrite.some e
    · trivial

/-! ## The Mills -/

theorem Canon.modGraph {p g f} (h : Canon s.mem) : Canon (s.modGraph p g f).mem := by
  unfold State.modGraph
  split
  · exact h.modPart
  · exact h

theorem Canon.modNode {p g n f} (h : Canon s.mem) : Canon (s.modNode p g n f).mem := h.modGraph
theorem Canon.lostRecs {p n} (h : Canon s.mem) : Canon (s.lostRecs p n).mem := h.bump
theorem Canon.rehome {p} (h : Canon s.mem) : Canon (s.rehome p).mem := h.modPart
theorem Canon.refresh {p} (h : Canon s.mem) : Canon (s.refresh p).mem := h.modPart
theorem Canon.report {p r} (h : Canon s.mem) : Canon (s.report p r).mem := .ite h.setPart (.ite h.setPart h.bump)
theorem Canon.endInstance {p g} (h : Canon s.mem) : Canon (s.endInstance p g).mem := by
  unfold State.endInstance
  split
  · exact .ite (.modGraph (.foldl (fun _ _ h' => h'.report) (.foldl (fun _ _ h' => h'.noteNode) h))) h
  · exact h

theorem Canon.writeSpill {p k w} (h : Canon s.mem) : Canon (s.writeSpill p k w).mem := by
  unfold State.writeSpill
  split
  · exact h.reach.writePhys
  · exact h

theorem Canon.spillRec {p g n i w} (h : Canon s.mem) : Canon (s.spillRec p g n i w).mem := h.modNode.writeSpill.countEvent
theorem Canon.enterQueue {p g n w credit rel} (h : Canon s.mem) : Canon (s.enterQueue p g n w credit rel).mem :=
  .refresh (.noteNode (.ite h.endInstance.modPart.modGraph.spillRec h.endInstance.modPart.modGraph.modNode))
theorem Canon.unspill {p g n i} (h : Canon s.mem) : Canon (s.unspill p g n i).mem := h.modNode
theorem Canon.fillPlaces {p n} (h : Canon s.mem) : Canon (s.fillPlaces p n).mem := by
  induction n generalizing s with
  | zero => exact h
  | succ k ih =>
    rw [State.fillPlaces]
    split
    · split
      · exact ih h.unspill.noteNode
      · exact h
    · exact h

theorem Canon.spillDown {p n} (h : Canon s.mem) : Canon (s.spillDown p n).mem := by
  induction n generalizing s with
  | zero => exact h
  | succ k ih =>
    rw [State.spillDown]
    split
    · split
      · exact ih h.spillRec.noteNode
      · exact h
    · exact h

theorem Canon.launchAcquire {c rels} (h : Canon s.mem) : Canon (s.launchAcquire c rels).mem :=
  .ite (.dropFarPeers (.ite h.dropNear h)) (.ite h.dropNear h)
theorem Canon.launch {p g k x n c sl ctx} (h : Canon s.mem) : Canon (s.launch p g k x n c sl ctx).mem :=
  h.modDie.modNode.modPart.noteNode.fillPlaces.setTeam.countEvent.writePhys.dropNearLines.launchAcquire.tracePacket.refresh
theorem Canon.claim {p g n} (h : Canon s.mem) : Canon (s.claim p g n).mem := h.of_parts (s.onlyParts_claim p g n)
theorem Canon.passClaims {p} (h : Canon s.mem) : Canon (s.passClaims p).mem := h.of_parts (s.onlyParts_passClaims p)
theorem Canon.decideFor {p g n y} (h : Canon s.mem) : Canon (s.decideFor p g n y).mem := by
  unfold State.decideFor
  extract_lets fail
  have hf : Canon fail.mem := .ite h.claim h
  split
  · refine .ite hf ?_
    split
    · exact h.launch
    · exact hf
  · exact hf

theorem Canon.admission {d} (h : Canon s.mem) : Canon (s.admission d).mem := by
  unfold State.admission
  split
  · exact h
  dsimp only
  split
  · exact h.modDie
  · exact .decideFor (.ite h.modDie.modDie h.modDie)

theorem Canon.agingTick {d p} (h : Canon s.mem) : Canon (s.agingTick d p).mem := .ite h (.ite h.modDie h.modDie.modPart)
theorem Canon.tickAt {d p} (h : Canon s.mem) : Canon (s.tickAt d p).mem := h.update.refresh.agingTick.update
theorem Canon.agingTicks (h : Canon s.mem) : Canon s.agingTicks.mem :=
  .foldl (fun _ _ h' => .foldl (fun _ _ h'' => .ite h'' (.foldl (fun _ _ h''' => h'''.tickAt) h''.modDie)) h') h
theorem Canon.keepBlock {t} (h : Canon s.mem) : Canon (s.keepBlock t).mem := .ite h.modPart h
theorem Canon.endTeam {t} (h : Canon s.mem) : Canon (s.endTeam t).mem :=
  h.traceUni.keepBlock.dropTeam.freePlaces.refresh.endInstance
theorem Canon.teamRetire (h : Canon s.mem) : Canon s.teamRetire.mem := by
  unfold State.teamRetire
  split
  · exact .ite (.ite h.setTeam.endTeam h.setTeam) h
  · exact h

theorem Canon.errorRecords {t code} (h : Canon s.mem) : Canon (s.errorRecords t code).mem := by
  unfold State.errorRecords
  split
  · exact .ite h.modPart h.lostRecs
  · exact h.lostRecs

theorem Canon.dropBlocked {t} (h : Canon s.mem) : Canon (s.dropBlocked t).1.mem := h.freePlaces
theorem Canon.teamKill (h : Canon s.mem) : Canon s.teamKill.mem := by
  unfold State.teamKill
  split
  · split
    · split
      next e =>
        have h1 := of_fst e h.dropBlocked
        exact .ite h1.setTeam.clearFilters.errorRecords.endTeam h1.setTeam.clearFilters
    · exact h
  · exact h

theorem Canon.emitLess {t seq} (h : Canon s.mem) : Canon (s.emitLess t seq).mem := h.modTeam
theorem Canon.recordEnqueue {p i} (h : Canon s.mem) : Canon (s.recordEnqueue p i).mem := by
  unfold State.recordEnqueue
  dsimp only
  split
  · exact h
  split
  · exact h
  split
  · exact h.enterQueue.modPart.emitLess
  · exact h.enterQueue.modPart

theorem Canon.emitPerformed (h : Canon s.mem) : Canon s.emitPerformed.mem := by
  unfold State.emitPerformed
  split
  · split
    · exact h.modTeam
    · exact h
  · exact h

theorem Canon.refuse {p sender w} (h : Canon s.mem) : Canon (s.refuse p sender w).mem := by
  unfold State.refuse
  split
  · exact h.lostRecs
  · exact h.lostRecs.sendSup
  split
  · exact .ite h.modPart h.lostRecs
  · exact h.lostRecs

theorem Canon.tellCopy {d eng} (h : Canon s.mem) : Canon (s.tellCopy d eng).mem := by
  unfold State.tellCopy
  split
  · exact .ite h.copyDone h
  · exact h

theorem Canon.arrivalDone {a} (h : Canon s.mem) : Canon (s.arrivalDone a).mem := by
  unfold State.arrivalDone
  split
  · exact h.emitLess
  · exact h.emitLess
  · exact h.tellCopy
  · exact h
  · exact h
  · exact h

theorem Canon.arrivalLost {p a} (h : Canon s.mem) : Canon (s.arrivalLost p a).mem := by
  unfold State.arrivalLost
  refine .arrivalDone ?_
  split
  · exact h.refuse
  · exact h.refuse
  · exact h.refuse
  · exact .ite h.lostRecs h.refuse
  · exact h.lostRecs
  · exact h.lostRecs

theorem Canon.setWindow {d dev w} (h : Canon s.mem) : Canon (s.setWindow d dev w).mem := h.modDie
theorem Canon.toWindow {p d dev g n sender deadline w} (h : Canon s.mem) :
    OptCanon (s.toWindow p d dev g n sender deadline w) :=
  .ite trivial (Canon.ite h.setWindow.say h.setWindow)
theorem Canon.cutSends {p a} (h : Canon s.mem) : Canon (s.cutSends p a).mem := by
  unfold State.cutSends
  dsimp only
  split
  · exact h.modPart.modCutTeam
  · exact h.modPart

theorem Canon.holdRecord {p dev d a} (h : Canon s.mem) : Canon (s.holdRecord p dev d a).mem :=
  h.modPart.cutSends.arrivalDone
theorem Canon.noteOldCopy {p a credit} (h : Canon s.mem) : Canon (s.noteOldCopy p a credit).mem := h.modPart
theorem Canon.dropArrival {p i} (h : Canon s.mem) : Canon (s.dropArrival p i).mem := by
  unfold State.dropArrival
  dsimp only
  split
  · exact h
  · exact .ite h.setPart.arrivalLost h

theorem Canon.arrivalRetry {p i} (h : Canon s.mem) : Canon (s.arrivalRetry p i).mem := by
  unfold State.arrivalRetry
  dsimp only
  split
  · exact h
  split
  · exact h.dropArrival
  split
  · exact h
  split
  · split
    · exact h.setPart.arrivalLost
    split
    · exact h.setPart.holdRecord
    split
    · next e => exact (h.setPart.toWindow.some e).cutSends.arrivalDone
    · exact h
  split
  · exact h.enterQueue.modPart.noteOldCopy.arrivalDone
  · exact h
  · exact h.setPart.arrivalLost

/-! ## Checkpoints and turns -/

theorem Canon.modTeamsOf {p f} (h : Canon s.mem) : Canon (s.modTeamsOf p f).mem := h.update
theorem Canon.checkpointCut {p pressure} (h : Canon s.mem) : Canon (s.checkpointCut p pressure).mem := by
  unfold State.checkpointCut
  dsimp only
  split
  · exact h
  · exact h.setPart.modTeamsOf

theorem Canon.ckptEff {x t} (h : Canon s.mem) : (ckptEff x s t).Canon := h.modPart.resultWrites
theorem Canon.releaseOne {p g} (h : Canon s.mem) : Canon (s.releaseOne p g).mem := by
  unfold State.releaseOne
  split
  · exact h.putByte.unpoison.dropHere
  · dsimp only
    split
    · exact h
    · exact .ite h.bump h.setRegion.noteRegion
  · exact h.modPart
  · exact .ite h.modPart h.bump

theorem Canon.releaseEgress {p num} (h : Canon s.mem) : Canon (s.releaseEgress p num).mem := by
  unfold State.releaseEgress
  dsimp only
  exact .foldl (fun _ _ h' => h'.releaseOne) h.modPart

theorem Canon.commit {p c} (h : Canon s.mem) : Canon (s.commit p c).mem :=
  h.setPart.modTeamsOf.releaseEgress.setPr.freeReady
theorem Canon.safeTake {p f} (h : Canon s.mem) : Canon (s.safeTake p f).mem := h.modPart
theorem Canon.putSafe {p half c} (h : Canon s.mem) : Canon (s.putSafe p half c).mem := h.filter.setAll.update
theorem Canon.safeHold {p} (h : Canon s.mem) : Canon (s.safeHold p).mem := by
  unfold State.safeHold
  dsimp only
  have ht : Canon ((s.ownFrames p).foldl (fun s f => s.safeTake p f) s).mem := .foldl (fun _ _ h' => h'.safeTake) h
  split
  · exact ht
  · exact .ite ht (.elim ht.setPart.setPr fun _ => ht.setPart.setPr.putSafe)

theorem Canon.putLine {line bs} (h : Canon s.mem) : Canon (s.putLine line bs).mem := by
  unfold State.putLine
  dsimp only
  exact .dropFar (.update (.foldl (fun _ _ h' => h'.noteSafe.putByte) h))

theorem Canon.putSpills {t} (h : Canon s.mem) : Canon (s.putSpills t).1.mem :=
  .foldl (fun _ _ h' => .ite h' h'.writePhys) h
theorem Canon.parkTeam {t} (h : Canon s.mem) : Canon (s.parkTeam t).mem := by
  unfold State.parkTeam
  split
  next e =>
    have h1 := of_fst e h.drainTiles
    split
    next e' => exact (of_fst e' h1.saveTeam).setTeam

theorem Canon.returnTeam {was t} (h : Canon s.mem) : Canon (s.returnTeam was t).mem := by
  unfold State.returnTeam
  dsimp only
  exact h.putSpills.parkTeam

theorem Canon.backLines {p c} (h : Canon s.mem) : Canon (s.backLines p c).mem := by
  unfold State.backLines
  dsimp only
  exact .foldl (fun _ _ h' => .ite h'.modSlice h') (.foldl (fun _ _ h' => .foldl (fun _ _ h'' => h''.setRline) h')
      h.update)

theorem Canon.dropWork {p} (h : Canon s.mem) : Canon (s.dropWork p).mem := h.update
theorem Canon.admitRecord {p w} (h : Canon s.mem) : Canon (s.admitRecord p w).mem := .ite h.modPart h.enterQueue
theorem Canon.takeInput {p a} (h : Canon s.mem) : Canon (s.takeInput p a).mem := by
  unfold State.takeInput
  split
  · exact h.admitRecord
  · exact h.arriveAdd
  · exact h.contribute.getD h

theorem Canon.noteInput {p i} (h : Canon s.mem) : Canon (s.noteInput p i).mem := .ite h.modPart h
theorem Canon.input {p i} (h : Canon s.mem) : Canon (s.input p i).mem := h.noteInput.takeInput
theorem Canon.noteRdo {p a x idx} (h : Canon s.mem) : Canon (s.noteRdo p a x idx).mem := by
  unfold State.noteRdo
  dsimp only
  split
  · exact .ite h h.noteInput
  · exact h

theorem Canon.inputRecord {p w} (h : Canon s.mem) : Canon (s.inputRecord p w).mem := h.input
theorem Canon.spillBack {p} (h : Canon s.mem) : Canon (s.spillBack p).mem := by
  unfold State.spillBack
  dsimp only
  refine .spillDown ?_
  refine .foldl (fun s a h' => ?_) h.rehome
  refine .foldl (fun s a h'' => ?_) h'
  refine .foldl (fun s a h''' => ?_) h''
  split
  · exact h'''.writeSpill
  · exact h'''

theorem Canon.noteDead {p c} (h : Canon s.mem) : Canon (s.noteDead p c).mem := by
  unfold State.noteDead
  refine .foldl (fun s a h' => ?_) h
  dsimp only
  exact .ite h' h'.writeVirt

theorem Canon.backFloors {p c} (h : Canon s.mem) : Canon (s.backFloors p c).mem := by
  unfold State.backFloors
  refine .foldl (fun s a h' => ?_) h
  dsimp only
  exact .foldl (fun _ _ h' => .ite h' h'.takeFloor) h'

theorem Canon.backTo {p c atEnd} (h : Canon s.mem) : Canon (s.backTo p c atEnd).mem := by
  unfold State.backTo
  dsimp only
  refine .refresh (.spillBack (.clearFilters (.bump (.backFloors (.noteDead ?_)))))
  refine .foldl (fun _ _ h' => h'.dropVersions.noteRegion) (.foldl (fun _ _ h' => h'.stopRecord) (.modPart ?_))
  refine .foldl (fun _ _ h' => .ite h'.takeInput h') (.foldl (fun _ _ h' => h'.returnTeam) (.setPart ?_))
  refine .backLines (.update (.foldl (fun _ _ h' => h'.putLine) (.dropWork ?_)))
  exact .foldl (fun _ _ h' => .ite h'.traceUni h') h

theorem Canon.checkpointCommit {p} (h : Canon s.mem) : Canon (s.checkpointCommit p).mem := by
  unfold State.checkpointCommit
  split
  · exact h
  · exact .ite h.commit h

theorem Canon.toCommitted {p atEnd} (h : Canon s.mem) : Canon (s.toCommitted p atEnd).mem := by
  unfold State.toCommitted
  split
  · exact h.backTo
  · exact h

theorem Canon.rollback {p} (h : Canon s.mem) : Canon (s.rollback p).mem := .ite h.toCommitted.bump.modPart h
theorem Canon.closeTurn {p} (h : Canon s.mem) : Canon (s.closeTurn p).mem := h.modPart.refresh
theorem Canon.turnEnds {p} (h : Canon s.mem) : Canon (s.turnEnds p).mem := by
  unfold State.turnEnds
  split
  · exact h
  · exact h.toCommitted.closeTurn
  split
  · exact h.modPart
  split
  · exact h.rollback.closeTurn
  · exact h.toCommitted.closeTurn

theorem Canon.gridCuts {p n} (h : Canon s.mem) : Canon (s.gridCuts p n).mem := by
  induction n generalizing s with
  | zero => exact h
  | succ k ih =>
    rw [State.gridCuts]
    split
    · exact ih h.checkpointCut
    · exact h

theorem Canon.turnDue {p} (h : Canon s.mem) : Canon (s.turnDue p).mem := .ite h h.gridCuts.turnEnds
theorem Canon.turnStarts {p} (h : Canon s.mem) : Canon (s.turnStarts p).mem :=
  .ite h (.refresh (.modPart (.foldl (fun _ _ h' => .ite h'.modPart h') h)))

/-! ## A partition stopped and started -/

theorem Canon.teamMigrate {id} (h : Canon s.mem) : Canon (s.teamMigrate id).mem := by
  unfold State.teamMigrate
  split
  · exact h
  split
  · exact h
  split
  · next e =>
      have h1 := of_fst e h.toSavePoint
      dsimp only
      split
      · refine .parkTeam ?_
        split
        · exact h1
        · exact h1.traceUni
      · exact h1.setTeam

theorem Canon.goesOn {t} (h : Canon s.mem) : Canon (s.goesOn t).mem := by
  unfold State.goesOn
  split
  · exact h.setTeam
  · exact h.tracePacket.backOnSlot
  · exact h.tracePacket.setTeam

theorem Canon.acquireAt {c old} (h : Canon s.mem) : Canon (s.acquireAt c old).mem :=
  .ite h.dropNear h.dropNear.dropFarPeers
theorem Canon.teamRestore {id} (h : Canon s.mem) : Canon (s.teamRestore id).mem := by
  unfold State.teamRestore
  split
  · exact h
  split
  · exact h
  split
  · exact h
  · exact .goesOn (.acquireAt (.ite h.bump h))

theorem Canon.arrivalRedirect {p} (h : Canon s.mem) : Canon (s.arrivalRedirect p).mem := by
  unfold State.arrivalRedirect
  split
  · exact h
  dsimp only
  split
  · exact h.modPart
  · exact h.modPart.setTeam.writePhys

theorem Canon.freeze {p} (h : Canon s.mem) : Canon (s.freeze p).mem := .ite h h.modPart.refresh
theorem Canon.toSavePoints {p} (h : Canon s.mem) : Canon (s.toSavePoints p).mem := by
  unfold State.toSavePoints
  refine .foldl (fun s a h' => ?_) h
  dsimp only
  exact .ite h'.toSavePoint.setTeam h'

theorem Canon.freezeTeam {t} (h : Canon s.mem) : Canon (s.freezeTeam t).mem := by
  unfold State.freezeTeam
  split
  · exact h
  · exact h
  dsimp only
  exact h.traceUni.drainTiles.saveGranules.setTeam

theorem Canon.freezeComplete {p} (h : Canon s.mem) : Canon (s.freezeComplete p).mem := by
  unfold State.freezeComplete
  split
  · exact h
  dsimp only
  exact .ite (.refresh (.modPart (.foldl (fun _ _ h' => .ite h'.freezeTeam h') h.toSavePoints))) h.toSavePoints

theorem Canon.raiseTime {p} (h : Canon s.mem) : Canon (s.raiseTime p).mem := .ite h.setPr h
theorem Canon.sendGraphs {p lo payload} (h : Canon s.mem) : Canon (s.sendGraphs p lo payload).mem := by
  unfold State.sendGraphs
  refine .foldl (fun s a h' => ?_) h
  dsimp only
  exact .ite h' h'.sendDev

theorem Canon.catalogueNotice {p} (h : Canon s.mem) : Canon (s.catalogueNotice p).mem :=
  .ite h h.sendGraphs.sendSup.modPart
theorem Canon.thaw {p} (h : Canon s.mem) : Canon (s.thaw p).mem := by
  unfold State.thaw
  dsimp only
  split
  · exact h
  split
  · refine .refresh (.catalogueNotice ?_)
    refine .foldl (fun s a h' => ?_) h.setPart.raiseTime
    split
    · exact h'
    · exact h'
    · exact h'
    · exact h'.goesOn
  · exact h.setPart.refresh

theorem Canon.capture {p} (h : Canon s.mem) : Canon (s.capture p).mem := .modPart (.ite h h.writePhys)
theorem Canon.scrubUnits {p} (h : Canon s.mem) : Canon (s.scrubUnits p).mem := h.update
theorem Canon.clearPart {p} (h : Canon s.mem) : Canon (s.clearPart p).mem := by
  unfold State.clearPart
  dsimp only
  refine .modPart (.setPr (.setPart (.clearFilters (.scrubUnits (.update (.dropWork ?_))))))
  exact .foldl (fun _ _ h' => h'.noteRegion.dropVersions) (.foldl (fun _ _ h' => .ite h'.traceUni h') h)

theorem Canon.partitionClear {p} (h : Canon s.mem) : Canon (s.partitionClear p).mem := .ite h.capture.clearPart.modPart h
theorem Canon.pstat {p} (h : Canon s.mem) : Canon (s.pstat p).1.mem := .ite_fst h h.update
theorem Canon.pctl {p v} (h : Canon s.mem) : OptCanon (s.pctl p v) := by
  unfold State.pctl
  extract_lets rst s1
  have h1 : Canon s1.mem := .ite h.freeze (.ite h h.thaw)
  exact .ite trivial (Canon.ite h1.modPart h1)

/-! ## Units on the move -/

theorem Canon.sweepLine {line clean} (h : Canon s.mem) : Canon (s.sweepLine line clean).mem := by
  unfold State.sweepLine
  split
  · exact .ite h.evictLine.dropCached h.moveLine
  · exact h

theorem Canon.windowClose {i} (h : Canon s.mem) : Canon (s.windowClose i).mem := by
  unfold State.windowClose
  split
  · exact .ite h.update h
  · exact h

theorem Canon.seedFloors {p old new_} (h : Canon s.mem) : Canon (s.seedFloors p old new_).mem := by
  unfold State.seedFloors
  refine .foldl (fun s a h' => ?_) h
  dsimp only
  exact .foldl (fun _ _ h' => h'.takeFloor) h'

theorem Canon.openWindows {p old} (h : Canon s.mem) : Canon (s.openWindows p old).mem := by
  unfold State.openWindows
  refine .foldl (fun s a h' => ?_) h
  dsimp only
  split
  · exact h'
  · refine .seedFloors ?_
    split
    · exact h'
    · split <;> exact h'.update

theorem Canon.forgetGroups {gs} (h : Canon s.mem) : Canon (s.forgetGroups gs).mem := h.update
theorem Canon.putWord7 {at_ v} (h : Canon s.mem) : Canon (s.putWord7 at_ v).mem := by
  unfold State.putWord7
  split
  · exact h.writeVirt
  · exact h.update

theorem Canon.resizeStart {w at_} (h : Canon s.mem) : Canon (s.resizeStart w at_).mem := by
  refine .spillDown (.spillDown (.refresh (.trimFar (.trimFar (.openWindows (.openWindows ?_))))))
  exact .foldl (fun _ _ h' => .ite h'.rehome.passClaims h') h.update.modPart.forgetGroups

theorem Canon.lendStart {w at_} (h : Canon s.mem) : Canon (s.lendStart w at_).mem :=
  h.update.openWindows.openWindows.trimFar.trimFar
theorem Canon.revokeStart {w at_} (h : Canon s.mem) : Canon (s.revokeStart w at_).mem := h.update.passClaims.openWindows
theorem Canon.unitOp {k w at_} (h : Canon s.mem) : Canon (s.unitOp k w at_).mem := by
  unfold State.unitOp
  dsimp only
  split
  · exact .ite h.putWord7 h.putWord7.resizeStart
  · exact .ite h.putWord7 h.putWord7.lendStart
  · exact .ite h.putWord7 h.putWord7.revokeStart
  · exact .ite h.putWord7 h.putWord7.revokeStart

theorem Canon.unitEff {k x t} (h : Canon s.mem) : (unitEff k x s t).Canon :=
  h.withBlock fun _ _ h' => .ite h'.unitOp trivial
theorem Canon.unitRecord {p cause} (h : Canon s.mem) : Canon (s.unitRecord p cause).mem := h.sendGraphs.sendSup
theorem Canon.scrubCores {cs} (h : Canon s.mem) : Canon (s.scrubCores cs).mem := h.update
theorem Canon.scrubSlices {ls} (h : Canon s.mem) : Canon (s.scrubSlices ls).mem := h.update
theorem Canon.scrubGroups {gs} (h : Canon s.mem) : Canon (s.scrubGroups gs).mem := h.filter.update
theorem Canon.opEnd {i o cause ps} (h : Canon s.mem) : Canon (s.opEnd i o cause ps).mem :=
  .clearFilters (.foldl (fun _ _ h' => h'.unitRecord) h.update.putWord7)
theorem Canon.lendDone {i} (h : Canon s.mem) : Canon (s.lendDone i).mem := by
  unfold State.lendDone
  split
  · exact .ite h.opEnd h
  · exact h

theorem Canon.passUnits {i o q owned} (h : Canon s.mem) : Canon (s.passUnits i o q owned).mem :=
  h.scrubCores.scrubSlices.update.openWindows.trimFar.refresh
theorem Canon.failEnd {i o} (h : Canon s.mem) : Canon (s.failEnd i o).mem := .foldl (fun _ _ h' => h'.unitRecord) h.update
theorem Canon.revokeDone {i} (h : Canon s.mem) : Canon (s.revokeDone i).mem := by
  unfold State.revokeDone
  split
  · refine .ite ?_ h
    extract_lets s1
    have h1 : Canon s1.mem := .ite h.passUnits h.passUnits
    split
    · exact .ite (.ite h1.failEnd h1.opEnd) h1
    · exact h1
  · exact h

theorem Canon.resizeDone {i} (h : Canon s.mem) : Canon (s.resizeDone i).mem := by
  unfold State.resizeDone
  split
  · refine .ite ?_ h
    extract_lets gs s1 s2
    have h2 : Canon s2.mem := h.scrubGroups.forgetGroups.update.passUnits
    split
    · exact .ite h2.opEnd h2
    · exact h2
  · exact h

theorem Canon.shoot {k a} (h : Canon s.mem) : Canon (s.shoot k a).1.mem := h.dropTlb.markStale
theorem Canon.pgretEff {x t} (h : Canon s.mem) : (pgretEff x s t).Canon := by
  unfold Machine.pgretEff
  dsimp only
  split
  · trivial
  · exact .ite trivial h.shoot.modTeam

theorem Canon.endHold {t} (h : Canon s.mem) : Canon (s.endHold t).mem := h.setTeam.moveOn
theorem Canon.pgretDone {id} (h : Canon s.mem) : Canon (s.pgretDone id).mem := by
  unfold State.pgretDone
  split
  · split
    · exact .ite h.endHold h
    · exact h
  · exact h

theorem Canon.rootDropDone {id} (h : Canon s.mem) : Canon (s.rootDropDone id).mem := by
  unfold State.rootDropDone
  split
  · split
    · exact .ite h.endHold h
    · exact h
  · exact h

theorem Canon.moveStateOf {f l} (h : Canon s.mem) : Canon (s.moveStateOf f l).mem := by
  unfold State.moveStateOf
  dsimp only
  exact .foldl (fun _ _ h' => h'.dropCached.putCached) (.foldl (fun _ _ h' => h'.dropRline.setRline) h)

theorem Canon.moveFrame {p f} (h : Canon s.mem) : Canon (s.moveFrame p f).mem := by
  unfold State.moveFrame
  dsimp only
  exact .movePlaces (.takeOut (.modTeamsOf (.modPart (.foldl (fun _ _ h' => h'.moveStateOf) h.frame.update))))

theorem Canon.pageMigrate {i at_} (h : Canon s.mem) : Canon (s.pageMigrate i at_).mem := by
  unfold State.pageMigrate
  split
  · exact h
  split
  · exact h
  split
  · exact h
  · exact .ite h h.moveFrame.writePhys.dropTlb.update

/-! ## Ingress rings, control records, the arrays at work -/

theorem Canon.ringOn {p r v} (h : Canon s.mem) : OptCanon (s.ringOn p r v) := .map fun _ => h.setPr.modPart
theorem Canon.ringOff {p r v} (h : Canon s.mem) : Canon (s.ringOff p r v).mem := h.setPr.modPart
theorem Canon.ringcb {p r v} (h : Canon s.mem) : OptCanon (s.ringcb p r v) := .ite h.ringOn h.ringOff
theorem Canon.ringFail {p r g cause w} (h : Canon s.mem) : Canon (s.ringFail p r g cause w).mem := h.writeVirt.modPart
theorem Canon.ringTo {p r g i} (h : Canon s.mem) : Canon (s.ringTo p r g i).mem := h.writeVirt.modPart
theorem Canon.ingressPoll {p r} (h : Canon s.mem) : Canon (s.ingressPoll p r).mem := by
  unfold State.ingressPoll
  split
  · exact h
  split
  · exact h
  split
  · exact h
  · exact .ite h (.ite h.dropFarPeers.ringFail (.ite h.dropFarPeers h.dropFarPeers.inputRecord.ringTo))

theorem Canon.ringrstEff {x t} (h : Canon s.mem) : (ringrstEff x s t).Canon := by
  unfold Machine.ringrstEff
  dsimp only
  split
  · exact .ite trivial trivial
  · exact .ite trivial (.ite trivial h.writeVirt.ringTo)

theorem Canon.ctrlHead {p op c} (h : Canon s.mem) (e : s.ctrlHead p op = some (c, s')) : Canon s'.mem := by
  unfold State.ctrlHead at e
  dsimp only at e
  split at e
  · split at e
    · cases e
      exact h.setPart
    · cases e
  · cases e

theorem Canon.ctrlLoad {p} (h : Canon s.mem) : Canon (s.ctrlLoad p).mem := by
  unfold State.ctrlLoad
  split
  · exact h
  · next e =>
    have hc := h.ctrlHead e
    split
    · exact hc.report
    split
    · exact hc.report
    · exact hc.modPart.report

theorem Canon.ctrlUnload {p} (h : Canon s.mem) : Canon (s.ctrlUnload p).mem := by
  unfold State.ctrlUnload
  split
  · exact h
  · next e =>
    have hc := h.ctrlHead e
    split
    · exact hc.report
    · exact .ite hc.report (.report (.modPart (.foldl (fun _ _ h' => h'.report) hc.endInstance)))

theorem Canon.ctrlWatch {p} (h : Canon s.mem) : Canon (s.ctrlWatch p).mem := by
  unfold State.ctrlWatch
  split
  · exact h
  · next e =>
    split
    · exact (h.ctrlHead e).report
    · exact (h.ctrlHead e).endInstance.modGraph

theorem Canon.raiseMsix {f v} (h : Canon s.mem) : Canon (s.raiseMsix f v).mem := h.update
theorem Canon.reportWrite {p} (h : Canon s.mem) : Canon (s.reportWrite p).mem := by
  unfold State.reportWrite
  dsimp only
  split
  · exact h
  · exact .ite h h.setPart.writeVirt.raiseMsix

theorem Canon.cqcons {p v} (h : Canon s.mem) : Canon (s.cqcons p v).mem := h.setPr
theorem Canon.setArr {c k a} (h : Canon s.mem) : Canon (s.setArr c k a).mem := h.modCore
theorem Canon.modRpl {d f} (h : Canon s.mem) : Canon (s.modRpl d f).mem := h.modDie
theorem Canon.logAppend {d e} (h : Canon s.mem) : Canon (s.logAppend d e).mem := .ite h (.ite h.modRpl h.writePhys.modRpl)
theorem Canon.logCopy {d e c status} (h : Canon s.mem) : Canon (s.logCopy d e c status).mem := .ite h.logAppend h
theorem Canon.entryDone {t m e} (h : Canon s.mem) : Canon (s.entryDone t m e).mem := by
  unfold State.entryDone
  extract_lets after s1 s2 s3
  have h2 : Canon s2.mem := .countEvent (.asOld h fun _ h' => h'.modWork)
  have h3 : Canon s3.mem := by
    dsimp only [s3]
    split
    · refine .ite ?_ h2
      split
      · exact h2.logAppend
      · exact h2
    · exact h2
  exact .ite h3.setArr h3

theorem Canon.matrixEntry {id} (h : Canon s.mem) : Canon (s.matrixEntry id).mem := by
  unfold State.matrixEntry
  split
  · exact h
  split
  · exact h
  split
  · exact h
  · exact .ite h (.ite h.setArr.modTeam h.setArr.entryDone)

theorem Canon.matrixRead {id k a} (h : Canon s.mem) : Canon (s.matrixRead id k a).mem := by
  unfold State.matrixRead
  split
  · exact h
  · exact .ite h (.asOld h fun _ h' => h'.modWork)

theorem Canon.windowArr {c k} (h : Canon s.mem) : Canon (s.windowArr c k).mem := by
  unfold State.windowArr
  dsimp only
  split
  · exact h.setArr.bump.countEvent
  · exact h.setArr

theorem Canon.governorWindow {d} (h : Canon s.mem) : Canon (s.governorWindow d).mem :=
  .setMr (.foldl (fun _ _ h' => .foldl (fun _ _ h'' => h''.windowArr) h') h)
theorem Canon.govWrite {d v} (h : Canon s.mem) : Canon (s.govWrite d v).mem := h.setMr
theorem Canon.gateWrite {v} (h : Canon s.mem) : Canon (s.gateWrite v).mem := h.setMr.setMr
theorem Canon.arrayGate {c k} (h : Canon s.mem) : Canon (s.arrayGate c k).mem := .ite h.setArr h
theorem Canon.arrayWake {c k} (h : Canon s.mem) : Canon (s.arrayWake c k).mem := .ite h.setArr h
theorem Canon.haltNotice {d kind} (h : Canon s.mem) : Canon (s.haltNotice d kind).mem :=
  .foldl (fun _ _ h' => .ite h'.sendSup h') h
theorem Canon.rplLog {d v} (h : Canon s.mem) : Canon (s.rplLog d v).mem := h.modRpl.modRpl
theorem Canon.rplGo {d v} (h : Canon s.mem) : OptCanon (s.rplGo d v) := .ite trivial h.modRpl.haltNotice
theorem Canon.rplctl {d v} (h : Canon s.mem) : OptCanon (s.rplctl d v) := .ite h.rplGo (.ite h (.ite h.rplLog h.modRpl))
theorem Canon.replayDone {d} (h : Canon s.mem) : Canon (s.replayDone d).mem :=
  .ite h (.haltNotice (.modRpl (.ite h.writePhys h)))

/-! ## Control transfers and the start of a clause -/

theorem Canon.traceTaken {t g} (h : Canon s.mem) : Canon (s.traceTaken t g).mem := .ite h.traceUni h
theorem Canon.brEff {g disp t} (h : Canon s.mem) : (brEff g disp s t).Canon := h.traceTaken
theorem Canon.link {t d} (h : Canon s.mem) : Canon (s.link t d).mem := h.modTeam
theorem Canon.callEff {g d disp t} (h : Canon s.mem) : (callEff g d disp s t).Canon := h.traceTaken.link
theorem Canon.brxEff {x t} (h : Canon s.mem) : (brxEff x s t).Canon := h.traceInd
theorem Canon.retEff {x t} (h : Canon s.mem) : (retEff x s t).Canon := h.traceInd
theorem Canon.callxEff {x t} (h : Canon s.mem) : (callxEff x s t).Canon := h.traceInd.link
theorem Canon.clearEntry {x pa} (h : Canon s.mem) : Canon (s.clearEntry x pa).mem := .foldl (fun _ _ h' => h'.putByte) h
theorem Canon.clearSpilled {t x} (h : Canon s.mem) : Canon (s.clearSpilled t x).mem :=
  .foldl (fun _ _ h' => h'.clearEntry) h
theorem Canon.exitEff {g t} (h : Canon s.mem) : (exitEff g s t).Canon := by
  unfold Machine.exitEff
  split
  · trivial
  split
  · trivial
  dsimp only
  split
  · trivial
  · exact h.clearSpilled.setTeam
  · exact h.clearSpilled.traceTaken.arrive

theorem Canon.joinOk {t j} (h : Canon s.mem) : Canon (s.joinOk t j).1.mem := by
  unfold State.joinOk
  split
  · next e => exact of_fst e h.checkTarget
  · next e =>
      have h1 := of_fst e h.checkTarget
      split
      · next e' => exact of_fst e' h1.rcvAt
      · next e' => exact of_fst e' h1.rcvAt

theorem Canon.brdEff {g target join t} (h : Canon s.mem) : (brdEff g target join s t).Canon := by
  unfold Machine.brdEff
  dsimp only
  split
  · trivial
  · next e =>
      have h1 := of_fst e h.checkTarget
      split
      · trivial
      · next e' =>
          have h2 := of_fst e' h1.joinOk
          split
          · exact h2.tracePacket
          split
          · exact h2.tracePacket
          split
          · trivial
          split
          · trivial
          split
          · trivial
          · next e'' =>
              have h3 := of_fst e'' h2.tracePacket.checkTarget
              split
              · trivial
              · exact h3.push.setTeam

theorem Canon.clauseIssue {t} (h : Canon s.mem) : Canon (s.clauseIssue t).mem := by
  unfold State.clauseIssue
  split
  · exact h.wait
  dsimp only
  split
  · exact h.fetchClause.raise
  · exact .ite h.fetchClause.startClause h.fetchClause.wait
  · exact h.fetchClause.wait

theorem Canon.switched (h : Canon s.mem) : Canon s.switched.mem := by
  unfold State.switched
  split
  · split
    · dsimp only
      split
      · exact h.setTeam.update
      · exact h.setTeam
    · exact h
  · exact h

/-! ## System registers -/

theorem Canon.readOwn {p n} (h : Canon s.mem) : PairCanon (s.readOwn p n) :=
  .ite h (.ite h.dbgdataRead (.ite h (.ite h (.ite h (.ite h h)))))
theorem Canon.readPart {q r} (h : Canon s.mem) : Canon (s.readPart q r).1.mem := .ite_fst h (.ite_fst h.pstat h)
theorem Canon.sysRead {p n} (h : Canon s.mem) : PairCanon (s.sysRead p n) := by
  unfold State.sysRead
  split
  · trivial
  split
  · exact h
  · exact h
  · exact h.readOwn
  · exact h.readPart
  · exact h
  · exact h
  · exact h

theorem Canon.rootHold {p} (h : Canon s.mem) : (s.rootHold p).Canon := h.dropTlb.markStale
theorem Canon.writeDomcfg {v} (h : Canon s.mem) : (s.writeDomcfg v).Canon := .ite trivial h.setMr
theorem Canon.writeDtime {v} (h : Canon s.mem) : (s.writeDtime v).Canon :=
  Canon.foldl (fun _ _ h' => h'.raiseTime) h.setMr
theorem Canon.writeModule {n v} (h : Canon s.mem) : (s.writeModule n v).Canon :=
  .ite h.writeDomcfg (.ite h.writeDtime (.ite h.gateWrite (.ite h.govWrite h.setMr)))
theorem Canon.writeCmp {p n v} (h : Canon s.mem) : (s.writeCmp p n v).Canon := .ite h.setPr h.setPr
theorem Canon.trimNear {p} (h : Canon s.mem) : Canon (s.trimNear p).mem := h.update
theorem Canon.writeScrsplit {p v} (h : Canon s.mem) : (s.writeScrsplit p v).Canon := .ite trivial h.setPr.trimNear
theorem Canon.writeProfctl {p v} (h : Canon s.mem) : (s.writeProfctl p v).Canon :=
  .ite trivial (.ite h h.setPr.profNotice)
theorem Canon.writePmsel {p k v} (h : Canon s.mem) : (s.writePmsel p k v).Canon := Canon.ite h.setPr h.setPr.modPart
theorem Canon.writeGptroot {p v} (h : Canon s.mem) : (s.writeGptroot p v).Canon := h.setPr.rootHold
theorem Canon.writeDbgdata {p v} (h : Canon s.mem) : (s.writeDbgdata p v).Canon := .of h.dbgdataWrite
theorem Canon.writeDbgrun {p v} (h : Canon s.mem) : (s.writeDbgrun p v).Canon := .of h.dbgrun
theorem Canon.writeVrcmd {p v} (h : Canon s.mem) : (s.writeVrcmd p v).Canon := by
  unfold State.writeVrcmd
  split
  · next e => exact h.vrcmd.ok e
  · trivial

theorem Canon.writeRingcb {p r v} (h : Canon s.mem) : (s.writeRingcb p r v).Canon := .of h.ringcb
theorem Canon.writeOwn {p n v} (h : Canon s.mem) : (s.writeOwn p n v).Canon := by
  refine .ite h.setPr (.ite h.writeDbgdata (.ite h.writeDbgrun (.ite h.writeCmp (.ite h.setPr ?_))))
  refine .ite h.writeProfctl (.ite h.writeScrsplit (.ite h.writeGptroot (.ite h.writeVrcmd (.ite h.setPr.modPart ?_))))
  exact .ite h.writeRingcb (.ite h.writePmsel (.ite h.modPart.setPr h.setPr))

theorem Canon.writeTrcctl {p d v} (h : Canon s.mem) : (s.writeTrcctl p d v).Canon :=
  .ite trivial (.ite trivial (.ite h.modDie.profNotice (Canon.ite h.modDie.profNotice h.modDie)))
theorem Canon.writeTrace {p d r lvl2 v} (h : Canon s.mem) : (s.writeTrace p d r lvl2 v).Canon :=
  .ite trivial (.ite h.writeTrcctl (.ite h.modDie (.ite h.modDie (.ite (.ite trivial h.modDie) h.modDie))))
theorem Canon.writeReplay {d r v} (h : Canon s.mem) : (s.writeReplay d r v).Canon :=
  .ite (.of h.rplctl) (.ite (.ite h.modRpl trivial) h.modRpl)
theorem Canon.measureWrite {n v} (h : Canon s.mem) : Canon (s.measureWrite n v).mem := h.update
theorem Canon.writeHptroot {q v} (h : Canon s.mem) : (s.writeHptroot q v).Canon :=
  .ite trivial h.setPr.measureWrite.rootHold
theorem Canon.writeMode {q v} (h : Canon s.mem) : (s.writeMode q v).Canon := .ite trivial h.setPr.setPr.modPart
theorem Canon.writeGtoff {q v} (h : Canon s.mem) : (s.writeGtoff q v).Canon := .ite trivial h.setPr
theorem Canon.writePctl {q v} (h : Canon s.mem) : (s.writePctl q v).Canon := .of h.pctl
theorem Canon.writeSaferst {q v} (h : Canon s.mem) : (s.writeSaferst q v).Canon := h.setPr.modPart
theorem Canon.writePart {q r v} (h : Canon s.mem) : (s.writePart q r v).Canon := by
  refine .ite (.ite trivial h.setPr) (.ite (.ite trivial h.setPr) (.ite h.setPr.spillDown.fillPlaces.refresh ?_))
  refine .ite h.writeMode (.ite h.writeHptroot (.ite (.ite h.setPr trivial) (.ite h.writeGtoff (.ite h.writePctl ?_))))
  exact .ite h.setPr.measureWrite (.ite (.ite h.setPr trivial) (.ite h.writeSaferst h.setPr))

theorem Canon.sysWrite {p n lvl2 v} (h : Canon s.mem) : (s.sysWrite p n lvl2 v).Canon := by
  unfold State.sysWrite
  split
  · trivial
  split
  · trivial
  split
  · exact h
  · exact h
  · exact h.writeModule
  · exact h.writeOwn
  · exact h.writePart
  · exact h.writeTrace
  · exact h.writeReplay

theorem Canon.sysrdEff {n g d t} (h : Canon s.mem) : (sysrdEff n g d s t).Canon := by
  unfold Machine.sysrdEff
  split
  · exact h.modTeam
  split
  · exact h.modTeam
  split
  · trivial
  · next e => exact (h.sysRead.some e).modTeam

theorem Canon.fplaneEff {g a t} (h : Canon s.mem) : (fplaneEff g a s t).Canon := by
  unfold Machine.fplaneEff
  dsimp only
  split
  · trivial
  · exact h.modTeam

theorem Eff.Canon.sysAns {t r} (hr : r.Canon) : (SysAns.eff t r).Canon := by
  cases r with
  | ok s => exact hr
  | held s ws => exact Canon.modTeam hr
  | fault => trivial
  | faultIn s => exact hr

theorem Canon.syswrEff {n g a t} (h : Canon s.mem) : (syswrEff n g a s t).Canon :=
  .ite h.fplaneEff (.ite (.ite h.modTeam trivial) (.sysAns h.sysWrite))
theorem Canon.sysselDone {p n wr status} (h : Canon s.mem) : Canon (s.sysselDone p n wr status).mem := h.update
theorem Canon.stageWrite {n v} (h : Canon s.mem) : Canon (s.stageWrite n v).s.mem := by
  have unit (k : OpKind) :
      Canon (if unitOk k s.stage then (⟨s.unitOp k s.stage none, 0, none⟩ : HostAns) else ⟨s, 0x62, none⟩).s.mem := by
    split
    · exact h.unitOp
    · exact h
  unfold State.stageWrite
  dsimp only
  split
  · exact h.update
  split
  · exact unit _
  split
  · exact unit _
  split
  · exact unit _
  split
  · exact h
  split
  · exact h
  · exact h.shoot

theorem Canon.hostSys {p n v} (h : Canon s.mem) : Canon (s.hostSys p n v).s.mem := by
  have hw : (s.sysWrite p n true v).Canon := h.sysWrite
  unfold State.hostSys
  split
  · exact h.stageWrite
  split
  · exact h
  split
  · exact h
  split
  · exact h
  split
  · next e => rwa [e] at hw
  · next e => rwa [e] at hw
  · exact h
  · next e => rwa [e] at hw

theorem Canon.hostHoldEnd (h : Canon s.mem) : Canon s.hostHoldEnd.mem := by
  unfold State.hostHoldEnd
  split
  · exact .ite h.update h
  · exact .ite h.update h
  · exact h

theorem Canon.sysselBusy {p n w} (h : Canon s.mem) : Canon (s.sysselBusy p n w).mem := h.update
theorem Canon.sysselWr {p n v} (h : Canon s.mem) : Canon (s.sysselWr p n v).mem :=
  h.update.hostSys.sysselDone.sysselBusy.hostHoldEnd
theorem Canon.hostWrite {p n v} (h : Canon s.mem) : Canon (s.hostWrite p n v).mem := .ite h.sysselWr h
theorem Canon.sysselRd {p n} (h : Canon s.mem) : Canon (s.sysselRd p n).mem := by
  unfold State.sysselRd
  refine .ite h.update.sysselDone (.ite h.sysselDone ?_)
  split
  · exact h.sysselDone
  · next e => exact (h.sysRead.some e).update.sysselDone

theorem Canon.hostRead {p n} (h : Canon s.mem) : Canon (s.hostRead p n).mem := .ite h.sysselRd h
theorem Canon.sysWr {i w} (h : Canon s.mem) : OutCanon (sysWr i w s) := by
  unfold Machine.sysWr
  split
  · exact h.issue fun _ _ h' => h'.syswrEff
  · exact h.hostWrite

theorem Canon.sysWrOn {f w} (h : Canon s.mem) : OutCanon (sysWrOn f w s) := by
  unfold Machine.sysWrOn
  split
  · split
    · exact .ite h.sysWr h
    · trivial
  · exact .ite h.sysWr h

/-! ## The management window, power, bring-up and damage -/

theorem Canon.pwrctl {v} (h : Canon s.mem) : Canon (s.pwrctl v).mem := .ite h.update h
theorem Canon.shed {us} (h : Canon s.mem) : Canon (s.shed us).mem := h.of_parts (s.onlyParts_shed us)
theorem Canon.powerAt {us} (h : Canon s.mem) : Canon (s.powerAt us).mem := h.update.shed
theorem Canon.powerTick (h : Canon s.mem) : Canon s.powerTick.mem := .ite h h.powerAt
theorem Canon.powerTicks (h : Canon s.mem) : Canon s.powerTicks.mem := .foldl (fun _ _ h' => h'.powerTick) h
theorem Canon.engage (h : Canon s.mem) : Canon s.engage.mem := .update (.foldl (fun _ _ h' => h'.govWrite) h)
theorem Canon.disengage (h : Canon s.mem) : Canon s.disengage.mem := by
  unfold State.disengage
  dsimp only
  split
  · exact .foldl (fun _ _ h' => h'.govWrite) h
  · exact h

theorem Canon.sign (h : Canon s.mem) : Canon s.sign.mem := .ite h.update h
theorem Canon.attestDone (h : Canon s.mem) : Canon s.attestDone.mem := by
  unfold State.attestDone
  split
  · exact h.update
  · exact h

theorem Canon.carry (h : Canon s.mem) : Canon s.carry.mem := .ite h.update h
theorem Canon.firmware {k image} (h : Canon s.mem) : Canon (s.firmware k image).mem :=
  .ite h (.ite h.update.carry h.update)
theorem Canon.moduleReset : Canon s.moduleReset.mem := reset.update
theorem Canon.damage {g} (h : Canon s.mem) : Canon (s.damage g).mem := .ite h h.update
theorem Canon.pageRetire {f} (h : Canon s.mem) : Canon (s.pageRetire f).mem := by
  unfold State.pageRetire
  split
  · exact h
  · exact .ite h.update.update h.update.update.sendSup

theorem Canon.failOp {p src cs ls} (h : Canon s.mem) : Canon (s.failOp p src cs ls).mem := h.update
theorem Canon.coreFail {c} (h : Canon s.mem) : Canon (s.coreFail c).mem :=
  .ite h (.foldl (fun _ _ h' => h'.rehome.passClaims) (.failOp (.update (.foldl (fun _ _ h' => h'.setTeam) h))))
theorem Canon.sliceFail {l} (h : Canon s.mem) : Canon (s.sliceFail l).mem := .ite h h.update.failOp.openWindows
theorem Canon.degrade {port} (h : Canon s.mem) : Canon (s.degrade port).mem := h.update
theorem Canon.cpsemTake {k} (h : Canon s.mem) : Canon (s.cpsemTake k).mem := .ite h h.update
theorem Canon.cpsemRead {k} (h : Canon s.mem) : Canon (s.cpsemRead k).mem := .ite h h.cpsemTake.update
theorem Canon.cpsemFree {k} (h : Canon s.mem) : Canon (s.cpsemFree k).mem := .ite h.update h
theorem Canon.mgmtWrite {r v} (h : Canon s.mem) : Canon (s.mgmtWrite r v).mem :=
  .ite h.pwrctl (.ite (.ite h (.ite (.ite h.sysselWr h.sysselRd) h.update)) (.ite h.update (.ite h.update (.ite (.ite
      h.sign h) h))))
theorem Canon.mgmtStore {bytes} (h : Canon s.mem) : Canon (s.mgmtStore bytes).mem := .foldl (fun _ _ h' => h'.mgmtWrite) h
theorem Canon.restoreMem {p c} (h : Canon s.mem) : Canon (s.restoreMem p c).mem := by
  unfold State.restoreMem
  split
  · exact h
  · exact h.filter.setAll.update

theorem Canon.safeRestore {p} (h : Canon s.mem) : Canon (s.safeRestore p).mem := by
  unfold State.safeRestore
  dsimp only
  split
  · exact h
  split
  · exact h
  · exact .refresh (.setPr (.modPart (.spillBack (.foldl (fun _ _ h' => h'.returnTeam)
      h.clearPart.restoreMem.backLines.modPart))))

/-! ## What is performed after issue -/

theorem Canon.loadFault {t p l} (h : Canon s.mem) : OptCanon (s.loadFault t p l) := by
  induction l with
  | nil => trivial
  | cons x r ih =>
    rw [State.loadFault]
    split
    · next e => exact h.lostLoad.some e
    · exact h.performFault
    · exact ih

theorem Canon.loadPart {t p src dst accs acq got word} (h : Canon s.mem) :
    Canon (s.loadPart t p src dst accs acq got word).mem :=
  .ite h h.noteLoad.modTeam
theorem Canon.loadPerform {t p src dst accs acq got} (h : Canon s.mem) :
    Canon (s.loadPerform t p src dst accs acq got).mem := by
  unfold State.loadPerform
  refine .ite h ?_
  split
  · next e => exact h.loadFault.some e
  extract_lets _ _ s1 s2 s3
  have h2 : Canon s2.mem := .noteLoad (.ite h.update h)
  refine .modTeam (s := s3) ?_
  dsimp only [s3]
  split
  · exact h2.acquireOf
  · exact h2

theorem Canon.ldsPerform {t p dst accs} (h : Canon s.mem) : Canon (s.ldsPerform t p dst accs).mem := by
  unfold State.ldsPerform
  split
  · exact h
  split
  · exact h.performFault
  · exact h.modTeam

theorem Canon.loadReturn {src} (h : Canon s.mem) : Canon (s.loadReturn src).mem := by
  unfold State.loadReturn
  split
  · exact h
  split
  · exact h
  split
  · exact .ite h.loadPart h.loadPerform
  · exact h.ldsPerform
  · exact h.ldvWake
  · exact .ite h.latestPerform h
  · exact .ite h.vqryPerform h
  · exact h

theorem Canon.performBytes {t bytes} (h : Canon s.mem) : Canon (s.performBytes t bytes).mem :=
  .ite h.reachLines.homeStores.dropPeerLines h.reachLines.homeStores.dropPeerLines.mgmtStore
theorem Canon.dropEntry {c e} (h : Canon s.mem) : Canon (s.dropEntry c e).mem := h.modCore
theorem Canon.entryPerform {t e} (h : Canon s.mem) : Canon (s.entryPerform t e).mem := h.dropEntry.performBytes.patchNear
theorem Canon.entryPart {t e word} (h : Canon s.mem) : Canon (s.entryPart t e word).mem :=
  h.modCore.performBytes.patchNear
theorem Canon.stPerform {t p rel inBuf} (h : Canon s.mem) : Canon (s.stPerform t p rel inBuf).mem := by
  unfold State.stPerform
  extract_lets ready
  refine .ite h (.ite h.modWork ?_)
  split
  · exact h
  · exact .ite h (.ite h.entryPart h.entryPerform.modWork)

theorem Canon.updatePerform {t seq} (h : Canon s.mem) : Canon (s.updatePerform t seq).mem := by
  unfold State.updatePerform
  split
  · exact .ite h (.asOld h fun _ h' => .ite h' h'.entryPerform)
  · exact h

theorem Canon.stsPerform {t p left} (h : Canon s.mem) : Canon (s.stsPerform t p left).mem :=
  .ite h (.ite h.modWork h.modWork)
theorem Canon.dropLines {c lines} (h : Canon s.mem) : Canon (s.dropLines c lines).mem := h.modCore.modDie
theorem Canon.cctlPerform {t p lines clean drop} (h : Canon s.mem) : Canon (s.cctlPerform t p lines clean drop).mem :=
  .ite h (.modWork (.ite h.dropLines h))
theorem Canon.storePerform (h : Canon s.mem) : Canon s.storePerform.mem := by
  unfold State.storePerform
  split
  · exact h
  split
  · exact h.updatePerform
  split
  · exact h
  · refine .asOld h fun s h' => ?_
    split
    · exact h'.stPerform
    · exact h'.stsPerform
    · exact h'.cctlPerform
    · exact h'

theorem Canon.atomHome1 {t rel f n a} (h : Canon s.mem) : Canon (s.atomHome1 t rel f n a).1.mem :=
  .ite h.reachLines.homeStores.dropPeerLines.modCore.noteRelease h.reachLines.homeStores.dropPeerLines.modCore
theorem Canon.atomCore1 {t seq rel f n a} (h : Canon s.mem) : Canon (s.atomCore1 t seq rel f n a).1.mem :=
  h.noteLoad.bufStore
theorem Canon.atomAll {t sc seq rel f n l} (h : Canon s.mem) : Canon (s.atomAll t sc seq rel f n l).1.mem := by
  induction l generalizing s with
  | nil => exact h
  | cons x r ih =>
    rw [State.atomAll]
    exact ih (.ite_fst h.atomHome1 h.atomCore1)

theorem Canon.atomPerform {t p op cas ty sc o dst accs} (h : Canon s.mem) :
    Canon (s.atomPerform t p op cas ty sc o dst accs).mem := by
  unfold State.atomPerform
  dsimp only
  split
  · exact h
  split
  · exact h.performFault
  · exact .modTeam (.ite h.atomAll.acquireOf h.atomAll)

theorem Canon.atomsPerform {t p op cas ty dst accs} (h : Canon s.mem) :
    Canon (s.atomsPerform t p op cas ty dst accs).mem := by
  unfold State.atomsPerform
  dsimp only
  split
  · exact h
  split
  · exact h.performFault
  · exact h.setTeam

theorem Canon.atomicPerform (h : Canon s.mem) : Canon s.atomicPerform.mem := by
  unfold State.atomicPerform
  split
  · exact h
  split
  · exact h
  split
  · exact h.atomPerform
  · exact h.atomsPerform
  · exact h

theorem Canon.rdoLeft {t p cs} (h : Canon s.mem) : Canon (s.rdoLeft t p cs).mem := .ite h.modTeam h.modTeam
theorem Canon.rdoOne {t p cs i} (h : Canon s.mem) : Canon (s.rdoOne t p cs i).mem := by
  unfold State.rdoOne
  split
  · exact h.rdoLeft
  split
  · next e => exact (h.contribute.some e).noteRdo.rdoLeft
  · exact h.rdoLeft

theorem Canon.rdoArrive {t p cs checked i} (h : Canon s.mem) : Canon (s.rdoArrive t p cs checked i).mem := by
  unfold State.rdoArrive
  dsimp only
  split
  · exact h.moveLines.rdoOne
  split
  · next e => exact (h.moveLines.firstGap.some e).cancelFrom.raise
  · exact h.moveLines.performFault
  · exact h.moveLines.rdoOne

theorem Canon.rdoEvent (h : Canon s.mem) : Canon s.rdoEvent.mem := by
  unfold State.rdoEvent
  split
  · exact h
  split
  · exact .ite h h.rdoArrive
  · exact h

theorem Canon.gapTimeout {sl line} (h : Canon s.mem) : Canon (s.gapTimeout sl line).mem := by
  unfold State.gapTimeout
  split
  · exact h
  split
  · exact h
  split
  · exact h.setRline
  split
  · exact h
  dsimp only
  split
  · exact h.setRline.cancelFrom.raise.clearFilters
  · exact h.setRline.raise

theorem Canon.gapTimeouts (h : Canon s.mem) : Canon s.gapTimeouts.mem := by
  unfold State.gapTimeouts
  refine .foldl (fun s a h' => ?_) h
  dsimp only
  exact h'.gapTimeout

theorem Canon.acpPerform (h : Canon s.mem) : Canon s.acpPerform.mem := by
  unfold State.acpPerform
  split
  · exact h
  split
  · dsimp only
    split
    · exact h
    · refine .asOld h fun s h' => ?_
      split
      · exact h'
      split
      · split
        · exact .ite h' h'.modWork
        · exact h'
      · exact h'.modWork
  · exact h

theorem Canon.bcpStep {d e what} (h : Canon s.mem) : Canon (s.bcpStep d e what).mem := by
  unfold State.bcpStep
  split
  · exact h
  · exact .asOld h fun _ h' => h'.rowStep.setCopies

theorem Canon.bcpRun {d e n} (h : Canon s.mem) : Canon (s.bcpRun d e n).mem := by
  unfold State.bcpRun
  split
  · exact h
  extract_lets total x
  have hx : Canon x.mem := by
    refine .asOld h fun s h' => ?_
    dsimp only
    split
    · exact h'
    · exact h'.runRows.setCopies
  split
  · exact .ite hx.logCopy.copyEnd hx
  · exact hx

theorem Canon.copyFails {d e c code va} (h : Canon s.mem) : Canon (s.copyFails d e c code va).mem :=
  h.sendSup.logCopy.copyEnd
theorem Canon.rowLost {d e f} (h : Canon s.mem) : Canon (s.rowLost d e f).mem := by
  unfold State.rowLost
  split
  · exact h
  split
  · exact h.copyFails
  · exact h

theorem Canon.bcpFail {d e} (h : Canon s.mem) : Canon (s.bcpFail d e).mem := by
  unfold State.bcpFail
  split
  · exact h
  dsimp only
  split
  · exact h
  · exact h.update.runRows.update.copyFails

theorem Canon.leaseExpire {p base} (h : Canon s.mem) : Canon (s.leaseExpire p base).mem := h.modPart
theorem Canon.leaseEnds (h : Canon s.mem) : Canon s.leaseEnds.mem := h.update
theorem Canon.nearDrop {c l} (h : Canon s.mem) : Canon (s.nearDrop c l).mem := h.modCore
theorem Canon.farDrop {d l} (h : Canon s.mem) : Canon (s.farDrop d l).mem := h.modDie
theorem Canon.entryFails {t e pa} (h : Canon s.mem) : Canon (s.entryFails t e pa).mem := h.modCore
theorem Canon.fabricError {p va pa} (h : Canon s.mem) : Canon (s.fabricError p va pa).mem := h.bump.sendSup
theorem Canon.transportFail {t p a i pa} (h : Canon s.mem) : Canon (s.transportFail t p a i pa).mem := by
  unfold State.transportFail
  dsimp only
  split
  · refine .fabricError (.modTeam ?_)
    split
    · exact h.entryFails
    · exact h
  · exact h.performFault.clearFilters

theorem Canon.updateFails {t seq} (h : Canon s.mem) : Canon (s.updateFails t seq).mem := by
  unfold State.updateFails
  split
  · split
    · exact h.entryFails.fabricError
    · exact h
  · exact h

theorem Canon.remoteTimeout (h : Canon s.mem) : Canon s.remoteTimeout.mem := by
  unfold State.remoteTimeout
  split
  · exact h
  split
  · exact .ite h.modTeam h.updateFails
  split
  · exact h
  · exact h
  · exact .ite h.transportFail h

theorem Canon.hostFail {id n} (h : Canon s.mem) : Canon (s.hostFail id n).mem := by
  induction n generalizing s with
  | zero => exact h
  | succ k ih =>
    rw [State.hostFail]
    split
    · exact h
    split
    · exact h
    split
    · exact ih h.transportFail
    · exact h

theorem Canon.hostTiles {id} (h : Canon s.mem) : Canon (s.hostTiles id).mem := by
  unfold State.hostTiles
  split
  · exact h
  · refine .foldl (fun s a h' => ?_) h
    split
    · split
      · exact h'.modTeam
      · exact h'
    · exact h'

theorem Canon.linkLoss {k} (h : Canon s.mem) : Canon (s.linkLoss k).mem :=
  .ite (.foldl (fun _ _ h' => h'.rowLost) (.foldl (fun _ _ h' => h'.hostFail.hostTiles) h.update)) h

/-! ## The UALink domain and the trace unit -/

theorem Canon.setInbound {dev d x} (h : Canon s.mem) : Canon (s.setInbound dev d x).mem := h.update
theorem Canon.arrived {f} (h : Canon s.mem) (hf : ∀ s, Canon s.mem → Canon (f s).mem) : OutCanon (s.arrived f) :=
  Canon.ite (hf _ h) h
theorem Canon.recReceive {dev d domid seq w} (h : Canon s.mem) : Canon (s.recReceive dev d domid seq w).mem := by
  unfold State.recReceive
  dsimp only
  split
  · exact .ite h.say h
  split
  · exact h.setInbound.say
  split
  · exact h.setInbound.say
  · exact h.say
  · exact h.setInbound.inputRecord.say

theorem Canon.skipReceive {dev d seq} (h : Canon s.mem) : Canon (s.skipReceive dev d seq).mem :=
  .ite h.setInbound (.ite h h.setInbound)
theorem Canon.ackReceive {d dev seq} (h : Canon s.mem) : Canon (s.ackReceive d dev seq).mem := .ite h h.setWindow
theorem Canon.nakReceive {d dev seq perm} (h : Canon s.mem) : Canon (s.nakReceive d dev seq perm).mem := by
  unfold State.nakReceive
  dsimp only
  split
  · exact h
  · exact .ite h.setWindow.refuse (.ite h h.setWindow)

theorem Canon.resendFrom {d dev n} (h : Canon s.mem) : Canon (s.resendFrom d dev n).mem := h.sends
theorem Canon.backoffExpire {d dev} (h : Canon s.mem) : Canon (s.backoffExpire d dev).mem := by
  unfold State.backoffExpire
  dsimp only
  split
  · exact h
  · exact .ite h h.resendFrom.setWindow

theorem Canon.dropRecord {d dev seq} (h : Canon s.mem) : Canon (s.dropRecord d dev seq).mem := by
  unfold State.dropRecord
  dsimp only
  split
  · exact h
  · exact .ite h (.refuse (.ite h.setWindow.say.resendFrom h.setWindow.say))

theorem Canon.vwakeReceive {p r g v bytes} (h : Canon s.mem) : Canon (s.vwakeReceive p r g v bytes).mem := by
  unfold State.vwakeReceive
  split
  · exact h
  · exact .ite h h.setRegion.noteRegion.freeReady

theorem Canon.vflrMsg {dev p r f confirm} (h : Canon s.mem) : Canon (s.vflrMsg dev p r f confirm).mem :=
  .ite h.setRegion (.ite h.takeFloor.dropVersions.say h)
theorem Canon.ramp (h : Canon s.mem) : Canon s.ramp.mem := h.update
theorem Canon.staggerReceive {domid t0} (h : Canon s.mem) : Canon (s.staggerReceive domid t0).mem := by
  unfold State.staggerReceive
  split
  · exact h
  · exact .ite h.modPart.ramp h.modPart

theorem Canon.staggerEnd {p} (h : Canon s.mem) : Canon (s.staggerEnd p).mem := by
  unfold State.staggerEnd
  split
  · exact h
  · exact .ite h.modPart.ramp h

theorem Canon.atomicAt {p pa op cas t b e} (h : Canon s.mem) : Canon (s.atomicAt p pa op cas t b e).1.mem := h.storeBytes
theorem Canon.remoteLdv {dev p r pa v n t seq lanes} (h : Canon s.mem) :
    Canon (s.remoteLdv dev p r pa v n t seq lanes).mem := by
  unfold State.remoteLdv
  dsimp only
  split
  · exact h.retryOn.say
  · exact .ite h.retryOn.addHolder.say (.ite h.retryOn.modSlice h.retryOn.denyForeign)

theorem Canon.remoteLatest {dev p r pa b n} (h : Canon s.mem) : Canon (s.remoteLatest dev p r pa b n).mem := by
  unfold State.remoteLatest
  dsimp only
  split
  · exact h.say
  · exact .ite h.say h.say

theorem Canon.remoteVqry {dev p r pa} (h : Canon s.mem) : Canon (s.remoteVqry dev p r pa).mem := h.say
theorem Canon.remoteStv {dev p r pa v rel data} (h : Canon s.mem) : Canon (s.remoteStv dev p r pa v rel data).mem := by
  unfold State.remoteStv
  split
  · exact h.say
  · next e => exact (h.vStore1.ok e).noteRegion.freeReady.wakeParked.say

theorem Canon.remoteVflr {dev p r f} (h : Canon s.mem) : Canon (s.remoteVflr dev p r f).mem :=
  .ite (.say (.floorHeld (.foldl (fun _ _ h' => h'.takeFloor) h))) (.foldl (fun _ _ h' => h'.takeFloor) h)
theorem Canon.remoteRdo {dev pa x idx} (h : Canon s.mem) : Canon (s.remoteRdo dev pa x idx).mem := by
  unfold State.remoteRdo
  dsimp only
  split
  · next e => exact (h.moveLines.firstGap.some e).say
  · exact h.moveLines.say
  split
  · next e => exact (h.moveLines.contribute.some e).noteRdo.say
  · exact h.moveLines

theorem Canon.remoteAtomic {dev pa op cas t b e} (h : Canon s.mem) : Canon (s.remoteAtomic dev pa op cas t b e).mem :=
  .ite h.say (.ite h.say h.atomicAt.say)
theorem Canon.remoteArrival {dev t off n} (h : Canon s.mem) : Canon (s.remoteArrival dev t off n).mem := by
  unfold State.remoteArrival
  split
  · exact h.input.say
  · exact h.say

theorem Canon.remoteAccess {e} (h : Canon s.mem) : Canon (s.remoteAccess e).mem := by
  unfold State.remoteAccess
  dsimp only
  split
  · exact h.say
  split
  · exact h.say
  split
  · exact h
  split
  · exact .ite h.reachLines.say h.reachLines.say
  · exact h.reachLines.storeBytes.say
  · exact h.reachLines.remoteAtomic
  · exact h.reachLines.remoteRdo
  · exact h.reachLines.remoteLdv
  · exact h.reachLines.remoteLatest
  · exact h.reachLines.remoteVqry
  · exact h.reachLines.remoteStv
  · exact h.reachLines.remoteVflr
  · exact h.reachLines.remoteArrival

theorem Canon.complete {bs} (h : Canon s.mem) : Canon (s.complete bs).mem := h.update
theorem Canon.portStores {port bytes} (h : Canon s.mem) : Canon (s.portStores port bytes).mem :=
  .ite (.cpsemFree (.ite h.mgmtStore h)) (.ite h.mgmtStore h)
theorem Canon.barWrite {port p bytes} (h : Canon s.mem) : Canon (s.barWrite port p bytes).mem :=
  .ite h.portStores (.ite h.cqcons h)
theorem Canon.windowRead {port offs} (h : Canon s.mem) : Canon (s.windowRead port offs).mem := .ite h.cpsemTake h
theorem Canon.barRead {port p offs} (h : Canon s.mem) : Canon (s.barRead port p offs).mem :=
  .update (.complete (.ite h.windowRead h))
theorem Canon.hostWriteIn {port p a data} (h : Canon s.mem) : Canon (s.hostWriteIn port p a data).mem := by
  unfold State.hostWriteIn
  split
  · exact h
  split
  · exact h.complete
  · exact .ite h (.ite h.reachLines.storeBytes h.reachLines.storeBytes.portStores)

theorem Canon.hostReadIn {port p a n} (h : Canon s.mem) : Canon (s.hostReadIn port p a n).mem := by
  unfold State.hostReadIn
  split
  · exact h
  split
  · exact h.complete
  · exact .ite h (.ite h.complete (.ite h.windowRead.reachLines.complete h.windowRead.reachLines.complete.update))

theorem Canon.hostAtomicIn {port p a o} (h : Canon s.mem) : Canon (s.hostAtomicIn port p a o).mem := by
  unfold State.hostAtomicIn
  split
  · exact h
  split
  · split
    · exact .ite (.ite h h.reachLines.atomicAt.complete) h.complete
    · exact h.complete
  · exact h.complete

theorem Canon.sample {t} (h : Canon s.mem) : Canon (s.sample t).mem := h.tracePacket
theorem Canon.sampleTick {d} (h : Canon s.mem) : Canon (s.sampleTick d).mem := by
  unfold State.sampleTick
  dsimp only
  split
  · refine .foldl (fun s a h' => ?_) h
    refine .foldl (fun s a h'' => ?_) h'
    split
    · exact h''.sample
    · exact h''
  · exact h

theorem Canon.deviceBytes {l} (h : Canon s.mem) : Canon (s.deviceBytes l).mem := State.deviceBytes_wf l h
theorem Canon.drain {d k} (h : Canon s.mem) : Canon (s.drain d k).mem := by
  unfold State.drain
  dsimp only
  split
  · exact h
  split
  · exact .ite h.modDie.profNotice h.modDie
  · exact .ite h h.deviceBytes.modDie

theorem Canon.traceDrain {d} (h : Canon s.mem) : Canon (s.traceDrain d).mem := .ite h.drain.modDie h
theorem Canon.traceClocks {d c} (h : Canon s.mem) : Canon (s.traceClocks d c).mem :=
  .ite h h.traceDrain.modDie.drain.modDie

/-! ## What the module does of its own accord -/

theorem Canon.badWord {e} (h : Canon s.mem) : Canon (s.badWord e).mem := by
  unfold State.badWord
  split
  · exact h.raise
  · exact h

theorem Canon.coreClocks {core c} (h : Canon s.mem) : Canon (s.coreClocks core c).mem := by
  unfold State.coreClocks
  split
  · exact .countEvent (.foldl (fun _ _ h' => h'.slotClocks) h)
  · exact h

theorem Canon.lateArrivals {p n} (h : Canon s.mem) : Canon (s.lateArrivals p n).mem := by
  induction n generalizing s with
  | zero => exact h
  | succ k ih =>
    rw [State.lateArrivals]
    split
    · exact ih h.dropArrival
    · exact h

theorem Canon.lateRecords (h : Canon s.mem) : Canon s.lateRecords.mem := by
  unfold State.lateRecords
  refine .foldl (fun s a h' => ?_) h
  dsimp only
  exact h'.dropRecord

theorem Canon.overdue (h : Canon s.mem) : Canon s.overdue.mem := by
  refine .foldl (fun _ _ h' => h'.turnDue) (.hostHoldEnd (.powerTicks (.watchdogs (.gapTimeouts (.leaseEnds ?_)))))
  exact .lateRecords (.foldl (fun _ _ h' => h'.lateArrivals) (.foldl (fun _ _ h' => h'.refresh) h.agingTicks))

theorem Canon.coresClocks {c} (h : Canon s.mem) : Canon (s.coresClocks c).mem := by
  have cores {s : State} {l : List Nat} {n} (h : Canon s.mem) : Canon (l.foldl (fun s c => s.coreClocks c n) s).mem :=
    .foldl (fun _ _ h' => h'.coreClocks) h
  exact .ite h (.ite (cores (.update (cores h))) (cores h))

theorem Canon.sharedEvents {c} (h : Canon s.mem) : Canon (s.sharedEvents c).mem :=
  .ite h (.foldl (fun _ _ h' => .foldl (fun _ _ h'' => .ite (.foldl (fun _ _ h''' =>
      .ite h'''.countEvent h''') h''.update) h'') h') h)
theorem Canon.elapse {c ns} (h : Canon s.mem) : Canon (s.elapse c ns).mem := by
  have hc : Canon ((List.range 4).foldl (fun s d => s.traceClocks d c) ((s.coresClocks c).sharedEvents c)).mem :=
    .foldl (fun _ _ h' => h'.traceClocks) h.coresClocks.sharedEvents
  unfold State.elapse
  extract_lets a b d
  exact (setMr (s := d) (update hc)).overdue

theorem Canon.outsideWrites {l} (h : Canon s.mem) : Canon (s.outsideWrites l).mem := h.setAll.update

/-! ## One step -/

theorem Canon.execClauseIssue (h : Canon s.mem) : OutCanon (execClauseIssue s) := by
  unfold Machine.execClauseIssue OutCanon
  dsimp only
  split
  · exact h.clauseIssue
  · exact h

theorem Canon.execDualHashSweep (h : Canon s.mem) : OutCanon (execDualHashSweep s) := by
  unfold Machine.execDualHashSweep OutCanon
  dsimp only
  split
  · exact .ite h.sweepLine h
  · exact h

/-- Whatever instruction or event runs, it leaves canonical memory canonical. -/
theorem Canon.exec {i} (h : Canon s.mem) : OutCanon (exec i s) := by
  cases i with dsimp only [Machine.exec]
  | nop => exact h.issue fun _ _ h' => h'
  | smov | snot | spopc | sclz => exact h.issue fun _ _ h' => h'.scal1
  | sadd | ssub | smul | smulh | sand | sor | sxor | sshl | sshr | ssar | srot | smin | smax =>
    exact h.issue fun _ _ h' => h'.scal2
  | smad | ssel | sbfe => exact h.issue fun _ _ h' => h'.scal3
  | scmp => exact h.issue fun _ _ h' => h'.scmpEff
  | sbfi => exact h.issue fun _ _ h' => h'.sbfiEff
  | scvt => exact h.issue fun _ _ h' => h'.scvtEff
  | slit => exact h.issue fun _ _ h' => h'.slitEff
  | saddImm | smulImm | sandImm | sorImm | sxorImm | sshlImm | sshrImm | ssarImm | srotImm | sminImm | smaxImm
  | sbfeImm => exact h.issue fun _ _ h' => h'.scalI
  | sbfiImm => exact h.issue fun _ _ h' => h'.sbfiImmEff
  | br => exact h.issue fun _ _ h' => h'.brEff
  | brd => exact h.issue fun _ _ h' => h'.brdEff
  | brx => exact h.issue fun _ _ h' => h'.brxEff
  | call => exact h.issue fun _ _ h' => h'.callEff
  | ret => exact h.issue fun _ _ h' => h'.retEff
  | exit => exact h.issue fun _ _ h' => h'.exitEff
  | yield => exact h.issue fun _ _ h' => h'.yieldEff
  | srd => exact h.issue fun _ _ h' => h'.srdEff
  | callx => exact h.issue fun _ _ h' => h'.callxEff
  | vadd | vsub | vmul | vmulh | vand | vor | vxor | vshl | vshr | vsar | vmin | vmax =>
    exact h.issue fun _ _ h' => h'.vec2
  | vmad | vbfe | vsel => exact h.issue fun _ _ h' => h'.vec3
  | vnot | vabs | vneg => exact h.issue fun _ _ h' => h'.vec1
  | vpopc | vclz => exact h.issue fun _ _ h' => h'.vecCount
  | vbfi => exact h.issue fun _ _ h' => h'.vbfiEff
  | vcmp => exact h.issue fun _ _ h' => h'.vcmpEff
  | vaddImm | vmulImm | vandImm | vorImm | vxorImm | vshlImm | vshrImm | vsarImm | vminImm | vmaxImm =>
    exact h.issue fun _ _ h' => h'.vecI
  | fadd | fmul | fmin | fmax => exact h.issue fun _ _ h' => h'.flt2
  | ffma => exact h.issue fun _ _ h' => h'.flt3
  | fcmp => exact h.issue fun _ _ h' => h'.fcmpEff
  | frcp | frsq | fex2 | flg2 | fsin | fcos => exact h.issue fun _ _ h' => h'.long1
  | fsqrt => exact h.issue fun _ _ h' => h'.longEff
  | fclass => exact h.issue fun _ _ h' => h'.fclassEff
  | cvt | cvtNosat => exact h.issue fun _ _ h' => h'.cvtEff
  | hadd2F16 | hmul2F16 | hadd2Bf16 | hmul2Bf16 => exact h.issue fun _ _ h' => h'.pack2
  | hfma2F16 | hfma2Bf16 => exact h.issue fun _ _ h' => h'.pack3
  | shfl => exact h.issue fun _ _ h' => h'.shflEff
  | bcast => exact h.issue fun _ _ h' => h'.bcastEff
  | ballot => exact h.issue fun _ _ h' => h'.ballotEff
  | vote => exact h.issue fun _ _ h' => h'.voteEff
  | tred => exact h.issue fun _ _ h' => h'.tredEff
  | tscan => exact h.issue fun _ _ h' => h'.tscanEff
  | ld | ldAcq => exact h.issue fun _ _ h' => h'.ldEff
  | st | stRel => exact h.issue fun _ _ h' => h'.stEff
  | lds => exact h.issue fun _ _ h' => h'.ldsEff
  | sts => exact h.issue fun _ _ h' => h'.stsEff
  | atom | atomCas | red => exact h.issue fun _ _ h' => h'.atomEff
  | rdo => exact h.issue fun _ _ h' => h'.rdoEff
  | rdoset => exact h.issue fun _ _ h' => h'.rdosetEff
  | ldv => exact h.issue fun _ _ h' => h'.ldvEff
  | ldvLatest => exact h.issue fun _ _ h' => h'.ldvLatestEff
  | stv | stvRel => exact h.issue fun _ _ h' => h'.stvEff
  | vflr => exact h.issue fun _ _ h' => h'.vflrEff
  | vqry => exact h.issue fun _ _ h' => h'.vqryEff
  | acp => exact h.issue fun _ _ h' => h'.acpEff
  | acpw => exact h.issue fun _ _ h' => h'.acpwEff
  | lease => exact h.issue fun _ _ h' => h'.leaseEff
  | unlease => exact h.issue fun _ _ h' => h'.unleaseEff
  | pref => exact h.issue fun _ _ h' => h'.prefEff
  | cctl => exact h.issue fun _ _ h' => h'.cctlEff
  | fence => exact h.issue fun _ _ h' => h'.fenceEff
  | atoms | atomsCas => exact h.issue fun _ _ h' => h'.atomsEff
  | mfmt => exact h.issue fun _ _ h' => h'.mfmtEff
  | mma | mloop => exact h.issueRun fun _ _ h' => h'.mulEff
  | mzero => exact h.issue fun _ _ h' => h'.mzeroEff
  | mld => exact h.issue fun _ _ h' => h'.mldEff
  | mst => exact h.issue fun _ _ h' => h'.mstEff
  | mwait => exact h.issue fun _ _ h' => h'.mwaitEff
  | sgo => exact h.issue fun _ _ h' => h'.sgoEff
  | sstop => exact h.issue fun _ _ h' => h'.sstopEff
  | sqry => exact h.issue fun _ _ h' => h'.sqryEff
  | qfence => exact h.issue fun _ _ h' => h'.qfenceEff
  | bcp => exact h.issue fun _ _ h' => h'.bcpEff
  | qpop | qpush => exact h.issue fun _ _ h' => h'.slotEff
  | qrel => exact h.issue fun _ _ h' => h'.qrelEff
  | qstat => exact h.issue fun _ _ h' => h'.qstatEff
  | qtry => exact h.issue fun _ _ h' => h'.qtryEff
  | aset => exact h.issue fun _ _ h' => h'.asetEff
  | aadd => exact h.issue fun _ _ h' => h'.aaddEff
  | await => exact h.issue fun _ _ h' => h'.awaitEff
  | aqry => exact h.issue fun _ _ h' => h'.aqryEff
  | emit => exact h.issueRun fun _ _ h' => h'.emitVEff
  | emitTeam => exact h.issueRun fun _ _ h' => h'.emitTeamEff
  | emitx => exact h.issueRun fun _ _ h' => h'.emitxEff
  | emitxTeam => exact h.issueRun fun _ _ h' => h'.emitxTeamEff
  | rrd => exact h.issue fun _ _ h' => h'.rrdEff
  | rlen => exact h.issue fun _ _ h' => h'.rlenEff
  | trap => exact h.issue fun _ _ _ => trivial
  | tretFix => exact h.issue fun _ _ h' => h'.tretEff fun _ _ _ h'' => h''.tretFixK
  | tretSkip => exact h.issue fun _ _ h' => h'.tretEff fun _ _ _ h'' => h''.tretSkipK
  | tretRetry => exact h.issue fun _ _ h' => h'.tretEff fun _ _ _ h'' => h''.tretRetryK
  | tretKill => exact h.issue fun _ _ h' => h'.tretEff fun _ _ _ h'' => h''.tretKillK
  | sysrd | dbgdataRead => exact h.issue fun _ _ h' => h'.sysrdEff
  | syswr | gptrootWrite | hptrootWrite | scrsplitWrite | domcfgWrite | dtimeWrite | gtoffWrite | modeWrite
  | saferstWrite | profctlWrite | pmselWrite | trcctlWrite | dbgdataWrite => exact h.sysWr
  | ckpt => exact h.issue fun _ _ h' => h'.ckptEff
  | bkpt => exact h.issue fun _ _ h' => h'.bkptEff
  | tmark => exact h.issue fun _ _ h' => h'.tmarkEff
  | ringrst => exact h.issue fun _ _ h' => h'.ringrstEff
  | presize | plend | prevoke => exact h.issue fun _ _ h' => h'.unitEff
  | pgret => exact h.issue fun _ _ h' => h'.pgretEff
  | vrcmdCreate | vrcmdDestroy | ringcbEnable | ringcbDisable | pctlFreeze | pctlThaw | pctlReset | dbgrunResume
  | dbgrunStep | dbgrunSkip | dbgrunKill | dbgrunHalt | rplctlLog | rplctlGo => exact h.sysWrOn
  | clauseIssue => exact h.execClauseIssue
  | faultDeliver => exact h.faultDeliver
  | loadDataReturn => exact h.loadReturn
  | storePerformed => exact h.storePerform
  | atomicPerformed => exact h.atomicPerform
  | rdoContributionArrive => exact h.rdoEvent
  | versionStoreRecord => exact h.versionStoreRecord
  | ldvWake => exact h.ldvWake
  | parkedRetry => exact h.parkedRetry
  | floorApply => exact h.floorApply
  | vflrPerformed => exact h.vflrPerformed
  | acpPerformed => exact h.acpPerform
  | bcpComplete => exact Canon.ite h.bcpStep h.bcpRun
  | bcpTranslationFail => exact Canon.ite h.rowLost h.bcpFail
  | arrivalRedirect => exact h.arrivalRedirect
  | matrixEntryPerformed => exact Canon.ite h.matrixRead h.matrixEntry
  | streamTileComplete => exact Canon.ite h.tileStep h.tileComplete
  | streamEngineFault => exact h.engineFails
  | emitPerformed => exact h.emitPerformed
  | teamRetire => exact h.teamRetire
  | teamKill => exact h.teamKill
  | pgretDone => exact Canon.ite h.hostHoldEnd h.pgretDone
  | recordEnqueue => exact h.recordEnqueue
  | admissionDecision => exact h.admission
  | coalesceTimeout => exact h.refresh
  | agingTick => exact h.agingTick
  | instanceEnd => exact h.endInstance
  | arrivalRetry => exact h.arrivalRetry
  | gapTimeout => exact h.gapTimeout
  | watchdogExpire => exact h.watchdogExpire
  | leaseExpire => exact h.leaseExpire
  | nearCopyExpire => exact h.nearDrop
  | farCopyExpire => exact h.farDrop
  | recReceive => exact h.arrived fun _ h' => h'.recReceive
  | ackReceive => exact h.arrived fun _ h' => h'.ackReceive
  | nakReceive => exact h.arrived fun _ h' => h'.nakReceive
  | backoffExpire => exact h.backoffExpire
  | skipReceive => exact h.arrived fun _ h' => h'.skipReceive
  | repltoExpire => exact Canon.ite h.dropRecord h.dropArrival
  | vwakeReceive => exact h.arrived fun _ h' => .elim h' fun _ => h'.vwakeReceive
  | vflrMsgReceive => exact h.arrived fun _ h' => .elim h' fun _ => h'.vflrMsg
  | staggerReceive => exact h.arrived fun _ h' => h'.staggerReceive
  | staggerHoldEnd => exact h.staggerEnd
  | remoteAccessArrive => exact h.arrived fun _ h' => h'.remoteAccess
  | remoteTimeout => exact h.remoteTimeout
  | ingressPoll => exact h.ingressPoll
  | ctrlLoad => exact h.ctrlLoad
  | ctrlUnload => exact h.ctrlUnload
  | ctrlWatch => exact h.ctrlWatch
  | reportWrite => exact h.reportWrite
  | hostWriteInbound => exact Canon.ite (.ite h.barWrite h) h.hostWriteIn
  | hostReadInbound => exact Canon.ite (.ite h.barRead h) h.hostReadIn
  | hostAtomicInbound => exact h.hostAtomicIn
  | cpsemAcquire => exact h.cpsemRead
  | cpsemRelease => exact h.cpsemFree
  | controlLinkLoss => exact h.linkLoss
  | cqconsWrite => exact Canon.ite h.cqcons h
  | ualinkDegrade => exact Canon.ite h.degrade h
  | freezeComplete => exact h.freezeComplete
  | traceSampleTick => exact h.sampleTick
  | teamStop => exact h.teamStop
  | replayDone => exact h.replayDone
  | plendDone => exact h.lendDone
  | prevokeDone => exact h.revokeDone
  | presizeDone => exact h.resizeDone
  | teamMigrate => exact h.teamMigrate
  | teamRestore => exact h.teamRestore
  | dualHashSweep => exact h.execDualHashSweep
  | windowClose => exact h.windowClose
  | pageMigrate => exact h.pageMigrate
  | checkpointCut => exact h.checkpointCut
  | checkpointCommit => exact h.checkpointCommit
  | turnEnd => exact h.turnEnds
  | turnStart => exact h.turnStarts
  | rollback => exact h.rollback
  | safeCheckpointHold => exact Canon.ite h.safeTake h.safeHold
  | uncorrectableError => exact h.damage
  | pageRetireDone => exact h.pageRetire
  | unitFail => exact Canon.ite (.ite h.sliceFail h) (.ite h.coreFail h)
  | firmwareVerify => exact h.firmware
  | attctlSign => exact Canon.ite h.sign h
  | attestDone => exact h.attestDone
  | sysselRead => exact h.hostRead
  | sysselWrite | sysselPresize | sysselPlend | sysselPrevoke | sysselPgret => exact h.hostWrite
  | pwrctlWrite => exact Canon.ite h.pwrctl h
  | powerTick => exact h.powerTick
  | fwgovEngage => exact Canon.ite h.engage h
  | fwgovRelease => exact Canon.ite h.disengage h
  | governorWindow => exact h.governorWindow
  | arrayGate => exact h.arrayGate
  | arrayWake => exact h.arrayWake
  | traceDrain => exact h.traceDrain
  | moduleReset => exact moduleReset
  | safeRestoreDone => exact h.safeRestore
  | partitionClearDone => exact h.partitionClear
  | rootDropDone => exact Canon.ite h.hostHoldEnd h.rootDropDone

theorem Canon.issueStep (h : Canon s.mem) : OutCanon (issueStep s) := by
  unfold Machine.issueStep
  dsimp only
  split
  · exact h.switched
  · exact h.switched.exec
  · exact h.switched.exec
  · exact h.switched.badWord

theorem Canon.eventStep {i e} (h : Canon s.mem) : OutCanon (eventStep i e s) :=
  .ite (Canon.exec (s := { s with ev := e }) h) trivial

theorem Canon.step (h : Canon s.mem) : OutCanon (step s) := by
  unfold Machine.step
  split
  · exact Canon.eventStep (s := { s with agenda := _ }) h
  · exact Canon.issueStep (s := { s with agenda := _, focus := _, stalled := _ }) h
  · exact Canon.elapse (s := { s with agenda := _ }) h
  · exact Canon.outsideWrites (s := { s with agenda := _ }) h
  · split
    · split
      · exact Canon.eventStep (s := { s with stalled := _ }) h
      · exact h
    · exact h.issueStep
end
end Sys2Proof.Machine

open Sys2Proof Sys2Proof.Machine in
/-- Settles O5: whatever a step runs, each operation in it keeps the canonical form. -/
theorem memoryStaysCanonical : Obligations.MemoryStaysCanonical := by
  unfold Obligations.MemoryStaysCanonical
  intro s s' hwf hstep
  have h : OutCanon (step s) := Canon.step (s := s) hwf
  rwa [hstep] at h
end

section
/-! PROOF. Obligation O25: atomics and reductions at issue (R150-R156). -/

open Sys2Proof Sys2Proof.Machine in
/-- Settles O25: past its checks each of the six leaves its lanes' accesses behind. -/
theorem atomicsAtIssue : Obligations.AtomicsAtIssue := by
  unfold Obligations.AtomicsAtIssue
  intro op sc o ty x accs n dst reqs bad left scratch leftIn
  refine ⟨?atom, ?cas, ?red, ?atoms, ?atomsCas, ?rdo⟩ <;> refine Completes.of_ok (fun _ => rfl) fun s t h => ?_
  case atom | cas | red => exact withAccess_of_passes h _
  case atoms | atomsCas => exact withScratch_of_ok _ h
  case rdo => exact withAccess_of_passes h _
end

section
/-! PROOF. Obligation O26: misaligned accesses are fault 0x13 (R139, R140, R153, R158, R182). -/
namespace Sys2Proof.Machine

variable {s : State} {t : Team} {k : AccKind} {cl : PClass} {bad : Nat → Bool} {r w : Bool} {a : Opnd} {n l : Nat}
  {ls : List Nat}

/-- The lowest lane's address is not a multiple of its width, where the target offers the operation. -/
theorem withAccess_of_misaligned (f : State → List Acc → Eff) {lanes : List Nat} (hl : lanes = l :: ls)
    (hb : s.targetBad t bad (addrOf s t a l) = false) (ha : addrOf s t a l % n ≠ 0) :
    withAccess s t k cl bad r w (memReqs s t lanes a 0 n n) f =
      .fault 0x13 (BitVec.ofNat 64 (va56 (addrOf s t a l))) (laneWord l) := by
  subst hl
  simp only [withAccess, memReqs, List.map_cons, State.checkReqs, Nat.add_zero, hb, ha, Bool.false_eq_true, if_false]
  rfl

/-- The same in scratch. -/
theorem withScratch_of_misaligned (f : List Acc → Eff) {lanes : List Nat} (hl : lanes = l :: ls)
    (ha : scratchOf s t a l % n ≠ 0) :
    withScratch s t lanes a 0 n n f = .fault 0x13 (BitVec.ofNat 64 (scratchOf s t a l)) (laneWord l) := by
  subst hl
  simp only [withScratch, List.map_cons, scratchReqs, Nat.add_zero, ha, ne_eq, not_false_eq_true, if_true]
  rfl

theorem withBlock_of_misaligned {va al : Nat} (f : State → List W64 → Eff) (ha : va56 va % al ≠ 0) :
    withBlock s t va n al f = .fault 0x13 (BitVec.ofNat 64 (va56 va)) noLane := by
  unfold withBlock withBlockAnd
  exact if_pos ha

end Sys2Proof.Machine

open Sys2Proof Sys2Proof.Machine in
/-- Settles O26: the first lane's check fails, before any translation of its range. -/
theorem misalignedAccesses : Obligations.MisalignedAccesses := by
  unfold Obligations.MisalignedAccesses
  intro op sc o ty tv ts acq x y l r n va info lane bad
  refine ⟨?atom, ?cas, ?red, ?atoms, ?atomsCas, ?ldv, ?stv, ?mfmt⟩
  case atom | cas | red =>
    exact Faults.of_fault (fun _ => rfl) fun s t ⟨hl, hb, ha⟩ => withAccess_of_misaligned _ hl hb ha
  case atoms | atomsCas =>
    exact Faults.of_fault (fun _ => rfl) fun s t ⟨hl, ha⟩ => withScratch_of_misaligned _ hl ha
  case ldv | stv =>
    simp only [List.forall_mem_cons, List.not_mem_nil, false_implies, implies_true, and_true]
    constructor <;> exact Faults.of_fault (fun _ => rfl) fun s t ⟨hl, hb, ha⟩ => withAccess_of_misaligned _ hl hb ha
  case mfmt =>
    refine Faults.of_fault (fun _ => rfl) fun s t ⟨hm, hn, ha⟩ => ?_
    exact (mfmtEff_eq hm (if_neg hn)).trans (withBlock_of_misaligned _ ha)
end

section
/-! PROOF. Obligation O27: version instructions at issue (R158-R163). -/

open Sys2Proof Sys2Proof.Machine in
/-- Settles O27: past its checks each of the six leaves its accesses behind, with the regions that they name. -/
theorem versionInstructions : Obligations.VersionInstructions := by
  unfold Obligations.VersionInstructions
  intro ty tz sc acq x lq sq one order lOk sOk store
  refine ⟨?_, ?_, ?_, ?_, ?_, ?_⟩ <;>
    exact Completes.of_ok (fun _ => rfl) fun s t h => withAccess_of_passes h _
end

section
/-! PROOF. Obligation O28: copies, leases, prefetches, cache control, fences and ordered lines at issue (R149, R155, R164-R176). -/
namespace Sys2Proof.Machine

section
variable {s : State} {t : Team} {x : RArgs} {ps : List (Nat × Nat × Tlb)}

/-- The conditions of `lease` on the range it names (R172, R173). -/
structure LeaseFits (s : State) (t : Team) (x : RArgs) : Prop where
  page : va56 (addrOf s t x.a 0) % 4096 = 0
  pages : (uni s t x.b).toNat % 4096 = 0
  some_ : (uni s t x.b).toNat ≠ 0
  least : 1 ≤ (uni s t x.c).toNat
  most : (uni s t x.c).toNat ≤ 1000000

/-- The conditions of `lease` on the partition once the pages `ps` are found: no host memory, every line at a slice, room, no
other lease there (R172, R173, R288). -/
structure LeaseFree (q : State) (t : Team) (va len : Nat) (ps : List (Nat × Nat × Tlb)) : Prop where
  inside : (q.turned t.part && (linesOf ps).any fun k => q.outside (64 * k)) = false
  sliced : (linesOf ps).all (fun k => !q.isHost (64 * k) && !q.noSlice (64 * k)) = true
  room : len + (((q.part t.part).leases).map (·.len)).sum ≤ q.preg t.part 2
  few : (q.part t.part).leases.length < 64
  apart : ((q.part t.part).leases.all fun l => (overlapAt l.base.toNat l.len va len).isNone) = true
  pins : q.pinFits ps = true

theorem leaseEff_of_free (hf : LeaseFits s t x) {q : State}
    (hq : s.checkRange t.core t.part t.level .load .plain (va56 (addrOf s t x.a 0)) (uni s t x.b).toNat = (q, .ok ps))
    (hp : LeaseFree q t (va56 (addrOf s t x.a 0)) (uni s t x.b).toNat ps) :
    leaseEff x s t = .ok ((q.reachLines t.part ((linesOf ps).map fun k => lineOf (q.norm (64 * k)))).modPart t.part fun p => { p with
      leases := p.leases ++
        [⟨BitVec.ofNat 64 (va56 (addrOf s t x.a 0)), (uni s t x.b).toNat, q.now + 1000 * (uni s t x.c).toNat⟩] }) := by
  obtain ⟨page, pages, some_, least, most⟩ := hf
  obtain ⟨inside, sliced, room, few, apart, pins⟩ := hp
  simp only [List.all_eq_true, Bool.and_eq_true, Bool.not_eq_true'] at sliced
  have host : ((linesOf ps).any fun k => q.isHost (64 * k)) = false := by
    simpa using fun k hk => (sliced k hk).1
  have slice : ((linesOf ps).any fun k => q.noSlice (64 * k)) = false := by
    simpa using fun k hk => (sliced k hk).2
  have overlaps : ((q.part t.part).leases.any fun l =>
      (overlapAt l.base.toNat l.len (va56 (addrOf s t x.a 0)) (uni s t x.b).toNat).isSome) = false := by
    simpa using apart
  have dur : within (uni s t x.c).toNat 1 1000000 = true := by simp [within, least, most]
  unfold leaseEff
  simp only [page, pages, some_, dur, hq, inside, host, slice, overlaps, pins, Nat.not_lt.2 room, Nat.not_le.2 few, ne_eq,
    not_true_eq_false, Bool.not_true, Bool.false_eq_true, or_self, if_false]

/-- `cctl` of a range that translates and may be loaded (R176). -/
theorem cctlEff_of_permits {op : CC} (least : 1 ≤ (uni s t x.b).toNat) (most : (uni s t x.b).toNat ≤ 2 ^ 32) {q : State}
    (hq : s.xlate t.core t.part (rangePieces (va56 (addrOf s t x.a 0)) (uni s t x.b).toNat) = (q, .ok ps))
    (hp : (ps.all fun e => e.2.2.permits t.level .load) = true) :
    cctlEff op x s t = .ok (q.pendAdd t x.la (some 1)
      (.cctl ((touchedLines ps).map fun l => lineOf (q.norm (64 * l))) (op != .inv) (op != .clean)) false false [] []) := by
  have len : within (uni s t x.b).toNat 1 (2 ^ 32) = true := by simp [within, least]; simpa using most
  have open_ : ps.find? (fun (_, _, e) => !e.permits t.level .load) = none := by
    simpa using hp
  unfold cctlEff
  simp only [len, hq, open_, Bool.not_true, Bool.false_eq_true, if_false]

theorem fenceEff_of_ready {op : FN} {sc : Scope} (h : fenceReady op sc s t = true) :
    fenceEff op sc s t = .ok (
      let s := if op = .rel then s else s.acquire t sc
      let s := if op = .acq then s else s.modTeam t.id fun u => u.released (some sc)
      if op ≠ .acq ∧ 2 ≤ sc.code then s.modTeam t.id fun u => { u with relFence := true } else s) := by
  unfold fenceEff
  simp only [h, Bool.not_true, Bool.false_eq_true, if_false, beq_iff_eq, Bool.and_eq_true, bne_iff_ne, decide_eq_true_eq]

/-- `rdoset` of lines without a gap, for which their slices have state (R155). -/
theorem rdosetEff_of_set {q v v' : State} {accs : List Acc}
    (hp : Passes s t .store .plain (s.rdoBad t) false true (rdosetReqs s t x))
    (hq : passed s t .store .plain (s.rdoBad t) (rdosetReqs s t x) = (q, accs))
    (hv : q.moveLines (q.linesAt (accs.flatMap (·.pas))) = v) (hg : v.firstGap accs = none)
    (hs : v.setLines t (accs.map fun a => (a, lane32 v t x.b a.lane)) = (v', none)) :
    rdosetEff x s t = .ok v' := by
  have h : rdosetEff x s t = withAccess s t .store .plain (s.rdoBad t) false true (rdosetReqs s t x) fun q accs =>
      let v := q.moveLines (q.linesAt (accs.flatMap (·.pas)))
      let set := v.setLines t (accs.map fun a => (a, lane32 v t x.b a.lane))
      match v.firstGap (accsBefore set.2 accs), set.2 with
      | some (s, line, idx), _ => .faultIn s 0x15 line idx
      | none, some a => .fault 0x14 a.va (laneWord a.lane)
      | none, none => .ok set.1 := rfl
  rw [h, withAccess_of_passes hp, hq]
  simp only [hv, hs, accsBefore, hg]
end

end Sys2Proof.Machine

open Sys2Proof Sys2Proof.Machine in
/-- Settles O28: what each of the nine does where its conditions hold. -/
theorem copiesLeasesAndCaches : Obligations.CopiesLeasesAndCaches := by
  unfold Obligations.CopiesLeasesAndCaches
  intro tag g lv op fn sc x y
  refine ⟨?acp, ?acpw, fun ps => ?lease, ?pref, fun ps => ?cctl, ?fence, ?rdoset⟩ <;>
    refine Completes.of_ok (fun _ => rfl) fun s t h => ?_
  case acp => exact withAccess_of_passes h _
  case acpw => exact if_pos (beq_iff_eq.2 h)
  case lease =>
    obtain ⟨page, pages, some_, least, most, ok, inside, sliced, room, few, apart, pins⟩ := h
    exact leaseEff_of_free ⟨page, pages, some_, least, most⟩ (Prod.ext rfl ok) ⟨inside, sliced, room, few, apart, pins⟩
  case pref => rfl
  case cctl =>
    obtain ⟨least, most, ok, permits⟩ := h
    exact cctlEff_of_permits least most (Prod.ext rfl ok) permits
  case fence => exact fenceEff_of_ready h
  case rdoset =>
    obtain ⟨hp, hg, hs⟩ := h
    exact rdosetEff_of_set hp rfl rfl hg (Prod.ext rfl hs)
end

section
/-! PROOF. Obligation O30: stream engines and bulk copies at issue (R166, R168, R194-R200, R386). -/
namespace Sys2Proof.Machine

section
variable {s s' : State} {t : Team} {va n : Nat} {x : XArgs} {y : RArgs} {w : List W64} {e : Engine}

/-- A block that can be read meets none of the faults that precede a watch. -/
theorem State.blockFault_of_reads (h : BlockReads s t va n) : s.blockFault t va n 64 = none := by
  obtain ⟨ha, -, hl⟩ := h
  unfold State.blockFault
  simp only [ha, ne_eq, not_true_eq_false, if_false]
  split
  · next hb => rw [hb] at hl; exact hl.elim
  · rfl

/-- The shape of its record's handle gives the row of a run (R246, R309). -/
def shaped (w : List W64) : Bool := Lay.hnd w != 0 && Lay.rlen w == 0

/-- The run that `sgo` gives its engine for the layout `w` (R195). -/
def layoutRun (s : State) (t : Team) (x : XArgs) (w : List W64) : Run :=
  ⟨w, BitVec.ofNat 64 (if Lay.hnd w = 0 then fld w 0 55 0 else bitsOf (Lay.hnd w) 55 6 * 64), uni s t x.a, Lay.start w, t.level,
    s.observed t⟩

/-- What `sgo` does with a record whose row is resolved. -/
def sgoRun (t : Team) (x : XArgs) (va shapes : Nat) (e : Engine) (s : State) (w : List W64) : Eff :=
  if !layoutOk t x.xo.val w (shapes != 0) then .fault 0x09 (BitVec.ofNat 64 va) noLane
  else if e.st == .faulted then engineFault x.xo.val e
  else .ok (s.modTeam t.id fun u => u.addRun x.xo.val e (layoutRun s t x w))

theorem sgoRun_of_ok {shapes : Nat} (hl : layoutOk t x.xo.val w (shapes != 0) = true) (he : e.st ≠ .faulted) :
    sgoRun t x va shapes e s w = .ok (s.modTeam t.id fun u => u.addRun x.xo.val e (layoutRun s t x w)) := by
  have st : (e.st == .faulted) = false := beq_eq_false_iff_ne.2 he
  unfold sgoRun
  simp only [hl, st, Bool.not_true, Bool.false_eq_true, if_false]

/-- The faults of the shape's block, which precede a watch of the record's (R398). -/
def shapeFault (t : Team) (shapes : Nat) (s : State) (w : List W64) : Option Eff :=
  if shaped w && shapes != 0 && Lay.zeroOk w then s.blockFault t (shapes + 64 * bitsOf (Lay.hnd w) 63 56) 8 64 else none

/-- `sgo` of a bound record and an engine that the team holds (R195). -/
theorem sgoEff_eq (hb : t.binding s x.bnd.val 1 = some va) (he : t.engine x.xo.val = some e) :
    sgoEff x s t = withBlockAnd (shapeFault t (s.shapesOf t)) s t va 16 64 fun s' w =>
      if shaped w then
        if s.shapesOf t = 0 ∨ !Lay.zeroOk w then .fault 0x09 (BitVec.ofNat 64 va) noLane
        else withBlock s' t (s.shapesOf t + 64 * bitsOf (Lay.hnd w) 63 56) 8 64 fun s'' sh =>
          sgoRun t x va (s.shapesOf t) e s'' (withRow w (shapeRow sh))
      else sgoRun t x va (s.shapesOf t) e s' w := by
  unfold sgoEff
  simp only [hb, he]
  rfl

/-- A record that gives its row itself. -/
theorem sgoEff_of_plain (hb : t.binding s x.bnd.val 1 = some va) (he : t.engine x.xo.val = some e) (hr : BlockReads s t va 16)
    (hs : shaped (blockOf s t va 16).2 = false) :
    sgoEff x s t = sgoRun t x va (s.shapesOf t) e (blockOf s t va 16).1 (blockOf s t va 16).2 := by
  rw [sgoEff_eq hb he, withBlockAnd_of_reads hr (by simp [shapeFault, hs])]
  simp [hs]

/-- A record that takes its row from a shape whose block can be read. -/
theorem sgoEff_of_shaped (hb : t.binding s x.bnd.val 1 = some va) (he : t.engine x.xo.val = some e) (hr : BlockReads s t va 16)
    (hw : blockOf s t va 16 = (s', w)) (hs : shaped w = true) (hz : Lay.zeroOk w = true) (hn : s.shapesOf t ≠ 0)
    (hb' : BlockReads s' t (s.shapesOf t + 64 * bitsOf (Lay.hnd w) 63 56) 8) :
    sgoEff x s t =
      let q := blockOf s' t (s.shapesOf t + 64 * bitsOf (Lay.hnd w) 63 56) 8
      sgoRun t x va (s.shapesOf t) e q.1 (withRow w (shapeRow q.2)) := by
  rw [sgoEff_eq hb he, withBlockAnd_of_reads hr, hw]
  · simp only [hs, hn, hz, Bool.not_true, Bool.false_eq_true, or_self, if_true, if_false]
    exact withBlock_of_reads hb'
  · rw [hw]
    simp only [shapeFault, State.blockFault_of_reads hb', ite_self]

/-- `sqry` and `sstop` of an engine that the team holds. -/
theorem sstopEff_of_held (he : t.engine x.xo.val = some e) :
    sstopEff x s t = .ok (s.modTeam t.id fun u => u.stopEngine x.xo.val e) := by
  simp only [sstopEff, he]
theorem sqryEff_of_held (he : t.engine x.xo.val = some e) : sqryEff x s t = .ok (result s t x.la x.d e.query) := by
  simp only [sqryEff, he]
  rfl

/-- `qfence` of engines that the team holds and that have not faulted (R200). -/
theorem qfenceEff_of_drained (hm : (lo32 (uni s t y.a)).toNat < 2 ^ 17)
    (he : ∀ k < 4, (lo32 (uni s t y.a)).getLsbD (1 + k) = true → ∃ e, t.engine k = some e ∧ e.st ≠ .faulted)
    (hd : s.drained t (lo32 (uni s t y.a)) = true) : qfenceEff y s t = .ok s := by
  have held : (List.range 4).any (fun k => (lo32 (uni s t y.a)).getLsbD (1 + k) && (t.engine k).isNone) = false := by
    rw [List.any_eq_false]
    intro k hk h
    obtain ⟨hb, hn⟩ := Bool.and_eq_true_iff.1 h
    obtain ⟨e, hs, -⟩ := he k (List.mem_range.1 hk) hb
    simp [hs] at hn
  have sound : (List.range 4).find? (fun k => (lo32 (uni s t y.a)).getLsbD (1 + k) && (t.engine k).any (·.st == .faulted)) =
      none := by
    rw [List.find?_eq_none]
    intro k hk h
    obtain ⟨hb, hf⟩ := Bool.and_eq_true_iff.1 h
    obtain ⟨e, hs, hn⟩ := he k (List.mem_range.1 hk) hb
    simp [hs, hn] at hf
  unfold qfenceEff
  simp only [Nat.div_eq_of_lt hm, held, sound, hd, ne_eq, not_true_eq_false, Bool.false_eq_true, or_self, if_false, if_true]

/-- The block that `bcp` names, once its engine is one of the four. -/
theorem bcpEff_eq (he : (uni s t y.b).toNat ≤ 3) :
    bcpEff y s t = withBlockAnd (copyFault t) s t (uni s t y.a).toNat 8 64 fun q w =>
      if !blockOk q t w then .fault 0x17 (BitVec.ofNat 64 (va56 (uni s t y.a).toNat)) noLane
      else
        let q := (q.copyBad t w).1
        let c : Copy := ⟨t.id, t.nseq, t.part, t.core, BitVec.ofNat 64 (va56 (uni s t y.a).toNat), w, 0, 0, false, t.word, [],
          none, false, none, 0, t.level, q.observed t⟩
        .ok ((q.setCopies (dieOfCore t.core) (uni s t y.b).toNat
          ((q.die (dieOfCore t.core)).copies (uni s t y.b).toNat ++ [c])).modTeam t.id fun u =>
            { u.addCnt 4 with nseq := u.nseq + 1 }) :=
  if_neg (Nat.not_lt.2 he)
end

end Sys2Proof.Machine

open Sys2Proof Sys2Proof.Machine in
/-- Settles O30: past its checks each of them gives its engine the work, and an unanswered block is fault 0x18. -/
theorem engineInstructions : Obligations.EngineInstructions := by
  unfold Obligations.EngineInstructions
  intro x y va e w sh shaped run bound cva c
  refine ⟨?plain, ?shaped, fun i => ?lostRun, fun i => ?lostCopy, ?sstop, ?sqry, ?qfence, ?bcp⟩
  case plain =>
    refine Completes.of_ok (fun _ => rfl) fun s t ⟨⟨hb, he, hst, hr⟩, hs, hl⟩ => ?_
    have plain : Machine.shaped (w s t) = false := by
      simpa [Machine.shaped, shaped] using hs
    rw [sgoEff_of_plain hb he hr plain]
    exact sgoRun_of_ok hl hst
  case shaped =>
    refine Completes.of_ok (fun _ => rfl) fun s t ⟨⟨hb, he, hst, hr⟩, hs, hn, hz, hb', hl⟩ => ?_
    have row : Machine.shaped (w s t) = true := by
      simpa [Machine.shaped, shaped] using hs
    rw [sgoEff_of_shaped hb he hr rfl row hz hn hb']
    exact sgoRun_of_ok (by rw [bne_iff_ne.2 hn]; exact hl) hst
  case lostRun =>
    exact Faults.of_fault (fun _ => rfl) fun s t ⟨hb, he, hu⟩ => (sgoEff_eq hb he).trans (withBlockAnd_of_unanswered hu)
  case lostCopy =>
    exact Faults.of_fault (fun _ => rfl) fun s t ⟨he, hu⟩ => (bcpEff_eq he).trans (withBlockAnd_of_unanswered hu)
  case sstop => exact Completes.of_ok (fun _ => rfl) fun s t h => sstopEff_of_held h
  case sqry => exact Completes.of_ok (fun _ => rfl) fun s t h => sqryEff_of_held h
  case qfence => exact Completes.of_ok (fun _ => rfl) fun s t ⟨hm, he, hd⟩ => qfenceEff_of_drained hm he hd
  case bcp =>
    refine Completes.of_ok (fun _ => rfl) fun s t ⟨he, hr, hok, hbad⟩ => ?_
    rw [bcpEff_eq he, withBlockAnd_of_reads hr]
    · exact if_neg (by rw [show blockOk (blockOf s t _ 8).1 t (blockOf s t _ 8).2 = true from hok]; decide)
    · unfold copyFault
      rw [show ((blockOf s t (uni s t y.a).toNat 8).1.copyBad t (blockOf s t (uni s t y.a).toNat 8).2).2 = none from hbad]
      exact ite_self _
end

section
/-! PROOF. Obligation O31: scratch rings and arrival words (R211-R217). -/
namespace Sys2Proof.Machine

section
variable {s : State} {t : Team} {x : RArgs} {r : Ring} {q : Fin 32}

/-- A ring that is not in error is used. -/
theorem withRing_of_sound {k : Ring → Eff} {q : Nat} (hr : t.ring? q = some r) (he : r.err = false) :
    withRing t q k = k r := by
  simp only [withRing, hr, he, Bool.false_eq_true, if_false]

theorem slotEff_of_avail (hr : t.ring? q.val = some r) (he : r.err = false) {drain : Bool} (hd : r.drain = drain)
    (ha : 1 ≤ r.avail) : slotEff drain q x s t = takeSlot s t x r := by
  unfold slotEff
  rw [withRing_of_sound hr he]
  simp only [hd, bne_self_eq_false, ha, Bool.false_eq_true, if_false, if_true]

/-- Word 1 of a ring's descriptor: HEAD, TAIL and HOLD from its low end (R211). -/
theorem Ring.word1_eq (r : Ring) :
    r.word1 = BitVec.ofNat 64 (r.head.toNat + 2 ^ 16 * r.tail.toNat + 2 ^ 32 * r.hold.toNat) := by
  have hh := r.head.isLt
  have ht := r.tail.isLt
  have ho := r.hold.isLt
  apply BitVec.eq_of_toNat_eq
  simp only [Ring.word1, BitVec.toNat_append, BitVec.toNat_ofNat, Nat.zero_shiftLeft, Nat.zero_or, Nat.zero_mod]
  rw [Nat.mod_eq_of_lt (by omega), ← Nat.shiftLeft_add_eq_or_of_lt hh, ← Nat.shiftLeft_add_eq_or_of_lt (by
    rw [Nat.shiftLeft_eq]; omega)]
  simp only [Nat.shiftLeft_eq]
  omega

theorem qrelEff_of_held (hr : t.ring? q.val = some r) (he : r.err = false) (hh : r.hold ≠ 0) (hq : t.scratchQuiet = true) :
    qrelEff q s t = .ok (s.modTeam t.id fun u => u.setRing { r with
      hold := r.hold - 1
      tail := if r.drain then r.tail + 1 else r.tail
      head := if r.drain then r.head else r.head + 1 }) := by
  unfold qrelEff
  rw [withRing_of_sound hr he]
  simp only [hh, hq, Bool.not_true, Bool.false_eq_true, if_false]
  cases r.drain <;> rfl

theorem asetEff_of_checked (hc : arriveCheck t noLaneN (scratchOf s t x.a 0) (uni s t x.b).toNat = none)
    (hq : t.wordQuiet (scratchOf s t x.a 0) = true) :
    asetEff x s t = .ok (s.modTeam t.id fun u => u.putArrive (scratchOf s t x.a 0)
      { u.arrive? (scratchOf s t x.a 0) with target := (uni s t x.b).toNat }.carry) := by
  simp only [asetEff, hc, hq, Bool.not_true, Bool.false_eq_true, if_false]

/-- The lanes of `aadd`, with the offsets of their words and their amounts. -/
def addends (s : State) (t : Team) (x : RArgs) : List (Nat × Nat × Nat) :=
  (t.active x.g).map fun l => (l, scratchOf s t x.a l, (opnd s t (.int true) x.b l).toNat)

theorem aaddEff_of_fits {u : Team} (hc : ((addends s t x).all fun l => (arriveCheck t l.1 l.2.1 l.2.2).isNone) = true)
    (hr : t.coreReleased = true) (ha : addLanes t (addends s t x) = .ok u) :
    aaddEff x s t = .ok (s.modTeam t.id fun v => { v with
      scr := u.scr
      scrWritten := u.scrWritten
      scrPoison := u.scrPoison }) := by
  have checked : (addends s t x).findSome? (fun (l, off, b) => arriveCheck t l off b) = none := by
    rw [List.findSome?_eq_none_iff]
    intro l hl
    exact Option.isNone_iff_eq_none.1 (List.all_eq_true.1 hc l hl)
  unfold addends at checked ha
  simp only [aaddEff, checked, hr, ha, Bool.not_true, Bool.false_eq_true, if_false]

/-- An arrival word that passes its checks, of which nothing is unperformed, is read. -/
theorem withWord_of_checked {a : Opnd} {k : Nat → Arrive → Eff} (hc : arriveCheck t noLaneN (scratchOf s t a 0) 0 = none)
    (hq : t.wordQuiet (scratchOf s t a 0) = true) (ht : (t.arrive? (scratchOf s t a 0)).top = 0) :
    withWord s t a k = k (scratchOf s t a 0) (t.arrive? (scratchOf s t a 0)) := by
  simp only [withWord, hc, hq, ht, ne_eq, not_true_eq_false, Bool.not_true, Bool.false_eq_true, if_false]
end

end Sys2Proof.Machine

open Sys2Proof Sys2Proof.Machine in
/-- Settles O31: the ring or the word that passes its checks answers, at issue (log 46). -/
theorem ringsAndArrivalWords : Obligations.RingsAndArrivalWords := by
  unfold Obligations.RingsAndArrivalWords
  intro q x r u here took off lanes word
  refine ⟨?pop, ?push, ?try_, ?empty, ?stat, ?rel, ?set, ?add, ?await, ?qry⟩ <;> refine Completes.of_ok (fun _ => rfl) ?_
  case pop | push => exact fun s t ⟨hr, he, hd, ha⟩ => slotEff_of_avail hr he hd ha
  case try_ =>
    intro s t ⟨hr, he, _, ha⟩
    exact (withRing_of_sound hr he).trans (if_pos ha)
  case empty =>
    intro s t ⟨hr, he, ha⟩
    exact (withRing_of_sound hr he).trans (if_neg (by omega))
  case stat =>
    intro s t ⟨hr, he⟩
    exact (withRing_of_sound hr he).trans (by rw [r.word1_eq]; rfl)
  case rel => exact fun s t ⟨hr, he, hh, hq⟩ => qrelEff_of_held hr he hh hq
  case set => exact fun s t ⟨hc, hq⟩ => asetEff_of_checked hc hq
  case add => exact fun s t ⟨hc, hr, ha⟩ => aaddEff_of_fits hc hr ha
  case await =>
    intro s t ⟨⟨hc, hq, ht⟩, hg⟩
    exact (withWord_of_checked hc hq ht).trans (if_pos (decide_eq_true hg))
  case qry => exact fun s t ⟨hc, hq, ht⟩ => withWord_of_checked hc hq ht
end

section
/-! PROOF. Obligation O32: emissions, and reads of the input record (R201-R210). -/
namespace Sys2Proof.Machine

section
variable {s : State} {t : Team} {x : RArgs} {n : Node} {g : Graph} {xs : List Emission} {used : Table Nat}

/-- The state in which the records `xs` are sent: on their way, the credit paid, W5 raised (R206). -/
def emitted (xs : List Emission) (used : Table Nat) (la : Fin 16) (routed : Bool) (s : State) (t : Team) : State :=
  ((xs.foldl (fun s e => s.sendEmission t t.nseq e routed) s).pendAdd t la (some 5) (.emit xs.length) false false
    [] []).modTeam t.id fun v => { v with
      used := used
      credit := v.credit - (xs.map (·.bound)).sum }

theorem emitEff_of_all {q : EmitReq} {team : Bool} {ls : List Nat} (la : Fin 16) (hn : t.node? s = some n)
    (hg : s.graph? t.part t.gslot = some g) (ht : team = true → n.perTeam = true)
    (ha : emitAll s t n g q (!n.perTeam && !team) ls t.used = .ok (xs, used)) (hx : xs ≠ []) :
    emitEff q team ls la s t = .ok (emitted xs used la q.handle.isSome s t) := by
  have lane : (team && !n.perTeam) = false := by
    cases team
    · rfl
    · simp [ht rfl]
  have some_ : xs.isEmpty = false := by simpa using hx
  simp only [emitEff, hn, hg, lane, ha, some_, Bool.false_eq_true, if_false]
  rfl

theorem runOk_of_le {a : Opnd} {len : Nat} (h : a.index + len ≤ 64) : runOk a len = true := by simp [runOk, h]

theorem emitVEff_of_run {edge : Fin 8} (h : x.a.index + uniLen s t x.b ≤ 64) :
    emitVEff edge x s t = emitEff ⟨edge.val, uniLen s t x.b, none, fun l => (lane32 s t x.c l).toNat,
      fun l i => t.r.lane (x.a.index + i) l⟩ false (t.active x.g) x.la s t := by
  simp only [emitVEff, runOk_of_le h, Bool.not_true, Bool.false_eq_true, if_false]

theorem emitTeamEff_of_run {edge : Fin 8} (h : x.a.index + uniLen s t x.b ≤ 64) :
    emitTeamEff edge x s t = emitEff ⟨edge.val, uniLen s t x.b, none, fun _ => (lo32 (uni s t x.c)).toNat,
      fun _ i => lo32 (t.r.sget (x.a.index + i))⟩ true [noLaneN] x.la s t := by
  simp only [emitTeamEff, runOk_of_le h, Bool.not_true, Bool.false_eq_true, if_false]

/-- `rrd` of the team's record into a scalar register (R209). -/
theorem rrdEff_scalar (hd : x.d.isS = true) (hn : t.perTeamNode s = true) (hi : (lane32 s t x.a 0).toNat ≤ 15) :
    rrdEff x s t = .ok (result s t x.la x.d ((recWord (t.recOf s 0) (lane32 s t x.a 0).toNat).zeroExtend 64)) := by
  simp only [rrdEff, hd, hn, Nat.not_lt.2 hi, Bool.not_true, Bool.false_eq_true, if_true, if_false]
  rfl

/-- `rrd` of each lane's record (R209). -/
theorem rrdEff_lanes (hd : x.d.isS = false) (hi : ∀ l ∈ t.active x.g, (lane32 s t x.a l).toNat ≤ 15) :
    rrdEff x s t = .ok (s.resultWrites t x.la [.v (destIndex x.d)]
      ((t.active x.g).map fun l => .v (destIndex x.d) l (recWord (t.recOf s l) (lane32 s t x.a l).toNat))) := by
  have inside : (t.active x.g).find? (fun l => decide (15 < (lane32 s t x.a l).toNat)) = none := by
    simpa using hi
  simp only [rrdEff, hd, inside, Bool.false_eq_true, if_false]
end

end Sys2Proof.Machine

open Sys2Proof Sys2Proof.Machine in
/-- Settles O32: an emission whose checks pass sends its records, and `rrd` and `rlen` answer. -/
theorem recordInstructions : Obligations.RecordInstructions := by
  unfold Obligations.RecordInstructions
  intro edge len x n g xs used can sent lenB lanesQ teamQ lanesX teamX
  refine ⟨?emit, ?emitTeam, ?emitx, ?emitxTeam, ?rrdS, ?rrdV, ?rlenS, ?rlenV⟩ <;> refine Completes.of_ok (fun _ => rfl) ?_
  case emit =>
    intro s t ⟨hr, hn, hg, ht, ha, hx⟩
    exact (emitVEff_of_run hr).trans (emitEff_of_all x.la hn hg ht ha hx)
  case emitTeam =>
    intro s t ⟨hr, hn, hg, ht, ha, hx⟩
    exact (emitTeamEff_of_run hr).trans (emitEff_of_all x.la hn hg ht ha hx)
  case emitx | emitxTeam => exact fun s t ⟨hn, hg, ht, ha, hx⟩ => emitEff_of_all x.la hn hg ht ha hx
  case rrdS => exact fun s t ⟨hd, hn, hi⟩ => rrdEff_scalar hd hn hi
  case rrdV => exact fun s t ⟨hd, hi⟩ => rrdEff_lanes hd hi
  case rlenS =>
    intro s t ⟨hd, hn⟩
    simp only [rlenEff, hd, hn, Bool.not_true, Bool.false_eq_true, if_true, if_false]
    rfl
  case rlenV =>
    intro s t hd
    simp only [rlenEff, hd, Bool.false_eq_true, if_false]
end

section
/-! PROOF. Obligation O33: a fault is taken by the handler, or kills the team in it (R218, R220). -/
namespace Sys2Proof.Machine

section
variable {s : State} {t : Team} {f : FaultRec}

theorem Regs.sget_sset_same (r : Regs) (i : Nat) (x : W64) : (r.sset i x).sget i = x := by simp [Regs.sget, Regs.sset]
theorem Regs.sget_sset_ne (r : Regs) {i j : Nat} (x : W64) (h : j ≠ i) : (r.sset i x).sget j = r.sget j := by
  simp only [Regs.sget, Regs.sset, Table.get_set_ne _ _ _ h]

/-- The scalar registers in the handler: s60 to s63 banked, and those of the fault in their place. -/
def Regs.entered (r : Regs) (f : FaultRec) : Regs :=
  ((((((((r.sset 64 (r.sget 60)).sset 65 (r.sget 61)).sset 66 (r.sget 62)).sset 67 (r.sget 63)).sset 60
    (BitVec.ofNat 64 f.code)).sset 61 f.info).sset 62 f.s62).sset 63 f.pc)

theorem Team.inHandler_r (t : Team) (f : FaultRec) : (t.inHandler f).r = t.r.entered f := by
  have bank : (List.range 4).foldl (fun r k => r.sset (64 + k) (r.sget (60 + k))) t.r =
      (((t.r.sset 64 (t.r.sget 60)).sset 65 (t.r.sget 61)).sset 66 (t.r.sget 62)).sset 67 (t.r.sget 63) := by
    simp [List.range_succ, Regs.sget_sset_ne]
  simp only [Team.inHandler, Team.enterBank, bank, Regs.entered]

/-- Nothing but the scalars of the register file has changed. -/
theorem Team.inHandler_scalars (t : Team) (f : FaultRec) : ∃ m, (t.inHandler f).r = { t.r with s := m } := by
  rw [Team.inHandler_r]
  exact ⟨_, rfl⟩

theorem Regs.entered_sget (r : Regs) (f : FaultRec) {k : Nat} (hk : k < 60 ∨ 64 ≤ k ∧ k < 68) :
    (r.entered f).sget k = if k < 60 then r.sget k else r.sget (k - 4) := by
  obtain hk | hk := hk
  · simp (disch := omega) only [Regs.entered, Regs.sget_sset_ne, hk, if_true]
  · obtain rfl | rfl | rfl | rfl : k = 64 ∨ k = 65 ∨ k = 66 ∨ k = 67 := by omega
    all_goals simp [Regs.entered, Regs.sget_sset_ne, Regs.sget_sset_same]

/-- The registers in the handler: s60 to s63 hold the fault, their old values the bank, and no other scalar has changed. -/
theorem Team.inHandler_sget (t : Team) (f : FaultRec) :
    (t.inHandler f).r.sget 60 = BitVec.ofNat 64 f.code ∧ (t.inHandler f).r.sget 61 = f.info ∧
      (t.inHandler f).r.sget 62 = f.s62 ∧ (t.inHandler f).r.sget 63 = f.pc ∧
      (t.inHandler f).bank = [t.r.sget 60, t.r.sget 61, t.r.sget 62, t.r.sget 63] ∧
      ∀ k, k < 60 → (t.inHandler f).r.sget k = t.r.sget k := by
  rw [Team.bank, Team.inHandler_r]
  refine ⟨?_, ?_, ?_, Regs.sget_sset_same _ _ _, ?_, fun k hk => ?_⟩
  · simp [Regs.entered, Regs.sget_sset_ne, Regs.sget_sset_same]
  · simp [Regs.entered, Regs.sget_sset_ne, Regs.sget_sset_same]
  · simp [Regs.entered, Regs.sget_sset_ne, Regs.sget_sset_same]
  · simp [List.range_succ, Regs.entered_sget]
  · rw [Regs.entered_sget _ _ (.inl hk), if_pos hk]

theorem Team.at_sget (t : Team) (a : W64) (k : Nat) : (t.at a).r.sget k = t.r.sget k := rfl
theorem Team.at_bank (t : Team) (a : W64) : (t.at a).bank = t.bank := rfl
theorem Team.at_r (t : Team) (a : W64) : (t.at a).r = { t.r with
    pc := a
    cl := none } := rfl

/-- A team with nothing unperformed and a quiet array takes its faults at once. -/
theorem Team.deliverable_of_quiet (hp : t.pend = []) (ha : t.arrayQuiet = true) : t.deliverable = true := by
  simp [Team.deliverable, hp, ha]

theorem State.raise_of_quiet (hp : t.pend = []) (ha : t.arrayQuiet = true) :
    s.raise t f = s.deliver { t with lost := none } f := by
  rw [State.raise, if_pos (Team.deliverable_of_quiet hp ha), State.takeFault, Team.landWhere_of_pend_nil hp]

/-- The handler's first arrival finds nothing to fill: the slot has entries, no block is spilled, or its fill is left
(log 105). -/
theorem State.refill_inHandler (s : State) (h : t.r.stack = [] → t.r.blocks = 0 ∨ t.r.due = t.r.blocks) :
    s.refill (t.inHandler f) = (t.inHandler f, false) := by
  obtain ⟨m, hr⟩ := t.inHandler_scalars f
  have left : (t.inHandler f).fillLeft = (t.r.due == t.r.blocks) := by
    rw [Team.fillLeft, hr, show (t.inHandler f).hnd = true from rfl, Bool.true_and]
  have dry : (t.inHandler f).slotDry = t.slotDry := by
    rw [Team.slotDry, hr, Team.slotDry]
  unfold State.refill State.fill
  rw [left, dry]
  by_cases hd : t.r.due = t.r.blocks
  · simp [hd]
  · have : t.slotDry = false := by
      simp only [Team.slotDry, Bool.and_eq_false_iff, decide_eq_false_iff_not]
      by_cases hs : t.r.stack = []
      · exact .inr (by have := h hs; omega)
      · exact .inl (by simpa using hs)
    simp [this]

/-- A team goes to an address that is not the reconvergence address of its top entry, or whose clause has no RCV, as it stands
(R103). -/
theorem State.arriveFrom_of_no_join {a : W64} {n : Nat} (hf : s.refill t = (t, false))
    (hj : ∀ e ∈ t.r.stack.head?, e.rc = a → (s.rcvAt t a).2 = false) :
    ∃ q, s.arriveFrom t a (n + 1) = (q, t.at a, false) ∧ OnlyCounts s q := by
  simp only [State.arriveFrom, hf]
  split
  · exact ⟨s, rfl, .refl s⟩
  · next e rest hs =>
    split
    · next he =>
      have hr := hj e (by simp [hs]) he
      have hc := s.rcvAt_counts t a
      generalize s.rcvAt t a = q at hr hc
      obtain ⟨q, b⟩ := q
      obtain rfl : b = false := hr
      exact ⟨q, rfl, hc⟩
    · exact ⟨s, rfl, .refl s⟩

/-- A fault outside the handler whose entry `vec` may be entered (R17, R218). -/
theorem State.deliver_of_entry {vec : W64} {region : Region3} (hh : t.hnd = false) (hv : s.vector t = (vec, region))
    (hl : vec.extractLsb' 0 3 = 0#3) (hu : vec.extractLsb' 56 8 = 0#8) (hr : region.holds vec = true)
    (hm : (s.mapBit t region vec).2 = some true) :
    s.deliver t f = (s.mapBit t region vec).1.enterHandler t f vec := by
  simp only [State.deliver, hh, hv, hl, hu, hr, beq_self_eq_true, Bool.and_self, Bool.false_eq_true, if_false, if_true]
  generalize s.mapBit t region vec = q at hm ⊢
  obtain ⟨q, b⟩ := q
  obtain rfl : b = some true := hm
  rfl

/-- The team stands at the handler's entry, where its stack leaves nothing to be done (R103, R104). -/
theorem State.enterHandler_of_no_join {vec : W64} (hs : t.r.stack = [] → t.r.blocks = 0 ∨ t.r.due = t.r.blocks)
    (hj : ∀ e ∈ t.r.stack.head?, e.rc = vec → (s.rcvAt (t.inHandler f) vec).2 = false) :
    ∃ q, s.enterHandler t f vec = q.setTeam ((t.inHandler f).at vec) ∧ OnlyCounts s q := by
  have stack : (t.inHandler f).r.stack = t.r.stack := by
    obtain ⟨m, hr⟩ := t.inHandler_scalars f
    rw [hr]
  rw [← stack] at hj
  obtain ⟨q, hq, hc⟩ := State.arriveFrom_of_no_join (n := 3 * (t.inHandler f).r.depth) (s.refill_inHandler hs) hj
  refine ⟨q, ?_, hc⟩
  rw [State.enterHandler, Team.steps, hq]
  rfl

/-- What the handler finds in the registers of the team that stands at its entry. -/
theorem Team.inHandler_at_regs (t : Team) (f : FaultRec) (vec : W64) :
    let u := (t.inHandler f).at vec
    u.r.sget 60 = BitVec.ofNat 64 f.code ∧ u.r.sget 61 = f.info ∧ u.r.sget 62 = f.s62 ∧ u.r.sget 63 = f.pc ∧
      u.bank = [t.r.sget 60, t.r.sget 61, t.r.sget 62, t.r.sget 63] ∧ u.r.pc = vec ∧ u.r.cl = none ∧
      (∀ k, k < 60 → u.r.sget k = t.r.sget k) ∧ u.r.v = t.r.v ∧ u.r.mask = t.r.mask ∧ u.r.stack = t.r.stack ∧
      u.r.blocks = t.r.blocks ∧ u.r.fflags = t.r.fflags := by
  obtain ⟨h60, h61, h62, h63, bank, low⟩ := t.inHandler_sget f
  obtain ⟨m, hr⟩ := t.inHandler_scalars f
  have hu : ((t.inHandler f).at vec).r = { t.r with
      s := m
      pc := vec
      cl := none } := by
    rw [Team.at_r, hr]
  simp only [Team.at_sget, Team.at_bank]
  rw [hu]
  exact ⟨h60, h61, h62, h63, bank, rfl, rfl, low, rfl, rfl, rfl, rfl, rfl⟩

/-- What else has changed in it: its levels, HND and the fault that it answers. -/
theorem Team.inHandler_at_rest (t : Team) (f : FaultRec) (vec : W64) :
    let u := (t.inHandler f).at vec
    u.id = t.id ∧ u.hnd = true ∧ u.slvl = t.level ∧ u.level = max t.level 1 ∧ u.fault = some f ∧ u.scr = t.scr := by
  simp only [Team.at, Team.inHandler, Team.enterBank, and_self]

/-- The team killed by a fault in its handler (R220). -/
theorem State.team?_doubleFault (s : State) (t : Team) (f : FaultRec) :
    ∃ u, (s.doubleFault t f).team? t.id = some u ∧ u.stat = .killing 0x0B ∧ u.trap = none ∧ (s.doubleFault t f).mem = s.mem := by
  let u : Team := { t with
    trap := none
    holdOn := none
    trapPkt := none
    stat := .killing 0x0B }
  have h : OnlyCounts (s.setTeam u) (s.doubleFault t f) :=
    (State.tracePacket_counts _ _ _ _).trans (State.sendSup_counts _ _ _)
  refine ⟨u, ?_, rfl, rfl, h.mem⟩
  rw [h.team? t.id]
  exact State.team?_setTeam_same s u
end

end Sys2Proof.Machine

open Sys2Proof Sys2Proof.Machine in
/-- Settles O33: outside the handler its entry is reached as it stands, in it the team is killed. -/
theorem faultTaken : Obligations.FaultTaken := by
  unfold Obligations.FaultTaken
  refine ⟨?outside, ?inside⟩
  case outside =>
    intro s t f vec region u0 hh hp ha hs hj hl hu hb ht hm
    have holds : region.holds vec = true := by simp [Region3.holds, hb, ht]
    have vector : s.vector { t with lost := none } = (vec, region) := by
      simp only [State.vector, vec, region]
      split <;> rfl
    clear_value vec region
    obtain ⟨q, hq, hc⟩ := State.enterHandler_of_no_join (t := { t with lost := none }) hs hj
    have hr : s.raise t f = q.setTeam (u0.at vec) :=
      (State.raise_of_quiet hp ha).trans ((State.deliver_of_entry (t := { t with lost := none }) hh vector hl hu holds hm).trans hq)
    obtain ⟨h60, h61, h62, h63, bank, pc, cl, low, v, mask, stack, blocks, fflags⟩ :=
      Team.inHandler_at_regs { t with lost := none } f vec
    obtain ⟨hid, hnd, slvl, level, fault, scr⟩ := Team.inHandler_at_rest { t with lost := none } f vec
    have there : (q.setTeam (u0.at vec)).team? t.id = some (u0.at vec) := hid ▸ State.team?_setTeam_same q (u0.at vec)
    rw [hr]
    exact ⟨u0.at vec, there, hnd, slvl, level, fault, h60, h61, h62, h63, bank, pc, cl, low, v, mask, stack, blocks, fflags,
      scr, hc.mem.trans (s.mapBit_counts t region vec).mem⟩
  case inside =>
    intro s t f hh hp ha
    rw [State.raise_of_quiet hp ha, State.deliver, if_pos hh]
    exact State.team?_doubleFault s { t with lost := none } f
end

section
/-! PROOF. Obligation O35: marks, checkpoints, ring resets, unit instructions and shoot-downs (R223-R227, R386). -/
namespace Sys2Proof.Machine

section
variable {s : State} {t : Team} {x : RArgs}

/-- `ringrst` of a ring in error to an index that its records have not passed (R225). -/
theorem ringrstEff_of_error {r : Nat} {ring : IRing} (hr : s.ringAt t.part (uni s t x.a) = some (r, ring)) (he : ring.err = true)
    (hw : ¬ BitVec.ofNat 32 ((s.readVirt t.part ((uni s t x.a).toNat + 16) 4).getD 0) - ring.rdidx <
      lo32 (uni s t x.b) - ring.rdidx) :
    ringrstEff x s t = .ok ((s.writeVirt t.part ((uni s t x.a).toNat + 32)
      (leBytes 8 ((s.readVirt t.part ((uni s t x.a).toNat + 32) 8).getD 0 / 2 * 2))).ringTo t.part r
        { ring with err := false } (lo32 (uni s t x.b))) := by
  simp only [ringrstEff, hr, he, hw, Bool.not_true, Bool.false_eq_true, if_false]

/-- A unit instruction whose block can be read and is sound (R226). -/
theorem unitEff_of_ok {op : OpKind} (hb : BlockReads s t (uni s t x.a).toNat 8)
    (hu : unitOk op (blockOf s t (uni s t x.a).toNat 8).2 = true) :
    unitEff op x s t = .ok ((blockOf s t (uni s t x.a).toNat 8).1.unitOp op (blockOf s t (uni s t x.a).toNat 8).2
      (some (t.part, uni s t x.a))) :=
  (withBlock_of_reads hb).trans (if_pos hu)

theorem unitEff_of_unanswered {op : OpKind} {i : Nat} (hb : BlockUnanswered s t (uni s t x.a).toNat 8 i) :
    unitEff op x s t = .fault 0x18 (BitVec.ofNat 64 (va56 (uni s t x.a).toNat + i)) noLane := by
  unfold unitEff withBlock
  exact withBlockAnd_of_unanswered hb

/-- `pgret` of a range of its size holds the team (R227). -/
theorem pgretEff_of_range {k : Shoot} (hk : shootOf (uni s t x.b) = some k) (ha : (uni s t x.a).toNat % k.size = 0)
    (hl : (uni s t x.a).toNat < 2 ^ 56) :
    pgretEff x s t = .hold ((s.shoot k (uni s t x.a).toNat).1.modTeam t.id fun u =>
      { u with holdOn := some (.pgret (s.shoot k (uni s t x.a).toNat).2) }) := by
  simp only [pgretEff, hk, ha, Nat.not_le.2 hl, ne_eq, not_true_eq_false, or_self, if_false]
end

end Sys2Proof.Machine

open Sys2Proof Sys2Proof.Machine in
/-- Settles O35: what each of them does where its checks pass, and the block that no device answers. -/
theorem systemOperations : Obligations.SystemOperations := by
  unfold Obligations.SystemOperations
  intro x r ring k block unit given wr
  refine ⟨?tmark, ?ckpt, ?ringrst, ?presize, ?plend, ?prevoke, fun i => ?unanswered, ?pgret⟩
  case tmark => exact Completes.of_ok (fun _ => rfl) fun s t _ => rfl
  case ckpt => exact Completes.of_ok (fun _ => rfl) fun s t _ => rfl
  case ringrst => exact Completes.of_ok (fun _ => rfl) fun s t ⟨hr, he, hw⟩ => ringrstEff_of_error hr he hw
  case presize | plend | prevoke => exact Completes.of_ok (fun _ => rfl) fun s t ⟨hb, hu⟩ => unitEff_of_ok hb hu
  case unanswered =>
    simp only [List.forall_mem_cons, List.not_mem_nil, false_implies, implies_true, and_true]
    refine ⟨?_, ?_, ?_⟩ <;> exact Faults.of_fault (fun _ => rfl) fun s t hb => unitEff_of_unanswered hb
  case pgret =>
    intro s s1 t e h hf hk ha hl
    exact issueRun_hold h hf (pgretEff_of_range hk ha hl)
end

section
/-!
R148, R150-R154. Atomics at their homes, at the core or in scratch: what the event does once nothing holds it back.
-/
namespace Sys2Proof.Machine

/-- The class of a release: 2 at .die or wider, or after a release fence; 1 for a smaller one. -/
theorem relClass_ite (t : Team) (sc : Scope) {b : Bool} {rel : Prop} [Decidable rel] (h : b = true ↔ rel) :
    relClass t (if b then some sc else none) =
      if t.relFence = true ∨ (rel ∧ 2 ≤ sc.code) then 2 else if rel then 1 else 0 := by
  cases b <;> by_cases hf : t.relFence = true <;> by_cases hc : 2 ≤ sc.code <;> simp_all [relClass]

theorem Order.isRelease_iff (o : Order) : (o == .rel || o == .acqrel) = true ↔ o = .rel ∨ o = .acqrel := by simp

theorem Order.isAcquire_iff (o : Order) : (o == .acq || o == .acqrel) = true ↔ o = .acq ∨ o = .acqrel := by simp

/-- An acquire drops copies but where what it reads is no whole release. -/
theorem State.acquireOf_ite (s : State) (t : Team) (sc : Scope) (pas : List Nat) {b : Bool} {acq : Prop} [Decidable acq]
    (h : b = true ↔ acq) : (if b then s.acquireOf t sc pas else s) =
      if acq ∧ s.plainly pas = false then s.acquire t sc else s := by
  cases b <;> cases hp : s.plainly pas <;> simp_all [State.acquireOf]

/-- An atomic whose turn has come and which nothing holds back. -/
theorem State.atomPerform_ready {s : State} {t : Team} {p : Pending} {op : AT} {cas : Bool} {ty : AtomTy} {sc : Scope}
    {o : Order} {dst : Option Dst} {accs : List (Acc × W64 × W64)}
    (hr : t.readsBefore s p.num (accs.flatMap fun a => a.1.pas.map s.norm) = false)
    (hw : ∀ a ∈ accs, s.atomWaits t sc a.1 = false)
    (hrel : o = .rel ∨ o = .acqrel → s.releaseReady t p sc = true)
    (ho : s.hostOpen (accs.flatMap fun a => a.1.pas.map s.norm) = true)
    (hh : s.writeHeld t.part (accs.flatMap fun a => if s.atHome sc a.1.pas then a.1.pas else []) = false)
    (hp : ∀ a ∈ accs, s.atomPoison t sc a.1 = none) :
    s.atomPerform t p op cas ty sc o dst accs =
      let pas := accs.flatMap fun a => a.1.pas.map s.norm
      let x := s.atomAll t sc p.seq (relClass t (if o == .rel || o == .acqrel then some sc else none))
        (atomApply op cas ty) (atBytes ty) accs
      (if o == .acq || o == .acqrel then x.1.acquireOf t sc pas else x.1).modTeam t.id fun u =>
        u.perform p.seq (atomWrites dst x.2) := by
  have hw' : (accs.any fun a => s.atomWaits t sc a.1) = false := List.any_eq_false.2 fun a ha => by simp [hw a ha]
  have hrel' : ((o == .rel || o == .acqrel) && !s.releaseReady t p sc) = false := by
    cases hb : (o == .rel || o == .acqrel) with
    | false => rfl
    | true => simp [hrel ((Order.isRelease_iff o).1 hb)]
  have hp' : (accs.findSome? fun a => (s.atomPoison t sc a.1).map fun i =>
      (⟨0x40, a.1.va.toNat + i, a.1.lane⟩ : Fail)) = none :=
    List.findSome?_eq_none_iff.2 fun a ha => by simp [hp a ha]
  simp only [State.atomPerform, hr, hw', hrel', ho, hh, hp', Bool.not_true, Bool.or_self, Bool.false_eq_true, if_false]

/-- A scratch atomic that nothing of its team holds back. -/
theorem State.atomsPerform_ready {s : State} {t : Team} {p : Pending} {op : AT} {cas : Bool} {ty : AtomTy} {dst : Dst}
    {accs : List (Acc × W64 × W64)} (hs : t.scratchBefore p.num = false) (hh : s.writeHeld t.part [] = false)
    (he : ∀ q ∈ t.pend, q.num < p.num → q.performed = true) (hp : ∀ a ∈ accs, ∀ k ∈ a.1.pas, t.scrBad k = false) :
    s.atomsPerform t p op cas ty dst accs =
      let x := t.atomsAll (atomApply op cas ty) (atBytes ty) accs
      s.setTeam (x.1.perform p.seq (atomWrites (some dst) x.2)) := by
  have hp' : (accs.findSome? fun a => (a.1.pas.findIdx? t.scrBad).map fun i =>
      (⟨0x40, a.1.va.toNat + i, a.1.lane⟩ : Fail)) = none :=
    List.findSome?_eq_none_iff.2 fun a ha => by
      simpa [List.findIdx?_eq_none_iff] using hp a ha
  rw [State.atomsPerform, if_neg, hp']
  simp only [hs, hh, Bool.or_false, List.any_eq_true, Bool.and_eq_true, decide_eq_true_eq, Bool.not_eq_true',
    not_exists, not_and]
  intro q hq hn hperf
  simp [he q hq hn.1] at hn

/-- The event of an atomic whose turn has come. -/
theorem State.atomicPerform_kind {s : State} {t : Team} {p : Pending} (he : s.evPend = some (t, p))
    (hp : p.performed = false) (hc : t.closedBefore p.num = true) (ha : t.acquiredBefore p.num = true) :
    s.atomicPerform = match p.kind with
      | .atomic op cas ty sc o dst accs => s.atomPerform t p op cas ty sc o dst accs
      | .atoms op cas ty dst accs => s.atomsPerform t p op cas ty dst accs
      | _ => s := by
  simp only [State.atomicPerform, he, hp, hc, ha, Bool.not_true, Bool.or_self, Bool.false_eq_true, if_false]
    <;> cases p.kind <;> rfl

end Sys2Proof.Machine

open Sys2Proof Sys2Proof.Machine in
/-- Settles O41: an equation for each of the two kinds, with the class of its release and its acquire read out. -/
theorem atomicsArePerformed : Obligations.AtomicsArePerformed := by
  intro s t p op cas ty accs he hp hc ha
  have kind := State.atomicPerform_kind he hp hc ha
  constructor
  · intro sc o dst hk pas rel hrel hh hr hw ho hpo
    rw [hk] at kind
    dsimp only at kind
    rw [State.atomPerform_ready hr hw hrel ho hh hpo] at kind
    dsimp only at kind
    rw [relClass_ite t sc (Order.isRelease_iff o), State.acquireOf_ite _ t sc _ (Order.isAcquire_iff o)] at kind
    exact congrArg Host.Outcome.next kind
  · intro dst hk hs hh hq hpo
    rw [hk] at kind
    exact congrArg Host.Outcome.next (kind.trans (State.atomsPerform_ready hs hh hq hpo))
end

section
/-!
R156, R157, R303. An ordered contribution at its home, and a gap that is overdue: an equation per outcome.
-/
namespace Sys2Proof.Machine

/-- The only contribution of a checked `rdo` enters: the instruction is performed. -/
theorem State.rdoArrive_single {s s' : State} {t : Team} {p : Pending} {a : Acc} {x idx : W32}
    (hc : (s.moveLines (s.linesAt a.pas)).contribute (some (dieOfCore t.core)) false a x idx = some s') :
    s.rdoArrive t p [(a, x, idx)] true 0 =
      (s'.noteRdo (some t.part) a x idx).modTeam t.id fun u => u.perform p.seq [] := by
  simp [State.rdoArrive, State.rdoOne, State.rdoLeft, hc]

/-- The event of a checked `rdo` of one contribution that nothing holds back. -/
theorem State.rdoEvent_checked {s : State} {t : Team} {p : Pending} {a : Acc} {x idx : W32}
    (he : s.evPend = some (t, p)) (hk : p.kind = .rdo [(a, x, idx)] true) (hp : p.performed = false)
    (hcb : t.closedBefore p.num = true) (hb : s.buffered t (a.pas.map s.norm) = false) (ho : s.hostOpen a.pas = true)
    (hh : s.addHeld a.pas = false) : s.rdoEvent = s.rdoArrive t p [(a, x, idx)] true s.ev.idx := by
  simp [State.rdoEvent, he, hk, hp, hcb, hb, ho, hh]

theorem State.gapDue_iff {s : State} {l : RLine} :
    s.gapDue l = true ↔ l.gap = true ∧ l.since + 1000 * (s.pr l.p 0x140).toNat ≤ s.now := by
  simp [State.gapDue]

/-- An overdue gap of an owner with no pending instruction faults it where it stands. -/
theorem State.gapTimeout_owner {s : State} {sl line : Nat} {l : RLine} {t : Team} (hl : s.rline? sl line = some l)
    (hd : s.gapDue l = true) (ht : s.team? l.owner = some t) (hr : t.stat = .running) (hp : t.pend = []) :
    s.gapTimeout sl line = (s.setRline sl line { l with since := s.now }).raise t
      (t.faultAt 0x15 l.va ((lowestHeld l).zeroExtend 64)) := by
  simp [State.gapTimeout, hl, hd, ht, hr, hp]

theorem State.gapTimeout_gone {s : State} {sl line : Nat} {l : RLine} (hl : s.rline? sl line = some l)
    (hd : s.gapDue l = true) (ht : s.team? l.owner = none) :
    s.gapTimeout sl line = s.setRline sl line { l with gapPending := true } := by
  simp [State.gapTimeout, hl, hd, ht]

end Sys2Proof.Machine

open Sys2Proof Sys2Proof.Machine in
/-- Settles O42: the contribution that is left is the one that enters; an overdue gap has an owner or none. -/
theorem orderedReductions : Obligations.OrderedReductions := by
  intro s t p a x idx
  refine ⟨fun he hk hp hcb hb ho hi hh s' hc => ?_,
    fun l hl hg hs ht hr hp => congrArg Host.Outcome.next (State.gapTimeout_owner hl (State.gapDue_iff.2 ⟨hg, hs⟩) ht hr hp),
    fun l hl hg hs ht => congrArg Host.Outcome.next (State.gapTimeout_gone hl (State.gapDue_iff.2 ⟨hg, hs⟩) ht)⟩
  have hev := State.rdoEvent_checked he hk hp hcb hb ho hh
  rw [hi, State.rdoArrive_single hc] at hev
  exact congrArg Host.Outcome.next hev
end

section
/-!
R206, R207, R260, R273. A record on its way, and an arrival, at their queues: an equation per outcome.
-/
namespace Sys2Proof.Machine

/-- A record that nothing holds back enters its queue. -/
theorem State.recordEnqueue_enters {s : State} {p i : Nat} {f : Flying} (hf : (s.part p).flying[i]? = some f)
    (hz : (s.part p).frozen = false) (hw : (s.part p).flyWaits i f = false) :
    s.recordEnqueue p i =
      let s' := (s.enterQueue p f.gslot f.node f.w f.credit f.rel).modPart p fun x => { x with flying := x.flying.eraseIdx i }
      match f.kind with
      | .emit t seq => s'.emitLess t seq
      | .charged => s' := by
  simp only [State.recordEnqueue, hf, hz, hw, Bool.or_self, Bool.false_eq_true, if_false]
    <;> cases f.kind <;> rfl

theorem State.emitPerformed_of_none_left {s : State} {t : Team} {q : Pending} (he : s.evPend = some (t, q))
    (hk : q.kind = .emit 0) : s.emitPerformed = s.modTeam t.id fun u => u.perform q.seq [] := by
  simp [State.emitPerformed, he, hk]

/-- An arrival whose time is over is lost. -/
theorem State.arrivalRetry_late {s : State} {p i : Nat} {a : Arrival} (ha : (s.part p).held[i]? = some a)
    (hl : a.late s = true) :
    s.arrivalRetry p i = (s.setPart p { s.part p with held := (s.part p).held.eraseIdx i }).arrivalLost p a := by
  simp [State.arrivalRetry, State.dropArrival, ha, hl]

/-- An arrival that stays on the device meets the fate of its queue. -/
theorem State.arrivalRetry_here {s : State} {p i : Nat} {a : Arrival} (ha : (s.part p).held[i]? = some a)
    (hl : a.late s = false) (hw : (s.part p).arrivalWaits i a = false) (ho : s.outward a = none) :
    s.arrivalRetry p i =
      match s.fate p a.gslot a.node a.w with
      | .enters c => ((((s.enterQueue p a.gslot a.node a.w c a.rel).modPart p fun x => { x with
          held := x.held.eraseIdx i }).noteOldCopy p a c).arrivalDone a)
      | .waits => s
      | .never => (s.setPart p { s.part p with held := (s.part p).held.eraseIdx i }).arrivalLost p a := by
  simp [State.arrivalRetry, ha, hl, hw, ho] <;> rfl

end Sys2Proof.Machine

open Sys2Proof Sys2Proof.Machine in
/-- Settles O46: an equation per outcome of the two events. -/
theorem recordsTravel : Obligations.RecordsTravel := by
  intro s f a c p i
  refine ⟨fun hf hz hw => congrArg Host.Outcome.next (State.recordEnqueue_enters hf hz hw),
    fun t q he hk => congrArg Host.Outcome.next (State.emitPerformed_of_none_left he hk),
    fun ha hl hw ho => ?_, fun ha hl => congrArg Host.Outcome.next (State.arrivalRetry_late ha hl)⟩
  have here := State.arrivalRetry_here ha hl hw ho
  constructor
  all_goals
    intro hc
    rw [hc] at here
    exact congrArg Host.Outcome.next here
end

section
/-!
R172, R285, R286. Leases and cached copies leave by filters of their lists.
-/
namespace Sys2Proof.Machine

@[simp] theorem State.part_leaseExpire (s : State) (p base : Nat) :
    ((s.leaseExpire p base).part p).leases =
      (s.part p).leases.filter fun l => !(l.base.toNat == base && decide (l.until_ ≤ s.now)) := by
  simp [State.leaseExpire]

@[simp] theorem State.core_nearDrop (s : State) (c l : Nat) :
    (s.nearDrop c l).core c = { s.core c with near := (s.core c).near.filter fun k => k.line != l } := by
  simp [State.nearDrop, State.modCore]

@[simp] theorem State.die_farDrop (s : State) (d l : Nat) :
    (s.farDrop d l).die d = { s.die d with far := (s.die d).far.filter (·.line != l) } := by
  simp [State.farDrop, State.modDie]

/-- A lease whose time is over is not among those kept. -/
theorem State.not_mem_leaseExpire {s : State} {p base : Nat} {l : Lease} (ht : l.until_ ≤ s.now) (hb : l.base.toNat = base) :
    l ∉ ((s.leaseExpire p base).part p).leases := by
  simp [ht, hb]

/-- A lease of another base is kept. -/
theorem State.mem_leaseExpire {s : State} {p base : Nat} {k : Lease} (hk : k ∈ (s.part p).leases) (hb : k.base.toNat ≠ base) :
    k ∈ ((s.leaseExpire p base).part p).leases := by
  simp [hk, hb]

end Sys2Proof.Machine

open Sys2Proof Sys2Proof.Machine in
/-- Settles O48: each timer filters one list of one unit. -/
theorem timersRun : Obligations.TimersRun := by
  intro s l
  refine ⟨fun ht hb => ⟨s.leaseExpire s.ev.part s.ev.addr, rfl, State.not_mem_leaseExpire ht hb, rfl,
      fun k hk hne => State.mem_leaseExpire hk hne⟩,
    ⟨s.nearDrop s.ev.core s.ev.addr, rfl, ?_, rfl, by simp⟩, ⟨s.farDrop s.ev.die s.ev.addr, rfl, ?_, rfl⟩⟩
  · simp [List.all_filter]
  · simp [List.all_filter]
end

section
/-!
R222, R425. System registers: what `sysrd` and `syswr` do with what the register's rule answers, for a team and for the host.
-/
namespace Sys2Proof.Machine

/-! ## The instructions of a team -/

section
variable {s q : State} {t : Team} {n : Nat} {g : Guard} {a : Opnd} {i : Fin 64} {v : W64}

/-- A register that is no team's gives its value. -/
theorem sysrdEff_of_read (hn : ((sysInfo n).any fun k => k.kind != .team) = true) (hr : s.sysRead t.part n = some (q, v)) :
    sysrdEff n g (.s i) s t = .ok (putScalar q t (.s i) v) := by
  unfold sysrdEff
  dsimp only
  split
  · next h => simp [h] at hn
  · rw [hr]; rfl

/-- A register of the team gives its own. -/
theorem sysrdEff_of_team (hn : ((sysInfo n).any fun k => k.kind == .team) = true) :
    sysrdEff n g (.s i) s t = .ok (putScalar s t (.s i) (t.sysRead n)) := by
  obtain ⟨⟨rd, wr, kind, per⟩, hi, hk⟩ := (Option.any_eq_true ..).1 hn
  obtain rfl : kind = .team := by simpa using hk
  simp only [sysrdEff, hi]
  rfl

theorem sysrdEff_dbgdata (hr : s.dbgdataRead t.part = some (q, v)) :
    sysrdEff 0x113 g (.s i) s t = .ok (putScalar q t (.s i) v) :=
  sysrdEff_of_read (by decide) hr

/-- FPCTL takes a legal value whole. -/
theorem syswrEff_fpctl_ok (h : sysValueOk 0x10 (uni s t a) = true) :
    syswrEff 0x10 g a s t = .ok (s.modTeam t.id fun u => { u with r := { u.r with fctl := uni s t a } }) :=
  if_pos h

theorem syswrEff_fpctl_fault (h : sysValueOk 0x10 (uni s t a) = false) :
    syswrEff 0x10 g a s t = .fault 0x14 0 noLane :=
  if_neg (Bool.eq_false_iff.1 h)

/-- The lane writes a bit that FPLANE does not have. -/
def fplaneBad (a : Opnd) (s : State) (t : Team) (l : Nat) : Bool := (lane32 s t a l &&& ~~~(0x71F#32)) != 0

/-- FPLANE takes the values of the active lanes where all are legal. -/
theorem syswrEff_fplane_ok (h : (t.active g).any (fplaneBad a s t) = false) :
    syswrEff 0x11 g a s t = .ok (s.modTeam t.id fun u =>
      { u with r := (t.active g).foldl (fun r l => r.setFflag l (lane32 s t a l)) u.r }) := by
  have hf : (t.active g).find? (fplaneBad a s t) = none := by
    rw [List.find?_eq_none]
    exact fun l hl => List.any_eq_false.1 h l hl
  unfold fplaneBad at hf
  simp only [syswrEff, fplaneEff, hf, if_true]

theorem syswrEff_fplane_fault {l : Nat} (h : (t.active g).find? (fplaneBad a s t) = some l) :
    syswrEff 0x11 g a s t = .fault 0x14 0 (laneWord l) := by
  unfold fplaneBad at h
  simp only [syswrEff, fplaneEff, h, if_true]

/-- Any other register answers by its rule. -/
theorem syswrEff_of_rule (h0 : n ≠ 0x10) (h1 : n ≠ 0x11) :
    syswrEff n g a s t = (s.sysWrite t.part n (t.level == 2) (uni s t a)).eff t := by
  simp only [syswrEff, h0, h1, if_false]
end

/-! ## The host's access -/

/-- An access that ends at once leaves its status, and GO at 0. -/
theorem State.sysselWr_done {s q : State} {p n status : Nat} {v : W64}
    (h : State.hostSys { s with mgmt := { s.mgmt with sysdata := v } } p n v = ⟨q, status, none⟩) :
    s.sysselWr p n v = (q.sysselDone p n true status).sysselBusy p n none := by
  simp only [State.sysselWr, h]
  rfl

/-- The host's write, once no access is on its way. -/
theorem State.hostWrite_of_manages {s : State} {p n : Nat} {v : W64} (hm : s.manages = true) (hw : s.mgmt.syswait = none) :
    s.hostWrite p n v = s.sysselWr p n v := by
  simp [State.hostWrite, hm, hw]

/-- A writable register that is not of the staged block answers by its rule. -/
theorem State.hostSys_of_rule {s : State} {p n : Nat} {v : W64} (hn : within n 0x0E00 0x0E0B = false) (hp : p ≤ 16)
    (hi : ((sysInfo n).bind (·.wr)).isSome = true) :
    s.hostSys p n v = match s.sysWrite p n true v with
      | .ok s => ⟨s, 0, none⟩
      | .held s ws => ⟨s, 0, some (.rootDrop ws)⟩
      | .fault c _ => ⟨s, c, none⟩
      | .faultIn s c _ => ⟨s, c, none⟩ := by
  cases hs : sysInfo n with
  | none => simp [hs] at hi
  | some k =>
    have hk : k.wr.isNone = false := by
      rw [hs] at hi
      cases hw : k.wr with
      | none => simp [hw] at hi
      | some _ => rfl
    simp only [State.hostSys, hn, Nat.not_lt.2 hp, hs, hk, Bool.false_eq_true, if_false]
      <;> cases s.sysWrite p n true v <;> rfl

theorem State.hostSys_ok {s q : State} {p n : Nat} {v : W64} (hn : within n 0x0E00 0x0E0B = false) (hp : p ≤ 16)
    (hi : ((sysInfo n).bind (·.wr)).isSome = true) (hw : s.sysWrite p n true v = .ok q) :
    s.hostSys p n v = ⟨q, 0, none⟩ := by
  rw [State.hostSys_of_rule hn hp hi, hw]

theorem State.hostSys_fault {s : State} {p n code : Nat} {v info : W64} (hn : within n 0x0E00 0x0E0B = false) (hp : p ≤ 16)
    (hi : ((sysInfo n).bind (·.wr)).isSome = true) (hw : s.sysWrite p n true v = .fault code info) :
    s.hostSys p n v = ⟨s, code, none⟩ := by
  rw [State.hostSys_of_rule hn hp hi, hw]

/-! ## The rows -/

/-- The rows under which a write of a register stands by its number. -/
def sysWrRows : List (SysWr → Instr) :=
  [.syswr, .scrsplitWrite, .domcfgWrite, .dtimeWrite, .gtoffWrite, .modeWrite, .saferstWrite, .profctlWrite, .pmselWrite,
    .trcctlWrite, .dbgdataWrite, .gptrootWrite, .hptrootWrite]

/-- Each of them is the write of its register. -/
theorem exec_sysWrRow {mk : SysWr → Instr} (h : mk ∈ sysWrRows) (w : SysWr) (s : State) :
    exec (mk w) s = sysWr (mk w) w s := by
  revert mk
  simp only [sysWrRows, List.forall_mem_cons, List.not_mem_nil, false_implies, implies_true, and_true]
  exact ⟨rfl, rfl, rfl, rfl, rfl, rfl, rfl, rfl, rfl, rfl, rfl, rfl, rfl⟩

theorem exec_sysWrRow_team {mk : SysWr → Instr} (h : mk ∈ sysWrRows) (n : BitVec 16) (g : Guard) (a : Opnd) (s : State) :
    exec (mk ⟨n, .team g a⟩) s = issueRun noRun (mk ⟨n, .team g a⟩) (syswrEff n.toNat g a) s :=
  exec_sysWrRow h _ s

/-- The rows that a written value picks out, each with the values. -/
def sysWrPicks : List ((SysWr → Instr) × (W64 → Bool)) :=
  [(.vrcmdCreate, fun v => bitsOf v 9 8 == 1), (.vrcmdDestroy, fun v => bitsOf v 9 8 == 2),
    (.ringcbEnable, fun v => v.getLsbD 0), (.ringcbDisable, fun v => !v.getLsbD 0),
    (.pctlFreeze, fun v => v.getLsbD 0), (.pctlThaw, fun v => !v.getLsbD 0 && !v.getLsbD 1),
    (.pctlReset, fun v => v.getLsbD 1), (.dbgrunResume, fun v => bitsOf v 2 0 == 0),
    (.dbgrunStep, fun v => bitsOf v 2 0 == 1), (.dbgrunSkip, fun v => bitsOf v 2 0 == 2),
    (.dbgrunKill, fun v => bitsOf v 2 0 == 3), (.dbgrunHalt, fun v => bitsOf v 2 0 == 4),
    (.rplctlLog, fun v => v.getLsbD 63), (.rplctlGo, fun v => v.getLsbD 62)]

theorem exec_sysWrPick {mf : (SysWr → Instr) × (W64 → Bool)} (h : mf ∈ sysWrPicks) (w : SysWr) (s : State) :
    exec (mf.1 w) s = sysWrOn mf.2 w s := by
  revert mf
  simp only [sysWrPicks, List.forall_mem_cons, List.not_mem_nil, false_implies, implies_true, and_true]
  exact ⟨rfl, rfl, rfl, rfl, rfl, rfl, rfl, rfl, rfl, rfl, rfl, rfl, rfl, rfl⟩

/-- Such a row, where the team's value is one of its own, is the `syswr`. -/
theorem exec_sysWrPick_team {mf : (SysWr → Instr) × (W64 → Bool)} (h : mf ∈ sysWrPicks) {n : BitVec 16} {g : Guard} {a : Opnd}
    {s : State} {t0 : Team} (hc : s.cur = some t0) (hv : mf.2 (uni s t0 a) = true) :
    exec (mf.1 ⟨n, .team g a⟩) s = issueRun noRun (.syswr ⟨n, .team g a⟩) (syswrEff n.toNat g a) s := by
  rw [exec_sysWrPick h]
  simp only [sysWrOn, hc, hv, if_true]
  rfl

/-! ## Registers without a rule of their own -/

/-- Registers of the partition that hold what was written. -/
def plainRegs : List Nat := [0x100, 0x101, 0x102, 0x103, 0x110, 0x112, 0x140, 0x150, 0x171, 0x174, 0x179]

theorem sysInfo_of_plain {n : Nat} (h : n ∈ plainRegs) : sysInfo n = some (.mk' (some 1) (some 1) .own) := by
  revert n
  decide

theorem State.writeOwn_of_plain {n : Nat} (h : n ∈ plainRegs) (s : State) (p : Nat) (v : W64) :
    s.writeOwn p n v = .ok (s.setPr p n v) := by
  revert n
  simp only [plainRegs, List.forall_mem_cons, List.not_mem_nil, false_implies, implies_true, and_true]
  exact ⟨rfl, rfl, rfl, rfl, rfl, rfl, rfl, rfl, rfl, rfl, rfl⟩

theorem State.sysWrite_of_plain {n : Nat} (h : n ∈ plainRegs) (s : State) (p : Nat) (l : Bool) {v : W64}
    (hv : sysValueOk n v = true) : s.sysWrite p n l v = .ok (s.setPr p n v) := by
  simp only [State.sysWrite, sysInfo_of_plain h, hv, Bool.not_true, Bool.false_eq_true, if_false]
  exact State.writeOwn_of_plain h s p v

end Sys2Proof.Machine

open Sys2Proof Sys2Proof.Machine in
/-- Settles O57: reads and writes by the register's rule, for a team and for the host; the rows of a value; plain registers. -/
theorem systemRegisters : Obligations.SystemRegisters := by
  intro w g a i q v team n wr rows picks
  refine ⟨?read, ?readTeam, ?dbgdata, ?fplaneRead, ?fpctl, ?fplane, ?rule, ?picks, ?plain⟩
  case read => exact fun hn => Completes.of_ok (fun _ => rfl) fun s t hr => sysrdEff_of_read hn hr
  case readTeam => exact fun hn => Completes.of_ok (fun _ => rfl) fun s t _ => sysrdEff_of_team hn
  case dbgdata => exact Completes.of_ok (fun _ => rfl) fun s t hr => sysrdEff_dbgdata hr
  case fplaneRead => exact fun _ => Completes.of_ok (fun _ => rfl) fun s t _ => rfl
  case fpctl =>
    intro hn mk hm
    have hx := exec_sysWrRow_team hm w.n g a
    rw [show w.n.toNat = 0x10 from hn] at hx
    exact ⟨Completes.of_ok hx fun s t h => syswrEff_fpctl_ok h, Faults.of_fault hx fun s t h => syswrEff_fpctl_fault h⟩
  case fplane =>
    intro hn bad mk hm
    have hx := exec_sysWrRow_team hm w.n g a
    rw [show w.n.toNat = 0x11 from hn] at hx
    exact ⟨Completes.of_ok hx fun s t h => syswrEff_fplane_ok h,
      fun l => Faults.of_fault hx fun s t h => syswrEff_fplane_fault h⟩
  case rule =>
    intro h0 h1 mk hm
    have hx := exec_sysWrRow_team hm w.n g a
    refine ⟨Completes.of_ok hx fun s t h => ?_, fun ws s s1 t e hi hf hw => ?_, fun p s hma hwa hn hi hp hw => ?_⟩
    · rw [syswrEff_of_rule h0 h1]
      exact congrArg (SysAns.eff t) h
    · rw [hx]
      exact issueRun_hold hi hf ((syswrEff_of_rule h0 h1).trans (congrArg (SysAns.eff t) hw))
    · rw [exec_sysWrRow hm]
      refine congrArg Host.Outcome.next ?_
      rw [State.hostWrite_of_manages hma hwa]
      exact State.sysselWr_done (State.hostSys_ok hn hp hi hw)
  case picks =>
    intro h0 h1 mf hm s s1 t0 t e hc hv hi hf hw
    rw [exec_sysWrPick_team hm hc hv]
    exact issueRun_ok hi hf ((syswrEff_of_rule h0 h1).trans (congrArg (SysAns.eff t) hw))
  case plain =>
    intro s p hn hv
    exact ⟨s.setPr p n v, State.sysWrite_of_plain hn s p false hv, State.pr_setPr_same s p n v, rfl, rfl,
      fun k hk => State.pr_setPr_key s p v hk⟩
end

section
/-!
SUPPORT. What a list of bytes leaves where it is written: each address once holds its byte, no other address changes.
-/
namespace Sys2Proof.Machine

section
variable (s : State) (p : Nat) {l : List (Nat × Byte)}

/-- Where no two cells of the list name one place, each place holds its cell's byte. -/
theorem State.memByte_storeBytes_mem (hn : (l.map fun x => s.norm x.1).Nodup) {x : Nat × Byte} (hx : x ∈ l) :
    (s.storeBytes p l).memByte x.1 = x.2 := by
  induction l generalizing s with
  | nil => cases hx
  | cons y r ih =>
    have norm : ∀ a, (s.storeByte p y.1 y.2).norm a = s.norm a := State.norm_congr (State.storeByte_mregs s p y.1 y.2)
    obtain ⟨fresh, hr⟩ := List.nodup_cons.1 (List.map_cons ▸ hn)
    rw [State.storeBytes]
    rcases List.mem_cons.1 hx with rfl | hx
    · rw [State.memByte_storeBytes_ne]
      · exact State.memByte_storeByte_same s p x.2 rfl
      · intro z hz
        rw [norm, norm]
        exact fun h => fresh (List.mem_map.2 ⟨z, hz, h.symm⟩)
    · exact ih (s.storeByte p y.1 y.2) (by simpa only [norm] using hr) hx
end

/-! ## Bytes that the device performs -/

theorem State.deviceBytes_step_mem (s : State) (a : Nat) (b : Byte) :
    (((s.putByte a b).unpoison a).dropHere a).mem = (s.putByte a b).mem := by simp

theorem State.deviceBytes_step_mregs (s : State) (a : Nat) (b : Byte) :
    (((s.putByte a b).unpoison a).dropHere a).mregs = s.mregs := by simp

section
variable (s : State) {l : List (Nat × Byte)}

theorem State.memByte_deviceBytes_ne {k : Nat} (h : ∀ x ∈ l, s.norm k ≠ s.norm x.1) :
    (s.deviceBytes l).memByte k = s.memByte k := by
  induction l generalizing s with
  | nil => rfl
  | cons x r ih =>
    have regs := s.deviceBytes_step_mregs x.1 x.2
    rw [State.deviceBytes, ih]
    · rw [State.memByte_congr (s := s.putByte x.1 x.2) (s.deviceBytes_step_mem x.1 x.2) regs]
      exact State.memByte_putByte_ne s x.2 (h x List.mem_cons_self)
    · intro y hy
      rw [State.norm_congr regs, State.norm_congr regs]
      exact h y (List.mem_cons_of_mem _ hy)

theorem State.memByte_deviceBytes_mem (hn : (l.map fun x => s.norm x.1).Nodup) {x : Nat × Byte} (hx : x ∈ l) :
    (s.deviceBytes l).memByte x.1 = x.2 := by
  induction l generalizing s with
  | nil => cases hx
  | cons y r ih =>
    have regs := s.deviceBytes_step_mregs y.1 y.2
    obtain ⟨fresh, hr⟩ := List.nodup_cons.1 (List.map_cons ▸ hn)
    rw [State.deviceBytes]
    rcases List.mem_cons.1 hx with rfl | hx
    · rw [State.memByte_deviceBytes_ne]
      · rw [State.memByte_congr (s := s.putByte x.1 x.2) (s.deviceBytes_step_mem x.1 x.2) regs]
        exact State.memByte_putByte_same s x.2 rfl
      · intro z hz
        rw [State.norm_congr regs, State.norm_congr regs]
        exact fun h => fresh (List.mem_map.2 ⟨z, hz, h.symm⟩)
    · exact ih _ (by simpa only [State.norm_congr regs] using hr) hx
end

/-! ## Copies that a written line loses -/

/-- A die without the far copies that `f` does not keep. -/
def Die.keepFar (x : Die) (f : LineCopy → Bool) : Die := { x with far := x.far.filter f }

/-- A change of the far copies of all dies is one of each. -/
theorem Table.get_map_keepFar (t : Table Die) (f : LineCopy → Bool) (d : Nat) :
    Table.get (t.map fun (x : Nat × Die) => (x.1, x.2.keepFar f)) Die.reset d = (t.get Die.reset d).keepFar f := by
  rw [Table.get, Table.get?_mapKey t (fun _ x => x.keepFar f) d, Table.get]
  cases t.get? d <;> rfl

/-- Of a die, a written line takes its far copies but those of versions. -/
theorem State.die_dropFar (s : State) (line d : Nat) :
    (s.dropFar line).die d = (s.die d).keepFar fun c => c.ver.isSome || c.line != line :=
  Table.get_map_keepFar s.dies _ d

theorem State.die_dropHere (s : State) (a d : Nat) :
    ∃ f : LineCopy → Bool, (s.dropHere a).die d = (s.die d).keepFar f := by
  unfold State.dropHere
  split
  · exact ⟨fun _ => true, by rw [Die.keepFar, List.filter_true]⟩
  · exact ⟨_, s.die_dropFar _ d⟩

/-- The trace units stand. -/
@[simp] theorem State.trace_dropHere (s : State) (a d : Nat) : ((s.dropHere a).die d).trace = (s.die d).trace := by
  obtain ⟨f, h⟩ := s.die_dropHere a d
  rw [h]
  rfl

@[simp] theorem State.trace_deviceBytes (s : State) (l : List (Nat × Byte)) (d : Nat) :
    ((s.deviceBytes l).die d).trace = (s.die d).trace := by
  induction l generalizing s with
  | nil => rfl
  | cons x r ih => rw [State.deviceBytes, ih, State.trace_dropHere]; rfl

end Sys2Proof.Machine
end

section
/-!
R403-R407, R425. Samples only add to the batches of the trace units; the drain writes what it takes from the FIFO; the host's
accesses through SYSSEL.
-/
namespace Sys2Proof.Machine

/-! ## Samples -/

/-- From `s` to `s'` packets join the batches of the clock, and nothing else of the trace, the memory or the teams changes. -/
structure State.OnlySampled (s s' : State) : Prop where
  mem : s'.mem = s.mem
  teams : s'.teams = s.teams
  fifo : ∀ d, (s'.die d).trace.fifo = (s.die d).trace.fifo
  batch : ∀ d, (s.die d).trace.batch ⊆ (s'.die d).trace.batch

theorem State.OnlySampled.refl (s : State) : s.OnlySampled s := ⟨rfl, rfl, fun _ => rfl, fun _ => List.Subset.refl _⟩

theorem State.OnlySampled.trans {s s' s'' : State} (h : s.OnlySampled s') (h' : s'.OnlySampled s'') : s.OnlySampled s'' :=
  ⟨h'.mem.trans h.mem, h'.teams.trans h.teams, fun d => (h'.fifo d).trans (h.fifo d), fun d => List.Subset.trans (h.batch d) (h'.batch d)⟩

theorem State.OnlySampled.foldl {α : Type} {f : State → α → State} (h : ∀ s a, State.OnlySampled s (f s a)) (l : List α) (s : State) :
    s.OnlySampled (l.foldl f s) := by
  induction l generalizing s with
  | nil => exact .refl s
  | cons a l ih => exact (h s a).trans (ih _)

theorem subset_insertEvent (e : TEvent) (l : List TEvent) : l ⊆ insertEvent e l := by
  induction l with
  | nil => exact List.nil_subset _
  | cons x r ih =>
    unfold insertEvent
    split
    · exact List.subset_cons_self e _
    · exact List.cons_subset_cons x ih

theorem State.onlySampled_tracePacket (s : State) (t : Team) (pc : W64) (p : Pkt) : s.OnlySampled (s.tracePacket t pc p) := by
  unfold State.tracePacket
  dsimp only
  split
  · refine ⟨rfl, rfl, fun d => ?_, fun d => ?_⟩ <;> by_cases hd : d = dieOfCore t.core
    · subst hd; simp [State.modDie]
    · rw [State.modDie, State.die_setDie_ne s _ hd]
    · subst hd; simpa [State.modDie] using subset_insertEvent _ _
    · rw [State.modDie, State.die_setDie_ne s _ hd]; exact List.Subset.refl _
  · exact .refl s

theorem State.onlySampled_sampleTick (s : State) (d : Nat) : s.OnlySampled (s.sampleTick d) := by
  unfold State.sampleTick
  dsimp only
  split
  · refine .foldl (fun s c => .foldl (fun s k => ?_) _ s) _ s
    split
    · exact State.onlySampled_tracePacket ..
    · exact .refl s
  · exact .refl s

/-! ## The drain -/

/-- A drain whose buffer can be reached writes the oldest bytes of the FIFO there. -/
theorem State.drain_of_reached {s : State} {d : Nat} {pas : List Nat}
    (hn : min (s.die d).trace.drain (s.die d).trace.fifo.length ≠ 0) (hd : (s.die d).trace.dead = false)
    (hp : (List.range (min (s.die d).trace.drain (s.die d).trace.fifo.length)).mapM (fun i =>
      s.tracePa (s.die d).trace ((s.die d).trace.bytesWritten + i)) = some pas) (ho : s.hostOpen pas = true) :
    s.drain d 1 = (s.deviceBytes (pas.zip (s.die d).trace.fifo)).modDie d fun z => { z with trace := { z.trace with
      fifo := z.trace.fifo.drop (min (s.die d).trace.drain (s.die d).trace.fifo.length)
      wp := wrap48 ((s.die d).trace.bytesWritten + min (s.die d).trace.drain (s.die d).trace.fifo.length) } } := by
  simp only [State.drain, Nat.one_mul, hn, hd, hp, ho, decide_false, Bool.or_self, Bool.not_true, Bool.false_eq_true, if_false]

/-- TRACE_DRAIN leaves of its die the rest of the FIFO and the place behind the bytes it wrote. -/
theorem State.traceDrain_of_owed {s : State} {d : Nat} (h : (s.die d).trace.owed = true) :
    s.traceDrain d = (s.drain d 1).modDie d fun z => { z with trace := { z.trace with owed := false } } :=
  if_pos h

@[simp] theorem State.die_modDie_same (s : State) (d : Nat) (f : Die → Die) : (s.modDie d f).die d = f (s.die d) :=
  State.die_setDie_same s d _

/-- The addresses of the cells, where there is a byte for each. -/
theorem map_norm_zip (s : State) {pas : List Nat} {l : List Byte} (h : pas.length ≤ l.length) :
    ((pas.zip l).map fun x => s.norm x.1) = pas.map s.norm := by
  exact (List.map_map (f := Prod.fst) (g := s.norm) (l := pas.zip l)).symm.trans
    (congrArg (List.map s.norm) (List.map_fst_zip h))

/-! ## The host's accesses -/

/-- A read through SYSSEL of a register that can be read. -/
theorem State.hostRead_of_read {s q : State} {p n : Nat} {v : W64} (hm : s.manages = true) (hw : s.mgmt.syswait = none)
    (hp : p ≤ 16) (hi : ((sysInfo n).bind (·.rd)).isSome = true) (hn : within n 0x0E00 0x0E07 = false)
    (hr : s.sysRead p n = some (q, v)) :
    s.hostRead p n = State.sysselDone { q with mgmt := { q.mgmt with sysdata := v } } p n false 0 := by
  cases hs : sysInfo n with
  | none => simp [hs] at hi
  | some k =>
    have hk : k.rd.isSome = true := by simpa [hs] using hi
    simp only [State.hostRead, State.sysselRd, hm, hw, hn, hp, hs, hk, hr, Option.isNone_none, decide_true, Bool.and_self,
      Bool.not_true, Bool.false_eq_true, if_true, if_false]

/-- A write through SYSSEL of a register by its rule. -/
theorem State.hostWrite_of_rule {s : State} {p n : Nat} {v : W64} (hm : s.manages = true) (hw : s.mgmt.syswait = none)
    (hn : within n 0x0E00 0x0E0B = false) (hp : p ≤ 16) (hi : ((sysInfo n).bind (·.wr)).isSome = true) :
    (∀ q, State.sysWrite { s with mgmt := { s.mgmt with sysdata := v } } p n true v = .ok q →
      s.hostWrite p n v = (q.sysselDone p n true 0).sysselBusy p n none) ∧
    ∀ code a, State.sysWrite { s with mgmt := { s.mgmt with sysdata := v } } p n true v = .fault code a →
      s.hostWrite p n v =
        (State.sysselDone { s with mgmt := { s.mgmt with sysdata := v } } p n true code).sysselBusy p n none := by
  rw [State.hostWrite_of_manages hm hw]
  exact ⟨fun q h => State.sysselWr_done (State.hostSys_ok hn hp hi h),
    fun code a h => State.sysselWr_done (State.hostSys_fault hn hp hi h)⟩

/-- A write of the staged block's registers answers by that block. -/
theorem State.hostSys_of_stage {s : State} {p n : Nat} {v : W64} (hn : within n 0x0E00 0x0E0B = true) :
    s.hostSys p n v = s.stageWrite n v := if_pos hn

/-- The unit operation of a register of the staged block. -/
def stagedOp : List (Nat × OpKind) := [(0x0E08, .resize), (0x0E09, .lend), (0x0E0A, .revoke)]

theorem State.stageWrite_of_unit {s : State} {n : Nat} {k : OpKind} {v : W64} (hn : (n, k) ∈ stagedOp)
    (hk : unitOk k s.stage = true) : s.stageWrite n v = ⟨s.unitOp k s.stage none, 0, none⟩ := by
  simp only [stagedOp, List.mem_cons, List.not_mem_nil, or_false] at hn
  obtain h | h | h := hn <;> cases h <;> simp [State.stageWrite, hk]

/-- The staged block starts a unit operation. -/
theorem State.hostWrite_of_unit {s : State} {n : Nat} {k : OpKind} (hm : s.manages = true) (hw : s.mgmt.syswait = none)
    (hn : (n, k) ∈ stagedOp) (hk : unitOk k s.stage = true) :
    s.hostWrite 0 n 0 = ((State.unitOp { s with mgmt := { s.mgmt with sysdata := 0 } } k s.stage none).sysselDone 0 n true
      0).sysselBusy 0 n none := by
  have staged : within n 0x0E00 0x0E0B = true := by
    simp only [stagedOp, List.mem_cons, List.not_mem_nil, or_false] at hn
    obtain h | h | h := hn <;> cases h <;> rfl
  rw [State.hostWrite_of_manages hm hw]
  exact State.sysselWr_done ((State.hostSys_of_stage staged).trans (State.stageWrite_of_unit hn hk))

/-- The staged block shoots down translations, and names what used them. -/
theorem State.stageWrite_of_pgret {s : State} {v : W64} {k : Shoot} (hk : shootOf v = some k)
    (ha : (wd s.stage 0).toNat % k.size = 0) (hl : (wd s.stage 0).toNat < 2 ^ 56) :
    s.stageWrite 0x0E0B v = ⟨(s.shoot k (wd s.stage 0).toNat).1, 0, some (.pgret (s.shoot k (wd s.stage 0).toNat).2)⟩ := by
  simp only [State.stageWrite, hk, ha, Nat.not_le.2 hl, ne_eq, not_true_eq_false, or_self, if_false]
  rfl

/-- What stands in flight or in buffers is of the teams, the dies and the cores. -/
theorem State.gone_congr {s s' : State} (ht : s'.teams = s.teams) (hd : s'.dies = s.dies) (hc : s'.cores = s.cores)
    (ws : List (TeamId × Nat)) : s'.gone ws = s.gone ws := by
  simp only [State.gone, State.flights, State.team?, ht, hd, hc]

theorem State.hostHoldEnd_of_not_gone {s : State} {ws : List (TeamId × Nat)} (hw : s.mgmt.syswait = some (.pgret ws))
    (hg : ¬ s.gone ws = true) : s.hostHoldEnd = s := by
  simp only [State.hostHoldEnd, hw]
  exact if_neg hg

/-- The host's access that waits for accesses ends at once where they are gone, and else stays on its way. -/
theorem State.hostHoldEnd_waits (s : State) {m : Mgmt} {ws : List (TeamId × Nat)} (hw : m.syswait = some (.pgret ws)) :
    (State.hostHoldEnd { s with mgmt := m }).mem = s.mem ∧
      let m' := (State.hostHoldEnd { s with mgmt := m }).mgmt
      if s.gone ws = true then m'.syswait = none ∧ m'.syssel = m.syssel &&& ~~~(1#64 <<< 63)
      else m'.syswait = some (.pgret ws) ∧ m'.syssel = m.syssel := by
  have gone : State.gone { s with mgmt := m } ws = s.gone ws := State.gone_congr rfl rfl rfl ws
  by_cases hg : s.gone ws = true
  · rw [if_pos hg, State.hostHoldEnd_of_gone (s := { s with mgmt := m }) hw (gone.trans hg)]
    exact ⟨rfl, rfl, rfl⟩
  · rw [if_neg hg, State.hostHoldEnd_of_not_gone (s := { s with mgmt := m }) hw fun h => hg (gone.symm.trans h)]
    exact ⟨rfl, hw, rfl⟩

/-- While it is on its way GO stands at 1. -/
theorem State.sysselBusy_some (s : State) (p n : Nat) (w : Hold) :
    s.sysselBusy p n (some w) = { s with mgmt := { s.mgmt with
      syssel := sysselWord p n true 0 ||| (1#64 <<< 63)
      syswait := some w } } := by
  unfold State.sysselBusy
  rw [if_pos Option.isSome_some]

theorem State.hostWrite_of_pgret {s : State} {v : W64} {k : Shoot} (hm : s.manages = true) (hw : s.mgmt.syswait = none)
    (hk : shootOf v = some k) (ha : (wd s.stage 0).toNat % k.size = 0) (hl : (wd s.stage 0).toNat < 2 ^ 56) :
    let sh := State.shoot { s with mgmt := { s.mgmt with sysdata := v } } k (wd s.stage 0).toNat
    s.hostWrite 0 0x0E0B v = State.hostHoldEnd { sh.1 with mgmt := { (sh.1.sysselDone 0 0x0E0B true 0).mgmt with
      syssel := sysselWord 0 0x0E0B true 0 ||| (1#64 <<< 63)
      syswait := some (.pgret sh.2) } } := by
  intro sh
  have answer : State.hostSys { s with mgmt := { s.mgmt with sysdata := v } } 0 0x0E0B v = ⟨sh.1, 0, some (.pgret sh.2)⟩ :=
    (State.hostSys_of_stage rfl).trans (State.stageWrite_of_pgret hk ha hl)
  rw [State.hostWrite_of_manages hm hw, State.sysselWr, answer, State.sysselBusy_some]
  rfl

end Sys2Proof.Machine

open Sys2Proof Sys2Proof.Machine in
/-- Settles O56: samples by the batches, the drain by the bytes it writes, SYSSEL by the rule of its register. -/
theorem traceAndHostRegisters : Obligations.TraceAndHostRegisters := by
  intro s pas v q e x n staged unit host
  refine ⟨?sample, ?drain, ?read, ?write, ?presize, ?plend, ?prevoke, ?pgret⟩
  case sample =>
    have only := s.onlySampled_sampleTick s.ev.die
    exact ⟨_, rfl, only.fifo _, only.mem, only.teams, only.batch _⟩
  case drain =>
    intro hw hn hd hp ho
    have len : pas.length ≤ x.fifo.length := by
      rw [length_of_mapM_eq_some hp, List.length_range]
      exact Nat.min_le_right ..
    refine ⟨s.traceDrain e.die, rfl, ?_⟩
    rw [State.traceDrain_of_owed hw, State.drain_of_reached hn hd hp ho]
    refine ⟨by simp [x, n, e], by simp [x, n, e], by simp, fun hnd i a hi => ?_, fun a ha => ?_⟩
    · obtain ⟨hlt, rfl⟩ := List.getElem?_eq_some_iff.1 hi
      have cell : (pas[i], x.fifo.getD i 0) ∈ pas.zip x.fifo := by
        have hf : i < x.fifo.length := Nat.lt_of_lt_of_le hlt len
        rw [List.getD_eq_getElem _ _ hf]
        exact List.mem_iff_getElem.2 ⟨i, by simp [hlt, hf], by simp⟩
      exact s.memByte_deviceBytes_mem (l := pas.zip x.fifo) (by rw [map_norm_zip s len]; exact hnd) cell
    · exact s.memByte_deviceBytes_ne (l := pas.zip x.fifo) fun y hy h =>
        ha (h ▸ List.mem_map_of_mem (List.of_mem_zip hy).1)
  case read =>
    intro ⟨hm, hw⟩ hp hi hn hr
    exact ⟨_, congrArg Host.Outcome.next (State.hostRead_of_read hm hw hp hi hn hr), rfl, rfl, rfl⟩
  case write =>
    intro ⟨hm, hw⟩ hn hp hi
    obtain ⟨done, fault⟩ := State.hostWrite_of_rule (v := e.val) hm hw hn hp hi
    exact ⟨fun h => congrArg Host.Outcome.next (done q h), fun code a h => congrArg Host.Outcome.next (fault code a h)⟩
  case presize => exact fun ⟨hm, hw⟩ hk => congrArg Host.Outcome.next (State.hostWrite_of_unit hm hw (by simp [stagedOp]) hk)
  case plend => exact fun ⟨hm, hw⟩ hk => congrArg Host.Outcome.next (State.hostWrite_of_unit hm hw (by simp [stagedOp]) hk)
  case prevoke => exact fun ⟨hm, hw⟩ hk => congrArg Host.Outcome.next (State.hostWrite_of_unit hm hw (by simp [stagedOp]) hk)
  case pgret =>
    intro k ⟨hm, hw⟩ hk ha hl sh
    refine ⟨_, congrArg Host.Outcome.next (State.hostWrite_of_pgret hm hw hk ha hl), ?_⟩
    have word : (sysselWord 0 0x0E0B true 0 ||| (1#64 <<< 63)) &&& ~~~(1#64 <<< 63) = sysselWord 0 0x0E0B true 0 := by decide
    have ends := sh.1.hostHoldEnd_waits (m := { (sh.1.sysselDone 0 0x0E0B true 0).mgmt with
      syssel := sysselWord 0 0x0E0B true 0 ||| (1#64 <<< 63)
      syswait := some (.pgret sh.2) }) rfl
    rw [word] at ends
    exact ends
end

section
/-!
SUPPORT. Where no window is open and no record is spilled, a line that is reached changes no byte of memory, no team and no
register of the module (R229, R230, R337).
-/
namespace Sys2Proof.Machine

/-- No queued record of the partition is spilled. -/
def Partition.unspilled (x : Partition) : Bool :=
  x.graphs.all fun (_, y) => y.nodes.all fun (_, z) => z.q.all fun r => r.spill.isNone

/-- No window is open and no queued record is spilled, by partition. -/
structure State.Still (s : State) : Prop where
  wins : s.wins = []
  part : ∀ p, (s.part p).unspilled = true

theorem State.Still.of_still {s : State} (h : s.still = true) : s.Still := by
  obtain ⟨hw, hp⟩ := (Bool.and_eq_true _ _).mp h
  refine ⟨List.isEmpty_iff.1 hw, fun p => ?_⟩
  rw [State.part, Table.get]
  cases hg : s.parts.get? p with
  | none => rfl
  | some x => exact List.all_eq_true.1 hp _ (Table.mem_of_get? hg)

/-- From `s` to `s'` memory, its poison, the teams, the registers of the module, the windows and the graphs stand. -/
structure State.SameMemory (s s' : State) : Prop where
  mem : s'.mem = s.mem
  poison : s'.poison = s.poison
  teams : s'.teams = s.teams
  mregs : s'.mregs = s.mregs
  wins : s'.wins = s.wins
  graphs : ∀ p, (s'.part p).graphs = (s.part p).graphs

namespace State.SameMemory
variable {s s' s'' : State}

theorem refl (s : State) : s.SameMemory s := ⟨rfl, rfl, rfl, rfl, rfl, fun _ => rfl⟩

theorem trans (h : s.SameMemory s') (k : s'.SameMemory s'') : s.SameMemory s'' :=
  ⟨k.mem.trans h.mem, k.poison.trans h.poison, k.teams.trans h.teams, k.mregs.trans h.mregs, k.wins.trans h.wins,
    fun p => (k.graphs p).trans (h.graphs p)⟩

theorem foldl {α : Type} {f : State → α → State} (h : ∀ s a, State.SameMemory s (f s a)) (l : List α) (s : State) :
    s.SameMemory (l.foldl f s) := by
  induction l generalizing s with
  | nil => exact refl s
  | cons a l ih => exact (h s a).trans (ih _)

theorem memByte (h : s.SameMemory s') (a : Nat) : s'.memByte a = s.memByte a := State.memByte_congr h.mem h.mregs a

theorem still (h : s.SameMemory s') (hs : s.Still) : s'.Still :=
  ⟨h.wins.trans hs.wins, fun p => by rw [Partition.unspilled, h.graphs p]; exact hs.part p⟩
end State.SameMemory

section
variable (s : State)

/-- A partition changes but for its graphs. -/
theorem State.sameMemory_setPart (p : Nat) {x : Partition} (h : x.graphs = (s.part p).graphs) : s.SameMemory (s.setPart p x) := by
  refine ⟨rfl, rfl, rfl, rfl, rfl, fun q => ?_⟩
  by_cases hq : q = p
  · subst hq; rw [State.part_setPart_same, h]
  · rw [State.part_setPart_ne s x hq]

theorem State.sameMemory_setPr (p k : Nat) (v : W64) : s.SameMemory (s.setPr p k v) := s.sameMemory_setPart p rfl

theorem State.sameMemory_modDie (d : Nat) (f : Die → Die) : s.SameMemory (s.modDie d f) := ⟨rfl, rfl, rfl, rfl, rfl, fun _ => rfl⟩
theorem State.sameMemory_modCore (c : Nat) (f : Core → Core) : s.SameMemory (s.modCore c f) :=
  ⟨rfl, rfl, rfl, rfl, rfl, fun _ => rfl⟩

theorem State.sameMemory_countEvent (p d e n : Nat) : s.SameMemory (s.countEvent p d e n) := by
  have counters (s : State) : s.SameMemory ((List.range 8).foldl (fun s k =>
      let sel := s.pr p (0x500 + k)
      if bitsOf sel 15 0 = e ∧ !sel.getLsbD 63 then s.bump p (0x508 + k) n else s) s) := by
    refine .foldl (fun s k => ?_) _ s
    dsimp only
    split
    · exact s.sameMemory_setPr ..
    · exact .refl s
  unfold State.countEvent
  split
  · exact .refl s
  · dsimp only
    split
    · exact (counters s).trans (State.sameMemory_modDie ..)
    · exact counters s

theorem State.sameMemory_putNear (t : Team) (c : LineCopy) : s.SameMemory (s.putNear t c) :=
  ⟨rfl, rfl, rfl, rfl, rfl, fun _ => rfl⟩
theorem State.sameMemory_putFar (d : Nat) (c : LineCopy) : s.SameMemory (s.putFar d c) :=
  ⟨rfl, rfl, rfl, rfl, rfl, fun _ => rfl⟩
end

/-! ## Lines -/

section
variable {s : State} (hs : s.Still)
include hs

/-- A queue none of whose records is spilled passes no segment on. -/
theorem State.Still.evictees (p k : Nat) : s.evictees p k = [] := by
  rw [State.evictees, List.flatMap_eq_nil_iff]
  intro g hg
  refine List.filterMap_eq_nil_iff.2 fun n hn => if_pos ?_
  have clean := List.all_eq_true.1 (List.all_eq_true.1 (hs.part p) g hg) n hn
  have none_spilled : (n.2.q.findSome? fun r => r.spill.bind fun (x : Nat × Nat) => if x.2 = k then some x.1 else none) = none :=
    List.findSome?_eq_none_iff.2 fun r hr => by
      rw [Option.isNone_iff_eq_none.1 (List.all_eq_true.1 clean r hr)]
      rfl
  rw [Node.evict, none_spilled]

theorem State.Still.evictLine (line : Nat) : s.evictLine line = s := by
  have none_left : ∀ l : List Nat, l.foldl (fun s p =>
      let base := s.preg p 12 / 64
      if base ≤ line ∧ line < base + s.preg p 4 then
        (s.evictees p (line - base)).foldl (fun s (g, n) =>
          (s.modPart p fun x => { x with graphs := x.graphs.map fun (h, y) => if h = g then
            (h, { y with nodes := y.nodes.map fun (m, z) => (m, if m = n then z.evict (line - base) else z) }) else (h, y) }).noteNode
              p g n) s
      else s) s = s := by
    intro l
    induction l with
    | nil => rfl
    | cons p l ih =>
      rw [List.foldl_cons]
      dsimp only
      rw [hs.evictees, List.foldl_nil, ite_self]
      exact ih
  exact none_left _

theorem State.Still.sameMemory_putCached (sl line : Nat) : s.SameMemory (s.putCached sl line) := by
  unfold State.putCached
  dsimp only
  split
  · rw [hs.evictLine]
    exact ⟨rfl, rfl, rfl, rfl, rfl, fun _ => rfl⟩
  · exact ⟨rfl, rfl, rfl, rfl, rfl, fun _ => rfl⟩

/-- No line has an old home, and none moves. -/
theorem State.Still.moveLine (line : Nat) : s.moveLine line = s := by
  have home : s.oldHome line = none := by simp [State.oldHome, hs.wins]
  simp only [State.moveLine, home]

theorem State.Still.sameMemory_reach (p line : Nat) : s.SameMemory (s.reach p line) := by
  unfold State.reach
  split
  · dsimp only
    rw [hs.moveLine]
    split
    · split
      · exact .refl s
      · exact (hs.sameMemory_putCached ..).trans (State.sameMemory_countEvent ..)
    · exact .refl s
  · exact .refl s
end

theorem State.Still.sameMemory_reachLines {s : State} (hs : s.Still) (p : Nat) (l : List Nat) :
    s.SameMemory (s.reachLines p l) := by
  induction l generalizing s with
  | nil => exact .refl s
  | cons x l ih =>
    have first := hs.sameMemory_reach p x
    exact first.trans (ih (first.still hs))

theorem State.Still.sameMemory_fillLine {s : State} (hs : s.Still) (t : Team) (src : CopySrc) (line : Nat) :
    s.SameMemory (s.fillLine t src line) := by
  unfold State.fillLine
  split
  · exact .refl s
  · dsimp only
    split
    · exact .refl s
    · exact s.sameMemory_putNear ..
    · have near (c : LineCopy) := ((hs.sameMemory_reach t.part line).trans (State.sameMemory_putNear _ t c)).trans
        (State.sameMemory_countEvent _ t.part (dieOfCore t.core) 0x005 1)
      split
      · exact (near _).trans ((State.sameMemory_putFar ..).trans (State.sameMemory_countEvent ..))
      · exact near _

theorem State.Still.sameMemory_fillLines {s : State} (hs : s.Still) (t : Team) (src : CopySrc) (l : List Nat) :
    s.SameMemory (s.fillLines t src l) := by
  induction l generalizing s with
  | nil => exact .refl s
  | cons x l ih =>
    have first := hs.sameMemory_fillLine t src x
    exact first.trans (ih (first.still hs))

end Sys2Proof.Machine
end

section
/-!
SUPPORT. The pending instruction that an event names.
-/
namespace Sys2Proof.Machine

theorem Team.mem_of_pendOf {t : Team} {p : Pending} {seq : Nat} (h : t.pendOf seq = some p) : p ∈ t.pend ∧ p.seq = seq :=
  ⟨List.mem_of_find?_eq_some h, by simpa using List.find?_some h⟩

/-- The pending instruction of a number, where it is unperformed, is the first such. -/
theorem Team.find_unperformed {t : Team} {p : Pending} {seq : Nat} (h : t.pendOf seq = some p) (hp : p.performed = false) :
    (t.pend.find? fun q => q.seq == seq && !q.performed) = some p := by
  obtain ⟨hs, before, after, hl, hb⟩ := List.find?_eq_some_iff_append.1 h
  refine List.find?_eq_some_iff_append.2 ⟨by simp [hp, hs], before, after, hl, fun a ha => ?_⟩
  have := hb a ha
  simp_all

/-- An event names a pending instruction of its team. -/
theorem State.evPend_eq_some {s : State} {t : Team} {p : Pending} (h : s.evPend = some (t, p)) :
    s.team? s.ev.team = some t ∧ t.pendOf s.ev.seq = some p := by
  unfold State.evPend at h
  cases ht : s.team? s.ev.team with
  | none => simp [ht] at h
  | some u =>
    obtain ⟨q, hq, e⟩ := Option.map_eq_some_iff.1 (by simpa only [ht] using h)
    cases e
    exact ⟨rfl, hq⟩

end Sys2Proof.Machine
end

section
/-!
R207, R271-R273, R331, R338, R384-R390. The UALink domain: what each message and each timer does, an equation per outcome.
-/
namespace Sys2Proof.Machine

/-! ## Messages that a ready port carries -/

section
variable {s : State} (h : s.linkReady = true)
include h

theorem exec_recReceive : exec .recReceive s =
    .next (s.recReceive s.ev.dev s.ev.die s.ev.domid (lo32 s.ev.val) s.ev.words) := congrArg Host.Outcome.next (if_pos h)
theorem exec_skipReceive : exec .skipReceive s = .next (s.skipReceive s.ev.dev s.ev.die (lo32 s.ev.val)) :=
  congrArg Host.Outcome.next (if_pos h)
theorem exec_ackReceive : exec .ackReceive s = .next (s.ackReceive s.ev.die s.ev.dev (lo32 s.ev.val)) :=
  congrArg Host.Outcome.next (if_pos h)
theorem exec_nakReceive : exec .nakReceive s = .next (s.nakReceive s.ev.die s.ev.dev (lo32 s.ev.val) s.ev.flag) :=
  congrArg Host.Outcome.next (if_pos h)
theorem exec_staggerReceive : exec .staggerReceive s = .next (s.staggerReceive s.ev.domid s.ev.val.toNat) :=
  congrArg Host.Outcome.next (if_pos h)
theorem exec_remoteAccessArrive : exec .remoteAccessArrive s = .next (s.remoteAccess s.ev) := congrArg Host.Outcome.next (if_pos h)

variable {p : Nat} (hp : s.partOfDomid s.ev.domid = some p)
include hp

theorem exec_vwakeReceive : exec .vwakeReceive s =
    .next (s.vwakeReceive p s.ev.idx s.ev.addr (lo32 s.ev.val) (s.ev.bytes.take 64)) :=
  congrArg Host.Outcome.next ((if_pos h).trans (by dsimp only; rw [hp]; rfl))
theorem exec_vflrMsgReceive : exec .vflrMsgReceive s =
    .next (s.vflrMsg s.ev.dev p s.ev.idx (lo32 s.ev.val) s.ev.flag) :=
  congrArg Host.Outcome.next ((if_pos h).trans (by dsimp only; rw [hp]; rfl))
end

/-! ## The receiver -/

section
variable {s : State} {dev d domid p c : Nat} {seq : W32} {w : List W32} (hs : seq = (s.inboundOf dev d).next)
include hs

theorem State.recReceive_enters (hp : s.partOfDomid domid = some p) (hf : s.remoteFate p w = .enters c) :
    s.recReceive dev d domid seq w =
      ((s.setInbound dev d (s.inboundOf dev d).advance).inputRecord p w).say
        (.ack (s.answerHdr dev domid w) ((s.inboundOf dev d).advance.next - 1)) := by
  simp only [State.recReceive, hs, hp, hf, ne_eq, not_true_eq_false, if_false]

theorem State.recReceive_waits (hp : s.partOfDomid domid = some p) (hf : s.remoteFate p w = .waits) :
    s.recReceive dev d domid seq w = s.say (.nak (s.answerHdr dev domid w) seq false) := by
  simp only [State.recReceive, hs, hp, hf, ne_eq, not_true_eq_false, if_false]

theorem State.recReceive_nobody (hp : s.partOfDomid domid = none) :
    s.recReceive dev d domid seq w =
      (s.setInbound dev d (s.inboundOf dev d).advance).say (.nak (s.answerHdr dev domid w) seq true) := by
  simp only [State.recReceive, hs, hp, ne_eq, not_true_eq_false, if_false]

theorem State.skipReceive_next : s.skipReceive dev d seq = s.setInbound dev d (s.inboundOf dev d).advance := by
  simp only [State.skipReceive, hs, if_true]
end

/-! ## The sender's window -/

@[simp] theorem State.window_setWindow (s : State) (d dev : Nat) (w : Window) :
    ((s.setWindow d dev w).die d).window dev = w := by
  simp [State.setWindow, State.modDie, Die.window]

/-- Nothing of the dies, and nothing that waits for the ports or stands at them, has changed. -/
structure State.SameSends (s s' : State) : Prop where
  dies : s'.dies = s.dies
  outbox : s'.outbox = s.outbox
  unsent : s'.unsent = s.unsent

theorem State.SameSends.trans {s s' s'' : State} (h : s.SameSends s') (k : s'.SameSends s'') : s.SameSends s'' :=
  ⟨k.dies.trans h.dies, k.outbox.trans h.outbox, k.unsent.trans h.unsent⟩

theorem State.sameSends_lostRecs (s : State) (p n : Nat) : s.SameSends (s.lostRecs p n) := ⟨rfl, rfl, rfl⟩

theorem State.sameSends_sendSup (s : State) (p : Nat) (l : List W32) : s.SameSends (s.sendSup p l) := by
  unfold State.sendSup
  dsimp only
  split <;> exact ⟨rfl, rfl, rfl⟩

/-- A record refused for good is told to its sender, on this device. -/
theorem State.sameSends_refuse (s : State) (p : Nat) (x : Sender) (w : List W32) : s.SameSends (s.refuse p x w) := by
  unfold State.refuse
  split
  · exact s.sameSends_lostRecs p 1
  · exact (s.sameSends_lostRecs p 1).trans (State.sameSends_sendSup ..)
  · split
    · split
      · exact ⟨rfl, rfl, rfl⟩
      · exact s.sameSends_lostRecs p 1
    · exact s.sameSends_lostRecs p 1

/-- Where messages go, they stand behind those there. -/
theorem State.sends_place (s : State) (l : List Msg) :
    if s.linkReady = true then (s.sends l).outbox = s.outbox ++ l else (s.sends l).unsent = s.unsent ++ l := by
  unfold State.sends
  split <;> rfl

theorem State.dies_sends (s : State) (l : List Msg) : (s.sends l).dies = s.dies := by
  unfold State.sends
  split <;> rfl

@[simp] theorem State.linkReady_sends (s : State) (l : List Msg) : (s.sends l).linkReady = s.linkReady := by
  unfold State.sends
  split <;> rfl

/-- What waits for the ports where none is ready, and what stands at them where one is. -/
def State.sent (s : State) : List Msg := if s.linkReady then s.outbox else s.unsent

theorem State.sent_sends (s : State) (l : List Msg) : (s.sends l).sent = s.sent ++ l := by
  have place := s.sends_place l
  unfold State.sent
  rw [State.linkReady_sends]
  split <;> simp_all

section
variable {s : State} {d dev : Nat} {seq n : W32} {r : WinRec}

/-- Numbers that the receiver has accepted leave the window. -/
theorem State.recs_ackReceive (h : ∃ k ∈ ((s.die d).window dev).recs, seqLe k.seq seq = true) :
    (((s.ackReceive d dev seq).die d).window dev).recs =
      ((s.die d).window dev).recs.filter fun k => !seqLe k.seq seq := by
  have shorter : (((s.die d).window dev).recs.filter fun k => !seqLe k.seq seq).length ≠ ((s.die d).window dev).recs.length := by
    obtain ⟨k, hk, hle⟩ := h
    intro hl
    have := List.length_filter_eq_length_iff.1 hl k hk
    simp [hle] at this
  unfold State.ackReceive
  dsimp only
  rw [if_neg shorter, State.window_setWindow]

theorem State.mem_ackReceive (s : State) (d dev : Nat) (seq : W32) : (s.ackReceive d dev seq).mem = s.mem := by
  unfold State.ackReceive
  dsimp only
  split <;> rfl

/-- A record refused for a while starts a back-off, where none runs. -/
theorem State.nakReceive_temporary (hf : ((s.die d).window dev).recs.find? (fun k => k.seq == seq) = some r)
    (hr : ((s.die d).window dev).resend = none) :
    s.nakReceive d dev seq false = s.setWindow d dev { (s.die d).window dev with
      backoff := s.nextBackoff r.p ((s.die d).window dev).backoff
      resend := some seq
      since := s.now } := by
  simp only [State.nakReceive, hf, hr, Option.isSome_none, Bool.false_eq_true, if_false]

/-- A back-off that is over sends the window again. -/
theorem State.backoffExpire_due (hr : ((s.die d).window dev).resend = some n)
    (ht : ((s.die d).window dev).since + 1000 * ((s.die d).window dev).backoff ≤ s.now) :
    s.backoffExpire d dev = (s.resendFrom d dev n).setWindow d dev { (s.die d).window dev with resend := none } := by
  simp only [State.backoffExpire, hr, Nat.not_lt.2 ht, if_false]

/-- A record past its time leaves the window, and the receiver is told to skip its number. -/
theorem State.dropRecord_late (hf : ((s.die d).window dev).recs.find? (fun k => k.seq == seq) = some r)
    (ht : r.deadline ≤ s.now) :
    (((s.dropRecord d dev seq).die d).window dev).recs = ((s.die d).window dev).recs.filter (fun k => k.seq != seq) ∧
      .skip (s.hdr d dev r.domid) seq ∈ if s.linkReady then (s.dropRecord d dev seq).outbox else (s.dropRecord d dev seq).unsent := by
  simp only [State.dropRecord, hf, Nat.not_lt.2 ht, if_false]
  generalize hw : s.setWindow d dev _ = s1
  have ready : s1.linkReady = s.linkReady := by rw [← hw]; rfl
  have recs : ((s1.die d).window dev).recs = ((s.die d).window dev).recs.filter fun k => k.seq != seq := by
    rw [← hw, State.window_setWindow]
  have header : s1.hdr d dev r.domid = s.hdr d dev r.domid := by rw [← hw]; rfl
  rw [header]
  have told : .skip (s.hdr d dev r.domid) seq ∈ (s1.say (.skip (s.hdr d dev r.domid) seq)).sent := by
    rw [State.say, State.sent_sends]
    exact List.mem_append_right _ List.mem_cons_self
  have die_told : (s1.say (.skip (s.hdr d dev r.domid) seq)).dies = s1.dies := s1.dies_sends _
  have ready_told : (s1.say (.skip (s.hdr d dev r.domid) seq)).linkReady = s.linkReady := (s1.linkReady_sends _).trans ready
  generalize hsay : s1.say (.skip (s.hdr d dev r.domid) seq) = s2 at *
  obtain ⟨s3, hs3, dies3, ready3, sent3⟩ : ∃ s3, (if ((s.die d).window dev).resend.isNone = true then
      s2.resendFrom d dev (seq + 1) else s2) = s3 ∧ s3.dies = s1.dies ∧ s3.linkReady = s.linkReady ∧
        .skip (s.hdr d dev r.domid) seq ∈ s3.sent := by
    refine ⟨_, rfl, ?_⟩
    split
    · exact ⟨(s2.dies_sends _).trans die_told, (s2.linkReady_sends _).trans ready_told, by
        rw [State.resendFrom, State.sent_sends]; exact List.mem_append_left _ told⟩
    · exact ⟨die_told, ready_told, told⟩
  rw [hs3]
  have same := s3.sameSends_refuse r.p r.sender r.w
  refine ⟨?_, ?_⟩
  · rw [State.die, same.dies, dies3]
    exact recs
  · rw [same.outbox, same.unsent, ← ready3]
    exact sent3
end

/-! ## Versions of other devices -/

section
variable {s : State} {dev p r g : Nat} {v f : W32} {bytes : List Byte}

/-- The bytes that a wake brings, none of which stood there, are recorded, and what waited for them goes on. -/
theorem State.vwakeReceive_fresh (ha : (s.regionAway p r).isSome = true)
    (hn : ((cells (64 * g) bytes).all fun k => !((s.region p r).exist g v).getLsbD (k.1 % 64)) = true) (hb : bytes ≠ []) :
    s.vwakeReceive p r g v bytes =
      ((s.setRegion p r ((s.region p r).record false g v (cells (64 * g) bytes))).noteRegion p r true).freeReady := by
  obtain ⟨d, hd⟩ := Option.isSome_iff_exists.1 ha
  have all_new : ((cells (64 * g) bytes).filter fun k => !((s.region p r).exist g v).getLsbD (k.1 % 64)) =
      cells (64 * g) bytes := List.filter_eq_self.2 fun k hk => List.all_eq_true.1 hn k hk
  have some_new : (cells (64 * g) bytes).isEmpty = false := by
    rw [List.isEmpty_eq_false_iff, ← List.length_pos_iff]
    simpa [cells] using List.length_pos_iff.2 hb
  simp only [State.vwakeReceive, hd, all_new, some_new, Bool.false_eq_true, if_false]

/-- A region that is written reads as written, where it is live. -/
theorem State.region_setRegion_same (s : State) (p r : Nat) (x : VRegion) (h : s.liveRegion p r = true) :
    (s.setRegion p r x).region p r = x := by
  rw [State.setRegion, if_pos h, State.region, State.part_modPart_same, Partition.region, Table.get_put_same]

theorem State.region_of_not_live (h : s.liveRegion p r = false) : s.region p r = VRegion.empty := by
  have gone : (s.part p).regions.get? r = none := by simpa [State.liveRegion] using h
  rw [State.region, Partition.region, Table.get, gone]
  rfl

/-- A holder's confirmation leaves those told. -/
theorem State.told_vflrMsg_confirm (s : State) (dev p r : Nat) (f : W32) :
    ((s.vflrMsg dev p r f true).region p r).told = (s.region p r).told.erase (dev, f) := by
  rw [State.vflrMsg, if_pos rfl]
  cases h : s.liveRegion p r
  · rw [State.setRegion, if_neg (Bool.eq_false_iff.1 h), State.region_of_not_live h]
    rfl
  · rw [State.region_setRegion_same s p r _ h]

theorem State.mem_vflrMsg_confirm (s : State) (dev p r : Nat) (f : W32) : (s.vflrMsg dev p r f true).mem = s.mem := by
  rw [State.vflrMsg, if_pos rfl, State.setRegion]
  split <;> rfl

/-- A floor that the region's home raises is confirmed to it. -/
theorem State.outbox_vflrMsg_raise (ha : s.regionAway p r = some dev) (hl : s.linkReady = true) :
    .vflr (s.partHdr p 0 dev) r f true ∈ (s.vflrMsg dev p r f false).outbox := by
  rw [State.vflrMsg, if_neg Bool.false_ne_true, if_pos ha]
  have ready : ((s.takeFloor p r f (1000 + dev)).dropVersions p r fun _ v => decide (v < f)).linkReady = true := by
    rw [← hl]
    exact congrArg (fun m : Mgmt => m.ready.extractLsb' 24 16 != 0) (State.mgmt_of_fixed (s.takeFloor_fixed p r f _))
  rw [State.say, State.sends, if_pos ready]
  exact List.mem_append_right _ List.mem_cons_self
end

/-! ## Restart stagger -/

theorem State.stagger_staggerReceive {s : State} {domid t0 p : Nat} (hp : s.partOfDomid domid = some p)
    (ht : (s.mr 0x33).toNat < t0 + s.preg p 28) :
    ((s.staggerReceive domid t0).part p).stagger = some (min (t0 + s.preg p 28) ((s.mr 0x33).toNat + 10000000)) := by
  simp [State.staggerReceive, hp, Nat.not_le.2 ht]

theorem State.staggerEnd_over {s : State} {p n : Nat} (hn : (s.part p).stagger = some n) (ht : n ≤ (s.mr 0x33).toNat) :
    s.staggerEnd p = (s.modPart p fun x => { x with stagger := none }).ramp := by
  simp only [State.staggerEnd, hn, ht, if_true]

/-! ## Accesses of other devices -/

section
variable {s : State} {e : Event} {n : Nat} {d : List Byte}

/-- A read of bytes that are not poisoned is answered with them. -/
theorem State.remoteAccess_read (ho : e.op = .read n) (hl : e.addr + n ≤ localTop)
    (hp : (bytesAt e.addr n).any (s.reachLines (s.ownerOf e.addr) (s.linesAt (bytesAt e.addr n))).poisoned = false) :
    s.remoteAccess e =
      let s' := s.reachLines (s.ownerOf e.addr) (s.linesAt (bytesAt e.addr n))
      s'.say (.answer e.dev ((bytesAt e.addr n).map s'.memByte)) := by
  simp only [State.remoteAccess, ho, opSize, opVersioned, opWrites, Nat.not_lt.2 hl, hp, Bool.false_and, Bool.false_eq_true,
    if_false]

/-- A write that nothing holds back is performed and answered. -/
theorem State.remoteAccess_write (ho : e.op = .write d) (hl : e.addr + d.length ≤ localTop)
    (hw : s.writeHeld (s.ownerOf e.addr) (bytesAt e.addr d.length) = false) :
    s.remoteAccess e = ((s.reachLines (s.ownerOf e.addr) (s.linesAt (bytesAt e.addr d.length))).storeBytes (s.ownerOf e.addr)
      (cells e.addr d)).say (.answer e.dev []) := by
  simp only [State.remoteAccess, ho, opSize, opVersioned, opWrites, Nat.not_lt.2 hl, hw, Bool.false_and, Bool.and_false,
    Bool.false_eq_true, if_false]
end

theorem State.memByte_say (s : State) (m : Msg) (a : Nat) : (s.say m).memByte a = s.memByte a := by
  unfold State.say State.sends
  split <;> rfl

/-- An address of this device's memory is its own name. -/
theorem State.norm_of_local (s : State) {a : Nat} (h : a < localTop) : s.norm a = a := by
  have low : a / 2 ^ 50 = 0 := Nat.div_eq_of_lt (Nat.lt_trans h (by decide))
  rw [State.norm, low]
  exact if_neg fun h => absurd h.1 (by decide)

theorem map_fst_cells (a : Nat) (d : List Byte) : (cells a d).map (·.1) = (List.range d.length).map (a + ·) := by
  have zip : ((List.range d.length).zip d).map (·.1) = List.range d.length := List.map_fst_zip (by simp)
  calc (cells a d).map (·.1) = (((List.range d.length).zip d).map (·.1)).map (a + ·) := by
        rw [cells, List.map_map, List.map_map]; rfl
    _ = (List.range d.length).map (a + ·) := by rw [zip]

theorem mem_cells {a k : Nat} {d : List Byte} (h : k < d.length) : (a + k, d.getD k 0) ∈ cells a d := by
  rw [List.getD_eq_getElem _ _ h]
  refine List.mem_map.2 ⟨(k, d[k]), List.mem_iff_getElem.2 ⟨k, by simpa using h, by simp⟩, rfl⟩

/-- Bytes written at local addresses stand there, and no other place changes. -/
theorem State.memByte_storeBytes_cells (s : State) (p : Nat) {a : Nat} {d : List Byte} (hl : a + d.length ≤ localTop) :
    (∀ k, k < d.length → (s.storeBytes p (cells a d)).memByte (a + k) = d.getD k 0) ∧
    ∀ b, s.norm b < a ∨ a + d.length ≤ s.norm b → (s.storeBytes p (cells a d)).memByte b = s.memByte b := by
  have norm (x : Nat × Byte) (hx : x ∈ cells a d) : s.norm x.1 = x.1 ∧ a ≤ x.1 ∧ x.1 < a + d.length := by
    have place : x.1 ∈ (List.range d.length).map (a + ·) := map_fst_cells a d ▸ List.mem_map_of_mem hx
    obtain ⟨k, hk, e⟩ := List.mem_map.1 place
    have := List.mem_range.1 hk
    exact ⟨s.norm_of_local (by omega), by omega, by omega⟩
  constructor
  · intro k hk
    refine s.memByte_storeBytes_mem p ?_ (mem_cells hk)
    rw [List.map_congr_left fun x hx => (norm x hx).1, map_fst_cells]
    exact List.nodup_range.map fun x y h => Nat.add_left_cancel h
  · intro b hb
    refine s.memByte_storeBytes_ne p _ fun x hx h => ?_
    obtain ⟨e, lo, hi⟩ := norm x hx
    rw [h, e] at hb
    omega

/-! ## Accesses without completion -/

/-- The first byte at another device faults the instruction, where it is no store and no checked contribution. -/
theorem State.remoteTimeout_pending {s : State} {t : Team} {q : Pending} {a : Acc} {k pa : Nat} (he : s.evPend = some (t, q))
    (hp : q.performed = false) (hc : t.closedBefore q.num = true) (hf : q.firstOn s.isPeer = some (a, k, pa))
    (hst : ∀ l b o, q.kind ≠ .store l b o) (hr : ∀ l, q.kind ≠ .rdo l true) :
    s.remoteTimeout = (s.performFault t q ⟨0x18, (a.va + BitVec.ofNat 64 k).toNat, a.lane⟩).clearFilters := by
  obtain ⟨ht, hq⟩ := State.evPend_eq_some he
  have first : (t.pend.find? fun p => p.seq == s.ev.seq && !p.performed) = some q := Team.find_unperformed hq hp
  have va : (BitVec.ofNat 64 (a.va.toNat + k)).toNat = (a.va + BitVec.ofNat 64 k).toNat := by simp
  have fails : s.transportFail t q a k pa =
      (s.performFault t q ⟨0x18, (a.va + BitVec.ofNat 64 k).toNat, a.lane⟩).clearFilters := by
    unfold State.transportFail
    dsimp only
    split
    · next hk => exact absurd hk (hst _ _ _)
    · rw [va]
  simp only [State.remoteTimeout, ht, first, hf, hc, if_true]
  exact fails

/-- The instruction that comes next loses the read of its issue. -/
theorem State.remoteTimeout_next {s : State} {t : Team} (ht : s.team? s.ev.team = some t) (hn : s.ev.seq = t.nseq)
    (hp : ∀ k ∈ t.pend, k.seq = s.ev.seq → k.performed = true) :
    s.remoteTimeout = s.modTeam t.id fun u => { u with lost := some u.icount } := by
  have none_left : (t.pend.find? fun p => p.seq == s.ev.seq && !p.performed) = none := by
    rw [List.find?_eq_none]
    intro k hk h
    obtain ⟨hs, hu⟩ := (Bool.and_eq_true _ _).mp h
    simp [hp k hk (by simpa using hs)] at hu
  simp only [State.remoteTimeout, ht, none_left]
  exact if_pos hn

end Sys2Proof.Machine

open Sys2Proof Sys2Proof.Machine in
/-- Settles O54: an equation for each message and timer, read at the fields that it is about. -/
theorem domainTraffic : Obligations.DomainTraffic := by
  intro s p c r t q a k pa d e seq x w
  refine ⟨?enters, ?waits, ?nobody, ?skip, ?ack, ?nak, ?backoff, ?replto, ?wake, ?confirm, ?raise, ?stagger, ?holdEnd, ?read,
    ?write, ?timeout, ?lost⟩
  case enters =>
    intro hl hs hp hf
    exact (exec_recReceive hl).trans (congrArg Host.Outcome.next (State.recReceive_enters hs hp hf))
  case waits =>
    intro hl hs hp hf
    exact (exec_recReceive hl).trans (congrArg Host.Outcome.next (State.recReceive_waits hs hp hf))
  case nobody =>
    intro hl hs hp
    exact (exec_recReceive hl).trans (congrArg Host.Outcome.next (State.recReceive_nobody hs hp))
  case skip =>
    intro hl hs
    exact (exec_skipReceive hl).trans (congrArg Host.Outcome.next (State.skipReceive_next hs))
  case ack =>
    intro hl hk
    exact ⟨_, exec_ackReceive hl, State.recs_ackReceive hk, s.mem_ackReceive ..⟩
  case nak =>
    intro hl hf hr hw
    refine ⟨_, exec_nakReceive hl, ?_⟩
    rw [show s.ev.flag = false from hf, State.nakReceive_temporary hr hw, State.window_setWindow]
    exact ⟨rfl, rfl, rfl⟩
  case backoff =>
    intro n hr ht
    refine ⟨_, congrArg Host.Outcome.next (State.backoffExpire_due hr ht), ?_, ?_⟩
    · rw [State.window_setWindow]
    · exact s.sends_place _
  case replto =>
    intro hf hr ht
    refine ⟨_, congrArg Host.Outcome.next (if_pos hf), ?_⟩
    exact State.dropRecord_late hr ht
  case wake =>
    intro hl hp ha hn hb
    have fresh : e.bytes.take 64 ≠ [] := by simpa using hb
    exact (exec_vwakeReceive hl hp).trans (congrArg Host.Outcome.next (State.vwakeReceive_fresh ha hn fresh))
  case confirm =>
    intro hl hp hf
    refine ⟨_, exec_vflrMsgReceive hl hp, ?_⟩
    rw [show s.ev.flag = _ from hf]
    exact ⟨s.mem_vflrMsg_confirm .., s.told_vflrMsg_confirm ..⟩
  case raise =>
    intro hl hp hf ha
    refine ⟨_, exec_vflrMsgReceive hl hp, ?_⟩
    rw [show s.ev.flag = _ from hf]
    exact State.outbox_vflrMsg_raise ha hl
  case stagger =>
    intro hl hp ht
    exact ⟨_, exec_staggerReceive hl, State.stagger_staggerReceive hp ht⟩
  case holdEnd =>
    intro n hn ht
    refine ⟨_, congrArg Host.Outcome.next (State.staggerEnd_over hn ht), ?_, rfl⟩
    exact congrArg Partition.stagger (State.part_modPart_same s s.ev.part fun x => { x with stagger := none })
  case read =>
    intro n hl ho ht s' hp
    exact (exec_remoteAccessArrive hl).trans (congrArg Host.Outcome.next (State.remoteAccess_read ho ht hp))
  case write =>
    intro hl ho ht hw
    refine ⟨_, (exec_remoteAccessArrive hl).trans (congrArg Host.Outcome.next (State.remoteAccess_write ho ht hw)), ?_⟩
    obtain ⟨there, elsewhere⟩ := State.memByte_storeBytes_cells
      (s.reachLines (s.ownerOf e.addr) (s.linesAt (bytesAt e.addr d.length))) (s.ownerOf e.addr) ht
    refine ⟨fun i hi => (State.memByte_say ..).trans (there i hi), fun hs b hb => ?_⟩
    have same := (State.Still.of_still hs).sameMemory_reachLines (s.ownerOf e.addr) (s.linesAt (bytesAt e.addr d.length))
    rw [State.memByte_say, elsewhere b (by rwa [State.norm_congr same.mregs]), same.memByte]
  case timeout =>
    intro he hp hc hf hst hr
    exact congrArg Host.Outcome.next (State.remoteTimeout_pending he hp hc hf hst hr)
  case lost =>
    intro ht hn hp
    exact congrArg Host.Outcome.next (State.remoteTimeout_next ht hn hp)
end

section
/-!
R164, R166-R171, R301. Async and bulk copies before no cut: whole, or one step.
-/
namespace Sys2Proof.Machine

/-! ## Work that lies before no cut stays so -/

@[simp] theorem State.countEvent_back (s : State) (p d e n : Nat) : (s.countEvent p d e n).back = s.back := by
  have counters : ∀ s : State, ((List.range 8).foldl (fun s k =>
      let sel := s.pr p (0x500 + k)
      if bitsOf sel 15 0 = e ∧ !sel.getLsbD 63 then s.bump p (0x508 + k) n else s) s).back = s.back :=
    foldl_keeps State.back (fun s k => by dsimp only; split <;> rfl) _
  unfold State.countEvent
  split
  · rfl
  · dsimp only
    split <;> exact counters s

@[simp] theorem State.lookupDie_back (s : State) (d p va : Nat) : (s.lookupDie d p va).1.back = s.back := by
  unfold State.lookupDie
  split
  · rfl
  · unfold State.walkDie
    dsimp only
    split <;> exact s.countEvent_back p d 0x009 1

@[simp] theorem State.xlateDie_back (s : State) (d p : Nat) (l : List (Nat × Nat)) : (s.xlateDie d p l).1.back = s.back := by
  induction l generalizing s with
  | nil => rfl
  | cons x l ih =>
    have first := s.lookupDie_back d p x.1
    simp only [State.xlateDie]
    split
    · next h => rwa [h] at first
    · next s1 _ h =>
      rw [h] at first
      have rest := ih s1
      split <;> next h' => rw [h'] at rest; exact rest.trans first

@[simp] theorem State.engineSide_back (s : State) (t : Team) (l : Nat) (k : AccKind) (rs : List (Nat × Nat)) :
    (s.engineSide t l k rs).1.back = s.back := by
  have check (ps : List (Nat × Nat)) : (s.engineCheck t l k ps).1.back = s.back := by
    have found := s.xlateDie_back (dieOfCore t.core) t.part ps
    unfold State.engineCheck
    split
    · next h => rwa [h] at found
    · next h =>
      rw [h] at found
      split
      · exact found
      · split <;> exact found
  have checked := check (rs.flatMap fun (va, n) => rangePieces va n)
  unfold State.engineSide
  split <;> next h => rwa [h] at checked

@[simp] theorem State.rowOf_back (s : State) (t : Team) (c : Copy) : (s.rowOf t c).1.back = s.back := by
  have side (s : State) (b : Bool) (x : Side) (k : AccKind) (rs : List (Nat × Nat)) :
      (if b then (s, Except.ok x) else s.engineSide t c.level k rs).1.back = s.back := by
    split
    · rfl
    · exact s.engineSide_back ..
  have start : (s.rowStart t c.level c.words c.row).1.back = s.back := by
    have source := side s (BlockWords.ssc c.words) (.scr (BlockWords.src c.words c.row)) .engRead
      [(BlockWords.src c.words c.row, BlockWords.rowLen c.words)]
    unfold State.rowStart
    split
    · next h => rwa [h] at source
    · next s1 _ h =>
      rw [h] at source
      have dest := side s1 (BlockWords.dsc c.words) (.scr (BlockWords.dst c.words c.row)) .engWrite
        [(BlockWords.dst c.words c.row, BlockWords.rowLen c.words)]
      split <;> next h' => rw [h'] at dest; exact dest.trans source
  unfold State.rowOf
  split
  · rfl
  · exact start

@[simp] theorem State.homeStores_back (s : State) (p : Nat) (l : List (Nat × Byte)) : (s.homeStores p l).back = s.back := by
  have one (s : State) (a : Nat) (b : Byte) : (s.homeStore p a b).back = s.back := by
    have drop (s : State) (a : Nat) : (s.dropHere a).back = s.back := by unfold State.dropHere; split <;> rfl
    have safe (s : State) (a : Nat) (b : Byte) : (s.noteSafe p a b).back = s.back := by
      unfold State.noteSafe; dsimp only; split <;> rfl
    have undo (s : State) (a : Nat) (b : Byte) : (s.noteUndo p a b).back = s.back := by
      unfold State.noteUndo; dsimp only; split <;> rfl
    unfold State.homeStore
    dsimp only
    split
    · rfl
    · exact (drop _ _).trans ((safe _ _ _).trans (undo _ _ _))
  induction l generalizing s with
  | nil => rfl
  | cons x l ih => exact (ih _).trans (one s x.1 x.2)

@[simp] theorem State.modWork_back (s : State) (p : Nat) (k : TeamId) (f : Team → Team) : (s.modWork p k f).back = s.back := by
  unfold State.modWork
  split
  · exact s.modTeam_back k f
  · exact s.modTeam_back k _

@[simp] theorem State.engineWrite_back (s : State) (t : Team) (l : List (Nat × Byte)) (bad : List Nat) :
    (s.engineWrite t l bad).back = s.back := by
  have poison (s : State) (l : List Nat) : (s.poisonGranules l).back = s.back := by
    induction l generalizing s with
    | nil => rfl
    | cons g l ih => exact ih _
  have peers (s : State) (d : Nat) (l : List Nat) : (s.dropPeerLines d l).back = s.back := by
    unfold State.dropPeerLines; dsimp only; split <;> rfl
  exact (poison _ _).trans ((peers _ _ _).trans (State.homeStores_back _ _ _))

@[simp] theorem State.landFlight_back (s : State) (t : Team) (f : Flight) (is : List Nat) :
    (s.landFlight t f is).1.back = s.back := by
  unfold State.landFlight
  dsimp only
  split
  · exact s.modWork_back ..
  · exact s.engineWrite_back ..

@[simp] theorem State.addOwed_back (s : State) (c : Copy) : (s.addOwed c).1.back = s.back := by
  unfold State.addOwed
  split
  · show (s.arriveAdd _ _ _).back = s.back
    unfold State.arriveAdd
    split
    · rfl
    · split
      · rfl
      · exact s.modWork_back ..
  · rfl

theorem State.runRows_back (s : State) (c : Copy) (n : Nat) : (s.runRows c n).1.back = s.back := by
  induction n generalizing s c with
  | zero => rfl
  | succ n ih =>
    simp only [State.runRows]
    split
    · rfl
    · split
      · rfl
      · next t _ =>
        have row := s.rowOf_back t c
        split
        · next h => rwa [h] at row
        · next h =>
          rw [h] at row
          split
          · exact row
          · rw [ih, State.addOwed_back]
            exact (State.landFlight_back ..).trans row

/-! ## Work of the head of the cuts -/

/-- Work that lies before no cut acts on the state as it is. -/
theorem State.asOld_zero {s q : State} {f : State → State} (hs : s.back = 0) (hf : f s = q) (hq : q.back = 0) :
    s.asOld 0 f = q := by
  rw [State.asOld, State.with_back_zero hs, hf, State.with_back_zero hq]

/-! ## Async copies -/

/-- What an `acp` whose turn has come does: all its bytes, or the one that the schedule names. -/
def State.acpWork (s : State) (t : Team) (p : Pending) (tag : Nat) (accs : List Acc) (left : List (Nat × Option Nat))
    (was : List Nat) (ws : List (TeamId × Nat)) : State :=
  if s.writeHeld t.part [] then s
  else if s.ev.flag then
    match left[s.ev.idx]? with
    | some x => if (left.take s.ev.idx).any (·.1 == x.1) then s
      else s.modWork t.part t.id fun u => (s.acpPut t.part was [x] u).modPend p.seq fun q => { q with
        kind := .acp tag accs (left.eraseIdx s.ev.idx) (was ++ s.acpBad [x]) ws }
    | none => s
  else s.modWork t.part t.id fun u => ((s.acpPut t.part was left u).subTag tag).perform p.seq []

section
variable {s : State} {t : Team} {p : Pending} {tag : Nat} {accs : List Acc} {left : List (Nat × Option Nat)} {was : List Nat}
  {ws : List (TeamId × Nat)}

theorem State.acpPerform_ready (he : s.evPend = some (t, p)) (hk : p.kind = .acp tag accs left was ws) (hp : p.performed = false)
    (hc : t.closedBefore p.num = true) (ht : t.tagBefore p.num tag = false) (ho : s.hostOpen (accs.flatMap (·.pas)) = true)
    (hu : s.unobserved ws (accs.flatMap (·.pas)) = false) :
    s.acpPerform = s.asOld (s.oldPend t.part t.id p.seq) fun s => s.acpWork t p tag accs left was ws := by
  simp only [State.acpPerform, he, hk, hp, hc, ht, ho, hu, Bool.not_true, Bool.or_self, Bool.false_eq_true, if_false]
  rfl

variable (hb : s.back = 0) (hw : s.writeHeld t.part [] = false)
include hb hw

theorem State.acpWork_whole (hf : s.ev.flag = false) :
    s.acpWork t p tag accs left was ws =
      s.modTeam t.id fun u => ((s.acpPut t.part was left u).subTag tag).perform p.seq [] := by
  simp only [State.acpWork, hw, hf, Bool.false_eq_true, if_false, State.modWork, hb, if_true]

theorem State.acpWork_byte {x : Nat × Option Nat} (hf : s.ev.flag = true) (hx : left[s.ev.idx]? = some x)
    (hd : ∀ y ∈ left.take s.ev.idx, y.1 ≠ x.1) :
    s.acpWork t p tag accs left was ws =
      s.modTeam t.id fun u => (s.acpPut t.part was [x] u).modPend p.seq fun q => { q with
        kind := .acp tag accs (left.eraseIdx s.ev.idx) (was ++ s.acpBad [x]) ws } := by
  have first : ((left.take s.ev.idx).any fun y => y.1 == x.1) = false :=
    List.any_eq_false.2 fun y hy => by simpa using hd y hy
  simp only [State.acpWork, hw, hf, hx, first, Bool.false_eq_true, if_false, State.modWork, hb, if_true]
end

/-! ## Steps of a bulk copy -/

section
variable {s q : State} {t : Team} {c : Copy} {f : Flight} {d e : Nat}

/-- The head copy is the first of its engine, and has not ended. -/
theorem State.headCopy_eq_some (h : s.headCopy d e = some c) : ∃ r, (s.die d).copies e = c :: r ∧ c.ended = none := by
  unfold State.headCopy at h
  split at h
  · next x r hx =>
    split at h
    · next hn =>
      cases h
      exact ⟨r, hx, Option.isNone_iff_eq_none.1 hn⟩
    · cases h
  · cases h

theorem State.headCopy_setCopies (s : State) (d e : Nat) {c : Copy} (r : List Copy) (h : c.ended = none) :
    (s.setCopies d e (c :: r)).headCopy d e = some c := by
  have front : ((s.setCopies d e (c :: r)).die d).copies e = c :: r := by
    rw [State.setCopies, State.die_modDie_same]
    exact Table.get_set_same (s.die d).copyQ [] e (c :: r)
  simp [State.headCopy, front, h]

/-- A step of the head copy of before no cut. -/
theorem State.bcpStep_front {n : Nat} {c' : Copy} (hh : s.headCopy d e = some c) (ho : s.oldCopy c = 0) (hb : s.back = 0)
    (hr : s.rowStep c n = (q, c')) (hq : q.back = 0) :
    s.bcpStep d e n = q.setCopies d e (c' :: ((q.die d).copies e).tail) := by
  simp only [State.bcpStep, hh, ho]
  exact State.asOld_zero hb (by simp only [hr]) hq

variable (ht : s.team? c.team = some t)
include ht

theorem State.rowStep_owed : s.rowStep c 2 = s.addOwed c := by
  simp only [State.rowStep, ht, if_true]

variable (hr : s.rowOf t c = (q, .ok f)) (ho : q.flightOpen f c.waits = true)
include hr ho

theorem State.rowStep_read :
    s.rowStep c 0 = (q, { c with fly := some (q.fetchFlight t f [f.got.length]) }) := by
  simp only [State.rowStep, ht, hr, ho, Bool.not_true, Bool.false_eq_true, if_false, if_true, OfNat.zero_ne_ofNat]

theorem State.rowStep_write (hg : f.put.length < f.got.length) (hl : copyOverlaps c.words f = false ∨ f.len ≤ f.got.length)
    (hw : q.flightHeld c.p f = false) :
    s.rowStep c 1 = ((q.landFlight t f [f.put.length]).1, { c with
      fly := some (q.landFlight t f [f.put.length]).2
      owed := c.owed + 1 }) := by
  have ready : ¬ (f.got.length ≤ f.put.length ∨ (copyOverlaps c.words f = true ∧ f.got.length < f.len) ∨
      q.flightHeld c.p f = true) := by
    rintro (h | ⟨h, h'⟩ | h)
    · omega
    · rcases hl with hl | hl
      · simp [hl] at h
      · omega
    · simp [hw] at h
  simp only [State.rowStep, ht, hr, ho, if_neg ready, Bool.not_true, Bool.false_eq_true, if_false, OfNat.one_ne_ofNat, one_ne_zero]

omit hr ho ht in
theorem State.addOwed_copy (s : State) (c : Copy) : (s.addOwed c).2 = { c with owed := 0 } := by
  unfold State.addOwed
  split <;> rfl

/-- What a row that moves whole leaves of the state and of its copy. -/
def State.wholeRow (q : State) (t : Team) (c : Copy) (f : Flight) : State × Copy :=
  let x := q.endFlight t f
  let y := x.1.addOwed { c with owed := c.owed + (f.len - f.put.length) }
  let bs := (List.range f.len).map fun i => x.2.got.get (0, false) i
  (y.1, { y.2 with
    fly := none
    row := c.row + 1
    bytes := c.bytes + BlockWords.rowLen c.words
    poisoned := c.poisoned || bs.any (·.2)
    read := if BlockWords.rowLen c.words * BlockWords.rows c.words ≤ 2 ^ 20 then c.read ++ [bs.map (·.1)] else [] })

theorem State.runRows_one (hn : c.row < BlockWords.rows c.words) (hw : q.flightHeld c.p f = false) :
    s.runRows c 1 = ((q.wholeRow t c f).1, (q.wholeRow t c f).2, none) := by
  simp only [State.runRows, Nat.not_le.2 hn, ht, hr, ho, hw, Bool.not_true, Bool.or_self, Bool.false_eq_true, if_false,
    State.wholeRow, State.addOwed_copy]
  rfl

omit hr ho ht in
theorem State.wholeRow_back (q : State) (t : Team) (c : Copy) (f : Flight) : (q.wholeRow t c f).1.back = q.back :=
  (State.addOwed_back ..).trans (State.landFlight_back ..)

omit hr ho ht in
/-- The row counts, and the copy has not ended by it. -/
theorem State.wholeRow_copy (q : State) (t : Team) (c : Copy) (f : Flight) :
    (q.wholeRow t c f).2.row = c.row + 1 ∧ (q.wholeRow t c f).2.ended = c.ended := by
  simp only [State.wholeRow, State.addOwed_copy, and_self]

/-- A row of the head copy of before no cut; with the last the copy ends. -/
theorem State.bcpRun_one (hh : s.headCopy d e = some c) (hold : s.oldCopy c = 0) (hb : s.back = 0)
    (hn : c.row < BlockWords.rows c.words) (hw : q.flightHeld c.p f = false) :
    let z := (q.wholeRow t c f).2
    let x := (q.wholeRow t c f).1.setCopies d e (z :: (((q.wholeRow t c f).1.die d).copies e).tail)
    s.bcpRun d e 1 = if BlockWords.rows c.words ≤ c.row + 1 then
      (x.logCopy d e z (if z.poisoned then 1 else 0)).copyEnd d e z (if z.poisoned then 1 else 0) else x := by
  intro z x
  obtain ⟨-, -, live⟩ := State.headCopy_eq_some hh
  obtain ⟨row, ended⟩ := q.wholeRow_copy t c f
  have back : q.back = 0 := by
    have := s.rowOf_back t c
    rw [hr, hb] at this
    exact this
  have moved (g : State → State) (hg : g s = x) : s.asOld 0 g = x :=
    State.asOld_zero hb hg ((q.wholeRow_back t c f).trans back)
  have head : x.headCopy d e = some z := State.headCopy_setCopies _ d e _ (ended.trans live)
  simp only [State.bcpRun, hh, hold, one_ne_zero, if_false]
  rw [moved]
  · simp only [head, show z.row = c.row + 1 from row]
  · simp only [State.runRows_one ht hr ho hn hw]
    rfl
end

/-! ## A bulk copy that fails -/

section
variable {s s' : State} {c c' : Copy} {d e : Nat}

/-- The rows before a bad one stand, and the copy ends there. -/
theorem State.bcpFail_front {b : Bad} (hh : s.headCopy d e = some c) (ho : s.oldCopy c = 0) (hb : s.back = 0)
    (hr : s.runRows c (BlockWords.rows c.words) = (s', c', some b)) :
    s.bcpFail d e = s'.copyFails d e c' b.code b.addr := by
  have back : s'.back = 0 := by
    have := s.runRows_back c (BlockWords.rows c.words)
    rw [hr, hb] at this
    exact this
  simp only [State.bcpFail, hh, ho, State.with_back_zero hb, hr, State.with_back_zero back]

theorem State.rowLost_at {f : Flight} {va : Nat} {lost : Nat → Bool} (hh : s.headCopy d e = some c) (hf : c.fly = some f)
    (hv : f.firstOn lost = some va) : s.rowLost d e lost = s.copyFails d e c 0x18 va := by
  simp only [State.rowLost, hh, hf, Option.bind_some, hv]
end

end Sys2Proof.Machine

open Sys2Proof Sys2Proof.Machine in
/-- Settles O44: each event of a copy before no cut acts on the state as it is; an equation for each step. -/
theorem copiesArePerformed : Obligations.CopiesArePerformed := by
  intro s t p c d e bad put back here atRow wholeRow failed
  have row (q : State) (f : Flight) (h : atRow q f) : q.back = 0 := by
    obtain ⟨⟨-, -, -, -, hb⟩, -, -, hr, -⟩ := h
    have := s.rowOf_back t c
    rw [hr, hb] at this
    exact this
  refine ⟨?acp, ?read, ?write, ?owed, ?next, ?last, ?fails, ?lost⟩
  case acp =>
    intro tag accs left was ws he hk hp hc ht ho hu hold hb hw
    have ready := State.acpPerform_ready he hk hp hc ht ho hu
    rw [hold] at ready
    constructor
    · intro hf
      exact congrArg Host.Outcome.next
        (ready.trans (State.asOld_zero hb (State.acpWork_whole hb hw hf) (by rw [State.modTeam_back, hb])))
    · intro x hf hx hd
      exact congrArg Host.Outcome.next
        (ready.trans (State.asOld_zero hb (State.acpWork_byte hb hw hf hx hd) (by rw [State.modTeam_back, hb])))
  case read =>
    intro q f h hf hi
    have qb := row q f h
    obtain ⟨⟨hd, he, hh, ho, hb⟩, ht, hn, hr, hopen⟩ := h
    refine congrArg Host.Outcome.next ((if_pos hf).trans ?_)
    rw [hd, he, hi]
    exact State.bcpStep_front hh ho hb (State.rowStep_read ht hr hopen) qb
  case write =>
    intro q f h hw hf hi hg hl
    have qb := row q f h
    obtain ⟨⟨hd, he, hh, ho, hb⟩, ht, hn, hr, hopen⟩ := h
    refine congrArg Host.Outcome.next ((if_pos hf).trans ?_)
    rw [hd, he, hi]
    exact State.bcpStep_front hh ho hb (State.rowStep_write ht hr hopen hg hl hw) ((State.landFlight_back ..).trans qb)
  case owed =>
    intro q f h hf hi
    obtain ⟨⟨hd, he, hh, ho, hb⟩, ht, hn, hr, hopen⟩ := h
    refine congrArg Host.Outcome.next ((if_pos hf).trans ?_)
    rw [hd, he, hi]
    exact State.bcpStep_front hh ho hb (State.rowStep_owed ht) ((State.addOwed_back ..).trans hb)
  case next =>
    intro q f h hw hf hi hlt
    obtain ⟨⟨hd, he, hh, ho, hb⟩, ht, hn, hr, hopen⟩ := h
    refine congrArg Host.Outcome.next ((if_neg (Bool.eq_false_iff.1 hf)).trans ?_)
    rw [hd, he, hi]
    exact (State.bcpRun_one ht hr hopen hh ho hb hn hw).trans (if_neg (Nat.not_le.2 hlt))
  case last =>
    intro q f h hw hf hi heq z st
    obtain ⟨⟨hd, he, hh, ho, hb⟩, ht, hn, hr, hopen⟩ := h
    refine congrArg Host.Outcome.next ((if_neg (Bool.eq_false_iff.1 hf)).trans ?_)
    rw [hd, he, hi]
    exact (State.bcpRun_one ht hr hopen hh ho hb hn hw).trans (if_pos (Nat.le_of_eq heq.symm))
  case fails =>
    intro ⟨hd, he, hh, ho, hb⟩ hf s' c' b hr
    refine congrArg Host.Outcome.next ((if_neg (Bool.eq_false_iff.1 hf)).trans ?_)
    rw [hd, he]
    exact State.bcpFail_front hh ho hb hr
  case lost =>
    intro ⟨hd, he, hh, ho, hb⟩ hf f va hfl hv
    refine congrArg Host.Outcome.next ((if_pos hf).trans ?_)
    rw [hd, he]
    exact State.rowLost_at hh hfl hv
end

section
/-!
R326, R331. The clause on FLOOR_APPLY fails: a `vflr` on its way may name a region that has been destroyed.
-/
namespace Sys2Proof.Machine

/-- A `vflr` with floor 1 to region 0, of which no access is left to check. -/
def strayVflr : Pending where
  seq := 0
  num := 0
  serial := 0
  ctr := some 1
  la := 0
  kind := .vflr ⟨noLaneN, 0, [], []⟩ 0 1
  open_ := false
  performed := false
  dsts := []
  dropped := []
  land := []
  snap := Regs.empty
  banked := false

def strayTeam : Team := { Team.fresh 0 0 0 0 0 0 0 0 with pend := [strayVflr] }

/-- The host tables of partition 0 give its first 8 GiB to device 1: the level-1 table at 0x40000 names the level-2 table at
0x80000, whose first entry is a leaf at the start of that device's memory. -/
def strayTables : List Host.Cell := [(0x40000, 0x01#8), (0x40002, 0x08#8), (0x80000, 0x03#8), (0x80005, 0x01#8), (0x80006, 0x04#8)]

/-- Two devices; partition 0 has no live region, and its team's `vflr` is on its way to slice 1001, the place that stands for
device 1 (log 19). -/
def strayFloor : State :=
  let s : State := { State.reset with
    mem := strayTables
    ev := { slice := 1001, val := 1 } }
  ((s.setMr 0x32 0x20000#64).setPr 0 0x200B 0x40001#64).setTeam strayTeam

/-- Virtual address 0, at which the empty region begins, lies on device 1, -/
theorem strayFloor_home : 1001 ∈ strayFloor.regionHomes 0 (strayFloor.region 0 0) := by decide +kernel
/-- the `vflr` asks for its floor, and no write is held, -/
theorem strayFloor_asked : strayFloor.floorAsked 0 0 1 = true := by decide +kernel
theorem strayFloor_open : strayFloor.writeHeld 0 [] = false := by decide +kernel
/-- but no region takes it. -/
theorem strayFloor_stays : (strayFloor.floorApply.region 0 0).floorAt 1001 = 0 := by decide +kernel

end Sys2Proof.Machine

open Sys2Proof Sys2Proof.Machine in
/-- Refutes O43, by its clause on FLOOR_APPLY alone: it does not ask that the region is live. Where none is, as after its
destruction (R326, log 139), and the partition's address 0 lies on another device, the slice that stands for that device is
among the homes of the empty region, and the floor of a `vflr` still on its way is taken by no region. -/
theorem not_versionsArePerformed : ¬ Obligations.VersionsArePerformed := by
  unfold Obligations.VersionsArePerformed
  intro h
  obtain ⟨-, -, -, -, -, -, -, -, floor⟩ :=
    h strayFloor strayTeam strayVflr ⟨.v 0, 4, false⟩ [] none rfl rfl rfl
  obtain ⟨u, hu, -, taken⟩ := floor 1 rfl strayFloor_asked strayFloor_open strayFloor_home
  cases hu
  exact absurd (strayFloor_stays ▸ taken) (by decide)
end

section
/-!
R144, R332, R354. The clause on a part of a load fails: a line that moves may release a load of a team that the table lists under
another's number.
-/
namespace Sys2Proof.Machine

/-- A load of byte 0 that has read nothing yet. -/
def partLoad : Pending where
  seq := 0
  num := 0
  serial := 0
  ctr := some 0
  la := 0
  kind := .load ⟨.v 0, 4, false⟩ [⟨0, 0, [0], [0]⟩] none []
  open_ := false
  performed := false
  dsts := []
  dropped := []
  land := []
  snap := Regs.empty
  banked := false

def partTeam : Team := { Team.fresh 1 0 0 0 0 0 0 0 with pend := [partLoad] }

/-- A place for version 0 of granule 0, of a load of the team listed under number 2. -/
def partPlace : WaitPlace := ⟨none, 2, 5, 0, 0, 0, 0, 0, 0⟩

/-- A window in which line 0 is still at slice 95, with the place; every slice holds floor 1, so that the place is released when
the line moves (R330). The team listed under number 2 has the number of the load's team, 1. -/
def partMoves : State :=
  let s : State := { State.reset with
    wins := [(0, ⟨0, 0, [], [(0, 95)]⟩)]
    teams := [(1, partTeam), (2, Team.fresh 1 0 0 0 0 0 0 0)]
    ev := { team := 1, idx := 1 } }
  (s.setSlice 95 { Slice.reset with waits := [partPlace] }).modPart 0 fun x => { x with
    regions := [(0, { VRegion.empty with sfloor := (List.range 96).map fun l => (l, 1#32) })] }

/-- The team of number 1 is then the one that had been listed under 2, which has no such load. -/
theorem partMoves_replaces : (((partMoves.loadReturn partMoves.ev.src).team? partTeam.id).bind (·.pendOf partLoad.seq)).isNone = true := by decide +kernel

theorem loadDataReturn_next {s u : State} (h : exec .loadDataReturn s = .next u) : u = s.loadReturn s.ev.src := by
  cases h
  rfl

theorem partMoves_readsBefore : partTeam.readsBefore partMoves 0 [partMoves.norm 0] = false := by decide +kernel
theorem partMoves_open : partMoves.hostOpen [0] = true := by decide +kernel
theorem partMoves_space : partMoves.space 0 ≠ .regs := by decide +kernel
theorem partMoves_poison : partMoves.loadPoison partTeam 0 = false := by decide +kernel

end Sys2Proof.Machine

open Sys2Proof Sys2Proof.Machine in
/-- Refutes O39, by its clause on a part of a load alone: it speaks of states whose table lists a team under a number that is
not its own. A line that moves on the load's way (R354) releases a version load of the team listed there (R330, R332); the
change is written under the team's own number, and so over the team whose load is read. -/
theorem not_loadsReturn : ¬ Obligations.LoadsReturn := by
  unfold Obligations.LoadsReturn
  intro h
  obtain ⟨load, -⟩ := h partMoves partTeam partLoad ⟨.v 0, 4, false⟩ rfl rfl rfl
  obtain ⟨-, part⟩ := load _ none [] rfl partMoves_readsBefore partMoves_open
    (List.forall_mem_singleton.2 partMoves_space)
  obtain ⟨u, v, w, got, hu, hv, hw, -⟩ := part rfl rfl (List.forall_mem_singleton.2 partMoves_poison)
  have replaced := partMoves_replaces
  rw [← loadDataReturn_next hu, hv, Option.bind_some, hw] at replaced
  exact Bool.false_ne_true replaced
end

section
/-!
R141, R146, R148, R153, R176, R285, R286. An entry of a write buffer at its homes, bytes of scratch, and the lines of `cctl`.
-/
namespace Sys2Proof.Machine

theorem Die.far_keepFar (x : Die) (f : LineCopy → Bool) : (x.keepFar f).far = x.far.filter f := rfl

/-- No far copy of a line but those of versions. -/
def Die.farFree (line : Nat) (x : Die) : Bool := x.far.all fun c => c.ver.isSome || c.line != line

theorem Die.farFree_keepFar {x : Die} {line : Nat} (f : LineCopy → Bool) (h : x.farFree line = true) :
    (x.keepFar f).farFree line = true :=
  List.all_eq_true.2 fun c hc => List.all_eq_true.1 h c (List.mem_filter.1 hc).1

theorem Die.farFree_keepFar_same (x : Die) (line : Nat) :
    (x.keepFar fun c => c.ver.isSome || c.line != line).farFree line = true :=
  List.all_eq_true.2 fun _ hc => (List.mem_filter.1 hc).2

/-! ## Bytes of the device -/

section
variable (s : State) (p : Nat)

theorem State.noteUndo_die (a : Nat) (b : Byte) (d : Nat) : (s.noteUndo p a b).die d = s.die d := by
  unfold State.noteUndo; dsimp only; split <;> rfl
theorem State.noteSafe_die (a : Nat) (b : Byte) (d : Nat) : (s.noteSafe p a b).die d = s.die d := by
  unfold State.noteSafe; dsimp only; split <;> rfl

/-- Of the dies, a written byte takes far copies only. -/
theorem State.die_storeByte (a : Nat) (b : Byte) (d : Nat) :
    ∃ f : LineCopy → Bool, (s.storeByte p a b).die d = (s.die d).keepFar f := by
  obtain ⟨f, h⟩ := State.die_dropHere ((((s.noteUndo p a b).noteSafe p a b).putByte a b).unpoison a) a d
  have stands : ((((s.noteUndo p a b).noteSafe p a b).putByte a b).unpoison a).die d = s.die d :=
    (State.noteSafe_die _ p a b d).trans (s.noteUndo_die p a b d)
  exact ⟨f, h.trans (by rw [stands])⟩

/-- A byte written at its home on this device leaves no far copy of its line but of a version. -/
theorem State.farFree_storeByte {a : Nat} (b : Byte) (d : Nat) (h : s.space a = .here) (hn : s.norm a = a) :
    ((s.storeByte p a b).die d).farFree (lineOf a) = true := by
  let q := (((s.noteUndo p a b).noteSafe p a b).putByte a b).unpoison a
  have regs : q.mregs = s.mregs := by simp [q]
  have drop : s.storeByte p a b = q.dropFar (lineOf a) := by
    change q.dropHere a = _
    simp only [State.dropHere, State.space_congr regs, State.norm_congr regs, h, hn]
  rw [drop, State.die_dropFar]
  exact Die.farFree_keepFar_same _ _

theorem State.die_storeBytes (l : List (Nat × Byte)) (d : Nat) :
    ∃ f : LineCopy → Bool, (s.storeBytes p l).die d = (s.die d).keepFar f := by
  induction l generalizing s with
  | nil => exact ⟨fun _ => true, by rw [Die.keepFar, List.filter_true]; rfl⟩
  | cons x l ih =>
    obtain ⟨f, hf⟩ := ih (s.storeByte p x.1 x.2)
    obtain ⟨g, hg⟩ := s.die_storeByte p x.1 x.2 d
    exact ⟨fun c => f c && g c, by rw [State.storeBytes, hf, hg]; simp only [Die.keepFar, List.filter_filter]⟩

theorem State.farFree_storeBytes {l : List (Nat × Byte)} (d : Nat) (h : ∀ x ∈ l, s.space x.1 = .here ∧ s.norm x.1 = x.1)
    {x : Nat × Byte} (hx : x ∈ l) : ((s.storeBytes p l).die d).farFree (lineOf x.1) = true := by
  induction l generalizing s with
  | nil => cases hx
  | cons y l ih =>
    have regs := State.storeByte_mregs s p y.1 y.2
    rw [State.storeBytes]
    rcases List.mem_cons.1 hx with rfl | hx
    · obtain ⟨f, hf⟩ := (s.storeByte p x.1 x.2).die_storeBytes p l d
      obtain ⟨hs, hn⟩ := h x List.mem_cons_self
      rw [hf]
      exact Die.farFree_keepFar f (s.farFree_storeByte p x.2 d hs hn)
    · exact ih (s.storeByte p y.1 y.2) (fun z hz => by
        rw [State.space_congr regs, State.norm_congr regs]
        exact h z (List.mem_cons_of_mem _ hz)) hx

/-- Stores at homes of this device are not held for a commit. -/
theorem State.homeStores_here {l : List (Nat × Byte)} (h : ∀ x ∈ l, s.space x.1 = .here ∧ s.norm x.1 = x.1) :
    s.homeStores p l = s.storeBytes p l := by
  induction l generalizing s with
  | nil => rfl
  | cons x l ih =>
    obtain ⟨hs, hn⟩ := h x List.mem_cons_self
    have regs := State.storeByte_mregs s p x.1 x.2
    have first : s.homeStore p x.1 x.2 = s.storeByte p x.1 x.2 := by
      simp [State.homeStore, State.outside, hn, hs]
    rw [State.homeStores, first, State.storeBytes]
    exact ih _ fun z hz => by
      rw [State.space_congr regs, State.norm_congr regs]
      exact h z (List.mem_cons_of_mem _ hz)
end

/-! ## What the device holds after a store -/

/-- In `u` the bytes of a store of `s` stand; where no line moves nothing else has changed; no far copy of their lines but of a
version is left. -/
structure State.Written (s : State) (l : List (Nat × Byte)) (u : State) : Prop where
  here : ∀ x ∈ l, u.memByte x.1 = x.2
  others : s.still = true → ∀ a, s.norm a ∉ l.map (·.1) → u.memByte a = s.memByte a
  far : ∀ x ∈ l, ∀ d, (u.die d).farFree (lineOf x.1) = true

theorem State.Written.congr {s u v : State} {l : List (Nat × Byte)} (h : s.Written l u) (hm : v.mem = u.mem)
    (hr : v.mregs = u.mregs) (hd : v.dies = u.dies) : s.Written l v :=
  have byte := State.memByte_congr hm hr
  have die (d : Nat) : v.die d = u.die d := by rw [State.die, hd]; rfl
  ⟨fun x hx => (byte x.1).trans (h.here x hx), fun hs a ha => (byte a).trans (h.others hs a ha),
    fun x hx d => die d ▸ h.far x hx d⟩

/-- What a store has written it has written of every state with these bytes. -/
theorem State.Written.of_start {s q u : State} {l : List (Nat × Byte)} (h : q.Written l u) (hm : q.mem = s.mem)
    (hr : q.mregs = s.mregs) (hs : q.still = s.still) : s.Written l u :=
  ⟨h.here, fun hs' a ha => (h.others (hs.trans hs') a (State.norm_congr hr a ▸ ha)).trans (State.memByte_congr hm hr a), h.far⟩

section
variable {s : State} {l : List (Nat × Byte)} (h : ∀ x ∈ l, s.space x.1 = .here ∧ s.norm x.1 = x.1)
include h

theorem State.hostOpen_here : s.hostOpen (l.map (·.1)) = true := by
  have none_host : (l.map (·.1)).any s.isHost = false := by
    simp only [List.any_eq_false, List.mem_map, forall_exists_index, and_imp]
    rintro a x hx rfl
    simp [State.isHost, (h x hx).1]
  have none_peer : (l.map (·.1)).any s.isPeer = false := by
    simp only [List.any_eq_false, List.mem_map, forall_exists_index, and_imp]
    rintro a x hx rfl
    simp [State.isPeer, (h x hx).1]
  simp [State.hostOpen, none_host, none_peer]

theorem State.performBytes_here (t : Team) :
    s.performBytes t l = (s.reachLines t.part (s.linesAt (l.map (·.1)))).storeBytes t.part l := by
  have no_regs : l.filter (fun x => s.space x.1 == .regs) = [] :=
    List.filter_eq_nil_iff.2 fun x hx => by simp [(h x hx).1]
  have all_mem : l.filter (fun x => s.space x.1 != .regs) = l :=
    List.filter_eq_self.2 fun x hx => by simp [(h x hx).1]
  let r := s.reachLines t.part (s.linesAt (l.map (·.1)))
  have regs : r.mregs = s.mregs := State.mregs_of_fixed (s.reachLines_fixed ..)
  have reached : ∀ x ∈ l, r.space x.1 = .here ∧ r.norm x.1 = x.1 := fun x hx => by
    rw [State.space_congr regs, State.norm_congr regs]
    exact h x hx
  have no_peers : (l.map (·.1)).filter (r.storeBytes t.part l).isPeer = [] := by
    refine List.filter_eq_nil_iff.2 fun a ha => ?_
    obtain ⟨x, hx, rfl⟩ := List.mem_map.1 ha
    rw [State.isPeer, State.space_congr (State.storeBytes_mregs r t.part l), (reached x hx).1]
    exact Bool.false_ne_true
  simp only [State.performBytes, no_regs, all_mem, List.isEmpty_nil, if_true]
  rw [State.homeStores_here r t.part reached]
  unfold State.dropPeerLines
  rw [no_peers]
  rfl

theorem State.written_performBytes (t : Team) (hn : (l.map (·.1)).Nodup) : s.Written l (s.performBytes t l) := by
  rw [State.performBytes_here h]
  let r := s.reachLines t.part (s.linesAt (l.map (·.1)))
  have regs : r.mregs = s.mregs := State.mregs_of_fixed (s.reachLines_fixed ..)
  have norm : ∀ a, r.norm a = s.norm a := State.norm_congr regs
  have norms : l.map (fun x => r.norm x.1) = l.map (·.1) :=
    List.map_congr_left fun x hx => (norm x.1).trans (h x hx).2
  refine ⟨fun x hx => State.memByte_storeBytes_mem r t.part (by rwa [norms]) hx, fun hs a ha => ?_, fun x hx d => ?_⟩
  · rw [State.memByte_storeBytes_ne]
    · exact ((State.Still.of_still hs).sameMemory_reachLines ..).memByte a
    · intro x hx e
      rw [norm, norm, (h x hx).2] at e
      exact ha (e ▸ List.mem_map_of_mem hx)
  · exact r.farFree_storeBytes t.part d (fun z hz => by
      rw [State.space_congr regs, State.norm_congr regs]
      exact h z hz) hx
end

theorem State.written_entryPerform {s : State} {e : WEntry} (t : Team)
    (h : ∀ x ∈ e.bytes, s.space x.1 = .here ∧ s.norm x.1 = x.1) (hn : (e.bytes.map (·.1)).Nodup) :
    s.Written e.bytes (s.entryPerform t e) := by
  have left : (s.dropEntry t.core e).Written e.bytes ((s.dropEntry t.core e).performBytes t e.bytes) :=
    State.written_performBytes (s := s.dropEntry t.core e) h t hn
  exact (left.of_start (s := s) rfl rfl rfl).congr rfl rfl rfl

/-- Work of a team leaves memory, the registers of the module and the dies. -/
theorem State.modWork_stands (s : State) (p : Nat) (k : TeamId) (f : Team → Team) :
    (s.modWork p k f).mem = s.mem ∧ (s.modWork p k f).mregs = s.mregs ∧ (s.modWork p k f).dies = s.dies ∧
      (s.modWork p k f).cores = s.cores := by
  unfold State.modWork
  split
  · simp
  · simp [State.modCutTeam]

/-- No write waits that lies before an open cut. -/
theorem State.writeHeld_back {s : State} {p : Nat} {pas : List Nat} (n : Nat)
    (h : State.writeHeld { s with back := 0 } p pas = false) : State.writeHeld { s with back := n } p pas = false := by
  cases n with
  | zero => exact h
  | succ n => rfl

/-! ## The event -/

/-- The state while work is done that lies before `n` cuts. -/
def State.withBack (s : State) (n : Nat) : State := { s with back := n }

theorem State.asOld_eq (s : State) (n : Nat) (f : State → State) : s.asOld n f = (f (s.withBack n)).withBack 0 := rfl

section
variable {s : State} {t : Team} {p : Pending}

theorem State.storePerform_pending (he : s.evPend = some (t, p)) (hp : p.performed = false)
    (hc : t.closedBefore p.num = true) :
    s.storePerform = s.asOld (s.oldPend t.part t.id p.seq) fun s =>
        match p.kind with
        | .store _ rel inBuf => s.stPerform t p rel inBuf
        | .sts left => s.stsPerform t p left
        | .cctl lines clean drop => s.cctlPerform t p lines clean drop
        | _ => s := by
  obtain ⟨ht, hq⟩ := State.evPend_eq_some he
  simp only [State.storePerform, ht, Team.find_unperformed hq hp, hc, Bool.not_true, Bool.false_eq_true, if_false]
    <;> rfl

/-- Where no pending instruction is named, an update of the buffer is. -/
theorem State.storePerform_update (ht : s.team? s.ev.team = some t)
    (hq : ∀ q ∈ t.pend, q.seq = s.ev.seq → q.performed = true) : s.storePerform = s.updatePerform t s.ev.seq := by
  have none_waits : (t.pend.find? fun q => q.seq == s.ev.seq && !q.performed) = none :=
    List.find?_eq_none.2 fun q hm => by simpa using hq q hm
  simp only [State.storePerform, ht, none_waits]

/-- A store whose entry nothing holds back leaves for its homes. -/
theorem State.stPerform_leaves {rel : Option Scope} {before : List WEntry} {e : WEntry}
    (hr : ∀ sc ∈ rel, s.releaseReady t p sc = true) (hf : s.ev.flag = false)
    (hb : entryAt (s.core t.core).wbuf t.id p.seq = some (before, e)) (free : e.free before = true)
    (ho : s.hostOpen (e.bytes.map (·.1)) = true) (hh : s.entryHeld t e = false) :
    s.stPerform t p rel true = (s.entryPerform t e).modWork t.part t.id fun u => u.perform p.seq [] := by
  cases rel with
  | none => simp only [State.stPerform, hb, free, ho, hh, hf, Bool.not_true, Bool.or_self, Bool.false_eq_true, if_false]
  | some sc =>
    simp only [State.stPerform, hr sc rfl, hb, free, ho, hh, hf, Bool.not_true, Bool.or_self, Bool.false_eq_true, if_false]

/-- The update of an atomic that nothing holds back leaves for its home. -/
theorem State.updatePerform_leaves {seq : Nat} {before : List WEntry} {e : WEntry}
    (hb : entryAt (s.core t.core).wbuf t.id seq = some (before, e)) (hc : e.counted = false) (free : e.free before = true)
    (ho : s.hostOpen (e.bytes.map (·.1)) = true)
    (hh : ∀ n, State.entryHeld { s with back := n } t e = false) :
    s.updatePerform t seq = s.asOld ((s.part t.part).epoch - e.epoch) fun s => s.entryPerform t e := by
  simp only [State.updatePerform, hb, hc, free, ho, Bool.not_true, Bool.or_self, Bool.false_eq_true, if_false, State.asOld, hh]

/-- An entry of the buffer that nothing holds back, performed before some cuts, with the work `f` of its team. -/
theorem State.written_asOld {e : WEntry} (h : ∀ x ∈ e.bytes, s.space x.1 = .here ∧ s.norm x.1 = x.1)
    (hn : (e.bytes.map (·.1)).Nodup) (n : Nat) {g : State → State} (hm : ∀ q, (g q).mem = q.mem)
    (hr : ∀ q, (g q).mregs = q.mregs) (hd : ∀ q, (g q).dies = q.dies) :
    s.Written e.bytes (s.asOld n fun q => g (q.entryPerform t e)) := by
  have w := State.written_entryPerform (s := { s with back := n }) t h hn
  exact (w.of_start (s := s) rfl rfl rfl).congr (hm _) (hr _) (hd _)
end

/-! ## Scratch -/

section
variable (t : Team)

theorem Team.scrByte_scrPut_same (k : Nat) (b : Byte) : (t.scrPut k b).scrByte k = b := Table.get_set_same _ _ _ _
theorem Team.scrByte_scrPut_ne {k j : Nat} (b : Byte) (h : j ≠ k) : (t.scrPut k b).scrByte j = t.scrByte j :=
  Table.get_set_ne _ _ _ h

/-- The bytes of a list in scratch. -/
def Team.scrCells (l : List (Nat × Byte)) : Team := l.foldl (fun (u : Team) (x : Nat × Byte) => u.scrPut x.1 x.2) t

@[simp] theorem Team.scrCells_cons (x : Nat × Byte) (l : List (Nat × Byte)) :
    t.scrCells (x :: l) = (t.scrPut x.1 x.2).scrCells l := rfl

@[simp] theorem Team.scrCells_pend (l : List (Nat × Byte)) : (t.scrCells l).pend = t.pend := by
  induction l generalizing t with
  | nil => rfl
  | cons x l ih => exact ih (t.scrPut x.1 x.2)
@[simp] theorem Team.scrCells_id (l : List (Nat × Byte)) : (t.scrCells l).id = t.id := by
  induction l generalizing t with
  | nil => rfl
  | cons x l ih => exact ih (t.scrPut x.1 x.2)
@[simp] theorem Team.scrCells_cnt (l : List (Nat × Byte)) (c : Nat) : (t.scrCells l).cnt c = t.cnt c := by
  induction l generalizing t with
  | nil => rfl
  | cons x l ih => exact ih (t.scrPut x.1 x.2)

theorem Team.scrByte_scrCells_ne {l : List (Nat × Byte)} {k : Nat} (h : k ∉ l.map (·.1)) :
    (t.scrCells l).scrByte k = t.scrByte k := by
  induction l generalizing t with
  | nil => rfl
  | cons x l ih =>
    obtain ⟨hx, hl⟩ := not_or.1 (mt List.mem_cons.2 (List.map_cons ▸ h))
    rw [Team.scrCells_cons, ih _ hl, Team.scrByte_scrPut_ne _ _ hx]

theorem Team.scrByte_scrCells_mem {l : List (Nat × Byte)} (hn : (l.map (·.1)).Nodup) {x : Nat × Byte} (hx : x ∈ l) :
    (t.scrCells l).scrByte x.1 = x.2 := by
  induction l generalizing t with
  | nil => cases hx
  | cons y l ih =>
    obtain ⟨fresh, hl⟩ := List.nodup_cons.1 (List.map_cons ▸ hn)
    rw [Team.scrCells_cons]
    rcases List.mem_cons.1 hx with rfl | hx
    · rw [Team.scrByte_scrCells_ne _ fresh, Team.scrByte_scrPut_same]
    · exact ih _ hl hx
end

/-- An entry changed but not in its number is found as before. -/
theorem find?_map_seq {ps : List Pending} {p : Pending} {f : Pending → Pending} (hf : ∀ q, (f q).seq = q.seq)
    (hp : ps.find? (·.seq == p.seq) = some p) :
    (ps.map fun q => if q.seq == p.seq then f q else q).find? (·.seq == p.seq) = some (f p) := by
  have same (q : Pending) : (if q.seq == p.seq then f q else q).seq = q.seq := by split <;> simp [hf]
  rw [List.find?_map, show ((·.seq == p.seq) ∘ fun q : Pending => if q.seq == p.seq then f q else q) = (·.seq == p.seq) from
    funext fun q => by simp only [Function.comp, same], hp]
  simp

/-- What performing an instruction of counter `c` leaves: its identity and scratch, and one count less. -/
theorem Team.perform_stands {t : Team} {p : Pending} {c : Nat} (hp : t.pendOf p.seq = some p) (hc : p.ctr = some c) :
    (t.perform p.seq []).id = t.id ∧ (t.perform p.seq []).scr = t.scr ∧ (t.perform p.seq []).cnt c = t.cnt c - 1 := by
  rw [Team.perform_of_ctr [] hp hc]
  exact ⟨rfl, rfl, t.cnt_subCnt_same c⟩

/-- A team that performs an instruction counts one less, before open cuts too. -/
theorem State.perform_modWork {s : State} {t : Team} {p : Pending} {c : Nat} (n : Nat) (ht : s.team? t.id = some t)
    (hp : t.pendOf p.seq = some p) (hc : p.ctr = some c) :
    ∃ v, (s.modWork n t.id fun u => u.perform p.seq []).team? t.id = some v ∧ v.cnt c = t.cnt c - 1 := by
  unfold State.modWork
  split
  · obtain ⟨id_, -, cnt_⟩ := Team.perform_stands hp hc
    exact ⟨_, State.team?_modTeam_same _ ht id_, cnt_⟩
  · obtain ⟨id_, -, cnt_⟩ := Team.perform_stands (t := { t with touched := [] }) hp hc
    exact ⟨_, State.team?_modTeam_same (oldTouch _ fun u => u.perform p.seq []) ht id_, cnt_⟩

section
variable {s : State} {t : Team} {p : Pending}

/-- Bytes of scratch, all at once. -/
theorem State.stsPerform_all {left : List (Nat × Byte)} (hs : t.scratchBefore p.num = false)
    (hh : s.writeHeld t.part [] = false) (hb : s.back = 0) (hf : s.ev.flag = false) :
    s.stsPerform t p left = s.modTeam t.id fun u => (u.scrCells left).perform p.seq [] := by
  simp only [State.stsPerform, hs, hh, hf, State.modWork, hb, Bool.or_self, Bool.false_eq_true, if_false, if_true]
  rfl

/-- A byte of `sts` in scratch, and the rest left. -/
def Team.stsByte (u : Team) (seq k : Nat) (left : List (Nat × Byte)) : Team :=
  (u.scrCells (left.filter (·.1 == k))).modPend seq fun q => { q with kind := .sts (left.filter (·.1 != k)) }

/-- One byte of scratch before the rest. -/
theorem State.stsPerform_one {left : List (Nat × Byte)} (hs : t.scratchBefore p.num = false)
    (hh : s.writeHeld t.part [] = false) (hb : s.back = 0) (hf : s.ev.flag = true) :
    s.stsPerform t p left = s.modTeam t.id fun u => u.stsByte p.seq s.ev.idx left := by
  simp only [State.stsPerform, hs, hh, hf, State.modWork, hb, Bool.or_self, Bool.false_eq_true, if_false, if_true]
  rfl

/-- `cctl` that no store to its lines holds back. -/
theorem State.cctlPerform_ready {lines : List Nat} {clean drop : Bool}
    (h : clean = false ∨ ∀ w ∈ (s.core t.core).wbuf, ∀ x ∈ w.bytes, lineOf x.1 ∉ lines) :
    s.cctlPerform t p lines clean drop =
      (if drop then s.dropLines t.core lines else s).modWork t.part t.id fun u => u.perform p.seq [] := by
  have goes : (clean && (s.core t.core).wbuf.any fun e => e.bytes.any fun (a, _) => lines.contains (lineOf a)) = false := by
    rcases h with rfl | h
    · rfl
    · rw [Bool.and_eq_false_iff]
      exact .inr (List.any_eq_false.2 fun w hw => by simpa [List.any_eq_false] using fun a b hx => h w hw (a, b) hx)
  unfold State.cctlPerform
  rw [goes]
  rfl
end

theorem State.core_dropLines (s : State) (c : Nat) (lines : List Nat) :
    (s.dropLines c lines).core c = { s.core c with near := (s.core c).near.filter fun k => !lines.contains k.line } :=
  State.core_setCore_same s c _

theorem State.dropLines_near (s : State) (c : Nat) (lines : List Nat) :
    ∀ k ∈ ((s.dropLines c lines).core c).near, k.line ∉ lines := by
  intro k hk
  rw [State.core_dropLines] at hk
  simpa using (List.mem_filter.1 hk).2

theorem State.dropLines_far (s : State) (c : Nat) (lines : List Nat) :
    ∀ k ∈ ((s.dropLines c lines).die (dieOfCore c)).far, k.line ∉ lines := by
  intro k hk
  rw [State.dropLines, State.modDie, State.die_setDie_same] at hk
  simpa using (List.mem_filter.1 hk).2

/-- Dropping lines, or none, leaves memory, the teams and every write buffer. -/
theorem State.dropLines_stands (s : State) (c : Nat) (lines : List Nat) (drop : Bool) :
    let q := if drop then s.dropLines c lines else s
    q.mem = s.mem ∧ q.teams = s.teams ∧ (q.core c).wbuf = (s.core c).wbuf := by
  cases drop with
  | false => exact ⟨rfl, rfl, rfl⟩
  | true => exact ⟨rfl, rfl, by rw [if_pos rfl, State.core_dropLines]⟩

/-! ## The event for scratch and for `cctl` -/

section
variable {s : State} {t : Team} {p : Pending} (he : s.evPend = some (t, p)) (hid : t.id = s.ev.team)
  (hp : p.performed = false) (hc : t.closedBefore p.num = true)
include he hid hp hc

theorem State.sts_all_performed {left : List (Nat × Byte)} (hk : p.kind = .sts left) (hctr : p.ctr = some 1)
    (hs : t.scratchBefore p.num = false) (hh : (s.withBack 0).writeHeld t.part [] = false)
    (hold : s.oldPend t.part t.id p.seq = 0) (hn : (left.map (·.1)).Nodup) (hf : s.ev.flag = false) :
    ∃ u v, s.storePerform = u ∧ u.mem = s.mem ∧ u.team? s.ev.team = some v ∧ (∀ x ∈ left, v.scrByte x.1 = x.2) ∧
      (∀ k, k ∉ left.map (·.1) → v.scrByte k = t.scrByte k) ∧ v.cnt 1 = t.cnt 1 - 1 := by
  obtain ⟨ht, hpend⟩ := State.evPend_eq_some he
  rw [← hid] at ht
  rw [← (Team.mem_of_pendOf hpend).2] at hpend
  have event := State.storePerform_pending he hp hc
  simp only [hk, hold, State.asOld_eq] at event
  rw [State.stsPerform_all (s := s.withBack 0) hs hh rfl hf] at event
  obtain ⟨same_id, same_scr, one_less⟩ :=
    Team.perform_stands (t := t.scrCells left) (by rwa [Team.pendOf, Team.scrCells_pend]) hctr
  refine ⟨_, (t.scrCells left).perform p.seq [], event, State.modTeam_mem .., ?_, fun x hx => ?_, fun k hk => ?_, ?_⟩
  · exact hid ▸ State.team?_modTeam_same (s := s.withBack 0) _ ht (same_id.trans (t.scrCells_id left))
  · rw [Team.scrByte, same_scr]
    exact t.scrByte_scrCells_mem hn hx
  · rw [Team.scrByte, same_scr]
    exact t.scrByte_scrCells_ne hk
  · rw [one_less, Team.scrCells_cnt]

theorem State.sts_one_performed {left : List (Nat × Byte)} (hk : p.kind = .sts left)
    (hs : t.scratchBefore p.num = false) (hh : (s.withBack 0).writeHeld t.part [] = false)
    (hold : s.oldPend t.part t.id p.seq = 0) (hn : (left.map (·.1)).Nodup) (hf : s.ev.flag = true) :
    ∃ u v, s.storePerform = u ∧ u.mem = s.mem ∧ u.team? s.ev.team = some v ∧
      (∀ x ∈ left, x.1 = s.ev.idx → v.scrByte x.1 = x.2) ∧ (∀ k, k ≠ s.ev.idx → v.scrByte k = t.scrByte k) ∧
      v.cnt 1 = t.cnt 1 ∧ ∃ w, v.pendOf p.seq = some w ∧ w.kind = .sts (left.filter (·.1 != s.ev.idx)) := by
  obtain ⟨ht, hpend⟩ := State.evPend_eq_some he
  rw [← hid] at ht
  rw [← (Team.mem_of_pendOf hpend).2] at hpend
  have event := State.storePerform_pending he hp hc
  simp only [hk, hold, State.asOld_eq] at event
  rw [State.stsPerform_one (s := s.withBack 0) hs hh rfl hf] at event
  have named {k : Nat} (h : k ∈ (left.filter (·.1 == s.ev.idx)).map (·.1)) : k = s.ev.idx := by
    obtain ⟨x, hx, rfl⟩ := List.mem_map.1 h
    simpa using (List.mem_filter.1 hx).2
  refine ⟨_, t.stsByte p.seq s.ev.idx left, event, State.modTeam_mem .., ?_, fun x hx hi => ?_, fun k hk => ?_, ?_, ?_⟩
  · exact hid ▸ State.team?_modTeam_same (s := s.withBack 0) _ ht (t.scrCells_id _)
  · exact t.scrByte_scrCells_mem (hn.sublist (List.filter_sublist.map _)) (List.mem_filter.2 ⟨hx, by simp [hi]⟩)
  · exact t.scrByte_scrCells_ne fun h => hk (named h)
  · exact t.scrCells_cnt _ 1
  · exact ⟨_, find?_map_seq (fun _ => rfl) (by rwa [Team.scrCells_pend]), rfl⟩

theorem State.cctl_performed {lines : List Nat} {clean drop : Bool} (hk : p.kind = .cctl lines clean drop)
    (hctr : p.ctr = some 1) (hclean : clean = false ∨ ∀ w ∈ (s.core t.core).wbuf, ∀ x ∈ w.bytes, lineOf x.1 ∉ lines) :
    ∃ u v, s.storePerform = u ∧ u.mem = s.mem ∧ u.team? s.ev.team = some v ∧ v.cnt 1 = t.cnt 1 - 1 ∧
      (u.core t.core).wbuf = (s.core t.core).wbuf ∧
      (drop = true → (∀ c ∈ (u.core t.core).near, c.line ∉ lines) ∧ ∀ c ∈ (u.die (dieOfCore t.core)).far, c.line ∉ lines) := by
  obtain ⟨ht, hpend⟩ := State.evPend_eq_some he
  rw [← hid] at ht
  rw [← (Team.mem_of_pendOf hpend).2] at hpend
  have event := State.storePerform_pending he hp hc
  simp only [hk, State.asOld_eq] at event
  generalize s.oldPend t.part t.id p.seq = n at event
  rw [State.cctlPerform_ready (s := s.withBack n) hclean] at event
  obtain ⟨qmem, qteams, qbuf⟩ := (s.withBack n).dropLines_stands t.core lines drop
  generalize hq : (if drop then (s.withBack n).dropLines t.core lines else s.withBack n) = q at *
  obtain ⟨wmem, -, wdies, wcores⟩ := q.modWork_stands t.part t.id fun u => u.perform p.seq []
  obtain ⟨v, hv, hcnt⟩ := State.perform_modWork (s := q) t.part (by rw [State.team?, qteams]; exact ht) hpend hctr
  generalize (q.modWork t.part t.id fun u => u.perform p.seq []) = w at *
  have core : w.core t.core = q.core t.core := by rw [State.core, wcores]; rfl
  have die : w.die (dieOfCore t.core) = q.die (dieOfCore t.core) := by rw [State.die, wdies]; rfl
  refine ⟨_, v, event, wmem.trans qmem, hid ▸ hv, hcnt, (congrArg Core.wbuf core).trans qbuf, ?_⟩
  rintro rfl
  obtain rfl : (s.withBack n).dropLines t.core lines = q := hq
  exact ⟨fun k hk => State.dropLines_near _ t.core lines k (core ▸ hk),
    fun k hk => State.dropLines_far _ t.core lines k (die ▸ hk)⟩
end

end Sys2Proof.Machine

open Sys2Proof Sys2Proof.Machine in
/-- Settles O40: an entry that leaves is written byte for byte and drops the far copies of its lines; `sts` and `cctl` act on
their team, and on the copies of its core and die. -/
theorem storesArePerformed : Obligations.StoresArePerformed := by
  intro s t p accs rel before e held leaves
  refine ⟨?_, ?_, ?_, ?_⟩
  · intro he hp hc hk hr hf hb free here hn hh
    have event := State.storePerform_pending he hp hc
    simp only [hk, State.asOld_eq] at event
    rw [State.stPerform_leaves (s := s.withBack (s.oldPend t.part t.id p.seq)) hr hf hb free (State.hostOpen_here here)
      (State.writeHeld_back _ hh)] at event
    obtain ⟨bytes, others, far⟩ := State.written_asOld (t := t) here hn (s.oldPend t.part t.id p.seq)
      (g := fun q => q.modWork t.part t.id fun u => u.perform p.seq [])
      (fun q => (q.modWork_stands ..).1) (fun q => (q.modWork_stands ..).2.1) (fun q => (q.modWork_stands ..).2.2.1)
    exact ⟨_, congrArg Host.Outcome.next event, bytes, others, far⟩
  · intro ht hq hb hcount free here hn hh
    have event := (State.storePerform_update ht hq).trans (State.updatePerform_leaves hb hcount free
      (State.hostOpen_here here) fun n => State.writeHeld_back n hh)
    obtain ⟨bytes, others, far⟩ := State.written_asOld (t := t) here hn ((s.part t.part).epoch - e.epoch) (g := id)
      (fun _ => rfl) (fun _ => rfl) (fun _ => rfl)
    exact ⟨_, congrArg Host.Outcome.next event, bytes, others, far⟩
  · intro left he hid _ hp hc hk hctr hs hh hold hn
    cases hf : s.ev.flag with
    | false =>
      obtain ⟨u, v, event, mem, team, all⟩ := State.sts_all_performed he hid hp hc hk hctr hs hh hold hn hf
      exact ⟨u, v, congrArg Host.Outcome.next event, mem, team, fun _ => all, nofun⟩
    | true =>
      obtain ⟨u, v, event, mem, team, one⟩ := State.sts_one_performed he hid hp hc hk hs hh hold hn hf
      exact ⟨u, v, congrArg Host.Outcome.next event, mem, team, nofun, fun _ => one⟩
  · intro lines clean drop he hid hp hc hk hctr hclean
    obtain ⟨u, v, event, stands⟩ := State.cctl_performed he hid hp hc hk hctr hclean
    exact ⟨u, v, congrArg Host.Outcome.next event, stands⟩
end

section
/-!
SUPPORT. Translation, the gate and the account of an issue change no byte of memory, no team, no register of the module, no
window and no graph.
-/
namespace Sys2Proof.Machine

/-! ## Translation -/

section
variable (s : State)

theorem State.sameMemory_free (n : Nat) : s.SameMemory { s with free := n } := ⟨rfl, rfl, rfl, rfl, rfl, fun _ => rfl⟩

theorem State.sameMemory_walkDie (d p va : Nat) : s.SameMemory (s.walkDie d p va).1 := by
  have noted := s.sameMemory_countEvent p d 0x009 1
  unfold State.walkDie
  dsimp only
  split
  · exact (noted.trans (State.sameMemory_modDie _ d _)).trans (State.sameMemory_free _ _)
  · exact (((noted.trans (State.sameMemory_modDie _ d _)).trans (State.sameMemory_free _ _)).trans
      (State.sameMemory_modDie _ d _)).trans (State.sameMemory_free _ _)

theorem State.sameMemory_lookupDie (d p va : Nat) : s.SameMemory (s.lookupDie d p va).1 := by
  unfold State.lookupDie
  split
  · exact .refl s
  · exact s.sameMemory_walkDie d p va

theorem State.sameMemory_lookup (c p va : Nat) : s.SameMemory (s.lookup c p va).1 := by
  unfold State.lookup
  dsimp only
  split
  · exact .refl s
  · have walked := (s.sameMemory_countEvent p (dieOfCore c) 0x008 1).trans (State.sameMemory_lookupDie _ (dieOfCore c) p va)
    split
    · next h => rw [h] at walked; exact walked
    · next h => rw [h] at walked; exact (walked.trans (State.sameMemory_modCore _ c _)).trans (State.sameMemory_free _ _)
end

theorem State.sameMemory_xlate (s : State) (c p : Nat) (l : List (Nat × Nat)) : s.SameMemory (s.xlate c p l).1 := by
  induction l generalizing s with
  | nil => exact .refl s
  | cons x r ih =>
    have first := s.sameMemory_lookup c p x.1
    simp only [State.xlate]
    split
    · next h => rw [h] at first; exact first
    · next s1 _ h =>
      rw [h] at first
      have rest := first.trans (ih s1)
      split
      · next h' => rw [h'] at rest; exact rest
      · next h' => rw [h'] at rest; exact rest

theorem State.sameMemory_checkRange (s : State) (c p level : Nat) (k : AccKind) (cl : PClass) (va n : Nat) :
    s.SameMemory (s.checkRange c p level k cl va n).1 := by
  have walked := s.sameMemory_xlate c p (rangePieces va n)
  unfold State.checkRange
  split
  · next h => rw [h] at walked; exact walked
  · next h =>
    rw [h] at walked
    split
    · exact walked
    · split <;> exact walked

theorem State.sameMemory_checkReqs (s : State) (t : Team) (k : AccKind) (cl : PClass) (bad : Nat → Bool) (l : List Req) :
    s.SameMemory (s.checkReqs t k cl bad l).1 := by
  induction l generalizing s with
  | nil => exact .refl s
  | cons r l ih =>
    have first := s.sameMemory_checkRange t.core t.part t.level k cl r.va r.len
    simp only [State.checkReqs]
    split
    · exact .refl s
    · split
      · exact .refl s
      · split
        · next h => rw [h] at first; exact first
        · next s1 _ h =>
          rw [h] at first
          have rest := first.trans (ih s1)
          split
          · next h' => rw [h'] at rest; exact rest
          · next h' => rw [h'] at rest; exact rest

/-! ## The gate -/

/-- A fill of registers counts, and changes its team. -/
theorem State.fillAll_same (s : State) (t : Team) (l : List (Nat × Nat)) :
    s.SameMemory (s.fillAll t l).1 ∧ (s.fillAll t l).2.1.id = t.id := by
  induction l generalizing s t with
  | nil => exact ⟨.refl s, rfl⟩
  | cons x l ih =>
    simp only [State.fillAll]
    split
    · split
      · exact ⟨.refl s, rfl⟩
      · obtain ⟨same, team⟩ := ih ((s.bump t.part 0x156 1).countEvent t.part (dieOfCore t.core) 0x00C 1) _
        exact ⟨((s.sameMemory_setPr ..).trans (State.sameMemory_countEvent ..)).trans same, team⟩
    · exact ih s t

theorem State.fills_same {s s1 : State} {t u : Team} {e : Enc} {a : Access} {x : Option Nat}
    (h : s.fills t e a = some (s1, u, x)) : s.SameMemory s1 ∧ u.id = t.id := by
  unfold State.fills at h
  dsimp only at h
  split at h
  · cases h
  · have guard := s.fillAll_same t (guardKeys t e)
    split at h
    · next e1 => cases h; rw [e1] at guard; exact guard
    · next s2 t2 e1 =>
      rw [e1] at guard
      split at h
      · obtain ⟨same, team⟩ := s2.fillAll_same t2 (fillKeys s2 t2 e a).eraseDups
        rw [Option.some.inj h] at same team
        exact ⟨guard.1.trans same, team.trans guard.2⟩
      · cases h

/-- What comes out of the gate for team `k` in state `s`. -/
def Gate.From (s : State) (k : TeamId) : Gate → Prop
  | .wait => True
  | .off q u | .fault q u .. | .go q u => s.SameMemory q ∧ u.id = k
  | .debug u _ => u.id = k

theorem State.gate_from (s : State) (t : Team) (i : Instr) (e : Enc) (n : RunOf) : (s.gate t i e n).From s t.id := by
  have arrived (c : Clause) : (t.arrived c).id = t.id := t.landWhere_id _
  unfold State.gate
  split
  · trivial
  · next c _ =>
    split
    · trivial
    · dsimp only
      split
      · exact ⟨.refl s, arrived c⟩
      · split
        · trivial
        · split
          · exact arrived c
          · split
            · exact ⟨.refl s, arrived c⟩
            · split
              · trivial
              · split
                · trivial
                · next h =>
                  obtain ⟨same, team⟩ := State.fills_same h
                  exact ⟨same, team.trans (arrived c)⟩
                · next h =>
                  obtain ⟨same, team⟩ := State.fills_same h
                  split <;> exact ⟨same, team.trans (arrived c)⟩

theorem State.sameMemory_account (s : State) (t : Team) (e : Enc) (on : Bool) : s.SameMemory (s.account t e on) := by
  have passes (s : State) (l : List Pass) : s.SameMemory (s.addPasses t l) := s.sameMemory_modCore _ _
  unfold State.account
  split
  · exact .refl s
  · split
    · exact .refl s
    · split
      · exact (s.sameMemory_countEvent ..).trans (passes ..)
      · split
        · dsimp only
          split
          · exact (passes ..).trans (passes ..)
          · exact passes ..
        · exact passes ..

end Sys2Proof.Machine
end

section
/-!
R141, R285. A memory instruction that issues: what it leaves of memory, of the registers of the module and of other teams.
-/
namespace Sys2Proof.Machine

/-- What stands under the number of team `k` has that number. -/
def State.Keyed (s : State) (k : TeamId) : Prop := ∀ u, s.team? k = some u → u.id = k

/-- From `s` to `s'` memory, its poison, the registers of the module and every team but `k` stand. -/
structure State.OthersStand (k : TeamId) (s s' : State) : Prop where
  mem : s'.mem = s.mem
  poison : s'.poison = s.poison
  mregs : s'.mregs = s.mregs
  teams : ∀ j, j ≠ k → s'.team? j = s.team? j

namespace State.OthersStand
variable {k : TeamId} {s q r : State}

theorem refl : State.OthersStand k s s := ⟨rfl, rfl, rfl, fun _ _ => rfl⟩
theorem trans (h : State.OthersStand k s q) (g : State.OthersStand k q r) : State.OthersStand k s r :=
  ⟨g.mem.trans h.mem, g.poison.trans h.poison, g.mregs.trans h.mregs, fun j hj => (g.teams j hj).trans (h.teams j hj)⟩
theorem of_same (h : s.SameMemory q) : State.OthersStand k s q :=
  ⟨h.mem, h.poison, h.mregs, fun j _ => by rw [State.team?, h.teams]; rfl⟩
theorem of_counts (h : OnlyCounts s q) : State.OthersStand k s q :=
  ⟨h.mem, h.poison, h.mregs, fun j _ => h.team? j⟩
theorem of_team (h : OnlyTeam k s q) : State.OthersStand k s q := ⟨h.mem, h.poison, h.mregs, h.teams⟩
theorem setTeam {t : Team} (h : t.id = k) : State.OthersStand k s (s.setTeam t) :=
  h ▸ of_team (OnlyTeam.setTeam s t)
end State.OthersStand

/-! ## The number of a team -/

section
variable {s q : State} {k : TeamId}

theorem State.Keyed.of_teams (h : s.Keyed k) (ht : q.teams = s.teams) : q.Keyed k := fun u hu =>
  h u (by rwa [State.team?, ht] at hu)

/-- A team stands under its own number. -/
theorem State.Keyed.setTeam (h : s.Keyed k) (t : Team) : (s.setTeam t).Keyed k := fun u hu => by
  by_cases hk : t.id = k
  · subst hk
    rw [State.team?_setTeam_same] at hu
    exact Option.some.inj hu ▸ rfl
  · rw [State.team?_setTeam_ne s t hk] at hu
    exact h u hu

theorem State.keyed_setTeam (s : State) (t : Team) : (s.setTeam t).Keyed t.id := fun u hu => by
  rw [State.team?_setTeam_same] at hu
  exact Option.some.inj hu ▸ rfl

theorem State.Keyed.modTeam (h : s.Keyed k) (j : TeamId) (f : Team → Team) : (s.modTeam j f).Keyed k := by
  unfold State.modTeam
  split
  · exact h.setTeam _
  · exact h

theorem State.Keyed.doubleFault (h : s.Keyed k) (t : Team) (f : FaultRec) : (s.doubleFault t f).Keyed k :=
  ((h.setTeam _).of_teams (State.tracePacket_counts _ _ _ _).teams).of_teams (State.sendSup_counts _ _ _).teams

theorem State.Keyed.enterHandler (h : s.Keyed k) (t : Team) (f : FaultRec) (vec : W64) : (s.enterHandler t f vec).Keyed k := by
  have arrives := (s.arriveFrom_counts (t.inHandler f) vec (t.inHandler f).steps).1
  unfold State.enterHandler
  split
  next s1 u bad e =>
  rw [e] at arrives
  have stands := (h.of_teams arrives.teams).setTeam u
  cases bad with
  | false => exact stands
  | true => exact stands.doubleFault u _

theorem State.Keyed.deliver (h : s.Keyed k) (t : Team) (f : FaultRec) : (s.deliver t f).Keyed k := by
  unfold State.deliver
  dsimp only
  split
  · exact h.doubleFault t f
  · split
    · have bit := s.mapBit_counts t (s.vector t).2 (s.vector t).1
      split
      · next e => rw [e] at bit; exact (h.of_teams bit.teams).enterHandler _ _ _
      · next e => rw [e] at bit; exact (h.of_teams bit.teams).doubleFault _ _
    · exact h.doubleFault t f

theorem State.Keyed.raise (h : s.Keyed k) (t : Team) (f : FaultRec) : (s.raise t f).Keyed k := by
  unfold State.raise
  split
  · exact h.deliver _ f
  · exact h.setTeam _

theorem State.Keyed.arrive (h : s.Keyed k) (t : Team) (a : W64) : (s.arrive t a).Keyed k := by
  have arrives := (s.arriveFrom_counts t a t.steps).1
  unfold State.arrive
  split
  · next e => rw [e] at arrives; exact (h.of_teams arrives.teams).setTeam _
  · next e => rw [e] at arrives; exact (h.of_teams arrives.teams).raise _ _
end

/-! ## From the start of an effect -/

/-- From `s` to `q` nothing but team `k` changes of what an access would change, and `k` keeps its number. -/
structure State.Keeps (k : TeamId) (s q : State) : Prop where
  others : State.OthersStand k s q
  keyed : q.Keyed k

namespace State.Keeps
variable {k : TeamId} {s q r : State}

theorem refl (h : s.Keyed k) : State.Keeps k s s := ⟨.refl, h⟩
theorem same (h : State.Keeps k s q) (g : q.SameMemory r) : State.Keeps k s r :=
  ⟨h.others.trans (.of_same g), h.keyed.of_teams g.teams⟩
theorem counts (h : State.Keeps k s q) (g : OnlyCounts q r) : State.Keeps k s r :=
  ⟨h.others.trans (.of_counts g), h.keyed.of_teams g.teams⟩

theorem modTeam (h : State.Keeps k s q) {f : Team → Team} (hf : ∀ u, (f u).id = u.id) : State.Keeps k s (q.modTeam k f) := by
  refine ⟨h.others.trans ?_, h.keyed.modTeam k f⟩
  cases hu : q.team? k with
  | none => rw [State.modTeam_none f hu]; exact .refl
  | some u =>
    rw [State.modTeam_some f hu]
    exact .setTeam ((hf u).trans (h.keyed u hu))

theorem pendAdd {t : Team} (h : State.Keeps t.id s q) (la : Fin 16) (ctr : Option Nat) (kind : PKind) (o performed : Bool)
    (dsts : List RegRef) (land : List RegWrite) : State.Keeps t.id s (q.pendAdd t la ctr kind o performed dsts land) := by
  refine h.modTeam fun u => ?_
  obtain ⟨x, hx⟩ := u.released_with_relAt kind.release
  cases ctr <;> simp [hx, Team.addCnt]

theorem arrive {t : Team} (h : State.Keeps t.id s q) (a : W64) : State.Keeps t.id s (q.arrive t a) :=
  ⟨h.others.trans (.of_team (q.arrive_team t a)), h.keyed.arrive t a⟩

theorem yieldAfter {t : Team} (h : State.Keeps t.id s q) : State.Keeps t.id s (q.yieldAfter t) := by
  unfold State.yieldAfter
  split
  · split
    · exact h.modTeam fun _ => rfl
    · exact h
  · exact h

theorem moveOn {t : Team} (h : State.Keeps t.id s q) : State.Keeps t.id s (q.moveOn t) := by
  unfold State.moveOn
  split
  · split
    · next u hu =>
      have number := h.keyed u hu
      rw [← number] at h ⊢
      exact (h.arrive _).yieldAfter
    · exact h
  · exact h.modTeam fun _ => rfl

theorem advance {t : Team} (h : State.Keeps t.id s q) : State.Keeps t.id s (q.advance t) :=
  (h.modTeam (f := Team.retired) fun _ => rfl).moveOn
end State.Keeps

/-- An effect that goes on, faults, stops or waits, and keeps all but team `k`. -/
def Eff.Keeps (k : TeamId) (s : State) : Eff → Prop
  | .ok q => State.Keeps k s q
  | .fault .. | .debug .. | .wait => True
  | _ => False

theorem Eff.Keeps.trans {k : TeamId} {s q : State} {r : Eff} (h : r.Keeps k q) (g : State.Keeps k s q) : r.Keeps k s := by
  cases r with
  | ok u => exact ⟨g.others.trans (State.Keeps.others h), State.Keeps.keyed h⟩
  | fault | debug | wait => trivial
  | goto | leave | done | hold | faultIn => exact h.elim

theorem State.othersStand_debugEvent (s : State) (t : Team) (code : Nat) (info s62 : W64) (c : Option Nat) :
    State.OthersStand t.id s (s.debugEvent t code info s62 c) := by
  unfold State.debugEvent
  split
  · exact .setTeam rfl
  · exact .of_team (s.raise_team t _)

/-- What becomes of the effect of team `t`. -/
theorem State.othersStand_conclude {s : State} {t : Team} {r : Eff} (hr : r.Keeps t.id s) :
    State.OthersStand t.id s (s.conclude t r) := by
  cases r with
  | wait => exact ⟨rfl, rfl, rfl, fun _ _ => rfl⟩
  | fault => exact .of_team (s.raise_team t _)
  | debug => exact s.othersStand_debugEvent t _ _ _ _
  | ok s' =>
    have falls := s.fallsInto_counts t
    simp only [State.conclude]
    split
    · next e =>
      rw [e] at falls
      exact (State.OthersStand.of_counts falls).trans (.of_team (State.raise_team _ t _))
    · exact State.Keeps.others (State.Keeps.advance hr)
  | goto | leave | done | hold | faultIn => exact hr.elim

/-! ## The issue -/

theorem State.traceNotTaken_counts (s : State) (t : Team) (opc : Nat) : OnlyCounts s (s.traceNotTaken t opc) := by
  unfold State.traceNotTaken
  split
  · exact s.tracePacket_counts t _ _
  · exact .refl s

theorem State.prepare_setTeam (s : State) (t : Team) (e : Enc) (a : Access) :
    (s.setTeam t).prepare t e a = s.prepare t e a :=
  congrArg (·.account t e true) (s.setTeam_setTeam_same (t.startedAs_id e a))

theorem State.keeps_prepare (s : State) (t : Team) (e : Enc) (a : Access) : State.Keeps t.id s (s.prepare t e a) := by
  have started : (s.setTeam (t.startedAs e a)).Keyed t.id := t.startedAs_id e a ▸ s.keyed_setTeam _
  exact (State.Keeps.mk (.setTeam (t.startedAs_id e a)) started).same (State.sameMemory_account _ t e true)

theorem State.Still.prepare {s : State} (h : s.Still) (t : Team) (e : Enc) (a : Access) : (s.prepare t e a).Still :=
  (State.sameMemory_account _ t e true).still (s := s.setTeam (t.startedAs e a)) ⟨h.wins, h.part⟩

/-- An instruction whose effect keeps all but its team leaves everything but that team; its effect may use that no line moves. -/
theorem State.othersStand_issueRun {s u : State} {t : Team} {i : Instr} {n : RunOf} {eff : State → Team → Eff}
    (he : ∀ q (v : Team), q.Keyed v.id → (s.Still → q.Still) → (eff q v).Keeps v.id q) (hc : s.cur = some t)
    (h : issueRun n i eff s = .next u) : State.OthersStand t.id s u := by
  unfold issueRun at h
  rw [hc] at h
  cases henc : i.enc with
  | none => simp [henc] at h
  | some e =>
    simp only [henc] at h
    have out := s.gate_from t i e n
    cases hg : s.gate t i e n with
    | wait =>
      rw [hg] at h
      cases h
      exact ⟨rfl, rfl, rfl, fun _ _ => rfl⟩
    | off q v =>
      rw [hg] at h out
      cases h
      obtain ⟨same, number⟩ := out
      have passed : State.Keeps v.id (q.setTeam v) (((q.setTeam v).account v e false).traceNotTaken v e.opc) :=
        ((State.Keeps.refl (q.keyed_setTeam v)).counts (State.account_counts _ v e false)).counts
          (State.traceNotTaken_counts _ v e.opc)
      exact number ▸ ((State.OthersStand.of_same same).trans (.setTeam rfl)).trans
        (State.othersStand_conclude (r := .ok _) passed)
    | fault q v code info s62 =>
      rw [hg] at h out
      cases h
      obtain ⟨same, number⟩ := out
      exact number ▸ (State.OthersStand.of_same same).trans (.of_team (q.raise_team v _))
    | debug v c =>
      rw [hg] at h out
      cases h
      have number : v.id = t.id := out
      exact number ▸ s.othersStand_debugEvent v _ _ _ _
    | go q v =>
      rw [hg] at h out
      cases h
      obtain ⟨same, number⟩ := out
      have starts := (q.setTeam v).keeps_prepare v e (encAccess e (n q v))
      rw [q.prepare_setTeam v] at starts
      have done := he _ v starts.keyed fun hs => (same.still hs).prepare v e (encAccess e (n q v))
      exact number ▸ ((State.OthersStand.of_same same).trans (.setTeam rfl)).trans
        (State.othersStand_conclude (done.trans starts))

/-! ## The effects -/

section
variable {s : State} {t : Team} (hk : s.Keyed t.id)

theorem Eff.Keeps.watching {reads writes : Bool} {l : List Req} {r : Eff} {q : State} (h : r.Keeps t.id s) :
    (q.watching t reads writes l r).Keeps t.id s := by
  unfold State.watching
  split
  · trivial
  · exact h

theorem Eff.Keeps.withScratch {lanes : List Nat} {a : Opnd} {off n al : Nat} {f : List Acc → Eff}
    (h : ∀ accs, (f accs).Keeps t.id s) : (withScratch s t lanes a off n al f).Keeps t.id s := by
  unfold Machine.withScratch
  split
  · trivial
  · exact h _

theorem State.Keeps.bufStore {q : State} (h : State.Keeps t.id s q) (seq : Nat) (counted : Bool) (rel : Nat) (va : W64)
    (l : List (Nat × Byte)) : State.Keeps t.id s (q.bufStore t seq counted rel va l) := by
  have entered := h.counts (OnlyCounts.modCore q t.core fun x => { x with wbuf := x.wbuf ++ [⟨t.id, seq, counted,
    (q.part t.part).epoch, rel, [], va, lastOf (l.map fun (a, b) => (q.norm a, b))⟩] })
  unfold State.bufStore
  dsimp only
  split
  · exact entered.counts (OnlyCounts.modCore _ _ _)
  · split
    · unfold State.noteRelease
      dsimp only
      split
      · exact entered
      · exact ⟨⟨entered.others.mem, entered.others.poison, entered.others.mregs, entered.others.teams⟩, entered.keyed⟩
    · exact entered

theorem State.Keeps.acquire {q : State} (h : State.Keeps t.id s q) (sc : Scope) : State.Keeps t.id s (q.acquire t sc) := by
  unfold State.acquire
  dsimp only
  have near : State.Keeps t.id s (if 2 ≤ sc.code then q.dropNear t.core else q) := by
    split
    · exact h.counts (OnlyCounts.modCore _ _ _)
    · exact h
  split
  · exact near.counts (OnlyCounts.modDie _ _ _)
  · exact near

include hk

theorem Eff.Keeps.withAccess {kind : AccKind} {cl : PClass} {bad : Nat → Bool} {reads writes : Bool} {l : List Req}
    {f : State → List Acc → Eff} (h : ∀ q accs, State.Keeps t.id s q → (f q accs).Keeps t.id s) :
    (withAccess s t kind cl bad reads writes l f).Keeps t.id s := by
  have same := s.sameMemory_checkReqs t kind cl bad l
  unfold Machine.withAccess
  split
  · trivial
  · next e =>
    rw [e] at same
    exact (h _ _ ((State.Keeps.refl hk).same same)).watching

theorem ldEff_keeps (ty : SZL) (acq : Option Scope) (x : MArgs) : (ldEff ty acq x s t).Keeps t.id s :=
  .withAccess hk fun _ _ h => h.pendAdd ..

theorem stEff_keeps (ty : SZS) (rel : Option Scope) (x : MArgs) : (stEff ty rel x s t).Keeps t.id s := by
  refine .withAccess hk fun q accs h => State.Keeps.pendAdd ?_ ..
  split
  · exact h
  · exact h.bufStore ..

theorem ldsEff_keeps (ty : SZL) (x : MArgs) : (ldsEff ty x s t).Keeps t.id s :=
  .withScratch fun _ => (State.Keeps.refl hk).pendAdd ..
theorem stsEff_keeps (ty : SZS) (x : MArgs) : (stsEff ty x s t).Keeps t.id s :=
  .withScratch fun _ => (State.Keeps.refl hk).pendAdd ..

theorem atomEff_keeps (op : AT) (cas : Bool) (sc : Scope) (o : Order) (ty : AtomTy) (res : Bool) (x : RArgs) :
    (atomEff op cas sc o ty res x s t).Keeps t.id s := .withAccess hk fun _ _ h => h.pendAdd ..
theorem atomsEff_keeps (op : AT) (cas : Bool) (ty : AtomTy) (x : RArgs) : (atomsEff op cas ty x s t).Keeps t.id s :=
  .withScratch fun _ => (State.Keeps.refl hk).pendAdd ..

theorem rdoEff_keeps (x : RArgs) : (rdoEff x s t).Keeps t.id s := by
  have same := s.sameMemory_checkReqs t .store .plain (s.rdoBad t) (rdoReqs s t x)
  unfold rdoEff
  dsimp only
  split
  · trivial
  · next e =>
    rw [e] at same
    exact Eff.Keeps.watching (r := .ok _) (((State.Keeps.refl hk).same same).pendAdd ..)

theorem ldvEff_keeps (ty : SZV) (sc : Scope) (acq : Bool) (x : RArgs) : (ldvEff ty sc acq x s t).Keeps t.id s :=
  .withAccess hk fun _ _ h => h.pendAdd ..
theorem ldvLatestEff_keeps (ty : SZV) (sc : Scope) (acq : Bool) (x : RArgs) : (ldvLatestEff ty sc acq x s t).Keeps t.id s :=
  .withAccess hk fun _ _ h => h.pendAdd ..
theorem stvEff_keeps (ty : SZS) (rel : Option Scope) (x : RArgs) : (stvEff ty rel x s t).Keeps t.id s :=
  .withAccess hk fun _ _ h => h.pendAdd ..
theorem vflrEff_keeps (x : RArgs) : (vflrEff x s t).Keeps t.id s := .withAccess hk fun _ _ h => h.pendAdd ..
theorem vqryEff_keeps (x : RArgs) : (vqryEff x s t).Keeps t.id s := .withAccess hk fun _ _ h => h.pendAdd ..

theorem acpEff_keeps (tag : Fin 8) (x : RArgs) : (acpEff tag x s t).Keeps t.id s :=
  .withAccess hk fun _ _ h => (h.pendAdd ..).modTeam fun _ => rfl
theorem acpwEff_keeps (tag : Fin 8) : (acpwEff tag s t).Keeps t.id s := by
  unfold acpwEff
  split
  · exact .refl hk
  · trivial

theorem unleaseEff_keeps (x : RArgs) : (unleaseEff x s t).Keeps t.id s := by
  unfold unleaseEff
  dsimp only
  split
  · exact (State.Keeps.refl hk).same (s.sameMemory_setPart t.part rfl)
  · trivial

theorem cctlEff_keeps (op : CC) (x : RArgs) : (cctlEff op x s t).Keeps t.id s := by
  have same := s.sameMemory_xlate t.core t.part (rangePieces (va56 (addrOf s t x.a 0)) (uni s t x.b).toNat)
  unfold cctlEff
  dsimp only
  split
  · trivial
  · split
    · trivial
    · next e =>
      rw [e] at same
      split
      · trivial
      · exact ((State.Keeps.refl hk).same same).pendAdd ..

theorem fenceEff_keeps (op : FN) (sc : Scope) : (fenceEff op sc s t).Keeps t.id s := by
  have released (u : Team) : (u.released (some sc)).id = u.id := rfl
  unfold fenceEff
  split
  · trivial
  · dsimp only
    have acquired : State.Keeps t.id s (if op == .rel then s else s.acquire t sc) := by
      split
      · exact .refl hk
      · exact (State.Keeps.refl hk).acquire sc
    generalize (if op == .rel then s else s.acquire t sc) = q at acquired
    have noted : State.Keeps t.id s (if op == .acq then q else q.modTeam t.id fun u => u.released (some sc)) := by
      split
      · exact acquired
      · exact acquired.modTeam released
    generalize (if op == .acq then q else q.modTeam t.id fun u => u.released (some sc)) = r at noted
    show State.Keeps t.id s (if _ then _ else _)
    split
    · exact noted.modTeam fun _ => rfl
    · exact noted
end

/-! ## `lease` and `pref`, where no line moves -/

section
variable {s : State} {t : Team} (hk : s.Keyed t.id) (hs : s.Still)
include hk hs

theorem leaseEff_keeps (x : RArgs) : (leaseEff x s t).Keeps t.id s := by
  have same := s.sameMemory_checkRange t.core t.part t.level .load .plain (va56 (addrOf s t x.a 0)) (uni s t x.b).toNat
  unfold leaseEff
  dsimp only
  split
  · trivial
  · split
    · trivial
    · next e =>
      rw [e] at same
      have reached := (same.still hs).sameMemory_reachLines t.part
      split
      · trivial
      · split
        · trivial
        · split
          · trivial
          · split
            · trivial
            · exact (((State.Keeps.refl hk).same same).same (reached _)).same (State.sameMemory_setPart _ t.part rfl)
end

section
variable {s : State} (hs : s.Still)
include hs

theorem State.Still.sameMemory_prefAt (t : Team) (lv : PL) (line : Nat) : s.SameMemory (s.prefAt t lv line) := by
  have reached := hs.sameMemory_reach t.part line
  unfold State.prefAt
  split
  · exact hs.sameMemory_fillLine t .home line
  · exact reached
  · dsimp only
    split
    · exact reached.trans (State.sameMemory_putFar ..)
    · exact reached
end

theorem State.sameMemory_prefLine (s : State) (t : Team) (va : Nat) : s.SameMemory (s.prefLine t va).1 := by
  have same := s.sameMemory_checkRange t.core t.part t.level .load .plain (va56 va / 64 * 64) 64
  unfold State.prefLine
  dsimp only
  split
  · next e => rw [e] at same; exact same
  · next e =>
    rw [e] at same
    split <;> exact same

theorem State.Still.sameMemory_prefAll {s : State} (hs : s.Still) (t : Team) (lv : PL) (l : List Nat) :
    s.SameMemory (s.prefAll t lv l) := by
  induction l generalizing s with
  | nil => exact .refl s
  | cons va l ih =>
    have same := s.sameMemory_prefLine t va
    rw [State.prefAll]
    split
    · next q line e =>
      rw [e] at same
      have fetched := same.trans ((same.still hs).sameMemory_prefAt t lv line)
      exact fetched.trans (ih (fetched.still hs))
    · next e =>
      rw [e] at same
      exact same.trans (ih (same.still hs))

theorem prefEff_keeps {s : State} {t : Team} (hk : s.Keyed t.id) (hs : s.Still) (lv : PL) (x : MArgs) :
    (prefEff lv x s t).Keeps t.id s :=
  (State.Keeps.refl hk).same (hs.sameMemory_prefAll t lv _)

/-! ## The instructions -/

/-- An access that issues leaves everything but its team. -/
theorem othersStand_of_access {i : Instr} {e : Enc} {s u : State} {t : Team} (he : i.enc = some e) (lo : 0x80 ≤ e.opc)
    (hi : e.opc < 0x9A) (hr : ∀ x, i ≠ .rdoset x) (hs : (∃ l x y, i = .lease x ∨ i = .pref l y) → s.Still)
    (hc : s.cur = some t) (h : exec i s = .next u) : State.OthersStand t.id s u := by
  have access : (Nat.ble 0x80 e.opc && Nat.blt e.opc 0x9A) = true := by simp [lo, hi]
  cases i with
  | ld => exact State.othersStand_issueRun (fun _ _ hk _ => ldEff_keeps hk ..) hc h
  | ldAcq => exact State.othersStand_issueRun (fun _ _ hk _ => ldEff_keeps hk ..) hc h
  | st => exact State.othersStand_issueRun (fun _ _ hk _ => stEff_keeps hk ..) hc h
  | stRel => exact State.othersStand_issueRun (fun _ _ hk _ => stEff_keeps hk ..) hc h
  | lds => exact State.othersStand_issueRun (fun _ _ hk _ => ldsEff_keeps hk ..) hc h
  | sts => exact State.othersStand_issueRun (fun _ _ hk _ => stsEff_keeps hk ..) hc h
  | atom => exact State.othersStand_issueRun (fun _ _ hk _ => atomEff_keeps hk ..) hc h
  | atomCas => exact State.othersStand_issueRun (fun _ _ hk _ => atomEff_keeps hk ..) hc h
  | red => exact State.othersStand_issueRun (fun _ _ hk _ => atomEff_keeps hk ..) hc h
  | atoms => exact State.othersStand_issueRun (fun _ _ hk _ => atomsEff_keeps hk ..) hc h
  | atomsCas => exact State.othersStand_issueRun (fun _ _ hk _ => atomsEff_keeps hk ..) hc h
  | rdo => exact State.othersStand_issueRun (fun _ _ hk _ => rdoEff_keeps hk _) hc h
  | rdoset x => exact absurd rfl (hr x)
  | ldv => exact State.othersStand_issueRun (fun _ _ hk _ => ldvEff_keeps hk ..) hc h
  | ldvLatest => exact State.othersStand_issueRun (fun _ _ hk _ => ldvLatestEff_keeps hk ..) hc h
  | stv => exact State.othersStand_issueRun (fun _ _ hk _ => stvEff_keeps hk ..) hc h
  | stvRel => exact State.othersStand_issueRun (fun _ _ hk _ => stvEff_keeps hk ..) hc h
  | vflr => exact State.othersStand_issueRun (fun _ _ hk _ => vflrEff_keeps hk _) hc h
  | vqry => exact State.othersStand_issueRun (fun _ _ hk _ => vqryEff_keeps hk _) hc h
  | acp => exact State.othersStand_issueRun (fun _ _ hk _ => acpEff_keeps hk ..) hc h
  | acpw => exact State.othersStand_issueRun (fun _ _ hk _ => acpwEff_keeps hk _) hc h
  | unlease => exact State.othersStand_issueRun (fun _ _ hk _ => unleaseEff_keeps hk _) hc h
  | cctl => exact State.othersStand_issueRun (fun _ _ hk _ => cctlEff_keeps hk ..) hc h
  | fence => exact State.othersStand_issueRun (fun _ _ hk _ => fenceEff_keeps hk ..) hc h
  | lease x =>
    have still := hs ⟨.near, x, ⟨x.g, x.d, x.a, x.b, 0, x.la⟩, .inl rfl⟩
    exact State.othersStand_issueRun (fun _ _ hk stays => leaseEff_keeps hk (stays still) x) hc h
  | pref l x =>
    have still := hs ⟨l, ⟨x.g, x.d, x.a, x.b, .none, x.la⟩, x, .inr rfl⟩
    exact State.othersStand_issueRun (fun _ _ hk stays => prefEff_keeps hk (stays still) l x) hc h
  | mfmt x =>
    rw [Instr.enc_mfmt] at he
    split at he <;> cases he <;> exact Bool.noConfusion (access.symm.trans rfl : true = false)
  | syswr w | gptrootWrite w | hptrootWrite w | scrsplitWrite w | domcfgWrite w | dtimeWrite w | gtoffWrite w | modeWrite w
  | saferstWrite w | profctlWrite w | pmselWrite w | trcctlWrite w | dbgdataWrite w =>
    obtain ⟨n, b⟩ := w
    cases b with
    | host p v => cases he
    | team g a => cases he; exact Bool.noConfusion (access.symm.trans rfl : true = false)
  | _ => cases he <;> exact Bool.noConfusion (access.symm.trans rfl : true = false)

end Sys2Proof.Machine

open Sys2Proof Sys2Proof.Machine in
/-- Settles O59: whatever the gate and the effect answer, nothing but the instruction's team is written; `lease` and `pref`
reach lines, which moves no byte where no window is open and no record is spilled. -/
theorem memoryUntouchedAtIssue : Obligations.MemoryUntouchedAtIssue := by
  intro i e s s' he lo hi hr hs h
  have hcur : ∃ t, s.cur = some t := by
    obtain ⟨n, eff, hx, -⟩ := exec_of_enc he
    rw [hx] at h
    cases hc : s.cur with
    | none => simp [issueRun, hc] at h
    | some t => exact ⟨t, rfl⟩
  obtain ⟨t, hc⟩ := hcur
  have stands := othersStand_of_access he lo hi hr (fun x => .of_still (hs x)) hc h
  exact ⟨stands.mregs, stands.poison, State.memByte_congr stands.mem stands.mregs, fun k hk =>
    stands.teams k fun e => hk t hc e.symm⟩
end
